-- ==== Sys2Proof/Word.lean ====
section
/-! DEFINITION. The word types of the Grisiok G24: a byte, a 32-bit instruction word, a 64-bit data word. -/

namespace Sys2Proof

/-- One byte of storage. -/
abbrev Byte := BitVec 8

/-- An instruction word is always 32 bits (R11). -/
abbrev IWord := BitVec 32

/-- The data part of a scalar value or of a tagged word is 64 bits (R10, R19). -/
abbrev DWord := BitVec 64

end Sys2Proof
end

