-- ==== Sys2Proof/Config.lean ====
section
/-! DEFINITION. What the part fixes (sizes, counts) and the free values: constants without a body for what the
manual leaves open, so that no proof can rest on a value of theirs. -/

namespace Sys2Proof.Config

/-- Dies of a package (R1). -/
def numDies : Nat := 24
/-- Cores of a die (R1). -/
def coresPerDie : Nat := 128
/-- Words of a scratchpad (R195). -/
def spWords : Nat := 131072
/-- Bytes of one half of the instruction store (R198). -/
def halfBytes : Nat := 32768
/-- Entries of a task queue, a token buffer and a waiter table (Table 8.1). -/
def queueMax : Nat := 32
def poolMax : Nat := 256
/-- Entries of a commons bank's waiter table (R349). -/
def bankWaiters : Nat := 1024
/-- Entries of an engine command queue (R217) and of a copy stream's queue (R274). -/
def engQueue : Nat := 16
def cpyQueue : Nat := 8
/-- Fault log records of a die (R455). -/
def faultLog : Nat := 4096
/-- TLB entries of a core and of a quad (R341). -/
def coreTlb : Nat := 64
def quadTlb : Nat := 2048
/-- Replay filter entries and lifetime (R470). -/
def filterMax : Nat := 2 ^ 20

/-- Which of the acts that could happen next does: the n-th draw. Nothing is known of it. -/
opaque pick : Nat → Nat
/-- Whether the router that an atomic meets holds it for partners (R350): the n-th draw. -/
opaque holds : Nat → Bool
/-- Whether a write to the own scratchpad that leaves a commit is not performed at once: the n-th draw (R117, R329). -/
opaque slow : Nat → Bool
/-- The translation that a TLB drops at the n-th draw, if any (R363): of a core, by place; of a quad of a die, by place. -/
opaque forgets : Nat → Option (Nat × Nat ⊕ Nat × Nat × Nat)
/-- Of a byte that two rules allow two values, the choice of the n-th draw for the k-th byte (R474). -/
opaque mixes : Nat → Nat → Bool
/-- The firmware that runs at the first boot (R457). -/
opaque firmware : List (BitVec 8)
/-- The action of event 0x0E (Table 21.3): 0 a firmware update, 1 a boundary calibrated, 2 a core mapped out, 3 a core mapped in.
(DESIGN CHOICE, log 80) -/
opaque serviceCode : Nat → BitVec 64
/-- The lines of a way of a last-level cache, whose shape is open (R353, R454). (DESIGN CHOICE, log 77) -/
opaque llcWay : Nat
/-- The identity key's ECDSA P-521 signature of a string of bytes at the n-th draw: bytes of r (false) and of s (true)
(R457, R458). -/
opaque sign : Nat → List (BitVec 8) → Bool → Nat → BitVec 8
/-- Does a firmware image's signature verify against the vendor key (R457)? -/
opaque verifies : List (BitVec 8) → Bool
/-- Whether a spare row or lane is left for a lasting fault: the n-th draw (R454). (DESIGN CHOICE, log 77) -/
opaque spareLeft : Nat → Bool
/-- Bytes of the device identity certificate by offset (R441, R457). -/
opaque certificate : Nat → BitVec 8
/-- Part of a sequence's private block-table area that a word belongs to: the sequences whose lists it holds (R369).
(DESIGN CHOICE, log 94) -/
opaque privateOwner : Nat → List Nat

/-- What SLOTS of KVB.STAT holds when 2^22 slots are free, which its 22 bits do not hold (R380). (DESIGN CHOICE, log 112) -/
opaque allSlots : BitVec 22
/-- What the scrubber finds in the codeword of the n-th visit: 0 clean, 1 correctable, 2 uncorrectable (R356).
(DESIGN CHOICE, log 37) -/
opaque scrubFinds : Nat → Fin 3
/-- Bytes of the n-th packet on the fabric (R447). (DESIGN CHOICE, log 89) -/
opaque fabricBytes : Nat → Nat
/-- The 54 bits that stand before PKGNO in a clockIdentity (R463). -/
opaque clockPrefix : BitVec 54
/-- The byte at a physical address that a save image or a checkpoint record covers, as a read at a tick finds it (R415, R416).
(DESIGN CHOICE, log 18) -/
opaque imageByte : Nat → Nat → BitVec 8
/-- What a fetch finds at a word index beyond the end of the active half of an instruction store (R198). (DESIGN CHOICE, log 120) -/
opaque pastHalf : Nat → BitVec 32
/-- The generation that a wait at a pod barrier of another package awaits, as its entry names it: the n-th such wait (R207).
(DESIGN CHOICE, log 119) -/
opaque podGen : Nat → BitVec 16
/-- INUSE of SCHED_STAT with 512 records in use, which its 9 bits do not hold (R415). (DESIGN CHOICE, log 119) -/
opaque allRecords : BitVec 9
/-- Whether a checkpoint sends a saved domain's stop token with SAVED (R310, R320). (DESIGN CHOICE, log 109) -/
opaque savedToken : Bool
/-- Whether +1 unpacked into a TC element of width 1 wraps; else it is an error element (R247). (DESIGN CHOICE, log 115) -/
opaque t5Fits : Bool
/-- Whether the host populates the 64 KiB granule of host memory with this number (Table 16.2). (DESIGN CHOICE, log 95) -/
opaque hostHas : Nat → Bool

end Sys2Proof.Config
end

