-- ==== Sys2Proof/Syntax.lean ====
section
/-! DEFINITION. The instruction set as syntax: the field types of chapter 3 and ONE inductive `Instr` with a
constructor for every row of the opcode table, the machine's own events (rows without an encoding) included. -/

namespace Sys2Proof

/-- PRED field, Table 3.6; the value 11 is reserved and no constructor stands for it. -/
inductive Pred where
  | always | ifTrue | ifFalse
deriving DecidableEq, Repr

/-- A 9-bit target, Table 3.5 (R66). -/
inductive Target where
  | none
  | write (n : Fin 127)
  | pred (n : Fin 128)
  | opA (n : Fin 128)
  | opB (n : Fin 128)
deriving DecidableEq, Repr

/-- The four operand widths that a signed or a natural mnemonic shares (R75). -/
inductive IWidth where
  | w8 | w16 | w32 | w64
deriving DecidableEq, Repr

/-- Integer type code T, Table 3.8. -/
inductive ITy where
  | s (w : IWidth)
  | n (w : IWidth)
deriving DecidableEq, Repr

/-- Type codes that FCVT names, Table 3.8 (R82). -/
inductive FTy where
  | int (t : ITy)
  | f32 | bf16 | e4m3 | e5m2
deriving DecidableEq, Repr

/-- SPACE field, R73 and Table 7.1. -/
inductive Space where
  | loc | commons | global
deriving DecidableEq, Repr

/-- Scope codes of Table 0.1 (R3). -/
inductive Scope where
  | core | quad | die | pkg | pod
deriving DecidableEq, Repr

/-- Fields of a G-format word with its type and selector taken out (R64). -/
structure GF where
  pred : Pred
  t1 : Target
  t2 : Target
deriving DecidableEq, Repr

/-- Fields of a word with one target (I-format, R64). -/
structure TF where
  pred : Pred
  tgt : Target
deriving DecidableEq, Repr

/-- Fields of an L-format word (R64, R83). -/
structure LF where
  pred : Pred
  lsid : BitVec 5
  space : Space
  off : BitVec 7
  tgt : Target
deriving DecidableEq, Repr

/-- Fields of an S-format store or tag operation (R64, R83). -/
structure SF where
  pred : Pred
  lsid : BitVec 5
  space : Space
  off : BitVec 9
deriving DecidableEq, Repr

/-- Fields of an atomic with return (R84): `nat` is used by MIN and MAX only. -/
structure AF where
  pred : Pred
  lsid : BitVec 5
  w32 : Bool
  nat : Bool
  slot : BitVec 7
  space : Space
  scope : Scope
deriving DecidableEq, Repr

/-- Fields of an atomic in REDUCE form (R84). -/
structure RF where
  pred : Pred
  lsid : BitVec 5
  w32 : Bool
  nat : Bool
  relaxed : Bool
  space : Space
  scope : Scope
deriving DecidableEq, Repr

/-- Predicate and completion slot of an engine command (R65): CV = 0 is `none`. -/
structure XF where
  pred : Pred
  dest : Option (BitVec 7)
deriving DecidableEq, Repr

/-- Static fields of a vector command, Tables 9.2 and 9.3. -/
structure VF where
  sat : Bool
  opt : Bool
  msk : Bool
  cmd : BitVec 11
  gd : Bool
  gb : Bool
  ga : Bool
  cd : BitVec 2
  wd : BitVec 4
  cb : BitVec 2
  wb : BitVec 4
  ca : BitVec 2
  wa : BitVec 4
deriving DecidableEq, Repr

/-- The instructions, engine commands and machine events of the opcode table: one constructor a row.
A machine event has no encoding and no fields here: what singles it out (a core, a slot, a value) is the `Event`
that the state's focus holds when it happens. -/
inductive Instr where
  /-- Exit that frees the frame after commit step 6 (R121). -/
  | broEnd (pred : Pred)
  /-- Exit that keeps the frame under the same task (R121). -/
  | broKeep (pred : Pred)
  /-- Exit that keeps the frame and increments LOOP (R121). -/
  | broRearm (pred : Pred)
  /-- Exit that switches the frame to task t and may fire it again at once (R121). -/
  | broCont (pred : Pred) (task : BitVec 16)
  /-- Delivers a null token to each target (R134). -/
  | null (g : GF)
  /-- Delivers the AND of bit 0 of both operands (R135). -/
  | pand (g : GF)
  /-- Delivers the OR of bit 0 of both operands (R135). -/
  | por (g : GF)
  /-- Delivers the inverse of bit 0 of A (R135). -/
  | pnot (g : GF)
  /-- Delivers 1 when A carries X and 0 otherwise, never with X set (R136). -/
  | testX (g : GF)
  /-- Wrapping integer addition at type T (R137). -/
  | add (t : ITy) (g : GF)
  /-- Wrapping integer subtraction at type T (R137). -/
  | sub (t : ITy) (g : GF)
  /-- Wrapping integer multiplication at type T (R137). -/
  | mul (t : ITy) (g : GF)
  /-- Upper n bits of the signed 2n-bit product (R137). -/
  | mulh (w : IWidth) (g : GF)
  /-- Upper n bits of the natural 2n-bit product (R137). -/
  | mulhn (w : IWidth) (g : GF)
  /-- Signed division truncating toward zero; division by zero gives an error token and sets INV (R138). -/
  | div (w : IWidth) (g : GF)
  /-- Natural division; division by zero gives an error token and sets INV (R138). -/
  | divn (w : IWidth) (g : GF)
  /-- Signed remainder taking the sign of a; zero divisor gives an error token and INV (R138). -/
  | rem (w : IWidth) (g : GF)
  /-- Natural remainder; zero divisor gives an error token and INV (R138). -/
  | remn (w : IWidth) (g : GF)
  /-- Signed minimum of a and b (R137). -/
  | min (w : IWidth) (g : GF)
  /-- Natural minimum of a and b (R137). -/
  | minn (w : IWidth) (g : GF)
  /-- Signed maximum of a and b (R137). -/
  | max (w : IWidth) (g : GF)
  /-- Natural maximum of a and b (R137). -/
  | maxn (w : IWidth) (g : GF)
  /-- Bitwise AND of the n-bit patterns (R137). -/
  | and (t : ITy) (g : GF)
  /-- Bitwise OR of the n-bit patterns (R137). -/
  | or (t : ITy) (g : GF)
  /-- Bitwise XOR of the n-bit patterns (R137). -/
  | xor (t : ITy) (g : GF)
  /-- A AND NOT B on the n-bit patterns (R137). -/
  | andn (t : ITy) (g : GF)
  /-- A OR NOT B on the n-bit patterns (R137). -/
  | orn (t : ITy) (g : GF)
  /-- Shift left by the natural count B, 0 when the count reaches n (R139). -/
  | shl (t : ITy) (g : GF)
  /-- Logical shift right by the natural count B (R139). -/
  | shr (t : ITy) (g : GF)
  /-- Arithmetic shift right filling with the top bit (R139). -/
  | sar (t : ITy) (g : GF)
  /-- Rotate right by B mod n (R139). -/
  | rot (t : ITy) (g : GF)
  /-- Delivers 1 when a equals b (R137). -/
  | teq (t : ITy) (g : GF)
  /-- Delivers 1 when a differs from b (R137). -/
  | tne (t : ITy) (g : GF)
  /-- Delivers 1 when a is less than b, signed (R137). -/
  | tlt (w : IWidth) (g : GF)
  /-- Delivers 1 when a is less than b, natural (R137). -/
  | tltn (w : IWidth) (g : GF)
  /-- Delivers 1 when a is at most b, signed (R137). -/
  | tle (w : IWidth) (g : GF)
  /-- Delivers 1 when a is at most b, natural (R137). -/
  | tlen (w : IWidth) (g : GF)
  /-- Wrapping negation (R137). -/
  | neg (t : ITy) (g : GF)
  /-- Wrapping absolute value (R137). -/
  | abs (t : ITy) (g : GF)
  /-- Count of leading zero bits of the n-bit field (R137). -/
  | clz (t : ITy) (g : GF)
  /-- Count of trailing zero bits of the n-bit field (R137). -/
  | ctz (t : ITy) (g : GF)
  /-- Population count of the n-bit field (R137). -/
  | popc (t : ITy) (g : GF)
  /-- Reverses the bytes of the n-bit field (R137). -/
  | bswap (t : ITy) (g : GF)
  /-- Copies A at type T to one target, keeping its X bit (R140). -/
  | mov (t : ITy) (pred : Pred) (t1 : Target)
  /-- Copies A at type T to two targets, keeping its X bit (R140). -/
  | mov2 (t : ITy) (g : GF)
  /-- Delivers A at type T with X set (R140). -/
  | mkx (t : ITy) (g : GF)
  /-- Delivers A at type T with X clear (R140). -/
  | clrx (t : ITy) (g : GF)
  /-- Adds the signed 9-bit immediate (R141). -/
  | addi (t : ITy) (f : TF) (imm : BitVec 9)
  /-- Compares a for equality with the immediate read at type T (R141). -/
  | teqi (t : ITy) (f : TF) (imm : BitVec 9)
  /-- Compares a for inequality with the immediate (R141). -/
  | tnei (t : ITy) (f : TF) (imm : BitVec 9)
  /-- Signed less-than against the immediate (R141). -/
  | tlti (w : IWidth) (f : TF) (imm : BitVec 9)
  /-- Natural less-than against the immediate (R141). -/
  | tltni (w : IWidth) (f : TF) (imm : BitVec 9)
  /-- Signed less-or-equal against the immediate (R141). -/
  | tlei (w : IWidth) (f : TF) (imm : BitVec 9)
  /-- Natural less-or-equal against the immediate (R141). -/
  | tleni (w : IWidth) (f : TF) (imm : BitVec 9)
  /-- Sign-extends the low m bits of A (R141). -/
  | sext (t : ITy) (f : TF) (m : BitVec 9)
  /-- Zero-extends the low m bits of A (R141). -/
  | zext (t : ITy) (f : TF) (m : BitVec 9)
  /-- Delivers the sign-extended 16-bit constant (R142). -/
  | genc (const : BitVec 16) (tgt : Target)
  /-- Delivers A shifted left 16 with the constant appended (R142). -/
  | appc (const : BitVec 16) (tgt : Target)
  /-- Delivers A times B plus C, wrapped at type T (R143). -/
  | madd (f : TF) (t : ITy)
  /-- Delivers B when bit 0 of A is 1, else C (R143). -/
  | sel (f : TF) (t : ITy)
  /-- Extracts a bit field of A, sign- or zero-extended (R143). -/
  | bfx (f : TF) (t : ITy) (pos : BitVec 6) (len1 : BitVec 6)
  /-- Inserts the low bits of B into a bit field of A (R143). -/
  | bfi (f : TF) (t : ITy) (pos : BitVec 6) (len1 : BitVec 6)
  /-- F32 addition rounded once (R145). -/
  | fadd (g : GF)
  /-- F32 subtraction rounded once (R145). -/
  | fsub (g : GF)
  /-- F32 multiplication rounded once (R145). -/
  | fmul (g : GF)
  /-- F32 division; a zero divisor is invalid (R145). -/
  | fdiv (g : GF)
  /-- Smaller of two F32 values (R145). -/
  | fmin (g : GF)
  /-- Larger of two F32 values (R145). -/
  | fmax (g : GF)
  /-- Delivers integer 1 when the F32 values are equal (R145). -/
  | feq (g : GF)
  /-- Delivers integer 1 when a is less than b (R145). -/
  | flt (g : GF)
  /-- Delivers integer 1 when a is at most b (R145). -/
  | fle (g : GF)
  /-- F32 square root; a negative operand is invalid (R145). -/
  | fsqrt (g : GF)
  /-- Clears the F32 sign bit (R145). -/
  | fabs (g : GF)
  /-- Inverts the F32 sign bit (R145). -/
  | fneg (g : GF)
  /-- Correctly rounded 2 to the power a (R145). -/
  | fexp2 (g : GF)
  /-- Correctly rounded base-2 logarithm; a ≤ 0 is invalid (R145). -/
  | flog2 (g : GF)
  /-- Correctly rounded reciprocal; zero is invalid (R145). -/
  | frcp (g : GF)
  /-- Correctly rounded reciprocal square root; a ≤ 0 is invalid (R145). -/
  | frsq (g : GF)
  /-- F32 a times b plus c rounded once (R147). -/
  | fma (f : TF)
  /-- Converts between integer and float types with rounding, saturation or error (R148). -/
  | fcvt (f : TF) (src dst : FTy)
  /-- Requests a frame of a task on a core or within a quad, die or package and delivers its pointer or NO_SPACE (R149). -/
  | falloc (scope : Scope) (g : GF)
  /-- Frees another frame at commit, applied at its core according to its state (R151). -/
  | ffree (pred : Pred)
  /-- Delivers the firing's own frame pointer (R152). -/
  | self (g : GF)
  /-- Delivers the task id the firing runs (R152). -/
  | taskid (g : GF)
  /-- Reads a snapshot of a frame's header at its core (R153). -/
  | fstat (g : GF)
  /-- Sends B as a token to a slot of frame A at commit (R154). -/
  | send (pred : Pred) (slot : BitVec 7)
  /-- Sends B as an error token with data to a slot of frame A (R154). -/
  | sendx (pred : Pred) (slot : BitVec 7)
  /-- Sends B to slot C of frame A (R155). -/
  | sendi (pred : Pred)
  /-- Reads the slot of the own frame indexed by A (R156). -/
  | ldfx (g : GF)
  /-- Writes B to the own frame's slot A in FILL mode at commit step 5 (R157). -/
  | stfx (g : GF)
  /-- Loads one byte zero-extended (R166). -/
  | ldB (f : LF)
  /-- Loads a halfword zero-extended (R166). -/
  | ldH (f : LF)
  /-- Loads a 32-bit word zero-extended (R166). -/
  | ldW (f : LF)
  /-- Loads 64 bits with the word's X bit (R166). -/
  | ldD (f : LF)
  /-- Loads a full tagged word or aborts the firing and parks the frame as a waiter (R168). -/
  | ldw (f : LF)
  /-- Reads a tagged word for a take that is settled at commit step 2 (R169). -/
  | ldt (f : LF)
  /-- GLOBAL load that gives the filled line an expected read count (R177). -/
  | ldrc (f : LF)
  /-- Delivers the F and X tags of a word (R173). -/
  | feTest (f : LF)
  /-- Stores one byte at commit step 3 (R167). -/
  | stB (f : SF)
  /-- Stores a halfword at commit step 3 (R167). -/
  | stH (f : SF)
  /-- Stores a 32-bit word at commit step 3 (R167). -/
  | stW (f : SF)
  /-- Stores 64 bits with X at commit step 3 (R167). -/
  | stD (f : SF)
  /-- Writes a word and sets F, waking waiters when it was empty (R170). -/
  | stf (f : SF)
  /-- Writes a word only when empty and returns a status token (R171). -/
  | ste (pred : Pred) (lsid : BitVec 5) (space : Space) (slot : BitVec 7)
  /-- Sets F of a word, waking waiters when it was clear (R172). -/
  | feSet (f : SF)
  /-- Clears F of a word (R172). -/
  | feClr (f : SF)
  /-- Writes a cache line's dirty sectors to DRAM and keeps it (R178). -/
  | clean (pred : Pred) (lsid : BitVec 5)
  /-- Writes back and invalidates a cache line (R178). -/
  | inval (pred : Pred) (lsid : BitVec 5)
  /-- Hints a line fill or a bank wake-up, dropped silently on failure (R176). -/
  | pref (f : SF)
  /-- Holds later commit steps until earlier writes are performed for the scope (R179). -/
  | fence (pred : Pred) (lsid : BitVec 5) (scope : Scope)
  /-- Atomic add at the home returning the old value (R181). -/
  | amoAdd (f : AF)
  /-- Atomic minimum returning the old value (R181). -/
  | amoMin (f : AF)
  /-- Atomic maximum returning the old value (R181). -/
  | amoMax (f : AF)
  /-- Atomic AND returning the old value (R181). -/
  | amoAnd (f : AF)
  /-- Atomic OR returning the old value (R181). -/
  | amoOr (f : AF)
  /-- Atomic XOR returning the old value (R181). -/
  | amoXor (f : AF)
  /-- Atomic swap returning the old value (R181). -/
  | amoSwap (f : AF)
  /-- Atomic 32-bit float add returning the old value (R181). -/
  | amoFadd (f : AF)
  /-- Atomic wrapping increment returning the old value (R181). -/
  | amoIncw (f : AF)
  /-- Atomic add without result (R184). -/
  | amoAddReduce (f : RF)
  /-- Atomic minimum without result (R184). -/
  | amoMinReduce (f : RF)
  /-- Atomic maximum without result (R184). -/
  | amoMaxReduce (f : RF)
  /-- Atomic AND without result (R184). -/
  | amoAndReduce (f : RF)
  /-- Atomic OR without result (R184). -/
  | amoOrReduce (f : RF)
  /-- Atomic XOR without result (R184). -/
  | amoXorReduce (f : RF)
  /-- Atomic swap without result (R184). -/
  | amoSwapReduce (f : RF)
  /-- Atomic float add without result, combinable when RELAXED (R184). -/
  | amoFaddReduce (f : RF)
  /-- Atomic wrapping increment without result (R184). -/
  | amoIncwReduce (f : RF)
  /-- Atomic compare-and-swap at the home, with or without result (R181). -/
  | amoCas (x : XF) (lsid : BitVec 5) (space : Space) (scope : Scope) (w32 : Bool)
  /-- Adds an arrival to a barrier, releasing the generation when the count reaches N (R338). -/
  | barArrive (pred : Pred) (scope : Scope) (id : BitVec 6)
  /-- Registers a waiter for a target generation of a barrier (R338). -/
  | barWait (pred : Pred) (scope : Scope) (id : BitVec 6)
  /-- Sets the participant count of a barrier, possibly releasing or unconfiguring it (R338). -/
  | barCfg (pred : Pred) (scope : Scope) (id : BitVec 6)
  /-- Delivers the current package tick (R185). -/
  | tick (g : GF)
  /-- Arms a timer that sends a token to a slot at tick A (R186). -/
  | waittick (pred : Pred)
  /-- Reads a control register, clearing RC fields at commit (R187). -/
  | sysRd (f : TF) (reg : BitVec 9)
  /-- Writes a control register at commit step 4 (R188). -/
  | sysWr (pred : Pred) (reg : BitVec 9)
  /-- Reads a 48-bit performance counter (R189). -/
  | perfRd (f : TF) (ctr : BitVec 9)
  /-- Removes every translation of an address from TLBs within a scope (R190). -/
  | tlbInv (pred : Pred) (scope : Scope)
  /-- Sends a gang barrier arrival whose release token names a common future tick (R478). -/
  | gangSync (pred : Pred)
  /-- Traps the firing with cause SWTRAP carrying A (R191). -/
  | trap (pred : Pred)
  /-- Traps the firing with cause BRK, to a handler or the debugger (R192). -/
  | brk (pred : Pred)
  /-- From a handler block, stops the core starting firings and halts it after resident firings end (R193). -/
  | halt (pred : Pred)
  /-- Element-wise addition of plane sets (R231). -/
  | vadd (x : XF) (v : VF)
  /-- Element-wise subtraction (R231). -/
  | vsub (x : XF) (v : VF)
  /-- Element-wise multiplication (R231). -/
  | vmul (x : XF) (v : VF)
  /-- Element-wise multiply-add into the destination (R231). -/
  | vfma (x : XF) (v : VF)
  /-- Element-wise minimum (R231). -/
  | vmin (x : XF) (v : VF)
  /-- Element-wise maximum (R231). -/
  | vmax (x : XF) (v : VF)
  /-- Element-wise absolute value (R231). -/
  | vabs (x : XF) (v : VF)
  /-- Element-wise negation (R231). -/
  | vneg (x : XF) (v : VF)
  /-- Plane-by-plane AND (R232). -/
  | vand (x : XF) (v : VF)
  /-- Plane-by-plane OR (R232). -/
  | vor (x : XF) (v : VF)
  /-- Plane-by-plane XOR (R232). -/
  | vxor (x : XF) (v : VF)
  /-- Element-wise shift left by K (R231). -/
  | vshl (x : XF) (v : VF)
  /-- Element-wise shift right by K, floor or rounded (R231). -/
  | vshr (x : XF) (v : VF)
  /-- Element-wise comparison writing a mask (R233). -/
  | vcmp (x : XF) (v : VF)
  /-- Writes A into lanes the mask selects (R234). -/
  | vselect (x : XF) (v : VF)
  /-- Element-wise FP 2 to the power a (R231). -/
  | vexp2 (x : XF) (v : VF)
  /-- Element-wise FP base-2 logarithm (R231). -/
  | vlog2 (x : XF) (v : VF)
  /-- Element-wise FP reciprocal (R231). -/
  | vrcp (x : XF) (v : VF)
  /-- Element-wise FP reciprocal square root (R231). -/
  | vrsq (x : XF) (v : VF)
  /-- Converts any plane code to any other, including block-scaled alignment (R235). -/
  | vcvt (x : XF) (v : VF)
  /-- Reduces a set to one value returned in the completion token (R236). -/
  | vred (x : XF) (v : VF)
  /-- Writes inclusive or exclusive prefix sums (R237). -/
  | vscan (x : XF) (v : VF)
  /-- Writes the indices of the k largest or smallest elements (R238). -/
  | vtopk (x : XF) (v : VF)
  /-- Packs selected lanes or their indices densely (R239). -/
  | vcompact (x : XF) (v : VF)
  /-- Spreads dense elements into the lanes a mask selects (R240). -/
  | vexpand (x : XF) (v : VF)
  /-- Gathers elements of A by an index set (R241). -/
  | vgather (x : XF) (v : VF)
  /-- Scatters elements of A by an index set, last writer winning (R241). -/
  | vscatter (x : XF) (v : VF)
  /-- Fills lanes with one value (R242). -/
  | vfill (x : XF) (v : VF)
  /-- Copies a plane set bit for bit (R243). -/
  | vcopy (x : XF) (v : VF)
  /-- Writes counter-based hashed random values (R245). -/
  | vrand (x : XF) (v : VF)
  /-- Writes the block's absolute maximum into a scale history entry (R246). -/
  | vamaxh (x : XF) (v : VF)
  /-- Decodes packed five-digit ternary bytes into vector or slab planes (R247). -/
  | unpackT5 (x : XF) (v : VF)
  /-- Re-planes elements to another width and code (R244). -/
  | vplane (x : XF) (v : VF)
  /-- Writes a precision-pair register in queue order (R256). -/
  | ppSet (x : XF) (k : BitVec 4)
  /-- Writes a scale register (R258). -/
  | sclSet (x : XF) (k : BitVec 4)
  /-- Derives a scale exponent from a history entry into a scale register (R258). -/
  | sclDerive (x : XF) (sc : BitVec 4) (ent : BitVec 8) (tgt : BitVec 3) (margin : BitVec 4)
  /-- Writes the detector control and returns and clears LBD_SAVED (R257). -/
  | lbdCfg (x : XF)
  /-- Arms an accumulator node with destination, masks, scale factor and count (R260). -/
  | accArm (x : XF) (node : BitVec 2) (ofmt : BitVec 4) (wd so sa sb : BitVec 4)
  /-- Adds a slab-by-slab plane matrix product into a node and counts it (R262). -/
  | mmp (x : XF) (pp : BitVec 4) (node : BitVec 2) (ga gb : Bool) (ns : BitVec 10)
  /-- Performs only the error pass of an MMP and counts it (R263). -/
  | mmpE (x : XF) (pp : BitVec 4) (node : BitVec 2) (ga gb : Bool) (ns : BitVec 10)
  /-- Releases a node at once whatever its count (R266). -/
  | accRel (x : XF) (node : BitVec 2)
  /-- Clears and disarms a node, sending its release token with CLEARED (R266). -/
  | accClr (x : XF) (node : BitVec 2)
  /-- Writes a node image to scratchpad, optionally disarming the node (R268). -/
  | accSave (x : XF) (node : BitVec 2) (clr : Bool)
  /-- Loads a node image, arming the node and releasing it when due (R268). -/
  | accLoad (x : XF) (node : BitVec 2)
  /-- Returns a node's status and clears its fault fields (R269). -/
  | accStat (x : XF) (node : BitVec 2)
  /-- Moves units of bytes along an affine nest between spaces (R282). -/
  | cpyStream (x : XF) (sync full : Bool) (stream : BitVec 2) (sps spd : Space) (esz : BitVec 3)
  /-- Moves plane-set images fetching only declared planes (R284). -/
  | cpyPlanes (x : XF) (sync full : Bool) (stream : BitVec 2) (spm : Space) (dir mat : Bool) (ws wd low : BitVec 4) (code : BitVec 2) (g expadj : Bool)
  /-- Converts memory formats into plane sets or back (R285). -/
  | cpyConv (x : XF) (sync full : Bool) (stream : BitVec 2) (spm : Space) (dir : Bool) (fmt : BitVec 5) (wd : BitVec 4) (code : BitVec 2) (g sat : Bool) (lay : BitVec 2)
  /-- Stops the stream's command and optionally its queue (R291). -/
  | cpyCancel (x : XF) (all : Bool) (stream : BitVec 2)
  /-- Writes the stream's command image, optionally removing it (R292). -/
  | cpySave (x : XF) (clr : Bool) (stream : BitVec 2)
  /-- Retries a paused stream or loads a stream image (R290). -/
  | cpyResume (x : XF) (img : Bool) (stream : BitVec 2)
  /-- Returns the stream's status and clears LASTR (R293). -/
  | cpyStat (x : XF) (stream : BitVec 2)
  /-- Loads cell configurations and links, clearing patched cells (R311). -/
  | ddaPatch (x : XF) (first count1 : BitVec 8) (links : Bool)
  /-- Loads cell integrands (R312). -/
  | ddaLdy (x : XF) (first count1 : BitVec 8)
  /-- Loads cell residues (R312). -/
  | ddaLdr (x : XF) (first count1 : BitVec 8)
  /-- Sets a domain's divider and zeroes its step count (R313). -/
  | ddaClk (x : XF) (dom : BitVec 3)
  /-- Starts domains with a step limit (R313). -/
  | ddaRun (x : XF) (dmask : BitVec 8)
  /-- Stops running domains with STOPPED tokens (R313). -/
  | ddaStop (x : XF) (dmask : BitVec 8)
  /-- Sets or ends a TOKEN, PLANE or FEED tap (R314). -/
  | ddaTap (x : XF) (tap : BitVec 4) (mode : BitVec 2) (rest : BitVec 26)
  /-- Writes a consistent snapshot of cell integrands and residues (R317). -/
  | ddaRead (x : XF) (first count1 : BitVec 8)
  /-- Writes the image of a stopped domain (R318). -/
  | ddaSave (x : XF) (dom : BitVec 3)
  /-- Loads a domain image, restarting it when saved running (R318). -/
  | ddaRestore (x : XF) (dom : BitVec 3)
  /-- Returns a domain's status and clears LASTR (R319). -/
  | ddaStat (x : XF) (dom : BitVec 3)
  /-- Appends a pool block to a sequence layer's list (R377). -/
  | kvbAlloc (x : XF) (zero : Bool)
  /-- Returns a block's window address and reference count (R377). -/
  | kvbMap (x : XF)
  /-- Shares a parent's blocks into a child sequence's empty lists (R378). -/
  | kvbShare (x : XF) (nl1 : BitVec 8)
  /-- Removes blocks from a list and invalidates their translations (R379). -/
  | kvbFree (x : XF) (all : Bool)
  /-- Reports free slots, blocks and held accesses of a store (R380). -/
  | kvbStat (x : XF) (die : BitVec 5) (own : Bool)
  /-- Opens a Gauntlet table entry with trap and notify targets (R389). -/
  | seqOpen (x : XF) (die : BitVec 5) (own : Bool)
  /-- Confirms one symbol and applies the winning action (R390). -/
  | seqEmit (x : XF)
  /-- Places a draft symbol and records its provisional result (R390). -/
  | seqDraft (x : XF)
  /-- Confirms drafts and an optional correction, applying actions position by position (R391). -/
  | seqConfirm (x : XF) (corr : Bool)
  /-- Keeps the first B drafts and removes the rest (R392). -/
  | seqReject (x : XF)
  /-- Turns a stopped or trapped sequence open (R392). -/
  | seqResume (x : XF)
  /-- Closes a sequence and empties its lists (R392). -/
  | seqClose (x : XF)
  /-- Writes a watch pattern from a scratchpad record (R393). -/
  | wchSet (x : XF) (pat len1 act : BitVec 3) (injlen : BitVec 4)
  /-- Sets and arms a budget (R394). -/
  | wchBudget (x : XF) (bud : BitVec 2) (act : BitVec 3)
  /-- Disables patterns, disarms budgets and clears NOTIFY (R394). -/
  | wchClr (x : XF) (pmask : BitVec 8) (bmask : BitVec 4) (notify : Bool)
  /-- Returns an entry's state and clears its NOTIFY register (R395). -/
  | wchStat (x : XF)
  /-- Writes local bytes to a remote package's memory (R468). -/
  | podPut (x : XF) (ord : Bool) (sp : Space)
  /-- Reads remote bytes into local memory (R468). -/
  | podGet (x : XF) (ord full : Bool) (sp : Space)
  /-- Performs an atomic at a remote home, or retries a ticket (R469). -/
  | podAmo (x : XF) (ord retry : Bool) (op : BitVec 4) (w32 nat : Bool)
  /-- All-reduce across the member packages (R473). -/
  | colAllred (x : XF) (ty rop : BitVec 2)
  /-- Reduce-scatter across the member packages (R473). -/
  | colRedscat (x : XF) (ty rop : BitVec 2)
  /-- All-gather across the member packages (R473). -/
  | colAllgath (x : XF) (ty : BitVec 2)
  /-- Broadcast of the root's source (R473). -/
  | colBcast (x : XF) (ty : BitVec 2)
  /-- Returns the collective engine status and clears LASTR (R475). -/
  | colStat (x : XF)
  /-- Reset puts matrix engines, integrator arrays, barriers and every other part into its reset state (R249). -/
  | reset
  /-- A free block slot takes a task record, or a BRO.CONT chains a firing; the core fetches and checks the block, sets RUNNING and the read entries deliver their values (R111). -/
  | firingStart
  /-- A firing completes when nothing is executing, eligible or awaiting a load; unresolved outputs resolve empty and it commits or traps NO_EXIT (R116). -/
  | firingCompletion
  /-- The core runs the commit steps of a completed firing in order: checks, take, memory operations, tokens and commands, write entries, consume, exit and refill (R117). -/
  | commit
  /-- The home tests the taken word at commit step 2: it empties it and succeeds, parks the frame as a waiter, or re-appends its record (R122). -/
  | takeAtHome
  /-- The successful take answer returns and the commit continues with steps 3 to 8 (R117). -/
  | takeAnswer
  /-- The writes before a FENCE are performed for its scope, and the held later commit steps proceed (R179). -/
  | fenceComplete
  /-- A token reaches its target core and fills an empty slot or joins the slot's queue in the token buffer (R106). -/
  | tokenDelivery
  /-- When the engines hold no lower-numbered-class command, a checkpointed section is restored and its commands re-queued ahead (R414). -/
  | sectionRestore
  /-- When a restartable section ends, its HELD frame runs commit steps 6 to 8 (R411). -/
  | sectionEnd
  /-- Every 65,536 cclk a queued record gains one class, down to INTERACTIVE (R201). -/
  | recordAging
  /-- When a trap frame is free and the pending list is not empty, the head record activates a handler frame with the record in slots 0 to 7 (R210). -/
  | handlerActivation
  /-- A FRAME_CTL write with ACTION RERUN makes the trapped frame WAITING so it re-runs exactly (R214). -/
  | frameCtlRerun
  /-- A FRAME_CTL write with ACTION RESUME passes the failed firing as a KEEP commit with no outputs (R214). -/
  | frameCtlResume
  /-- A FRAME_CTL write with ACTION FREE frees the trapped frame (R214). -/
  | frameCtlFree
  /-- A write to TQ_BASE is held until every ring and walker-table record of the core is empty (R200). -/
  | tqBaseWrite
  /-- A held TQ_BASE write takes effect in the first cclk in which the rings and walker table are empty (R200). -/
  | tqBaseApply
  /-- A write to a register without its own row takes effect by its access codes, or is rejected for reserved bits (R13). -/
  | registerWrite
  /-- A WAITTICK timer reaches its tick and delivers a token carrying the firing tick (R186). -/
  | waittickTimerFire
  /-- The die's allocator serves a FALLOC request, choosing the shallowest candidate core and reserving a frame (R409). -/
  | frameAllocation
  /-- A router's 8-cclk hold of an atomic awaiting partners ends and it forwards the atomic or combined group (R350). -/
  | routerHoldExpiry
  /-- A combined atomic group is performed at home as the serial application of its members (R351). -/
  | combinedGroupAtHome
  /-- An engine waiting on an empty source word resumes when the word becomes full (R219). -/
  | engineSyncReadResume
  /-- At each divider period a running domain reads its inputs and updates every enabled cell, or faults (R304). -/
  | ddaStep
  /-- A link increment arrives 4 cclk after its step and is deposited into each naming latch (R303). -/
  | linkDeposit
  /-- The receiving core's latch answer returns and the sending domain's held step result is settled (R303). -/
  | linkOverrunAnswer
  /-- When a pool block frees, accesses held at a slot are performed and parked frames re-appended (R372). -/
  | kvbHeldRelease
  /-- The home filters a pod atomic by replay entry and applies it once or returns the cached result or AMBIGUOUS (R470). -/
  | podAmoAtHome
  /-- A replay filter entry expires after 2^20 ticks and raises the source's FLOOR (R470). -/
  | replayEntryExpiry
  /-- No answer within 2^TMO ticks completes a pod command UNCONFIRMED, keeping a ticket for atomics (R467). -/
  | podTimeout
  /-- A member lacking contributions after 2^(TMO+4) ticks completes with TIMEOUT (R473). -/
  | collectiveTimeout
  /-- A fabric packet arrives on a port and is authenticated, served in the owning partition, or dropped (R459). -/
  | podPacketReceive
  /-- A gang release token is delivered at its local tick T (R478). -/
  | gangTokenDue
  /-- An IEEE 1588 message is received and the time base offset is measured and corrected (R463). -/
  | ptpMessageReceive
  /-- Every 2^-4 s the package sends Sync, Follow_Up and Pdelay_Req messages (R463). -/
  | ptpSyncSend
  /-- Every 1 s the package sends Announce messages (R463). -/
  | ptpAnnounceSend
  /-- Missing Announce messages time out and the best master clock choice is re-run (R463). -/
  | announceReceiptTimeout
  /-- A port's link goes down, training or up (R460). -/
  | portStateChange
  /-- A store setting or clearing DHALT stops or restarts every core and starts or ends the advertisement (R479). -/
  | podDebugHalt
  /-- Every 10,000 ticks a halted package advertises DEBUG_HALT on every port (R479). -/
  | debugHaltAdvertise
  /-- A peer seeing the advertisement pauses collectives and stops timeouts involving the halted package (R479). -/
  | debugHaltSeen
  /-- 30,000 ticks without an advertisement end the halt and paused work resumes (R479). -/
  | debugHaltLapse
  /-- A write of word 0 with GO and a new SEQ starts a launch, checked and ended with BAD_REC or BUSY when invalid (R399). -/
  | launchAccept
  /-- When every die is ready and the gang tick has come, data are written and the configuration-complete wave is sent (R403). -/
  | loadPhase2
  /-- A quiesced core reached by the wave switches halves, writes registers, frees old frames and creates entry frames (R404). -/
  | coreSwitch
  /-- A quantum on a time-sliced die expires and every core switches to the next partition (R446). -/
  | sliceEnd
  /-- A translation walk completes, entering its result in TLBs or delivering a fault to each requester (R364). -/
  | walkComplete
  /-- Writing WALK_STAT.RETRY retries every held ring and overflow access in order (R365). -/
  | walkRetry
  /-- A DRAM layer is refreshed at its interval (R356). -/
  | dramRefresh
  /-- The patrol scrubber corrects or poisons one codeword indivisibly (R356). -/
  | scrubVisit
  /-- At the end of a scrub pass the layer's refresh interval is halved or doubled (R356). -/
  | scrubPassEnd
  /-- A SCRUB_CTL store is applied or rejected, with a new PASS taking effect next pass (R356). -/
  | scrubCtlWrite
  /-- A store to a pewter control register declares, refuses, rejects or retires an entry (R358). -/
  | pewCtlWrite
  /-- At DEADLINE a valid pewter entry sets EXPIRED (R358). -/
  | pewterExpiry
  /-- Writing 1 to a BANK_GATE bit requests gating of a commons bank (R360). -/
  | bankGateRequest
  /-- Writing 1 to an SPGATE bit requests gating of a scratchpad bank (R453). -/
  | spgateRequest
  /-- A bank with no waiter, reservation or access gates and discards its words (R360). -/
  | bankGated
  /-- A woken bank holds zero words and performs held accesses in arrival order (R360). -/
  | bankWakeComplete
  /-- A KVB_CTL store enables the store empty, or is rejected (R368). -/
  | kvbCtlWrite
  /-- A partition control store defines or changes a partition, or is rejected while frames remain (R445). -/
  | partCtlWrite
  /-- Writing an EVSEL selector clears its counter (R447). -/
  | evselWrite
  /-- Setting TRACE_CTL.EN starts tracing with an ABS record (R449). -/
  | traceCtlWrite
  /-- CORE_HCTL RESTART returns a halted, debug or double-faulted core to RUN (R444). -/
  | hctlRestart
  /-- CORE_HCTL STOP halts the core as HALT does (R444). -/
  | hctlStop
  /-- CORE_HCTL MAPOUT stops the core and maps it out, losing its frames (R444). -/
  | hctlMapout
  /-- CORE_HCTL MAPIN returns a mapped-out core, halted with no image (R444). -/
  | hctlMapin
  /-- A host read through the link is decoded and performed at the home of each word (R441). -/
  | hostRead
  /-- A host write through the link is decoded and performed at the home, or rejected (R441). -/
  | hostWrite
  /-- A die's controller changes cclk, voltage or issue limit for a thermal, current, droop or budget cause (R452). -/
  | throttleChange
  /-- A detected uncorrected error is retried once and classed TRANSIENT or LASTING (R454). -/
  | errorRetry
  /-- Loss of a DRAM bank, bus or layer stops every core and restarts the package with the range mapped out (R456). -/
  | fatalDramLoss
  /-- The host services a core, quad, boundary, DRAM calibration or firmware and event 0x0E is raised (R455). -/
  | serviceAction
  /-- A firmware image is loaded only when its signature verifies (R457). -/
  | firmwareUpdate
  /-- A store setting ATTEST.GO writes a signed attestation report and clears GO (R458). -/
  | attestReport
  /-- A load, store, tag operation or single atomic reaches the home of its word after transit and is performed there, whole, in arrival order (R174). -/
  | accessAtHome
  /-- The value of a load issued to a home that is not the core's own scratchpad returns to the core and makes its consumers eligible; LDW and LDT execute at this moment (R428). -/
  | loadValueReturn
  /-- An event or cycle-class counter wraps modulo 2^48, setting OVFk and raising event 0x0B when OIEk is 1 (R447). -/
  | eventCounterWrap
deriving DecidableEq, Repr

end Sys2Proof
end

