-- ==== Sys2Proof/Decode.lean ====
section
/-! DEFINITION. Encodings (chapter 3): the fields of a word, the decoder with the checks of Table 3.20 that need
one instruction only, the shape of an instruction (operands, targets, LSID, slots), and the encoder.
Words are natural numbers below 2^32 here; every field is a quotient and a remainder. -/

namespace Sys2Proof

/-- What a block check can fail with, Table 3.9. -/
inductive Check where
  | fmtVer | counts | reserved | tgtRange | tgtBackward | tgtOperand | tgtUnpred | pred | lsid | limit
  | slot | cutOff | nops | field | noTask | opcode
deriving DecidableEq, Repr

/-- The code that word 5 of the trap record gives, Table 3.9 (R77). -/
def Check.code : Check → Nat
  | .fmtVer => 0x01 | .counts => 0x02 | .reserved => 0x03 | .tgtRange => 0x04 | .tgtBackward => 0x05
  | .tgtOperand => 0x06 | .tgtUnpred => 0x07 | .pred => 0x08 | .lsid => 0x09 | .limit => 0x0A
  | .slot => 0x0B | .cutOff => 0x0C | .nops => 0x0D | .field => 0x0E | .noTask => 0x0F | .opcode => 0x10

/-! Field codes. -/

/-- Bits `lo .. lo+n-1` of `w` as a bit vector. -/
def fld (n w lo : Nat) : BitVec n := BitVec.ofNat n (w / 2 ^ lo)
/-- Bit `lo` of `w`. -/
def fbit (w lo : Nat) : Bool := decide (w / 2 ^ lo % 2 = 1)
/-- A flag as a number. -/
def bnat (b : Bool) : Nat := if b then 1 else 0

/-- Table 3.6. -/
def Pred.code : Pred → Nat | .always => 0 | .ifTrue => 1 | .ifFalse => 2
def Pred.ofCode : Nat → Option Pred
  | 0 => some .always | 1 => some .ifTrue | 2 => some .ifFalse | _ => none

/-- Table 3.5: a target as its 9-bit code. -/
def Target.code : Target → Nat
  | .none => 0x7F | .write n => n.val | .pred n => 128 + n.val | .opA n => 256 + n.val | .opB n => 384 + n.val
/-- Table 3.5: every 9-bit code is a target. -/
def Target.ofCode (c : Nat) : Target :=
  match c / 128 % 4 with
  | 0 => if h : c % 128 < 127 then .write ⟨c % 128, h⟩ else .none
  | 1 => .pred ⟨c % 128, Nat.mod_lt _ (by decide)⟩
  | 2 => .opA ⟨c % 128, Nat.mod_lt _ (by decide)⟩
  | _ => .opB ⟨c % 128, Nat.mod_lt _ (by decide)⟩

def IWidth.code : IWidth → Nat | .w8 => 0 | .w16 => 1 | .w32 => 2 | .w64 => 3
def IWidth.ofCode (n : Nat) : IWidth :=
  match n % 4 with | 0 => .w8 | 1 => .w16 | 2 => .w32 | _ => .w64
/-- The width n of a type in bits. -/
def IWidth.bits : IWidth → Nat | .w8 => 8 | .w16 => 16 | .w32 => 32 | .w64 => 64
/-- Table 3.8, codes 0 to 7. -/
def ITy.code : ITy → Nat | .s w => w.code | .n w => 4 + w.code
def ITy.ofCode (n : Nat) : ITy := if n % 8 < 4 then .s (IWidth.ofCode n) else .n (IWidth.ofCode n)
def ITy.bits : ITy → Nat | .s w => w.bits | .n w => w.bits
def ITy.signed : ITy → Bool | .s _ => true | .n _ => false
/-- Table 3.8 with the float codes. -/
def FTy.code : FTy → Nat | .int t => t.code | .f32 => 8 | .bf16 => 9 | .e4m3 => 10 | .e5m2 => 11
def FTy.ofCode (n : Nat) : Option FTy :=
  if n < 8 then some (.int (ITy.ofCode n)) else
  match n with | 8 => some .f32 | 9 => some .bf16 | 10 => some .e4m3 | 11 => some .e5m2 | _ => none
def FTy.isInt : FTy → Bool | .int _ => true | _ => false
/-- R73. -/
def Space.code : Space → Nat | .loc => 0 | .commons => 1 | .global => 2
def Space.ofCode : Nat → Option Space | 0 => some .loc | 1 => some .commons | 2 => some .global | _ => none
/-- Table 0.1. -/
def Scope.code : Scope → Nat | .core => 0 | .quad => 1 | .die => 2 | .pkg => 3 | .pod => 4
def Scope.ofCode : Nat → Option Scope
  | 0 => some .core | 1 => some .quad | 2 => some .die | 3 => some .pkg | 4 => some .pod | _ => none

/-- The DEST field of a command as a completion slot: CV in bit 8, slot in bits 6:0 (R65). -/
def destCode : Option (BitVec 7) → Nat | none => 0 | some s => 256 + s.toNat

/-- The static word of a vector command, Table 9.3. -/
def VF.ofNat (flags st : Nat) : VF :=
  { sat := fbit flags 0, opt := fbit flags 1, msk := fbit flags 2, cmd := fld 11 st 21, gd := fbit st 20,
    gb := fbit st 19, ga := fbit st 18, cd := fld 2 st 16, wd := fld 4 st 12, cb := fld 2 st 10,
    wb := fld 4 st 6, ca := fld 2 st 4, wa := fld 4 st 0 }
def VF.flags (v : VF) : Nat := bnat v.sat + 2 * bnat v.opt + 4 * bnat v.msk
def VF.static (v : VF) : Nat :=
  v.cmd.toNat * 2 ^ 21 + bnat v.gd * 2 ^ 20 + bnat v.gb * 2 ^ 19 + bnat v.ga * 2 ^ 18 + v.cd.toNat * 2 ^ 16
    + v.wd.toNat * 2 ^ 12 + v.cb.toNat * 2 ^ 10 + v.wb.toNat * 2 ^ 6 + v.ca.toNat * 2 ^ 4 + v.wa.toNat

/-! ## Field values that the chapters allow (code 0x0E) and reserved fields (code 0x03) of vector commands -/

/-- What a vector command's table row defines (Tables 9.2 to 9.4, R231 to R247). -/
structure VSpec where
  a : Bool := false
  b : Bool := false
  d : Bool := false
  sat : Bool := false
  opt : Bool := false
  msk : Bool := false
  /-- CMD bits the command defines. -/
  cmdMask : Nat := 0
  g : Bool := false
  /-- b is a mask group: width 1, code SM. -/
  mask : Bool := false
  nops : Nat := 3
  mand : Bool := false
deriving DecidableEq, Repr

/-- Code FP (Table 2.3). -/
def isFP (c : BitVec 2) : Bool := c == 2

/-- One group's fields: code not 3; FP with width field 0 and no block scaling; block scaling where allowed (R227). -/
def groupOk (g : Bool) (w : BitVec 4) (c : BitVec 2) (gb : Bool) : Bool :=
  c != 3 && (!isFP c || (w == 0 && !gb)) && (g || !gb)

/-- Both groups integer or both FP. -/
def sameKind (c d : BitVec 2) : Bool := isFP c == isFP d

/-- The row of a vector command. -/
def Instr.vspec : Instr → VSpec
  | .vadd .. | .vsub .. | .vmul .. | .vfma .. | .vmin .. | .vmax .. => { a := true, b := true, d := true, sat := true }
  | .vabs .. | .vneg .. => { a := true, d := true, sat := true, nops := 2 }
  | .vand .. | .vor .. | .vxor .. => { a := true, b := true, d := true }
  | .vshl .. => { a := true, d := true, sat := true, cmdMask := 0x3F, nops := 2 }
  | .vshr .. => { a := true, d := true, sat := true, opt := true, cmdMask := 0x3F, nops := 2 }
  | .vcmp .. => { a := true, b := true, d := true, cmdMask := 7 }
  | .vselect .. => { a := true, b := true, d := true, sat := true, mask := true }
  | .vexp2 .. | .vlog2 .. | .vrcp .. | .vrsq .. => { a := true, d := true, nops := 2 }
  | .vcvt .. => { a := true, d := true, sat := true, g := true, nops := 2 }
  | .vred _ v => { a := true, b := v.msk, msk := true, cmdMask := 3, mask := true, nops := 1 + bnat v.msk, mand := true }
  | .vscan _ v => { a := true, b := v.msk, d := true, sat := true, opt := true, msk := true, mask := true, nops := 2 + bnat v.msk }
  | .vtopk _ v => { a := true, b := v.msk, d := true, opt := true, msk := true, cmdMask := 0x3F, mask := true, nops := 2 + bnat v.msk, mand := true }
  | .vcompact .. => { a := true, b := true, d := true, sat := true, opt := true, mask := true, mand := true }
  | .vexpand .. => { a := true, b := true, d := true, sat := true, mask := true }
  | .vgather .. | .vscatter .. => { a := true, b := true, d := true }
  | .vfill .. => { d := true, sat := true, g := true, nops := 2 }
  | .vcopy .. => { a := true, d := true, g := true, nops := 2 }
  | .vrand .. => { d := true }
  | .vamaxh .. => { a := true, opt := true, cmdMask := 0xFF, g := true, nops := 1 }
  | .unpackT5 _ v => { d := true, cmdMask := if fbit v.cmd.toNat 0 then 0x7FF else 1, nops := 2 }
  | .vplane .. => { a := true, d := true, sat := true, g := true, nops := 2 }
  | _ => {}

/-- Fields that a vector command does not define are zero (R227, R248). -/
def VSpec.resOk (p : VSpec) (v : VF) : Bool :=
  (p.sat || !v.sat) && (p.opt || !v.opt) && (p.msk || !v.msk)
    && decide (v.cmd.toNat &&& (0x7FF - p.cmdMask) = 0)
    && (p.a || (v.wa == 0 && v.ca == 0 && !v.ga)) && (p.b || (v.wb == 0 && v.cb == 0 && !v.gb))
    && (p.d || (v.wd == 0 && v.cd == 0 && !v.gd))

/-- The group rules of R227 for the groups in use. -/
def VSpec.groupsOk (p : VSpec) (v : VF) : Bool :=
  (!p.a || groupOk p.g v.wa v.ca v.ga)
    && (!p.b || (groupOk p.g v.wb v.cb v.gb && (!p.mask || (v.wb == 0 && v.cb == 1 && !v.gb))))
    && (!p.d || groupOk p.g v.wd v.cd v.gd)

/-! ## Register and counter numbers -/

/-- Control registers of Table 8.2 (R196). -/
def regNumbers : List Nat :=
  [0x00, 0x01, 0x08, 0x09, 0x0A, 0x10, 0x12, 0x18, 0x19, 0x1A, 0x1C, 0x20, 0x28, 0x29, 0x2A, 0x30, 0x31, 0x32, 0x33, 0x34]
/-- Counters of Table 7.6. -/
def ctrOk (c : BitVec 9) : Bool := decide (c.toNat ≤ 0x00C)

/-! ## Copy commands -/

/-- Table 2.5: the plane code of a format: 0 TC, 1 SM, 2 FP. -/
def fmtPlaneCode (fmt : Nat) : Nat :=
  if fmt = 0x10 then 2 else if fmt = 1 ∨ fmt = 3 ∨ fmt = 5 then 0 else 1
/-- Formats whose exponent is aligned (R41) or X − 128 (R40). -/
def fmtScaled (fmt : Nat) : Bool := decide (0x0A ≤ fmt ∧ fmt ≤ 0x0F)
/-- Table 2.5's width limits for a TC or SM plane set. -/
def fmtWidthOk (fmt w : Nat) : Bool :=
  if fmt = 7 ∨ fmt = 8 ∨ fmt = 9 then decide (w = 1) else if fmt = 0x0D then decide (w = 4) else decide (w ≤ 16)

/-- Values of CPY.CONV that R277 allows. -/
def cpyConvOk (sync full : Bool) (spm : Space) (dir : Bool) (fmt : BitVec 5) (wd : BitVec 4) (code : BitVec 2)
    (g sat : Bool) (lay : BitVec 2) : Bool :=
  !(spm == .global && (sync || full)) && code != 3 && (!isFP code || (wd == 0 && !g))
    && decide (1 ≤ fmt.toNat ∧ fmt.toNat ≤ 0x10)
    && (isFP code || fmtWidthOk fmt.toNat (wd.toNat + 1))
    && (dir || (decide (code.toNat = fmtPlaneCode fmt.toNat) && (!fmtScaled fmt.toNat || g) && !sat))
    && (decide (fmt.toNat ≠ 0x10) || isFP code)
    && lay != 3 && (lay == 0 || !isFP code)

/-- Values of CPY.PLANES that R277 allows. -/
def cpyPlanesOk (sync full : Bool) (spm : Space) (dir : Bool) (ws wd low : BitVec 4) (code : BitVec 2)
    (g expadj : Bool) : Bool :=
  !(spm == .global && (sync || full)) && code != 3 && (!isFP code || (ws == 0 && wd == 0 && !g && low == 0))
    && (isFP code || decide (low.toNat + wd.toNat ≤ ws.toNat)) && (g || !expadj)
    && (!dir || (low == 0 && (isFP code || wd == ws)))

/-- Values of CPY.STREAM that R277 allows. -/
def cpyStreamOk (sync full : Bool) (sps spd : Space) (esz : BitVec 3) : Bool :=
  !(sync && sps == .global) && !(full && spd == .global) && !(full && decide (esz.toNat < 3))

/-- Static bits 31:6 of DDA.TAP by mode (R314). -/
def ddaTapOk (mode : BitVec 2) (rest : BitVec 26) : Bool :=
  let r := rest.toNat * 64
  match mode.toNat with
  | 0 => r == 0
  | 1 => r / 2 ^ 21 == 0
  | 2 => r / 2 ^ 18 % 8 == 0 && r / 2 ^ 26 == 0
  | _ => r / 2 ^ 9 % 32 == 0 && r / 2 ^ 15 == 0

/-- The field values that the chapters allow in a decoded instruction; a value outside them fails with 0x0E. -/
def Instr.fieldOk : Instr → Bool
  | .sext _ _ m | .zext _ _ m => decide (1 ≤ m.toNat ∧ m.toNat ≤ 64)
  | .bfx _ t pos len1 | .bfi _ t pos len1 => decide (pos.toNat + len1.toNat + 1 ≤ t.bits)
  | .fcvt _ s d => !(s.isInt && d.isInt)
  | .falloc sc _ => sc != .pod
  | .ldw f | .ldt f | .feTest f => f.space != .global
  | .ldrc f => f.space == .global
  | .stf f | .feSet f | .feClr f => f.space != .global
  | .ste _ _ sp _ => sp != .global
  | .pref f => f.space != .loc
  | .amoAdd f | .amoAnd f | .amoOr f | .amoXor f | .amoSwap f | .amoIncw f => !f.nat
  | .amoFadd f => f.w32 && !f.nat
  | .amoAddReduce f | .amoAndReduce f | .amoOrReduce f | .amoXorReduce f | .amoSwapReduce f | .amoIncwReduce f => !f.nat
  | .amoFaddReduce f => f.w32 && !f.nat
  | .barArrive _ sc _ | .barWait _ sc _ | .barCfg _ sc _ => sc != .core
  | .sysRd _ r => regNumbers.contains r.toNat
  | .sysWr _ r => regNumbers.contains r.toNat
  | .perfRd _ c => ctrOk c
  | .tlbInv _ sc => sc != .pod
  | i@(.vadd _ v) | i@(.vsub _ v) | i@(.vmul _ v) | i@(.vfma _ v) | i@(.vmin _ v) | i@(.vmax _ v) =>
      i.vspec.groupsOk v && sameKind v.ca v.cb && sameKind v.ca v.cd
  | i@(.vabs _ v) | i@(.vneg _ v) | i@(.vselect _ v) | i@(.vscan _ v) | i@(.vexpand _ v) =>
      i.vspec.groupsOk v && sameKind v.ca v.cd
  | i@(.vand _ v) | i@(.vor _ v) | i@(.vxor _ v) =>
      i.vspec.groupsOk v && v.ca == v.cb && v.ca == v.cd && v.wa == v.wb && v.wa == v.wd
  | i@(.vshl _ v) | i@(.vshr _ v) => i.vspec.groupsOk v && !isFP v.ca && !isFP v.cd
  | i@(.vcmp _ v) =>
      i.vspec.groupsOk v && decide (v.cmd.toNat < 6) && sameKind v.ca v.cb && v.wd == 0 && v.cd == 1 && !v.gd
  | i@(.vexp2 _ v) | i@(.vlog2 _ v) | i@(.vrcp _ v) | i@(.vrsq _ v) => i.vspec.groupsOk v && isFP v.ca && isFP v.cd
  | i@(.vcvt _ v) | i@(.vred _ v) | i@(.vfill _ v) | i@(.vrand _ v) | i@(.vamaxh _ v) => i.vspec.groupsOk v
  | i@(.vtopk _ v) => i.vspec.groupsOk v && !isFP v.cd
  | i@(.vcompact _ v) => i.vspec.groupsOk v && (if v.opt then !isFP v.cd else sameKind v.ca v.cd)
  | i@(.vgather _ v) | i@(.vscatter _ v) => i.vspec.groupsOk v && v.ca == v.cd && v.wa == v.wd && !isFP v.cb
  | i@(.vcopy _ v) => i.vspec.groupsOk v && v.ca == v.cd && v.wa == v.wd && v.ga == v.gd
  | i@(.unpackT5 _ v) =>
      i.vspec.groupsOk v && !isFP v.cd && (!fbit v.cmd.toNat 0 || (v.wd == 0 && v.cd == 1))
  | i@(.vplane _ v) => i.vspec.groupsOk v && v.ga == v.gd && !isFP v.ca && !isFP v.cd
  | .sclDerive _ _ _ tgt _ => tgt != 7
  | .accArm _ _ ofmt wd _ _ _ => decide (ofmt.toNat ≤ 11) && (ofmt == 11 || wd == 0)
  | .cpyStream _ sync full _ sps spd esz => cpyStreamOk sync full sps spd esz
  | .cpyPlanes _ sync full _ spm dir _ ws wd low code g expadj => cpyPlanesOk sync full spm dir ws wd low code g expadj
  | .cpyConv _ sync full _ spm dir fmt wd code g sat lay => cpyConvOk sync full spm dir fmt wd code g sat lay
  | .ddaPatch _ first c1 _ | .ddaLdy _ first c1 | .ddaLdr _ first c1 | .ddaRead _ first c1 =>
      decide (first.toNat + c1.toNat + 1 ≤ 256)
  | .ddaRun _ m | .ddaStop _ m => m != 0
  | .ddaTap _ _ mode rest => ddaTapOk mode rest
  | .kvbStat _ die own | .seqOpen _ die own => if own then die == 0 else decide (die.toNat ≤ 23)
  | .wchSet _ _ _ act injlen =>
      decide (act.toNat ≤ 5) && (if act.toNat = 3 then decide (1 ≤ injlen.toNat ∧ injlen.toNat ≤ 8) else injlen == 0)
  | .wchBudget _ _ act => decide (act.toNat ≤ 5)
  | .podAmo _ _ _ op w32 nat =>
      decide (op.toNat ≤ 9) && (!nat || op == 1 || op == 2) && (op != 8 || w32)
  | .colAllred _ _ rop | .colRedscat _ _ rop => rop != 3
  | _ => true

/-- Reserved bits inside fields that the constructor keeps (vector commands only). -/
def Instr.resOk : Instr → Bool
  | i@(.vadd _ v) | i@(.vsub _ v) | i@(.vmul _ v) | i@(.vfma _ v) | i@(.vmin _ v) | i@(.vmax _ v) | i@(.vabs _ v) | i@(.vneg _ v) | i@(.vand _ v) | i@(.vor _ v) | i@(.vxor _ v) | i@(.vshl _ v) | i@(.vshr _ v) | i@(.vcmp _ v) | i@(.vselect _ v) | i@(.vexp2 _ v) | i@(.vlog2 _ v) | i@(.vrcp _ v) | i@(.vrsq _ v) | i@(.vcvt _ v) | i@(.vred _ v) | i@(.vscan _ v) | i@(.vtopk _ v) | i@(.vcompact _ v) | i@(.vexpand _ v) | i@(.vgather _ v) | i@(.vscatter _ v) | i@(.vfill _ v) | i@(.vcopy _ v) | i@(.vrand _ v) | i@(.vamaxh _ v) | i@(.unpackT5 _ v) | i@(.vplane _ v) =>
      i.vspec.resOk v
  | _ => true
/-- Which instructions a static limit of Table 3.7 counts. -/
inductive LimitClass where
  | plain | exit | send | engine | take
deriving DecidableEq, Repr

/-- What the block check and the core need to know of an instruction: predicate, operands taken (C through the
second word), LSID, slots that must lie below NSLOT, value targets, whether it produces a value, and the limit
it counts against (Tables 3.11 to 3.18, R71, R72, R79). -/
structure Shape where
  pred : Pred := .always
  a : Bool := false
  b : Bool := false
  c : Bool := false
  lsid : Option (BitVec 5) := none
  slots : List (BitVec 7) := []
  tgts : List Target := []
  val : Bool := false
  x : Bool := false
  cls : LimitClass := .plain
deriving DecidableEq, Repr

def GF.sh (g : GF) (a b : Bool) : Shape := { pred := g.pred, a, b, tgts := [g.t1, g.t2], val := true }
def TF.sh (f : TF) (a b c x : Bool) : Shape := { pred := f.pred, a, b, c, x, tgts := [f.tgt], val := true }
def LF.sh (f : LF) (b : Bool) : Shape := { pred := f.pred, a := true, b, lsid := some f.lsid, tgts := [f.tgt], val := true }
def SF.sh (f : SF) (b : Bool) : Shape := { pred := f.pred, a := true, b, lsid := some f.lsid }
def AF.sh (f : AF) : Shape := { pred := f.pred, a := true, b := true, lsid := some f.lsid, slots := [f.slot] }
def RF.sh (f : RF) : Shape := { pred := f.pred, a := true, b := true, lsid := some f.lsid }
/-- An engine command with `n` operands. -/
def XF.sh (x : XF) (n : Nat) : Shape :=
  { pred := x.pred, a := decide (1 ≤ n), b := decide (2 ≤ n), c := decide (3 ≤ n), slots := x.dest.toList, x := true, cls := .engine }

/-- The number of operands of an engine command (NOPS). -/
def Instr.nops : Instr → Nat
  | .accArm .. | .cpyStream .. | .cpyPlanes .. | .cpyConv .. | .seqConfirm .. | .wchBudget .. | .podPut .. | .podGet .. | .podAmo .. | .colAllred .. | .colRedscat .. | .colAllgath .. | .colBcast .. => 3
  | .mmp .. | .mmpE .. | .ddaTap .. | .kvbShare .. | .seqOpen .. | .seqEmit .. | .seqDraft .. | .seqReject .. | .wchSet .. => 2
  | .ppSet .. | .sclSet .. | .lbdCfg .. | .accSave .. | .accLoad .. | .cpySave .. | .cpyResume .. | .ddaPatch .. | .ddaLdy .. | .ddaLdr .. | .ddaClk .. | .ddaRun .. | .ddaRead .. | .ddaSave .. | .ddaRestore .. | .kvbAlloc .. | .kvbMap .. | .kvbFree .. | .seqResume .. | .seqClose .. | .wchClr .. | .wchStat .. => 1
  | .sclDerive .. | .accRel .. | .accClr .. | .accStat .. | .cpyCancel .. | .cpyStat .. | .ddaStop .. | .ddaStat .. | .kvbStat .. | .colStat .. => 0
  | i => i.vspec.nops
/-- The shape of an instruction. A machine event has the empty shape. -/
def Instr.shape : Instr → Shape
  | .broEnd p | .broKeep p | .broRearm p | .broCont p _ => { pred := p, cls := .exit }
  | .null g | .self g | .taskid g | .tick g => g.sh false false
  | .pnot g | .testX g | .fstat g | .ldfx g | .neg _ g | .abs _ g | .clz _ g | .ctz _ g | .popc _ g | .bswap _ g | .mov2 _ g | .mkx _ g | .clrx _ g | .fsqrt g | .fabs g | .fneg g | .fexp2 g | .flog2 g | .frcp g | .frsq g => g.sh true false
  | .mov _ p t => { pred := p, a := true, tgts := [t], val := true }
  | .stfx g | .falloc _ g | .pand g | .por g | .add _ g | .sub _ g | .mul _ g | .mulh _ g | .mulhn _ g | .div _ g | .divn _ g | .rem _ g | .remn _ g | .min _ g | .minn _ g | .max _ g | .maxn _ g | .and _ g | .or _ g | .xor _ g | .andn _ g | .orn _ g | .shl _ g | .shr _ g | .sar _ g | .rot _ g | .teq _ g | .tne _ g | .tlt _ g | .tltn _ g | .tle _ g | .tlen _ g | .fadd g | .fsub g | .fmul g | .fdiv g | .fmin g | .fmax g | .feq g | .flt g | .fle g => g.sh true true
  | .addi _ f _ | .teqi _ f _ | .tnei _ f _ | .tlti _ f _ | .tltni _ f _ | .tlei _ f _ | .tleni _ f _ | .sext _ f _ | .zext _ f _ => f.sh true false false false
  | .genc _ t => { tgts := [t], val := true }
  | .appc _ t => { a := true, tgts := [t], val := true }
  | .madd f _ | .sel f _ | .fma f => f.sh true true true true
  | .bfx f _ _ _ => f.sh true false false true
  | .bfi f _ _ _ => f.sh true true false true
  | .fcvt f _ _ => f.sh true false false false
  | .ffree p => { pred := p, a := true }
  | .send p _ | .sendx p _ => { pred := p, a := true, b := true, cls := .send }
  | .sendi p => { pred := p, a := true, b := true, c := true, x := true, cls := .send }
  | .ldB f | .ldH f | .ldW f | .ldD f | .ldw f | .feTest f => f.sh false
  | .ldt f => { f.sh false with cls := .take }
  | .ldrc f => f.sh true
  | .stB f | .stH f | .stW f | .stD f | .stf f => f.sh true
  | .ste p l _ s => { pred := p, a := true, b := true, lsid := some l, slots := [s] }
  | .feSet f | .feClr f | .pref f => f.sh false
  | .clean p l | .inval p l => { pred := p, a := true, lsid := some l }
  | .fence p l _ => { pred := p, lsid := some l }
  | .amoAdd f | .amoMin f | .amoMax f | .amoAnd f | .amoOr f | .amoXor f | .amoSwap f | .amoFadd f | .amoIncw f => f.sh
  | .amoAddReduce f | .amoMinReduce f | .amoMaxReduce f | .amoAndReduce f | .amoOrReduce f | .amoXorReduce f | .amoSwapReduce f | .amoFaddReduce f | .amoIncwReduce f => f.sh
  | .amoCas x l _ _ _ => { pred := x.pred, a := true, b := true, c := true, lsid := some l, slots := x.dest.toList, x := true }
  | .barArrive p _ _ => { pred := p }
  | .barWait p _ _ | .barCfg p _ _ => { pred := p, a := true }
  | .waittick p => { pred := p, a := true, b := true }
  | .sysRd f _ | .perfRd f _ => f.sh false false false false
  | .sysWr p _ | .tlbInv p _ | .gangSync p | .trap p => { pred := p, a := true }
  | .brk p | .halt p => { pred := p }
  | i@(.vadd x _) => x.sh i.nops
  | i@(.vsub x _) => x.sh i.nops
  | i@(.vmul x _) => x.sh i.nops
  | i@(.vfma x _) => x.sh i.nops
  | i@(.vmin x _) => x.sh i.nops
  | i@(.vmax x _) => x.sh i.nops
  | i@(.vabs x _) => x.sh i.nops
  | i@(.vneg x _) => x.sh i.nops
  | i@(.vand x _) => x.sh i.nops
  | i@(.vor x _) => x.sh i.nops
  | i@(.vxor x _) => x.sh i.nops
  | i@(.vshl x _) => x.sh i.nops
  | i@(.vshr x _) => x.sh i.nops
  | i@(.vcmp x _) => x.sh i.nops
  | i@(.vselect x _) => x.sh i.nops
  | i@(.vexp2 x _) => x.sh i.nops
  | i@(.vlog2 x _) => x.sh i.nops
  | i@(.vrcp x _) => x.sh i.nops
  | i@(.vrsq x _) => x.sh i.nops
  | i@(.vcvt x _) => x.sh i.nops
  | i@(.vred x _) => x.sh i.nops
  | i@(.vscan x _) => x.sh i.nops
  | i@(.vtopk x _) => x.sh i.nops
  | i@(.vcompact x _) => x.sh i.nops
  | i@(.vexpand x _) => x.sh i.nops
  | i@(.vgather x _) => x.sh i.nops
  | i@(.vscatter x _) => x.sh i.nops
  | i@(.vfill x _) => x.sh i.nops
  | i@(.vcopy x _) => x.sh i.nops
  | i@(.vrand x _) => x.sh i.nops
  | i@(.vamaxh x _) => x.sh i.nops
  | i@(.unpackT5 x _) => x.sh i.nops
  | i@(.vplane x _) => x.sh i.nops
  | i@(.accArm x _ _ _ _ _ _) => x.sh i.nops
  | i@(.cpyStream x _ _ _ _ _ _) => x.sh i.nops
  | i@(.cpyPlanes x _ _ _ _ _ _ _ _ _ _ _ _) => x.sh i.nops
  | i@(.cpyConv x _ _ _ _ _ _ _ _ _ _ _) => x.sh i.nops
  | i@(.seqConfirm x _) => x.sh i.nops
  | i@(.wchBudget x _ _) => x.sh i.nops
  | i@(.podPut x _ _) => x.sh i.nops
  | i@(.podGet x _ _ _) => x.sh i.nops
  | i@(.podAmo x _ _ _ _ _) => x.sh i.nops
  | i@(.colAllred x _ _) => x.sh i.nops
  | i@(.colRedscat x _ _) => x.sh i.nops
  | i@(.colAllgath x _) => x.sh i.nops
  | i@(.colBcast x _) => x.sh i.nops
  | i@(.mmp x _ _ _ _ _) => x.sh i.nops
  | i@(.mmpE x _ _ _ _ _) => x.sh i.nops
  | i@(.ddaTap x _ _ _) => x.sh i.nops
  | i@(.kvbShare x _) => x.sh i.nops
  | i@(.seqOpen x _ _) => x.sh i.nops
  | i@(.seqEmit x) => x.sh i.nops
  | i@(.seqDraft x) => x.sh i.nops
  | i@(.seqReject x) => x.sh i.nops
  | i@(.wchSet x _ _ _ _) => x.sh i.nops
  | i@(.ppSet x _) => x.sh i.nops
  | i@(.sclSet x _) => x.sh i.nops
  | i@(.lbdCfg x) => x.sh i.nops
  | i@(.accSave x _ _) => x.sh i.nops
  | i@(.accLoad x _) => x.sh i.nops
  | i@(.cpySave x _ _) => x.sh i.nops
  | i@(.cpyResume x _ _) => x.sh i.nops
  | i@(.ddaPatch x _ _ _) => x.sh i.nops
  | i@(.ddaLdy x _ _) => x.sh i.nops
  | i@(.ddaLdr x _ _) => x.sh i.nops
  | i@(.ddaClk x _) => x.sh i.nops
  | i@(.ddaRun x _) => x.sh i.nops
  | i@(.ddaRead x _ _) => x.sh i.nops
  | i@(.ddaSave x _) => x.sh i.nops
  | i@(.ddaRestore x _) => x.sh i.nops
  | i@(.kvbAlloc x _) => x.sh i.nops
  | i@(.kvbMap x) => x.sh i.nops
  | i@(.kvbFree x _) => x.sh i.nops
  | i@(.seqResume x) => x.sh i.nops
  | i@(.seqClose x) => x.sh i.nops
  | i@(.wchClr x _ _ _) => x.sh i.nops
  | i@(.wchStat x) => x.sh i.nops
  | i@(.sclDerive x _ _ _ _) => x.sh i.nops
  | i@(.accRel x _) => x.sh i.nops
  | i@(.accClr x _) => x.sh i.nops
  | i@(.accStat x _) => x.sh i.nops
  | i@(.cpyCancel x _ _) => x.sh i.nops
  | i@(.cpyStat x _) => x.sh i.nops
  | i@(.ddaStop x _) => x.sh i.nops
  | i@(.ddaStat x _) => x.sh i.nops
  | i@(.kvbStat x _ _) => x.sh i.nops
  | i@(.colStat x) => x.sh i.nops
  | .reset .. | .firingStart .. | .firingCompletion .. | .commit .. | .takeAtHome .. | .takeAnswer .. | .fenceComplete .. | .tokenDelivery .. | .sectionRestore .. | .sectionEnd .. | .recordAging .. | .handlerActivation .. | .frameCtlRerun .. | .frameCtlResume .. | .frameCtlFree .. | .tqBaseWrite .. | .tqBaseApply .. | .registerWrite .. | .waittickTimerFire .. | .frameAllocation .. | .routerHoldExpiry .. | .combinedGroupAtHome .. | .engineSyncReadResume .. | .ddaStep .. | .linkDeposit .. | .linkOverrunAnswer .. | .kvbHeldRelease .. | .podAmoAtHome .. | .replayEntryExpiry .. | .podTimeout .. | .collectiveTimeout .. | .podPacketReceive .. | .gangTokenDue .. | .ptpMessageReceive .. | .ptpSyncSend .. | .ptpAnnounceSend .. | .announceReceiptTimeout .. | .portStateChange .. | .podDebugHalt .. | .debugHaltAdvertise .. | .debugHaltSeen .. | .debugHaltLapse .. | .launchAccept .. | .loadPhase2 .. | .coreSwitch .. | .sliceEnd .. | .walkComplete .. | .walkRetry .. | .dramRefresh .. | .scrubVisit .. | .scrubPassEnd .. | .scrubCtlWrite .. | .pewCtlWrite .. | .pewterExpiry .. | .bankGateRequest .. | .spgateRequest .. | .bankGated .. | .bankWakeComplete .. | .kvbCtlWrite .. | .partCtlWrite .. | .evselWrite .. | .traceCtlWrite .. | .hctlRestart .. | .hctlStop .. | .hctlMapout .. | .hctlMapin .. | .hostRead .. | .hostWrite .. | .throttleChange .. | .errorRetry .. | .fatalDramLoss .. | .serviceAction .. | .firmwareUpdate .. | .attestReport .. | .accessAtHome .. | .loadValueReturn .. | .eventCounterWrap .. => {}

/-- Commands whose completion is mandatory: CV = 0 fails with 0x0D (R65). -/
def Instr.mandatory : Instr → Bool
  | .accArm .. | .accSave .. | .accLoad .. | .accStat .. | .cpyStream .. | .cpyPlanes .. | .cpyConv .. | .cpySave ..
  | .cpyStat .. | .ddaRun .. | .ddaSave .. | .ddaStat .. | .kvbAlloc .. | .kvbMap .. | .kvbStat .. | .seqOpen ..
  | .seqEmit .. | .seqConfirm .. | .wchStat .. | .podPut .. | .podGet .. | .colAllred .. | .colRedscat ..
  | .colAllgath .. | .colBcast .. | .colStat .. => true
  | i => i.vspec.mand

/-- The completion slot of an instruction that has a DEST field with CV (R65): engine commands and AMO.CAS. -/
def Instr.destSlot : Instr → Option (Option (BitVec 7))
  | .amoCas x .. => some x.dest
  | .vadd x .. => some x.dest
  | .vsub x .. => some x.dest
  | .vmul x .. => some x.dest
  | .vfma x .. => some x.dest
  | .vmin x .. => some x.dest
  | .vmax x .. => some x.dest
  | .vabs x .. => some x.dest
  | .vneg x .. => some x.dest
  | .vand x .. => some x.dest
  | .vor x .. => some x.dest
  | .vxor x .. => some x.dest
  | .vshl x .. => some x.dest
  | .vshr x .. => some x.dest
  | .vcmp x .. => some x.dest
  | .vselect x .. => some x.dest
  | .vexp2 x .. => some x.dest
  | .vlog2 x .. => some x.dest
  | .vrcp x .. => some x.dest
  | .vrsq x .. => some x.dest
  | .vcvt x .. => some x.dest
  | .vred x .. => some x.dest
  | .vscan x .. => some x.dest
  | .vtopk x .. => some x.dest
  | .vcompact x .. => some x.dest
  | .vexpand x .. => some x.dest
  | .vgather x .. => some x.dest
  | .vscatter x .. => some x.dest
  | .vfill x .. => some x.dest
  | .vcopy x .. => some x.dest
  | .vrand x .. => some x.dest
  | .vamaxh x .. => some x.dest
  | .unpackT5 x .. => some x.dest
  | .vplane x .. => some x.dest
  | .ppSet x .. => some x.dest
  | .sclSet x .. => some x.dest
  | .sclDerive x .. => some x.dest
  | .lbdCfg x .. => some x.dest
  | .accArm x .. => some x.dest
  | .mmp x .. => some x.dest
  | .mmpE x .. => some x.dest
  | .accRel x .. => some x.dest
  | .accClr x .. => some x.dest
  | .accSave x .. => some x.dest
  | .accLoad x .. => some x.dest
  | .accStat x .. => some x.dest
  | .cpyStream x .. => some x.dest
  | .cpyPlanes x .. => some x.dest
  | .cpyConv x .. => some x.dest
  | .cpyCancel x .. => some x.dest
  | .cpySave x .. => some x.dest
  | .cpyResume x .. => some x.dest
  | .cpyStat x .. => some x.dest
  | .ddaPatch x .. => some x.dest
  | .ddaLdy x .. => some x.dest
  | .ddaLdr x .. => some x.dest
  | .ddaClk x .. => some x.dest
  | .ddaRun x .. => some x.dest
  | .ddaStop x .. => some x.dest
  | .ddaTap x .. => some x.dest
  | .ddaRead x .. => some x.dest
  | .ddaSave x .. => some x.dest
  | .ddaRestore x .. => some x.dest
  | .ddaStat x .. => some x.dest
  | .kvbAlloc x .. => some x.dest
  | .kvbMap x .. => some x.dest
  | .kvbShare x .. => some x.dest
  | .kvbFree x .. => some x.dest
  | .kvbStat x .. => some x.dest
  | .seqOpen x .. => some x.dest
  | .seqEmit x .. => some x.dest
  | .seqDraft x .. => some x.dest
  | .seqConfirm x .. => some x.dest
  | .seqReject x .. => some x.dest
  | .seqResume x .. => some x.dest
  | .seqClose x .. => some x.dest
  | .wchSet x .. => some x.dest
  | .wchBudget x .. => some x.dest
  | .wchClr x .. => some x.dest
  | .wchStat x .. => some x.dest
  | .podPut x .. => some x.dest
  | .podGet x .. => some x.dest
  | .podAmo x .. => some x.dest
  | .colAllred x .. => some x.dest
  | .colRedscat x .. => some x.dest
  | .colAllgath x .. => some x.dest
  | .colBcast x .. => some x.dest
  | .colStat x .. => some x.dest
  | _ => none

/-! ## The decoder -/

/-- Guard of one check. -/
def chk (b : Bool) (c : Check) : Except Check Unit := if b then .ok () else .error c
def opt {α : Type} (o : Option α) (c : Check) : Except Check α := match o with | some a => .ok a | none => .error c

/-- PRED, 0x08 when 11. -/
def dPred (w : Nat) : Except Check Pred := opt (Pred.ofCode (w / 2 ^ 23 % 4)) .pred
def tgt1Of (w : Nat) : Target := Target.ofCode (w / 2 ^ 9 % 512)
def tgt2Of (w : Nat) : Target := Target.ofCode (w % 512)
/-- The field values of a decoded instruction, 0x0E. -/
def dField (i : Instr) : Except Check Instr := if i.fieldOk then .ok i else .error .field

/-- G-format. -/
def dG (w : Nat) (k : GF → Instr) : Except Check Instr := do
  dField (k ⟨← dPred w, tgt1Of w, tgt2Of w⟩)
/-- A G-, I- or B-format word whose remaining bits `lo` (below the selector) must be zero but for targets. -/
def dP (w : Nat) (res : Bool) (k : Pred → Instr) : Except Check Instr := do
  let p ← dPred w
  chk res .reserved
  dField (k p)
/-- I-format with its IMM. -/
def dI (w : Nat) (res : Bool) (k : TF → Option Instr) : Except Check Instr := do
  let p ← dPred w
  chk res .reserved
  dField (← opt (k ⟨p, tgt2Of w⟩) .field)
/-- L-format (R83). -/
def dL (w : Nat) (k : LF → Instr) : Except Check Instr := do
  let p ← dPred w
  let sp ← opt (Space.ofCode (w / 2 ^ 16 % 4)) .field
  dField (k ⟨p, fld 5 w 18, sp, fld 7 w 9, tgt2Of w⟩)
/-- S-format of opcode 0x58 (R83): IMM checks `res`, then SCOPE 0 and SPACE. -/
def dS (w : Nat) (res : Bool) (k : SF → Option Instr) : Except Check Instr := do
  let p ← dPred w
  chk res .reserved
  chk (w / 2 ^ 4 % 8 == 0) .field
  let sp ← opt (Space.ofCode (w / 2 ^ 7 % 4)) .field
  dField (← opt (k ⟨p, fld 5 w 18, sp, fld 9 w 9⟩) .field)
/-- Atomics with return (R84). -/
def dA (w : Nat) (k : AF → Instr) : Except Check Instr := do
  let p ← dPred w
  let sp ← opt (Space.ofCode (w / 2 ^ 7 % 4)) .field
  let sc ← opt (Scope.ofCode (w / 2 ^ 4 % 8)) .field
  dField (k ⟨p, fld 5 w 18, fbit w 17, fbit w 16, fld 7 w 9, sp, sc⟩)
/-- Atomics in REDUCE form (R84): IMM bits 6:1 zero. -/
def dR (w : Nat) (k : RF → Instr) : Except Check Instr := do
  let p ← dPred w
  chk (w / 2 ^ 10 % 64 == 0) .reserved
  let sp ← opt (Space.ofCode (w / 2 ^ 7 % 4)) .field
  let sc ← opt (Scope.ofCode (w / 2 ^ 4 % 8)) .field
  dField (k ⟨p, fld 5 w 18, fbit w 17, fbit w 16, fbit w 9, sp, sc⟩)

/-- An X-format instruction whose DEST is a target (opcodes 0x22, 0x31, 0x43; R65): FLAGS zero, static bits at or
above 2^sbits zero. -/
def dXT (w : Nat) (w2 : Option Nat) (nops sbits : Nat) (k : TF → Nat → Option Instr) : Except Check Instr := do
  let st ← opt w2 .cutOff
  let p ← dPred w
  chk (w % 128 == 0 && st / 2 ^ sbits == 0) .reserved
  chk (w / 2 ^ 16 % 4 == nops) .nops
  dField (← opt (k ⟨p, Target.ofCode (w / 2 ^ 7 % 512)⟩ st) .field)

/-- DEST bits that must be zero: bit 7, and bits 6:0 when CV is 0 (R65). -/
def destOk (w : Nat) : Bool := w / 2 ^ 14 % 2 == 0 && (w / 2 ^ 15 % 2 == 1 || w / 2 ^ 7 % 128 == 0)
def destOf (w : Nat) : Option (BitVec 7) := if w / 2 ^ 15 % 2 = 1 then some (fld 7 w 7) else none

/-- An X-format command (R65): FLAGS outside `fmask` zero, static bits at or above 2^sbits zero, then NOPS and CV,
then field values. `k` answers none for a SPACE of 3, which no constructor holds: a field value, behind NOPS and CV. -/
def dX (w : Nat) (w2 : Option Nat) (fmask sbits : Nat) (k : XF → Nat → Nat → Option Instr) : Except Check Instr := do
  let st ← opt w2 .cutOff
  let p ← dPred w
  let fl := w % 128
  chk (destOk w && (fl &&& (127 - fmask)) == 0 && st / 2 ^ sbits == 0) .reserved
  let count := fun (i : Instr) => w / 2 ^ 16 % 4 == i.nops && ((destOf w).isSome || !i.mandatory)
  match k ⟨p, destOf w⟩ fl st with
  | some i =>
      chk i.resOk .reserved
      chk (count i) .nops
      dField i
  | none => do
      chk (match k ⟨p, destOf w⟩ fl 0 with | some i => count i | none => true) .nops
      .error .field

/-- BRO exits (Table 3.11). -/
def decBro (w : Nat) : Except Check Instr :=
  match w / 2 ^ 20 % 8 with
  | 0 => dP w (w % 2 ^ 20 == 0) .broEnd
  | 1 => dP w (w % 2 ^ 20 == 0) .broKeep
  | 2 => dP w (w % 2 ^ 20 == 0) .broRearm
  | 3 => dP w (w / 2 ^ 16 % 16 == 0) (fun p => .broCont p (fld 16 w 0))
  | _ => .error .opcode

/-- Integer, two and one operands (Table 3.12). -/
def decInt (t : ITy) (w : Nat) : Except Check Instr :=
  match w / 2 ^ 18 % 32 with
  | 0 => dG w (.add t)
  | 1 => dG w (.sub t)
  | 2 => dG w (.mul t)
  | 3 => dG w (fun g => match t with | .s x => .mulh x g | .n x => .mulhn x g)
  | 4 => dG w (fun g => match t with | .s x => .div x g | .n x => .divn x g)
  | 5 => dG w (fun g => match t with | .s x => .rem x g | .n x => .remn x g)
  | 6 => dG w (fun g => match t with | .s x => .min x g | .n x => .minn x g)
  | 7 => dG w (fun g => match t with | .s x => .max x g | .n x => .maxn x g)
  | 8 => dG w (.and t)
  | 9 => dG w (.or t)
  | 10 => dG w (.xor t)
  | 11 => dG w (.andn t)
  | 12 => dG w (.orn t)
  | 13 => dG w (.shl t)
  | 14 => dG w (.shr t)
  | 15 => dG w (.sar t)
  | 16 => dG w (.rot t)
  | 17 => dG w (.teq t)
  | 18 => dG w (.tne t)
  | 19 => dG w (fun g => match t with | .s x => .tlt x g | .n x => .tltn x g)
  | 20 => dG w (fun g => match t with | .s x => .tle x g | .n x => .tlen x g)
  | 21 => dG w (.neg t)
  | 22 => dG w (.abs t)
  | 23 => dG w (.clz t)
  | 24 => dG w (.ctz t)
  | 25 => dG w (.popc t)
  | 26 => dG w (.bswap t)
  | 27 => dG w (fun g => if g.t2 = .none then .mov t g.pred g.t1 else .mov2 t g)
  | 28 => dG w (.mkx t)
  | 29 => dG w (.clrx t)
  | _ => .error .opcode

/-- Integer with immediate (Table 3.12). -/
def decImm (t : ITy) (w : Nat) : Except Check Instr :=
  let i := fld 9 w 9
  match w / 2 ^ 18 % 32 with
  | 0 => dI w true (fun f => some (.addi t f i))
  | 1 => dI w true (fun f => some (.teqi t f i))
  | 2 => dI w true (fun f => some (.tnei t f i))
  | 3 => dI w true (fun f => some (match t with | .s x => .tlti x f i | .n x => .tltni x f i))
  | 4 => dI w true (fun f => some (match t with | .s x => .tlei x f i | .n x => .tleni x f i))
  | 5 => dI w true (fun f => some (.sext t f i))
  | 6 => dI w true (fun f => some (.zext t f i))
  | _ => .error .opcode

/-- Three operands (R81). -/
def decInt3 (w : Nat) (w2 : Option Nat) : Except Check Instr :=
  match w / 2 ^ 18 % 32 with
  | 0 => dXT w w2 3 15 (fun f s => if s / 8 = 0 then some (.madd f (ITy.ofCode s)) else none)
  | 1 => dXT w w2 3 15 (fun f s => if s / 8 = 0 then some (.sel f (ITy.ofCode s)) else none)
  | 2 => dXT w w2 1 15 (fun f s => some (.bfx f (ITy.ofCode s) (fld 6 s 3) (fld 6 s 9)))
  | 3 => dXT w w2 2 15 (fun f s => some (.bfi f (ITy.ofCode s) (fld 6 s 3) (fld 6 s 9)))
  | _ => .error .opcode

/-- F32 (Table 3.13). -/
def decF32 (w : Nat) : Except Check Instr :=
  match w / 2 ^ 18 % 32 with
  | 0 => dG w .fadd
  | 1 => dG w .fsub
  | 2 => dG w .fmul
  | 3 => dG w .fdiv
  | 4 => dG w .fmin
  | 5 => dG w .fmax
  | 6 => dG w .feq
  | 7 => dG w .flt
  | 8 => dG w .fle
  | 9 => dG w .fsqrt
  | 10 => dG w .fabs
  | 11 => dG w .fneg
  | 12 => dG w .fexp2
  | 13 => dG w .flog2
  | 14 => dG w .frcp
  | 15 => dG w .frsq
  | _ => .error .opcode

/-- FALLOC to STFX (Table 3.14). -/
def decFrame (w : Nat) (w2 : Option Nat) : Except Check Instr :=
  match w / 2 ^ 25 % 8, w / 2 ^ 18 % 32 with
  | 0, 0 => dG w (.falloc .core)
  | 0, 1 => dG w (.falloc .quad)
  | 0, 2 => dG w (.falloc .die)
  | 0, 3 => dG w (.falloc .pkg)
  | 1, 0 => dP w true .ffree
  | 1, 1 => dG w .self
  | 1, 2 => dG w .taskid
  | 1, 3 => dG w .fstat
  | 2, 0 => dP w (w / 2 ^ 16 % 4 == 0) (fun p => .send p (fld 7 w 9))
  | 2, 1 => dP w (w / 2 ^ 16 % 4 == 0) (fun p => .sendx p (fld 7 w 9))
  | 3, 0 => dXT w w2 3 0 (fun f _ => some (.sendi f.pred))
  | 4, 0 => dG w .ldfx
  | 4, 1 => dG w .stfx
  | _, _ => .error .opcode

/-- Opcode 0x58 (Table 3.15, R83). -/
def decStore (w : Nat) : Except Check Instr :=
  match w % 16 with
  | 0 => dS w true (fun f => some (.stB f))
  | 1 => dS w true (fun f => some (.stH f))
  | 2 => dS w true (fun f => some (.stW f))
  | 3 => dS w true (fun f => some (.stD f))
  | 4 => dS w true (fun f => some (.stf f))
  | 5 => dS w (w / 2 ^ 16 % 4 == 0) (fun f => some (.ste f.pred f.lsid f.space (fld 7 w 9)))
  | 6 => dS w true (fun f => some (.feSet f))
  | 7 => dS w true (fun f => some (.feClr f))
  | 8 => dS w (w / 2 ^ 9 % 512 == 0) (fun f => if f.space = .global then some (.clean f.pred f.lsid) else none)
  | 9 => dS w (w / 2 ^ 9 % 512 == 0) (fun f => if f.space = .global then some (.inval f.pred f.lsid) else none)
  | 10 => dS w true (fun f => some (.pref f))
  | _ => .error .opcode

/-- FENCE (R179). -/
def decFence (w : Nat) : Except Check Instr :=
  if w % 16 = 0 then do
    let p ← dPred w
    chk (w / 2 ^ 9 % 512 == 0) .reserved
    chk (w / 2 ^ 7 % 4 == 0) .field
    let sc ← opt (Scope.ofCode (w / 2 ^ 4 % 8)) .field
    .ok (.fence p (fld 5 w 18) sc)
  else .error .opcode

/-- Atomics with return (Table 3.16). -/
def decAmo (w : Nat) : Except Check Instr :=
  match w % 16 with
  | 0 => dA w .amoAdd
  | 1 => dA w .amoMin
  | 2 => dA w .amoMax
  | 3 => dA w .amoAnd
  | 4 => dA w .amoOr
  | 5 => dA w .amoXor
  | 6 => dA w .amoSwap
  | 8 => dA w .amoFadd
  | 9 => dA w .amoIncw
  | _ => .error .opcode

/-- Atomics in REDUCE form (Table 3.16). -/
def decAmoR (w : Nat) : Except Check Instr :=
  match w % 16 with
  | 0 => dR w .amoAddReduce
  | 1 => dR w .amoMinReduce
  | 2 => dR w .amoMaxReduce
  | 3 => dR w .amoAndReduce
  | 4 => dR w .amoOrReduce
  | 5 => dR w .amoXorReduce
  | 6 => dR w .amoSwapReduce
  | 8 => dR w .amoFaddReduce
  | 9 => dR w .amoIncwReduce
  | _ => .error .opcode

/-- AMO.CAS (R84). -/
def decCas (w : Nat) (w2 : Option Nat) : Except Check Instr :=
  if w / 2 ^ 18 % 32 = 0 then do
    let st ← opt w2 .cutOff
    let p ← dPred w
    chk (destOk w && w % 128 == 0 && st / 2 ^ 11 == 0) .reserved
    chk (w / 2 ^ 16 % 4 == 3) .nops
    let sp ← opt (Space.ofCode (st / 2 ^ 5 % 4)) .field
    let sc ← opt (Scope.ofCode (st / 2 ^ 7 % 8)) .field
    .ok (.amoCas ⟨p, destOf w⟩ (fld 5 st 0) sp sc (fbit st 10))
  else .error .opcode

/-- Barriers, time and system (Table 3.17). -/
def decSys (w : Nat) : Except Check Instr :=
  let bar (k : Pred → Scope → BitVec 6 → Instr) : Except Check Instr :=
    dI w true (fun f => (Scope.ofCode (w / 2 ^ 15 % 8)).map fun sc => k f.pred sc (fld 6 w 9))
  match w / 2 ^ 25 % 4, w / 2 ^ 18 % 32 with
  | 0, 0 => bar .barArrive
  | 0, 1 => bar .barWait
  | 0, 2 => bar .barCfg
  | 1, 0 => dG w .tick
  | 1, 1 => dP w true .waittick
  | 2, 0 => dI w true (fun f => some (.sysRd f (fld 9 w 9)))
  | 2, 1 => dI w true (fun f => some (.sysWr f.pred (fld 9 w 9)))
  | 2, 2 => dI w true (fun f => some (.perfRd f (fld 9 w 9)))
  | 2, 3 => dI w (w / 2 ^ 9 % 64 == 0) (fun f => (Scope.ofCode (w / 2 ^ 15 % 8)).map fun sc => .tlbInv f.pred sc)
  | 2, 4 => dI w (w / 2 ^ 9 % 512 == 0) (fun f => some (.gangSync f.pred))
  | 3, 0 => dP w true .trap
  | 3, 1 => dP w true .brk
  | 3, 2 => dP w true .halt
  | _, _ => .error .opcode

/-- A vector command (R227): FLAGS bits 2:0, all static bits. -/
def dV (w : Nat) (w2 : Option Nat) (k : XF → VF → Instr) : Except Check Instr :=
  dX w w2 7 32 (fun x fl st => some (k x (VF.ofNat fl st)))

/-- Vector, part 1 (Table 3.18). -/
def decVec1 (w : Nat) (w2 : Option Nat) : Except Check Instr :=
  match w / 2 ^ 18 % 32 with
  | 0 => dV w w2 .vadd
  | 1 => dV w w2 .vsub
  | 2 => dV w w2 .vmul
  | 3 => dV w w2 .vfma
  | 4 => dV w w2 .vmin
  | 5 => dV w w2 .vmax
  | 6 => dV w w2 .vabs
  | 7 => dV w w2 .vneg
  | 8 => dV w w2 .vand
  | 9 => dV w w2 .vor
  | 10 => dV w w2 .vxor
  | 11 => dV w w2 .vshl
  | 12 => dV w w2 .vshr
  | 13 => dV w w2 .vcmp
  | 14 => dV w w2 .vselect
  | 15 => dV w w2 .vexp2
  | 16 => dV w w2 .vlog2
  | 17 => dV w w2 .vrcp
  | 18 => dV w w2 .vrsq
  | 19 => dV w w2 .vcvt
  | _ => .error .opcode

/-- Vector, part 2 (Table 3.18). -/
def decVec2 (w : Nat) (w2 : Option Nat) : Except Check Instr :=
  match w / 2 ^ 18 % 32 with
  | 0 => dV w w2 .vred
  | 1 => dV w w2 .vscan
  | 2 => dV w w2 .vtopk
  | 3 => dV w w2 .vcompact
  | 4 => dV w w2 .vexpand
  | 5 => dV w w2 .vgather
  | 6 => dV w w2 .vscatter
  | 7 => dV w w2 .vfill
  | 8 => dV w w2 .vcopy
  | 9 => dV w w2 .vrand
  | 10 => dV w w2 .vamaxh
  | 11 => dV w w2 .unpackT5
  | 12 => dV w w2 .vplane
  | _ => .error .opcode

/-- Matrix (Table 10.3). -/
def decMat (w : Nat) (w2 : Option Nat) : Except Check Instr :=
  let mm (k : XF → BitVec 4 → BitVec 2 → Bool → Bool → BitVec 10 → Instr) :=
    dX w w2 0 18 (fun x _ s => some (k x (fld 4 s 0) (fld 2 s 4) (fbit s 6) (fbit s 7) (fld 10 s 8)))
  match w / 2 ^ 18 % 32 with
  | 0 => dX w w2 0 4 (fun x _ s => some (.ppSet x (fld 4 s 0)))
  | 1 => dX w w2 0 4 (fun x _ s => some (.sclSet x (fld 4 s 0)))
  | 2 => dX w w2 0 19 (fun x _ s => some (.sclDerive x (fld 4 s 0) (fld 8 s 4) (fld 3 s 12) (fld 4 s 15)))
  | 3 => dX w w2 0 0 (fun x _ _ => some (.lbdCfg x))
  | 4 => dX w w2 0 22 (fun x _ s =>
      some (.accArm x (fld 2 s 0) (fld 4 s 2) (fld 4 s 6) (fld 4 s 10) (fld 4 s 14) (fld 4 s 18)))
  | 5 => mm .mmp
  | 6 => mm .mmpE
  | 7 => dX w w2 0 2 (fun x _ s => some (.accRel x (fld 2 s 0)))
  | 8 => dX w w2 0 2 (fun x _ s => some (.accClr x (fld 2 s 0)))
  | 9 => dX w w2 1 2 (fun x f s => some (.accSave x (fld 2 s 0) (fbit f 0)))
  | 10 => dX w w2 0 2 (fun x _ s => some (.accLoad x (fld 2 s 0)))
  | 11 => dX w w2 0 2 (fun x _ s => some (.accStat x (fld 2 s 0)))
  | _ => .error .opcode

/-- Copy (Tables 11.1 to 11.3). -/
def decCpy (w : Nat) (w2 : Option Nat) : Except Check Instr :=
  match w / 2 ^ 18 % 32 with
  | 0 => dX w w2 3 9 (fun x f s => do
      return .cpyStream x (fbit f 0) (fbit f 1) (fld 2 s 0) (← Space.ofCode (s / 2 ^ 2 % 4)) (← Space.ofCode (s / 2 ^ 4 % 4)) (fld 3 s 6))
  | 1 => dX w w2 3 22 (fun x f s => do
      return .cpyPlanes x (fbit f 0) (fbit f 1) (fld 2 s 0) (← Space.ofCode (s / 2 ^ 2 % 4)) (fbit s 4) (fbit s 5) (fld 4 s 6)
        (fld 4 s 10) (fld 4 s 14) (fld 2 s 18) (fbit s 20) (fbit s 21))
  | 2 => dX w w2 3 20 (fun x f s => do
      return .cpyConv x (fbit f 0) (fbit f 1) (fld 2 s 0) (← Space.ofCode (s / 2 ^ 2 % 4)) (fbit s 4) (fld 5 s 5) (fld 4 s 10)
        (fld 2 s 14) (fbit s 16) (fbit s 17) (fld 2 s 18))
  | 3 => dX w w2 4 2 (fun x f s => some (.cpyCancel x (fbit f 2) (fld 2 s 0)))
  | 4 => dX w w2 16 2 (fun x f s => some (.cpySave x (fbit f 4) (fld 2 s 0)))
  | 5 => dX w w2 8 2 (fun x f s => some (.cpyResume x (fbit f 3) (fld 2 s 0)))
  | 6 => dX w w2 0 2 (fun x _ s => some (.cpyStat x (fld 2 s 0)))
  | _ => .error .opcode

/-- Integrator (Table 12.4). -/
def decDda (w : Nat) (w2 : Option Nat) : Except Check Instr :=
  match w / 2 ^ 18 % 32 with
  | 0 => dX w w2 0 17 (fun x _ s => some (.ddaPatch x (fld 8 s 0) (fld 8 s 8) (fbit s 16)))
  | 1 => dX w w2 0 16 (fun x _ s => some (.ddaLdy x (fld 8 s 0) (fld 8 s 8)))
  | 2 => dX w w2 0 16 (fun x _ s => some (.ddaLdr x (fld 8 s 0) (fld 8 s 8)))
  | 3 => dX w w2 0 3 (fun x _ s => some (.ddaClk x (fld 3 s 0)))
  | 4 => dX w w2 0 8 (fun x _ s => some (.ddaRun x (fld 8 s 0)))
  | 5 => dX w w2 0 8 (fun x _ s => some (.ddaStop x (fld 8 s 0)))
  | 6 => dX w w2 0 32 (fun x _ s => some (.ddaTap x (fld 4 s 0) (fld 2 s 4) (fld 26 s 6)))
  | 7 => dX w w2 0 16 (fun x _ s => some (.ddaRead x (fld 8 s 0) (fld 8 s 8)))
  | 8 => dX w w2 0 3 (fun x _ s => some (.ddaSave x (fld 3 s 0)))
  | 9 => dX w w2 0 3 (fun x _ s => some (.ddaRestore x (fld 3 s 0)))
  | 10 => dX w w2 0 3 (fun x _ s => some (.ddaStat x (fld 3 s 0)))
  | _ => .error .opcode

/-- Block store and sequences (Table 17.2). -/
def decSeq (w : Nat) (w2 : Option Nat) : Except Check Instr :=
  match w / 2 ^ 25 % 2, w / 2 ^ 18 % 32 with
  | 1, 0 => dX w w2 1 0 (fun x f _ => some (.kvbAlloc x (fbit f 0)))
  | 1, 1 => dX w w2 0 0 (fun x _ _ => some (.kvbMap x))
  | 1, 2 => dX w w2 0 8 (fun x _ s => some (.kvbShare x (fld 8 s 0)))
  | 1, 3 => dX w w2 1 0 (fun x f _ => some (.kvbFree x (fbit f 0)))
  | 1, 4 => dX w w2 0 6 (fun x _ s => some (.kvbStat x (fld 5 s 0) (fbit s 5)))
  | 0, 0 => dX w w2 0 6 (fun x _ s => some (.seqOpen x (fld 5 s 0) (fbit s 5)))
  | 0, 1 => dX w w2 0 0 (fun x _ _ => some (.seqEmit x))
  | 0, 2 => dX w w2 0 0 (fun x _ _ => some (.seqDraft x))
  | 0, 3 => dX w w2 1 0 (fun x f _ => some (.seqConfirm x (fbit f 0)))
  | 0, 4 => dX w w2 0 0 (fun x _ _ => some (.seqReject x))
  | 0, 5 => dX w w2 0 0 (fun x _ _ => some (.seqResume x))
  | 0, 6 => dX w w2 0 0 (fun x _ _ => some (.seqClose x))
  | 0, 8 => dX w w2 0 13 (fun x _ s => some (.wchSet x (fld 3 s 0) (fld 3 s 3) (fld 3 s 6) (fld 4 s 9)))
  | 0, 9 => dX w w2 0 5 (fun x _ s => some (.wchBudget x (fld 2 s 0) (fld 3 s 2)))
  | 0, 10 => dX w w2 0 13 (fun x _ s => some (.wchClr x (fld 8 s 0) (fld 4 s 8) (fbit s 12)))
  | 0, 11 => dX w w2 0 0 (fun x _ _ => some (.wchStat x))
  | _, _ => .error .opcode

/-- Pod and collectives (Table 22.2). -/
def decPod (w : Nat) (w2 : Option Nat) : Except Check Instr :=
  match w / 2 ^ 18 % 32 with
  | 0 => dX w w2 1 2 (fun x f s => do return .podPut x (fbit f 0) (← Space.ofCode (s % 4)))
  | 1 => dX w w2 3 2 (fun x f s => do return .podGet x (fbit f 0) (fbit f 1) (← Space.ofCode (s % 4)))
  | 2 => dX w w2 5 6 (fun x f s => some (.podAmo x (fbit f 0) (fbit f 2) (fld 4 s 0) (fbit s 4) (fbit s 5)))
  | 8 => dX w w2 0 4 (fun x _ s => some (.colAllred x (fld 2 s 0) (fld 2 s 2)))
  | 9 => dX w w2 0 4 (fun x _ s => some (.colRedscat x (fld 2 s 0) (fld 2 s 2)))
  | 10 => dX w w2 0 2 (fun x _ s => some (.colAllgath x (fld 2 s 0)))
  | 11 => dX w w2 0 2 (fun x _ s => some (.colBcast x (fld 2 s 0)))
  | 12 => dX w w2 0 0 (fun x _ _ => some (.colStat x))
  | _ => .error .opcode

/-- The checks of Table 3.20 from OPC to code 0x0E on one instruction: `w` is its word, `w2` the word after it in
the block, none at the block's end. Targets of an instruction that produces no value are checked by `decode`. -/
def decodeCore (w : Nat) (w2 : Option Nat) : Except Check Instr :=
  match w / 2 ^ 25 with
  | 0x01 => decBro w
  | 0x02 => if w / 2 ^ 18 % 32 = 0 then dG w .null else .error .opcode
  | 0x03 =>
      match w / 2 ^ 18 % 32 with
      | 0 => dG w .pand
      | 1 => dG w .por
      | 2 => dG w .pnot
      | _ => .error .opcode
  | 0x04 => if w / 2 ^ 18 % 32 = 0 then dG w .testX else .error .opcode
  | 0x10 => decInt (.s .w8) w
  | 0x11 => decInt (.s .w16) w
  | 0x12 => decInt (.s .w32) w
  | 0x13 => decInt (.s .w64) w
  | 0x14 => decInt (.n .w8) w
  | 0x15 => decInt (.n .w16) w
  | 0x16 => decInt (.n .w32) w
  | 0x17 => decInt (.n .w64) w
  | 0x18 => decImm (.s .w8) w
  | 0x19 => decImm (.s .w16) w
  | 0x1A => decImm (.s .w32) w
  | 0x1B => decImm (.s .w64) w
  | 0x1C => decImm (.n .w8) w
  | 0x1D => decImm (.n .w16) w
  | 0x1E => decImm (.n .w32) w
  | 0x1F => decImm (.n .w64) w
  | 0x20 => .ok (.genc (fld 16 w 9) (tgt2Of w))
  | 0x21 => .ok (.appc (fld 16 w 9) (tgt2Of w))
  | 0x22 => decInt3 w w2
  | 0x30 => decF32 w
  | 0x31 => if w / 2 ^ 18 % 32 = 0 then dXT w w2 3 0 (fun f _ => some (.fma f)) else .error .opcode
  | 0x32 =>
      if w / 2 ^ 18 % 32 = 0 then
        dI w (w / 2 ^ 9 % 2 == 0) (fun f => do
          return .fcvt f (← FTy.ofCode (w / 2 ^ 14 % 16)) (← FTy.ofCode (w / 2 ^ 10 % 16)))
      else .error .opcode
  | 0x40 | 0x41 | 0x42 | 0x43 | 0x44 => decFrame w w2
  | 0x50 => dL w .ldB
  | 0x51 => dL w .ldH
  | 0x52 => dL w .ldW
  | 0x53 => dL w .ldD
  | 0x54 => dL w .ldw
  | 0x55 => dL w .ldt
  | 0x56 => dL w .ldrc
  | 0x57 => dL w .feTest
  | 0x58 => decStore w
  | 0x59 => decFence w
  | 0x60 => decAmo w
  | 0x61 => decAmoR w
  | 0x62 => decCas w w2
  | 0x68 | 0x69 | 0x6A | 0x6B => decSys w
  | 0x70 => decVec1 w w2
  | 0x71 => decVec2 w w2
  | 0x72 => decMat w w2
  | 0x73 => decCpy w w2
  | 0x74 => decDda w w2
  | 0x75 | 0x76 => decSeq w w2
  | 0x77 => decPod w w2
  | _ => .error .opcode

/-- The target fields of an instruction that produces no value must be NONE, code 0x06 (R79). S-, B- and X-format
commands have no target field. -/
def noneOk (i : Instr) (w : Nat) : Bool :=
  match i with
  | .ffree _ | .waittick _ | .trap _ | .brk _ | .halt _ => w % 2 ^ 18 == 0x7F * 512 + 0x7F
  | .send .. | .sendx .. | .barArrive .. | .barWait .. | .barCfg .. | .sysWr .. | .tlbInv .. | .gangSync _ => w % 512 == 0x7F
  | .sendi _ => w / 2 ^ 7 % 512 == 0x7F
  | _ => true

/-- The decoder: the instruction that the word `w` (and, for an X-format instruction, the word after it) stands
for, or the name of the check that refuses it. -/
def decode (w : Nat) (w2 : Option Nat) : Except Check Instr := do
  let i ← decodeCore w w2
  chk (noneOk i w) .tgtOperand
  .ok i

/-! ## The encoder -/

/-- G-, I- and C-format words from their fields (Table 3.4). -/
def wordG (opc p x a b : Nat) : Nat := opc * 2 ^ 25 + p * 2 ^ 23 + x * 2 ^ 18 + a * 2 ^ 9 + b
def encG (opc x : Nat) (g : GF) : List Nat := [wordG opc g.pred.code x g.t1.code g.t2.code]
def encI (opc x imm : Nat) (f : TF) : List Nat := [wordG opc f.pred.code x imm f.tgt.code]
/-- A word without targets: both fields NONE, or IMM and NONE. -/
def encP (opc x imm : Nat) (p : Pred) : List Nat := [wordG opc p.code x imm 0x7F]
def encL (opc : Nat) (f : LF) : List Nat :=
  [wordG opc f.pred.code f.lsid.toNat (f.space.code * 2 ^ 7 + f.off.toNat) f.tgt.code]
def encS (sop : Nat) (f : SF) : List Nat :=
  [wordG 0x58 f.pred.code f.lsid.toNat f.off.toNat (f.space.code * 2 ^ 7 + sop)]
def encA (sop : Nat) (f : AF) : List Nat :=
  [wordG 0x60 f.pred.code f.lsid.toNat (bnat f.w32 * 2 ^ 8 + bnat f.nat * 2 ^ 7 + f.slot.toNat)
    (f.space.code * 2 ^ 7 + f.scope.code * 2 ^ 4 + sop)]
def encR (sop : Nat) (f : RF) : List Nat :=
  [wordG 0x61 f.pred.code f.lsid.toNat (bnat f.w32 * 2 ^ 8 + bnat f.nat * 2 ^ 7 + bnat f.relaxed)
    (f.space.code * 2 ^ 7 + f.scope.code * 2 ^ 4 + sop)]
/-- Both words of an X-format instruction (R65). -/
def encX (opc p sub nops dest flags st : Nat) : List Nat :=
  [opc * 2 ^ 25 + p * 2 ^ 23 + sub * 2 ^ 18 + nops * 2 ^ 16 + dest * 2 ^ 7 + flags, st]
def encXT (opc sub nops : Nat) (f : TF) (st : Nat) : List Nat := encX opc f.pred.code sub nops f.tgt.code 0 st
def encV (opc sub nops : Nat) (x : XF) (v : VF) : List Nat := encX opc x.pred.code sub nops (destCode x.dest) v.flags v.static
def encC (opc sub nops : Nat) (x : XF) (flags st : Nat) : List Nat := encX opc x.pred.code sub nops (destCode x.dest) flags st

/-- The words of an instruction; a machine event has none. -/
def encodeNat : Instr → List Nat
  | .broEnd p => [wordG 1 p.code 0 0 0]
  | .broKeep p => [wordG 1 p.code 4 0 0]
  | .broRearm p => [wordG 1 p.code 8 0 0]
  | .broCont p t => [wordG 1 p.code 12 0 t.toNat]
  | .null g => encG 2 0 g
  | .pand g => encG 3 0 g
  | .por g => encG 3 1 g
  | .pnot g => encG 3 2 g
  | .testX g => encG 4 0 g
  | .add t g => encG (0x10 + t.code) 0 g
  | .sub t g => encG (0x10 + t.code) 1 g
  | .mul t g => encG (0x10 + t.code) 2 g
  | .mulh w g => encG (0x10 + w.code) 3 g
  | .mulhn w g => encG (0x14 + w.code) 3 g
  | .div w g => encG (0x10 + w.code) 4 g
  | .divn w g => encG (0x14 + w.code) 4 g
  | .rem w g => encG (0x10 + w.code) 5 g
  | .remn w g => encG (0x14 + w.code) 5 g
  | .min w g => encG (0x10 + w.code) 6 g
  | .minn w g => encG (0x14 + w.code) 6 g
  | .max w g => encG (0x10 + w.code) 7 g
  | .maxn w g => encG (0x14 + w.code) 7 g
  | .and t g => encG (0x10 + t.code) 8 g
  | .or t g => encG (0x10 + t.code) 9 g
  | .xor t g => encG (0x10 + t.code) 10 g
  | .andn t g => encG (0x10 + t.code) 11 g
  | .orn t g => encG (0x10 + t.code) 12 g
  | .shl t g => encG (0x10 + t.code) 13 g
  | .shr t g => encG (0x10 + t.code) 14 g
  | .sar t g => encG (0x10 + t.code) 15 g
  | .rot t g => encG (0x10 + t.code) 16 g
  | .teq t g => encG (0x10 + t.code) 17 g
  | .tne t g => encG (0x10 + t.code) 18 g
  | .tlt w g => encG (0x10 + w.code) 19 g
  | .tltn w g => encG (0x14 + w.code) 19 g
  | .tle w g => encG (0x10 + w.code) 20 g
  | .tlen w g => encG (0x14 + w.code) 20 g
  | .neg t g => encG (0x10 + t.code) 21 g
  | .abs t g => encG (0x10 + t.code) 22 g
  | .clz t g => encG (0x10 + t.code) 23 g
  | .ctz t g => encG (0x10 + t.code) 24 g
  | .popc t g => encG (0x10 + t.code) 25 g
  | .bswap t g => encG (0x10 + t.code) 26 g
  | .mov t p d => [wordG (0x10 + t.code) p.code 27 d.code 0x7F]
  | .mov2 t g => encG (0x10 + t.code) 27 g
  | .mkx t g => encG (0x10 + t.code) 28 g
  | .clrx t g => encG (0x10 + t.code) 29 g
  | .addi t f i => encI (0x18 + t.code) 0 i.toNat f
  | .teqi t f i => encI (0x18 + t.code) 1 i.toNat f
  | .tnei t f i => encI (0x18 + t.code) 2 i.toNat f
  | .tlti w f i => encI (0x18 + w.code) 3 i.toNat f
  | .tltni w f i => encI (0x1C + w.code) 3 i.toNat f
  | .tlei w f i => encI (0x18 + w.code) 4 i.toNat f
  | .tleni w f i => encI (0x1C + w.code) 4 i.toNat f
  | .sext t f i => encI (0x18 + t.code) 5 i.toNat f
  | .zext t f i => encI (0x18 + t.code) 6 i.toNat f
  | .genc c t => [0x20 * 2 ^ 25 + c.toNat * 2 ^ 9 + t.code]
  | .appc c t => [0x21 * 2 ^ 25 + c.toNat * 2 ^ 9 + t.code]
  | .madd f t => encXT 0x22 0 3 f t.code
  | .sel f t => encXT 0x22 1 3 f t.code
  | .bfx f t pos len1 => encXT 0x22 2 1 f (t.code + pos.toNat * 2 ^ 3 + len1.toNat * 2 ^ 9)
  | .bfi f t pos len1 => encXT 0x22 3 2 f (t.code + pos.toNat * 2 ^ 3 + len1.toNat * 2 ^ 9)
  | .fadd g => encG 0x30 0 g
  | .fsub g => encG 0x30 1 g
  | .fmul g => encG 0x30 2 g
  | .fdiv g => encG 0x30 3 g
  | .fmin g => encG 0x30 4 g
  | .fmax g => encG 0x30 5 g
  | .feq g => encG 0x30 6 g
  | .flt g => encG 0x30 7 g
  | .fle g => encG 0x30 8 g
  | .fsqrt g => encG 0x30 9 g
  | .fabs g => encG 0x30 10 g
  | .fneg g => encG 0x30 11 g
  | .fexp2 g => encG 0x30 12 g
  | .flog2 g => encG 0x30 13 g
  | .frcp g => encG 0x30 14 g
  | .frsq g => encG 0x30 15 g
  | .fma f => encXT 0x31 0 3 f 0
  | .fcvt f s d => encI 0x32 0 (s.code * 2 ^ 5 + d.code * 2) f
  | .falloc sc g => encG 0x40 sc.code g
  | .ffree p => encP 0x41 0 0x7F p
  | .self g => encG 0x41 1 g
  | .taskid g => encG 0x41 2 g
  | .fstat g => encG 0x41 3 g
  | .send p s => encP 0x42 0 s.toNat p
  | .sendx p s => encP 0x42 1 s.toNat p
  | .sendi p => encX 0x43 p.code 0 3 0x7F 0 0
  | .ldfx g => encG 0x44 0 g
  | .stfx g => encG 0x44 1 g
  | .ldB f => encL 0x50 f
  | .ldH f => encL 0x51 f
  | .ldW f => encL 0x52 f
  | .ldD f => encL 0x53 f
  | .ldw f => encL 0x54 f
  | .ldt f => encL 0x55 f
  | .ldrc f => encL 0x56 f
  | .feTest f => encL 0x57 f
  | .stB f => encS 0 f
  | .stH f => encS 1 f
  | .stW f => encS 2 f
  | .stD f => encS 3 f
  | .stf f => encS 4 f
  | .ste p l sp s => [wordG 0x58 p.code l.toNat s.toNat (sp.code * 2 ^ 7 + 5)]
  | .feSet f => encS 6 f
  | .feClr f => encS 7 f
  | .clean p l => [wordG 0x58 p.code l.toNat 0 (2 * 2 ^ 7 + 8)]
  | .inval p l => [wordG 0x58 p.code l.toNat 0 (2 * 2 ^ 7 + 9)]
  | .pref f => encS 10 f
  | .fence p l sc => [wordG 0x59 p.code l.toNat 0 (sc.code * 2 ^ 4)]
  | .amoAdd f => encA 0 f
  | .amoAddReduce f => encR 0 f
  | .amoMin f => encA 1 f
  | .amoMinReduce f => encR 1 f
  | .amoMax f => encA 2 f
  | .amoMaxReduce f => encR 2 f
  | .amoAnd f => encA 3 f
  | .amoAndReduce f => encR 3 f
  | .amoOr f => encA 4 f
  | .amoOrReduce f => encR 4 f
  | .amoXor f => encA 5 f
  | .amoXorReduce f => encR 5 f
  | .amoSwap f => encA 6 f
  | .amoSwapReduce f => encR 6 f
  | .amoFadd f => encA 8 f
  | .amoFaddReduce f => encR 8 f
  | .amoIncw f => encA 9 f
  | .amoIncwReduce f => encR 9 f
  | .amoCas x l sp sc w32 => encC 0x62 0 3 x 0 (l.toNat + sp.code * 2 ^ 5 + sc.code * 2 ^ 7 + bnat w32 * 2 ^ 10)
  | .barArrive p sc i => encP 0x68 0 (sc.code * 2 ^ 6 + i.toNat) p
  | .barWait p sc i => encP 0x68 1 (sc.code * 2 ^ 6 + i.toNat) p
  | .barCfg p sc i => encP 0x68 2 (sc.code * 2 ^ 6 + i.toNat) p
  | .tick g => encG 0x69 0 g
  | .waittick p => encP 0x69 1 0x7F p
  | .sysRd f r => encI 0x6A 0 r.toNat f
  | .sysWr p r => encP 0x6A 1 r.toNat p
  | .perfRd f c => encI 0x6A 2 c.toNat f
  | .tlbInv p sc => encP 0x6A 3 (sc.code * 2 ^ 6) p
  | .gangSync p => encP 0x6A 4 0 p
  | .trap p => encP 0x6B 0 0x7F p
  | .brk p => encP 0x6B 1 0x7F p
  | .halt p => encP 0x6B 2 0x7F p
  | i@(.vadd x v) => encV 0x70 0 i.nops x v
  | i@(.vsub x v) => encV 0x70 1 i.nops x v
  | i@(.vmul x v) => encV 0x70 2 i.nops x v
  | i@(.vfma x v) => encV 0x70 3 i.nops x v
  | i@(.vmin x v) => encV 0x70 4 i.nops x v
  | i@(.vmax x v) => encV 0x70 5 i.nops x v
  | i@(.vabs x v) => encV 0x70 6 i.nops x v
  | i@(.vneg x v) => encV 0x70 7 i.nops x v
  | i@(.vand x v) => encV 0x70 8 i.nops x v
  | i@(.vor x v) => encV 0x70 9 i.nops x v
  | i@(.vxor x v) => encV 0x70 10 i.nops x v
  | i@(.vshl x v) => encV 0x70 11 i.nops x v
  | i@(.vshr x v) => encV 0x70 12 i.nops x v
  | i@(.vcmp x v) => encV 0x70 13 i.nops x v
  | i@(.vselect x v) => encV 0x70 14 i.nops x v
  | i@(.vexp2 x v) => encV 0x70 15 i.nops x v
  | i@(.vlog2 x v) => encV 0x70 16 i.nops x v
  | i@(.vrcp x v) => encV 0x70 17 i.nops x v
  | i@(.vrsq x v) => encV 0x70 18 i.nops x v
  | i@(.vcvt x v) => encV 0x70 19 i.nops x v
  | i@(.vred x v) => encV 0x71 0 i.nops x v
  | i@(.vscan x v) => encV 0x71 1 i.nops x v
  | i@(.vtopk x v) => encV 0x71 2 i.nops x v
  | i@(.vcompact x v) => encV 0x71 3 i.nops x v
  | i@(.vexpand x v) => encV 0x71 4 i.nops x v
  | i@(.vgather x v) => encV 0x71 5 i.nops x v
  | i@(.vscatter x v) => encV 0x71 6 i.nops x v
  | i@(.vfill x v) => encV 0x71 7 i.nops x v
  | i@(.vcopy x v) => encV 0x71 8 i.nops x v
  | i@(.vrand x v) => encV 0x71 9 i.nops x v
  | i@(.vamaxh x v) => encV 0x71 10 i.nops x v
  | i@(.unpackT5 x v) => encV 0x71 11 i.nops x v
  | i@(.vplane x v) => encV 0x71 12 i.nops x v
  | .ppSet x k => encC 0x72 0 1 x 0 k.toNat
  | .sclSet x k => encC 0x72 1 1 x 0 k.toNat
  | .sclDerive x sc ent tgt m => encC 0x72 2 0 x 0 (sc.toNat + ent.toNat * 2 ^ 4 + tgt.toNat * 2 ^ 12 + m.toNat * 2 ^ 15)
  | .lbdCfg x => encC 0x72 3 1 x 0 0
  | .accArm x nd o wd so sa sb =>
      encC 0x72 4 3 x 0 (nd.toNat + o.toNat * 2 ^ 2 + wd.toNat * 2 ^ 6 + so.toNat * 2 ^ 10 + sa.toNat * 2 ^ 14 + sb.toNat * 2 ^ 18)
  | .mmp x k nd ga gb ns =>
      encC 0x72 5 2 x 0 (k.toNat + nd.toNat * 2 ^ 4 + bnat ga * 2 ^ 6 + bnat gb * 2 ^ 7 + ns.toNat * 2 ^ 8)
  | .mmpE x k nd ga gb ns =>
      encC 0x72 6 2 x 0 (k.toNat + nd.toNat * 2 ^ 4 + bnat ga * 2 ^ 6 + bnat gb * 2 ^ 7 + ns.toNat * 2 ^ 8)
  | .accRel x nd => encC 0x72 7 0 x 0 nd.toNat
  | .accClr x nd => encC 0x72 8 0 x 0 nd.toNat
  | .accSave x nd clr => encC 0x72 9 1 x (bnat clr) nd.toNat
  | .accLoad x nd => encC 0x72 10 1 x 0 nd.toNat
  | .accStat x nd => encC 0x72 11 0 x 0 nd.toNat
  | .cpyStream x sync full k sps spd esz =>
      encC 0x73 0 3 x (bnat sync + 2 * bnat full) (k.toNat + sps.code * 2 ^ 2 + spd.code * 2 ^ 4 + esz.toNat * 2 ^ 6)
  | .cpyPlanes x sync full k spm dir mat ws wd low code g e =>
      encC 0x73 1 3 x (bnat sync + 2 * bnat full) (k.toNat + spm.code * 2 ^ 2 + bnat dir * 2 ^ 4 + bnat mat * 2 ^ 5
        + ws.toNat * 2 ^ 6 + wd.toNat * 2 ^ 10 + low.toNat * 2 ^ 14 + code.toNat * 2 ^ 18 + bnat g * 2 ^ 20 + bnat e * 2 ^ 21)
  | .cpyConv x sync full k spm dir fmt wd code g sat lay =>
      encC 0x73 2 3 x (bnat sync + 2 * bnat full) (k.toNat + spm.code * 2 ^ 2 + bnat dir * 2 ^ 4 + fmt.toNat * 2 ^ 5
        + wd.toNat * 2 ^ 10 + code.toNat * 2 ^ 14 + bnat g * 2 ^ 16 + bnat sat * 2 ^ 17 + lay.toNat * 2 ^ 18)
  | .cpyCancel x all k => encC 0x73 3 0 x (4 * bnat all) k.toNat
  | .cpySave x clr k => encC 0x73 4 1 x (16 * bnat clr) k.toNat
  | .cpyResume x img k => encC 0x73 5 1 x (8 * bnat img) k.toNat
  | .cpyStat x k => encC 0x73 6 0 x 0 k.toNat
  | .ddaPatch x f c l => encC 0x74 0 1 x 0 (f.toNat + c.toNat * 2 ^ 8 + bnat l * 2 ^ 16)
  | .ddaLdy x f c => encC 0x74 1 1 x 0 (f.toNat + c.toNat * 2 ^ 8)
  | .ddaLdr x f c => encC 0x74 2 1 x 0 (f.toNat + c.toNat * 2 ^ 8)
  | .ddaClk x d => encC 0x74 3 1 x 0 d.toNat
  | .ddaRun x m => encC 0x74 4 1 x 0 m.toNat
  | .ddaStop x m => encC 0x74 5 0 x 0 m.toNat
  | .ddaTap x t m r => encC 0x74 6 2 x 0 (t.toNat + m.toNat * 2 ^ 4 + r.toNat * 2 ^ 6)
  | .ddaRead x f c => encC 0x74 7 1 x 0 (f.toNat + c.toNat * 2 ^ 8)
  | .ddaSave x d => encC 0x74 8 1 x 0 d.toNat
  | .ddaRestore x d => encC 0x74 9 1 x 0 d.toNat
  | .ddaStat x d => encC 0x74 10 0 x 0 d.toNat
  | .kvbAlloc x z => encC 0x75 0 1 x (bnat z) 0
  | .kvbMap x => encC 0x75 1 1 x 0 0
  | .kvbShare x n => encC 0x75 2 2 x 0 n.toNat
  | .kvbFree x a => encC 0x75 3 1 x (bnat a) 0
  | .kvbStat x d o => encC 0x75 4 0 x 0 (d.toNat + bnat o * 2 ^ 5)
  | .seqOpen x d o => encC 0x76 0 2 x 0 (d.toNat + bnat o * 2 ^ 5)
  | .seqEmit x => encC 0x76 1 2 x 0 0
  | .seqDraft x => encC 0x76 2 2 x 0 0
  | .seqConfirm x c => encC 0x76 3 3 x (bnat c) 0
  | .seqReject x => encC 0x76 4 2 x 0 0
  | .seqResume x => encC 0x76 5 1 x 0 0
  | .seqClose x => encC 0x76 6 1 x 0 0
  | .wchSet x p l a j => encC 0x76 8 2 x 0 (p.toNat + l.toNat * 2 ^ 3 + a.toNat * 2 ^ 6 + j.toNat * 2 ^ 9)
  | .wchBudget x b a => encC 0x76 9 3 x 0 (b.toNat + a.toNat * 2 ^ 2)
  | .wchClr x p b n => encC 0x76 10 1 x 0 (p.toNat + b.toNat * 2 ^ 8 + bnat n * 2 ^ 12)
  | .wchStat x => encC 0x76 11 1 x 0 0
  | .podPut x o sp => encC 0x77 0 3 x (bnat o) sp.code
  | .podGet x o f sp => encC 0x77 1 3 x (bnat o + 2 * bnat f) sp.code
  | .podAmo x o r op w n => encC 0x77 2 3 x (bnat o + 4 * bnat r) (op.toNat + bnat w * 2 ^ 4 + bnat n * 2 ^ 5)
  | .colAllred x t r => encC 0x77 8 3 x 0 (t.toNat + r.toNat * 2 ^ 2)
  | .colRedscat x t r => encC 0x77 9 3 x 0 (t.toNat + r.toNat * 2 ^ 2)
  | .colAllgath x t => encC 0x77 10 3 x 0 t.toNat
  | .colBcast x t => encC 0x77 11 3 x 0 t.toNat
  | .colStat x => encC 0x77 12 0 x 0 0
  | .reset .. | .firingStart .. | .firingCompletion .. | .commit .. | .takeAtHome .. | .takeAnswer .. | .fenceComplete .. | .tokenDelivery .. | .sectionRestore .. | .sectionEnd .. | .recordAging .. | .handlerActivation .. | .frameCtlRerun .. | .frameCtlResume .. | .frameCtlFree .. | .tqBaseWrite .. | .tqBaseApply .. | .registerWrite .. | .waittickTimerFire .. | .frameAllocation .. | .routerHoldExpiry .. | .combinedGroupAtHome .. | .engineSyncReadResume .. | .ddaStep .. | .linkDeposit .. | .linkOverrunAnswer .. | .kvbHeldRelease .. | .podAmoAtHome .. | .replayEntryExpiry .. | .podTimeout .. | .collectiveTimeout .. | .podPacketReceive .. | .gangTokenDue .. | .ptpMessageReceive .. | .ptpSyncSend .. | .ptpAnnounceSend .. | .announceReceiptTimeout .. | .portStateChange .. | .podDebugHalt .. | .debugHaltAdvertise .. | .debugHaltSeen .. | .debugHaltLapse .. | .launchAccept .. | .loadPhase2 .. | .coreSwitch .. | .sliceEnd .. | .walkComplete .. | .walkRetry .. | .dramRefresh .. | .scrubVisit .. | .scrubPassEnd .. | .scrubCtlWrite .. | .pewCtlWrite .. | .pewterExpiry .. | .bankGateRequest .. | .spgateRequest .. | .bankGated .. | .bankWakeComplete .. | .kvbCtlWrite .. | .partCtlWrite .. | .evselWrite .. | .traceCtlWrite .. | .hctlRestart .. | .hctlStop .. | .hctlMapout .. | .hctlMapin .. | .hostRead .. | .hostWrite .. | .throttleChange .. | .errorRetry .. | .fatalDramLoss .. | .serviceAction .. | .firmwareUpdate .. | .attestReport .. | .accessAtHome .. | .loadValueReturn .. | .eventCounterWrap .. => []

/-- The 32-bit words of an instruction, first word first. -/
def encode (i : Instr) : List IWord := (encodeNat i).map (BitVec.ofNat 32)

/-- Whether an instruction has an encoding: the machine's events have none. -/
def Instr.coded (i : Instr) : Bool := !(encodeNat i).isEmpty

/-- Decode a list of instruction words, the first instruction's words first. (DEDUCED, log 91) (DEDUCED, log 97) -/
def decodeWords (ws : List IWord) : Except Check Instr :=
  match ws with
  | [] => .error .cutOff
  | w :: rest => decode w.toNat (rest.head?.map BitVec.toNat)

/-- The instruction words that the bits `w` of a row stand for: the first word is bits 31:0, and bits that the row
does not give are zero, up to the two words of the longest instruction. -/
def tableWords (nbits w : Nat) : List IWord :=
  [BitVec.ofNat 32 (w % 2 ^ nbits), BitVec.ofNat 32 (w % 2 ^ nbits / 2 ^ 32)]

/-- The instruction that the decoder reads from an instruction whose bits are `w`. -/
def decodeTableWord (nbits w : Nat) : Option Instr :=
  match decodeWords (tableWords nbits w) with
  | .ok i => some i
  | .error _ => none

end Sys2Proof
end

