-- ==== Sys2Proof/Machine/State.lean ====
section
/-! DEFINITION. The state of the package as plain data: memory, cores, dies, package, the packets on their way, the
events that wait, and the reset state. Numbers of things, addresses and indices are Nat; register contents and the
64 data bits of a value are bit vectors. -/

namespace Sys2Proof.Machine

/-! ## Maps -/

/-- A sparse map: strictly rising keys; a key that is not listed holds the map's default. -/
abbrev Sp (α : Type) := List (Nat × α)

/-! ## Values, addresses -/

/-- A scalar value (R19): 64 data bits and the error bit X. -/
structure Val where
  d : BitVec 64
  x : Bool
deriving DecidableEq, Repr, Inhabited

/-- A tagged word (R10). -/
structure TWord where
  d : BitVec 64 := 0
  f : Bool := false
  x : Bool := false
deriving DecidableEq, Repr, Inhabited

/-- A checked address: the space, the memory key of its first byte (Machine/Ops.lean says how keys are laid out), the
virtual address, and for an access through a window of a block store the die and the slot (R371). -/
structure Loc where
  space : Space
  key : Nat
  va : Nat
  slot : Option (Nat × Nat) := none
deriving DecidableEq, Repr

/-! ## Blocks (R58 to R63) -/

/-- The block header, Table 3.1. -/
structure Header where
  taskid : Nat
  node : Nat
  nslot : Nat
  lsidCnt : Nat
  nexit : Nat
  persist : Bool
  handler : Bool
  take : Bool
  loopsrc : Bool
  est : Nat
  nins : Nat
  nrd : Nat
  nwr : Nat
  cls : Nat
deriving DecidableEq, Repr, Inhabited

/-- A read entry, Table 3.2. -/
structure RdEntry where
  slot : Nat
  t1 : Target
  t2 : Target
  consume : Bool
  etest : Bool
deriving DecidableEq, Repr

/-- A write entry, Table 3.3. -/
structure WrEntry where
  slot : Nat
  ovr : Bool
deriving DecidableEq, Repr

/-! ## Items that leave a core -/

/-- The engines of a core: vector, matrix, copy stream k, integrator array. -/
inductive Eng where
  | vec | mat
  | cpy (k : Nat)
  | dda
deriving DecidableEq, Repr

/-- A token on its way (R106); `src` is the sending core, none for the loader; `port` when it stands at the port of its own
core, whose token buffer is full (R206); `die` the die that sends it, where a home answers for the core (R440); `eng` the engine
whose tokens go in the order of its commands (R218, R250, R276). -/
structure Token where
  fp : Nat
  slot : Nat
  v : Val
  src : Option Nat := none
  port : Bool := false
  die : Option Nat := none
  eng : Option Eng := none
deriving DecidableEq, Repr

/-- What a memory operation does at the home of its word. -/
inductive MemOp where
  /-- load of 1, 2, 4 or 8 bytes (R166); LDW and LDT during the firing (R122); LDRC with its count (R177); FE.TEST. -/
  | ld | ldw | ldt | ldrc (n : Nat) | feTest
  | st | stf | ste | feSet | feClr
  | clean | inval | pref
  /-- an atomic of R181: SOP code, 32-bit field, natural flag, REDUCE form, RELAXED -/
  | amo (op : Nat) (w32 nat reduce relaxed : Bool)
deriving DecidableEq, Repr

/-- A memory operation bound for a home (R174): issuing core, frame, firing serial and instruction index, operation,
place, size, the value operands B and C, the result slot, the tick at which it was issued (R359). -/
structure Access where
  core : Nat
  fp : Nat
  ser : Nat
  idx : Nat
  op : MemOp
  loc : Loc
  size : Nat
  v : Val
  w : Val
  slot : Option Nat
  tick : Nat
deriving DecidableEq, Repr

/-- The answer to a load: the value, or that an LDW or LDT met an empty word (the frame is parked), or that the load
met accesses held for want of a block (R372). -/
inductive LoadAns where
  | value (v : Val) (raw : Val)
  | parked
deriving DecidableEq, Repr
structure LoadRet where
  a : Access
  ans : LoadAns
deriving DecidableEq, Repr

/-- A take on its way at commit step 2 (R122): the recorded value. -/
structure TakeReq where
  core : Nat
  fp : Nat
  ser : Nat
  loc : Loc
  v : Val
deriving DecidableEq, Repr
/-- The home's answer: taken, the frame was parked, the value differed. -/
inductive TakeRes where
  | taken | parked | differs
deriving DecidableEq, Repr
structure TakeAns where
  core : Nat
  ser : Nat
  res : TakeRes
  /-- the die of the home -/
  die : Nat
deriving DecidableEq, Repr

/-- A command or frame operation released at commit step 4: the instruction, the issuing core and frame, its operand
values, the class and section of the commit, whether the commit's image has a gang, and words read at the release
(R393). -/
structure Released where
  i : Instr
  core : Nat
  fp : Nat
  ser : Nat := 0
  ops : List Val
  cls : Nat := 0
  sec : Option Nat := none
  words : List TWord := []
  /-- generation that an earlier ARRIVE of the same commit counted in, for BAR.WAIT (R338) -/
  arrived : Option Nat := none
  /-- place in the order of release on its core (R291) -/
  num : Nat := 0
deriving DecidableEq, Repr

/-- A FALLOC request at an allocator (R149, R409). -/
structure FallocReq where
  core : Nat
  ser : Nat
  idx : Nat
  scope : Scope
  /-- the core B names -/
  near : Nat
  task : Nat
  nslot : Nat
  /-- partition of the issuing core -/
  part : Option Nat
deriving DecidableEq, Repr

/-- An integer or RELAXED float group that a router combined (R350): the members in the order of entry. -/
abbrev Group := List Access

/-- A pod atomic at its home (R470). -/
structure PodAmoReq where
  port : Option Nat
  src : Nat
  seq : Nat
  op : Nat
  w32 : Bool
  nat : Bool
  va : Nat
  b : Val
  c : Val
  tag : Nat
  home : Nat := 0
  /-- the issuing core of a command with ORD (R471) -/
  ord : Option Nat := none
deriving DecidableEq, Repr

/-- Where a register write goes: a core's control register, a die register, a package register. -/
inductive RegDst where
  | core (c n : Nat)
  | die (d n : Nat)
  | pkg (n : Nat)
deriving DecidableEq, Repr

/-- Causes for which a die's controller changes a setting (R452, Table 21.7). -/
inductive ThrottleCause where
  | thermal | current | droop | budget
deriving DecidableEq, Repr

/-- Parts of Table 21.8. -/
inductive Part where
  /-- of a scratchpad: the word that was read -/
  | coreRow (core word : Nat)
  /-- of the instruction store: half and instruction word -/
  | storeRow (core half word : Nat)
  /-- of the staging area in which a die holds a launch's data items (R402): partition, die, word of the image -/
  | staging (part die word : Nat)
  | coreLogic (core slot : Nat)
  | commonsRow (die : Nat) (offset : Nat)
  | llcRow (die : Nat) (offset : Nat)
  | lane (dieA dieB : Nat)
  | dramRow (die : Nat) (offset : Nat)
deriving DecidableEq, Repr

/-- The kinds of fatal DRAM loss (R456): a bank maps out 1 GiB, a bus or a layer 32 GiB. -/
inductive DramLoss where
  | bank (die gib : Nat)
  | layer (die layer : Nat)
deriving DecidableEq, Repr

/-- Fabric packets a port can receive (R459): the semantic operations put, get and atomic, their answers,
collective contributions, pod-barrier and gang messages, the debug-halt advertisement, and anything else. -/
inductive PodPkt where
  /-- `ord` names the issuing core of a command with ORD (R471) -/
  | put (src tag va : Nat) (ord : Option Nat) (data : List (BitVec 64 × Bool))
  | get (src tag va : Nat) (ord : Option Nat) (words : Nat)
  | amo (src tag seq op : Nat) (w32 nat : Bool) (va : Nat) (ord : Option Nat) (b c : Val)
  | putAns (tag reason : Nat)
  | getAns (tag reason : Nat) (data : List (BitVec 64 × Bool))
  | amoAns (tag reason : Nat) (result : Val) (sat : Bool)
  | col (src rank ctag nth : Nat) (shape : List Nat) (data : List (BitVec 64 × Bool))
  /-- `com` names the commit, so that the home knows the generation that a WAIT of it awaits (R338) -/
  | barArrive (src id com fp : Nat)
  | barWait (src id com tag : Nat)
  | barCfg (src id n : Nat)
  | barRelease (tag : Nat) (v : Val)
  /-- an arrival dropped at an unconfigured barrier (R338): the issuing frame -/
  | barDropped (fp id : Nat)
  | gangArrive (src : Nat)
  | gangRelease (count tick : Nat)
  | debugHalt (src : Nat)
  | unsupported (src : Nat)
  /-- time messages (R463): Sync and its Follow_Up, Pdelay_Req, Pdelay_Resp and its Follow_Up, Announce with priority1,
  priority2 and clockIdentity; the times are ticks -/
  | ptpSync (count : Nat)
  | ptpFollowUp (count : Nat)
  | ptpPdelay
  | ptpPdelayResp (received : Nat)
  | ptpPdelayFollowUp (sent : Nat)
  | ptpAnnounce (priority1 priority2 : Nat) (identity : BitVec 64)
deriving DecidableEq, Repr

/-- The deliveries of Table 22.1: reliable unordered, reliable ordered, unreliable unordered. -/
inductive Delivery where
  | reliable | ordered | unreliable
deriving DecidableEq, Repr
/-- A packet that left: to a package, or to whoever is at the other end; the address of the fabric endpoint that the peer table names,
high half first (R461), none for an answer to a package that the table does not name; its delivery; the ports that it may take, a
mask. -/
structure PodSent where
  dst : Option Nat
  addr : Option (Nat × Nat) := none
  cls : Delivery
  ports : Nat
  pkt : PodPkt
deriving DecidableEq, Repr

/-- What happens to the machine outside the instruction words: the payload of each machine event of the opcode
table, by the event's row. -/
inductive Event where
  | reset
  | firingStart (core slot : Nat)
  | firingCompletion (core slot : Nat)
  | commit (core slot : Nat)
  | takeAtHome (t : TakeReq)
  | takeAnswer (t : TakeAns)
  | fenceComplete (core slot : Nat)
  | tokenDelivery (t : Token)
  | sectionRestore (core sec : Nat)
  | sectionEnd (core sec : Nat)
  | recordAging (core : Nat)
  | handlerActivation (core : Nat)
  | frameCtlRerun (core fp : Nat)
  | frameCtlResume (core fp : Nat)
  | frameCtlFree (core fp : Nat)
  | tqBaseWrite (core : Nat) (v : BitVec 64)
  | tqBaseApply (core : Nat)
  | registerWrite (dst : RegDst) (v : BitVec 64)
  | waittickTimerFire (core : Nat)
  | frameAllocation (r : FallocReq)
  | routerHoldExpiry (die : Nat)
  | combinedGroupAtHome (die : Nat) (g : Group)
  | engineSyncReadResume (core : Nat) (eng : Eng)
  | ddaStep (core : Nat)
  | linkDeposit (core : Nat)
  | linkOverrunAnswer (core : Nat)
  | kvbHeldRelease (die : Nat)
  | podAmoAtHome (r : PodAmoReq)
  | replayEntryExpiry
  | podTimeout (tag : Nat)
  | collectiveTimeout (serial : Nat)
  | podPacketReceive (port : Nat) (auth : Bool) (pkt : PodPkt)
  | gangTokenDue (fp slot tick : Nat)
  | ptpMessageReceive (port : Nat) (auth : Bool) (gm : Nat) (offset : Int) (count : Nat)
  | ptpSyncSend
  | ptpAnnounceSend
  | announceReceiptTimeout
  | portStateChange (port state : Nat)
  | podDebugHalt (on : Bool)
  | debugHaltAdvertise
  | debugHaltSeen (port src : Nat)
  | debugHaltLapse (port : Nat)
  | launchAccept (part : Nat)
  | loadPhase2 (part : Nat)
  | coreSwitch (core : Nat)
  | sliceEnd
  | walkComplete (die : Nat)
  | walkRetry (die : Nat)
  | dramRefresh (die layer : Nat)
  | scrubVisit (die layer : Nat)
  | scrubPassEnd (die layer : Nat)
  | scrubCtlWrite (die : Nat) (v : BitVec 64)
  | pewCtlWrite (die n : Nat) (v : BitVec 64)
  | pewterExpiry (die k : Nat)
  | bankGateRequest (die g : Nat) (v : BitVec 64)
  | spgateRequest (core : Nat) (v : BitVec 64)
  | bankGated (core : Option Nat) (die bank : Nat)
  | bankWakeComplete (core : Option Nat) (die bank : Nat)
  | kvbCtlWrite (die : Nat) (v : BitVec 64)
  | partCtlWrite (n : Nat) (v : BitVec 64)
  | evselWrite (core : Nat) (v : BitVec 64)
  | traceCtlWrite (die : Nat) (v : BitVec 64)
  | hctlRestart (core : Nat)
  | hctlStop (core : Nat)
  | hctlMapout (core : Nat)
  | hctlMapin (core : Nat)
  | hostRead (la bytes : Nat)
  | hostWrite (la bytes : Nat) (v : BitVec 64)
  /-- a host access to a word of a launch line (R398), to which Table 21.1 gives no LA -/
  | hostLine (part word : Nat) (v : Option (BitVec 64))
  | throttleChange (die : Nat) (cause : ThrottleCause) (mhz mv limit : Nat)
  | errorRetry (part : Part) (succeeds : Bool)
  | fatalDramLoss (loss : DramLoss)
  | serviceAction (action die : Nat)
  /-- the calibration of the boundary between two dies begins, or is completed (R455) -/
  | boundaryService (a b : Nat) (starts : Bool)
  /-- the host writes its own memory (R442) -/
  | hostMemory (a n : Nat) (v : BitVec 64)
  | firmwareUpdate (image : List (BitVec 8))
  | attestReport
  | accessAtHome (a : Access)
  | loadValueReturn (r : LoadRet)
  | eventCounterWrap (core k : Nat)
deriving DecidableEq, Repr

/-- What is on its way inside the package, in the order of sending. -/
inductive Packet where
  | access (a : Access)
  | group (die : Nat) (g : Group)
  | loadRet (r : LoadRet)
  | take (t : TakeReq)
  | takeAns (t : TakeAns)
  | token (t : Token)
  | release (r : Released)
  /-- activation of a reserved frame (R150): frame, task, class, parent, sender -/
  | activate (fp task cls parent : Nat)
  | falloc (r : FallocReq)
  | fstat (core ser idx fp : Nat)
  /-- a result for a value-producing instruction of a firing, from a die: FALLOC and FSTAT answers -/
  | result (die core ser idx : Nat) (v : Val) (reserved : Option (Nat × Nat))
  /-- the record of a woken frame is appended at its core (R123); the die of the word -/
  | wake (die fp : Nat)
deriving DecidableEq, Repr

/-! ## Firings -/

/-- A trap: cause and words 3, 4 and 5 of the record (Table 8.4). -/
structure Trap where
  cause : Nat
  pos : Nat
  w4 : Nat := 0
  w5 : Nat := 0
deriving DecidableEq, Repr

/-- An output held to commit, with the index of its instruction. -/
inductive Out where
  /-- step 3: a memory operation in LSID order -/
  | mem (lsid idx : Nat) (a : Access)
  | fence (lsid idx : Nat) (scope : Scope)
  /-- step 4: released in index order -/
  | rel (idx : Nat) (r : Released)
  /-- step 4 as well: a read of an RC register clears it by the value delivered (R187) -/
  | rc (idx : Nat) (reg : Nat) (v : BitVec 64)
  /-- a frame to activate (R150) -/
  | act (idx fp task : Nat)
  /-- step 5: STFX -/
  | stfx (idx slot : Nat) (v : Val)
deriving DecidableEq, Repr

/-- Where a firing stands. `running`: instructions execute; `completed n`: the n-th of its core to complete;
`taking`: commit step 2 sent; `fencing outs`: step 3 stands at a FENCE with these operations behind it. -/
inductive Phase where
  | running
  | completed (n : Nat)
  | taking
  | fencing (scope : Scope) (rest : List Out)
deriving DecidableEq, Repr

/-- A firing in a block slot (R111). `code` is the block's instruction words; `dels` the deliveries to positions and
write entries (none is a null token); `done` the instructions that executed or passed a null; `waits` those that await a
value; `walks` those that await a translation; `start` the cclk in which the read entries deliver (R202); `due` the cclk in
which each instruction's value may be consumed (R129), newest first. -/
structure Firing where
  fp : Nat
  task : Nat
  ser : Nat
  addr : Nat
  hdr : Header
  reads : List RdEntry
  writes : List WrEntry
  code : List IWord
  size : Nat
  cls : Nat
  arr : Nat
  dels : List (Target × Option Val) := []
  done : List Nat := []
  waits : List Nat := []
  walks : List Nat := []
  lsids : List Nat := []
  outs : List Out := []
  exit : Option (Nat × Instr) := none
  astat : Nat := 0
  take : Option (Loc × Val) := none
  fallocs : List (Nat × Nat × Nat) := []
  insns : Nat := 0
  start : Nat := 0
  due : List (Nat × Nat) := []
  twice : List Target := []
  phase : Phase := .running
deriving DecidableEq, Repr

/-- A task record (Table 5.2) with the cclk at which it entered the queue, from which it ages (R201). -/
structure TRec where
  fp : Nat
  cls : Nat
  task : Nat
  tick : Nat
  est : Nat
  h3 : Nat
  entered : Nat := 0
deriving DecidableEq, Repr

/-! ## Token buffer and waiter table (R205 to R207) -/

/-- An engine command in a queue: the released item. -/
abbrev EngCmd := Released

/-- Where an entry stands: in the pool, in the overflow area, in the die walker table, or still at the sender's port while the area is
full (R206). -/
inductive Place where
  | pool | ovf | walk | port
deriving DecidableEq, Repr

inductive TEntry where
  | token (t : Token)
  /-- a WAITTICK of tick A, released at tick `rel` (R186) -/
  | timer (tick fp slot rel : Nat)
  | barWait (scope : Scope) (id gen fp slot : Nat)
  /-- the same at a pod barrier, whose home answers by the tag (R476) -/
  | podWait (id gen tag fp slot : Nat)
  | cmd (eng : Eng) (c : EngCmd)
deriving DecidableEq, Repr

/-- An entry of a token buffer with its place, the order in which it was spilled, the virtual addresses of its entries in the
overflow area, and a barrier's answer that waits until it has moved back (R206). -/
structure TBuf where
  e : TEntry
  place : Place := .pool
  spill : Nat := 0
  vas : List Nat := []
  ans : Option Val := none
deriving DecidableEq, Repr

/-- A waiter on a word: the word's key, the waiting frame, whether its firing held the take, whether the word is
reserved for it (R123). -/
structure Waiter where
  key : Nat
  fp : Nat
  take : Bool
  reserved : Bool := false
  place : Place := .pool
  spill : Nat := 0
  vas : List Nat := []
deriving DecidableEq, Repr

/-! ## Engines -/

/-- An ACC48 cell (R50). -/
structure ACell where
  m : Int := 0
  x : Int := 0
  err : Bool := false
deriving DecidableEq, Repr, Inhabited

/-- Accumulated results of a started vector command. -/
structure EngAcc where
  errs : Nat := 0
  n1 : Nat := 0
  n2 : Nat := 0
  int : Int := 0
  bits : Nat := 0
  seen : Bool := false
  bad : Bool := false
  top : List (Nat × Nat) := []
  img : List (Nat × Nat) := []
deriving DecidableEq, Repr

/-- The started command of the vector engine (R218): the next block and what it has gathered; `waitW` is the memory
key of an empty word it waits on (R219), `till` the cclk until which its start or a block keeps the engine (R231). -/
structure VecRun where
  cmd : EngCmd
  blk : Nat := 0
  acc : EngAcc := ⟨0, 0, 0, 0, 0, false, false, [], []⟩
  waitW : Option Nat := none
  till : Nat := 0
deriving DecidableEq, Repr

/-- The started command of the matrix engine: the next slab, cycles and skipped pairs of the segment, the precision
pair read at the start (R256); `till` the cclk until which its fixed cycles, a slab or a release keeps the engine (R264, R265), none
where its fixed cycles have still to begin; `rel` a node that is being released. -/
structure MatRun where
  cmd : EngCmd
  pp : BitVec 64 := 0
  slab : Nat := 0
  started : Bool := false
  cycles : Nat := 0
  skipped : Nat := 0
  waitW : Option Nat := none
  till : Option Nat := none
  rel : Option Nat := none
deriving DecidableEq, Repr

/-- An accumulator node (R260). Cells are listed by 64 i + j; an unlisted cell is zero. -/
structure Node where
  armed : Bool := false
  base : Nat := 0
  ofmt : Nat := 0
  wd : Nat := 0
  mrow : BitVec 64 := 0
  mcol : BitVec 64 := 0
  f : Int := 0
  count : Nat := 0
  fp : Nat := 0
  slot : Nat := 0
  cv : Bool := false
  due : Bool := false
  nfault : Nat := 0
  lastf : Nat := 0
  sec : Option Nat := none
  cells : Sp ACell := []
deriving DecidableEq, Repr, Inhabited

/-- A translation held in a TLB (R341): partition, virtual base, page size, physical base, W, level-3 entry address. -/
structure Tlb where
  part : Nat
  va : Nat
  size : Nat
  pa : Nat
  w : Bool
  pte : Nat
deriving DecidableEq, Repr

/-- A piece of a copy unit: its place, its first byte in the unit, its bytes, the translation it came through. -/
structure Piece where
  loc : Loc
  off : Nat
  n : Nat
  tlb : Option Tlb
deriving DecidableEq, Repr

/-- The command that a copy stream holds (R279, Table 11.8): its copy of the nest descriptor, the steps, the count and the
errors done; `waitW` an empty word it waits on, `waitWalk` the address and side whose translation it awaits, `held` while it
waits in the line of a slot (R372); `xtok` errors written into untagged memory; `ahead` the next units of a CPY.STREAM that are
issued, in order: the bytes read with their errors, and where they go (R283); `w0` the first command word of a loaded image
(R292). -/
structure CpyRun where
  cmd : EngCmd
  nest : List (BitVec 64) := []
  step : Nat := 0
  done : Nat := 0
  errs : Nat := 0
  started : Bool := false
  paused : Bool := false
  reason : Nat := 0
  waitW : Option Nat := none
  waitWalk : Option (Nat × Bool) := none
  held : Bool := false
  xtok : Bool := false
  ahead : List (List (Nat × Bool) × List Piece) := []
  w0 : Option Nat := none
deriving DecidableEq, Repr

/-- A copy stream (R274, R293). A CPY.RESUME that awaits the words of its image, and the control commands released behind it, stand
in the queue where they were released, ahead of its work (R275, R290). -/
structure Stream where
  queue : List EngCmd := []
  cur : Option CpyRun := none
  lastr : Nat := 0
deriving DecidableEq, Repr, Inhabited

/-- An integrator cell (R297); latches are 0 empty, 1 for +1, −1 for −1, for DX and DY0 to DY3. -/
structure DCell where
  cfg : BitVec 64 := 0
  y : Int := 0
  r : Int := 0
  dz : Int := 0
  lat : List Int := [0, 0, 0, 0, 0]
deriving DecidableEq, Repr, Inhabited

/-- A step domain (R301). `next` is the cclk of the next step while running; `limit` the steps that remain, 0 for
unbounded; the completion pointer; `hold` the cclk of a step whose link answer is awaited (R303), `held` that step's
results (cell, residue, dz, Y), `late` the cell whose link latch was full. -/
structure Dom where
  d : Nat := 1
  steps : Nat := 0
  run : Bool := false
  next : Nat := 0
  limit : Nat := 0
  fp : Nat := 0
  slot : Nat := 0
  cv : Bool := false
  lastr : Nat := 0
  lastcell : Nat := 0
  fwait : Bool := false
  sec : Option Nat := none
  hold : Option Nat := none
  held : List (Nat × Int × Int × Int) := []
  late : Option Nat := none
deriving DecidableEq, Repr, Inhabited

/-- A tap (R314): mode 0 off, 1 TOKEN, 2 PLANE, 3 FEED; `vals` are the newest samples, not yet written;
`sent` counts tokens sent, samples taken, or elements read. -/
structure Tap where
  mode : Nat := 0
  rest : Nat := 0
  a : BitVec 64 := 0
  k : Nat := 0
  cnt : Nat := 0
  sent : Nat := 0
  fp : Nat := 0
  slot : Nat := 0
  cv : Bool := false
  vals : List Int := []
  /-- one of them was clipped -/
  clip : Bool := false
deriving DecidableEq, Repr, Inhabited

/-- A link increment on its way (R303): cclk of arrival, receiving core, sender's position, link, value. -/
structure LinkInc where
  due : Nat
  dst : Nat
  pos : Nat
  link : Nat
  v : Int
deriving DecidableEq, Repr

/-- The integrator array of a core. -/
structure Dda where
  cells : Sp DCell := []
  links : List (BitVec 64) := []
  doms : Sp Dom := []
  taps : Sp Tap := []
  queue : List EngCmd := []
  /-- a command waiting on an empty word -/
  waitW : Option Nat := none
  inc : List LinkInc := []
  /-- stop tokens of the present cclk, by domain, which go in rising order (R310) -/
  stops : List (Nat × Token) := []
deriving DecidableEq, Repr, Inhabited

/-! ## Sections (R410 to R415) -/

/-- What the scheduler has decided for a section. -/
inductive Choice where
  | none | drain | kill | ckpt
deriving DecidableEq, Repr

/-- A section: serial number, class, frame, whether it is restartable and its frame HELD, the task record's arrival
tick, the cclk at which its first command started, the choice, the class of the record for which it drains, the checkpoint record
that it will take when its started command has ended (R271), the held commit's end and write slots. -/
structure Section where
  ser : Nat
  cls : Nat
  fp : Nat
  restart : Bool := false
  held : Bool := false
  tick : Nat := 0
  start : Option Nat := none
  idle : Nat := 0
  choice : Choice := .none
  rank : Nat := 4
  saveTo : Option Nat := none
  consume : List Nat := []
  exit : Option Instr := none
  halts : Bool := false
deriving DecidableEq, Repr

/-- A checkpointed section in record r of its core: the engines that it used (R414), its queued commands by engine, the stopped matrix
command, nodes, streams, domains, taps. -/
structure Ckpt where
  num : Nat
  sec : Section
  engs : List Eng := []
  cmds : List (Eng × EngCmd) := []
  mat : Option MatRun := none
  nodes : List (Nat × Node) := []
  streams : List (Nat × CpyRun) := []
  doms : List (Nat × Dom × List (Nat × DCell)) := []
  taps : List (Nat × Tap) := []
  since : Nat := 0
deriving DecidableEq, Repr

/-! ## A core (Table 8.1) -/

/-- A pending trap (R210): the eight record words and the class of the trapped frame. -/
structure Pend where
  words : List (BitVec 64)
  cls : Nat
deriving DecidableEq, Repr

/-- What a pod command that translates on its core's side goes by: one on its way by its release number, an answer to POD.GET by
its tag, a collective by its serial. -/
inductive PodKey where
  | cmd (num : Nat)
  | get (tag : Nat)
  | coll (serial : Nat)
deriving DecidableEq, Repr
/-- What a walk has brought to it for a granule: the translation, or the REASON of its fault. -/
structure PodXl where
  key : PodKey
  gran : Nat
  res : Option Tlb
  reason : Nat := 0
deriving DecidableEq, Repr

/-- A task of the image (Table 18.3) with the engines its block names (R412), as bits vector, matrix, copy, integrator. -/
structure Task where
  id : Nat
  addr : Nat
  restart : Bool := false
  engs : Nat := 0
deriving DecidableEq, Repr

structure Core where
  mode : Nat := 0
  /-- a HALT or STOP waits for the resident firings (R193) -/
  halting : Bool := false
  mapped : Bool := true
  slots : List (Option Firing) := [none, none, none, none]
  ser : Nat := 0
  comps : Nat := 0
  frames : List Nat := []
  reserved : List (Nat × Nat) := []
  loopHeld : List Nat := []
  parked : List (Nat × Nat) := []
  freeAfter : List Nat := []
  tq : List TRec := []
  rings : Sp (List TRec) := []
  ringHead : Sp Nat := []
  ringTail : Sp Nat := []
  walkRecs : Sp (List TRec) := []
  /-- a ring or overflow access that met a translation fault is held (R365); one awaits a walk; the writes not performed yet,
  in order: virtual address and words -/
  ringHold : Bool := false
  devWait : Bool := false
  dev : List (Nat × List Nat) := []
  tqBase : BitVec 64 := 0
  tqHeld : Option (BitVec 64) := none
  tbuf : List TBuf := []
  waiters : List Waiter := []
  spills : Nat := 0
  ovfTail : Nat := 0
  syncOvf : BitVec 64 := 0
  syncOva : BitVec 64 := 0
  trapv : BitVec 64 := 0
  frameCtl : BitVec 64 := 0
  frameBase : BitVec 64 := 0x10000
  drainLim : BitVec 64 := 2048
  astat : BitVec 64 := 0
  hintDrops : BitVec 64 := 0
  strayTok : BitVec 64 := 0
  strayFp : BitVec 64 := 0
  evsel : BitVec 64 := 0
  evc : Sp Nat := []
  hctl : BitVec 64 := 0
  tframes : List Nat := []
  /-- trap frames that have not fired yet, and the one whose first fetch failed (R213) -/
  tfresh : List Nat := []
  dfault : Option Nat := none
  pend : List Pend := []
  image : List (BitVec 64) := []
  gang : Bool := false
  seq : Nat := 0
  tasks : List Task := []
  half : Nat := 0
  shadow : List Task := []
  /-- words of the instruction store that cannot be corrected: half and instruction word (R198) -/
  badCode : List (Nat × Nat) := []
  /-- the configuration-complete wave has reached the core (R404) -/
  waved : Bool := false
  /-- a MAPOUT waits for the stop; a lasting fault without a spare keeps the core mapped out (R444, R454) -/
  leaving : Bool := false
  broken : Bool := false
  vecQ : List EngCmd := []
  vec : Option VecRun := none
  matQ : List EngCmd := []
  mat : Option MatRun := none
  nodes : Sp Node := []
  pp : Sp (BitVec 64) := []
  sc : Sp Int := []
  lbdCtl : BitVec 64 := 0x10101
  lbdSaved : Nat := 0
  /-- scale history (R56): key 16 × entry + slot for the slots, 4096 + entry for the heads -/
  hist : Sp Nat := []
  streams : Sp Stream := []
  dda : Dda := {}
  secs : List Section := []
  /-- engine commands that the core has released -/
  rels : Nat := 0
  ckpts : List Ckpt := []
  /-- the cclk from which an engine is free again after a kill, a checkpoint or a restore, by engine (R413, R414) -/
  engFree : Sp Nat := []
  tlb : List Tlb := []
  /-- CYCLES reads the die's cclk less this -/
  cycBase : Nat := 0
  commits : Nat := 0
  undone : Nat := 0
  insns : Nat := 0
  cc : Sp Nat := []
  /-- what the core did in the current cclk: bit 0 issued or committed, bit 2 loading -/
  busy : Nat := 0
  /-- the cclk in which the core last issued, the instructions issued in it, whether one was of L-format, S-format or opcode
  0x62, and the cclk from which the divider is free (R132, R203) -/
  iss : Nat := 0
  issN : Nat := 0
  issM : Bool := false
  divFree : Nat := 0
  lastCls : Nat := 4
  /-- frames in the order in which they began to wait (R448) -/
  waitOrder : List Nat := []
  /-- firings with writes on their way that nothing else on the core follows from (R118, R430) -/
  quiet : List Nat := []
  /-- gating requested and bank gated, by scratchpad bank (R453) -/
  gateReq : List Nat := []
  gated : List Nat := []
  gateHeld : List Access := []
  tickets : List (Nat × PodAmoReq × Bool) := []
  /-- tokens that a saved world had released and that were not delivered (R294) -/
  sent : List Token := []
  /-- what walks have brought to pod commands that are under way (R364) -/
  xl : List PodXl := []
deriving DecidableEq, Repr, Inhabited

/-! ## A die -/

/-- A barrier (R335) and the waits registered at it: issuing frame, slot, target generation. -/
structure Barrier where
  n : Nat := 0
  arr : Nat := 0
  gen : Nat := 0
deriving DecidableEq, Repr, Inhabited

/-- Who awaits a walk: an instruction, a copy stream, a PREF, a ring or overflow access, a pod command's access of its own side. -/
inductive WalkReq where
  | insn (core ser idx : Nat) (va : Nat) (write : Bool) (space : Nat)
  | copy (core k : Nat) (va : Nat) (side : Bool)
  | pref (core : Nat) (va : Nat)
  | dev (core : Nat) (va : Nat)
  | pod (core : Nat) (key : PodKey) (va : Nat)
deriving DecidableEq, Repr
/-- A translation walk in progress (R364): partition, virtual granule, requesters. -/
structure Walk where
  part : Option Nat
  gran : Nat
  reqs : List WalkReq
  /-- PARTk_ROOT as the walk starts (R445) -/
  root : BitVec 64 := 0
deriving DecidableEq, Repr

/-- A line of the last-level cache (R353, R354): valid and dirty sectors, read count, owner partition. -/
structure Line where
  line : Nat
  valid : Nat := 0
  dirty : Nat := 0
  cnt : Option Nat := none
  owner : Option Nat := none
deriving DecidableEq, Repr

/-- One pewter entry (R357). -/
structure Pew where
  ctl : BitVec 64 := 0
  dl : BitVec 64 := 0
deriving DecidableEq, Repr, Inhabited

/-- A layer's refresh and scrubbing (R356): interval in ms, CORR, codewords corrected and visited in this pass, pass
length in force, tick of the next refresh and of the next visit. -/
structure Layer where
  int : Nat := 256
  corr : Nat := 0
  cur : Nat := 0
  pos : Nat := 0
  pass : Nat := 34
  nextRef : Nat := 256000000
  passStart : Nat := 0
deriving DecidableEq, Repr, Inhabited

/-- Who waits at a slot of the block store (R372): an access, a parked frame, a copy stream of a core, a core's ring or
overflow access, a pod request that runs again as its event, a collective by its serial, the trace ring of a die. -/
inductive HeldBy where
  | access (a : Access)
  | frame (fp : Nat)
  | copy (core k : Nat)
  | dev (core : Nat)
  | event (e : Event)
  | coll (serial : Nat)
  | trace (die : Nat)
deriving DecidableEq, Repr
/-- A place in the line of a slot; `write` when it waits to write. -/
structure KvHeld where
  slot : Nat
  write : Bool
  who : HeldBy
deriving DecidableEq, Repr

/-- The block-table store (R368 to R372). -/
structure Kvb where
  pool : BitVec 64 := 0
  win : BitVec 64 := 0
  ctl : BitVec 64 := 0
  refs : Sp Nat := []
  slots : List (Nat × Nat) := []
  lists : List ((Nat × Nat) × List Nat) := []
  damaged : List Nat := []
  held : List KvHeld := []
  raised : Bool := false
deriving DecidableEq, Repr, Inhabited

/-- A pattern and a budget of a Gauntlet entry (Table 17.5). -/
structure Pat where
  len : Nat := 1
  act : Nat := 0
  sym : List Nat := []
  inj : List Nat := []
deriving DecidableEq, Repr, Inhabited
structure Bud where
  act : Nat := 0
  sym : Nat := 0
  limit : Nat := 0
  count : Nat := 0
  armed : Bool := false
deriving DecidableEq, Repr, Inhabited
/-- A Gauntlet table entry (Table 17.5): STATE 0 OPEN, 1 STOPPED, 2 TRAPPED, 3 CLOSED. -/
structure Seq where
  st : Nat := 3
  p : Nat := 0
  hist : List Nat := []
  drafts : List (Nat × Nat × Nat × Nat) := []
  pats : Sp Pat := []
  buds : Sp Bud := []
  notify : Nat := 0
  trapt : Nat := 0
  nott : Nat := 0
deriving DecidableEq, Repr, Inhabited

/-- The trace ring (R449): tick of the previous record, records lost, cause of the next ABS record. -/
structure Trace where
  base : BitVec 64 := 0
  ctl : BitVec 64 := 0
  head : Nat := 0
  last : Nat := 0
  lost : Nat := 0
  abs : Option Nat := none
  /-- records whose writes wait at a slot of the block store (R372) -/
  wait : List (Loc × Nat × Nat) := []
deriving DecidableEq, Repr, Inhabited

/-- Atomics that a quad router of the die holds for partners (R350): the router, the cclk at which the first entered. -/
structure Hold where
  quad : Nat
  since : Nat
  group : Group
deriving DecidableEq, Repr

structure Die where
  reject : Nat := 0
  cclk : Nat := 0
  acc : Nat := 0
  mhz : Nat := 1050
  mv : Nat := 0
  limit : Nat := 2
  layers : Sp Layer := []
  scrub : BitVec 64 := 0x1000004022000000
  gateReq : List Nat := []
  gated : List Nat := []
  gateHeld : List Access := []
  faults : Nat := 0
  walks : List Walk := []
  walkQ : List Walk := []
  pew : Sp Pew := []
  kvb : Kvb := {}
  seqs : Sp Seq := []
  ckpt : BitVec 64 := 0
  kills : Nat := 0
  ckpts : Nat := 0
  drains : Nat := 0
  trace : Trace := {}
  waiters : List Waiter := []
  spills : Nat := 0
  qtlb : Sp (List Tlb) := []
  holds : List Hold := []
  lines : List Line := []
  /-- ways of the cache that are disabled; commons words and codewords that a lasting fault without a spare keeps in error (R454) -/
  waysOff : Nat := 0
  dead : List Nat := []
  qbars : Sp Barrier := []
  bars : Sp Barrier := []
  log : Sp (List (BitVec 64)) := []
  logN : Nat := 0
  /-- frames reserved on cores and not yet activated are in the cores; the partition in its time slice -/
  slice : Option Nat := none
  mapOut : List (Nat × Nat) := []
deriving DecidableEq, Repr, Inhabited

/-! ## The package -/

/-- A partition's registers (Table 21.4, R461). -/
structure PartReg where
  ctl : BitVec 64 := 0
  root : BitVec 64 := 0
  save : BitVec 64 := 0
  evt : BitVec 64 := 0
  podp : BitVec 64 := 0
deriving DecidableEq, Repr, Inhabited

/-- A launch line's launch (R399 to R403): the SEQ accepted last, its image bytes (R458); the launch in progress: phase 0
none, 1 loading, 2 ready, 3 switching; its SEQ and record words, the image bytes, the gang tick, the cores of the region that
have not switched; the image words that each die's staging area cannot give back (R403). -/
structure Launch where
  seq : Nat := 0
  last : Option Nat := none
  phase : Nat := 0
  words : List (BitVec 64) := []
  image : List (BitVec 8) := []
  gtick : Option Nat := none
  gang : Bool := false
  hash : List (BitVec 8) := []
  cores : List Nat := []
  bad : List (Nat × Nat) := []
deriving DecidableEq, Repr, Inhabited

/-- What a pod command waits for (R467). -/
inductive PodWait where
  /-- bytes, and whether a source word was in error -/
  | put (len : Nat) (bad : Bool)
  | get (dst : Nat) (sp : Space) (len : Nat) (full : Bool)
  | amo (r : PodAmoReq)
deriving DecidableEq, Repr
/-- An outstanding pod command: tag, issuing core and frame, completion, home package, ticks counted, what it awaits. -/
structure PodOut where
  tag : Nat
  core : Nat
  fp : Nat
  slot : Option Nat
  home : Nat
  age : Nat
  what : PodWait
  ticket : Option Nat := none
deriving DecidableEq, Repr

/-- A member's contribution to a collective (R473): its shape is what must agree. -/
structure Contrib where
  src : Nat
  rank : Nat
  ctag : Nat
  nth : Nat
  shape : List Nat
  data : List (BitVec 64 × Bool)
  /-- the partition that it belongs to: of the core that issued it, or of the port that it arrived on (R459) -/
  part : Option Nat := none
deriving DecidableEq, Repr

/-- A collective of this package in progress (R473): its command, descriptor, ticks counted, contributions. -/
structure Coll where
  serial : Nat
  ctag : Nat
  nth : Nat
  rel : Released
  kind : Nat
  ty : Nat
  rop : Nat
  count : Nat
  rank : Nat
  root : Nat
  members : List Nat
  age : Nat
  shape : List Nat
  parts : List Contrib
deriving DecidableEq, Repr

/-- A replay filter entry (R470): source, sequence, result, tick of application. -/
structure Replay where
  src : Nat
  seq : Nat
  res : Nat × Val
  tick : Nat
deriving DecidableEq, Repr

/-- One port (R460). -/
structure Port where
  ctl : BitVec 64 := 0
  /-- the packages that advertise DEBUG_HALT here, each with the tick of its last advertisement -/
  halted : List (Nat × Nat) := []
deriving DecidableEq, Repr, Inhabited

/-- Pod state of the package (chapter 22). -/
structure Pod where
  id : BitVec 64 := 0
  time : BitVec 64 := 0
  ctl : BitVec 64 := 0x180000
  ports : Sp Port := []
  /-- packets sent, newest last -/
  sent : List PodSent := []
  /-- packets that found no port of their partition up, oldest first: partition, package, packet -/
  unsent : List (Option Nat × Nat × PodPkt) := []
  tags : Nat := 0
  seq : Nat := 0
  outs : List PodOut := []
  filter : List Replay := []
  floors : Sp Nat := []
  colls : List Coll := []
  colSer : Nat := 0
  colNth : Sp Nat := []
  lastr : Nat := 0
  done : Nat := 0
  early : List Contrib := []
  /-- answers to POD.GET, by tag, whose destinations are not translated yet; commands to which a walk has come (R364) -/
  gets : List (Nat × List (BitVec 64 × Bool)) := []
  woken : List PodKey := []
  bars : Sp Barrier := []
  /-- waits of pod barriers at the home: id, target generation, source package, tag, partition -/
  barWaits : List (Nat × Nat × Nat × Nat × Option Nat) := []
  /-- where the last-counted ARRIVE of a commit counted: source package, commit, id, generation -/
  barLast : List (Nat × Nat × Nat × Nat) := []
  /-- arrivals at a gang home, by partition × 1,024 + member; own waiters (partition, frame, slot) in order of
  arrival; tokens due (frame, slot, tick) -/
  gangArr : Sp Nat := []
  gangWait : List (Nat × Nat × Nat) := []
  gangDue : List (Nat × Nat × Nat) := []
  /-- the best grandmaster that is heard, and the port that leads toward it (R463) -/
  bestGm : Option Nat := none
  gmPort : Option Nat := none
  /-- the package has taken its step to the grandmaster's count (R12); a step was just taken -/
  joined : Bool := false
  jumped : Bool := false
  syncNext : Nat := 62500000
  annNext : Nat := 1000000000
  annSeen : Nat := 0
  halt : Bool := false
  haltNext : Nat := 0
  /-- the cores that DHALT stopped -/
  stopped : List Nat := []
deriving DecidableEq, Repr, Inhabited

structure Pkg where
  reject : Nat := 0
  loss : Nat := 0
  present : Nat := 0xFFFFFF
  evt : BitVec 64 := 0
  quantum : BitVec 64 := 10000000
  pwrCap : BitVec 64 := 7200
  attest : BitVec 64 := 0
  portOwn : Sp (BitVec 64) := []
  parts : Sp PartReg := []
  launches : Sp Launch := []
  bars : Sp Barrier := []
  pod : Pod := {}
  sliceEnd : Nat := 0
  /-- saved worlds by partition and core: the core's state and its scratchpad words -/
  saves : List ((Nat × Nat) × Core × List (Nat × TWord)) := []
  /-- the cclk at which each was saved -/
  saveTick : List ((Nat × Nat) × Nat) := []
  nv : List (Nat × List (BitVec 64)) := []
  fw : Option (List (BitVec 8)) := none
  lanes : List (Nat × Nat) := []
deriving DecidableEq, Repr, Inhabited

/-! ## What runs next -/

/-- The role in which `exec` runs an instruction of the table: inside a firing at an instruction index; in an engine
as its started command; at its home or its target core after commit step 4; or as a machine event. -/
inductive Focus where
  | none
  | firing (core slot idx : Nat)
  | engine (core : Nat) (eng : Eng)
  | home (r : Released)
  | event (e : Event)
deriving DecidableEq, Repr

/-- An act of the machine: an instruction run in a role, a packet of the net delivered, an input taken, time passing; `bad` where a
firing's words do not decode. -/
inductive Act where
  | run (f : Focus) (i : Instr)
  | net (n : Nat)
  | inbox
  | clock
  | bad
deriving DecidableEq, Repr

/-- The machine. `mem` is all of its bytes, tags and poison marks, `due` the internal events that come next, `net`
the packets on their way in sending order, `inbox` what the outside has done and the machine has not yet seen,
`mover` the choice of the next act and `draws` the number of choices taken (the model's own, R107 and the like). -/
structure State where
  mem : List Host.Cell := []
  cores : Sp Core := []
  dies : Sp Die := []
  pkg : Pkg := {}
  tick : Nat := 0
  /-- the physical ranges, start and length, that save images and checkpoint records have been written to (R415, R416) -/
  images : List (Nat × Nat) := []
  net : List Packet := []
  due : List Event := []
  inbox : List Event := []
  /-- what the last host read returned -/
  reply : Option (BitVec 64) := none
  /-- the reply is an error token (R355, R359) -/
  replyErr : Bool := false
  focus : Focus := .none
  mover : Nat := 0
  draws : Nat := 0
deriving DecidableEq, Repr, Inhabited

/-- Why the machine stops. -/
inductive Fault where
  /-- Raised by the step when the words of a running firing's block do not decode: safe, since the block check
  (R76) lets no such firing start, so that only states that no run reaches meet it. -/
  | badWord
deriving DecidableEq, Repr

/-- Why there is no next state. -/
inductive Refusal where
  /-- Raised by an arm of `exec` whose instruction has no meaning yet: safe. -/
  | notModelled (mnemonic : String)
  /-- Raised by a meaning when the state's focus does not hold it: the instruction is not at the place where it could
  run, or the event's condition does not hold. Safe: the step never asks for it. -/
  | notEnabled
deriving DecidableEq, Repr

/-- The machine right after reset (R249, R297, R335 and the Reset columns of the register maps): no frame, no packet,
no image; every register at its reset value. The values the spec does not state are named in the assumption log. -/
def State.reset : State := {}

end Sys2Proof.Machine
end

