-- ==== Sys2Proof/Machine/Mem.lean ====
section
/-! DEFINITION. Sparse maps and the one memory: bytes by key in canonical form, tagged words, codeword poison. -/

namespace Sys2Proof.Machine

/-! ## Sparse maps -/

/-- The value at a key, if it is listed. -/
def Sp.find? {α : Type} : Sp α → Nat → Option α
  | [], _ => none
  | (k, v) :: m, i => if i = k then some v else Sp.find? m i

/-- The value at a key; an unlisted key holds the default. -/
def Sp.get {α : Type} (m : Sp α) (i : Nat) (d : α) : α :=
  match Sp.find? m i with | some v => v | none => d

/-- The map with a value put at a key, keys rising. -/
def Sp.put {α : Type} : Sp α → Nat → α → Sp α
  | [], i, v => [(i, v)]
  | (k, w) :: m, i, v => if i < k then (i, v) :: (k, w) :: m else if i = k then (i, v) :: m else (k, w) :: Sp.put m i v

/-- The map without a key. -/
def Sp.del {α : Type} (m : Sp α) (i : Nat) : Sp α := m.filter fun p => p.1 != i

/-! ## Bytes -/

/-- What an address that nothing has written reads as. DESIGN CHOICE (log 1, unsafe): the spec gives memory no reset
contents, and the model takes zero. -/
def unlisted : Byte := 0

/-- The byte at a key. -/
def memGet : List Host.Cell → Nat → Byte
  | [], _ => unlisted
  | c :: m, a => if a = c.1 then c.2 else memGet m a

/-- A byte put at a key, in canonical form: keys strictly rising, no entry that equals what an unlisted key reads as. -/
def memSet : List Host.Cell → Nat → Byte → List Host.Cell
  | [], a, b => if b = unlisted then [] else [(a, b)]
  | c :: m, a, b =>
      if a < c.1 then (if b = unlisted then c :: m else (a, b) :: c :: m)
      else if a = c.1 then (if b = unlisted then m else (a, b) :: m)
      else c :: memSet m a b

/-- Keys rise strictly from a bound on, and no entry is a default. -/
def memWfFrom : Nat → List Host.Cell → Bool
  | _, [] => true
  | lo, c :: m => decide (lo ≤ c.1) && c.2 != unlisted && memWfFrom (c.1 + 1) m
/-- The canonical form of memory. -/
def Memory.wf (m : List Host.Cell) : Bool := memWfFrom 0 m

/-- n bytes from key a on, little-endian (R9). -/
def memNat (m : List Host.Cell) (a : Nat) : Nat → Nat
  | 0 => 0
  | n + 1 => (memGet m a).toNat + 256 * memNat m (a + 1) n

/-- The low n bytes of v written from key a on, little-endian. -/
def memPut (m : List Host.Cell) (a v : Nat) : Nat → List Host.Cell
  | 0 => m
  | n + 1 => memPut (memSet m a (BitVec.ofNat 8 v)) (a + 1) (v / 256) n

/-! ## The key space

GLOBAL bytes have their physical address as key; the other memories lie above them. -/

/-- Core numbers over the package: die × 128 + core. -/
def coreId (die core : Nat) : Nat := die * 128 + core
def coreDie (c : Nat) : Nat := c / 128
/-- Byte `off` of core c's scratchpad. -/
def localKey (c off : Nat) : Nat := 2 ^ 48 + c * 2 ^ 20 + off
/-- Byte `off` of die d's commons. -/
def commonsKey (d off : Nat) : Nat := 2 ^ 49 + d * 2 ^ 27 + off
/-- Byte `off` of one half of core c's instruction store (R198). -/
def codeKey (c half off : Nat) : Nat := 2 ^ 50 + c * 2 ^ 16 + half * 2 ^ 15 + off
/-- The tags of the word that holds a key: bit 0 F, bit 1 X (R10). -/
def tagKey (key : Nat) : Nat := 2 ^ 51 + key / 8
/-- The poison mark of a 64-byte codeword of GLOBAL memory (R167). -/
def poisonKey (p : Nat) : Nat := 2 ^ 52 + p / 64
/-- Word i of core c's scratchpad (R10). -/
def wordKey (c i : Nat) : Nat := localKey c (8 * i)

/-- Is a key one of a tagged word, and whose: scratchpad of a core or commons of a die? -/
def keyCore (key : Nat) : Nat := (key - 2 ^ 48) / 2 ^ 20
def keyCommonsDie (key : Nat) : Nat := (key - 2 ^ 49) / 2 ^ 27
def keyLocal (key : Nat) : Bool := decide (2 ^ 48 ≤ key ∧ key < 2 ^ 49)
def keyCommons (key : Nat) : Bool := decide (2 ^ 49 ≤ key ∧ key < 2 ^ 50)

/-- The die of a home. -/
def homeDie (key : Nat) : Option Nat :=
  if keyLocal key then some (coreDie (keyCore key)) else if keyCommons key then some (keyCommonsDie key)
  else if key / 2 ^ 37 < Config.numDies then some (key / 2 ^ 37) else none

/-! ## Tagged words -/

def keyF (m : List Host.Cell) (key : Nat) : Bool := decide ((memGet m (tagKey key)).toNat % 2 = 1)
def keyX (m : List Host.Cell) (key : Nat) : Bool := decide ((memGet m (tagKey key)).toNat / 2 % 2 = 1)
def setTags (m : List Host.Cell) (key : Nat) (f x : Bool) : List Host.Cell :=
  memSet m (tagKey key) (BitVec.ofNat 8 (bnat f + 2 * bnat x))

/-- The tagged word at a key that is a multiple of 8. -/
def getWord (m : List Host.Cell) (key : Nat) : TWord :=
  { d := BitVec.ofNat 64 (memNat m key 8), f := keyF m key, x := keyX m key }
def putWord (m : List Host.Cell) (key : Nat) (w : TWord) : List Host.Cell :=
  setTags (memPut m key w.d.toNat 8) key w.f w.x

/-- A value of a word. -/
def TWord.val (w : TWord) : Val := ⟨w.d, w.x⟩
/-- A number as a value without X. -/
def Val.ofNat (n : Nat) : Val := ⟨BitVec.ofNat 64 n, false⟩
/-- An error token with zero data (R22). -/
def Val.err : Val := ⟨0, true⟩
/-- Data that carry X are sent and stored as zero (R114). -/
def Val.norm (v : Val) : Val := if v.x then Val.err else v
def Val.nat (v : Val) : Nat := v.d.toNat

/-- Bits hi..lo of a natural. -/
def bits (v hi lo : Nat) : Nat := v / 2 ^ lo % 2 ^ (hi - lo + 1)
def bit (v i : Nat) : Bool := decide (v / 2 ^ i % 2 = 1)
/-- v with bits lo .. lo+n-1 replaced. -/
def setBits (v lo n x : Nat) : Nat := v - (v / 2 ^ lo % 2 ^ n) * 2 ^ lo + (x % 2 ^ n) * 2 ^ lo
/-- A count held at a limit. -/
def hold (n lim : Nat) : Nat := min n lim

/-! ## Codeword poison -/

def poisoned (m : List Host.Cell) (p : Nat) : Bool := memGet m (poisonKey p) != 0
def setPoison (m : List Host.Cell) (p : Nat) (b : Bool) : List Host.Cell :=
  memSet m (poisonKey p) (if b then 1 else 0)
/-- Codewords that bytes p .. p+n-1 touch. -/
def codewords (p n : Nat) : List Nat := if n = 0 then [] else (List.range ((p + n - 1) / 64 - p / 64 + 1)).map (· + p / 64)
def poisonRange (m : List Host.Cell) (p n : Nat) (b : Bool) : List Host.Cell :=
  (codewords p n).foldl (fun m w => setPoison m (64 * w) b) m

/-- The k-th byte's worth: a list of bytes as a little-endian natural, and back. -/
def leNat : List Nat → Nat
  | [] => 0
  | b :: bs => b % 256 + 256 * leNat bs
def leBytes (v : Nat) : Nat → List Nat
  | 0 => []
  | n + 1 => v % 256 :: leBytes (v / 256) n

end Sys2Proof.Machine
end

