-- ==== Sys2Proof/Machine/Base.lean ====
section
/-! DEFINITION. Access to cores, dies, partitions; presence; strays, counters, the fault log, events and the trace's
predicate; physical addresses, the cache's bookkeeping, reads and writes of physical memory. -/

namespace Sys2Proof.Machine

/-! ## Parts of the state -/

def State.core (s : State) (c : Nat) : Core := s.cores.get c {}
def State.setCore (s : State) (c : Nat) (x : Core) : State := { s with cores := s.cores.put c x }
def State.modCore (s : State) (c : Nat) (f : Core → Core) : State := s.setCore c (f (s.core c))
def State.die (s : State) (d : Nat) : Die := s.dies.get d {}
def State.setDie (s : State) (d : Nat) (x : Die) : State := { s with dies := s.dies.put d x }
def State.modDie (s : State) (d : Nat) (f : Die → Die) : State := s.setDie d (f (s.die d))
def State.modPkg (s : State) (f : Pkg → Pkg) : State := { s with pkg := f s.pkg }
def State.modPod (s : State) (f : Pod → Pod) : State := s.modPkg fun p => { p with pod := f p.pod }
def State.send (s : State) (p : Packet) : State := { s with net := s.net ++ [p] }
def State.raise (s : State) (e : Event) : State := { s with due := s.due ++ [e] }
def State.setMem (s : State) (m : List Host.Cell) : State := { s with mem := m }

/-- The element of a list at an index. -/
def nth? {α : Type} : List α → Nat → Option α
  | [], _ => none
  | a :: _, 0 => some a
  | _ :: l, n + 1 => nth? l n
def nthD {α : Type} (l : List α) (n : Nat) (d : α) : α := match nth? l n with | some a => a | none => d
/-- A list with its n-th element changed. -/
def setNth {α : Type} : List α → Nat → α → List α
  | [], _, _ => []
  | _ :: l, 0, b => b :: l
  | a :: l, n + 1, b => a :: setNth l n b
def natSum (l : List Nat) : Nat := l.foldl (· + ·) 0
/-- The list without its first element that satisfies a test. -/
def dropFirst {α : Type} (p : α → Bool) : List α → List α
  | [] => []
  | a :: l => if p a then l else a :: dropFirst p l
/-- An event that is not raised yet is raised. -/
def raiseOnce (s : State) (e : Event) : State := if s.due.contains e then s else s.raise e

/-! ## Presence and partitions (R445, R446, R114) -/

def diePresent (s : State) (d : Nat) : Bool := decide (d < Config.numDies) && bit s.pkg.present d
def corePresent (s : State) (c : Nat) : Bool := diePresent s (coreDie c) && (s.core c).mapped
def partReg (s : State) (p : Nat) : PartReg := s.pkg.parts.get p {}
/-- Partition p is valid and lists die d. -/
def partLists (s : State) (p d : Nat) : Bool := bit (partReg s p).ctl.toNat 63 && bit (partReg s p).ctl.toNat d
/-- The valid partitions that list a die, rising. -/
def owners (s : State) (d : Nat) : List Nat := (List.range 16).filter fun p => partLists s p d
def timeSliced (s : State) (d : Nat) : Bool := decide ((owners s d).length > 1)
/-- The partition that runs on a die now. -/
def diePart (s : State) (d : Nat) : Option Nat :=
  match owners s d with
  | [] => none
  | [p] => some p
  | _ => (s.die d).slice
def ownsAlone (s : State) (p : Option Nat) (d : Nat) : Bool :=
  match p, owners s d with | some p, [q] => p == q | _, _ => false
def corePart (s : State) (c : Nat) : Option Nat := diePart s (coreDie c)
/-- The partition that owns a port (R445). -/
def portPart (s : State) (port : Nat) : Option Nat :=
  let v := (s.pkg.portOwn.get (port / 8) 0).toNat
  let i := port % 8
  if bit v (8 * i + 7) then some (bits v (8 * i + 3) (8 * i)) else none
/-- A partition owns some port (R447, R460). -/
def ownsPort (s : State) (p : Nat) : Bool := (List.range 32).any fun n => portPart s n == some p
/-- Port n (R460). -/
def portReg (s : State) (n : Nat) : Port := s.pkg.pod.ports.get n {}
def setPort (s : State) (n : Nat) (x : Port) : State := s.modPod fun p => { p with ports := p.ports.put n x }
/-- A port is up: enabled, and its STATE says so (R460). -/
def portUp (s : State) (n : Nat) : Bool := bit (portReg s n).ctl.toNat 63 && bits (portReg s n).ctl.toNat 1 0 == 2
/-- The ports that are up. -/
def upPorts (s : State) : List Nat := (List.range 32).filter (portUp s)
/-- The cores of the package, rising. -/
def allCores : List Nat := List.range (Config.numDies * Config.coresPerDie)
/-- The cores of a scope around a core (R3). -/
def scopeCores (scope : Scope) (c : Nat) : List Nat :=
  match scope with
  | .core => [c]
  | .quad => (List.range 4).map (c / 4 * 4 + ·)
  | .die => (List.range 128).map (c / 128 * 128 + ·)
  | .pkg => allCores
  | .pod => allCores

/-! ## Event counters (R447) and strays (R208) -/

/-- 48-bit counters wrap. -/
def wrap48 (n : Nat) : Nat := n % 2 ^ 48
/-- `n` events of a code on a core: each selected counter counts; a wrap becomes an event of its own. -/
def countEv (s : State) (c code n : Nat) : State :=
  (List.range 4).foldl (fun s k =>
    let co := s.core c
    if code ≠ 0 ∧ bits co.evsel.toNat (8 * k + 7) (8 * k) = code then
      let v := co.evc.get k 0 + n
      let s := s.setCore c { co with evc := co.evc.put k (wrap48 v) }
      if v ≥ 2 ^ 48 then s.raise (.eventCounterWrap c k) else s
    else s) s

/-- Bytes of a packet on the fabric, sent (0x30) or received (0x31), on a port of a partition: every core of it counts them. -/
def countFabric (s : State) (part : Option Nat) (code : Nat) : State :=
  ((s.cores.map (·.1)).filter fun c => part.isSome && corePart s c == part).foldl
    (fun t c => countEv t c code (Config.fabricBytes s.draws)) { s with draws := s.draws + 1 }

/-- A stray counted on a core; the first since the last read is captured (Table 8.7). -/
def stray (s : State) (c fp slot : Nat) : State :=
  let s := s.modCore c fun co =>
    { co with
      strayTok := BitVec.ofNat 64 (wrap48 (co.strayTok.toNat + 1))
      strayFp := if bit co.strayFp.toNat 39 then co.strayFp
                 else BitVec.ofNat 64 (2 ^ 39 + min slot 127 * 2 ^ 32 + fp % 2 ^ 32) }
  countEv s c 0x06 1

/-! ## Physical addresses (Table 16.2) -/

/-- What a physical address names. -/
inductive Phys where
  | dram (die : Nat)
  | reg (die n : Nat)
  | host
  | none
deriving DecidableEq, Repr

def physKind (s : State) (p : Nat) : Phys :=
  if p < 24 * 2 ^ 37 then
    let d := p / 2 ^ 37
    if diePresent s d && !((s.die d).mapOut.any fun r => decide (r.1 ≤ p % 2 ^ 37 ∧ p % 2 ^ 37 < r.1 + r.2)) then .dram d else .none
  else if 0x3F0000000000 ≤ p ∧ p < 0x3F0000000000 + 24 * 0x10000 then
    let d := (p - 0x3F0000000000) / 0x10000
    if diePresent s d then .reg d (p % 0x10000 / 8) else .none
  else if 2 ^ 46 ≤ p ∧ p < 2 ^ 47 then (if Config.hostHas (p / 2 ^ 16) then .host else .none)
  else .none

/-! ## Last-level cache bookkeeping (R353, R354, R177, R178): lines never change a value -/

/-- Lines of a last-level cache, but for the ways that are disabled (R353, R454). -/
def llcCap (di : Die) : Nat := 131072 - di.waysOff * Config.llcWay
/-- A read of the sector that holds p, by a core's partition: hit or fill, the count down. `b` is LDRC's count. -/
def llcRead (s : State) (part : Option Nat) (p b : Nat) : State × Bool × Bool :=
  match physKind s p with
  | .dram d =>
    let di := s.die d
    let ln := p / 512
    let sec := 2 ^ (p / 128 % 4)
    match di.lines.find? (·.line == ln) with
    | some l =>
      let hit := decide (l.valid / sec % 2 = 1)
      let cnt := match l.cnt with | some n => some (min 65535 (n + b) - 1) | none => none
      let rest := di.lines.filter (·.line != ln)
      let l := { l with valid := if hit then l.valid else l.valid + sec, cnt }
      let gone := cnt == some 0
      (s.setDie d { di with lines := if gone then rest else l :: rest }, hit, gone)
    | none =>
      let l : Line := { line := ln, valid := sec, cnt := if b = 0 then none else some (b - 1), owner := part }
      (s.setDie d { di with lines := if b = 1 then di.lines else (l :: di.lines).take (llcCap di) }, false, decide (b = 1))
  | _ => (s, false, false)

/-- A write to bytes p .. p+n-1: the sectors become valid and dirty, a read count goes. -/
def llcWrite (s : State) (part : Option Nat) (p : Nat) : State :=
  match physKind s p with
  | .dram d =>
    let di := s.die d
    let ln := p / 512
    let sec := 2 ^ (p / 128 % 4)
    let old : Line := match di.lines.find? (·.line == ln) with | some l => l | none => { line := ln, owner := part }
    let set := fun (v : Nat) => if v / sec % 2 = 1 then v else v + sec
    let l := { old with valid := set old.valid, dirty := set old.dirty, cnt := none }
    s.setDie d { di with lines := (l :: di.lines.filter (·.line != ln)).take (llcCap di) }
  | _ => s

/-- A range of whole lines is written or read, sector by sector (R353, R354). -/
def llcRange (s : State) (part : Option Nat) (p n : Nat) (write : Bool) : State :=
  match physKind s p with
  | .dram d =>
    let di := s.die d
    let here := fun (l : Line) => decide (p / 512 ≤ l.line ∧ l.line < (p + n) / 512)
    let old := di.lines.filter here
    let touch := fun (l : Line) =>
      if write then some { l with valid := 15, dirty := 15, cnt := none }
      else match l.cnt with
        | none => some { l with valid := 15 }
        | some 4 => none
        | some k => if k < 4 then some { line := l.line, valid := 16 - 2 ^ k, owner := part } else some { l with valid := 15, cnt := some (k - 4) }
    let lines := (List.range (n / 512)).filterMap fun k =>
      touch (match old.find? (·.line == p / 512 + k) with | some l => l | none => { line := p / 512 + k, owner := part })
    s.setDie d { di with lines := (lines.reverse ++ di.lines.filter fun l => !here l).take (llcCap di) }
  | _ => s

/-- CLEAN keeps the line clean, INVAL removes it; PREF fills it (R176, R178). -/
def llcClean (s : State) (p : Nat) : State :=
  match physKind s p with
  | .dram d => s.modDie d fun di => { di with lines := di.lines.map fun l => if l.line = p / 512 then { l with dirty := 0 } else l }
  | _ => s
def llcInval (s : State) (p : Nat) : State :=
  match physKind s p with
  | .dram d => s.modDie d fun di => { di with lines := di.lines.filter (·.line != p / 512) }
  | _ => s
def llcFill (s : State) (part : Option Nat) (p : Nat) : State :=
  match physKind s p with
  | .dram d => s.modDie d fun di =>
      if di.lines.any (·.line == p / 512) then di
      else { di with lines := ({ line := p / 512, valid := 15, owner := part } :: di.lines).take (llcCap di) }
  | _ => s

/-- The line that holds p belongs to the partition of a core, as one that it brings in does. -/
def lineMine (s : State) (c d p : Nat) : Bool :=
  match (s.die d).lines.find? (·.line == p / 512) with | some l => l.owner == corePart s c | none => true
/-- The cache's part of a read of DRAM made for a core, with the events 0x10 to 0x12 on lines that its partition owns (R447).
(DEDUCED, log 32) -/
def llcCoreRead (s : State) (c p b : Nat) : State :=
  match physKind s p with
  | .dram d =>
    let mine := lineMine s c d p
    let (s, hit, gone) := llcRead s (corePart s c) p b
    let s := if mine then countEv s c (if hit then 0x10 else 0x11) 1 else s
    if mine && gone then countEv s c 0x12 1 else s
  | _ => s
/-- The cache's part of a write to DRAM made for a core, with the events 0x10 and 0x11. -/
def llcCoreWrite (s : State) (c p : Nat) : State :=
  match physKind s p with
  | .dram d =>
    let hit := (s.die d).lines.any fun l => l.line == p / 512 && decide (l.valid / 2 ^ (p / 128 % 4) % 2 = 1)
    let s' := llcWrite s (corePart s c) p
    if lineMine s c d p then countEv s' c (if hit then 0x10 else 0x11) 1 else s'
  | _ => s

/-! ## Pewter, poison, physical reads and writes -/

/-- The earliest deadline of the valid pewter entries that cover a die-local offset (R359). -/
def pewDeadline (di : Die) (off : Nat) : Option Nat :=
  di.pew.foldl (fun acc e =>
    let ctl := e.2.ctl.toNat
    if bit ctl 63 ∧ bits ctl 15 0 ≤ off / 2 ^ 21 ∧ off / 2 ^ 21 ≤ bits ctl 15 0 + bits ctl 47 32 then
      match acc with | none => some e.2.dl.toNat | some t => some (min t e.2.dl.toNat)
    else acc) none

/-- A read of n bytes at p issued at a tick is in error: poisoned codeword, or pewter past its deadline (R166, R359). -/
def physErr (s : State) (p n tick : Nat) : Bool :=
  (codewords p n).any (fun w => poisoned s.mem (64 * w)) ||
  match physKind s p with
  | .dram d => [p, p + n - 1].any fun q => match pewDeadline (s.die d) (q % 2 ^ 37) with | some t => decide (t ≤ tick) | none => false
  | _ => false

/-- n bytes at p; where an image was written, whose layout is open, they are free. -/
def physVal (s : State) (p n tick : Nat) : Nat :=
  if s.images.any fun r => decide (r.1 ≤ p ∧ p < r.1 + r.2) then leNat ((List.range n).map fun k => (Config.imageByte (p + k) tick).toNat)
  else memNat s.mem p n
/-- An image is written to a range (R415, R416). -/
def addImage (s : State) (p n : Nat) : State := if s.images.contains (p, n) then s else { s with images := (p, n) :: s.images }
/-- n bytes of physical memory with their error: data in error read as zero (R167, R21). (DEDUCED, log 99) -/
def physRead (s : State) (p n tick : Nat) : Nat × Bool :=
  if physErr s p n tick then (0, true) else (physVal s p n tick, false)

/-- The die whose enabled block store has the private part of its table area at p (R369), with the word's offset. -/
def kvPrivate (s : State) (p : Nat) : Option (Nat × Nat) :=
  (List.find? (fun (e : Nat × Die) =>
    let k := e.2.kvb
    let base := bits k.win.toNat 53 18 * 4096
    let lg := bits k.win.toNat 4 0
    bit k.ctl.toNat 0 && decide (base + 8 * 2 ^ lg ≤ p ∧ p < base + 16 * 2 ^ lg + 4 * 2 ^ 20)) s.dies).map
    fun e => (e.1, (p - bits e.2.kvb.win.toNat 53 18 * 4096) / 8)

/-- The fault log of a die takes a record (R455), and non-volatile storage a copy. Kind, core, class, part code, detail.
Answers the record's index. (DEDUCED, log 26) -/
def logRec (s : State) (d kind core cls part : Nat) (detail : List (BitVec 64)) : State × Nat :=
  let pt := match diePart s d with | some p => p | none => 0
  let w0 := kind % 256 + d * 2 ^ 8 + core % 128 * 2 ^ 13 + pt * 2 ^ 20 + cls * 2 ^ 24 + part * 2 ^ 26
  let words := ([BitVec.ofNat 64 w0, BitVec.ofNat 64 s.tick] ++ detail ++ List.replicate 14 0).take 16
  let n := (s.die d).logN
  let s := s.modDie d fun di => { di with log := di.log.put (n % Config.faultLog) words, logN := n + 1 }
  (s.modPkg fun p => { p with nv := p.nv ++ [(d, words)] }, n % Config.faultLog)

/-- One record into an event ring (R443) whose control register is `evt`. (DEDUCED, log 69) -/
def ringRecord (s : State) (evt : BitVec 64) (w : List Nat) : State :=
  if bit evt.toNat 63 then
    let base := bits evt.toNat 47 7 * 128
    let cap := 2 ^ (bits evt.toNat 51 48 + 6)
    let cnt := memNat s.mem base 8
    let lost := memNat s.mem (base + 8) 8
    let rd := memNat s.mem (base + 16) 8
    if physKind s base != .host then s
    else if (cnt + 2 ^ 64 - rd) % 2 ^ 64 = cap then s.setMem (memPut s.mem (base + 8) (lost + 1) 8)
    else
      let a := base + 128 + 32 * (cnt % cap)
      let m := (List.range 4).foldl (fun m k => memPut m (a + 8 * k) (nthD w k 0) 8) s.mem
      s.setMem (memPut m base (cnt + 1) 8)
  else s

def eventWords (s : State) (kind d core part idx w3 : Nat) : List Nat :=
  [kind + d * 2 ^ 8 + core % 128 * 2 ^ 13 + part * 2 ^ 20, s.tick, idx, w3]
/-- No fault log record holds the detail of the event. -/
def noIdx : Nat := 2 ^ 64 - 1

/-- A die event goes to the ring of the partition that runs there (R443). -/
def dieEvent (s : State) (d core kind w3 idx : Nat) : State :=
  match diePart s d with
  | some p => ringRecord s (partReg s p).evt (eventWords s kind d core p idx w3)
  | none => s
/-- An event of the whole package goes to every partition's ring and to the package's. -/
def pkgEvent (s : State) (kind d w3 : Nat) : State :=
  let s := (List.range 16).foldl (fun s p => ringRecord s (partReg s p).evt (eventWords s kind d 0 p noIdx w3)) s
  ringRecord s s.pkg.evt (eventWords s kind d 0 0 noIdx w3)
/-- A record of class LASTING for a part of Table 21.8, with its event (R455, Table 21.3). -/
def lastingRec (s : State) (d core part : Nat) (detail : List (BitVec 64)) : State :=
  let (s, i) := logRec s d 0x06 core 1 part detail
  dieEvent s d core 0x06 part i

/-- A write of a word of the private part of a store's table area damages the sequences of that word (R369). -/
def kvDamageWord (s : State) (p : Nat) : State :=
  match kvPrivate s p with
  | some (d, w) =>
    let seqs := Config.privateOwner w
    let s := s.modDie d fun di => { di with kvb := { di.kvb with damaged := seqs ++ di.kvb.damaged } }
    seqs.foldl (fun s q =>
      let (s, i) := logRec s d 0x09 0 3 0 [BitVec.ofNat 64 q]
      dieEvent s d 0 0x09 q i) s
  | none => s

/-- A write of n bytes, word by word. -/
def kvDamage (s : State) (p n : Nat) : State :=
  (List.range ((p + n - 1) / 8 + 1 - p / 8)).foldl (fun s k => kvDamageWord s (8 * (p / 8 + k))) s

/-- A place that a lasting fault keeps in error (R454): a commons word, a codeword. -/
def keepError (s : State) (key : Nat) : State :=
  if keyCommons key then (if keyX s.mem key then s else s.setMem (putWord s.mem key ⟨0, keyF s.mem key, true⟩))
  else s.setMem (setPoison s.mem key true)
/-- A lasting fault of a part of a die's memory: without a spare its word stays in error, its codeword poisoned (Table 21.8). -/
def lastingError (s : State) (d key : Nat) (spare : Bool) : State :=
  (keepError s key).modDie d fun di => { di with dead := if spare then di.dead else key :: di.dead }

/-- n bytes written at physical address p (R167): data with X write zero and poison; a write that covers whole codewords
without X clears their poison. -/
def physWrite (s : State) (p v n : Nat) (x : Bool) : State :=
  let s := kvDamage s p n
  let m := memPut s.mem p (if x then 0 else v) n
  let m := if x then poisonRange m p n true
           else (codewords p n).foldl (fun m w => if p ≤ 64 * w ∧ 64 * w + 64 ≤ p + n then setPoison m (64 * w) false else m) m
  s.setMem m

end Sys2Proof.Machine
end

