-- ==== Sys2Proof/Machine/Num.lean ====
section
/-! DEFINITION. Numbers (chapter 2): exact dyadic values, rounding to nearest even, the float formats, the exact
results of the F32 operations, the ACC48 cell and the alignment of a group. -/

namespace Sys2Proof.Num

/-! ## Integers of a width -/

/-- wrap(x, n) of R20: the natural below 2^n congruent to x. -/
def wrap (x : Int) (n : Nat) : Nat := (x % (2 ^ n : Int)).toNat
/-- as_s(v, n): the n-bit pattern v read as two's complement. -/
def asS (v n : Nat) : Int := if v % 2 ^ n < 2 ^ n / 2 then (v % 2 ^ n : Nat) else ((v % 2 ^ n : Nat) : Int) - (2 ^ n : Nat)
/-- sat_s and sat_n with the flag that says whether they clipped. -/
def satS (x : Int) (n : Nat) : Int × Bool :=
  if x < -(2 ^ (n - 1) : Nat) then (-(2 ^ (n - 1) : Nat), true)
  else if x > (2 ^ (n - 1) : Nat) - 1 then ((2 ^ (n - 1) : Nat) - 1, true) else (x, false)
def satN (x : Int) (n : Nat) : Int × Bool :=
  if x < 0 then (0, true) else if x > (2 ^ n : Nat) - 1 then ((2 ^ n : Nat) - 1, true) else (x, false)

/-- rne(x, k): the nearest integer to x / 2^k, ties to even. -/
def rne (x k : Nat) : Nat :=
  let q := x / 2 ^ k
  let r := 2 * (x % 2 ^ k)
  if r > 2 ^ k then q + 1 else if r = 2 ^ k then q + q % 2 else q

/-- The nearest integer to m × 2^e, ties to even. -/
def rneAt (m : Nat) (e : Int) : Nat := if 0 ≤ e then m * 2 ^ e.toNat else rne m (-e).toNat

/-- rne with a sign: nearest even is symmetric. -/
def rneInt (x : Int) (k : Nat) : Int := if x < 0 then -(rne x.natAbs k : Int) else rne x.natAbs k

/-- floor of the square root, bit by bit from bit `i`. -/
def isqrtFrom (n : Nat) : Nat → Nat → Nat
  | 0, acc => if (acc + 1) * (acc + 1) ≤ n then acc + 1 else acc
  | i + 1, acc =>
      let t := acc + 2 ^ (i + 1)
      isqrtFrom n i (if t * t ≤ n then t else acc)
def isqrt (n : Nat) : Nat := isqrtFrom n (Nat.log2 n / 2 + 1) 0

/-! ## Finite float values and formats (R26 to R28, Table 2.2) -/

/-- A finite value (−1)^neg × m × 2^e; m = 0 is a signed zero. -/
structure Fl where
  neg : Bool
  m : Nat
  e : Int
deriving DecidableEq, Repr

/-- A float format: mantissa and exponent widths, bias, and the largest finite code's exponent and mantissa fields. -/
structure Fmt where
  mw : Nat
  ew : Nat
  bias : Nat
  maxE : Nat
  maxM : Nat
deriving DecidableEq, Repr

def f32 : Fmt := ⟨23, 8, 127, 254, 2 ^ 23 - 1⟩
def bf16 : Fmt := ⟨7, 8, 127, 254, 127⟩
def e5m2 : Fmt := ⟨2, 5, 15, 30, 3⟩
def e4m3 : Fmt := ⟨3, 4, 7, 15, 6⟩
def e2m1 : Fmt := ⟨1, 2, 1, 3, 1⟩

/-- A pattern's value (R26), none for a code read as error. -/
def Fmt.read (f : Fmt) (b : Nat) : Option Fl :=
  let ma := b % 2 ^ f.mw
  let ex := b / 2 ^ f.mw % 2 ^ f.ew
  let neg := decide (b / 2 ^ (f.mw + f.ew) % 2 = 1)
  if ex > f.maxE ∨ (ex = f.maxE ∧ ma > f.maxM) then none
  else if ex = 0 then some ⟨neg, ma, 1 - (f.bias : Int) - f.mw⟩
  else some ⟨neg, 2 ^ f.mw + ma, (ex : Int) - f.bias - f.mw⟩

/-- R28 and R24: round to the format, nearest even, gradual underflow, overflow to the largest finite value; the flag
says that SAT is set. -/
def Fmt.write (f : Fmt) (x : Fl) : Nat × Bool :=
  let s := if x.neg then 2 ^ (f.mw + f.ew) else 0
  if x.m = 0 then (s, false) else
  let q := max ((Nat.log2 x.m : Int) + x.e) (1 - (f.bias : Int)) - f.mw
  let mag := rneAt x.m (x.e - q)
  let (mag, q) := if mag = 2 ^ (f.mw + 1) then (2 ^ f.mw, q + 1) else (mag, q)
  if mag < 2 ^ f.mw then (s + mag, false)
  else
    let ex := q + f.mw + f.bias
    let ma := mag - 2 ^ f.mw
    if ex > f.maxE ∨ (ex = f.maxE ∧ ma > f.maxM) then (s + f.maxE * 2 ^ f.mw + f.maxM, true)
    else (s + ex.toNat * 2 ^ f.mw + ma, false)

/-- The integer m × 2^(e − k) for a common exponent k at or below e, with its sign. -/
def Fl.at (x : Fl) (k : Int) : Int := (if x.neg then -1 else 1) * (x.m * 2 ^ (x.e - k).toNat : Nat)

/-- Signed comparison of finite values; −0 equals +0 (R26). -/
def Fl.cmp (a b : Fl) : Ordering := let k := min a.e b.e; compare (a.at k) (b.at k)
def Fl.lt (a b : Fl) : Bool := a.cmp b == .lt
def Fl.abs (a : Fl) : Fl := { a with neg := false }

def Fl.ofInt (x : Int) : Fl := ⟨decide (x < 0), x.natAbs, 0⟩
/-- x × 2^k. -/
def Fl.scale (x : Fl) (k : Int) : Fl := { x with e := x.e + k }

/-- Exact sum with the zero signs of R146. -/
def Fl.add (a b : Fl) : Fl :=
  let k := min a.e b.e
  let s := a.at k + b.at k
  if s = 0 then ⟨a.neg && b.neg && a.m == 0 && b.m == 0, 0, 0⟩ else ⟨decide (s < 0), s.natAbs, k⟩
def Fl.mul (a b : Fl) : Fl := ⟨a.neg != b.neg, a.m * b.m, a.e + b.e⟩
def Fl.negate (a : Fl) : Fl := { a with neg := !a.neg }

/-- A value known to lie strictly between m and m + 1 units (`inexact`) or at m exactly: the odd half keeps every
later rounding right while m has more bits than the format. -/
def sticky (neg : Bool) (m : Nat) (e : Int) (inexact : Bool) : Fl := ⟨neg, 2 * m + bnat inexact, e - 1⟩

/-- a / b for b ≠ 0, to 60 or more significant bits and a sticky bit. -/
def Fl.div (a b : Fl) : Fl :=
  let k := 64 + Nat.log2 b.m
  let n := a.m * 2 ^ k
  if a.m = 0 then ⟨a.neg != b.neg, 0, 0⟩
  else sticky (a.neg != b.neg) (n / b.m) (a.e - b.e - k) (n % b.m != 0)

/-- The square root of a non-negative value. -/
def Fl.sqrt (a : Fl) : Fl :=
  if a.m = 0 then a else
  let odd := a.e % 2 == 1
  let n := a.m * 2 ^ (if odd then 101 else 100)
  let e := (if odd then a.e - 1 else a.e) / 2 - 50
  let r := isqrt n
  sticky false r e (r * r != n)

/-- 1 / √a for a > 0: the root of floor(2^k / m), exact when r² × m = 2^k. -/
def Fl.rsqrt (a : Fl) : Fl :=
  let odd := a.e % 2 == 1
  let m := if odd then a.m * 2 else a.m
  let e := if odd then a.e - 1 else a.e
  let k := 100 + 2 * (Nat.log2 m + 1)
  let r := isqrt (2 ^ k / m)
  sticky false r (-(e / 2) - (k / 2 : Nat)) (r * r * m != 2 ^ k)

/-- Working precision of 2^a and log2 in bits. -/
def prec : Nat := 256

/-- 2^f for f = n / 2^bits in [0, 1), as a floor at `prec` fraction bits: the product of the roots 2^(2^-i) that f's
bits name. `r` is the current root, `acc` the product. -/
def exp2Frac (n : Nat) : Nat → Nat → Nat → Nat
  | 0, _, acc => acc
  | i + 1, r, acc =>
      let r' := isqrt (r * 2 ^ prec)
      exp2Frac n i r' (if n / 2 ^ i % 2 = 1 then acc * r' / 2 ^ prec else acc)

/-- 2^a. A magnitude beyond 512 lies beyond every format's range and is cut there. (DEDUCED, log 90) -/
def Fl.exp2 (a : Fl) : Fl :=
  if a.m = 0 then ⟨false, 1, 0⟩
  else if (Nat.log2 a.m : Int) + a.e ≥ 9 then (if a.neg then ⟨false, 1, -512⟩ else ⟨false, 1, 512⟩)
  else if (Nat.log2 a.m : Int) + a.e < -60 then sticky false (2 ^ 60 - bnat a.neg) (-60) true
  else
    let k := (max 0 (-a.e)).toNat
    let v := a.at (-(k : Int))
    let ip := v / (2 ^ k : Nat)
    let fr := (v % (2 ^ k : Nat)).toNat
    let p := exp2Frac fr k (2 * 2 ^ prec) (2 ^ prec)
    if fr = 0 then ⟨false, 1, ip⟩ else sticky false p (ip - prec) true

/-- The next fraction bits of log2 of y / 2^prec in [1, 2): square, and shift when the square reaches 2. -/
def log2Frac : Nat → Nat → Nat → Nat
  | 0, _, acc => acc
  | i + 1, y, acc =>
      let z := y * y / 2 ^ prec
      if z ≥ 2 * 2 ^ prec then log2Frac i (z / 2) (2 * acc + 1) else log2Frac i z (2 * acc)

/-- log2 of a value above 0, to 100 fraction bits and a sticky bit. -/
def Fl.log2 (a : Fl) : Fl :=
  let l := Nat.log2 a.m
  let ex := (l : Int) + a.e
  if a.m = 2 ^ l then Fl.ofInt ex
  else
    let y := a.m * 2 ^ (prec + 8) / 2 ^ l / 2 ^ 8
    let n := ex * 2 ^ 100 + log2Frac 100 y 0
    if n < 0 then sticky true (n + 1).natAbs (-100) true else sticky false n.natAbs (-100) true

/-- What an F32 operation gives: a pattern with the SAT flag, an invalid operation (INV), or an operand pattern that
is read as an error (PCODE). -/
inductive FRes where
  | num (bits : Nat) (sat : Bool)
  | inv
  | pcode
deriving DecidableEq, Repr

def toF32 (x : Fl) : FRes := let (b, s) := f32.write x; .num b s
def f32Bin (k : Fl → Fl → FRes) (a b : Nat) : FRes :=
  match f32.read (a % 2 ^ 32), f32.read (b % 2 ^ 32) with
  | some x, some y => k x y
  | _, _ => .pcode
def f32Un (k : Fl → FRes) (a : Nat) : FRes :=
  match f32.read (a % 2 ^ 32) with
  | some x => k x
  | none => .pcode

/-! ### The F32 operations of Table 6.2 on patterns -/

def fadd := f32Bin fun a b => toF32 (a.add b)
def fsub := f32Bin fun a b => toF32 (a.add b.negate)
def fmul := f32Bin fun a b => toF32 (a.mul b)
def fdiv := f32Bin fun a b => if b.m = 0 then .inv else toF32 (a.div b)
/-- The smaller; of +0 and −0 the −0 (R146). -/
def minFl (a b : Fl) : Fl := match a.cmp b with | .lt => a | .gt => b | .eq => if a.neg then a else b
/-- The larger; of +0 and −0 the +0. -/
def maxFl (a b : Fl) : Fl := match a.cmp b with | .gt => a | .lt => b | .eq => if a.neg then b else a
def fmin := f32Bin fun a b => toF32 (minFl a b)
def fmax := f32Bin fun a b => toF32 (maxFl a b)
def feq := f32Bin fun a b => .num (bnat (a.cmp b == .eq)) false
def flt := f32Bin fun a b => .num (bnat (a.cmp b == .lt)) false
def fle := f32Bin fun a b => .num (bnat (a.cmp b != .gt)) false
def fsqrt := f32Un fun a => if a.neg && a.m != 0 then .inv else toF32 a.sqrt
def fabs := f32Un fun a => toF32 a.abs
def fneg := f32Un fun a => toF32 a.negate
def fexp2 := f32Un fun a => toF32 a.exp2
def flog2 := f32Un fun a => if a.m = 0 ∨ a.neg then .inv else toF32 a.log2
def frcp := f32Un fun a => if a.m = 0 then .inv else toF32 (Fl.div ⟨false, 1, 0⟩ a)
def frsq := f32Un fun a => if a.m = 0 ∨ a.neg then .inv else toF32 a.rsqrt
/-- a × b + c rounded once (R147). -/
def fma (a b c : Nat) : FRes :=
  match f32.read (a % 2 ^ 32), f32.read (b % 2 ^ 32), f32.read (c % 2 ^ 32) with
  | some x, some y, some z => toF32 ((x.mul y).add z)
  | _, _, _ => .pcode

/-! ## ACC48 (R50 to R53) -/

/-- A cell: significand, exponent, error flag. -/
structure Acc where
  m : Int := 0
  x : Int := 0
  err : Bool := false
deriving DecidableEq, Repr, Inhabited

/-- The cell for the exact sum s × 2^k, with ACC_SAT and ACC_FLUSH (R51). -/
def Acc.norm (err : Bool) (s : Int) (k : Int) : Acc × Bool × Bool :=
  if s = 0 then (⟨0, 0, err⟩, false, false)
  else
    let x := (Nat.log2 s.natAbs : Int) + k - 46
    let mag := rneAt s.natAbs (k - x)
    let (mag, x) := if mag = 2 ^ 47 then (2 ^ 46, x + 1) else (mag, x)
    let sg := fun (n : Nat) => if s < 0 then -(n : Int) else (n : Int)
    if x > 511 then (⟨sg (2 ^ 47 - 1), 511, err⟩, true, false)
    else if x < -512 then (⟨0, 0, err⟩, false, true)
    else (⟨sg mag, x, err⟩, false, false)

/-- c + q × 2^e rounded into the cell. -/
def Acc.add (c : Acc) (q : Int) (e : Int) : Acc × Bool × Bool :=
  let k := min c.x e
  Acc.norm c.err (c.m * (2 ^ (c.x - k).toNat : Nat) + q * (2 ^ (e - k).toNat : Nat)) k

/-- The exact value of a cell times 2^f (R265). -/
def Acc.value (c : Acc) (f : Int) : Fl := ⟨decide (c.m < 0), c.m.natAbs, c.x + f⟩

/-! ## Aligning a group (R41) -/

/-- An aligned group: its exponent, the magnitude and sign of each element (none in error), whether SAT is set. -/
structure Aligned where
  e : Int
  els : List (Option (Bool × Nat))
  nsat : Nat
deriving DecidableEq, Repr

/-- Align the values of a group (none is an error element) into `w` magnitude bits. -/
def align (vs : List (Option Fl)) (w : Nat) : Aligned :=
  let mx := vs.foldl (fun (a : Fl) v => match v with | some x => if a.lt x.abs then x.abs else a | none => a) ⟨false, 0, 0⟩
  let e0 : Int := if mx.m = 0 then 0 else (Nat.log2 mx.m : Int) + mx.e - ((w : Int) - 1)
  let e := max (-128) (min 127 e0)
  let els := vs.map fun v => v.map fun x => (x.neg, rneAt x.m (x.e - e))
  { e, els := els.map fun v => v.map fun p => (p.1, min p.2 (2 ^ w - 1)),
    nsat := (els.filter fun v => match v with | some p => decide (p.2 > 2 ^ w - 1) | none => false).length }

/-- floor(log2 |x|) for x ≠ 0. -/
def Fl.flog2 (x : Fl) : Int := (Nat.log2 x.m : Int) + x.e
/-- ceil(log2 |x|) for x ≠ 0. -/
def Fl.clog2 (x : Fl) : Int := if x.m = 2 ^ Nat.log2 x.m then x.flog2 else x.flog2 + 1
/-- The nearest integer to a value, ties to even. -/
def Fl.round (x : Fl) : Int := let r := rneAt x.m x.e; if x.neg then -(r : Int) else r

/-! ## Bits of integers -/

def clz (p n : Nat) : Nat := if p = 0 then n else n - 1 - Nat.log2 p
/-- The number of trailing zero bits of p < 2^n; n when p is zero. -/
def ctz (p : Nat) : Nat → Nat
  | 0 => 0
  | n + 1 => if p % 2 = 1 then 0 else 1 + ctz (p / 2) n
def popc (p : Nat) : Nat → Nat
  | 0 => 0
  | n + 1 => p % 2 + popc (p / 2) n
/-- The low `n` bytes of p in reverse order. -/
def bswap (p : Nat) : Nat → Nat
  | 0 => 0
  | n + 1 => p % 256 * 256 ^ n + bswap (p / 256) n

/-- fmix32 of R16. -/
def fmix32 (h : Nat) : Nat :=
  let h := h ^^^ (h / 2 ^ 16)
  let h := h * 0x85EBCA6B % 2 ^ 32
  let h := h ^^^ (h / 2 ^ 13)
  let h := h * 0xC2B2AE35 % 2 ^ 32
  h ^^^ (h / 2 ^ 16)

end Sys2Proof.Num
end

