-- ==== Sys2Proof/Machine/Flags.lean ====
section
/-! DEFINITION. The sticky status bits of ASTAT (R25) and where they are set. -/

namespace Sys2Proof.Machine

/-- ASTAT bits (R25). -/
def flSat : Nat := 1
def flIsat : Nat := 2
def flAccSat : Nat := 4
def flAccFlush : Nat := 8
def flInv : Nat := 16
def flCvt : Nat := 32
def flPcode : Nat := 64

/-- The union of two sets of status bits. -/
def orFlags (a b : Nat) : Nat := a ||| b
/-- Status bits that one element's F32 result sets (R24, R27, R145). -/
def fresFlags : Num.FRes → Nat
  | .num _ sat => if sat then flSat else 0
  | .inv => flInv
  | .pcode => flPcode
/-- The result value: an error token when the operation is invalid or an operand is in error. -/
def fresVal : Num.FRes → Val
  | .num b _ => Val.ofNat b
  | _ => Val.err

/-- A core's ASTAT takes status bits. -/
def setAstat (s : State) (c fl : Nat) : State :=
  if fl = 0 then s else s.modCore c fun co => { co with astat := co.astat ||| BitVec.ofNat 64 fl }

end Sys2Proof.Machine
end

