-- ==== Sys2Proof/Machine/Addr.lean ====
section
/-! DEFINITION. Translation (R361 to R365), the address checks of R162 and R163, the block store's slots. -/

namespace Sys2Proof.Machine

/-! ## The walk -/

/-- REASON codes of Table 7.3. -/
def rsReserved : Nat := 0x01
def rsAbsent : Nat := 0x02
def rsNoXlate : Nat := 0x10
def rsWalkErr : Nat := 0x11
def rsNoWrite : Nat := 0x20
def rsOutside : Nat := 0x21
def rsScope : Nat := 0x22
def rsHandler : Nat := 0x23
def rsFrame : Nat := 0x30

/-- Virtual address bits below a leaf of a level (Table 16.3). -/
def levelShift : Nat → Nat | 0 => 39 | 1 => 30 | 2 => 21 | _ => 16
/-- The index into a level's table. -/
def levelIndex (l va : Nat) : Nat := va / 2 ^ levelShift l % (if l = 3 then 32 else 512)

/-- A malformed entry of a level (R362). -/
def pteBad (l e : Nat) : Bool :=
  bits e 63 48 != 0 || bits e 7 3 != 0 || (bits e 11 8 != 0 && !(l == 2 && !bit e 1))
    || (l == 0 && bit e 1) || (l == 3 && !bit e 1) || (bit e 1 && decide (bits e 47 12 * 4096 % 2 ^ levelShift l ≠ 0))

/-- The walk from a level's table, at most `fuel` levels: a translation or a REASON. Entries are read at a tick. -/
def walkFrom (s : State) (part va tick : Nat) : Nat → Nat → Nat → Except Nat Tlb
  | 0, _, _ => .error rsNoXlate
  | fuel + 1, l, table =>
    let pa := table + 8 * levelIndex l va
    match physKind s pa with
    | .reg _ _ => .error rsNoXlate
    | .none => .error rsNoXlate
    | _ =>
      let (e, bad) := physRead s pa 8 tick
      if bad then .error rsWalkErr
      else if !bit e 0 || pteBad l e then .error rsNoXlate
      else if bit e 1 then
        .ok { part, va := va / 2 ^ levelShift l * 2 ^ levelShift l, size := 2 ^ levelShift l,
              pa := bits e 47 12 * 4096, w := bit e 2, pte := pa }
      else walkFrom s part va tick fuel (l + 1) (bits e 47 12 * 4096 + (if l = 2 then bits e 11 8 * 256 else 0))

/-- The physical addresses that the walk reads, in order: they pass through the cache of their home (R353, R363). -/
def walkReads (s : State) (va tick : Nat) : Nat → Nat → Nat → List Nat
  | 0, _, _ => []
  | fuel + 1, l, table =>
    let pa := table + 8 * levelIndex l va
    match physKind s pa with
    | .reg _ _ => []
    | .none => []
    | _ =>
      let (e, bad) := physRead s pa 8 tick
      if bad || !bit e 0 || pteBad l e || bit e 1 then [pa]
      else pa :: walkReads s va tick fuel (l + 1) (bits e 47 12 * 4096 + (if l = 2 then bits e 11 8 * 256 else 0))

/-- A partition's root, none without a partition. -/
def rootOf (s : State) (part : Option Nat) : BitVec 64 := match part with | some p => (partReg s p).root | none => 0
/-- The walk of a partition's tables for a virtual address (R361) from a root: no translation without a partition, and none
to an address that names no memory (R346). -/
def walkRoot (s : State) (part : Option Nat) (root : BitVec 64) (va : Nat) : Except Nat Tlb :=
  match part with
  | none => .error rsNoXlate
  | some p => do
    let t ← walkFrom s p va s.tick 4 0 (bits root.toNat 47 12 * 4096)
    if physKind s (t.pa + (va - t.va)) = .none then .error rsNoXlate else .ok t
def walk (s : State) (part : Option Nat) (va : Nat) : Except Nat Tlb := walkRoot s part (rootOf s part) va
/-- The walk's reads hit or fill the cache (R353, R354). -/
def walkCache (s : State) (part : Option Nat) (root : BitVec 64) (va : Nat) : State :=
  if part.isNone then s
  else (walkReads s va s.tick 4 0 (bits root.toNat 47 12 * 4096)).foldl (fun s pa => (llcRead s part pa 0).1) s

/-! ## TLBs (R341, R190) -/

def Tlb.covers (t : Tlb) (part va : Nat) : Bool := t.part == part && decide (t.va ≤ va ∧ va < t.va + t.size)
def Tlb.phys (t : Tlb) (va : Nat) : Nat := t.pa + (va - t.va)
def quadOf (c : Nat) : Nat := c / 4

/-- The translation that a core's or its quad's TLB holds. -/
def tlbFind (s : State) (c va : Nat) : Option Tlb :=
  match corePart s c with
  | none => none
  | some p =>
    match (s.core c).tlb.find? (·.covers p va) with
    | some t => some t
    | none => ((s.die (coreDie c)).qtlb.get (quadOf c) []).find? (·.covers p va)

def tlbInsert (t : Tlb) (l : List Tlb) (n : Nat) : List Tlb := (t :: l.filter (· != t)).take n
/-- A translation enters a core's TLB. -/
def tlbCore (s : State) (c : Nat) (t : Tlb) : State :=
  s.modCore c fun co => if co.tlb.contains t then co else { co with tlb := tlbInsert t co.tlb Config.coreTlb }
/-- A walk's result enters the core's and the quad's TLB (R364). -/
def tlbBoth (s : State) (c : Nat) (t : Tlb) : State :=
  (tlbCore s c t).modDie (coreDie c) fun di =>
    { di with qtlb := di.qtlb.put (quadOf c) (tlbInsert t (di.qtlb.get (quadOf c) []) Config.quadTlb) }

/-- Every translation that covers an address goes from the TLBs of a scope around a core: at CORE scope from its own and
its quad's (R341). `part` none means every partition's. (DEDUCED, log 92) -/
def tlbInv (s : State) (scope : Scope) (c : Nat) (part : Option Nat) (va : Nat) : State :=
  let hit := fun (t : Tlb) => decide (t.va ≤ va ∧ va < t.va + t.size) && (match part with | some p => t.part == p | none => true)
  let inCore := fun (k : Nat) => match scope with
    | .core => k == c | .quad => quadOf k == quadOf c | .die => coreDie k == coreDie c | _ => true
  let inQuad := fun (q : Nat) => match scope with
    | .core => q == quadOf c | .quad => q == quadOf c | .die => q / 32 == coreDie c | _ => true
  let drop := fun (q : Nat × List Tlb) => if inQuad q.1 then (q.1, q.2.filter fun t => !hit t) else q
  { s with
    cores := s.cores.map fun e => if inCore e.1 then (e.1, { e.2 with
        tlb := e.2.tlb.filter fun t => !hit t
        xl := e.2.xl.filter fun x => match x.res with | some t => !hit t | none => true }) else e
    dies := s.dies.map fun e => (e.1, { e.2 with qtlb := e.2.qtlb.map drop }) }

/-! ## Slots of a block store (R369, R371) -/

/-- The slot of a window address of a store. -/
def windowSlot (k : Kvb) (va : Nat) : Nat := (va - bits k.win.toNat 63 54 * 2 ^ 38) / 65536
/-- The slot that a translated access goes through: its address lies in the window of an enabled store, and its leaf is the
entry of that slot. -/
def kvSlotOf (s : State) (t : Tlb) (va : Nat) : Option (Nat × Nat) :=
  (List.find? (fun (e : Nat × Die) =>
    let k := e.2.kvb
    bit k.ctl.toNat 0 && t.size == 65536 && decide (bits k.win.toNat 63 54 * 2 ^ 38 ≤ va ∧ windowSlot k va < 2 ^ bits k.win.toNat 4 0)
      && t.pte == bits k.win.toNat 53 18 * 4096 + 8 * windowSlot k va) s.dies).map
    fun e => (e.1, windowSlot e.2.kvb va)

/-- The physical address of a block of a die's pool. -/
def kvBlockPa (di : Die) (d b : Nat) : Nat := d * 2 ^ 37 + (bits di.kvb.pool.toNat 20 0 + b) * 65536

/-! ## Checking an address -/

/-- What the checks of R162 say: a place, a trap (cause and REASON), or that a walk is needed. -/
inductive Chk where
  | ok (l : Loc) (t : Option Tlb)
  | trap (cause reason : Nat)
  | miss
deriving DecidableEq, Repr

/-- What is asked of an address: who asks, the space, the access size for alignment (1 for none), whether it writes,
whether frame areas are closed to it, whether it is a GLOBAL access that a die register page refuses, the scope of an
atomic. -/
structure Ask where
  core : Nat
  space : Space
  size : Nat
  write : Bool
  frame : Bool := false
  noReg : Bool := false
  scope : Option Scope := none
deriving DecidableEq, Repr

/-- Does a home lie in an atomic's scope around the issuing core (R183)? -/
def inScope (scope : Scope) (c : Nat) (home : Option (Nat ⊕ Nat)) : Bool :=
  match scope, home with
  | .core, some (.inl h) => h == c
  | .core, _ => false
  | .quad, some (.inl h) => quadOf h == quadOf c
  | .quad, _ => false
  | .die, some (.inl h) => coreDie h == coreDie c
  | .die, some (.inr d) => d == coreDie c
  | .die, none => false
  | _, _ => true

/-- Page and partition, then the scope (check 5 of R162). -/
def protOk (scope : Option Scope) (c : Nat) (home : Option (Nat ⊕ Nat)) : Bool :=
  match scope with | some sc => inScope sc c home | none => true

/-- The partition that a core issues in lists a die. -/
def inPart (s : State) (c d : Nat) : Bool :=
  match corePart s c with | some p => partLists s p d | none => false

/-- The checks of R162 from BAD_ADDR to FRAME_PROT, in order. Trap causes: 0x22 BAD_ADDR, 0x03 ALIGN, 0x0B XLATE,
0x0C PROT, 0x0A FRAME_PROT. (DEDUCED, log 17) -/
def checkAddr (s : State) (q : Ask) (addr : Nat) : Chk :=
  match q.space with
  | .loc =>
    let d := bits addr 31 27
    let h := coreId d (bits addr 26 20)
    let off := addr % 2 ^ 20
    if addr ≥ 2 ^ 32 then .trap 0x22 rsReserved
    else if !corePresent s h then .trap 0x22 rsAbsent
    else if off % q.size ≠ 0 then .trap 0x03 0
    else if !inPart s q.core d then .trap 0x0C rsOutside
    else if !protOk q.scope q.core (some (.inl h)) then .trap 0x0C rsScope
    else if q.frame ∧ bits (s.core q.core).frameBase.toNat 16 0 ≤ off / 8 then .trap 0x0A rsFrame
    else .ok { space := .loc, key := localKey h off, va := addr } none
  | .commons =>
    let d := bits addr 31 27
    let off := addr % 2 ^ 27
    if addr ≥ 2 ^ 32 then .trap 0x22 rsReserved
    else if !diePresent s d then .trap 0x22 rsAbsent
    else if off % q.size ≠ 0 then .trap 0x03 0
    else if !ownsAlone s (corePart s q.core) d ∨ (d = 0 ∧ off ≥ 0x7FFE000) then .trap 0x0C rsOutside
    else if !protOk q.scope q.core (some (.inr d)) then .trap 0x0C rsScope
    else .ok { space := .commons, key := commonsKey d off, va := addr } none
  | .global =>
    if addr ≥ 2 ^ 48 then .trap 0x22 rsReserved
    else if addr % q.size ≠ 0 then .trap 0x03 0
    else match corePart s q.core with
      | none => .trap 0x0B rsNoXlate
      | some _ =>
        match tlbFind s q.core addr with
        | none => .miss
        | some t =>
          let p := t.phys addr
          match physKind s p with
          | .none => .trap 0x0B rsNoXlate
          | k =>
            let home : Option (Nat ⊕ Nat) := match k with | .dram d => some (.inr d) | .reg d _ => some (.inr d) | _ => none
            let isReg : Bool := match k with | .reg _ _ => true | _ => false
            if q.write && !t.w then .trap 0x0C rsNoWrite
            else if q.noReg && isReg then .trap 0x0C rsNoWrite
            else if !protOk q.scope q.core home then .trap 0x0C rsScope
            else .ok { space := .global, key := p, va := addr, slot := kvSlotOf s t addr } (some t)

/-- Word 5 of a memory trap record (Table 7.3). -/
def word5 (opnd reason : Nat) (write : Bool) (space : Space) : Nat :=
  opnd * 2 ^ 16 + reason * 2 ^ 8 + 4 * bnat write + space.code

/-- A checked access that went through a TLB entry leaves the entry in the core's TLB (R341). -/
def noteTlb (s : State) (c : Nat) : Option Tlb → State
  | some t => tlbCore s c t
  | none => s

/-- A miss joins a walk for its partition and granule, or starts one, or waits while 64 run (R364). -/
def startWalk (s : State) (c va : Nat) (r : WalkReq) : State :=
  let d := coreDie c
  let part := corePart s c
  s.modDie d fun di =>
    let join := fun (w : Walk) => w.part == part && w.gran == va / 65536
    let add := fun (w : Walk) => if join w then { w with reqs := w.reqs ++ [r] } else w
    if di.walks.any join then { di with walks := di.walks.map add }
    else if di.walkQ.any join then { di with walkQ := di.walkQ.map add }
    else if di.walks.length < 64 then { di with walks := di.walks ++ [⟨part, va / 65536, [r], rootOf s part⟩] }
    else { di with walkQ := di.walkQ ++ [{ part, gran := va / 65536, reqs := [r] }] }

/-- Some walk brings its result to a pod command of a core. -/
def podAwaits (s : State) (c : Nat) (key : PodKey) : Bool :=
  let l := (s.die (coreDie c)).walks ++ (s.die (coreDie c)).walkQ
  l.any fun w => w.reqs.any fun q => match q with | .pod c' k _ => c' == c && k == key | _ => false

/-- The place of a virtual address that a partition's tables translate, or the REASON of its fault. -/
def xlateNow (s : State) (part : Option Nat) (va : Nat) (write : Bool) : Except Nat Loc := do
  let t ← walk s part va
  if write && !t.w then .error rsNoWrite else .ok { space := .global, key := t.phys va, va, slot := kvSlotOf s t va }
/-- A walk made at once and kept in no TLB, for an access that a die or a package makes for itself (the trace, checkpoint records,
requests of the pod at their home): it reads the tables through the cache (R363). (DEDUCED, log 125) -/
def xlateAt (s : State) (part : Option Nat) (va : Nat) (write : Bool) : State × Except Nat Loc :=
  (walkCache s part (rootOf s part) va, xlateNow s part va write)

end Sys2Proof.Machine
end

