-- ==== Sys2Proof/Machine/Slots.lean ====
section
/-! DEFINITION. The slots of a block store: where an access through one goes, copy-on-write, the line of what waits there
(R369 to R372). -/

namespace Sys2Proof.Machine

/-- Free blocks of a store's pool. -/
def kvFree (k : Kvb) : Nat := bits k.pool.toNat 52 32 - k.refs.length
/-- Bytes moved from one range of keys to another. -/
def memMove (m : List Host.Cell) (src dst n : Nat) : List Host.Cell :=
  let from_ := m.filter fun c => decide (src ≤ c.1 ∧ c.1 < src + n)
  let rest := m.filter fun c => !decide (dst ≤ c.1 ∧ c.1 < dst + n)
  from_.foldl (fun m c => memSet m (c.1 - src + dst) c.2) rest

def kvBlockOf (k : Kvb) (slot : Nat) : Option Nat := (k.slots.find? (·.1 == slot)).map (·.2)
/-- A choice among several, which the manual leaves open: a draw. -/
def choose {α : Type} (s : State) (l : List α) : Option (State × α) :=
  match nth? l (Config.pick s.draws % l.length) with
  | some a => some ({ s with draws := s.draws + 1 }, a)
  | none => none
/-- A free block of a pool: which one is open (R370). (DESIGN CHOICE, log 63) -/
def kvFreeBlock (s : State) (k : Kvb) : Option (State × Nat) :=
  choose s ((List.range (bits k.pool.toNat 52 32)).filter fun b => !(k.refs.any fun (e : Nat × Nat) => e.1 == b))
/-- The physical address of a slot's page-table entry, and the entry. -/
def kvPtePa (k : Kvb) (slot : Nat) : Nat := bits k.win.toNat 53 18 * 4096 + 8 * slot
def kvSetPte (s : State) (d slot : Nat) (b : Option Nat) : State :=
  let di := s.die d
  let v := match b with | some b => kvBlockPa di d b + 7 | none => 0
  llcWrite (s.setMem (memPut s.mem (kvPtePa di.kvb slot) v 8)) (diePart s d) (kvPtePa di.kvb slot)
def kvVa (k : Kvb) (slot : Nat) : Nat := bits k.win.toNat 63 54 * 2 ^ 38 + slot * 65536

/-- Copy-on-write, steps 1 to 4 of R372, on to block `b'`. -/
def kvCow (s : State) (d slot b b' : Nat) : State :=
  let di := s.die d
  let src := kvBlockPa di d b
  let dst := kvBlockPa di d b'
  let m := memMove s.mem src dst 65536
  let m := memMove m (poisonKey src) (poisonKey dst) 1024
  let k := di.kvb
  let k := { k with refs := (k.refs.put b (k.refs.get b 1 - 1)).put b' 1
                    slots := k.slots.map fun e => if e.1 = slot then (slot, b') else e }
  let s := kvSetPte ((s.setMem m).setDie d { di with kvb := k }) d slot (some b')
  let part := diePart s d
  let s := llcRange (llcRange s part src 65536 false) part dst 65536 true
  tlbInv s .pkg 0 none (kvVa k slot)

/-- Where an access through a slot goes: the byte key at the slot's current block, after a copy-on-write where the
access writes a shared block; or that no block is free for it. -/
def kvMap (s : State) (loc : Loc) (write : Bool) : Option (State × Loc) :=
  match loc.slot with
  | none => some (s, loc)
  | some (d, slot) =>
    let k := (s.die d).kvb
    match kvBlockOf k slot with
    | none => some (s, loc)
    | some b =>
      if write && decide (k.refs.get b 1 > 1) then
        match kvFreeBlock s k with
        | none => none
        | some (s, b') => some (kvCow s d slot b b', { loc with key := kvBlockPa (s.die d) d b' + loc.va % 65536 })
      else some (s, { loc with key := kvBlockPa (s.die d) d b + loc.va % 65536 })

/-! ## The line of a slot (R372) -/

/-- An access of any kind; a parked frame holds nothing up. -/
def HeldBy.isAccess : HeldBy → Bool
  | .frame _ => false
  | _ => true
/-- The accesses that a slot holds, in the order of arrival. -/
def kvLine (s : State) (d slot : Nat) : List KvHeld := (s.die d).kvb.held.filter fun h => h.slot == slot && h.who.isAccess
/-- The first in line can go: a block is free, or it needs none. -/
def kvMayGo (s : State) (d : Nat) (h : KvHeld) : Bool :=
  let k := (s.die d).kvb
  let shared := match kvBlockOf k h.slot with | some b => decide (k.refs.get b 1 > 1) | none => false
  (kvLine s d h.slot).head? == some h && (!(h.write && shared) || decide (kvFree k > 0))
/-- It leaves the line; those behind it follow. -/
def kvLeave (s : State) (d : Nat) (h : KvHeld) : State :=
  raiseOnce (s.modDie d fun di => { di with kvb := { di.kvb with held := dropFirst (fun x => x == h) di.kvb.held } }) (.kvbHeldRelease d)
/-- Where an access through a slot goes: behind the accesses that the slot holds, unless it is itself the first of them. -/
def kvRoute (s : State) (loc : Loc) (write : Bool) (me : Option HeldBy) : Option (State × Loc) :=
  match loc.slot with
  | none => some (s, loc)
  | some (d, slot) =>
    match kvLine s d slot with
    | [] => kvMap s loc write
    | h :: _ => if some h.who = me then (kvMap s loc write).map fun r => (kvLeave r.1 d h, r.2) else none
/-- A place at the end of a slot's line, taken once; the first hold of a die raises event 0x08. -/
def kvHold (s : State) (d slot : Nat) (write : Bool) (who : HeldBy) : State :=
  let k := (s.die d).kvb
  if k.held.any (fun h => h.slot == slot && h.who == who) then s
  else
    let s := s.modDie d fun di => { di with kvb := { k with held := k.held ++ [⟨slot, write, who⟩], raised := true } }
    if k.raised then s else dieEvent s d 0 0x08 0 noIdx
/-- The first slot at which several places, reached together, would wait: others are in line, or the free blocks do not reach. -/
def kvWaits (s : State) (ls : List Loc) (write : Bool) (me : HeldBy) : Option (Nat × Nat) :=
  let slots := (ls.filterMap (·.slot)).eraseDups
  let shared := fun (e : Nat × Nat) => match kvBlockOf (s.die e.1).kvb e.2 with
    | some b => decide ((s.die e.1).kvb.refs.get b 1 > 1) | none => false
  slots.find? fun e => (match kvLine s e.1 e.2 with | [] => false | h :: _ => h.who != me)
    || (write && shared e && decide (kvFree (s.die e.1).kvb < (slots.filter fun x => x.1 == e.1 && shared x).length))
/-- What waited under a name leaves every line. -/
def kvLeaveAll (s : State) (who : HeldBy) : State :=
  s.dies.foldl (fun s e => (e.2.kvb.held.filter fun h => h.who == who).foldl (fun s h => kvLeave s e.1 h) s) s

end Sys2Proof.Machine
end

