-- ==== Sys2Proof/Machine/Block.lean ====
section
/-! DEFINITION. Blocks in the instruction store: header, entries, instruction words, the block check (R58 to R77). -/

namespace Sys2Proof.Machine

/-- A block as the core fetches it. -/
structure Blk where
  hdr : Header
  raw : Nat
  reads : List Nat
  writes : List Nat
  code : List IWord
  /-- instruction-store words of the block that cannot be corrected, by their place in the half -/
  bad : List Nat := []
deriving DecidableEq, Repr

/-- The header from its 128 bits (Table 3.1). -/
def parseHeader (h : Nat) : Header :=
  { taskid := bits h 127 112, node := bits h 95 76, nslot := bits h 75 68, lsidCnt := bits h 63 58, nexit := bits h 57 55,
    persist := bit h 54, handler := bit h 53, take := bit h 52, loopsrc := bit h 51, est := bits h 47 32,
    nins := bits h 23 16, nrd := bits h 15 8, nwr := bits h 7 2, cls := bits h 1 0 }
def parseRd (w : Nat) : RdEntry :=
  { slot := bits w 31 25, t1 := Target.ofCode (bits w 24 16), t2 := Target.ofCode (bits w 15 7), consume := bit w 6, etest := bit w 5 }
def parseWr (w : Nat) : WrEntry := { slot := bits w 31 25, ovr := bit w 24 }

/-- The block at a byte offset of the active half of a core's instruction store (R58, R198). Words beyond the end of the half are free
values. (DESIGN CHOICE, log 120) -/
def fetchBlock (s : State) (c addr : Nat) : Blk :=
  let key := codeKey c (s.core c).half addr
  let raw := memNat s.mem key 16
  let h := parseHeader raw
  let word := fun (n : Nat) => if addr + 16 + 4 * n < 32768 then memNat s.mem (key + 16 + 4 * n) 4 else (Config.pastHalf (addr / 4 + 4 + n)).toNat
  { hdr := h, raw
    reads := (List.range h.nrd).map word
    writes := (List.range h.nwr).map fun n => word (h.nrd + n)
    code := (List.range h.nins).map fun n => BitVec.ofNat 32 (word (h.nrd + h.nwr + n))
    bad := (s.core c).badCode.filterMap fun e =>
      if e.1 = (s.core c).half ∧ addr / 4 ≤ e.2 ∧ e.2 < addr / 4 + 4 + h.nrd + h.nwr + h.nins then some e.2 else none }

/-! ## Instruction indices -/

/-- Opcodes of two-word instructions (R78). -/
def isX (w : Nat) : Bool :=
  let o := w / 2 ^ 25
  o == 0x22 || o == 0x31 || o == 0x43 || o == 0x62 || decide (0x70 ≤ o ∧ o ≤ 0x77)

/-- The first indices of a block's instructions with their words: an X instruction holds two indices. -/
def insnsFrom : Nat → List IWord → List (Nat × List IWord)
  | _, [] => []
  | n, [w] => [(n, [w])]
  | n, w :: v :: ws => if isX w.toNat then (n, [w, v]) :: insnsFrom (n + 2) ws else (n, [w]) :: insnsFrom (n + 1) (v :: ws)
def insns (code : List IWord) : List (Nat × List IWord) := insnsFrom 0 code

/-- The instruction words from an index on: the instruction's first word and what follows. -/
def wordsAt (code : List IWord) (n : Nat) : List IWord := (code.drop n).take 2

/-- Operands that a word takes by its opcode and selector, for an engine command by its NOPS field, when the rest of it does not
decode (R79). (DEDUCED, log 105) -/
def rawOps (w : Nat) : Bool × Bool × Bool :=
  let o := w / 2 ^ 25
  let x := w / 2 ^ 18 % 32
  let no := (false, false, false)
  let ab := (true, true, false)
  let a := (true, false, false)
  if 0x10 ≤ o ∧ o ≤ 0x17 then (if x ≤ 20 then ab else a)
  else if 0x18 ≤ o ∧ o ≤ 0x1F ∨ o = 0x04 ∨ o = 0x21 ∨ o = 0x32 then a
  else if 0x50 ≤ o ∧ o ≤ 0x57 then (if o = 0x56 then ab else a)
  else if 0x70 ≤ o then (decide (w / 2 ^ 16 % 4 ≥ 1), decide (w / 2 ^ 16 % 4 ≥ 2), decide (w / 2 ^ 16 % 4 ≥ 3))
  else match o with
    | 0x03 => if x ≤ 1 then ab else a
    | 0x22 => if x ≤ 1 then (true, true, true) else if x = 2 then a else ab
    | 0x30 => if x ≤ 8 then ab else a
    | 0x31 | 0x43 | 0x62 => (true, true, true)
    | 0x40 | 0x42 | 0x60 | 0x61 => ab
    | 0x41 => if x = 0 ∨ x = 3 then a else no
    | 0x44 => if x = 0 then a else ab
    | 0x58 => if w % 16 ≤ 5 then ab else a
    | 0x68 => if x = 0 then no else a
    | 0x69 => if x = 1 then ab else no
    | 0x6A => if x = 0 ∨ x = 2 then no else a
    | 0x6B => if x = 0 then a else no
    | _ => no

/-- What an index holds: the first word of an instruction that takes these operands and may be predicated, or the
second word of one that takes C or not. -/
inductive Pos where
  | first (a b pred : Bool)
  | second (c : Bool)
deriving DecidableEq, Repr

def posOf (e : Nat × List IWord) : List (Nat × Pos) :=
  let w := match e.2 with | x :: _ => x.toNat | [] => 0
  let w2 := match e.2 with | _ :: y :: _ => some y.toNat | _ => none
  let opc := w / 2 ^ 25
  let pred := w / 2 ^ 23 % 4 != 0 && opc != 0x20 && opc != 0x21
  let (a, b, c) := match decodeCore w w2 with
    | .ok i => (i.shape.a, i.shape.b, i.shape.c)
    | .error .opcode => (false, false, false)
    | .error _ => rawOps w
  (e.1, .first a b pred) :: (if w2.isSome then [(e.1 + 1, .second c)] else [])
def positions (code : List IWord) : List (Nat × Pos) := (insns code).flatMap posOf

/-- check_target of chapter 3; `k` is the producer's first index plus one, 0 for a read entry. -/
def checkTarget (nwr nins : Nat) (ps : List (Nat × Pos)) (k : Nat) (t : Target) : Option Check :=
  let at_ := fun (n : Nat) => (List.find? (fun (e : Nat × Pos) => e.1 == n) ps).map Prod.snd
  let range := fun (n : Nat) (r : Option Check) => if n ≥ nins then some .tgtRange else if n < k then some .tgtBackward else r
  match t with
  | .none => none
  | .write n => if n.val ≥ nwr then some .tgtRange else none
  | .pred n => range n.val (match at_ n.val with
      | some (.first _ _ p) => if p then none else some .tgtUnpred
      | _ => some .tgtOperand)
  | .opA n => range n.val (match at_ n.val with
      | some (.first a _ _) => if a then none else some .tgtOperand
      | some (.second c) => if c then none else some .tgtOperand
      | none => some .tgtOperand)
  | .opB n => range n.val (match at_ n.val with
      | some (.first _ b _) => if b then none else some .tgtOperand
      | _ => some .tgtOperand)

/-- The first failing check of a list. -/
def firstFail : List (Option Check) → Option Check
  | [] => none
  | some c :: _ => some c
  | none :: l => firstFail l
def failIf (b : Bool) (c : Check) : Option Check := if b then some c else none

/-- Does the image list a task? -/
def taskOf (co : Core) (t : Nat) : Option Task := co.tasks.find? (·.id == t)

/-- The counts of Table 3.7 before a word. -/
structure Counts where
  sends : Nat := 0
  engs : Nat := 0
  takes : Nat := 0
  exits : Nat := 0

/-- Check of one instruction word against Table 3.20. -/
def checkInsn (co : Core) (h : Header) (ps : List (Nat × Pos)) (k : Counts) (e : Nat × List IWord) : Option Check × Counts :=
  let w := match e.2 with | x :: _ => x.toNat | [] => 0
  let w2 := match e.2 with | _ :: y :: _ => some y.toNat | _ => none
  match decodeCore w w2 with
  | .error c => (some c, k)
  | .ok i =>
    let sh := i.shape
    let k' : Counts := match sh.cls with
      | .plain => k
      | .send => { k with sends := k.sends + 1 }
      | .engine => { k with engs := k.engs + 1 }
      | .take => { k with takes := k.takes + 1 }
      | .exit => { k with exits := k.exits + 1 }
    (firstFail ([failIf (match sh.lsid with | some l => decide (l.toNat ≥ h.lsidCnt) | none => false) .lsid,
      failIf (sh.slots.any fun t => decide (t.toNat ≥ h.nslot)) .slot,
      failIf (match i with | .broCont _ t => (taskOf co t.toNat).isNone | _ => false) .noTask,
      failIf (decide (k'.sends > 16 ∨ k'.engs > 8 ∨ k'.takes > bnat h.take ∨ k'.exits > h.nexit + 1)) .limit, failIf (!noneOk i w) .tgtOperand]
      ++ sh.tgts.map (checkTarget h.nwr h.nins ps (e.1 + 1))), k')

/-- The instruction words in ascending index, then the counts that fall short. Answers position and check. -/
def checkInsns (co : Core) (h : Header) (ps : List (Nat × Pos)) : Counts → List (Nat × List IWord) → Option (Nat × Check)
  | k, [] => if (h.take && k.takes == 0) || decide (k.exits < h.nexit + 1) then some (0x300, .limit) else none
  | k, e :: es =>
    match checkInsn co h ps k e with
    | (some c, _) => some (e.1, c)
    | (none, k') => checkInsns co h ps k' es

def checkHeader (h : Header) (raw task : Nat) : Option Check :=
  firstFail [failIf (bits raw 31 28 != 1 || bits raw 27 24 != 0) .fmtVer,
    failIf (decide (h.nins = 0 ∨ h.nins > 128 ∨ h.nrd > 128 ∨ h.nwr > 32 ∨ h.nslot > 128 ∨ h.lsidCnt > 32 ∨ h.taskid ≠ task)) .counts,
    failIf (bits raw 111 96 != 0 || bits raw 67 64 != 0 || bits raw 50 48 != 0) .reserved]
def checkRd (h : Header) (ps : List (Nat × Pos)) (w : Nat) : Option Check :=
  let r := parseRd w
  firstFail [failIf (bits w 4 0 != 0) .reserved, failIf (decide (r.slot ≥ h.nslot)) .slot,
    checkTarget h.nwr h.nins ps 0 r.t1, checkTarget h.nwr h.nins ps 0 r.t2]
def checkWr (h : Header) (w : Nat) : Option Check :=
  firstFail [failIf (bits w 23 0 != 0) .reserved, failIf (decide (bits w 31 25 ≥ h.nslot)) .slot]

/-- The first entry of a list that fails, with its position. -/
def firstAt (f : Nat → Option Check) : Nat → List Nat → Option (Nat × Check)
  | _, [] => none
  | p, w :: ws => match f w with | some c => some (p, c) | none => firstAt f (p + 1) ws

/-- The block check of R76 for a task: the position of R77 and the failing check; a fetch that meets a bad word of the store fails
as the first check does (R198). -/
def blockCheck (co : Core) (b : Blk) (task : Nat) : Option (Nat × Check) :=
  match firstFail [failIf (b.bad != []) .fmtVer, checkHeader b.hdr b.raw task] with
  | some c => some (0x300, c)
  | none =>
    let ps := positions b.code
    match firstAt (checkRd b.hdr ps) 0x100 b.reads with
    | some e => some e
    | none =>
      match firstAt (checkWr b.hdr) 0x200 b.writes with
      | some e => some e
      | none => checkInsns co b.hdr ps {} (insns b.code)

/-! ## What a task's block says -/

/-- The block of a task of a core's image. -/
def taskBlk (s : State) (c task : Nat) : Option Blk := (taskOf (s.core c) task).map fun t => fetchBlock s c t.addr
/-- The input mask of a task: the slots its read entries name (R59). -/
def inputMask (s : State) (c task : Nat) : List Nat :=
  match taskBlk s c task with
  | some b => ((b.reads.map fun w => (parseRd w).slot).foldr (fun x l => if l.contains x then l else x :: l) [])
  | none => []
/-- The engines that a block names (R412): 1 vector, 2 matrix, 4 copy, 8 integrator. -/
def blockEngines (b : Blk) : Nat :=
  let ops := (insns b.code).map fun e => match e.2 with | w :: _ => w.toNat / 2 ^ 25 | [] => 0
  let has := fun (o : Nat) => ops.contains o
  bnat (has 0x70 || has 0x71) + 2 * bnat (has 0x72) + 4 * bnat (has 0x73) + 8 * bnat (has 0x74)

end Sys2Proof.Machine
end

