-- ==== Sys2Proof/Machine/Records.lean ====
section
/-! DEFINITION. Frame headers (R103 to R105), task records, queue and rings (R199 to R201), the entry pools (R205,
R206), waiters and reservations (R122, R123), the freeing of a frame. -/

namespace Sys2Proof.Machine

/-! ## Frames and their headers -/

def fpCore (fp : Nat) : Nat := fp / 2 ^ 20 % 2 ^ 12
def fpWord (fp : Nat) : Nat := fp % 2 ^ 17
def mkFp (c h : Nat) : Nat := c * 2 ^ 20 + h
/-- Malformed frame pointer operand (R114). -/
def fpBad (s : State) (v : Nat) : Bool :=
  decide (v ≥ 2 ^ 32) || decide (bits v 31 27 > 23) || bits v 19 17 != 0 || bits v 1 0 != 0 || !corePresent s (v / 2 ^ 20)
def frameAlloc (s : State) (fp : Nat) : Bool := (s.core (fpCore fp)).frames.contains (fpWord fp)
def hdrKey (fp k : Nat) : Nat := wordKey (fpCore fp) (fpWord fp + k)
def slotKey (fp n : Nat) : Nat := wordKey (fpCore fp) (fpWord fp + 4 + n)
def hdr (s : State) (fp k : Nat) : Nat := memNat s.mem (hdrKey fp k) 8
def setHdr (s : State) (fp k v : Nat) : State := s.setMem (putWord s.mem (hdrKey fp k) ⟨BitVec.ofNat 64 v, true, false⟩)
def frameSize (s : State) (fp : Nat) : Nat := bits (hdr s fp 0) 31 24
def frameState (s : State) (fp : Nat) : Nat := bits (hdr s fp 0) 18 16
def frameTask (s : State) (fp : Nat) : Nat := bits (hdr s fp 0) 15 0
def frameClass (s : State) (fp : Nat) : Nat := bits (hdr s fp 1) 9 8
def frameMissing (s : State) (fp : Nat) : Nat := bits (hdr s fp 1) 7 0
/-- Frame states of H0.STATE (R104). -/
def stWaiting : Nat := 1
def stQueued : Nat := 2
def stRunning : Nat := 3
def stParked : Nat := 4
def stTrapped : Nat := 5
def stHeld : Nat := 6

/-- The order in which the core's frames began to wait (Table 21.6, class 3). -/
def noteWait (s : State) (fp : Nat) : State :=
  let waits := frameAlloc s fp && (frameState s fp == stParked || (frameState s fp == stWaiting && decide (frameMissing s fp > 0)))
  s.modCore (fpCore fp) fun co =>
    if waits then (if co.waitOrder.contains fp then co else { co with waitOrder := co.waitOrder ++ [fp] })
    else { co with waitOrder := co.waitOrder.filter (· != fp) }

def setFrameState (s : State) (fp st : Nat) : State := noteWait (setHdr s fp 0 (setBits (hdr s fp 0) 16 3 st)) fp
def setFrameClass (s : State) (fp cl : Nat) : State := setHdr s fp 1 (setBits (hdr s fp 1) 8 2 cl)

def slotWord (s : State) (fp n : Nat) : TWord := getWord s.mem (slotKey fp n)
def setSlot (s : State) (fp n : Nat) (v : Val) : State :=
  s.setMem (putWord s.mem (slotKey fp n) ⟨v.d, true, v.x⟩)
/-- A slot goes empty: F is cleared. -/
def clearSlot (s : State) (fp n : Nat) : State := s.setMem (setTags s.mem (slotKey fp n) false (keyX s.mem (slotKey fp n)))

/-- MISSING is the number of input-mask slots whose F bit is clear (R109). -/
def recount (s : State) (fp : Nat) : State :=
  let m := ((inputMask s (fpCore fp) (frameTask s fp)).filter fun n => !(slotWord s fp n).f).length
  noteWait (setHdr s fp 1 (setBits (hdr s fp 1) 0 8 m)) fp

/-- Words of a frame area region that an allocated or reserved frame covers. -/
def coreRegions (s : State) (c : Nat) : List (Nat × Nat) :=
  let co := s.core c
  co.frames.map (fun h => (h, 4 + frameSize s (mkFp c h))) ++ co.reserved

def overlaps (a n b m : Nat) : Bool := decide (a < b + m ∧ b < a + n)
/-- The lowest word index of the general pool, a multiple of 4, with n free words (R409, R197). -/
def freeAt (s : State) (c n : Nat) : Option Nat :=
  let rs := coreRegions s c
  let lo := bits (s.core c).frameBase.toNat 16 0 + 384
  let cands := lo :: rs.map fun r => (r.1 + r.2 + 3) / 4 * 4
  let ok := cands.filter fun a => decide (lo ≤ a ∧ a + n ≤ Config.spWords) && !(rs.any fun r => overlaps a n r.1 r.2)
  ok.foldl (fun (m : Option Nat) a => match m with | some b => some (min a b) | none => some a) none

/-- Zeroes n words with both tags clear from word h of a core on. -/
def zeroWords (s : State) (c h : Nat) : Nat → State
  | 0 => s
  | n + 1 => zeroWords (s.setMem (putWord s.mem (wordKey c h) {})) c (h + 1) n

/-- A frame is allocated (R104, R105): header words, slots empty and zero. -/
def allocFrame (s : State) (fp size task cls parent node : Nat) : State :=
  let s := zeroWords s (fpCore fp) (fpWord fp) (4 + size)
  let s := s.modCore (fpCore fp) fun co => { co with frames := co.frames ++ [fpWord fp] }
  let s := setHdr s fp 0 (size * 2 ^ 24 + stWaiting * 2 ^ 16 + task)
  let s := setHdr s fp 1 (cls * 2 ^ 8)
  let s := setHdr s fp 2 parent
  recount (setHdr s fp 3 node) fp

/-! ## Task records (R109, R199, R200) -/

/-- The record of a frame with an arrival tick (Table 5.2). -/
def mkRec (s : State) (fp tick : Nat) : TRec :=
  let c := fpCore fp
  let est := match taskBlk s c (frameTask s fp) with | some b => b.hdr.est * 64 | none => 0
  { fp, cls := frameClass s fp, task := frameTask s fp, tick, est, h3 := hdr s fp 3 }
/-- The eight words of a record. -/
def recWords (r : TRec) : List Nat := [r.fp, r.cls * 2 ^ 16 + r.task, r.tick, r.est, r.h3, 0, 0, 0]
def coreCclk (s : State) (c : Nat) : Nat := (s.die (coreDie c)).cclk
def ringCap (co : Core) : Nat := 64 * 2 ^ bits co.tqBase.toNat 3 0
def ringsEmpty (co : Core) : Bool := co.rings.all (·.2.isEmpty) && co.walkRecs.all (·.2.isEmpty)

/-- A ring or overflow access of a core meets a translation fault (R365): held, logged, event 0x07. -/
def holdAccess (s : State) (c va reason : Nat) : State :=
  let d := coreDie c
  let (s, i) := logRec s d 0x07 (c % 128) 3 0 [BitVec.ofNat 64 va, BitVec.ofNat 64 reason]
  let s := dieEvent s d (c % 128) 0x07 va i
  s.modCore c fun co => { co with ringHold := true }

/-- Where a ring or overflow access of a core goes: its TLBs answer; without a translation a walk starts and the access waits
(R364); one that faults is held, and all behind it until a retry (R365); it may wait at a slot of the block store (R372). -/
def devAddr (s : State) (c va : Nat) (write : Bool) : State × Option Nat :=
  let co := s.core c
  if co.ringHold then (s, none)
  else match tlbFind s c va with
    | some t =>
      if physKind s (t.phys va) = .none then (holdAccess s c va rsNoXlate, none)
      else if write && !t.w then (holdAccess s c va rsNoWrite, none)
      else
        let s := noteTlb s c (some t)
        let loc : Loc := { space := .global, key := t.phys va, va, slot := kvSlotOf s t va }
        (match kvRoute s loc write (some (.dev c)), loc.slot with
          | some (s, loc), _ => (s, some loc.key)
          | none, some (d, slot) => (kvHold s d slot write (.dev c), none)
          | none, none => (s, none))
    | none => if co.devWait then (s, none) else (startWalk (s.setCore c { co with devWait := true }) c va (.dev c va), none)
/-- A core's ring and overflow writes are performed in order, as far as they translate. -/
def devGo (s : State) (c : Nat) : Nat → State
  | 0 => s
  | n + 1 =>
    match (s.core c).dev with
    | [] => s
    | (va, ws) :: l =>
      match devAddr s c va true with
      | (s, none) => s
      | (s, some p) =>
        let one := fun (a : State × Nat) w => (llcCoreWrite (physWrite a.1 a.2 w 8 false) c a.2, a.2 + 8)
        devGo ((ws.foldl one (s, p)).1.modCore c fun co => { co with dev := l }) c n
/-- Words written at a virtual address of the core's partition, 8 bytes each, behind the writes that still wait. -/
def devWrite (s : State) (c va : Nat) (ws : List Nat) : State :=
  let s := s.modCore c fun co => { co with dev := co.dev ++ [(va, ws)] }
  devGo s c (s.core c).dev.length
/-- n words read at a virtual address of the core's partition, behind its writes, with whether they meet an error (R355, R359), and
then all are zero; none while the read must wait. -/
def devRead (s : State) (c va n : Nat) : State × Option (List Nat × Bool) :=
  if (s.core c).dev ≠ [] then (s, none)
  else match devAddr s c va false with
    | (s, none) => (s, none)
    | (s, some p) =>
      let bad := physErr s p (8 * n) s.tick
      (llcCoreRead s c p 0, some ((List.range n).map fun k => if bad then 0 else (physRead s (p + 8 * k) 8 s.tick).1, bad))

/-- The virtual address of place n of a ring: ring c stands at TQ_BASE.BASE + c × 4 KiB × 2^SIZE (R200). -/
def ringVa (co : Core) (cls n : Nat) : Nat :=
  bits co.tqBase.toNat 47 12 * 4096 + cls * 4096 * 2 ^ bits co.tqBase.toNat 3 0 + 64 * (n % ringCap co)
/-- Places of the records of a ring, its first `from_` records passed over, are written to memory. -/
def ringStore (s : State) (c cls from_ : Nat) : State :=
  let co := s.core c
  let h := co.ringHead.get cls 0
  let s := s.setCore c { co with ringTail := co.ringTail.put cls ((h + (co.rings.get cls []).length) % ringCap co) }
  (((co.rings.get cls []).drop from_).foldl (fun (a : State × Nat) r =>
    (devWrite a.1 c (ringVa co cls (h + a.2)) (recWords r), a.2 + 1)) (s, from_)).1
/-- A ring takes records from the head of its walker table while it has room (R200). -/
def ringFromWalk (s : State) (c cls : Nat) : State :=
  let co := s.core c
  let ring := co.rings.get cls []
  let wr := co.walkRecs.get cls []
  let n := min (ringCap co - ring.length) wr.length
  if n = 0 then s
  else ringStore (s.setCore c { co with rings := co.rings.put cls (ring ++ wr.take n), walkRecs := co.walkRecs.put cls (wr.drop n) })
    c cls ring.length
/-- A record at the tail of its ring, or in the walker table when the ring is full (R200). -/
def ringAppend (s : State) (c : Nat) (r : TRec) : State :=
  let co := s.core c
  let ring := co.rings.get r.cls []
  if ring.length ≥ ringCap co ∨ (co.walkRecs.get r.cls []) ≠ [] then
    s.setCore c { co with walkRecs := co.walkRecs.put r.cls (co.walkRecs.get r.cls [] ++ [r]) }
  else
    countEv (ringStore (s.setCore c { co with rings := co.rings.put r.cls (ring ++ [r]) }) c r.cls ring.length) c 0x02 1

/-- The rings stand at a new base: the records that they and their walker tables hold are written there in order, as the core spilled
them (R200, R405). (DEDUCED, log 121) -/
def moveRings (s : State) (c : Nat) (base : BitVec 64) : State :=
  let was := s.core c
  let s := s.setCore c { was with tqBase := base, tqHeld := none, ringHead := [], ringTail := [], rings := [], walkRecs := [] }
  (List.range 4).foldl (fun s k =>
    let l := was.rings.get k [] ++ was.walkRecs.get k []
    let co := s.core c
    if l = [] then s
    else ringStore (s.setCore c { co with rings := co.rings.put k (l.take (ringCap co)), walkRecs := co.walkRecs.put k (l.drop (ringCap co)) }) c k 0) s

/-- A record is appended to its core's queue, or to its ring (R200). -/
def rawAppend (s : State) (c : Nat) (r : TRec) : State :=
  let co := s.core c
  let s := countEv s c 0x01 1
  if co.tq.length ≥ Config.queueMax ∨ co.rings.get r.cls [] ≠ [] ∨ co.walkRecs.get r.cls [] ≠ [] then ringAppend s c r
  else s.modCore c fun co => { co with tq := co.tq ++ [{ r with entered := coreCclk s c }] }

/-- A record returns to the queue with its own arrival tick, at the head of its class (R127). -/
def rawReturn (s : State) (c : Nat) (r : TRec) : State :=
  let co := s.core c
  let r := { r with entered := coreCclk s c }
  if co.tq.length < Config.queueMax then s.setCore c { co with tq := r :: co.tq }
  else
    let ring := co.rings.get r.cls []
    let full := decide (ring.length ≥ ringCap co)
    let co := { co with rings := co.rings.put r.cls (r :: if full then ring.dropLast else ring)
                        ringHead := co.ringHead.put r.cls ((co.ringHead.get r.cls 0 + ringCap co - 1) % ringCap co)
                        walkRecs := if full then co.walkRecs.put r.cls (ring.getLast?.toList ++ co.walkRecs.get r.cls []) else co.walkRecs }
    let s := (countEv s c 0x02 1).modCore c fun x => { co with evc := x.evc }
    let s := devWrite s c (ringVa co r.cls (co.ringHead.get r.cls 0)) (recWords r)
    s.modCore c fun x => { x with ringTail := x.ringTail.put r.cls ((co.ringHead.get r.cls 0 + (co.rings.get r.cls []).length) % ringCap co) }

/-- A record as the eight words of its place give it, zero where they are in error; the frame is the one that the core spilled.
(DESIGN CHOICE, log 14) -/
def readRec (r : TRec) (ws : List Nat) : TRec :=
  { r with cls := nthD ws 1 0 / 2 ^ 16 % 4, task := nthD ws 1 0 % 2 ^ 16, tick := nthD ws 2 0, est := nthD ws 3 0, h3 := nthD ws 4 0 }
/-- While a queue entry is free, the head of the non-empty ring of highest class is read and moves in, and the ring refills
from the walker table (R200). -/
def ringRefill (s : State) (c : Nat) : Nat → State
  | 0 => s
  | n + 1 =>
    let s := (List.range 4).foldl (fun s k => ringFromWalk s c k) s
    let co := s.core c
    if co.tq.length ≥ Config.queueMax then s
    else match (List.range 4).find? (fun k => co.rings.get k [] ≠ []) with
      | none => s
      | some k =>
        match co.rings.get k [] with
        | [] => s
        | r :: ring =>
          let h := co.ringHead.get k 0
          match devRead s c (ringVa co k h) 8 with
          | (s, none) => s
          | (s, some (ws, _)) =>
            let s := s.modCore c fun co =>
              { co with tq := co.tq ++ [{ readRec r ws with entered := coreCclk s c }], rings := co.rings.put k ring
                        ringHead := co.ringHead.put k ((h + 1) % ringCap co) }
            ringRefill s c n

/-- The record that a free slot takes: highest class, then smallest arrival tick, then order of append (R199). -/
def bestRec : List TRec → Option TRec
  | [] => none
  | r :: rs => match bestRec rs with
    | none => some r
    | some q => if q.cls < r.cls ∨ (q.cls = r.cls ∧ q.tick < r.tick) then some q else some r
def removeRec (fp : Nat) (l : List TRec) : List TRec := l.filter (·.fp != fp)
/-- A frame's record leaves queue, rings and walker table, wherever it stands (R151). -/
def dropRec (s : State) (fp : Nat) : State :=
  let c := fpCore fp
  let was := (s.core c).rings
  let s := s.modCore c fun co =>
    { co with tq := removeRec fp co.tq, rings := co.rings.map fun e => (e.1, removeRec fp e.2),
              walkRecs := co.walkRecs.map fun e => (e.1, removeRec fp e.2) }
  was.foldl (fun s e => if e.2.any (·.fp == fp) then ringStore s c e.1 (e.2.takeWhile (·.fp != fp)).length else s) s

/-! ## Entry pools (R205 to R207) -/

/-- No operation finds its entry there: it is in the overflow area or not in yet (R206). -/
def Place.away (p : Place) : Bool := p == .ovf || p == .port
/-- Entries that one item takes: an engine command four (R207). -/
def TEntry.cost : TEntry → Nat | .cmd .. => 4 | _ => 1
def poolUsed (l : List TBuf) : Nat := natSum ((l.filter (·.place == .pool)).map (·.e.cost))
def placeUsed (p : Place) (l : List TBuf) : Nat := natSum ((l.filter (·.place == p)).map (·.e.cost))
/-- SYNC_STAT's counts (R205). -/
def spilled (co : Core) : Nat := placeUsed .ovf co.tbuf + (co.waiters.filter (·.place == .ovf)).length
def walked (co : Core) : Nat := placeUsed .walk co.tbuf + (co.waiters.filter (·.place == .walk)).length
def ovfCap (co : Core) : Nat := 256 * 2 ^ bits co.syncOva.toNat 3 0
def modeWalk (co : Core) : Bool := bit co.syncOvf.toNat 0

/-- Entry words of Table 8.6 for the overflow area. -/
def entryWords (e : TEntry) : List Nat :=
  match e with
  | .token t => [t.v.d.toNat, t.fp + t.slot % 128 * 2 ^ 32 + bnat t.v.x * 2 ^ 39]
  | .timer tick fp slot _ => [tick, fp + slot * 2 ^ 32 + 2 * 2 ^ 45]
  | .barWait sc id gen fp slot => [sc.code + id * 2 ^ 3 + gen * 2 ^ 16, fp + slot * 2 ^ 32 + 3 * 2 ^ 45]
  | .podWait id gen _ fp slot => [Scope.pod.code + id * 2 ^ 3 + gen * 2 ^ 16, fp + slot * 2 ^ 32 + 3 * 2 ^ 45]
  | .cmd _ c =>
    let w := encodeNat c.i
    let op := fun (n : Nat) => nthD c.ops n ⟨0, false⟩
    [nthD w 0 0 + nthD w 1 0 * 2 ^ 32,
     c.fp + (bnat (op 0).x + 2 * bnat (op 1).x + 4 * bnat (op 2).x) * 2 ^ 40 + 4 * 2 ^ 45]
    ++ (List.range 3).flatMap fun n => [(op n).d.toNat, 5 * 2 ^ 45]

/-- The virtual address of place t of the overflow area, which is used round. -/
def ovfVa (co : Core) (t : Nat) : Nat := bits co.syncOva.toNat 47 12 * 4096 + 16 * (t % ovfCap co)
/-- The first place at or behind t from which n places hold no spilled entry. -/
def ovfFreeFrom (co : Core) (used : List Nat) (n : Nat) : Nat → Nat → Option Nat
  | 0, _ => none
  | fuel + 1, t => if (List.range n).any (fun k => used.contains (ovfVa co (t + k))) then ovfFreeFrom co used n fuel (t + 1) else some t
/-- The n consecutive places that the next spilled item takes; none when the area has not so many (R206, R207). -/
def ovfFree (co : Core) (n : Nat) : Option Nat :=
  let used := co.tbuf.flatMap (·.vas) ++ co.waiters.flatMap (·.vas)
  ovfFreeFrom co used n (min (n * used.length + 1) (ovfCap co)) (co.ovfTail % ovfCap co)
/-- May an item that takes `n` entries come to a core's token buffer now, none before it at the port? Only a full mode-0 area holds
it (R206). -/
def itemRoom (co : Core) (n : Nat) : Bool :=
  decide (poolUsed co.tbuf + n ≤ Config.poolMax) || modeWalk co || (ovfFree co n).isSome
/-- The same, items held at the port coming first. -/
def tbufRoom (co : Core) (n : Nat) : Bool := itemRoom co n && !co.tbuf.any (·.place == .port)
def waiterRoom (co : Core) : Bool :=
  decide ((co.waiters.filter (·.place == .pool)).length < Config.poolMax) || modeWalk co || (ovfFree co 1).isSome

/-- An entry's words, two a place, are written to the overflow area (R206, R207): the addresses of its places. -/
def ovfWrite (s : State) (c : Nat) (ws : List Nat) : State × List Nat :=
  let co := s.core c
  let n := ws.length / 2
  let t := (ovfFree co n).getD 0
  let vas := (List.range n).map fun k => ovfVa co (t + k)
  let s := s.setCore c { co with ovfTail := (t + n) % ovfCap co }
  ((List.range n).foldl (fun s k => devWrite s c (ovfVa co (t + k)) ((ws.drop (2 * k)).take 2)) s, vas)

/-- Where an item that comes to the token buffer stands: in the pool, or spilled by the mode in force (R206). -/
def tbufPlace (s : State) (c : Nat) (e : TEntry) : State × TBuf :=
  let co := s.core c
  if poolUsed co.tbuf + e.cost ≤ Config.poolMax then (s, { e })
  else
    let n := co.spills
    let s := countEv (s.setCore c { co with spills := n + 1 }) c 0x03 1
    let (s, vas) := if modeWalk co then (s, []) else ovfWrite s c (entryWords e)
    (s, { e, place := if modeWalk co then .walk else .ovf, spill := n, vas })
/-- An item takes its place at the end of the token buffer, or at its head; a full mode-0 area holds it at the port, where it keeps its
place in order (R206). -/
def tbufPut (s : State) (c : Nat) (first : Bool) (e : TEntry) : State :=
  let (s, b) := if tbufRoom (s.core c) e.cost then tbufPlace s c e else (s, { e, place := .port })
  s.modCore c fun x => { x with tbuf := if first then b :: x.tbuf else x.tbuf ++ [b] }
def tbufAdd (s : State) (c : Nat) (e : TEntry) : State := tbufPut s c false e
/-- Items held at the port come in, in order, as there is room (R206). -/
def tbufIn (s : State) (c : Nat) : Nat → State
  | 0 => s
  | n + 1 =>
    match (s.core c).tbuf.find? (·.place == .port) with
    | none => s
    | some b =>
      if itemRoom (s.core c) b.e.cost then
        let (s, p) := tbufPlace s c b.e
        tbufIn (s.modCore c fun x => { x with tbuf := x.tbuf.takeWhile (·.place != .port) ++ { p with ans := b.ans } ::
          (x.tbuf.dropWhile (·.place != .port)).drop 1 }) c n
      else s

/-- The spilled entry that was spilled first. -/
def oldest (l : List TBuf) : Option TBuf :=
  (l.filter fun b => b.place == .ovf || b.place == .walk).foldl (fun (m : Option TBuf) b => match m with
    | none => some b | some a => if b.spill < a.spill then some b else some a) none
/-- An entry as its words in memory give it: a token's value, a timer's tick, a wait's barrier and target (Table 8.6); a token that
meets an error carries X (R355, R359). (DESIGN CHOICE, log 14) -/
def readEntry (e : TEntry) (ws : List Nat) (bad : Bool) : TEntry :=
  let w := nthD ws 0 0
  match e with
  | .token t => .token { t with v := ⟨BitVec.ofNat 64 w, bad || bit (nthD ws 1 0) 39⟩ }
  | .timer _ fp slot rel => .timer w fp slot rel
  | .barWait sc _ _ fp slot => .barWait sc (bits w 15 3) (w / 2 ^ 16) fp slot
  | .podWait _ _ tag fp slot => .podWait (bits w 15 3) (w / 2 ^ 16) tag fp slot
  | e => e
/-- As pool entries free, spilled entries move back in the order in which they were spilled; one of the overflow area is read
from memory (R206). -/
def tbufBack (s : State) (c : Nat) : Nat → State
  | 0 => s
  | n + 1 =>
    let l := (s.core c).tbuf
    match oldest l with
    | none => s
    | some b =>
      if poolUsed l + b.e.cost > Config.poolMax then s
      else
        let back := fun (s : State) e => s.modCore c fun co =>
          { co with tbuf := co.tbuf.map fun x => if x.place = b.place ∧ x.spill = b.spill then { x with e, place := .pool, vas := [] } else x }
        if b.place = .walk then tbufBack (back s b.e) c n
        else match devRead s c (nthD b.vas 0 0) 2 with
          | (s, none) => s
          | (s, some (ws, bad)) => tbufBack (back s (readEntry b.e ws bad)) c n
def oldestWaiter (l : List Waiter) : Option Waiter :=
  (l.filter (·.place != .pool)).foldl (fun (m : Option Waiter) b => match m with
    | none => some b | some a => if b.spill < a.spill then some b else some a) none

/-- The places that a core would read next: of the ring that refills its queue, of the overflow entries that move back. -/
def devTargets (co : Core) : List Nat :=
  let ring := (List.range 4).find? (fun k => co.rings.get k [] ≠ [])
  (match ring with | some k => if co.tq.length < Config.queueMax then [ringVa co k (co.ringHead.get k 0)] else [] | none => [])
  ++ (match oldest co.tbuf with | some b => if poolUsed co.tbuf + b.e.cost ≤ Config.poolMax then b.vas.take 1 else [] | none => [])
  ++ (match oldestWaiter co.waiters with
      | some b => if (co.waiters.filter (·.place == .pool)).length < Config.poolMax then b.vas.take 1 else [] | none => [])
/-- A core's read waits at a slot of the block store still: the slot is that of a place it would read next. -/
def devReads (s : State) (c d slot : Nat) : Bool :=
  (devTargets (s.core c)).any fun va => match tlbFind s c va with | some t => kvSlotOf s t va == some (d, slot) | none => false

/-! ## Waiters and reservations (R122, R123) -/

/-- The waiters of the home of a tagged word. -/
def homeWaiters (s : State) (key : Nat) : List Waiter :=
  if keyLocal key then (s.core (keyCore key)).waiters else (s.die (keyCommonsDie key)).waiters
def setHomeWaiters (s : State) (key : Nat) (l : List Waiter) : State :=
  if keyLocal key then s.modCore (keyCore key) fun co => { co with waiters := l }
  else s.modDie (keyCommonsDie key) fun di => { di with waiters := l }
/-- The commons bank of a key (R347). -/
def keyBank (key : Nat) : Nat := key / 512 % 128

/-- The word is reserved for a frame. -/
def reservedFor (s : State) (key : Nat) : Option Nat :=
  ((homeWaiters s key).find? fun w => w.key == key && w.reserved).map (·.fp)

/-- A waiter enters its word's order: at the end, or first (R169). -/
def addWaiter (s : State) (key fp : Nat) (take first : Bool) : State :=
  let l := homeWaiters s key
  let w : Waiter := { key, fp, take }
  if keyLocal key then
    let c := keyCore key
    let co := s.core c
    let pool := decide ((l.filter (·.place == .pool)).length < Config.poolMax)
    let put := fun (s : State) w => s.modCore c fun co => { co with waiters := if first then w :: co.waiters else co.waiters ++ [w] }
    if pool then put s w
    else
      let s := countEv (s.setCore c { co with spills := co.spills + 1 }) c 0x03 1
      let (s, vas) := if modeWalk co then (s, []) else ovfWrite s c [key % 2 ^ 20, fp + bnat take * 2 ^ 40 + 2 ^ 45]
      put s { w with place := if modeWalk co then .walk else .ovf, spill := co.spills, vas }
  else
    let here := (l.filter fun x => x.place == .pool && keyBank x.key == keyBank key).length
    let w := if here < Config.bankWaiters then w else { w with place := .walk }
    setHomeWaiters s key (if first then w :: l else l ++ [w])

/-- The waiters that a word which became full wakes: in order, up to and including the first that held the take, or up
to it when a reservation stands; one in the overflow area waits, and those behind it, until it has moved back (R206).
(DEDUCED, log 15) -/
def toWake (resv : Bool) : List Waiter → List Waiter
  | [] => []
  | w :: ws => if w.place = .ovf then [] else if w.take then (if resv then [] else [w]) else w :: toWake resv ws

/-- The word at a key has become full (R123, steps 1 to 3). The records of woken frames are appended at their cores. -/
def becameFull (s : State) (key : Nat) : State :=
  let l := homeWaiters s key
  let here := l.filter fun w => w.key == key && !w.reserved
  let resv := (reservedFor s key).isSome
  let ws := toWake resv here
  if ws = [] then s
  else
    let l := l.filterMap fun w =>
      if w.key = key ∧ !w.reserved ∧ ws.contains w then (if w.take then some { w with reserved := true } else none) else some w
    ws.foldl (fun s w => s.send (.wake ((homeDie key).getD 0) w.fp)) (setHomeWaiters s key l)

/-- A core's spilled waiters move back as entries free; the word of one that moved from the overflow area may be full by now
(R206). -/
def waitersBack (s : State) (c : Nat) : Nat → State
  | 0 => s
  | n + 1 =>
    let l := (s.core c).waiters
    match oldestWaiter l with
    | none => s
    | some b =>
      if (l.filter (·.place == .pool)).length ≥ Config.poolMax then s
      else
        let back := fun (s : State) => s.modCore c fun co =>
          { co with waiters := co.waiters.map fun x => if x.place != .pool ∧ x.spill = b.spill then { x with place := .pool, vas := [] } else x }
        if b.place = .walk then waitersBack (back s) c n
        else match devRead s c (nthD b.vas 0 0) 2 with
          | (s, none) => s
          | (s, some _) =>
            let s := back s
            waitersBack (if keyF s.mem b.key && (reservedFor s b.key).isNone then becameFull s b.key else s) c n

/-- Keys that are reserved for a frame. -/
def reservedKeys (s : State) (fp : Nat) : List Nat :=
  let f := fun (l : List Waiter) => (l.filter fun w => w.reserved && w.fp == fp).map (·.key)
  (s.cores.flatMap fun e => f e.2.waiters) ++ (s.dies.flatMap fun e => f e.2.waiters)
/-- A frame's reservations end, but for one on the word `but`; a word still full is offered to the waiters that remain (R123).
(DEDUCED, log 16) -/
def endReservesBut (s : State) (fp : Nat) (but : Option Nat) : State :=
  ((reservedKeys s fp).filter fun key => some key != but).foldl (fun s key =>
    let s := setHomeWaiters s key ((homeWaiters s key).filter fun w => !(w.key == key && w.reserved && w.fp == fp))
    if keyF s.mem key then becameFull s key else s) s
def endReservations (s : State) (fp : Nat) : State := endReservesBut s fp none
/-- A parked frame's waiter entries go (R151). -/
def dropWaiters (s : State) (fp : Nat) : State :=
  let f := fun (l : List Waiter) => l.filter fun w => w.reserved || w.fp != fp
  let g := fun (k : Kvb) => { k with held := k.held.filter fun h => h.who != .frame fp }
  let cores := s.cores.map fun e => (e.1, { e.2 with waiters := f e.2.waiters })
  let dies := s.dies.map fun e => (e.1, { e.2 with waiters := f e.2.waiters, kvb := g e.2.kvb })
  { s with cores, dies }

/-! ## Freeing a frame (R105, R108) -/

/-- The slot of an entry that belongs to a frame as a token, a timer or a barrier waiter. -/
def entryFor (fp : Nat) : TEntry → Option Nat
  | .token t => if t.fp = fp then some t.slot else none
  | .timer _ f slot _ => if f = fp then some slot else none
  | .barWait _ _ _ f slot => if f = fp then some slot else none
  | .podWait _ _ _ f slot => if f = fp then some slot else none
  | _ => none

/-- The slot of a BAR.WAIT that a frame released and that has not reached its barrier. -/
def waitOf (fp : Nat) : Packet → Option Nat
  | .release r => if r.fp = fp then (match r.i with | .barWait .. => some (nthD r.ops 0 Val.err).nat | _ => none) else none
  | _ => none
/-- The frame's words go to zero, its queued tokens, timers and barrier waits become stray (R108, R339), its reservations end;
a free that waited for it meets no frame (R151). (DEDUCED, log 12) -/
def freeFrame (s : State) (fp : Nat) : State :=
  let c := fpCore fp
  let size := frameSize s fp
  let s := zeroWords s c (fpWord fp) (4 + size)
  let gone := (s.core c).tbuf.filterMap (fun b => entryFor fp b.e) ++ s.net.filterMap (waitOf fp)
  let s := { s with net := s.net.filter fun p => (waitOf fp p).isNone }
  let s := s.modCore c fun co =>
    let l := co.tbuf.filter fun b => (entryFor fp b.e).isNone
    let base := bits co.frameBase.toNat 16 0
    { co with frames := co.frames.filter (· != fpWord fp), tbuf := l
              loopHeld := co.loopHeld.filter (· != fp)
              waitOrder := co.waitOrder.filter (· != fp)
              tframes := co.tframes.filter fun k => base + 32 * k != fpWord fp
              tfresh := co.tfresh.filter fun k => base + 32 * k != fpWord fp }
  let late := ((s.core c).freeAfter.filter (· == fp)).length
  let s := gone.foldl (fun s slot => stray s c fp slot) s
  let s := s.modCore c fun co => { co with freeAfter := co.freeAfter.filter (· != fp) }
  endReservations ((List.range late).foldl (fun s _ => stray s c fp 0) s) fp
/-- A free that waited for a running or held frame is applied (R151). -/
def freeDeferred (s : State) (fp : Nat) : State :=
  freeFrame (s.modCore (fpCore fp) fun co => { co with freeAfter := co.freeAfter.erase fp }) fp

end Sys2Proof.Machine
end

