-- ==== Sys2Proof/Machine/Banks.lean ====
section
/-! DEFINITION. Banks of scratchpads and commons that are gated, and their waking (R360, R453). -/

namespace Sys2Proof.Machine

/-! ## Gated banks (R360, R453) -/

/-- The bank of a tagged key: core or none, die, bank number. -/
def bankOf (key : Nat) : Option (Option Nat × Nat × Nat) :=
  if keyLocal key then some (some (keyCore key), coreDie (keyCore key), key % 2 ^ 20 / 65536)
  else if keyCommons key then some (none, keyCommonsDie key, keyBank key)
  else none
def isGated (s : State) (key : Nat) : Bool :=
  match bankOf key with
  | some (some c, _, b) => (s.core c).gated.contains b
  | some (none, d, b) => (s.die d).gated.contains b
  | none => false
/-- The memory without the words of a scratchpad or commons bank. -/
def memWithout (m : List Host.Cell) (p : Nat → Bool) : List Host.Cell := m.filter fun c => !p c.1
/-- Is a key a byte of a bank, or the tags of a word of it? -/
def inBank (c : Option Nat) (d b key : Nat) : Bool :=
  let hit := fun (k : Nat) => match c with
    | some c => decide (localKey c (65536 * b) ≤ k ∧ k < localKey c (65536 * (b + 1)))
    | none => decide (commonsKey d 0 ≤ k ∧ k < commonsKey (d + 1) 0) && keyBank k == b
  hit key || (decide (2 ^ 51 ≤ key ∧ key < 2 ^ 52) && hit ((key - 2 ^ 51) * 8))
/-- The accesses held at a bank, in the order of arrival. -/
def heldAt (s : State) (c : Option Nat) (d b : Nat) : List Access :=
  match c with
  | some c => (s.core c).gateHeld.filter fun a => decide (a.loc.key % 2 ^ 20 / 65536 = b)
  | none => (s.die d).gateHeld.filter fun a => keyBank a.loc.key == b
/-- A gated bank wakes: its words are zero; it holds nothing back any more. -/
def openBank (s : State) (c : Option Nat) (d b : Nat) : State :=
  match c with
  | some c => s.modCore c fun co =>
      { co with gated := co.gated.filter (· != b), gateReq := co.gateReq.filter (· != b)
                gateHeld := co.gateHeld.filter fun a => decide (a.loc.key % 2 ^ 20 / 65536 ≠ b) }
  | none => s.modDie d fun di =>
      { di with gated := di.gated.filter (· != b), gateReq := di.gateReq.filter (· != b)
                gateHeld := di.gateHeld.filter fun a => keyBank a.loc.key != b }
/-- A bank wakes for an access other than those it holds, which come next. -/
def wakeBank (s : State) (c : Option Nat) (d b : Nat) : State :=
  let held := heldAt s c d b
  let s := openBank s c d b
  { s with net := held.map .access ++ s.net }
/-- Banks that hold part of a core's frame area are never gated: a request is dropped, and one that a lower FRAME_BASE reaches
wakes (R360, R453). -/
def keepFrames (s : State) (c : Nat) : State :=
  ((List.range 16).filter fun b => decide (8192 * (b + 1) > bits (s.core c).frameBase.toNat 16 0)
      && ((s.core c).gated.contains b || (s.core c).gateReq.contains b)).foldl
    (fun s b => wakeBank s (some c) (coreDie c) b) s
/-- The bank of a key is awake: what an engine or the commit itself needs. -/
def awake (s : State) (key : Nat) : State :=
  if isGated s key then match bankOf key with | some (c, d, b) => wakeBank s c d b | none => s else s

end Sys2Proof.Machine
end

