-- ==== Sys2Proof/Machine/Planes.lean ====
section
/-! DEFINITION. Plane sets in scratchpad (R30 to R37): where their words lie, elements read and written, words that an
engine waits for (R219) and writes (R220). -/

namespace Sys2Proof.Machine

/-- A plane set of a core: the word index of its first set, its width in value planes, its code, whether it is
block-scaled, and the words of one plane: 16 for a vector block, 32 for a matrix slab (Table 2.4). -/
structure PSet where
  core : Nat
  base : Nat
  w : Nat
  code : BitVec 2
  g : Bool
  unit : Nat := 16
deriving DecidableEq, Repr

/-- An element as it is read: none in error; else a sign and a magnitude, or false and the pattern for code FP. -/
abbrev El := Option (Bool × Nat)

def isSM (c : BitVec 2) : Bool := c == 1
def isTC (c : BitVec 2) : Bool := c == 0
/-- Planes of a set that hold one bit for every element: value planes, sign plane, error plane (Table 2.4). -/
def PSet.parts (p : PSet) : Nat := p.w + bnat (isSM p.code) + 1
/-- Words of one set. -/
def PSet.size (p : PSet) : Nat := p.parts * p.unit + 16 * bnat p.g
/-- The key of word j of a part of set b; part `p.parts` is the group-exponent sector. -/
def PSet.key (p : PSet) (b part j : Nat) : Nat := wordKey p.core (p.base + b * p.size + part * p.unit + j)

/-- Bit n of a part. -/
def PSet.bitAt (p : PSet) (m : List Host.Cell) (b part n : Nat) : Bool := bit (getWord m (p.key b part (n / 64))).d.toNat (n % 64)
/-- The magnitude planes of element n as a natural. -/
def PSet.pattern (p : PSet) (m : List Host.Cell) (b n : Nat) : Nat :=
  natSum ((List.range p.w).map fun k => bnat (p.bitAt m b k n) * 2 ^ k)
/-- A word that element n depends on carries X (R32). -/
def PSet.spoilt (p : PSet) (m : List Host.Cell) (b n : Nat) : Bool :=
  (List.range p.parts).any (fun k => keyX m (p.key b k (n / 64))) || (p.g && keyX m (p.key b p.parts (n / 256)))
/-- Element n of set b (R30 to R32). -/
def PSet.el (p : PSet) (m : List Host.Cell) (b n : Nat) : El :=
  if p.spoilt m b n || p.bitAt m b (p.parts - 1) n then none
  else
    let v := p.pattern m b n
    if isTC p.code then (let x := Num.asS v p.w; some (decide (x < 0), x.natAbs))
    else if isSM p.code then some (p.bitAt m b p.w n, v)
    else some (false, v)
/-- The group exponent of element n (R37). -/
def PSet.exp (p : PSet) (m : List Host.Cell) (b n : Nat) : Int :=
  if p.g then Num.asS ((getWord m (p.key b p.parts (n / 256))).d.toNat / 256 ^ (n / 32 % 8) % 256) 8 else 0

/-- An integer element's value. -/
def elInt (e : Bool × Nat) : Int := if e.1 then -(e.2 : Int) else e.2
/-- An integer as an element. -/
def intEl (x : Int) : Bool × Nat := (decide (x < 0), x.natAbs)
/-- The exact value of an element at an exponent (R37); none for an FP pattern that is read as an error (R229). -/
def elFl (code : BitVec 2) (e : Bool × Nat) (ex : Int) : Option Num.Fl :=
  if isFP code then Num.f32.read e.2 else some ⟨e.1, e.2, ex⟩
/-- A mask element: none in error, else whether it selects (R227). -/
def maskEl (e : El) : Option Bool := e.map fun x => x.2 != 0

/-- The elements of a list without repeats, in order of first appearance. -/
def distinct (l : List Nat) : List Nat := l.foldl (fun r a => if r.contains a then r else r ++ [a]) []
/-- The words that elements `ns` of set b depend on. -/
def PSet.needs (p : PSet) (b : Nat) (ns : List Nat) : List Nat :=
  let js := distinct (ns.map (· / 64))
  (List.range p.parts).flatMap (fun k => js.map fun j => p.key b k j)
    ++ (if p.g then (distinct (ns.map (· / 256))).map fun j => p.key b p.parts j else [])
/-- The first empty word of a list: what an engine waits on (R219). -/
def firstEmpty (m : List Host.Cell) (keys : List Nat) : Option Nat := keys.find? fun k => !keyF m k

/-! ## Writing -/

/-- Bits of one word written in one access at its home: F is set; X stays when bits were left, and is cleared when none
was (R220); `bad` sets it. -/
def planeWriteX (s : State) (key mask v : Nat) (bad : Bool) : State :=
  if mask = 0 then s
  else
    let s := awake s key
    let w := getWord s.mem key
    let d := (w.d.toNat &&& (2 ^ 64 - 1 - mask)) ||| (v &&& mask)
    let s := s.setMem (putWord s.mem key ⟨BitVec.ofNat 64 d, true, bad || (mask != 2 ^ 64 - 1 && w.x)⟩)
    if w.f then s else becameFull s key
def planeWrite (s : State) (key mask v : Nat) : State := planeWriteX s key mask v false

/-- The bit of an element in a part: an element in error is written in canonical form (R31). -/
def PSet.partBit (p : PSet) (part : Nat) (e : El) : Bool :=
  if part + 1 = p.parts then e.isNone
  else match e with
    | none => false
    | some (neg, m) =>
      if part = p.w then neg
      else if isTC p.code then bit (Num.wrap (elInt (neg, m)) p.w) part
      else bit m part

/-- A word's mask and value from its written lanes; of two writes to a lane the later holds. -/
def laneBits (l : List (Nat × Bool)) : Nat × Nat :=
  l.foldl (fun a e => (a.1 ||| 2 ^ e.1, setBits a.2 e.1 1 (bnat e.2))) (0, 0)
/-- Elements written to set b, by lane. -/
def PSet.put (p : PSet) (s : State) (b : Nat) (els : List (Nat × El)) : State :=
  (List.range p.parts).foldl (fun s part =>
    (distinct (els.map (·.1 / 64))).foldl (fun s j =>
      let (mask, v) := laneBits ((els.filter (fun e => e.1 / 64 == j)).map fun e => (e.1 % 64, p.partBit part e.2))
      planeWrite s (p.key b part j) mask v) s) s
/-- Group exponents written to set b: groups of 32 lanes with their exponents. -/
def PSet.putExps (p : PSet) (s : State) (b : Nat) (gs : List (Nat × Int)) : State :=
  (distinct (gs.map (·.1 / 8))).foldl (fun s j =>
    let (mask, v) := (gs.filter (fun e => e.1 / 8 == j)).foldl (fun (a : Nat × Nat) e =>
      (a.1 ||| 255 * 2 ^ (8 * (e.1 % 8)), setBits a.2 (8 * (e.1 % 8)) 8 (Num.wrap e.2 8))) (0, 0)
    planeWrite s (p.key b p.parts j) mask v) s
/-- Elements written by their index in a tensor, 1,024 to a block. -/
def PSet.putAll (p : PSet) (s : State) (els : List (Nat × El)) : State :=
  (distinct (els.map (·.1 / 1024))).foldl (fun s b =>
    p.put s b ((els.filter fun e => e.1 / 1024 == b).map fun e => (e.1 % 1024, e.2))) s
/-- Elements in error. -/
def errCount (els : List (Nat × El)) : Nat := (els.filter (·.2.isNone)).length

/-- Whole words written from a word of scratchpad on, F set and X clear. -/
def putWords (s : State) (c w : Nat) (vs : List Nat) : State :=
  ((List.range vs.length).zip vs).foldl (fun s e => planeWrite s (wordKey c (w + e.1)) (2 ^ 64 - 1) e.2) s

/-- The die of a sequence. -/
def seqDie (v : Nat) : Nat := bits v 19 12
/-- The die of a command with DIE and OWN. -/
def staticDie (c : Nat) (die : BitVec 5) (own : Bool) : Nat := if own then coreDie c else die.toNat
/-- A command of the block store or the Gauntlet. -/
def isSeqCmd : Instr → Bool
  | .kvbAlloc .. | .kvbMap .. | .kvbShare .. | .kvbFree .. | .kvbStat .. | .seqOpen .. | .seqEmit .. | .seqDraft .. | .seqConfirm ..
  | .seqReject .. | .seqResume .. | .seqClose .. | .wchSet .. | .wchBudget .. | .wchClr .. | .wchStat .. => true
  | _ => false
/-- The die at which a command of the block store or the Gauntlet is performed. -/
def cmdDie (r : Released) : Option Nat :=
  match r.i with
  | .kvbStat _ d own | .seqOpen _ d own => some (staticDie r.core d own)
  | i => if isSeqCmd i then some (seqDie (nthD r.ops 0 Val.err).d.toNat) else none

/-- The static fields of a vector command. -/
def vfOf : Instr → Option VF
  | .vadd _ v | .vsub _ v | .vmul _ v | .vfma _ v | .vmin _ v | .vmax _ v | .vabs _ v | .vneg _ v | .vand _ v | .vor _ v
  | .vxor _ v | .vshl _ v | .vshr _ v | .vcmp _ v | .vselect _ v | .vexp2 _ v | .vlog2 _ v | .vrcp _ v | .vrsq _ v
  | .vcvt _ v | .vred _ v | .vscan _ v | .vtopk _ v | .vcompact _ v | .vexpand _ v | .vgather _ v | .vscatter _ v
  | .vfill _ v | .vcopy _ v | .vrand _ v | .vamaxh _ v | .unpackT5 _ v | .vplane _ v => some v
  | _ => none

/-- The engine that runs a command. -/
def engOf (i : Instr) : Option Eng :=
  if (vfOf i).isSome then some .vec
  else match i with
    | .ppSet .. | .sclSet .. | .sclDerive .. | .lbdCfg .. | .accArm .. | .mmp .. | .mmpE .. | .accRel .. | .accClr ..
    | .accSave .. | .accLoad .. | .accStat .. => some .mat
    | .cpyStream _ _ _ k _ _ _ => some (.cpy k.toNat)
    | .cpyPlanes _ _ _ k _ _ _ _ _ _ _ _ _ => some (.cpy k.toNat)
    | .cpyConv _ _ _ k _ _ _ _ _ _ _ _ => some (.cpy k.toNat)
    | .ddaPatch .. | .ddaLdy .. | .ddaLdr .. | .ddaClk .. | .ddaRun .. | .ddaStop .. | .ddaTap .. | .ddaRead ..
    | .ddaSave .. | .ddaRestore .. | .ddaStat .. => some .dda
    | _ => none
/-- The stream of a control command (R275). -/
def controlStream : Instr → Option Nat
  | .cpyCancel _ _ k | .cpySave _ _ k | .cpyResume _ _ k | .cpyStat _ k => some k.toNat
  | _ => none
/-- The engine that releases a command's tokens in the order of its commands (R218, R250, R276). -/
def cmdEng (i : Instr) : Option Eng :=
  match engOf i, controlStream i with
  | some .dda, _ => none
  | some e, _ => some e
  | none, some k => some (.cpy k)
  | none, none => none
/-- A completion token (R222): a command without DEST sends none. -/
def sendDone (s : State) (r : Released) (v : Val) : State :=
  match r.i.shape.slots.head? with
  | some slot => s.send (.token { fp := r.fp, slot := slot.toNat, v, src := some r.core, die := cmdDie r, eng := cmdEng r.i })
  | none => s

/-- A union of status bits. -/
def flagsOf (l : List Nat) : Nat := l.foldl orFlags 0

/-! ## Element values written (R228) -/

/-- put_el: the element, and the status bits that its write sets. -/
def putEl (sat : Bool) (w : Nat) (code : BitVec 2) (x : Int) : (Bool × Nat) × Nat :=
  let lo : Int := if isTC code then -(2 ^ (w - 1) : Nat) else -((2 ^ w : Nat) - 1)
  let hi : Int := if isTC code then (2 ^ (w - 1) : Nat) - 1 else (2 ^ w : Nat) - 1
  if lo ≤ x ∧ x ≤ hi then (intEl x, 0)
  else if sat then (intEl (if x < lo then lo else hi), flIsat)
  else if isTC code then (intEl (Num.asS (Num.wrap x w) w), 0)
  else ((decide (x < 0), x.natAbs % 2 ^ w), 0)
/-- Does an integer fit a width and code (Table 2.3)? -/
def elFits (w : Nat) (code : BitVec 2) (x : Int) : Bool :=
  if isTC code then decide (-(2 ^ (w - 1) : Nat) ≤ x ∧ x ≤ ((2 ^ (w - 1) : Nat) : Int) - 1) else decide (x.natAbs ≤ 2 ^ w - 1)
/-- The largest integer of a width and code. -/
def elMax (w : Nat) (code : BitVec 2) : Nat := if isTC code then 2 ^ (w - 1) - 1 else 2 ^ w - 1

/-- A group of values aligned into a block-scaled set of width w (R41): exponent, elements, status bits. A TC set is
aligned at w − 1 magnitude bits. -/
def alignEls (w : Nat) (code : BitVec 2) (vs : List (Option Num.Fl)) : Int × List El × Nat :=
  let a := Num.align vs (if isTC code then w - 1 else w)
  (a.e, a.els.map fun v => v.map fun p => if isTC code && p.2 == 0 then (false, 0) else p, if a.nsat > 0 then flSat else 0)

/-- The groups of 32 of a list. -/
def chunks32 {α : Type} : Nat → List α → List (List α)
  | 0, _ => []
  | n + 1, l => if l.isEmpty then [] else l.take 32 :: chunks32 n (l.drop 32)

end Sys2Proof.Machine
end

