-- ==== Sys2Proof/Machine/Array.lean ====
section
/-! DEFINITION. The integrator array (chapter 12): sources, latches and links, the steps of a core's domains in one cclk,
faults, taps and feeds. -/

namespace Sys2Proof.Machine

/-! ## Configuration words (R298, R299) -/

def cellN (w : BitVec 64) : Nat := bits w.toNat 59 55 + 1
def cellDom (w : BitVec 64) : Nat := bits w.toNat 62 60
def cellEn (w : BitVec 64) : Bool := bit w.toNat 63
/-- Source field f: 0 is DX, 1 to 4 are DY0 to DY3. -/
def cellSrc (w : BitVec 64) (f : Nat) : Nat := w.toNat / 2 ^ (11 * f) % 2 ^ 11
/-- Table 12.1. -/
inductive Src where
  | none
  | cell (k : Nat)
  | link (pos l : Nat)
  | tick
  | feed (ch : Nat)
  | bad
deriving DecidableEq, Repr
def Src.ofNat (x : Nat) : Src :=
  let k := x % 256
  match x / 256 % 4 with
  | 0 => if x = 0 then .none else .bad
  | 1 => .cell k
  | 2 => if bits k 5 4 = 0 then .link (k / 64) (k % 16) else .bad
  | _ => if k = 0 then .tick else if 8 ≤ k ∧ k < 16 then .feed (k - 8) else .bad
def srcAt (w : BitVec 64) (f : Nat) : Src := Src.ofNat (cellSrc w f)

def Dda.cell (a : Dda) (k : Nat) : DCell := a.cells.get k {}
def Dda.dom (a : Dda) (d : Nat) : Dom := a.doms.get d {}
def Dda.setDom (a : Dda) (d : Nat) (x : Dom) : Dda := { a with doms := a.doms.put d x }
def modDda (s : State) (c : Nat) (f : Dda → Dda) : State := s.modCore c fun co => { co with dda := f co.dda }
def latchOf (x : DCell) (f : Nat) : Int := nthD x.lat f 0
def setLatch (a : Dda) (k f : Nat) (v : Int) : Dda :=
  let x := a.cell k
  { a with cells := a.cells.put k { x with lat := setNth x.lat f v } }

/-- Enabled cells of a domain, rising. -/
def domList (a : Dda) (d : Nat) : List Nat := (List.range 256).filter fun k => cellEn (a.cell k).cfg && cellDom (a.cell k).cfg == d
/-- Does a source come through a crossing latch of its consumer in domain d (R303)? -/
def crosses (a : Dda) (d : Nat) (x : Src) : Bool :=
  match x with
  | .cell k => cellDom (a.cell k).cfg != d
  | .link _ _ => true
  | _ => false
/-- The latches that a domain's step reads and empties, those of a cell that is not enabled too: cell and field. (DEDUCED, log 58) -/
def domLatches (a : Dda) (d : Nat) : List (Nat × Nat) :=
  ((List.range 256).filter fun k => cellDom (a.cell k).cfg == d).flatMap fun k => ((List.range 5).filter fun f => crosses a d (srcAt (a.cell k).cfg f)).map fun f => (k, f)
/-- Latches that a source fills, of every cell in another domain than d that names it (R303, R342). (DEDUCED, log 58) -/
def latchesOf (a : Dda) (x : Src) (d : Option Nat) : List (Nat × Nat) :=
  (List.range 256).flatMap fun k =>
    let w := (a.cell k).cfg
    if d != some (cellDom w) then ((List.range 5).filter fun f => srcAt w f == x).map fun f => (k, f) else []
/-- Feed channels that a domain's enabled cells read. -/
def domFeeds (a : Dda) (d : Nat) : List Nat :=
  distinct ((domList a d).flatMap fun k => (List.range 5).filterMap fun f => match srcAt (a.cell k).cfg f with | .feed ch => some ch | _ => none)

/-! ## Taps (R314 to R316, R330) -/

def Tap.bits (t : Tap) (lo n : Nat) : Nat := t.rest * 2 ^ 6 / 2 ^ lo % 2 ^ n
def Tap.cell (t : Tap) : Nat := t.bits 6 8
/-- The plane set of a PLANE or FEED tap. -/
def Tap.set (c : Nat) (t : Tap) : PSet :=
  let base := t.a.toNat % 2 ^ 17
  if t.mode = 2 then ⟨c, base, t.bits 14 4 + 1, 0, false, 16⟩
  else if t.bits 14 1 = 1 then ⟨c, base, 1, 1, false, 16⟩ else ⟨c, base, 2, 0, false, 16⟩
def Tap.nelem (t : Tap) : Nat := Machine.bits t.a.toNat 41 20
def setTap (s : State) (c k : Nat) (t : Tap) : State := modDda s c fun a => { a with taps := a.taps.put k t }

/-- The buffered samples of a PLANE tap are written with their whole word, its lanes that were not sampled as 0, and the error-plane
word (R315, R330); ISAT is set as a clipped sample is written (R25). (DEDUCED, log 110) -/
def tapFlush (s : State) (c : Nat) (t : Tap) : State :=
  if t.mode ≠ 2 ∨ t.vals = [] then s
  else
    let j0 := t.sent - t.vals.length
    let hi := (j0 / 64 + 1) * 64
    let pad := (List.range (hi - t.sent)).map fun i => (t.sent + i, some (false, 0))
    let els := ((List.range t.vals.length).map (· + j0)).zip (t.vals.map fun v => some (intEl v))
    let p := t.set c
    let s := planeWrite s (p.key (j0 / 1024) (p.parts - 1) (j0 % 1024 / 64)) (2 ^ 64 - 1) 0
    setAstat (p.putAll s (els ++ pad)) c (if t.clip then flIsat else 0)

/-- A tap ends: its lanes are written, and its completion carries its count unless it ends quietly. -/
def tapEnd (s : State) (c k : Nat) (quiet : Bool) : State :=
  let t := (s.core c).dda.taps.get k {}
  let s := setTap (tapFlush s c t) c k {}
  if t.mode ≠ 0 ∧ t.cv ∧ !quiet then s.send (.token { fp := t.fp, slot := t.slot, v := Val.ofNat t.sent, src := some c }) else s

/-- A sample of a tap after an applied step (R315). -/
def tapSample (s : State) (c k : Nat) (t : Tap) : State :=
  let y := ((s.core c).dda.cell t.cell).y
  if t.mode = 1 then
    let s := setTap s c k { t with cnt := 0, sent := t.sent + 1 }
    s.send (.token { fp := t.a.toNat % 2 ^ 32, slot := t.bits 14 7, v := Val.ofNat (Num.wrap y 64), src := some c })
  else
    let q := y / (2 ^ t.bits 21 5 : Nat)
    let (v, clip) := Num.satS q (t.bits 14 4 + 1)
    let t := { t with cnt := 0, sent := t.sent + 1, vals := t.vals ++ [v], clip := t.clip || clip }
    if t.sent = t.nelem then tapEnd (setTap s c k t) c k false
    else if t.sent % 64 = 0 then setTap (tapFlush s c t) c k { t with vals := [], clip := false }
    else setTap s c k t
/-- A tap's count of applied steps of its cell's domain. -/
def tapCount (s : State) (c d k : Nat) : State :=
  let a := (s.core c).dda
  let t := a.taps.get k {}
  if (t.mode = 1 ∨ t.mode = 2) ∧ cellDom (a.cell t.cell).cfg = d then
    if t.cnt + 1 = t.k then tapSample s c k t else setTap s c k { t with cnt := t.cnt + 1 }
  else s

/-- The next element of a channel: 0 without a tap, or none when it makes the step fault (R316). Of several taps set on one channel
that of the lowest number supplies it. (DESIGN CHOICE, log 123) -/
def feedVal (m : List Host.Cell) (c : Nat) (a : Dda) (ch : Nat) : Option Int :=
  match List.find? (fun (e : Nat × Tap) => e.2.mode == 3 && e.2.bits 6 3 == ch) a.taps with
  | none => some 0
  | some (_, t) =>
    match (t.set c).el m (t.sent / 1024) (t.sent % 1024) with
    | none => none
    | some x => if elInt x = -2 then none else some (elInt x)
/-- The empty word that a channel's next element awaits. -/
def feedEmpty (m : List Host.Cell) (c : Nat) (a : Dda) (ch : Nat) : Option Nat :=
  match List.find? (fun (e : Nat × Tap) => e.2.mode == 3 && e.2.bits 6 3 == ch) a.taps with
  | none => none
  | some (_, t) => firstEmpty m ((t.set c).needs (t.sent / 1024) [t.sent % 1024])
/-- An element is consumed; the last ends the tap. -/
def feedTake (s : State) (c ch : Nat) : State :=
  match List.find? (fun (e : Nat × Tap) => e.2.mode == 3 && e.2.bits 6 3 == ch) (s.core c).dda.taps with
  | none => s
  | some (k, t) =>
    let s := setTap s c k { t with sent := t.sent + 1 }
    if t.sent + 1 = t.nelem then tapEnd s c k false else s

/-! ## Links (R299, R342) -/

/-- Enabled link entries: cell, target position, link number. -/
def linkEntries (a : Dda) : List (Nat × Nat × Nat) :=
  (List.range 64).filterMap fun e =>
    let x := (nthD a.links (e / 4) 0).toNat / 2 ^ (16 * (e % 4)) % 2 ^ 16
    if bit x 15 then some (x % 256, e / 16, e % 16) else none
/-- The core at a position of a core's quad. -/
def quadCore (c pos : Nat) : Nat := c / 4 * 4 + pos

/-! ## Stops (R306, R310, R313) -/

/-- Stop reasons. -/
def dsLimit : Nat := 0x10
def dsStopped : Nat := 0x11
def dsIncOverrun : Nat := 0x20
def dsLatchOverrun : Nat := 0x21
def dsYOverflow : Nat := 0x22
def dsFeedErr : Nat := 0x23

/-- The stop tokens of a cclk go in rising domain order (R310). -/
def flushStops (s : State) (c : Nat) : State :=
  let l := (s.core c).dda.stops
  if l = [] then s
  else ((List.range 8).flatMap fun d => l.filter (·.1 == d)).foldl (fun s e => s.send (.token e.2)) (modDda s c fun a => { a with stops := [] })
/-- The token that tells a domain's stop: X for a fault (R310). -/
def stopToken (x : Dom) (c d reason cell : Nat) : Token :=
  let v := reason * 2 ^ 56 + cell * 2 ^ 48 + d * 2 ^ 45 + x.steps
  { fp := x.fp, slot := x.slot, v := ⟨BitVec.ofNat 64 v, decide (reason ≥ 0x20)⟩, src := some c }
/-- A domain stops with its stop token; it then holds no limit and owes no token (R331). -/
def domStop (s : State) (c d reason cell : Nat) : State :=
  let x := (s.core c).dda.dom d
  let y : Dom := { d := x.d, steps := x.steps, lastr := reason, lastcell := cell }
  modDda s c fun a => { a.setDom d y with stops := if x.cv then a.stops ++ [(d, stopToken x c d reason cell)] else a.stops }
/-- The taps of a domain: those on its cells, and the feeds of its channels. (DEDUCED, log 60) -/
def domTaps (a : Dda) (d : Nat) : List (Nat × Tap) :=
  List.filter (fun (e : Nat × Tap) =>
    ((e.2.mode == 1 || e.2.mode == 2) && cellDom (a.cell e.2.cell).cfg == d)
      || (e.2.mode == 3 && (domFeeds a d).contains (e.2.bits 6 3))) a.taps
/-! ## One cclk of steps (R302, R304, R306) -/

/-- What a cell would become in a step. -/
structure CellStep where
  cell : Nat
  r : Int
  dz : Int
  y : Int
  inc : Bool
  yov : Bool
  ferr : Bool

/-- A source's value in a step of domain d, before NEG; none is a feed element in error. -/
def srcVal (m : List Host.Cell) (c : Nat) (a : Dda) (d k f : Nat) : Option Int :=
  let x := srcAt (a.cell k).cfg f
  if crosses a d x then some (latchOf (a.cell k) f)
  else match x with
    | .cell p => some (a.cell p).dz
    | .tick => some 1
    | .feed ch => feedVal m c a ch
    | _ => some 0
/-- One enabled cell's step (R304), NEG applied to each value. -/
def cellStep (m : List Host.Cell) (c : Nat) (a : Dda) (d k : Nat) : CellStep :=
  let x := a.cell k
  let vs := (List.range 5).map fun f => (srcVal m c a d k f, bit (cellSrc x.cfg f) 10)
  let val := fun (e : Option Int × Bool) => match e.1 with | some v => if e.2 then -v else v | none => 0
  let dx := match vs with | e :: _ => val e | [] => 0
  let sdy := (vs.tail.map val).foldl (· + ·) 0
  let h : Int := (2 ^ (cellN x.cfg - 1) : Nat)
  let t := x.r + dx * x.y
  let y := x.y + sdy
  let dz : Int := if t ≥ h then 1 else if t < -h then -1 else 0
  { cell := k, r := t - 2 * h * dz, dz, y
    inc := decide (dx ≠ 0 ∧ (x.y.natAbs : Int) ≥ h), yov := decide (y < -(2 ^ 31) ∨ y > 2 ^ 31 - 1), ferr := vs.any (·.1.isNone) }

/-- The cores that a cell's increment reaches over links, with the link. -/
def linkOuts (s : State) (c : Nat) (a : Dda) (k : Nat) : List (Nat × Nat) :=
  ((linkEntries a).filter fun e => e.1 == k && corePresent s (quadCore c e.2.1)).map fun e => (quadCore c e.2.1, e.2.2)

/-- A domain that steps: its cells' results. -/
structure DomStep where
  d : Nat
  xs : List CellStep
/-- The latches that the steps of some domains read and empty, with their cores. -/
def readBy (s : State) (l : List (Nat × DomStep)) : List (Nat × Nat × Nat) :=
  l.flatMap fun e => (domLatches (s.core e.1).dda e.2.d).map fun r => (e.1, r)
/-- A cell's first fault: reason, and whether only a link's answer tells it. `read` are the latches that this cclk
empties. -/
def cellFault (s : State) (c d : Nat) (read : List (Nat × Nat × Nat)) (x : CellStep) : Option (Nat × Bool) :=
  let a := (s.core c).dda
  let near := x.dz != 0 && (latchesOf a (.cell x.cell) (some d)).any fun e => latchOf (a.cell e.1) e.2 != 0 && !read.contains (c, e)
  let far := x.dz != 0 && (linkOuts s c a x.cell).any fun o =>
    let b := (s.core o.1).dda
    (latchesOf b (.link (c % 4) o.2) none).any fun e => latchOf (b.cell e.1) e.2 != 0 && !read.contains (o.1, e)
  if x.inc then some (dsIncOverrun, false) else if x.yov then some (dsYOverflow, false)
  else if near then some (dsLatchOverrun, false) else if far then some (dsLatchOverrun, true)
  else if x.ferr then some (dsFeedErr, false) else none

/-- The lowest cell of a domain that faults. -/
def domFault (s : State) (c : Nat) (read : List (Nat × Nat × Nat)) (x : DomStep) : Option (Nat × Nat × Bool) :=
  (x.xs.filterMap fun y => (cellFault s c x.d read y).map fun r => (y.cell, r.1, r.2)).head?
/-- The domains, with their cores, that apply their steps: a domain that faults empties no latch, which may make another fault,
on its own core or over a link. -/
def goodSteps (s : State) : Nat → List (Nat × DomStep) → List (Nat × DomStep)
  | 0, l => l
  | n + 1, l => let read := readBy s l; goodSteps s n (l.filter fun x => (domFault s x.1 read x.2).isNone)

/-- The results of a step: cells and STEPS. -/
def domResults (s : State) (c d : Nat) (res : List (Nat × Int × Int × Int)) : State :=
  let s := modDda s c fun a => res.foldl (fun (a : Dda) (e : Nat × Int × Int × Int) =>
    { a with cells := a.cells.put e.1 { a.cell e.1 with r := e.2.1, dz := e.2.2.1, y := e.2.2.2 } }) a
  let s := modDda s c fun a => let x := a.dom d; a.setDom d { x with steps := (x.steps + 1) % 2 ^ 45, hold := none, held := [], late := none }
  countEv s c 0x24 1
/-- The results of a step take effect: cells, STEPS, taps, the limit. -/
def domSettle (s : State) (c d : Nat) (res : List (Nat × Int × Int × Int)) : State :=
  let s := (List.range 16).foldl (fun s k => tapCount s c d k) (domResults s c d res)
  let x := (s.core c).dda.dom d
  if x.limit = 1 then domStop s c d dsLimit 0
  else modDda s c fun a => a.setDom d { x with limit := x.limit - 1 }
/-- A domain stops without a token, and its taps end without tokens; a step whose deposits are on their way takes effect first
(R320). -/
def domQuiet (s : State) (c d : Nat) : State :=
  let x := (s.core c).dda.dom d
  let s := match x.hold, x.late with | some _, none => domResults s c d x.held | _, _ => s
  let s := (domTaps (s.core c).dda d).foldl (fun s e => tapEnd s c e.1 true) s
  modDda s c fun a => let x := a.dom d; a.setDom d { d := x.d, steps := x.steps, lastr := x.lastr, lastcell := x.lastcell }

/-- The answer of a link returns, or the domain is stopped meanwhile: the held step faults or takes effect (R303). -/
def domAnswer (s : State) (c d : Nat) : State :=
  let x := (s.core c).dda.dom d
  match x.hold, x.late with
  | none, _ => s
  | some _, some k => domStop s c d dsLatchOverrun k
  | some _, none => domSettle s c d x.held

/-- A domain's step without fault at cclk t, its latches already emptied: feed elements, deposits, links, results.
(DEDUCED, log 59) -/
def domApply (s : State) (c t : Nat) (x : DomStep) : State :=
  let s := (domFeeds (s.core c).dda x.d).foldl (fun s ch => feedTake s c ch) s
  let a := (s.core c).dda
  let outs := x.xs.filter fun y => y.dz != 0
  let s := outs.foldl (fun s y =>
    modDda s c fun b => (latchesOf b (.cell y.cell) (some x.d)).foldl (fun b e => setLatch b e.1 e.2 y.dz) b) s
  let sent := outs.flatMap fun y => (linkOuts s c a y.cell).map fun o => (o.1, ({ due := t + 4, dst := o.1, pos := c % 4, link := o.2, v := y.dz } : LinkInc))
  let s := sent.foldl (fun s e => modDda s e.1 fun b => { b with inc := b.inc ++ [e.2] }) s
  let res := x.xs.map fun y => (y.cell, y.r, y.dz, y.y)
  let dom := (s.core c).dda.dom x.d
  if sent = [] then domSettle (modDda s c fun a => a.setDom x.d { dom with next := t + dom.d, fwait := false }) c x.d res
  else modDda s c fun a => a.setDom x.d { dom with next := max (t + dom.d) (t + 8), fwait := false, hold := some t, held := res }

/-- A domain's step that faults at cclk t: nothing of it applies; an overrun on a link is known when its answer is. -/
def domFails (s : State) (c t d : Nat) (f : Nat × Nat × Bool) : State :=
  let x := (s.core c).dda.dom d
  if f.2.2 then modDda s c fun a => a.setDom d { x with fwait := false, hold := some t, late := some f.1 }
  else domStop s c d f.2.1 f.1

/-- A domain may step: it runs, and awaits neither an answer nor a feed that is not there (R303, R316). -/
def domGoes (m : List Host.Cell) (c : Nat) (a : Dda) (d : Nat) : Bool :=
  let x := a.dom d
  x.run && x.hold.isNone && (!x.fwait || (domFeeds a d).all fun ch => (feedEmpty m c a ch).isNone)

/-- The domains of a core with a step at cclk t. -/
def dueDoms (s : State) (c t : Nat) : List Nat :=
  let a := (s.core c).dda
  (List.range 8).filter fun d => domGoes s.mem c a d && ((a.dom d).fwait || decide ((a.dom d).next ≤ t))
/-- Their steps, where no feed is awaited. -/
def dueSteps (s : State) (c t : Nat) : List (Nat × DomStep) :=
  let a := (s.core c).dda
  ((dueDoms s c t).filter fun d => (domFeeds a d).all fun ch => (feedEmpty s.mem c a ch).isNone).map fun d =>
    (c, ⟨d, (domList a d).map (cellStep s.mem c a d)⟩)
/-- The cores whose reads of a cclk may free a latch that a core's increments reach: those of its quad when it drives a link. -/
def planCores (s : State) (c : Nat) : List Nat :=
  if linkEntries (s.core c).dda = [] then [c] else ((List.range 4).map (quadCore c)).filter (corePresent s)
/-- All domains of a core with a step at cclk t (R302). -/
def ddaCclk (s : State) (c t : Nat) : State :=
  let a := (s.core c).dda
  let due := dueDoms s c t
  let wait := due.filter fun d => (domFeeds a d).any fun ch => (feedEmpty s.mem c a ch).isSome
  let steps := dueSteps s c t
  let good := goodSteps s 32 ((planCores s c).flatMap fun k => dueSteps s k t)
  let read := readBy s good
  let faults := steps.map fun x => (x.2, domFault s c read x.2)
  let s := wait.foldl (fun s d =>
    let s := (domFeeds a d).foldl (fun s ch => match feedEmpty s.mem c a ch with | some key => awake s key | none => s) s
    modDda s c fun a => a.setDom d { a.dom d with fwait := true }) s
  let s := modDda s c fun b => (read.filter (·.1 == c)).foldl (fun b e => setLatch b e.2.1 e.2.2 0) b
  faults.foldl (fun s e => match e.2 with | none => domApply s c t e.1 | some f => domFails s c t e.1.d f) s

/-- Link increments of a core that arrive by cclk t are deposited in every latch that names their link (R342). -/
def linkArrive (s : State) (c t : Nat) : State :=
  let inc := (s.core c).dda.inc
  let put := fun (a : Dda) (x : LinkInc) => (latchesOf a (.link x.pos x.link) none).foldl (fun a e => setLatch a e.1 e.2 x.v) a
  modDda s c fun a =>
    { (inc.filter fun x => decide (x.due ≤ t)).foldl put a with inc := inc.filter fun x => !decide (x.due ≤ t) }

/-! ## What comes next (R302) -/

/-- The cclk of a core's next step, answer or deposit that is due by `now`, with what it is: 0 an answer, 1 steps,
2 deposits. -/
def ddaNext (m : List Host.Cell) (c : Nat) (a : Dda) (now : Nat) : Option (Nat × Nat) :=
  let doms := List.range 8
  let ans := doms.filterMap fun d => match (a.dom d).hold with | some t => some (t + 8, 0) | none => none
  let steps := doms.filterMap fun d =>
    if domGoes m c a d then some (if (a.dom d).fwait then (now, 1) else ((a.dom d).next, 1)) else none
  let incs := a.inc.map fun x => (x.due, 2)
  ((ans ++ steps ++ incs).filter fun e => decide (e.1 ≤ now)).foldl (fun (b : Option (Nat × Nat)) e => match b with
    | none => some e
    | some p => if e.1 < p.1 ∨ (e.1 = p.1 ∧ e.2 < p.2) then some e else some p) none

end Sys2Proof.Machine
end

