-- ==== Sys2Proof/Machine/Sched.lean ====
section
/-! DEFINITION. Costs of engine commands as the scheduler counts them (R223, R230, R264, R272, R287, R295, R320),
engine queues (R217), sections and the choice among drain, kill and checkpoint (R410 to R415). -/

namespace Sys2Proof.Machine

/-! ## Costs -/

/-- Which operand of a vector command each group describes: source a, second source or mask b, destination d. -/
structure VPos where
  a : Option Nat := none
  b : Option Nat := none
  d : Option Nat := none
def vpos : Instr → VPos
  | .vselect .. => { b := some 0, a := some 1, d := some 2 }
  | .vabs .. | .vneg .. | .vshl .. | .vshr .. | .vexp2 .. | .vlog2 .. | .vrcp .. | .vrsq .. | .vcvt .. | .vcopy ..
  | .vplane .. => { a := some 0, d := some 1 }
  | .unpackT5 .. => { a := some 0, d := some 1 }
  | .vred _ v => { a := some 0, b := if v.msk then some 1 else none }
  | .vscan _ v | .vtopk _ v => { a := some 0, d := some 1, b := if v.msk then some 2 else none }
  | .vfill .. => { d := some 1 }
  | .vrand .. => { d := some 2 }
  | .vamaxh .. => { a := some 0 }
  | _ => { a := some 0, b := some 1, d := some 2 }

def opNat (c : Released) (n : Nat) : Nat := (nthD c.ops n ⟨0, false⟩).d.toNat
/-- NELEM of a plane operand (R224). -/
def nelem (v : Nat) : Nat := bits v 41 20
/-- A group's width in planes: an FP group counts 32 (R230). -/
def gw (w : BitVec 4) (c : BitVec 2) : Nat := if isFP c then 32 else w.toNat + 1
def cdiv (a b : Nat) : Nat := (a + b - 1) / b

/-- The driving count of a vector command: the elements whose blocks it works through. -/
def vecCount (c : Released) : Nat :=
  let ne := fun (o : Option Nat) => match o with | some k => nelem (opNat c k) | none => 0
  match c.i with
  | .vred .. | .vtopk .. | .vcompact .. | .vscatter .. | .vcopy .. | .vplane .. | .vamaxh .. => ne (vpos c.i).a
  | .unpackT5 _ v =>
    if bit v.cmd.toNat 0 then
      let kt := v.cmd.toNat / 2 + 1
      cdiv kt 32 * 32 * 64
    else ne (some 0)
  | i => ne (vpos i).d

/-- The per-block cost of a vector command and the extra term E, for n1 destination or source blocks. -/
def vecCost (i : Instr) (e : Nat) : Nat × Nat :=
  match vfOf i with
  | none => (0, 0)
  | some v =>
    let wa := gw v.wa v.ca
    let wb := gw v.wb v.cb
    let wd := gw v.wd v.cd
    let fp := isFP v.ca
    let w := match (vpos i).a, (vpos i).b, (vpos i).d with
      | some _, some _, some _ => max wa (max wb wd) | some _, none, some _ => max wa wd | _, _, _ => wa
    let by_ := fun (int f : Nat) => if fp then (f, 0) else (int, 0)
    match i with
    | .vadd .. | .vsub .. => by_ (w + 1) 320
    | .vmul .. => by_ (wa * wb) 448
    | .vfma .. => by_ (wa * wb + wd + 1) 640
    | .vmin .. | .vmax .. => by_ (2 * w) 96
    | .vabs .. | .vneg .. => by_ (w + 1) 32
    | .vand .. | .vor .. | .vxor .. => by_ w 32
    | .vshl .. | .vshr .. => (w + 1, 0)
    | .vcmp .. => by_ (w + 1) 96
    | .vselect .. => by_ (max wa wd) 32
    | .vexp2 .. | .vlog2 .. => (768, 0)
    | .vrcp .. => (640, 0)
    | .vrsq .. => (704, 0)
    | .vcvt .. => (wa + wd + 4 + (if fp || isFP v.cd then 96 else 0) + 32 * bnat v.gd, 0)
    | .vred .. => if v.cmd.toNat % 4 = 0 then by_ (10 * wa + 60) 400 else by_ (10 * wa + 10) 330
    | .vscan .. => by_ (11 * (wd + 1)) 3520
    | .vtopk .. => (16 * (wa + 2), 4 * (v.cmd.toNat % 64 + 1))
    | .vcompact .. => (wa + 4, (wd + 2) * e)
    | .vexpand .. => (wd + 4, (wa + 2) * e)
    | .vgather .. | .vscatter .. => (64 * (wa + 1) + wb, 0)
    | .vfill .. => (wd + 1, 0)
    | .vcopy .. => (wa + bnat (v.ca == 1) + bnat v.ga + 2, 0)
    | .vplane .. => (wa + wd + 2, 0)
    | .vrand .. => (160, 0)
    | .vamaxh .. => (if fp then 40 else wa + 8, 0)
    | .unpackT5 .. => (26 + wd + 2, 0)
    | _ => (0, 0)

/-- The cycles of a vector command outside its blocks: the 6 of R230, and those of VTOPK that no block has. -/
def vecFixed (c : Released) : Nat := 6 + (vecCost c.i 0).2
/-- The cycles a vector command has left after `k` blocks; E counts every destination (VCOMPACT) or source (VEXPAND)
block that the first `n1` lanes have not touched, since how many it will touch is not known before. -/
def vecLeft (c : Released) (k n1 : Nat) : Nat :=
  let rest := fun (n : Nat) => cdiv n 1024 - cdiv (min n1 n) 1024
  let e := match c.i with
    | .vcompact .. => rest (nelem (opNat c 2)) | .vexpand .. => rest (nelem (opNat c 0)) | _ => 0
  let (cost, ex) := vecCost c.i e
  (cdiv (vecCount c) 1024 - k) * cost + ex - (vecCost c.i 0).2
/-- A started vector command: what is left of the start or the block it is in, and the blocks behind it (R223). -/
def vecRunLeft (r : VecRun) (now : Nat) : Nat := r.till - now + vecLeft r.cmd r.blk r.acc.n1

/-- Widths of a precision-pair register (R249). -/
def ppWa (p : BitVec 64) : Nat := bits p.toNat 3 0 + 1
def ppWb (p : BitVec 64) : Nat := bits p.toNat 9 6 + 1

/-- Cost of a matrix command not yet started (Table 10.3, R264). -/
def matCost (co : Core) (i : Instr) : Nat :=
  match i with
  | .ppSet .. | .sclSet .. | .lbdCfg .. | .accStat .. => 2
  | .sclDerive .. => 8
  | .accArm .. => 4
  | .accRel .. => 98
  | .accClr .. => 64
  | .accSave .. | .accLoad .. => 512
  | .mmp _ pp _ _ _ ns => 14 + (ns.toNat + 1) * ppWa (co.pp.get pp.toNat 0) * ppWb (co.pp.get pp.toNat 0)
  | .mmpE _ _ _ _ _ ns => 14 + (ns.toNat + 1)
  | _ => 0
def mmpNode : Instr → Option Nat
  | .mmp _ _ n _ _ _ | .mmpE _ _ n _ _ _ => some n.toNat
  | _ => none
/-- The slabs of an MMP or MMP.E. -/
def mmpSlabs : Instr → Nat
  | .mmp _ _ _ _ _ ns | .mmpE _ _ _ _ _ ns => ns.toNat + 1
  | _ => 0
/-- The cycles with which a matrix command begins: the fixed ones of an MMP, those of ACC.REL before its release, all of any other
(Table 10.3, R264). -/
def matFixed (co : Core) (i : Instr) : Nat :=
  match i with
  | .mmp .. | .mmpE .. => 14
  | .accRel .. => 2
  | i => matCost co i
/-- The matrix engine has worked what it began (R264). -/
def MatRun.free (r : MatRun) (now : Nat) : Bool := match r.till with | some t => decide (t ≤ now) | none => true
/-- The cycles that a started matrix command has left, but for a release that it makes due (R272); ACC.REL's is its own. -/
def matLeft (co : Core) (r : MatRun) (now : Nat) : Nat :=
  let rest := match r.cmd.i with
    | .mmp _ pp _ _ _ ns =>
      let p := if r.started then r.pp else co.pp.get pp.toNat 0
      (ns.toNat + 1 - r.slab) * (ppWa p * ppWb p)
    | .mmpE _ _ _ _ _ ns => ns.toNat + 1 - r.slab
    | .accRel _ n => if (Sp.get co.nodes n.toNat {}).armed then 96 else 0
    | _ => 0
  (match r.till with | some t => t - now | none => matFixed co r.cmd.i) + if r.rel.isSome then 0 else rest
/-- A started MMP or MMP.E stands between two slabs, or has not reached the first (R271). -/
def matAtSlab (r : MatRun) (now : Nat) : Bool :=
  r.rel.isNone && (r.slab == 0 || r.waitW.isSome || r.free now) && decide (r.slab < mmpSlabs r.cmd.i)

/-- The counts of a nest descriptor: U of R279. -/
def nestU (ws : List (BitVec 64)) : Nat :=
  let nd := bits (nthD ws 0 0).toNat 2 0
  (List.range nd).foldl (fun u d => u * (bits (nthD ws (1 + 2 * d) 0).toNat 63 48 + 1)) 1
/-- Unit bytes and elements per unit of a memory format (Table 11.5). -/
def fmtUnit (fmt : Nat) : Nat × Nat :=
  match fmt with
  | 0x01 | 0x02 => (1, 2)
  | 0x05 | 0x06 | 0x0E => (2, 1)
  | 0x0F | 0x10 => (4, 1)
  | 0x07 => (1, 4)
  | 0x08 => (1, 5)
  | 0x09 => (1, 8)
  | 0x0C => (33, 32)
  | 0x0D => (17, 32)
  | _ => (1, 1)

/-- Integrator command costs (Table 12.5). -/
def ddaCost (i : Instr) : Nat :=
  match i with
  | .ddaPatch _ _ n l => 8 + (n.toNat + 1) + 16 * bnat l
  | .ddaLdy _ _ n | .ddaLdr _ _ n | .ddaRead _ _ n => 4 + n.toNat + 1
  | .ddaTap .. => 4
  | .ddaSave .. | .ddaRestore .. => 96
  | _ => 2

/-! ## Engine queues -/

/-- The engine's bit in a task's engine set (R412). -/
def Eng.bit : Eng → Nat | .vec => 0 | .mat => 1 | .cpy _ => 2 | .dda => 3
/-- Its number among the seven engines of a core. -/
def Eng.no : Eng → Nat | .vec => 0 | .mat => 1 | .dda => 2 | .cpy k => 3 + k

def engQ (co : Core) : Eng → List EngCmd
  | .vec => co.vecQ
  | .mat => co.matQ
  | .cpy k => (co.streams.get k {}).queue
  | .dda => co.dda.queue
def setEngQ (co : Core) (e : Eng) (q : List EngCmd) : Core :=
  match e with
  | .vec => { co with vecQ := q }
  | .mat => { co with matQ := q }
  | .cpy k => { co with streams := co.streams.put k { co.streams.get k {} with queue := q } }
  | .dda => { co with dda := { co.dda with queue := q } }
def engCap : Eng → Nat | .cpy _ => Config.cpyQueue | _ => Config.engQueue
/-- A control command that waits among a stream's commands: it is none of the queue's. -/
def isControl (c : EngCmd) : Bool := (controlStream c.i).isSome
/-- Commands in a queue. -/
def engLen (co : Core) (e : Eng) : Nat := ((engQ co e).filter fun c => !isControl c).length
def allEngs : List Eng := [.vec, .mat, .cpy 0, .cpy 1, .cpy 2, .cpy 3, .dda]

/-- The commands of a section that wait, by engine, in order: queue first, then the token buffer. -/
def secCmds (co : Core) (sec : Nat) : List (Eng × EngCmd) :=
  (allEngs.flatMap fun e => ((engQ co e).filter (·.sec == some sec)).map fun x => (e, x))
  ++ co.tbuf.filterMap fun b => match b.e with | .cmd e x => if x.sec = some sec then some (e, x) else none | _ => none
def secNodes (co : Core) (sec : Nat) : List (Nat × Node) := List.filter (fun (n : Nat × Node) => n.2.armed && n.2.sec == some sec) co.nodes
def secStreams (co : Core) (sec : Nat) : List (Nat × CpyRun) :=
  co.streams.filterMap fun e => match e.2.cur with | some r => if r.cmd.sec = some sec then some (e.1, r) else none | none => none
def secDoms (co : Core) (sec : Nat) : List (Nat × Dom) := List.filter (fun (d : Nat × Dom) => d.2.run && d.2.sec == some sec) co.dda.doms
def secTaps (co : Core) (sec : Nat) : List (Nat × Tap) := (secDoms co sec).flatMap fun d => domTaps co.dda d.1
/-- A section uses an engine while a command, an armed node, a stream or a running domain of it is there. -/
def secUsesEng (co : Core) (sec : Nat) (e : Eng) : Bool :=
  (secCmds co sec).any (fun x => x.1 == e) ||
  match e with
  | .vec => (match co.vec with | some r => r.cmd.sec == some sec | none => false)
  | .mat => (match co.mat with | some r => r.cmd.sec == some sec | none => false) || secNodes co sec != []
  | .cpy k => (secStreams co sec).any fun x => x.1 == k
  | .dda => secDoms co sec != []
/-- The engines that a section uses. -/
def secEngs (co : Core) (sec : Nat) : List Eng := allEngs.filter (secUsesEng co sec)
/-- While a section of class k is checkpointed, the engines it used accept no command of a class numerically k or above (R414); the
same from the choice on. -/
def engBlocked (co : Core) (e : Eng) (cls : Nat) : Bool :=
  co.ckpts.any (fun k => k.engs.contains e && decide (k.sec.cls ≤ cls))
    || co.secs.any fun x => x.saveTo.isSome && decide (x.cls ≤ cls) && secUsesEng co x.ser e

/-- A command enters its engine's queue, or the token buffer when the queue is full, closed to it, or has earlier
commands waiting there (R217). (DEDUCED, log 23) -/
def enqCmd (s : State) (c : Nat) (e : Eng) (cmd : EngCmd) : State :=
  let co := s.core c
  let waiting := co.tbuf.any fun b => match b.e with | .cmd e' x => e' == e && !engBlocked co e x.cls | _ => false
  if engBlocked co e cmd.cls ∨ waiting ∨ engLen co e ≥ engCap e then tbufAdd s c (.cmd e cmd)
  else s.setCore c (setEngQ co e (engQ co e ++ [cmd]))

/-- The first command in the token buffer that an engine's queue can take, and the buffer without it: one that is in the overflow area
or not in yet holds up those behind it (R206, R207, R217). -/
def takeCmd (co : Core) (e : Eng) : List TBuf → Option (EngCmd × List TBuf)
  | [] => none
  | b :: l =>
    let go := (takeCmd co e l).map fun r => (r.1, b :: r.2)
    match b.e with
    | .cmd e' x => if e' ≠ e ∨ engBlocked co e x.cls then go else if b.place.away then none else some (x, l)
    | _ => go
/-- Queues refill from the token buffer in order. -/
def engRefill (co : Core) (e : Eng) : Core :=
  if engLen co e ≥ engCap e then co
  else match takeCmd co e co.tbuf with
    | none => co
    | some (x, l) => setEngQ { co with tbuf := l } e (engQ co e ++ [x])

/-! ## Sections -/

/-- Everything the section released has ended (R410). -/
def secOver (co : Core) (sec : Nat) : Bool := secEngs co sec == [] && !(co.ckpts.any fun k => k.sec.ser == sec)

/-- Words of a nest descriptor as they stand. -/
def nestWords (s : State) (c w : Nat) : List (BitVec 64) := (List.range 12).map fun k => (getWord s.mem (wordKey c (w + k))).d
/-- Step cost and number of steps of a copy command with a nest (R287). -/
def cpyCost (i : Instr) (nest : List (BitVec 64)) : Nat × Nat :=
  match i with
  | .cpyStream .. => (1, nestU nest)
  | .cpyPlanes _ _ _ _ _ _ mat _ wd _ code g _ => ((gw wd code + bnat (code == 1) + 1) * (if mat then 2 else 1) + bnat g, nestU nest)
  | .cpyConv _ _ _ _ _ _ fmt wd code g _ _ =>
    let epu := (fmtUnit fmt.toNat).2
    (gw wd code + bnat (code == 1) + 2 + bnat g, cdiv (nestU nest * epu) 32)
  | _ => (0, 0)

/-- The releases that are due or will be among a section's commands, each of 96 cclk (R272): the commands in their order, arming,
loading and counting each node, an image as its words stand; an ACC.REL's is in its own cost. -/
def nodeRels (m : List Host.Cell) (c n : Nat) : Option Nat → List EngCmd → Nat
  | _, [] => 0
  | cur, r :: l =>
    match r.i, cur with
    | .accArm _ k .., none => nodeRels m c n (if k.toNat = n then some (bits (opNat r 0) 47 32) else none) l
    | .accLoad _ k, none =>
      let w := (getWord m (wordKey c (opNat r 0 % 2 ^ 17))).d.toNat
      if k.toNat = n ∧ bit w 0 then
        (if bit w 19 then 1 + nodeRels m c n none l else nodeRels m c n (some (bits w 47 32)) l)
      else nodeRels m c n none l
    | .accRel _ k, _ | .accClr _ k, _ => nodeRels m c n (if k.toNat = n then none else cur) l
    | .accSave _ k clr, _ => nodeRels m c n (if k.toNat = n ∧ clr then none else cur) l
    | i, some x => if mmpNode i = some n then (if x = 1 then 1 + nodeRels m c n none l else nodeRels m c n (some (x - 1)) l) else nodeRels m c n cur l
    | _, none => nodeRels m c n none l
/-- A release that has begun is no longer due. -/
def secRels (m : List Host.Cell) (co : Core) (c sec : Nat) (cmds : List EngCmd) : Nat :=
  let begun := co.mat.bind (·.rel)
  natSum ((List.range 4).map fun n =>
    let nd := Sp.get co.nodes n {}
    if begun == some n then nodeRels m c n none cmds
    else if nd.armed && nd.sec == some sec then (if nd.due then 1 + nodeRels m c n none cmds else nodeRels m c n (some nd.count) cmds)
    else nodeRels m c n none cmds)
/-- Remaining cycles of a section, none when it has a running unbounded domain (R412). (DEDUCED, log 20) -/
def secRem (s : State) (c sec : Nat) : Option Nat :=
  let co := s.core c
  let cmds := secCmds co sec
  let now := coreCclk s c
  let vec := (match co.vec with | some r => if r.cmd.sec = some sec then vecRunLeft r now else 0 | none => 0)
  let mat := (match co.mat with | some r => if r.cmd.sec = some sec then matLeft co r now else 0 | none => 0)
  let run := match co.mat with | some r => if r.cmd.sec = some sec && r.rel.isNone then [r.cmd] else [] | none => []
  let due := 96 * secRels s.mem co c sec (run ++ (cmds.filter fun x => x.1 == .mat).map (·.2))
  let steps := fun (r : EngCmd) => let k := cpyCost r.i (nestWords s c (opNat r 2 % 2 ^ 17)); k.1 * k.2
  let cpy := natSum ((secStreams co sec).map fun x =>
    if x.2.paused then 0 else if !x.2.started then steps x.2.cmd else let k := cpyCost x.2.cmd.i x.2.nest; (k.2 - x.2.step) * k.1)
  let queued := natSum (cmds.map fun x => match x.1 with
    | .vec => vecFixed x.2 + vecLeft x.2 0 0
    | .mat => matCost co x.2.i
    | .cpy _ => if isControl x.2 then 0 else 8 + steps x.2
    | .dda => ddaCost x.2.i)
  let doms := (secDoms co sec).map (·.2)
  if doms.any (·.limit == 0) then none
  else some (vec + mat + due + cpy + queued + natSum (doms.map fun d => d.limit * d.d))

/-- Ck of R412. -/
def secCk (co : Core) (sec : Nat) : Nat :=
  512 * (secNodes co sec).length + 64 * (secStreams co sec).length + 96 * (secDoms co sec).length
/-- El of R410. -/
def secEl (s : State) (c : Nat) (x : Section) : Nat :=
  match x.start with | some t => coreCclk s c - t - x.idle | none => 0

/-- The engines are not free for others before a cclk (R413). -/
def engsFrom (co : Core) (es : List Eng) (t : Nat) : Core :=
  { co with engFree := es.foldl (fun m e => Sp.put m e.no (max t (Sp.get m e.no 0))) co.engFree }
/-- Without the section's commands, nodes, streams and domains. The vector command that runs stays (R223). A domain that a checkpoint
has saved shows SAVED as the reason of its stop (R310). (DEDUCED, log 109) -/
def secStrip (co : Core) (sec : Nat) (saved : Bool) : Core :=
  let keep := fun (q : List EngCmd) => q.filter (·.sec != some sec)
  let l := co.tbuf.filter fun b => match b.e with | .cmd _ x => x.sec != some sec | _ => true
  let stream := fun (e : Nat × Stream) =>
    (e.1, { e.2 with queue := keep e.2.queue, cur := match e.2.cur with | some r => if r.cmd.sec = some sec then none else some r | none => none })
  let node := fun (e : Nat × Node) => if e.2.armed && e.2.sec == some sec then (e.1, { nfault := e.2.nfault, lastf := e.2.lastf }) else e
  let dom := fun (e : Nat × Dom) =>
    if e.2.run && e.2.sec == some sec then (e.1, ({ d := e.2.d, steps := e.2.steps, lastr := if saved then 0x12 else e.2.lastr, lastcell := if saved then 0 else e.2.lastcell } : Dom)) else e
  let taps := secTaps co sec
  let tap := fun (e : Nat × Tap) => if taps.any (·.1 == e.1) then (e.1, {}) else e
  { co with
    vecQ := keep co.vecQ, matQ := keep co.matQ, tbuf := l
    mat := match co.mat with | some r => if r.cmd.sec = some sec then none else some r | none => none
    nodes := co.nodes.map node
    streams := co.streams.map stream
    dda := { co.dda with queue := keep co.dda.queue
                         waitW := match co.dda.queue with | r :: _ => if r.sec = some sec then none else co.dda.waitW | [] => none
                         doms := co.dda.doms.map dom, taps := co.dda.taps.map tap } }

def dropSec (co : Core) (sec : Nat) : Core := { co with secs := co.secs.filter (·.ser != sec) }

/-- Kill (R413): the engines let go, the held frame is queued again with its arrival tick, or freed when a free waits for
it (R151). Answers the record that returns. -/
def secKill (s : State) (c : Nat) (x : Section) : State × List TRec :=
  let s := (secDoms (s.core c) x.ser).foldl (fun s d => domQuiet s c d.1) s
  let s := s.modCore c fun co => engsFrom (dropSec (secStrip co x.ser false) x.ser) (secEngs co x.ser) (coreCclk s c + 4)
  let s := s.modDie (coreDie c) fun di => { di with kills := hold (di.kills + 1) 0xFFFF }
  if !x.held then (s, [])
  else if (s.core c).freeAfter.contains x.fp then (freeDeferred s x.fp, [])
  else
    let s := setFrameState s x.fp stQueued
    let r := mkRec s x.fp x.tick
    (rawReturn s c r, [r])

/-- The cells of a domain (R318): those whose configuration word names it. -/
def domCells (a : Dda) (d : Nat) : List (Nat × DCell) := ((List.range 256).map fun k => (k, a.cell k)).filter fun e => cellDom e.2.cfg == d

/-- The started command of the matrix engine lets a section be saved: an MMP comes to its next slab boundary, any other runs to its
end (R271). -/
def ckptReady (co : Core) (sec now : Nat) : Bool :=
  match co.mat with
  | some m => (m.cmd.sec != some sec || matAtSlab m now) && !(m.rel.any fun n => (Sp.get co.nodes n {}).sec == some sec)
  | none => true
/-- The addresses of the 64 pages of checkpoint record r of a core (R415). -/
def ckptPages (s : State) (c r : Nat) : List Nat :=
  let base := bits (s.die (coreDie c)).ckpt.toNat 47 12 * 4096 + (4 * (c % 128) + r) * 2 ^ 18
  (List.range 64).map fun k => base + 4096 * k
/-- A page of a checkpoint record is written or read, through the cache of its home. -/
def ckptPage (c : Nat) (write : Bool) (s : State) (va : Nat) : State :=
  match xlateAt s (corePart s c) va true with
  | (s, .ok l) =>
    let s := llcRange s (corePart s c) l.key 4096 write
    if write then addImage (kvDamage (s.setMem (poisonRange s.mem l.key 4096 false)) l.key 4096) l.key 4096 else s
  | (s, .error _) => s
/-- Checkpoint (R413): what the section holds goes to a record of the core; a release that has not begun stands in its node (R268),
reads of a stream that went ahead are not kept (R294). (DESIGN CHOICE, log 18) -/
def secCkpt (s : State) (c : Nat) (x : Section) (r : Nat) : State :=
  let s := flushStops ((secDoms (s.core c) x.ser).foldl (fun s d => domAnswer s c d.1) s) c
  let s := if Config.savedToken then ((secDoms (s.core c) x.ser).filter (·.2.cv)).foldl (fun s d => s.send (.token (stopToken d.2 c d.1 0x12 0))) s else s
  let s := (ckptPages s c r).foldl (ckptPage c true) s
  let co := s.core c
  let x := { x with choice := .ckpt, saveTo := none }
  let k : Ckpt :=
    { num := r, sec := x, engs := secEngs co x.ser, cmds := secCmds co x.ser
      mat := match co.mat with | some m => if m.cmd.sec = some x.ser then some m else none | none => none
      nodes := secNodes co x.ser, streams := (secStreams co x.ser).map fun e => (e.1, { e.2 with ahead := [] })
      doms := (secDoms co x.ser).map fun d => (d.1, d.2, domCells co.dda d.1)
      taps := secTaps co x.ser, since := coreCclk s c }
  let upd := fun (y : Section) => if y.ser = x.ser then x else y
  let co := engsFrom (secStrip co x.ser true) k.engs (coreCclk s c + secCk co x.ser)
  s.setCore c { co with ckpts := co.ckpts ++ [k], secs := co.secs.map upd }
/-- The choice of a checkpoint in record r: it is made now, or when the started command has ended. -/
def secSave (s : State) (c : Nat) (x : Section) (r : Nat) : State :=
  let s := s.modDie (coreDie c) fun di => { di with ckpts := hold (di.ckpts + 1) 0xFFFF }
  if ckptReady (s.core c) x.ser (coreCclk s c) then secCkpt s c x r
  else
    let upd := fun (y : Section) => if y.ser = x.ser then { y with choice := .ckpt, saveTo := some r } else y
    s.modCore c fun co => { co with secs := co.secs.map upd }
/-- Checkpoints that waited for a started command. -/
def settleCkpts (s : State) (c : Nat) : State :=
  (s.core c).secs.foldl (fun s x => match x.saveTo with
    | some r => if ckptReady (s.core c) x.ser (coreCclk s c) then secCkpt s c x r else s
    | none => s) s

/-- A free checkpoint record of a core whose 64 pages translate (R415); a fault counts as none, and is logged. -/
def ckptFree (s : State) (c : Nat) : State × Option Nat :=
  let d := coreDie c
  let di := s.die d
  let co := s.core c
  if !bit di.ckpt.toNat 0 then (s, none)
  else match (List.range 4).find? (fun r => !(co.ckpts.any (·.num == r)) && !(co.secs.any (·.saveTo == some r))) with
    | none => (s, none)
    | some r =>
      let one := fun (a : State × Option (Nat × Nat)) va => match a with
        | (s, some f) => (s, some f)
        | (s, none) => (match xlateAt s (corePart s c) va true with | (s, .ok _) => (s, none) | (s, .error e) => (s, some (va, e)))
      match (ckptPages s c r).foldl one (s, none) with
      | (s, none) => (s, some r)
      | (s, some (va, e)) =>
        let s := if e = rsNoWrite then s else s.modDie d fun di => { di with faults := hold (di.faults + 1) 0xFFFF }
        ((logRec s d 0 (c % 128) 3 0 [BitVec.ofNat 64 va, BitVec.ofNat 64 e]).1, none)

/-- A section drains for a record of a class; it counts once. -/
def secDrain (s : State) (c : Nat) (x : Section) (cls : Nat) : State :=
  let s := if x.choice = .drain then s else s.modDie (coreDie c) fun di => { di with drains := hold (di.drains + 1) 0xFFFF }
  let upd := fun (y : Section) => if y.ser = x.ser then { y with choice := .drain, rank := cls } else y
  s.modCore c fun co => { co with secs := co.secs.map upd }

/-- The decision of R412 for one section and a record of a class. Answers the record that a kill returns. -/
def secDecide (s : State) (c : Nat) (x : Section) (cls : Nat) : State × List TRec :=
  let co := s.core c
  let small := match secRem s c x.ser with | some r => decide (r ≤ co.drainLim.toNat % 2 ^ 32) | none => false
  if small then (secDrain s c x cls, [])
  else if x.restart ∧ secEl s c x ≤ secCk co x.ser then secKill s c x
  else match ckptFree s c with
    | (s, some r) => (secSave s c x r, [])
    | (s, none) => (secDrain s c x cls, [])

/-- A record of a class is appended to a core's queue: each section of a class numerically above it that uses one of its
engines is decided, one that drains only for a class still higher (R412). -/
def decideFor (s : State) (c : Nat) (r : TRec) : State × List TRec :=
  match taskOf (s.core c) r.task with
  | none => (s, [])
  | some t =>
    ((s.core c).secs.filter fun x => decide (x.cls > r.cls) && (x.choice == .none || (x.choice == .drain && decide (r.cls < x.rank)))).foldl
      (fun (a : State × List TRec) x =>
        if (secEngs (a.1.core c) x.ser).any (fun e => bit t.engs e.bit) then
          let (s, l) := secDecide a.1 c x r.cls
          (s, a.2 ++ l)
        else a) (s, [])
/-- The same for records in their order, and for those that kills return; each kill ends a section, which bounds the fuel. -/
def preemptAll : Nat → State → Nat → List TRec → State
  | 0, s, _, _ => s
  | _, s, _, [] => s
  | n + 1, s, c, r :: l => let (s, l') := decideFor s c r; preemptAll n s c (l ++ l')
def preempt (s : State) (c : Nat) (r : TRec) : State := preemptAll ((s.core c).secs.length + 1) s c [r]

/-- A record that the scheduler returns (R127), which is appended as well. -/
def returnRec (s : State) (c : Nat) (r : TRec) : State := preempt (rawReturn s c r) c r
/-- A record is appended: the queue or a ring takes it (R200), and the scheduler decides (R412). -/
def appendRec (s : State) (c : Nat) (r : TRec) : State := preempt (rawAppend s c r) c r

/-- The first command of a section starts (R410). -/
def secStart (s : State) (c : Nat) (sec : Option Nat) : State :=
  match sec with
  | none => s
  | some n =>
    let t := coreCclk s c
    let upd := fun (y : Section) => if y.ser = n ∧ y.start = none then { y with start := some t } else y
    s.modCore c fun co => { co with secs := co.secs.map upd }

end Sys2Proof.Machine
end

