-- ==== Sys2Proof/Machine/Frames.lean ====
section
/-! DEFINITION. Readiness, token delivery, refill of slots, the trace ring, and what a core settles between two acts. -/

namespace Sys2Proof.Machine

/-! ## The trace ring (R449, R450) -/

/-- The records that the ring of a die has to write are written in order, the first that meets a held slot of the block store waiting
there with all behind it (R372). -/
def traceGo (s : State) (d : Nat) : Nat → State
  | 0 => s
  | n + 1 =>
    match (s.die d).trace.wait with
    | [] => s
    | (loc, w0, w1) :: l =>
      match kvRoute s loc true (some (.trace d)), loc.slot with
      | some (s, loc), _ =>
        let s := llcWrite (physWrite (physWrite s loc.key w0 8 false) (loc.key + 8) w1 8 false) (diePart s d) loc.key
        traceGo (s.modDie d fun di => { di with trace := { di.trace with wait := l } }) d n
      | none, some (d', slot) => kvHold s d' slot true (.trace d)
      | none, none => s
/-- One 16-byte record takes the ring's next place; it counts as lost when the ring is full or the place does not translate.
(DESIGN CHOICE, log 13) -/
def tracePut (s : State) (d : Nat) (w0 w1 : Nat) : State :=
  let t := (s.die d).trace
  let lost := fun (s : State) => s.modDie d fun di => { di with trace := { t with lost := t.lost + 1 } }
  if t.head ≥ 2 ^ (bits t.ctl.toNat 51 48 + 12) then lost s
  else match xlateAt s (diePart s d) (bits t.base.toNat 47 12 * 4096 + 16 * t.head) true with
    | (s, .error _) => lost s
    | (s, .ok loc) =>
      let s := s.modDie d fun di => { di with trace := { t with head := t.head + 1, wait := t.wait ++ [(loc, w0, w1)] } }
      traceGo s d (t.wait.length + 1)

def traceWord (kind core delta a : Nat) : Nat := kind * 2 ^ 60 + core % 128 * 2 ^ 53 + delta * 2 ^ 32 + a % 2 ^ 32
def traceAbs (s : State) (d cause : Nat) : State :=
  let s := tracePut s d (traceWord 0 0 0 cause) s.tick
  s.modDie d fun di => { di with trace := { di.trace with last := s.tick, abs := none } }
/-- The LOST record that the next record written follows, with its ABS of cause 0. -/
def traceLost (s : State) (d : Nat) : State :=
  let t := (s.die d).trace
  let s := tracePut s d (traceWord 6 0 0 t.lost) 0
  traceAbs (s.modDie d fun di => { di with trace := { di.trace with lost := 0 } }) d 0

/-- A record of a kind, an ABS before it where R450 asks for one, and after a loss LOST and ABS first. -/
def traceRec (s : State) (d core kind a b : Nat) : State :=
  let t := (s.die d).trace
  if !bit t.ctl.toNat 63 then s
  else if t.head ≥ 2 ^ (bits t.ctl.toNat 51 48 + 12) then s.modDie d fun di => { di with trace := { t with lost := t.lost + 1 } }
  else
    let s := if t.lost = 0 then s else traceLost s d
    let t := (s.die d).trace
    let s := match t.abs with
      | some k => traceAbs s d k
      | none => if s.tick - t.last > 65535 then traceAbs s d 1 else s
    let delta := s.tick - (s.die d).trace.last
    let s := tracePut s d (traceWord kind core delta a) b
    s.modDie d fun di => { di with trace := { di.trace with last := s.tick } }

/-! ## Readiness (R109) -/

/-- The LOOPSRC hold: mode 0 with a spill outstanding, and a task with LOOPSRC. -/
def loopHold (s : State) (fp : Nat) : Bool :=
  let co := s.core (fpCore fp)
  !modeWalk co && spilled co != 0 &&
    (match taskBlk s (fpCore fp) (frameTask s fp) with | some b => b.hdr.loopsrc | none => false)

/-- A WAITING frame at MISSING = 0 is queued, or held (R109). -/
def makeReady (s : State) (fp : Nat) : State :=
  let c := fpCore fp
  if loopHold s fp then
    s.modCore c fun co => if co.loopHeld.contains fp then co else { co with loopHeld := co.loopHeld ++ [fp] }
  else
    let s := setFrameState s fp stQueued
    appendRec s c (mkRec s fp s.tick)

/-- R109 applies: queue the frame when it is WAITING and nothing is missing. -/
def checkReady (s : State) (fp : Nat) : State :=
  if frameAlloc s fp && frameState s fp == stWaiting && frameMissing s fp == 0 then makeReady s fp else s

/-! ## Tokens (R106, R108) -/

/-- Is the frame inside its commit (R110)? -/
def committing (s : State) (fp : Nat) : Bool :=
  (s.core (fpCore fp)).slots.any fun o => match o with
    | some f => f.fp == fp && (match f.phase with | .taking => true | .fencing _ _ => true | _ => false)
    | none => false

/-- The head of a slot's queue. -/
def slotHead (l : List TBuf) (fp slot : Nat) : Option TBuf := l.find? fun b => entryFor fp b.e == some slot && (match b.e with | .token _ => true | _ => false)

/-- A token is delivered (R106): it fills an empty slot or joins the slot's queue; a stray is counted (R108). -/
def deliver (s : State) (t : Token) : State :=
  let c := fpCore t.fp
  if !corePresent s c then (match t.src with | some k => stray s k t.fp t.slot | none => s)
  else if !frameAlloc s t.fp || decide (t.slot ≥ frameSize s t.fp) then stray s c t.fp t.slot
  else if !(slotWord s t.fp t.slot).f && (slotHead (s.core c).tbuf t.fp t.slot).isNone then
    checkReady (recount (setSlot s t.fp t.slot t.v) t.fp) t.fp
  else tbufAdd s c (.token t)

/-- An empty slot takes the head of its queue, unless that is still in the overflow area (R106, R206). -/
def refillSlot (s : State) (fp n : Nat) : State :=
  if (slotWord s fp n).f then s
  else
    let co := s.core (fpCore fp)
    match slotHead co.tbuf fp n with
    | some ⟨.token t, .pool, _, _, _⟩ | some ⟨.token t, .walk, _, _, _⟩ =>
      let l := dropFirst (fun b => entryFor fp b.e == some n && (match b.e with | .token _ => true | _ => false)) co.tbuf
      setSlot (s.setCore (fpCore fp) { co with tbuf := l }) fp n t.v
    | _ => s
def refillFrame (s : State) (fp : Nat) : State :=
  recount ((List.range (frameSize s fp)).foldl (fun s n => refillSlot s fp n) s) fp

/-- The frames that have tokens queued for an empty slot and may take them. -/
def wantsFill (s : State) (c : Nat) : List Nat :=
  (s.core c).tbuf.filterMap fun b => match b.e with
    | .token t => if frameAlloc s t.fp && !(slotWord s t.fp t.slot).f && !b.place.away && !committing s t.fp then some t.fp else none
    | _ => none

/-- A woken frame's record is appended with a new tick (R123). -/
def wakeFrame (s : State) (fp : Nat) : State :=
  if frameAlloc s fp && frameState s fp == stParked then
    let s := setFrameState s fp stQueued
    appendRec s (fpCore fp) (mkRec s fp s.tick)
  else s

/-- A frame reserved by FALLOC is activated (R150). -/
def activate (s : State) (fp task cls parent : Nat) : State :=
  let c := fpCore fp
  match (s.core c).reserved.find? (fun r => r.1 == fpWord fp) with
  | none => s
  | some r =>
    let node := match taskBlk s c task with | some b => b.hdr.node | none => 0
    let s := s.modCore c fun co => { co with reserved := co.reserved.filter fun q => q.1 != fpWord fp }
    checkReady (allocFrame s fp (r.2 - 4) task cls parent node) fp

/-! ## Between two acts -/

/-- A firing of the core is inside its commit. -/
def commitBusy (co : Core) : Bool :=
  co.slots.any fun o => match o with
    | some f => (match f.phase with | .taking => true | .fencing _ _ => true | _ => false)
    | none => false

/-- A barrier's answers to waiters that stood in the overflow area go out as these have moved back (R206). -/
def lateAnswers (s : State) (c : Nat) : State :=
  let go := fun (b : TBuf) => b.ans.isSome && !b.place.away
  let co := s.core c
  (co.tbuf.filter go).foldl (fun s b => match b.e, b.ans with
    | .barWait _ _ _ fp slot, some v | .podWait _ _ _ fp slot, some v => s.send (.token { fp, slot, v, src := some c })
    | _, _ => s) (if co.tbuf.any go then s.setCore c { co with tbuf := co.tbuf.filter fun b => !go b } else s)
/-- What waits in memory comes back to a core: writes that now translate, then spilled entries and waiters (R206, R365). -/
def settleSpills (s : State) (c : Nat) : State :=
  let s := devGo s c (s.core c).dev.length
  let s := tbufIn (tbufBack s c (s.core c).tbuf.length) c (s.core c).tbuf.length
  lateAnswers (waitersBack s c (s.core c).waiters.length) c

/-- What a core settles at once: spilled entries move back (R206), queued tokens fill empty slots (R106), held frames are released when the spill clears
(R109), the queue refills from its rings (R200), engine queues from the token buffer (R217), a held TQ_BASE write takes
effect (R200), sections that are over end (R410, R411), a core whose residents have ended halts (R193). -/
def settleCore (s : State) (c : Nat) : State :=
  let s := settleSpills s c
  let s := (wantsFill s c).foldl (fun s fp => checkReady (refillFrame s fp) fp) s
  let co := s.core c
  let s := if co.loopHeld ≠ [] ∧ (modeWalk co ∨ spilled co = 0) then
      co.loopHeld.foldl makeReady (s.setCore c { co with loopHeld := [] }) else s
  let s := ringRefill s c Config.queueMax
  let s := s.modCore c fun co => allEngs.foldl engRefill co
  let s := if (s.core c).secs.any (·.saveTo.isSome) then settleCkpts s c else s
  let co := s.core c
  let s := if co.tqHeld.isSome && ringsEmpty co then raiseOnce s (.tqBaseApply c) else s
  let s := co.secs.foldl (fun s x =>
    if secOver (s.core c) x.ser then
      (if x.held then (if commitBusy (s.core c) then s else raiseOnce s (.sectionEnd c x.ser)) else s.modCore c fun co => dropSec co x.ser)
    else s) s
  let co := s.core c
  let s := if co.pend ≠ [] ∧ co.tframes.length < 4 then raiseOnce s (.handlerActivation c) else s
  let co := s.core c
  if co.halting && co.slots.all (·.isNone) then
    let s := s.setCore c { co with halting := false, mode := if co.mode = 2 then 2 else 1 }
    dieEvent s (coreDie c) (c % 128) 0x02 0 noIdx
  else s

/-- A bank of commons or scratchpad may gate (R360, R453). -/
def settleDie (s : State) (d : Nat) : State :=
  let di := s.die d
  di.gateReq.foldl (fun s b =>
    if di.gated.contains b ∨ di.waiters.any (fun w => keyBank w.key == b) then s else raiseOnce s (.bankGated none d b)) s
def settleGates (s : State) (c : Nat) : State :=
  let s := if (s.core c).gateReq = [] && (s.core c).gated = [] then s else keepFrames s c
  let co := s.core c
  co.gateReq.foldl (fun s b =>
    if co.gated.contains b ∨ co.waiters.any (fun w => w.key % 2 ^ 20 / 65536 == b) then s
    else raiseOnce s (.bankGated (some c) (coreDie c) b)) s

/-- Everything settles after an act. -/
def settle (s : State) : State :=
  let s := (s.cores.map (·.1)).foldl (fun s c => settleGates (settleCore s c) c) s
  (s.dies.map (·.1)).foldl settleDie s

end Sys2Proof.Machine
end

