-- ==== Sys2Proof/Machine/Operands.lean ====
section
/-! DEFINITION. Inside a firing: operand positions, predicates, deliveries, what may execute (R66 to R70, R112 to R116). -/

namespace Sys2Proof.Machine

/-! ## Deliveries -/

/-- What a position has received: nothing, a null token, a value. -/
def delAt (f : Firing) (t : Target) : Option (Option Val) := (f.dels.find? (·.1 == t)).map (·.2)
/-- The target with an instruction index of a kind. -/
def posA (n : Nat) : Target := if h : n < 128 then .opA ⟨n, h⟩ else .none
def posB (n : Nat) : Target := if h : n < 128 then .opB ⟨n, h⟩ else .none
def posP (n : Nat) : Target := if h : n < 128 then .pred ⟨n, h⟩ else .none

/-- The operand positions that an instruction at index n takes, A, B and C in order: C is the second word's operand A
(R66). -/
def opPositions (sh : Shape) (n : Nat) : List Target :=
  (if sh.a then [posA n] else []) ++ (if sh.b then [posB n] else []) ++ (if sh.c then [posA (n + 1)] else [])

/-- Everything that an instruction waits for: operands, and the predicate when PRED is 01 or 10 (R112). -/
def allPositions (sh : Shape) (n : Nat) : List Target :=
  opPositions sh n ++ (match sh.pred with | .always => [] | _ => [posP n])

/-- All positions have received a delivery. -/
def arrived (f : Firing) (ps : List Target) : Bool := ps.all fun t => (delAt f t).isSome
/-- Some position has received a null token (R113). -/
def anyNull (f : Firing) (ps : List Target) : Bool := ps.any fun t => delAt f t == some none
/-- The values at positions; a position without a value does not occur where this is used. -/
def valuesAt (f : Firing) (ps : List Target) : List Val :=
  ps.map fun t => match delAt f t with | some (some v) => v | _ => Val.err

/-- One delivery of a read entry to a target: refused when the position has had one (R112). -/
def deliverTo (dels : List (Target × Option Val)) (t : Target) (v : Option Val) : Option (List (Target × Option Val)) :=
  match t with
  | .none => some dels
  | t => if dels.any (·.1 == t) then none else some (dels ++ [(t, v)])

/-! ## Predicates (R69, R70) -/

inductive PredRes where
  | pass | fail | err
deriving DecidableEq, Repr

def predRes (f : Firing) (sh : Shape) (n : Nat) : PredRes :=
  match sh.pred with
  | .always => .pass
  | p => match delAt f (posP n) with
    | some (some v) => if v.x then .err else if bit v.d.toNat 0 = (p == .ifTrue) then .pass else .fail
    | _ => .fail

/-! ## What may execute (R112, R115) -/

/-- The decoded instructions of a firing's block with their first indices. -/
def firingInsns (f : Firing) : List (Nat × Instr) :=
  (insns f.code).filterMap fun e => match decodeWords e.2 with | .ok i => some (e.1, i) | .error _ => none

/-- A load-like instruction executes only after every memory instruction of lower LSID is resolved (R115). -/
def isLoad : Instr → Bool
  | .ldB _ | .ldH _ | .ldW _ | .ldD _ | .ldw _ | .ldt _ | .ldrc _ | .feTest _ => true
  | _ => false
def lsidOf (i : Instr) : Option Nat := i.shape.lsid.map BitVec.toNat
def lsidsResolved (f : Firing) (l : Nat) : Bool :=
  (firingInsns f).all fun e => match lsidOf e.2 with | some k => decide (l ≤ k) || f.lsids.contains e.1 | none => true

/-- The instruction at index n may execute: it has not, it awaits nothing, everything has arrived, and a load's lower
LSIDs are resolved. (DEDUCED, log 8) -/
def ready (f : Firing) (n : Nat) (i : Instr) : Bool :=
  f.phase == .running && !f.done.contains n && !f.walks.contains n && arrived f (allPositions i.shape n)
    && (!isLoad i || anyNull f (allPositions i.shape n) || predRes f i.shape n != .pass
        || match lsidOf i with | some l => lsidsResolved f l | none => true)

/-- The lowest index that everything has arrived for, whenever it may be consumed. -/
def nextReady (f : Firing) : Option Nat := ((firingInsns f).find? fun e => ready f e.1 e.2).map (·.1)

/-- Exits, and instructions that produce an output held to commit (R70): every instruction that produces no value but
TRAP and BRK, and STFX, whose frame write is held. A predicate with X at TRAP or BRK, which have no target, has no effect; at NULL
it delivers an error token. (DEDUCED, log 10) -/
def isHeld (i : Instr) : Bool := match i with | .trap _ | .brk _ => false | .stfx _ => true | i => !i.shape.val

/-! ## Issue (R129, R132, R202, R203) -/

/-- L-format, S-format or opcode 0x62: one a cclk (R203). -/
def memIssue (i : Instr) : Bool := let o := nthD (encodeNat i) 0 0 / 2 ^ 25; decide (0x50 ≤ o ∧ o ≤ 0x62)
/-- The instructions of the divider (R132). -/
def divides : Instr → Bool
  | .div .. | .divn .. | .rem .. | .remn .. | .fdiv _ | .fsqrt _ | .frcp _ | .frsq _ => true
  | _ => false
/-- The cclk from the cycle in which an instruction executes to the first in which its value may be consumed (R129, Tables
6.1 to 6.3 and their chapters); a value from another core comes later. -/
def latency : Instr → Nat
  | .mul .. | .mulh .. | .mulhn .. | .madd .. | .fcvt .. => 3
  | .div w _ | .divn w _ | .rem w _ | .remn w _ => 4 + w.bits / 2
  | .fadd _ | .fsub _ | .fmul _ | .fstat _ => 4
  | .fma _ => 5
  | .falloc .. => 6
  | .frcp _ | .frsq _ => 10
  | .fexp2 _ | .flog2 _ => 12
  | .fdiv _ | .fsqrt _ => 14
  | .ldB _ | .ldH _ | .ldW _ | .ldD _ | .ldw _ | .ldt _ | .ldrc _ | .feTest _ | .ldfx _ | .tick _ | .sysRd .. | .perfRd .. => 2
  | i => if i.shape.val then 1 else 0
/-- The instructions that have delivered, with their targets and the cclk in which their deliveries arrive; one whose predicate
failed is not among them, and one whose answer is awaited is not yet. -/
def producers (f : Firing) : List (Nat × List Target × Nat) :=
  (firingInsns f).filterMap fun e =>
    if f.done.contains e.1 && !f.waits.contains e.1 then (f.due.find? (·.1 == e.1)).map fun d => (e.1, e.2.shape.tgts, d.2) else none
/-- The targets that the read entries deliver to, before every instruction (R112). -/
def readTargets (f : Firing) : List Target := f.reads.flatMap fun r => [r.t1, r.t2]
/-- The deliveries that instructions make to a target: cclk and index. -/
def deliveriesTo (ps : List (Nat × List Target × Nat)) (t : Target) : List (Nat × Nat) :=
  ps.flatMap fun p => (p.2.1.filter (· == t)).map fun _ => (p.2.2, p.1)
/-- The order of deliveries: by cclk, then by index (R112). -/
def earlier (a b : Nat × Nat) : Bool := decide (a.1 < b.1 ∨ (a.1 = b.1 ∧ a.2 ≤ b.2))
/-- The first of some deliveries, and the first behind it. -/
def firstDel (l : List (Nat × Nat)) : Option (Nat × Nat) :=
  l.foldl (fun m a => match m with | some b => if earlier b a then some b else some a | none => some a) none
def secondDel (l : List (Nat × Nat)) : Option (Nat × Nat) :=
  match firstDel l with | some a => firstDel (l.erase a) | none => none
/-- The delivery by which each target that two deliver to is met a second time: cclk, index, target. -/
def doubles (f : Firing) : List (Nat × Nat × Target) :=
  let ps := producers f
  f.twice.filterMap fun t =>
    (if (readTargets f).contains t then firstDel (deliveriesTo ps t) else secondDel (deliveriesTo ps t)).map fun d => (d.1, d.2, t)
/-- The second delivery that traps the firing in a cclk, the first of those that have arrived (R112). -/
def doubleNow (f : Firing) (now : Nat) : Option (Nat × Nat × Target) :=
  ((doubles f).filter fun d => decide (d.1 ≤ now)).foldl (fun m a => match m with
    | some b => if earlier (b.1, b.2.1) (a.1, a.2.1) then some b else some a
    | none => some a) none
/-- The instructions of a firing that are eligible in a cclk, by index: everything has arrived by then (R112, R129). -/
def eligible (f : Firing) (now : Nat) : List (Nat × Instr) :=
  if f.start > now then []
  else
    let ps := producers f
    let come := fun (t : Target) => (readTargets f).contains t || (match firstDel (deliveriesTo ps t) with
      | some d => decide (d.1 ≤ now) | none => true)
    (firingInsns f).filter fun e => ready f e.1 e.2 && (allPositions e.2.shape e.1).all come
/-- No value of the firing is still to come out of a unit (R116). -/
def unitsDone (f : Firing) (now : Nat) : Bool := decide (f.start ≤ now) && f.due.all fun d => decide (d.2 ≤ now)

/-! ## Forwarding (R115) -/

/-- A buffered ST or STF of the firing that writes byte `key` in the same space, with LSID below l: the highest such
LSID's, then the highest index's. -/
def forwardFrom (outs : List Out) (sp : Space) (key l : Nat) : Option Access :=
  (outs.foldl (fun (m : Option (Nat × Nat × Access)) o => match o with
    | .mem lsid idx a =>
      let hit := (match a.op with | .st => true | .stf => true | _ => false) && a.loc.space == sp
        && decide (a.loc.key ≤ key ∧ key < a.loc.key + a.size ∧ lsid < l)
      if !hit then m
      else match m with
        | none => some (lsid, idx, a)
        | some (l', i', _) => if l' < lsid ∨ (l' = lsid ∧ i' < idx) then some (lsid, idx, a) else m
    | _ => m) none).map fun t => t.2.2
/-- A loaded value with its bytes replaced by forwarded ones; X comes from the forwarded stores' values as well. -/
def forwardVal (outs : List Out) (loc : Loc) (n l : Nat) (v : Val) : Val :=
  let bs := (List.range n).map fun k =>
    match forwardFrom outs loc.space (loc.key + k) l with
    | some a => (a.v.norm.d.toNat / 256 ^ (loc.key + k - a.loc.key) % 256, a.v.x, true)
    | none => (v.d.toNat / 256 ^ k % 256, false, false)
  let x := bs.any (fun b => b.2.1) || (v.x && bs.any fun b => !b.2.2)
  ⟨BitVec.ofNat 64 (leNat (bs.map (·.1))), x⟩
/-- Does a forwarded byte take part? -/
def forwards (outs : List Out) (loc : Loc) (n l : Nat) : Bool :=
  (List.range n).any fun k => (forwardFrom outs loc.space (loc.key + k) l).isSome

/-! ## Typed integers (R19, R20, R131) -/

/-- An operand read at a type. -/
def rdInt (t : ITy) (v : Nat) : Int := if t.signed then Num.asS v t.bits else ((v % 2 ^ t.bits : Nat) : Int)
/-- An n-bit pattern as a 64-bit result of a type. -/
def extPat (t : ITy) (p : Nat) : Nat :=
  let p := p % 2 ^ t.bits
  if t.signed then Num.wrap (Num.asS p t.bits) 64 else p
/-- An exact integer written at a type: wrapped, then extended. -/
def putInt (t : ITy) (x : Int) : Val := Val.ofNat (extPat t (Num.wrap x t.bits))
def putPat (t : ITy) (p : Nat) : Val := Val.ofNat (extPat t p)

/-- Sign extension of the low w bits to a 64-bit pattern. -/
def sext64 (v w : Nat) : Nat := Num.wrap (Num.asS v w) 64
/-- The byte offset of an L- or S-format word: the signed immediate times the access size (R83). -/
def offsetAddr (a : Nat) (imm : Int) (s : Nat) : Nat := Num.wrap ((a : Int) + imm * s) 64

end Sys2Proof.Machine
end

