-- ==== Sys2Proof/Machine/Ops.lean ====
section
/-! DEFINITION. Shared operations of a firing: how it ends without a commit, TAKING A TRAP (R124, R210, R212, R215), the
return from it by FRAME_CTL (R214), and the execution of one instruction (R112 to R116). -/

namespace Sys2Proof.Machine

/-! ## Block slots -/

/-- The firing in block slot k of core c. -/
def firingAt (s : State) (c k : Nat) : Option Firing := nthD (s.core c).slots k none
/-- Block slot k of core c holds a firing, or nothing. -/
def setFiring (s : State) (c k : Nat) (o : Option Firing) : State :=
  s.modCore c fun co => { co with slots := setNth co.slots k o }

/-- Is a frame one of its core's trap frames (R197)? -/
def isTrapFrame (s : State) (fp : Nat) : Bool :=
  let co := s.core (fpCore fp)
  co.tframes.any fun k => bits co.frameBase.toNat 16 0 + 32 * k == fpWord fp

/-! ## Ends of a firing without a commit (R120) -/

/-- The FALLOC reservations of a firing are released (R150), its waiter entries go. -/
def dropReserved (s : State) (f : Firing) : State :=
  f.fallocs.foldl (fun s e =>
    s.modCore (fpCore e.2.1) fun co => { co with reserved := co.reserved.filter fun r => r.1 != fpWord e.2.1 }) s
/-- A firing leaves its block slot with nothing released; UNDONE counts it. -/
def undo (s : State) (c k : Nat) (f : Firing) : State :=
  let s := dropReserved s f
  s.modCore c fun co => { co with slots := setNth co.slots k none, undone := wrap48 (co.undone + 1) }
/-- An FFREE that came while the frame ran is applied now (R151). -/
def lateFree (s : State) (fp : Nat) : State :=
  if (s.core (fpCore fp)).freeAfter.contains fp then freeDeferred (dropWaiters s fp) fp else s

/-! ## Taking a trap -/

/-- A record goes to the die fault log with an event (R212, R215, R213). -/
def trapLogged (s : State) (c kind w3 : Nat) (words : List (BitVec 64)) : State :=
  let (s, i) := logRec s (coreDie c) kind (c % 128) 3 0 words
  dieEvent s (coreDie c) (c % 128) kind w3 i

/-- Where the record of a trap goes: the debugger's stop (R215), the fault log (R212), or the pending list (R210).
(DEDUCED, log 27) -/
def routeTrap (s : State) (c cause cls : Nat) (inHandler : Bool) (words : List (BitVec 64)) : State :=
  let co := s.core c
  if cause = 0x0E ∧ bit co.trapv.toNat 17 ∧ co.mode ≠ 2 then
    trapLogged (s.setCore c { co with mode := 3 }) c 0x05 0 words
  else if !bit co.trapv.toNat 16 ∨ inHandler ∨ co.mode = 2 then trapLogged s c 0x04 cause words
  else s.setCore c { co with pend := co.pend ++ [⟨words, cls⟩] }

/-- The eight words of the record (Table 8.4). -/
def trapWords (s : State) (f : Firing) (t : Trap) : List (BitVec 64) :=
  [t.cause, f.fp, f.addr, t.pos, t.w4, t.w5, s.tick, hdr s f.fp 3].map (BitVec.ofNat 64)

/-- TAKING A TRAP (R124): the firing in block slot k of core c ends with nothing released, its frame is TRAPPED, a
reservation ends (R123), and the record is delivered. -/
def takeTrap (s : State) (c k : Nat) (t : Trap) : State :=
  match firingAt s c k with
  | none => s
  | some f =>
    let words := trapWords s f t
    let h3 := hdr s f.fp 3
    let cls := frameClass s f.fp
    let inH := isTrapFrame s f.fp
    let s := setFrameState (undo s c k f) f.fp stTrapped
    let s := endReservations (dropWaiters s f.fp) f.fp
    let s := countEv s c 0x07 1
    let s := traceRec s (coreDie c) c 2 (t.cause % 256 + h3 % 2 ^ 20 * 2 ^ 8) (h3 / 2 ^ 20)
    lateFree (routeTrap s c t.cause cls inH words) f.fp

/-- An abort on an empty word, or on a slot held for want of a block (R122, R372): the frame is PARKED; the waiter entry
stands at the home. A reservation of the word `key` that it waits on was made for its next firing, and stays (R123). -/
def parkFiring (s : State) (c k : Nat) (key : Option Nat) : State :=
  match firingAt s c k with
  | none => s
  | some f =>
    let s := setFrameState (undo s c k f) f.fp stParked
    lateFree (countEv (endReservesBut s f.fp key) c 0x04 1) f.fp

/-! ## The return from a trap (R214) -/

/-- A write that names no trapped frame of the core is a stray. -/
def trappedHere (s : State) (c fp : Nat) : Bool :=
  fpCore fp == c && bits fp 19 17 == 0 && frameAlloc s fp && frameState s fp == stTrapped

/-- Step 6: the slots that a list names go empty. -/
def consumeSlots (s : State) (fp : Nat) (slots : List Nat) : State := slots.foldl (fun s n => clearSlot s fp n) s
/-- Step 8: refill, MISSING, readiness (R117). -/
def step8 (s : State) (fp : Nat) : State := checkReady (refillFrame s fp) fp

/-- RERUN: the frame is queued again, unchanged. -/
def trapRerun (s : State) (c fp : Nat) : State :=
  if trappedHere s c fp then checkReady (setFrameState s fp stWaiting) fp else stray s c fp 0
/-- RESUME: commit steps 6 and 8 with the trapped block's CONSUME flags, STATE WAITING before step 8. -/
def trapResume (s : State) (c fp : Nat) : State :=
  if trappedHere s c fp then
    let slots := match taskBlk s c (frameTask s fp) with
      | some b => (b.reads.map parseRd).filterMap fun r => if r.consume then some r.slot else none
      | none => []
    step8 (setFrameState (consumeSlots s fp slots) fp stWaiting) fp
  else stray s c fp 0
/-- FREE. -/
def trapFree (s : State) (c fp : Nat) : State :=
  if trappedHere s c fp then freeFrame s fp else stray s c fp 0

/-! ## Execution of one instruction of a firing -/

/-- What an instruction of a firing does when it executes: the value it delivers now (`some none` a null token), status
bits, outputs held to commit, an exit, a take, requests whose answer it awaits, a translation it used. -/
structure FOut where
  v : Option (Option Val) := none
  astat : Nat := 0
  outs : List Out := []
  exit : Option Instr := none
  take : Option (Loc × Val) := none
  pkts : List Packet := []
  tlb : Option Tlb := none

/-- The result of executing: as above; a trap; a wait for a translation; an abort on an empty tagged word. -/
inductive FRes where
  | ok (o : FOut)
  | trap (cause w4 w5 : Nat)
  | walk (va : Nat) (write : Bool) (space : Nat)
  | park (key : Nat) (take : Bool)

/-- The firing after instruction n has executed or passed something on, its LSID resolved. -/
def Firing.did (f : Firing) (n : Nat) : Firing := { f with done := n :: f.done, lsids := n :: f.lsids }

/-- The cclk in which the delivery of instruction n arrives: the end of its latency, or the answer's (R129). -/
def arrival (s : State) (c n : Nat) (f : Firing) : Nat :=
  match f.due.find? (·.1 == n), decodeWords (wordsAt f.code n) with
  | some d, _ => d.2
  | none, .ok i => coreCclk s c + latency i
  | none, .error _ => coreCclk s c
/-- An answer that comes in a cclk arrives then. -/
def Firing.answered (f : Firing) (n now : Nat) : Firing :=
  { f with due := f.due.map fun d => if d.1 = n then (n, max d.2 now) else d }
/-- One delivery of instruction n that arrives in a cclk. The first to a position or write entry by cclk and index is its value;
two make a second delivery, which traps the firing when it arrives (`doubleNow`, R112). -/
def deliverOne (at_ n : Nat) (v : Option Val) (f : Firing) (t : Target) : Firing :=
  match t with
  | .none => f
  | t =>
    if f.dels.any (·.1 == t) then
      let others := deliveriesTo ((producers f).filter (·.1 != n)) t
      let first := !(readTargets f).contains t && others != [] && others.all (earlier (at_, n))
      { f with twice := f.twice ++ [t], dels := if first then f.dels.map fun d => if d.1 = t then (t, v) else d else f.dels }
    else { f with dels := f.dels ++ [(t, v)] }
/-- A value or a null token goes to an instruction's targets. -/
def deliverFrom (s : State) (c k n : Nat) (f : Firing) (tgts : List Target) (v : Option Val) : State :=
  setFiring s c k (some (tgts.foldl (deliverOne (arrival s c n f) n v) f))
/-- A second delivery that has arrived traps the firing MULTI_DELIVER at its producer, the target in word 5 (R112, R124). It comes
before what issues in that cclk. (DEDUCED, log 116) -/
def trapDouble (s : State) (c k : Nat) : State :=
  match firingAt s c k with
  | some f =>
    if f.twice = [] then s
    else match doubleNow f (coreCclk s c) with
      | some (_, n, t) => takeTrap s c k { cause := 0x07, pos := n, w5 := t.code }
      | none => s
  | none => s

/-- A load-like instruction that executes only when its value returns (R428). -/
def lateLoad : Instr → Bool | .ldw _ | .ldt _ => true | _ => false

/-- The effects of an executed instruction. -/
def applyOut (s : State) (c k n : Nat) (f : Firing) (i : Instr) (o : FOut) : State :=
  let s := noteTlb s c o.tlb
  let waits := if o.pkts = [] then f.waits else n :: f.waits
  let lsids := if lateLoad i && o.pkts != [] then f.lsids else n :: f.lsids
  let f := { f with done := n :: f.done, lsids, waits, insns := f.insns + 1
                    astat := f.astat ||| o.astat, outs := f.outs ++ o.outs
                    exit := match o.exit with | some e => some (n, e) | none => f.exit
                    take := match o.take with | some t => some t | none => f.take }
  let s := s.modCore c fun co => { co with insns := wrap48 (co.insns + 1), busy := co.busy ||| 1 }
  let s := { s with net := s.net ++ o.pkts }
  match o.v with
  | some v => deliverFrom s c k n f i.shape.tgts v
  | none => setFiring s c k (some f)

/-- Instruction n of a firing executes, all its positions having arrived: nulls are passed on (R113), the predicate is
tested (R69, R70), then its own effect. A predicate that fails resolves no LSID: R115 names execution, a null token and the
firing's end. (DEDUCED, log 8) -/
def fire (s : State) (c k n : Nat) (f : Firing) (i : Instr) (body : State → Nat → Firing → Nat → List Val → FRes) : State :=
  let sh := i.shape
  if anyNull f (allPositions sh n) then deliverFrom s c k n (f.did n) sh.tgts none
  else match predRes f sh n with
    | .fail => setFiring s c k (some { f with done := n :: f.done })
    | .err => if isHeld i then takeTrap s c k { cause := 0x04, pos := n }
              else deliverFrom s c k n (f.did n) sh.tgts (some Val.err)
    | .pass =>
      match body s c f n (valuesAt f (opPositions sh n)) with
      | .ok o => applyOut s c k n f i o
      | .trap cause w4 w5 =>
        let s := s.modCore c fun co => { co with insns := wrap48 (co.insns + 1), busy := co.busy ||| 1 }
        takeTrap s c k { cause, pos := n, w4, w5 }
      | .walk va write sp => startWalk (setFiring s c k (some { f with walks := n :: f.walks })) c va (.insn c f.ser n va write sp)
      | .park key take =>
        let own := reservedFor s key == some f.fp
        let s := if own then setHomeWaiters s key ((homeWaiters s key).filter fun w => !(w.key == key && w.reserved && w.fp == f.fp)) else s
        parkFiring (addWaiter s key f.fp take (own && take)) c k (some key)

/-- The meaning of an instruction word in a firing: it runs when the focus names a firing in which it may execute.
(DEDUCED, log 9) -/
def fireWord (s : State) (i : Instr) (body : State → Nat → Firing → Nat → List Val → FRes) :
    Host.Outcome State Fault Refusal :=
  match s.focus with
  | .firing c k n =>
    match firingAt s c k with
    | some f => if ready f n i then .next (fire s c k n f i body) else .refused .notEnabled
    | none => .refused .notEnabled
  | _ => .refused .notEnabled

/-- A plain value with status bits. -/
def FRes.val (v : Val) (fl : Nat := 0) : FRes := .ok { v := some (some v), astat := fl }
/-- One output held to commit. -/
def FRes.out (o : Out) : FRes := .ok { outs := [o] }
/-- Operand n of a list. -/
def opn (vs : List Val) (n : Nat) : Val := nthD vs n Val.err

/-- Trap causes that operand checks raise (Tables 5.5, 6.3, 7.2). -/
def cAlign : Nat := 0x03
def cOpndX : Nat := 0x05
def cBadFp : Nat := 0x06
def cMultiExit : Nat := 0x08
def cFrameProt : Nat := 0x0A
def cXlate : Nat := 0x0B
def cProt : Nat := 0x0C
def cBadTask : Nat := 0x20
def cSelfFree : Nat := 0x21
def cBadAddr : Nat := 0x22

/-- PROT with REASON 0x23: an operation reserved to handler blocks (R188, R190, R193). -/
def protHandler : FRes := .trap cProt 0 (rsHandler * 2 ^ 8)

end Sys2Proof.Machine
end

