-- ==== Sys2Proof/Machine/Home.lean ====
section
/-! DEFINITION. What the home of a word does (R174): die registers as they read, gated banks, slots of the block store
with copy-on-write (R371, R372), loads, stores, tag operations, atomics (R181 to R184), takes (R122). -/

namespace Sys2Proof.Machine

/-! ## Die registers (R345, Tables 16.1 and 17.1, R415, R449, R453) -/

/-- KVB_CTL as it reads: LOW follows the pool of an enabled store. (DEDUCED, log 111) -/
def kvCtl (k : Kvb) : Nat :=
  setBits k.ctl.toNat 1 1 (bnat (bit k.ctl.toNat 0 && decide (kvFree k ≤ bits k.ctl.toNat 31 16)))
def bitMap (l : List Nat) (lo n : Nat) : Nat :=
  (List.range n).foldl (fun v b => if l.contains (lo + b) then v + 2 ^ b else v) 0
/-- Checkpoint records in use on a die (R415). -/
def ckptsInUse (s : State) (d : Nat) : Nat :=
  natSum (s.cores.map fun e => if coreDie e.1 = d then e.2.ckpts.length else 0)
def pewRead (e : Pew) : Nat := e.ctl.toNat

/-- INUSE, which has no value for 512 records in use; what it reads then is free. (DESIGN CHOICE, log 119) -/
def inUse (s : State) (d : Nat) : Nat := if ckptsInUse s d < 512 then ckptsInUse s d else Config.allRecords.toNat
/-- A die register's value. A number that no table lists reads 0 (log 31). -/
def dieRegRead (s : State) (d n : Nat) : Nat :=
  let di := s.die d
  if n = 0 then di.reject * 2 ^ 32 + d
  else if 0x10 ≤ n ∧ n < 0x14 then let l := di.layers.get (n - 0x10) {}; l.int * 2 ^ 32 + l.corr
  else if n = 0x18 then di.scrub.toNat
  else if n = 0x20 ∨ n = 0x21 then bitMap (di.gateReq ++ di.gated) (64 * (n - 0x20)) 64
  else if n = 0x30 then di.faults * 2 ^ 16 + di.walks.length
  else if n = 0x40 then di.kvb.pool.toNat
  else if n = 0x41 then di.kvb.win.toNat
  else if n = 0x42 then kvCtl di.kvb
  else if n = 0x50 then di.ckpt.toNat
  else if n = 0x51 then di.kills * 2 ^ 48 + di.ckpts * 2 ^ 32 + di.drains * 2 ^ 16 + inUse s d
  else if n = 0x60 then di.trace.base.toNat
  else if n = 0x61 then setBits di.trace.ctl.toNat 0 32 di.trace.head
  else if 0x100 ≤ n ∧ n < 0x120 then
    let e := di.pew.get ((n - 0x100) / 2) {}
    if n % 2 = 0 then e.ctl.toNat else e.dl.toNat
  else if 0x200 ≤ n ∧ n < 0x280 then
    let co := s.core (coreId d (n - 0x200))
    bitMap (co.gateReq ++ co.gated) 0 16
  else 0

/-- RC fields of a die register clear when it is read (R13). -/
def dieRegClear (s : State) (d n : Nat) : State :=
  s.modDie d fun di =>
    if n = 0 then { di with reject := 0 }
    else if 0x10 ≤ n ∧ n < 0x14 then { di with layers := di.layers.put (n - 0x10) { di.layers.get (n - 0x10) {} with corr := 0 } }
    else if n = 0x30 then { di with faults := 0 }
    else if n = 0x51 then { di with kills := 0, ckpts := 0, drains := 0 }
    else di

def dieReject (s : State) (d : Nat) : State := s.modDie d fun di => { di with reject := hold (di.reject + 1) 0xFFFF }

/-- A store of a whole die register becomes the event of its row. -/
def dieRegWrite (s : State) (d n : Nat) (v : BitVec 64) : State :=
  if n = 0x18 then s.raise (.scrubCtlWrite d v)
  else if n = 0x20 ∨ n = 0x21 then s.raise (.bankGateRequest d (n - 0x20) v)
  else if n = 0x42 then s.raise (.kvbCtlWrite d v)
  else if n = 0x61 then s.raise (.traceCtlWrite d v)
  else if 0x100 ≤ n ∧ n < 0x120 then s.raise (.pewCtlWrite d (n - 0x100) v)
  else if 0x200 ≤ n ∧ n < 0x280 then s.raise (.spgateRequest (coreId d (n - 0x200)) v)
  else s.raise (.registerWrite (.die d n) v)

/-! ## Gated banks (R360) -/

/-- An access that arrives at a gated bank is held, and the bank wakes. -/
def holdAtBank (s : State) (a : Access) : State :=
  match bankOf a.loc.key with
  | some (some c, d, b) =>
    raiseOnce (s.modCore c fun co => { co with gateHeld := co.gateHeld ++ [a] }) (.bankWakeComplete (some c) d b)
  | some (none, d, b) =>
    raiseOnce (s.modDie d fun di => { di with gateHeld := di.gateHeld ++ [a] }) (.bankWakeComplete none d b)
  | none => s

/-! ## Reads and writes of a place -/

/-- n bytes at a place with their error, as read by core c at a tick; RC fields of a die register clear, and the cache
counts the read. (DEDUCED, log 32) -/
def locRead (s : State) (c : Nat) (loc : Loc) (n tick rc : Nat) : State × Val :=
  match loc.space with
  | .global =>
    match physKind s loc.key with
    | .reg d r => (dieRegClear s d r, Val.ofNat (dieRegRead s d r / 256 ^ (loc.key % 8) % 256 ^ n))
    | _ => let (v, x) := physRead s loc.key n tick
           (llcCoreRead s c loc.key rc, ⟨BitVec.ofNat 64 v, x⟩)
  | _ => (s, ⟨BitVec.ofNat 64 (memNat s.mem loc.key n), keyX s.mem loc.key⟩)

/-- n bytes of a value written at a place; F is unchanged (R167). -/
def locWrite (s : State) (c : Nat) (loc : Loc) (n : Nat) (v : Val) : State :=
  let v := v.norm
  match loc.space with
  | .global =>
    match physKind s loc.key with
    | .reg d r => if n = 8 ∧ loc.key % 8 = 0 then dieRegWrite s d r v.d else dieReject s d
    | _ => llcCoreWrite (physWrite s loc.key v.d.toNat n v.x) c loc.key
  | _ =>
    let x := if n = 8 then v.x else v.x || keyX s.mem loc.key
    let m := memPut s.mem loc.key v.d.toNat n
    s.setMem (setTags m loc.key (keyF m loc.key) x)

/-- A tagged word is written with F set; a word that was empty has become full (R123). -/
def writeFull (s : State) (key : Nat) (v : Val) : State :=
  let was := keyF s.mem key
  let s := s.setMem (putWord s.mem key ⟨v.norm.d, true, v.x⟩)
  if was then s else becameFull s key
/-- F of a tagged word is set. -/
def setFull (s : State) (key : Nat) : State :=
  let was := keyF s.mem key
  let s := s.setMem (setTags s.mem key true (keyX s.mem key))
  if was then s else becameFull s key

/-! ## Atomics (R181 to R183) -/

/-- SOP codes of Table 3.16. -/
def amoNew (op w : Nat) (nat : Bool) (old b c : Nat) : Nat × Bool :=
  match op with
  | 0 => ((old + b) % 2 ^ w, false)
  | 1 => (if nat then min old b else Num.wrap (min (Num.asS old w) (Num.asS b w)) w, false)
  | 2 => (if nat then max old b else Num.wrap (max (Num.asS old w) (Num.asS b w)) w, false)
  | 3 => (Nat.land old b, false)
  | 4 => (Nat.lor old b, false)
  | 5 => (Nat.xor old b, false)
  | 6 => (b, false)
  | 8 => (match Num.fadd old b with | .num r sat => (r, sat) | _ => (old, false))
  | 9 => (if old ≥ b then 0 else old + 1, false)
  | _ => (if old = b then c % 2 ^ w else old, false)
/-- SOP 8 is FADD; the model writes 10 for CAS. -/
def sopFadd : Nat := 8
def sopCas : Nat := 10
/-- An F32 pattern with exponent field 255. -/
def f32Bad (v : Nat) : Bool := bits v 30 23 == 255

/-- What an atomic leaves at its field: the old field and its word's error, the new field, an error made, SAT. -/
structure AmoRes where
  old : Val
  new : Nat
  bad : Bool
  sat : Bool
deriving DecidableEq, Repr

/-- The operation on a field's natural value `old` whose word or codeword is in error when `err`. It sets no ASTAT bit.
(DEDUCED, log 104) -/
def amoCompute (op : Nat) (w32 nat : Bool) (old : Nat) (err : Bool) (b c : Val) : AmoRes :=
  let w := if w32 then 32 else 64
  let fadd := op == sopFadd
  if err || (fadd && f32Bad old) then ⟨Val.err, old, false, false⟩
  else if b.x || (op == sopCas && c.x) || (fadd && f32Bad b.d.toNat) then ⟨Val.ofNat old, 0, true, false⟩
  else let (n, sat) := amoNew op w nat old (b.d.toNat % 2 ^ w) c.d.toNat
       ⟨Val.ofNat old, n, false, sat⟩

/-- An atomic at the home of its field (R181, R182): the state and the result. (DEDUCED, log 38) -/
def amoAt (s : State) (c : Nat) (loc : Loc) (op : Nat) (w32 nat : Bool) (b cv : Val) : State × Val × Bool :=
  let n := if w32 then 4 else 8
  match loc.space with
  | .global =>
    let s := llcCoreWrite (kvDamage s loc.key n) c loc.key
    let r := amoCompute op w32 nat (physVal s loc.key n s.tick) (poisoned s.mem loc.key) b cv
    let m := if r.bad then (if op = sopFadd then memPut s.mem loc.key 0x7FC00000 4 else setPoison s.mem loc.key true)
             else memPut s.mem loc.key r.new n
    (s.setMem m, r.old, r.sat)
  | _ =>
    let key8 := loc.key / 8 * 8
    let r := amoCompute op w32 nat (memNat s.mem loc.key n) (keyX s.mem key8) b cv
    let was := keyF s.mem key8
    let m := memPut s.mem loc.key r.new n
    let s := s.setMem (setTags m key8 true (keyX m key8 || r.bad))
    (if was then s else becameFull s key8, r.old, r.sat)

/-! ## Accesses on their way -/

/-- Does an operation write, or change a tag? -/
def MemOp.writes : MemOp → Bool
  | .ld | .ldw | .ldt | .ldrc _ | .feTest | .clean | .inval | .pref => false
  | _ => true
/-- Is an operation a load that a firing awaits? -/
def MemOp.isLoad : MemOp → Bool
  | .ld | .ldw | .ldt | .ldrc _ | .feTest => true
  | _ => false

/-- The accesses that are not performed yet, in the order of sending: held at gated banks, on their way, held in routers or
for want of a block. -/
def pendingAll (s : State) : List Access :=
  s.cores.flatMap (fun e => e.2.gateHeld) ++ s.dies.flatMap (fun e => e.2.gateHeld)
    ++ s.net.flatMap (fun p => match p with | .access a => [a] | .group _ g => g | _ => [])
    ++ s.dies.flatMap fun e => e.2.holds.flatMap (·.group)
      ++ e.2.kvb.held.filterMap fun h => match h.who with | .access a => some a | _ => none
/-- Those of a core. -/
def pendingOf (s : State) (c : Nat) : List Access := (pendingAll s).filter (·.core == c)
/-- Does a core (or one firing of it) have an access on its way? -/
def inFlight (s : State) (c : Nat) (ser : Option Nat) : Bool :=
  (pendingOf s c).any fun a => match ser with | some n => a.ser == n | none => true

/-! ## The operation of an access at its home -/

/-- The firing that issued an access is still in its core. -/
def resident (s : State) (c ser : Nat) : Option (Nat × Firing) :=
  (List.range 4).foldl (fun r k => match firingAt s c k with | some f => if f.ser = ser then some (k, f) else r | none => r) none

def answer (s : State) (a : Access) (ans : LoadAns) : State := s.send (.loadRet ⟨a, ans⟩)
def result (s : State) (a : Access) (v : Val) : State :=
  match a.slot with
  | some n => s.send (.token { fp := a.fp, slot := n, v, src := some a.core, die := homeDie a.loc.key })
  | none => s

/-- An LDW or LDT that meets an empty word: the waiter is registered in the same action (R122, R169). -/
def registerWaiter (s : State) (key fp : Nat) (take : Bool) : State :=
  let own := reservedFor s key == some fp
  let s := if own then setHomeWaiters s key ((homeWaiters s key).filter fun w => !(w.key == key && w.reserved && w.fp == fp)) else s
  addWaiter s key fp take (own && take)
/-- A take sees a word as empty when it is empty or reserved for another frame (R123). -/
def takeSees (s : State) (key fp : Nat) : Bool :=
  keyF s.mem key && (match reservedFor s key with | some f => f == fp | none => true)

/-- The access is performed, its place settled. -/
def perform (s : State) (a : Access) : State :=
  let key := a.loc.key
  match a.op with
  | .ld => let (s, v) := locRead s a.core a.loc a.size a.tick 0; answer s a (.value v v)
  | .ldrc n => let (s, v) := locRead s a.core a.loc a.size a.tick n; answer s a (.value v v)
  | .ldw | .ldt =>
    match resident s a.core a.ser with
    | none => s
    | some _ =>
      let take := a.op == .ldt
      if (if take then takeSees s key a.fp else keyF s.mem key) then
        let v := (getWord s.mem key).val
        answer s a (.value v v)
      else answer (registerWaiter s key a.fp take) a .parked
  | .feTest => let v := Val.ofNat (bnat (keyF s.mem key) + 2 * bnat (keyX s.mem key)); answer s a (.value v v)
  | .st => locWrite s a.core a.loc a.size a.v
  | .stf => writeFull s key a.v
  | .ste => if keyF s.mem key then result s a (Val.ofNat 1) else result (writeFull s key a.v) a (Val.ofNat 0)
  | .feSet => setFull s key
  | .feClr => s.setMem (setTags s.mem key false (keyX s.mem key))
  | .clean => llcClean s key
  | .inval => llcInval s key
  | .pref => match a.loc.space with | .global => llcFill s (corePart s a.core) key | _ => s
  | .amo op w32 nat _ _ =>
    let (s, v, sat) := amoAt s a.core a.loc op w32 nat a.v a.w
    let s := if sat then setAstat s a.core flSat else s
    result s a v

/-- Is an operation one on the issuing core's own scratchpad? -/
def ownLocal (a : Access) : Bool := a.loc.space == .loc && keyCore a.loc.key == a.core
/-- A load need not follow a write on its way of another firing of its core that nothing on the core follows from (R329, R430). -/
def mayPass (s : State) (a b : Access) : Bool := a.op.isLoad && a.ser != b.ser && (s.core b.core).quiet.contains b.ser
/-- It is performed at once where no earlier access of the core is still on its way that it must follow: a write, or one to the
same scratchpad (R174, R431). -/
def ownNow (s : State) (a : Access) : Bool :=
  ownLocal a && !(pendingOf s a.core).any fun b => (b.op.writes || ownLocal b) && !mayPass s a b

/-- An access reaches the home of its word (R174): held at a gated bank (R360) or at a slot of the block store (R372),
or performed. A PREF wakes a gated bank and is not held. -/
def homeAccess (s : State) (a : Access) : State :=
  if isGated s a.loc.key then
    (match a.op, bankOf a.loc.key with
      | .pref, some (c, d, b) => raiseOnce s (.bankWakeComplete c d b)
      | _, _ => holdAtBank s a)
  else match kvRoute s a.loc a.op.writes none with
    | some (s, loc) => perform s { a with loc }
    | none =>
      match a.loc.slot with
      | none => s
      | some (d, slot) =>
        if a.op.isLoad then
          match resident s a.core a.ser with
          | some _ => answer (kvHold s d slot false (.frame a.fp)) a .parked
          | none => s
        else kvHold s d slot a.op.writes (.access a)

/-- The take at its home at commit step 2 (R122, R169). -/
def takeHome (s : State) (t : TakeReq) : State :=
  let key := t.loc.key
  let s := awake s key
  let say := fun (s : State) r => s.send (.takeAns ⟨t.core, t.ser, r, (homeDie key).getD 0⟩)
  if !takeSees s key t.fp then say (registerWaiter s key t.fp true) .parked
  else
    let w := getWord s.mem key
    if w.d = t.v.d ∧ w.x = t.v.x then say (s.setMem (setTags s.mem key false w.x)) .taken
    else say s .differs

/-! ## Combined groups (R350 to R352) -/

/-- May an atomic combine in a router? -/
def combines (a : Access) : Bool :=
  match a.op, a.loc.space with
  | .amo op _ _ reduce relaxed, sp => sp != .loc && (decide (op ≤ 5) || (op == sopFadd && reduce && relaxed))
  | _, _ => false
/-- Do two atomics combine with each other? -/
def mates (a b : Access) : Bool :=
  match a.op, b.op with
  | .amo op w n red rel, .amo op' w' n' red' rel' =>
    combines a && combines b && a.loc.key == b.loc.key && a.loc.slot == b.loc.slot
      && op == op' && w == w' && n == n' && (op != sopFadd || (red && red' && rel && rel'))
  | _, _ => false

/-- A RELAXED FADD group's operands added pairwise in the routers, in an order that free choices give (R184, R352): pattern,
error, SAT. (DESIGN CHOICE, log 40) -/
def groupSum : Nat → Nat → List Nat → Nat × Bool × Bool
  | n + 1, d, v :: w :: l =>
    let ops := v :: w :: l
    let j := Config.pick d % (l.length + 1)
    match Num.fadd (nthD ops j 0) (nthD ops (j + 1) 0) with
    | .num r sat => let (v, e, st) := groupSum n (d + 1) (ops.take j ++ r :: ops.drop (j + 2)); (v, e, st || sat)
    | _ => (0, true, false)
  | _, _, v :: _ => (v, f32Bad v, false)
  | _, _, [] => (0, true, false)

/-- A combined group at the home (R351, R352). -/
def groupHome (s : State) (g : Group) : State :=
  match g with
  | [] => s
  | a :: _ =>
    match a.op with
    | .amo op w32 nat _ _ =>
      if op = sopFadd then
        let (v, e, st) := groupSum g.length s.draws (g.map fun m => m.v.d.toNat % 2 ^ 32)
        let s := { s with draws := s.draws + g.length }
        let bad := e || g.any fun m => m.v.x
        match kvRoute (awake s a.loc.key) a.loc true none with
        | none => g.foldl homeAccess s
        | some (s, loc) =>
          let (s, _, sat) := amoAt s a.core loc op w32 nat ⟨BitVec.ofNat 64 v, bad⟩ Val.err
          if st || sat then g.foldl (fun s m => setAstat s m.core flSat) s else s
      else g.foldl homeAccess (awake s a.loc.key)
    | _ => s

end Sys2Proof.Machine
end

