-- ==== Sys2Proof/Machine/Regs.lean ====
section
/-! DEFINITION. The control registers of a core as they read and as a write takes effect (Table 8.2, R13, R187, R188), and
the performance counters (Table 7.6). -/

namespace Sys2Proof.Machine

/-! ## Numbers -/

def rTrapv : Nat := 0x08
def rFrameCtl : Nat := 0x09
def rTqBase : Nat := 0x10
def rSyncOvf : Nat := 0x18
def rSyncOva : Nat := 0x19
def rDrainLim : Nat := 0x1C
def rAstat : Nat := 0x20
def rHintDrops : Nat := 0x28
def rStrayTok : Nat := 0x29
def rStrayFp : Nat := 0x2A
def rEvsel : Nat := 0x30

/-- The registers whose map reserves writes to handler blocks (Table 8.2). -/
def handlerReg (n : Nat) : Bool := [0x08, 0x09, 0x10, 0x18, 0x19, 0x1C, 0x30].contains n

/-- Event codes of Table 21.5. -/
def eventCode (c : Nat) : Bool := decide (c ≤ 0x07) || decide (0x10 ≤ c ∧ c ≤ 0x12) || decide (0x20 ≤ c ∧ c ≤ 0x24) || c == 0x30 || c == 0x31

/-- Does a value set a reserved bit of a control register (R13)? FRAME_CTL's unlisted actions and EVSEL's unlisted codes
count as such (R214, R447). -/
def coreReserved (n v : Nat) : Bool :=
  match n with
  | 0x00 => decide (v ≥ 2 ^ 12)
  | 0x01 => decide (v ≥ 2 ^ 18) || bit v 3
  | 0x08 => decide (v ≥ 2 ^ 18)
  | 0x09 => decide (v ≥ 2 ^ 35) || decide (bits v 34 32 ≥ 3)
  | 0x0A => decide (v ≥ 2 ^ 17)
  | 0x10 => decide (v ≥ 2 ^ 48) || bits v 11 4 != 0
  | 0x12 => decide (v ≥ 2 ^ 13) || bits v 7 6 != 0
  | 0x18 => decide (v ≥ 2)
  | 0x19 => decide (v ≥ 2 ^ 48) || bits v 11 4 != 0
  | 0x1A => decide (v ≥ 2 ^ 32)
  | 0x1C => decide (v ≥ 2 ^ 32)
  | 0x20 => decide (v ≥ 2 ^ 7)
  | 0x28 | 0x29 => decide (v ≥ 2 ^ 48)
  | 0x2A => decide (v ≥ 2 ^ 40)
  | 0x30 => bits v 55 32 != 0 || (List.range 4).any fun k => !eventCode (bits v (8 * k + 7) (8 * k))
  | 0x31 | 0x32 | 0x33 | 0x34 => decide (v ≥ 2 ^ 48)
  | _ => false

/-! ## Reads -/

/-- CORE_STAT. -/
def coreStat (co : Core) : Nat :=
  co.mode + 16 * natSum ((List.range 4).map fun k => if (nthD co.slots k none).isSome then 2 ^ k else 0)
    + co.pend.length * 2 ^ 8 + natSum (co.tframes.map (2 ^ ·)) * 2 ^ 14
/-- TQ_STAT. -/
def tqStat (co : Core) : Nat :=
  co.tq.length + natSum ((List.range 4).map fun k => if co.rings.get k [] != [] then 2 ^ (8 + k) else 0)
    + bnat (co.walkRecs.any fun e => e.2 != []) * 2 ^ 12

/-- EVCk as it reads: one of fabric bytes is zero on a core whose partition owns no port (R447). (DEDUCED, log 89) -/
def evcRead (s : State) (c k : Nat) : Nat :=
  let co := s.core c
  let sel := bits co.evsel.toNat (8 * k + 7) (8 * k)
  if (sel = 0x30 ∨ sel = 0x31) ∧ !(match corePart s c with | some p => ownsPort s p | none => false) then 0 else co.evc.get k 0

/-- A control register of a core as it reads. -/
def coreRegRead (s : State) (c n : Nat) : Nat :=
  let co := s.core c
  match n with
  | 0x00 => coreDie c * 2 ^ 7 + c % 128
  | 0x01 => coreStat co
  | 0x08 => co.trapv.toNat
  | 0x09 => co.frameCtl.toNat
  | 0x0A => co.frameBase.toNat
  | 0x10 => co.tqBase.toNat
  | 0x12 => tqStat co
  | 0x18 => co.syncOvf.toNat
  | 0x19 => co.syncOva.toNat
  | 0x1A => walked co % 2 ^ 16 * 2 ^ 16 + spilled co % 2 ^ 16
  | 0x1C => co.drainLim.toNat
  | 0x20 => co.astat.toNat
  | 0x28 => co.hintDrops.toNat
  | 0x29 => co.strayTok.toNat
  | 0x2A => co.strayFp.toNat
  | 0x30 => co.evsel.toNat
  | 0x31 | 0x32 | 0x33 | 0x34 => evcRead s c (n - 0x31)
  | 0x100 => co.hctl.toNat
  | _ => 0

/-- The registers with RC fields. -/
def rcReg (n : Nat) : Bool := n == 0x28 || n == 0x29 || n == 0x2A
/-- A read of an RC register delivered v: counts go down by it, a capture goes when it still holds it (R187). -/
def rcClear (s : State) (c n : Nat) (v : BitVec 64) : State :=
  s.modCore c fun co =>
    match n with
    | 0x28 => { co with hintDrops := BitVec.ofNat 64 ((co.hintDrops.toNat + 2 ^ 48 - v.toNat) % 2 ^ 48) }
    | 0x29 => { co with strayTok := BitVec.ofNat 64 ((co.strayTok.toNat + 2 ^ 48 - v.toNat) % 2 ^ 48) }
    | 0x2A => if co.strayFp = v then { co with strayFp := 0 } else co
    | _ => co

/-- A counter of Table 7.6; one that the partition does not own reads zero (R189). (DEDUCED, log 89) -/
def perfRead (s : State) (c n : Nat) : Nat :=
  let co := s.core c
  match n with
  | 0 => wrap48 (coreCclk s c - co.cycBase)
  | 1 => co.commits
  | 2 => co.undone
  | 3 => co.insns
  | 4 | 5 | 6 | 7 => evcRead s c (n - 4)
  | 8 => co.cc.get 0 0
  | 9 => co.cc.get 3 0
  | 10 => co.cc.get 1 0
  | 11 => co.cc.get 2 0
  | _ => wrap48 (wrap48 (coreCclk s c - co.cycBase) + 2 ^ 50 - natSum ((List.range 4).map fun k => co.cc.get k 0))

/-! ## Writes -/

/-- A write to TQ_BASE is held until every ring and walker-table record of the core is empty (R200). (DEDUCED, log 35) -/
def writeTqBase (s : State) (c : Nat) (v : BitVec 64) : State :=
  let co := s.core c
  if ringsEmpty co then s.setCore c { co with tqBase := v, tqHeld := none, ringHead := [], ringTail := [] }
  else s.setCore c { co with tqHeld := some v }
/-- The held write takes effect. -/
def applyTqBase (s : State) (c : Nat) : State :=
  match (s.core c).tqHeld with | some v => writeTqBase s c v | none => s
/-- EVSEL: OVF bits clear where 1 is written, OIE and SEL are stored, every counter whose selector is written clears. -/
def writeEvsel (s : State) (c : Nat) (v : BitVec 64) : State :=
  s.modCore c fun co =>
    let ovf := bits co.evsel.toNat 63 60
    let keep := natSum ((List.range 4).map fun k => if bit ovf k && !bit v.toNat (60 + k) then 2 ^ (60 + k) else 0)
    { co with evsel := BitVec.ofNat 64 (v.toNat % 2 ^ 60 + keep), evc := [] }

/-- A write to a control register takes effect by its access codes (R13). -/
def coreRegWrite (s : State) (c n : Nat) (v : BitVec 64) : State :=
  match n with
  | 0x08 => s.modCore c fun co => { co with trapv := v }
  | 0x09 =>
    let s := s.modCore c fun co => { co with frameCtl := v }
    let fp := v.toNat % 2 ^ 32
    (match bits v.toNat 34 32 with
      | 0 => trapRerun s c fp | 1 => trapResume s c fp | 2 => trapFree s c fp | _ => s)
  | 0x10 => writeTqBase s c v
  | 0x18 => s.modCore c fun co => { co with syncOvf := v }
  | 0x19 => s.modCore c fun co => { co with syncOva := v }
  | 0x1C => s.modCore c fun co => { co with drainLim := v }
  | 0x20 => s.modCore c fun co => { co with astat := co.astat &&& ~~~v }
  | 0x30 => writeEvsel s c v
  | _ => s

end Sys2Proof.Machine
end

