-- ==== Sys2Proof/Machine/Convert.lean ====
section
/-! DEFINITION. Typed conversion between memory formats and plane elements (R38 to R45, Tables 2.5 and 2.6). -/

namespace Sys2Proof.Machine

def fS4 : Nat := 0x01
def fN4 : Nat := 0x02
def fT2 : Nat := 0x07
def fT5 : Nat := 0x08
def fB1 : Nat := 0x09
def fMXF8 : Nat := 0x0C
def fMXF4 : Nat := 0x0D
def fF32P : Nat := 0x10
/-- A byte as it is read, with the error of the word or codeword that holds it. -/
abbrev EByte := Nat × Bool

/-- Integer formats: bits and whether signed. -/
def intFmt : Nat → Option (Nat × Bool)
  | 1 => some (4, true) | 2 => some (4, false) | 3 => some (8, true) | 4 => some (8, false)
  | 5 => some (16, true) | 6 => some (16, false) | _ => none
/-- Float element formats. -/
def fltFmt : Nat → Option Num.Fmt
  | 0x0A => some Num.e4m3 | 0x0B => some Num.e5m2 | 0x0E => some Num.bf16 | 0x0F | 0x10 => some Num.f32 | _ => none
/-- Formats whose group exponent is aligned (R41). -/
def isAligned (fmt : Nat) : Bool := [0x0A, 0x0B, 0x0C, 0x0E, 0x0F].contains fmt
/-- Formats whose element in error leaves value 0 and an X (Table 2.6). (DEDUCED, log 56) -/
def xFate (fmt : Nat) : Bool := (intFmt fmt).isSome || fmt == fB1

/-! ## Into planes (R39 to R42) -/

def byteAt (l : List EByte) (n : Nat) : Nat := (nthD l n (0, false)).1
/-- The bytes that an element of a unit without a scale byte depends on: its whole unit (R42). -/
def depends (fmt : Nat) : List Nat := List.range (fmtUnit fmt).1
/-- An exact value with status bits, or an error element. -/
def okFl (x : Num.Fl) : Option Num.Fl × Nat := (some x, 0)
def orPcode (x : Option Num.Fl) : Option Num.Fl × Nat := match x with | some y => (some y, 0) | none => (none, flPcode)
/-- An MX element from its scale byte and the byte of its code: each of the two that is no error is read, also where the other
is spoiled, so that a bad one sets PCODE (R22, R40, R41). -/
def mxEl (scale code : EByte) (x : Option Num.Fl) : Option Num.Fl × Nat :=
  if (!scale.2 && scale.1 == 255) || (!code.2 && x.isNone) then (none, flPcode)
  else if scale.2 || code.2 then (none, 0)
  else (x, 0)
/-- Element k of a memory unit: its value before the group exponent (R39 to R41); spoiled bytes are not read (R42).
(DEDUCED, log 101) -/
def unitEl (fmt : Nat) (u : List EByte) (k : Nat) : Option Num.Fl × Nat :=
  let ebyte := fun (n : Nat) => nthD u n (0, true)
  let nib := byteAt u (k / 2) / 16 ^ (k % 2) % 16
  if fmt = fMXF8 then
    mxEl (ebyte 32) (ebyte k) ((Num.e4m3.read (byteAt u k)).map fun x => x.scale ((byteAt u 32 : Int) - 127))
  else if fmt = fMXF4 then mxEl (ebyte 16) (ebyte (k / 2)) (Num.e2m1.read nib)
  else if (depends fmt).any fun n => (ebyte n).2 then (none, 0)
  else
    match intFmt fmt with
    | some (n, sg) =>
      let raw := if n = 4 then nib else leNat (u.map (·.1))
      okFl (Num.Fl.ofInt (if sg then Num.asS raw n else raw))
    | none =>
      if fmt = fT2 then
        (match byteAt u 0 / 4 ^ k % 4 with | 0 => okFl (.ofInt 0) | 1 => okFl (.ofInt 1) | 3 => okFl (.ofInt (-1)) | _ => (none, flPcode))
      else if fmt = fT5 then
        (if byteAt u 0 > 242 then (none, flPcode)
         else match byteAt u 0 / 3 ^ k % 3 with | 0 => okFl (.ofInt 0) | 1 => okFl (.ofInt 1) | _ => okFl (.ofInt (-1)))
      else if fmt = fB1 then okFl (.ofInt (bnat (bit (byteAt u 0) k)))
      else match fltFmt fmt with
        | some f => orPcode (f.read (leNat (u.map (·.1))))
        | none => (none, 0)

/-- The plane elements of one group from its element values: the group exponent where one is written, the elements,
status bits. `scale` is the MX scale byte of an MXF4 group. (DEDUCED, log 54) -/
def groupIn (fmt w : Nat) (code : BitVec 2) (g : Bool) (scale : Nat) (vs : List (Option Num.Fl)) : Option Int × List El × Nat :=
  if isAligned fmt then
    let (e, els, fl) := alignEls w code vs
    (some e, els, fl)
  else if fmt = fF32P then (none, vs.map fun v => v.map fun x => (false, (Num.f32.write x).1), 0)
  else if fmt = fMXF4 then
    (some (if scale = 255 then 0 else (scale : Int) - 128), vs.map fun v => v.map fun x => (x.neg, (x.abs.scale 1).round.toNat), 0)
  else
    let fit := fun (x : Num.Fl) => elFits w code x.round
    (if g then some 0 else none,
     vs.map fun v => match v with | some x => if fit x then some (intEl x.round) else none | none => none,
     if vs.any fun v => match v with | some x => !fit x | none => false then flCvt else 0)

/-! ## Out of planes (R43 to R45, R286) -/

/-- An element's code in a format that is not an MX format, whether it is written in error, status bits. -/
def encEl (fmt : Nat) (sat : Bool) (v : Option Num.Fl) : Nat × Bool × Nat :=
  match fltFmt fmt, v with
  | some f, some x => let (p, st) := f.write x; (p, false, if st then flSat else 0)
  | some _, none => ((match fmt with | 0x0A | 0x0B => 0x7F | 0x0E => 0x7FC0 | _ => 0x7FC00000), true, 0)
  | none, v =>
    let bad := if fmt = fT2 then 2 else 0
    match v with
    | none => (bad, true, 0)
    | some x =>
      match intFmt fmt with
      | some (n, sg) =>
        let (y, clip) := if sg then Num.satS x.round n else Num.satN x.round n
        if !clip then (Num.wrap y n, false, 0) else if sat then (Num.wrap y n, false, flIsat) else (0, true, flCvt)
      | none =>
        let r := x.round
        if r = 0 then (0, false, 0) else if r = 1 then (1, false, 0)
        else if r = -1 ∧ fmt ≠ fB1 then (if fmt = fT2 then 3 else 2, false, 0)
        else (bad, true, flCvt)

/-- A memory unit from its elements: bytes, elements in error, status bits. -/
def unitOut (fmt : Nat) (sat : Bool) (vs : List (Option Num.Fl)) : List Nat × Nat × Nat :=
  let nibs := fun (l : List Nat) => (List.range 16).map fun k => nthD l (2 * k) 0 % 16 + nthD l (2 * k + 1) 0 % 16 * 16
  if fmt = fMXF4 ∧ vs.any (·.isNone) then (List.replicate 16 0 ++ [255], vs.length, 0)
  else if fmt = fMXF8 ∨ fmt = fMXF4 then
    let mx := vs.foldl (fun (a : Num.Fl) v => match v with | some x => if a.lt x.abs then x.abs else a | none => a) ⟨false, 0, 0⟩
    let x : Int := if mx.m = 0 then 0 else max 0 (min 254 (mx.flog2 - (if fmt = fMXF8 then 8 else 2) + 127))
    let f := if fmt = fMXF8 then Num.e4m3 else Num.e2m1
    let out := vs.map fun v => match v with
      | some y => let (p, st) := f.write (y.scale (127 - x)); (p, false, if st then flSat else 0)
      | none => (0x7F, true, 0)
    let codes := out.map (·.1)
    ((if fmt = fMXF8 then codes else nibs codes) ++ [x.toNat], (out.filter (·.2.1)).length, flagsOf (out.map (·.2.2)))
  else
    let out := vs.map (encEl fmt sat)
    let codes := out.map (·.1)
    let errs := (out.filter (·.2.1)).length
    let fl := flagsOf (out.map (·.2.2))
    let sum := fun (b : Nat) => natSum (((List.range codes.length).zip codes).map fun e => e.2 * b ^ e.1)
    if fmt = fT5 then (if errs > 0 then ([255], vs.length, fl) else ([sum 3], 0, fl))
    else (leBytes (if fmt = fT2 then sum 4 else if fmt = fB1 then sum 2 else sum 16) (fmtUnit fmt).1, errs, fl)

end Sys2Proof.Machine
end

