-- ==== Sys2Proof/Machine/Streams.lean ====
section
/-! DEFINITION. The copy engine (chapter 11): nest descriptors, the pieces of a memory-side address, a step of each work
command, stream images, and the control commands, which act when they are released. -/

namespace Sys2Proof.Machine

/-! ## Token reasons (Table 11.7) -/

def cpMisaligned : Nat := 0x38
def cpDesc : Nat := 0x41
def cpRange : Nat := 0x42
def cpCancelled : Nat := 0x43
def cpBusy : Nat := 0x44

/-! ## The nest (R278, R279) -/

def nestAt (ws : List (BitVec 64)) (k : Nat) : Nat := (nthD ws k 0).toNat
def nestNd (ws : List (BitVec 64)) : Nat := bits (nestAt ws 0) 2 0
def nestKt (ws : List (BitVec 64)) : Nat := bits (nestAt ws 0) 22 8 + 1
/-- COUNT of dimension d. -/
def nestCount (ws : List (BitVec 64)) (d : Nat) : Nat := if d < nestNd ws then bits (nestAt ws (1 + 2 * d)) 63 48 + 1 else 1
/-- The product of the counts below a dimension. -/
def nestDiv (ws : List (BitVec 64)) (d : Nat) : Nat := (List.range d).foldl (fun p k => p * nestCount ws k) 1
/-- Counter i_d of unit u. -/
def nestDigit (ws : List (BitVec 64)) (u d : Nat) : Nat := u / nestDiv ws d % nestCount ws d
/-- A unit's address from a base: the MSTRIDEs stand in the odd words of the nest, the DSTRIDEs in the even ones. -/
def nestAddr (ws : List (BitVec 64)) (base u : Nat) (dst : Bool) : Nat :=
  Num.wrap ((List.range 5).foldl (fun (a : Int) d =>
    a + (nestDigit ws u d : Int) * Num.asS (nestAt ws (1 + 2 * d + bnat dst) % 2 ^ 48) 48) (base : Int)) 64

/-- The tensor layout of a command: LAY of CPY.CONV. -/
def cpyLay : Instr → Nat
  | .cpyConv _ _ _ _ _ _ _ _ _ _ _ lay => lay.toNat
  | _ => 0
/-- The plane set of a command's plane side at its base. -/
def cpySet (r : Released) : PSet :=
  let base := opNat r 1 % 2 ^ 17
  match r.i with
  | .cpyPlanes _ _ _ _ _ _ mat _ wd _ code g _ => ⟨r.core, base, gw wd code, code, g, if mat then 32 else 16⟩
  | .cpyConv _ _ _ _ _ _ _ wd code g _ lay => ⟨r.core, base, gw wd code, code, g, if lay = 0 then 16 else 32⟩
  | _ => ⟨r.core, base, 1, 0, false, 16⟩
/-- Elements per unit of a conversion. -/
def cpyEpu : Instr → Nat
  | .cpyConv _ _ _ _ _ _ fmt _ _ _ _ _ => (fmtUnit fmt.toNat).2
  | _ => 1

/-- DESC (R281): what a descriptor's words may not hold. -/
def nestBad (i : Instr) (ws : List (BitVec 64)) : Bool :=
  let nd := nestNd ws
  let kt := nestKt ws
  let str := match i with | .cpyStream .. => true | _ => false
  bits (nestAt ws 0) 7 3 != 0 || bits (nestAt ws 0) 63 23 != 0 || nestAt ws 11 != 0 || decide (nd = 0 ∨ nd > 5)
    || (List.range 5).any (fun d =>
        let m := nestAt ws (1 + 2 * d)
        let x := nestAt ws (2 + 2 * d)
        (decide (d ≥ nd) && (m != 0 || x != 0)) || bits x 63 48 != 0 || (!str && x != 0))
    || decide (nestU ws ≥ 2 ^ 32) || (if cpyLay i = 0 then kt != 1 else kt % 32 != 0)
/-- RANGE (R281): the plane side of a command. -/
def planeBad (s : State) (r : Released) (ws : List (BitVec 64)) : Bool :=
  let p := cpySet r
  let n := nestU ws * cpyEpu r.i
  let kt := nestKt ws
  let past := fun (sets : Nat) =>
    decide (p.base + sets * p.size > Config.spWords) || decide (p.base + sets * p.size > bits (s.core r.core).frameBase.toNat 16 0)
  match r.i with
  | .cpyPlanes .. => past (nestU ws)
  | .cpyConv _ _ _ _ _ _ _ _ _ _ _ lay =>
    if lay = 0 then decide (n > 4194303) || past (cdiv n 1024) else decide (n > 64 * kt) || past (kt / 32)
  | _ => false

/-! ## Memory-side addresses (R279, R288) -/

/-- What keeps a step from being performed: an empty word, a translation, the line of a slot, a fault with reason, side and
address. -/
inductive CStop where
  | wait (key : Nat)
  | walk (va : Nat) (side : Bool)
  | held (d slot : Nat) (write : Bool)
  | fault (reason : Nat) (side : Bool) (va : Nat)

/-- n bytes from an address on, cut at the multiples of g: address, offset, bytes. -/
def cutAt (g : Nat) : Nat → Nat → Nat → Nat → List (Nat × Nat × Nat)
  | 0, _, _, _ => []
  | fuel + 1, a, off, n =>
    if n = 0 then [] else
    let k := min n (g - a % g)
    (a % 2 ^ 64, off, k) :: cutAt g fuel (a + k) (off + k) (n - k)

/-- Words of a register page are written and read one by one (R345). -/
def splitReg (s : State) (p : Piece) : List Piece :=
  match p.loc.space, physKind s p.loc.key with
  | .global, .reg _ _ => (cutAt 8 p.n p.loc.key 0 p.n).map fun e =>
      { p with loc := { p.loc with key := p.loc.key + e.2.1, va := p.loc.va + e.2.1 }, off := p.off + e.2.1, n := e.2.2 }
  | _, _ => [p]

/-- The pieces of a unit at an address: first its bytes' BAD_ADDR, then its alignment, then each piece's other checks in
order (R162, R288). (DEDUCED, log 52) -/
def place (s : State) (c : Nat) (sp : Space) (va off n : Nat) (side write : Bool) (algn : Nat) (ua : Nat) :
    Except CStop (List Piece) :=
  let q : Ask := { core := c, space := sp, size := 1, write, frame := write }
  let cuts := cutAt (match sp with | .global => 64 | _ => 8) n (va + off) 0 n
  let bad := cuts.filterMap fun e => match checkAddr s q e.1 with | .trap 0x22 r => some (r, e.1) | _ => none
  match bad with
  | (r, a) :: _ => .error (.fault r side a)
  | [] =>
    if algn ≠ 0 ∧ ua % algn ≠ 0 then .error (.fault cpMisaligned side ua)
    else do
      let ps ← cuts.mapM fun e => match checkAddr s q e.1 with
        | .ok loc t => (.ok ⟨loc, off + e.2.1, e.2.2, t⟩ : Except CStop Piece)
        | .trap _ r => .error (.fault r side e.1)
        | .miss => .error (.walk e.1 side)
      .ok (ps.flatMap (splitReg s))

/-- The first empty tagged word of some pieces. -/
def pieceEmpty (s : State) (ps : List Piece) : Option Nat :=
  (ps.filter fun p => p.loc.space != .global && !keyF s.mem p.loc.key).head?.map fun p => p.loc.key / 8 * 8

/-- The stream of a work command. -/
def workStream (i : Instr) : Nat := match engOf i with | some (.cpy k) => k | _ => 0
/-- A unit reaches its slots of the block store together, or waits in the line of one (R372). -/
def slotGate (s : State) (r : CpyRun) (src dst : List Piece) : Except CStop Unit :=
  let me := HeldBy.copy r.cmd.core (workStream r.cmd.i)
  match kvWaits s (src.map (·.loc)) false me, kvWaits s (dst.map (·.loc)) true me with
  | some (d, slot), _ => .error (.held d slot false)
  | none, some (d, slot) => .error (.held d slot true)
  | none, none => .ok ()
/-- Through a slot of the block store, once the gate has been passed. -/
def slotGo (s : State) (loc : Loc) (write : Bool) : State × Loc :=
  match kvMap s loc write with | some r => r | none => (s, loc)

/-- A piece is read: its bytes, each with the error of its word or codeword. `cnt`: its sector has not been counted (R354). -/
def readPiece (s : State) (c : Nat) (cnt : Bool) (p : Piece) : State × List EByte :=
  let (s, loc) := slotGo (noteTlb (awake s p.loc.key) c p.tlb) p.loc false
  let out := fun (v : Nat) (x : Bool) => (leBytes v p.n).map fun b => (b, x)
  match loc.space, physKind s loc.key with
  | .global, .reg _ _ => let (s, v) := locRead s c loc p.n s.tick 0; (s, out v.nat v.x)
  | .global, _ => let (v, x) := physRead s loc.key p.n s.tick; (if cnt then llcCoreRead s c loc.key 0 else s, out v x)
  | _, _ => (s, out (memNat s.mem loc.key p.n) (keyX s.mem loc.key))
/-- Pieces in order; those of one sector that follow each other are one read. (DEDUCED, log 113) -/
def readPieces (s : State) (c : Nat) : Option Nat → List Piece → State × List EByte
  | _, [] => (s, [])
  | sec, p :: ps =>
    let (s, a) := readPiece s c (sec != some (p.loc.va / 128)) p
    let (s, b) := readPieces s c (some (p.loc.va / 128)) ps
    (s, a ++ b)

/-- A piece is written (R282, R167): on a tagged word its size's store with the X given, and with FULL its F set; in
GLOBAL memory X poisons, and a clean codeword loses its poison. (DEDUCED, log 56, log 100) -/
def writePiece (s : State) (c : Nat) (full : Bool) (p : Piece) (v : Nat) (x : Bool) : State :=
  let (s, loc) := slotGo (noteTlb (awake s p.loc.key) c p.tlb) p.loc true
  match loc.space, physKind s loc.key with
  | .global, .reg _ _ => locWrite s c loc p.n ⟨BitVec.ofNat 64 v, x⟩
  | .global, _ => llcCoreWrite (physWrite s loc.key v p.n x) c loc.key
  | _, _ =>
    if full ∧ p.n = 8 then writeFull s loc.key ⟨BitVec.ofNat 64 v, x⟩
    else
      let m := memPut s.mem loc.key v p.n
      let s := s.setMem (setTags m loc.key (keyF m loc.key) (if p.n = 8 then x else x || keyX m loc.key))
      if full then setFull s loc.key else s
/-- The bytes of a unit written piece by piece; `x` marks tagged words, `poison` codewords. -/
def writePieces (s : State) (c : Nat) (full : Bool) (bs : List Nat) (x poison : Bool) : List Piece → State
  | [] => s
  | p :: ps =>
    writePieces (writePiece s c full p (leNat (bs.take p.n)) (match p.loc.space with | .global => poison | _ => x))
      c full (bs.drop p.n) x poison ps

/-! ## A step of each work command -/

/-- What a step has done: the state, what it adds to the counts, whether it wrote an error into untagged memory, the units that
are issued and not yet written. -/
structure CDone where
  s : State
  done : Nat
  errs : Nat := 0
  xtok : Bool := false
  ahead : List (List EByte × List Piece) := []

/-- Unit u of a CPY.STREAM is issued: its source is read, its destination translated (R282, R283). -/
def streamIssue (s : State) (r : CpyRun) (sync : Bool) (sps spd : Space) (esz u : Nat) : Except CStop (State × List EByte × List Piece) := do
  let c := r.cmd.core
  let n := 2 ^ esz
  let a := nestAddr r.nest (opNat r.cmd 0) u false
  let b := nestAddr r.nest (opNat r.cmd 1) u true
  let src ← place s c sps a 0 n false false n a
  let dst ← place s c spd b 0 n true true n b
  match (if sync then pieceEmpty s src else none) with
  | some key => .error (.wait key)
  | none =>
    slotGate s r src []
    let (s, bs) := readPieces s c none src
    .ok (s, bs, dst)
/-- Up to n more units are issued behind those that are; one that cannot be yet ends it. -/
def streamAhead (issue : State → Nat → Except CStop (State × List EByte × List Piece)) (next : Nat) :
    Nat → State × List (List EByte × List Piece) → State × List (List EByte × List Piece)
  | 0, a => a
  | n + 1, (s, l) =>
    match issue s (next + l.length) with
    | .ok (s, u) => streamAhead issue next n (s, l ++ [u])
    | .error _ => (s, l)
/-- A unit that has been read is written; answers its error (R282). -/
def streamPut (s : State) (c : Nat) (full : Bool) (u : List EByte × List Piece) : State × Nat :=
  let bad := u.1.any (·.2)
  (writePieces s c full (u.1.map fun e => if bad then 0 else e.1) bad bad u.2, bnat bad)
/-- CPY.STREAM: one unit (R282). The engine issues up to 64 units ahead of its writes, as many as it likes, and a unit that was
issued may keep a translation that has gone since (R283). (DESIGN CHOICE, log 57) -/
def streamStep (s : State) (r : CpyRun) (sync full : Bool) (sps spd : Space) (esz : Nat) : Except CStop CDone := do
  let c := r.cmd.core
  let issue := fun (s : State) (u : Nat) => streamIssue s r sync sps spd esz u
  let (s, l) ← match r.ahead with
    | [] => (issue s r.step).map fun x => (x.1, [x.2])
    | l => .ok (s, l)
  let room := min (65 - l.length) (nestU r.nest - (r.step + l.length))
  let (s, l) := if room = 0 then (s, l)
    else streamAhead issue r.step (Config.pick s.draws % (room + 1)) ({ s with draws := s.draws + 1 }, l)
  match l with
  | [] => .ok { s, done := 0 }
  | (bs, dst) :: ahead =>
    let b := nestAddr r.nest (opNat r.cmd 1) r.step true
    let now := place s c spd b 0 (2 ^ esz) true true (2 ^ esz) b
    let same : Bool := (match now with | .ok ps => ps.map (·.loc) == dst.map (·.loc) | .error _ => false)
    let keep : Bool := same || Config.pick s.draws % 2 == 0
    let s := if same then s else { s with draws := s.draws + 1 }
    let dst ← if keep then .ok dst else now
    slotGate s r [] dst
    let (s, errs) := streamPut s c full (bs, dst)
    .ok { s, done := 1, errs, ahead }

/-- Bytes as words with their masks of bits in error. -/
def maskedWords : Nat → List EByte → List (Nat × Nat)
  | 0, _ => []
  | n + 1, l =>
    let w := l.take 8
    (leNat (w.map (·.1)), leNat (w.map fun e => 255 * bnat e.2)) :: maskedWords n (l.drop 8)
/-- The lists of n elements that a list falls into. -/
def chunks {α : Type} (n : Nat) : Nat → List α → List (List α)
  | 0, _ => []
  | k + 1, l => l.take n :: chunks n k (l.drop n)

/-- The words of one plane set as it is copied (R284): elements with a bit in a bad word, and those of a group whose
exponent byte is bad, in canonical form, as are the error elements of the source (R31); the exponents moved by `low` and held at
127. Answers SAT too. (DEDUCED, log 45) -/
def cleanSet (p : PSet) (low : Nat) (ws : List (Nat × Nat)) : List Nat × Bool :=
  let planes := chunks p.unit p.parts ws
  let errs := nthD planes (p.parts - 1) []
  let exps := ws.drop (p.parts * p.unit)
  let expBad := exps.flatMap fun e => (List.range 8).map fun b => bit e.2 (8 * b)
  let cols := (List.range p.unit).map fun j =>
    planes.foldl (fun m pl => m ||| (nthD pl j (0, 0)).2) (nthD errs j (0, 0)).1
      ||| (if nthD expBad (2 * j) false then 2 ^ 32 - 1 else 0) ||| (if nthD expBad (2 * j + 1) false then (2 ^ 32 - 1) * 2 ^ 32 else 0)
  let out := ((List.range p.parts).zip planes).flatMap fun e =>
    (cols.zip e.2).map fun x => if e.1 + 1 = p.parts then x.2.1 ||| x.1 else x.2.1 &&& (2 ^ 64 - 1 - x.1)
  let moved := exps.map fun e => (List.range 8).map fun b =>
    if bit e.2 (8 * b) then (0, false)
    else let x := Num.asS (e.1 / 256 ^ b % 256) 8 + low; (Num.wrap (min 127 x) 8, decide (x > 127))
  (out ++ moved.map fun l => leNat (l.map (·.1)), moved.any fun l => l.any (·.2))

/-- Keys of a plane set's words in the order of its image: planes, error plane, used exponents (R36). -/
def setKeys (p : PSet) (b : Nat) : List Nat :=
  (List.range p.parts).flatMap (fun k => (List.range p.unit).map fun j => p.key b k j)
    ++ (if p.g then (List.range (p.unit / 4)).map fun j => p.key b p.parts j else [])

/-- The images of a command up to image u have written a byte of memory, `len` bytes from `off` on of each. -/
def imageWrote (r : CpyRun) (off len u a : Nat) : Bool :=
  (List.range (u + 1)).any fun k => let b := nestAddr r.nest (opNat r.cmd 0) k false + off; decide (b ≤ a ∧ a < b + len)
/-- The words that an image writes only in part have X cleared once the command's images together have written them in full
(R284). -/
def clearShared (s : State) (r : CpyRun) (off len : Nat) (ps : List Piece) : State :=
  ps.foldl (fun s p => match p.loc.space with
    | .global => s
    | _ => if p.n < 8 && (List.range 8).all (fun b => imageWrote r off len r.step (p.loc.va / 8 * 8 + b)) then
        s.setMem (setTags s.mem p.loc.key (keyF s.mem p.loc.key) false) else s) s
/-- CPY.PLANES: one image (R284); out of planes the image is one run of bytes. -/
def planesStep (s : State) (r : CpyRun) (sync full : Bool) (spm : Space) (dir mat : Bool) (ws wd low : BitVec 4)
    (code : BitVec 2) (g expadj : Bool) : Except CStop CDone := do
  let c := r.cmd.core
  let p := cpySet r.cmd
  let P := if mat then 256 else 128
  let used := if g then p.unit * 2 else 0
  let img : PSet := ⟨c, 0, gw ws code, code, g, p.unit⟩
  let size := 8 * img.size
  let algn := if 2 ^ Nat.log2 size = size then size else 0
  let a := nestAddr r.nest (opNat r.cmd 0) r.step false
  let rest := (p.parts - p.w) * P + used
  let s1 ← place s c spm a (low.toNat * P) (gw wd code * P + if dir then rest else 0) dir dir algn a
  let s2 ← if dir then .ok [] else place s c spm a (gw ws code * P) rest dir dir 0 a
  let keys := setKeys p r.step
  let n := keys.length
  if dir then
    match firstEmpty s.mem keys with
    | some key => .error (.wait key)
    | none =>
      let words := keys.map fun k => let w := getWord s.mem k; (w.d.toNat, if w.x then 2 ^ 64 - 1 else 0)
      let bs := (cleanSet p 0 words).1.flatMap fun w => leBytes w 8
      slotGate s r [] s1
      let s := writePieces s c full bs false false s1
      .ok { s := clearShared s r (low.toNat * P) (gw wd code * P + rest) s1, done := 1 }
  else
    match (if sync then pieceEmpty s (s1 ++ s2) else none) with
    | some key => .error (.wait key)
    | none =>
      slotGate s r (s1 ++ s2) []
      let (s, bs) := readPieces s c none (s1 ++ s2)
      let (out, sat) := cleanSet p (if expadj then low.toNat else 0) (maskedWords n bs)
      let s := (keys.zip out).foldl (fun s e => planeWrite s e.1 (2 ^ 64 - 1) e.2) s
      .ok { s := setAstat s c (if sat then flSat else 0), done := 1 }

/-- Set and lane of plane-side element e (R285). -/
def convPos (lay kt e : Nat) : Nat × Nat :=
  if lay = 0 then (e / 1024, e % 1024) else (e % kt / 32, 32 * (e / kt) + e % kt % 32)

/-- CPY.CONV into planes: one group (R285). (DEDUCED, log 53, log 102) -/
def convIn (s : State) (r : CpyRun) (sync : Bool) (spm : Space) (fmt : Nat) (code : BitVec 2) (g : Bool) (lay : Nat) :
    Except CStop CDone := do
  let c := r.cmd.core
  let p := cpySet r.cmd
  let (ub, epu) := fmtUnit fmt
  let n := nestU r.nest * epu
  let e0 := 32 * r.step
  let e1 := min n (e0 + 32)
  let algn := if 2 ^ Nat.log2 ub = ub then ub else 0
  let units := (List.range ((e1 - 1) / epu + 1 - e0 / epu)).map (· + e0 / epu)
  let ps ← units.mapM fun u => let a := nestAddr r.nest (opNat r.cmd 0) u false; place s c spm a 0 ub false false algn a
  match (if sync then pieceEmpty s ps.flatten else none) with
  | some key => .error (.wait key)
  | none =>
    slotGate s r ps.flatten []
    let (s, bs) := readPieces s c none ps.flatten
    let us := chunks ub units.length bs
    let vals := (List.range (e1 - e0)).map fun k => unitEl fmt (nthD us ((e0 + k) / epu - e0 / epu) []) ((e0 + k) % epu)
    let scale := nthD (nthD us 0 []) 16 (0, false)
    let (ex, els, fl) := groupIn fmt p.w code g (if scale.2 then 255 else scale.1) (vals.map (·.1))
    let (b, lane) := convPos lay (nestKt r.nest) e0
    let s := p.put s b (((List.range els.length).map (· + lane)).zip els)
    let s := match ex with | some x => p.putExps s b [(lane / 32, x)] | none => s
    .ok { s := setAstat s c (orFlags fl (flagsOf (vals.map (·.2)))), done := e1 - e0, errs := (els.filter (·.isNone)).length }

/-- CPY.CONV out of planes: the units whose last element lies in a group (R286). -/
def convOut (s : State) (r : CpyRun) (full : Bool) (spm : Space) (fmt : Nat) (code : BitVec 2) (sat : Bool) (lay : Nat) :
    Except CStop CDone := do
  let c := r.cmd.core
  let p := cpySet r.cmd
  let (ub, epu) := fmtUnit fmt
  let n := nestU r.nest * epu
  let e0 := 32 * r.step
  let e1 := min n (e0 + 32)
  let algn := if 2 ^ Nat.log2 ub = ub then ub else 0
  let units := (List.range (e1 / epu - e0 / epu)).map (· + e0 / epu)
  let ps ← units.mapM fun u => let a := nestAddr r.nest (opNat r.cmd 0) u false; place s c spm a 0 ub true true algn a
  let pos := fun (u : Nat) => (List.range epu).map fun k => convPos lay (nestKt r.nest) (u * epu + k)
  match firstEmpty s.mem (units.flatMap fun u => (pos u).flatMap fun e => p.needs e.1 [e.2]) with
  | some key => .error (.wait key)
  | none =>
    let read := fun (e : Nat × Nat) => match p.el s.mem e.1 e.2 with
      | none => ((none : Option Num.Fl), 0)
      | some x => orPcode (elFl code x (p.exp s.mem e.1 e.2))
    slotGate s r [] ps.flatten
    let one := fun (d : CDone) (e : Nat × List Piece) =>
      let vals := (pos e.1).map read
      let (bs, errs, fl) := unitOut fmt sat (vals.map (·.1))
      let bad := xFate fmt && decide (errs > 0)
      let s := writePieces d.s c full bs bad false e.2
      { s := setAstat s c (orFlags fl (flagsOf (vals.map (·.2)))), done := d.done, errs := d.errs + errs
        xtok := d.xtok || (bad && e.2.any fun x => x.loc.space == .global) : CDone }
    .ok ((units.zip ps).foldl one { s, done := e1 - e0 })

/-- One step of a work command. -/
def cpyStep (s : State) (r : CpyRun) : Except CStop CDone :=
  match r.cmd.i with
  | .cpyStream _ sync full _ sps spd esz => streamStep s r sync full sps spd esz.toNat
  | .cpyPlanes _ sync full _ spm dir mat ws wd low code g expadj => planesStep s r sync full spm dir mat ws wd low code g expadj
  | .cpyConv _ sync full _ spm dir fmt _ code g sat lay =>
    if dir then convOut s r full spm fmt.toNat code sat lay.toNat else convIn s r sync spm fmt.toNat code g lay.toNat
  | _ => .ok { s, done := 0 }

/-! ## A stream -/

def State.stream (s : State) (c k : Nat) : Stream := (s.core c).streams.get k {}
def setStream (s : State) (c k : Nat) (x : Stream) : State := s.modCore c fun co => { co with streams := co.streams.put k x }
/-- A token with X, a reason and data; the stream remembers the reason. -/
def cpyBad (s : State) (c k : Nat) (r : Released) (reason data : Nat) : State :=
  let s := setStream s c k { s.stream c k with lastr := reason }
  sendDone s r ⟨BitVec.ofNat 64 (reason * 2 ^ 56 + data), true⟩

/-- A stream pauses at a fault; reads that went ahead are discarded (R288). -/
def cpyPause (s : State) (c k : Nat) (r : CpyRun) (reason : Nat) (side : Bool) (va : Nat) : State :=
  let s := setStream s c k { s.stream c k with cur := some { r with paused := true, reason, waitW := none, waitWalk := none, held := false, ahead := [] } }
  cpyBad s c k r.cmd reason (k * 2 ^ 54 + bnat side * 2 ^ 53 + va % 2 ^ 48)

/-- Completion data (R282, R284, R286). -/
def cpyData (r : CpyRun) : Nat :=
  r.done % 2 ^ 32 + (match r.cmd.i with | .cpyPlanes .. => 0 | _ => hold r.errs 0xFFFFFF * 2 ^ 32)

/-- A step of the stream's started command. -/
def cpyRunStep (s : State) (c k : Nat) (r : CpyRun) : State :=
  let put := fun (s : State) (o : Option CpyRun) => setStream s c k { s.stream c k with cur := o }
  match cpyStep s r with
  | .error (.wait key) => awake (put s (some { r with waitW := some key })) key
  | .error (.walk va side) => startWalk (put s (some { r with waitWalk := some (va, side) })) c va (.copy c k va side)
  | .error (.held d slot write) => kvHold (put s (some { r with held := true })) d slot write (.copy c k)
  | .error (.fault reason side va) => cpyPause s c k r reason side va
  | .ok d =>
    let r' := { r with step := r.step + 1, done := r.done + d.done, errs := r.errs + d.errs, xtok := r.xtok || d.xtok, waitW := none, held := false, ahead := d.ahead }
    let d := if r.held then { d with s := kvLeaveAll d.s (.copy c k) } else d
    let d := { d with s := countEv d.s c 0x23 1 }
    if r'.step < (cpyCost r.cmd.i r.nest).2 then put d.s (some r')
    else sendDone (put d.s none) r.cmd ⟨BitVec.ofNat 64 (cpyData r'), r'.xtok⟩

/-- What a stream has read ahead is written, and its steps and counts tell so (R294). -/
def streamLand (s : State) (c k : Nat) : State :=
  match (s.stream c k).cur with
  | none => s
  | some r =>
    let full := match r.cmd.i with | .cpyStream _ _ full .. => full | _ => false
    let one := fun (a : State × CpyRun) (u : List EByte × List Piece) =>
      let (s, errs) := streamPut a.1 c full u
      (countEv s c 0x23 1, { a.2 with step := a.2.step + 1, done := a.2.done + 1, errs := a.2.errs + errs })
    let (s, r') := r.ahead.foldl one (s, { r with ahead := [] })
    if r.ahead = [] then s
    else if r'.step < (cpyCost r.cmd.i r.nest).2 then setStream s c k { s.stream c k with cur := some r' }
    else sendDone (setStream s c k { s.stream c k with cur := none }) r.cmd ⟨BitVec.ofNat 64 (cpyData r'), r'.xtok⟩
/-- The start of a work command (R278, R281): its descriptor is read on F. -/
def cpyStart (s : State) (c k : Nat) (r : CpyRun) : State :=
  let base := opNat r.cmd 2 % 2 ^ 17
  let keys := (List.range 12).map fun n => wordKey c (base + n)
  let put := fun (o : Option CpyRun) => setStream s c k { s.stream c k with cur := o }
  match firstEmpty s.mem keys with
  | some key => awake (put (some { r with waitW := some key })) key
  | none =>
    let ws := keys.map (getWord s.mem)
    let nest := ws.map (·.d)
    if ws.any (·.x) || nestBad r.cmd.i nest then cpyBad (put none) c k r.cmd cpDesc 0
    else if planeBad s r.cmd nest then cpyBad (put none) c k r.cmd cpRange 0
    else put (some { r with nest, started := true, waitW := none })
def cpyGo (s : State) (c k : Nat) (r : CpyRun) : State := if r.started then cpyRunStep s c k r else cpyStart s c k r

/-! ## Stream images (R290, R292) -/

/-- The image of a stream's command (Table 11.8), its first word as released; descriptor words not yet read are taken as they stand. -/
def cpyImage (s : State) (r : Option CpyRun) : List Nat :=
  match r with
  | none => List.replicate 20 0
  | some r =>
    let op := fun (n : Nat) => opNat r.cmd n
    let u := if r.started then r.step * (match r.cmd.i with | .cpyConv .. => 32 | _ => 1) / cpyEpu r.cmd.i else 0
    let nest := if r.started then r.nest else nestWords s r.cmd.core (op 2 % 2 ^ 17)
    let dig := fun (d : Nat) => if r.started then nestDigit nest u d else 0
    let words := encodeNat r.cmd.i
    let slot := match r.cmd.i.shape.slots.head? with | some n => n.toNat | none => 0
    [(match r.w0 with | some w => w | none => nthD words 0 0) + nthD words 1 0 * 2 ^ 32, op 0, op 1, op 2,
     r.cmd.fp % 2 ^ 32 + slot * 2 ^ 32 + 2 ^ 40 + bnat r.paused * 2 ^ 41 + (if r.paused then r.reason * 2 ^ 56 else 0),
     dig 0 + dig 1 * 2 ^ 16 + dig 2 * 2 ^ 32 + dig 3 * 2 ^ 48, dig 4,
     r.done % 2 ^ 32 + hold r.errs 0xFFFFFF * 2 ^ 32] ++ nest.map (·.toNat)

/-- The keys of an image of 20 words, and the first of them that is empty. -/
def imageKeys (c : Nat) (r : Released) : List Nat := (List.range 20).map fun n => wordKey c (opNat r 0 % 2 ^ 17 + n)
def imageEmpty (s : State) (c : Nat) (r : Released) : Option Nat := firstEmpty s.mem (imageKeys c r)

/-- The work command of an image's command word for stream k: CV is tested, the completion slot is word 4's, PRED and
the STREAM bits are not looked at. (DEDUCED, log 51) -/
def imageInstr (w0 slot k : Nat) : Option Instr :=
  let w := setBits (setBits (w0 % 2 ^ 32) 7 8 slot) 23 2 0
  let st := setBits (w0 / 2 ^ 32) 0 2 k
  if !bit w0 15 then none
  else match decodeWords [BitVec.ofNat 32 w, BitVec.ofNat 32 st] with
    | .ok i => (match i with | .cpyStream .. | .cpyPlanes .. | .cpyConv .. => some i | _ => none)
    | .error _ => none

/-- A conversion into GLOBAL memory of a format whose errors stay plain bytes owes X once it has written one (R281). -/
def xOwed : Instr → Bool
  | .cpyConv _ _ _ _ spm dir fmt .. => dir && (match spm with | .global => xFate fmt.toNat | _ => false)
  | _ => false
/-- The command that an image describes, or that it meets DESC (R290): a CPY.CONV counts elements (R285). (DEDUCED, log 51) -/
def loadImage (s : State) (c k : Nat) (r : Released) : Option CpyRun :=
  let ws := (imageKeys c r).map (getWord s.mem)
  let w := fun (n : Nat) => (nthD ws n {}).d.toNat
  let nest := (ws.drop 8).map (·.d)
  let w4 := w 4
  match imageInstr (w 0) (bits w4 38 32) k with
  | none => none
  | some i =>
    let cmd : Released := { i, core := c, fp := w4 % 2 ^ 32, ops := [Val.ofNat (w 1), Val.ofNat (w 2), Val.ofNat (w 3)]
                            cls := r.cls, sec := r.sec }
    let ix := [bits (w 5) 15 0, bits (w 5) 31 16, bits (w 5) 47 32, bits (w 5) 63 48, bits (w 6) 15 0]
    let u := ((List.range 5).zip ix).foldl (fun (a : Nat) e => a + e.2 * nestDiv nest e.1) 0
    let step := match i with | .cpyConv .. => cdiv (u * cpyEpu i) 32 | _ => u
    let done := w 7 % 2 ^ 32
    let errs := bits (w 7) 55 32
    if ws.any (·.x) || bit w4 39 || bits w4 55 42 != 0 || bits (w 6) 63 16 != 0 || bits (w 7) 63 56 != 0
        || fpBad s (w4 % 2 ^ 32) || fpCore (w4 % 2 ^ 32) != c || nestBad i nest || planeBad s cmd nest
        || ((List.range 5).zip ix).any (fun e => decide (e.2 ≥ nestCount nest e.1))
        || decide (done > nestU nest * cpyEpu i) || decide (errs > done) then none
    else some { cmd, nest, step, done, errs, started := true, paused := bit w4 41, reason := if bit w4 41 then bits w4 63 56 else 0
                w0 := some (w 0 % 2 ^ 32), xtok := decide (errs > 0) && xOwed i }

/-- CPY.RESUME with IMG = 1, all words of the image full (R290). -/
def cpyLoad (s : State) (c k : Nat) (r : Released) : State :=
  let x := s.stream c k
  let w4 := (getWord s.mem (wordKey c (opNat r 0 % 2 ^ 17 + 4))).d.toNat
  if x.cur.isSome then cpyBad s c k r cpBusy 0
  else if (imageKeys c r).any (keyX s.mem) then cpyBad s c k r cpDesc 0
  else if !bit w4 40 then sendDone s r (Val.ofNat 0)
  else match loadImage s c k r with
    | none => cpyBad s c k r cpDesc 0
    | some run => sendDone (setStream s c k { x with cur := some run }) r (Val.ofNat 0)

/-! ## Control commands (R275, R290 to R293) -/

/-- A work command of the queue that was released before a control command. -/
def before (r x : EngCmd) : Bool := !isControl x && decide (x.num < r.num)
/-- CPY.CANCEL (R291): with ALL the commands released before it go, from the queue and from the token buffer. -/
def cpyCancel (s : State) (c k : Nat) (all : Bool) (by_ : Released) : State :=
  let x := s.stream c k
  let s := match x.cur with
    | some r => cpyBad (setStream s c k { x with cur := none }) c k r.cmd cpCancelled (r.done % 2 ^ 32)
    | none => s
  if all then
    let mine := fun (b : TBuf) => match b.e with | .cmd (.cpy n) y => n == k && before by_ y | _ => false
    let held := ((s.core c).tbuf.filter mine).filterMap fun b => match b.e with | .cmd _ r => some r | _ => none
    let s := setStream s c k { s.stream c k with queue := x.queue.filter fun y => !before by_ y }
    let s := s.modCore c fun co => { co with tbuf := co.tbuf.filter fun b => !mine b }
    (x.queue.filter (before by_) ++ held).foldl (fun s r => cpyBad s c k r cpCancelled 0) s
  else s

/-- A control command acts on its stream. -/
def cpyAct (s : State) (c : Nat) (r : Released) : State :=
  match r.i with
  | .cpyCancel _ all k => sendDone (cpyCancel s c k.toNat all r) r (Val.ofNat 0)
  | .cpySave _ clr k =>
    let x := s.stream c k.toNat
    let s := putWords s c (opNat r 0 % 2 ^ 17) (cpyImage s x.cur)
    sendDone (if clr then setStream s c k.toNat { s.stream c k.toNat with cur := none } else s) r (Val.ofNat 0)
  | .cpyResume _ img k =>
    let x := s.stream c k.toNat
    if img then cpyLoad s c k.toNat r
    else match x.cur with
      | some p =>
        if p.paused then sendDone (setStream s c k.toNat { x with cur := some { p with paused := false } }) r (Val.ofNat 0)
        else sendDone s r (Val.ofNat 1)
      | none => sendDone s r (Val.ofNat 1)
  | .cpyStat _ k =>
    let x := s.stream c k.toNat
    let st := match x.cur with | some p => if p.paused then 2 else 1 | none => 0
    let done := match x.cur with | some p => p.done % 2 ^ 32 | none => 0
    sendDone (setStream s c k.toNat { x with lastr := 0 }) r
      (Val.ofNat (x.lastr * 2 ^ 56 + min 8 (x.queue.filter (before r)).length * 2 ^ 44 + st * 2 ^ 40 + done))
  | _ => s

/-- A SAVE or a RESUME with an image waits for its core's writes, which its image is ordered behind (R118, R430); the RESUME waits
for the image's words as well. -/
def ctlWaits (s : State) (c k : Nat) (r : Released) : Bool :=
  let late := (pendingOf s c).any (·.op.writes)
  match r.i with
  | .cpySave .. => late
  | .cpyResume _ img _ => img && (s.stream c k).cur.isNone && (late || (imageEmpty s c r).isSome)
  | _ => false
/-- A control command acts on its stream when it is released, unless it waits for writes or its image, or behind one that does.
(DEDUCED, log 55) -/
def cpyControl (s : State) (c : Nat) (r : Released) : State :=
  let s := secStart s c r.sec
  match controlStream r.i with
  | none => s
  | some k =>
    let q := (s.stream c k).queue
    if q.any isControl || ctlWaits s c k r then setStream s c k { s.stream c k with queue := q ++ [r] } else cpyAct s c r
/-- The first control command of a stream's queue acts in its turn. -/
def cpyParked (s : State) (c k : Nat) : State :=
  let x := s.stream c k
  match x.queue.find? isControl with
  | none => s
  | some r =>
    cpyAct (setStream s c k { x with queue := x.queue.erase r }) c r

end Sys2Proof.Machine
end

