-- ==== Sys2Proof/Machine/Commit.lean ====
section
/-! DEFINITION. The life of a firing around its instructions: start (R111, R199, R213), completion (R116), the steps of a
commit (R117 to R121), sections that a commit releases (R410, R411). -/

namespace Sys2Proof.Machine

/-! ## Start -/

/-- The read entries deliver in ascending order, TGT1 before TGT2 (R112): the deliveries, or position and detail of the
first second delivery. -/
def deliverReads (s : State) (fp : Nat) : List (Target × Option Val) → Nat → List RdEntry →
    Except (Nat × Nat) (List (Target × Option Val))
  | dels, _, [] => .ok dels
  | dels, n, r :: rs =>
    let w := slotWord s fp r.slot
    let v := if r.etest then Val.ofNat (bnat w.x) else w.val
    match deliverTo dels r.t1 (some v) with
    | none => .error (0x100 + n, r.t1.code)
    | some d =>
      match deliverTo d r.t2 (some v) with
      | none => .error (0x100 + n, r.t2.code + 512)
      | some d => deliverReads s fp d (n + 1) rs

/-- The tests of R213 on the first fetch of a handler firing: position and code of the first that fails. -/
def handlerCheck (s : State) (c task : Nat) : Option (Nat × Nat) :=
  match taskOf (s.core c) task with
  | none => some (0x300, 0x0F)
  | some t =>
    let b := fetchBlock s c t.addr
    match blockCheck (s.core c) b task with
    | some (p, k) => some (p, k.code)
    | none => if !b.hdr.handler then some (0x300, 0x0E)
              else if b.hdr.nslot < 8 ∨ b.hdr.nslot > 28 then some (0x300, 0x02) else none

/-- The first fetch of a handler firing failed: HALT_DF (R213). (DEDUCED, log 28) -/
def doubleFault (s : State) (c fp pos code : Nat) : State :=
  let words := (List.range 8).map (fun n => (slotWord s fp n).d) ++ [BitVec.ofNat 64 (code * 2 ^ 16 + pos)]
  let s := trapLogged s c 0x03 0 words
  s.modCore c fun co => { co with mode := 2, dfault := some fp, tfresh := co.tfresh.filter fun k => bits co.frameBase.toNat 16 0 + 32 * k != fpWord fp }

def isFresh (s : State) (fp : Nat) : Bool :=
  let co := s.core (fpCore fp)
  co.tfresh.any fun k => bits co.frameBase.toNat 16 0 + 32 * k == fpWord fp

/-- A frame fires in block slot k: fetch, check, RUNNING, read entries (R111). `arr` is the arrival tick of its record. -/
def startFiring (s : State) (c k fp arr : Nat) : State :=
  let task := frameTask s fp
  let fresh := isFresh s fp
  let t := match taskOf (s.core c) task with | some t => t | none => { id := task, addr := 0 }
  let b := fetchBlock s c t.addr
  let bad := if (taskOf (s.core c) task).isNone then [] else b.bad
  let s := bad.foldl (fun s w => lastingRec s (coreDie c) (c % 128) 0 [BitVec.ofNat 64 (4 * w)]) s
  match (if fresh then handlerCheck s c task else none) with
  | some (p, code) => doubleFault s c fp p code
  | none =>
    let base := bits (s.core c).frameBase.toNat 16 0
    let chk := if (taskOf (s.core c) task).isNone then some (0x300, Check.noTask) else blockCheck (s.core c) b task
    let ser := (s.core c).ser
    let s := s.modCore c fun co => { co with ser := ser + 1, busy := co.busy ||| 4
                                             tfresh := co.tfresh.filter fun k => base + 32 * k != fpWord fp }
    let s := setFrameState s fp stRunning
    let f : Firing :=
      { fp, task, ser, addr := t.addr, hdr := b.hdr, reads := b.reads.map parseRd, writes := b.writes.map parseWr
        code := b.code, size := frameSize s fp, cls := frameClass s fp, arr
        start := coreCclk s c + 2 + (16 + 4 * (b.reads.length + b.writes.length + b.code.length) + 63) / 64 }
    match chk with
    | some (p, code) => takeTrap (setFiring s c k (some f)) c k
        { cause := if code = .opcode then 0x01 else 0x02, pos := p, w5 := code.code }
    | none =>
      match deliverReads s fp [] 0 f.reads with
      | .error (p, w5) => takeTrap (setFiring s c k (some f)) c k { cause := 0x07, pos := p, w5 }
      | .ok dels => setFiring s c k (some { f with dels })

/-- May a core start a firing (R193, R211, R213, R215)? -/
def mayStart (co : Core) : Bool := co.mapped && co.mode == 0 && !co.waved && !co.halting && decide (co.pend.length < 28)

/-- The record that the free slot k would take. -/
def canStart (s : State) (c k : Nat) : Option TRec :=
  let co := s.core c
  if mayStart co && (firingAt s c k).isNone && decide (k < 4) then bestRec co.tq else none

/-! ## Completion (R116) -/

/-- Nothing may execute or awaits a value. -/
def exhausted (f : Firing) : Bool := f.phase == .running && f.waits == [] && f.walks == [] && (nextReady f).isNone

/-- A completed firing awaits its commit, or traps NO_EXIT. -/
def complete (s : State) (c k : Nat) (f : Firing) : State :=
  match f.exit with
  | none => takeTrap s c k { cause := 0x09, pos := 0x400 }
  | some _ =>
    let n := (s.core c).comps
    let s := s.modCore c fun co => { co with comps := n + 1 }
    setFiring s c k (some { f with phase := .completed n })

/-! ## Order of outputs -/

/-- An element put into a list sorted by a key, behind its equals. -/
def insertBy {α : Type} (key : α → Nat) (a : α) : List α → List α
  | [] => [a]
  | b :: l => if key a < key b then a :: b :: l else b :: insertBy key a l
def sortBy {α : Type} (key : α → Nat) (l : List α) : List α := l.foldl (fun r a => insertBy key a r) []

/-- Step 3: memory operations and fences by LSID, then index. -/
def memOuts (f : Firing) : List Out :=
  sortBy (fun o => match o with | .mem l i _ => l * 256 + i | .fence l i _ => l * 256 + i | _ => 0)
    (f.outs.filter fun o => match o with | .mem .. => true | .fence .. => true | _ => false)
/-- Step 4: by index. -/
def relOuts (f : Firing) : List Out :=
  sortBy (fun o => match o with | .rel i _ => i | .rc i _ _ => i | .act i _ _ => i | _ => 0)
    (f.outs.filter (fun o => match o with | .rel .. => true | .rc .. => true | _ => false)
      ++ f.fallocs.map fun e => .act e.1 e.2.1 e.2.2)
/-- Step 5: STFX by index. -/
def stfxOuts (f : Firing) : List (Nat × Val) :=
  (sortBy (fun o => match o with | .stfx i _ _ => i | _ => 0) f.outs).filterMap fun o =>
    match o with | .stfx _ n v => some (n, v) | _ => none

/-! ## Step 3 -/

/-- A dropped PREF (R176). -/
def hintDrop (s : State) (c : Nat) : State :=
  s.modCore c fun co => { co with hintDrops := BitVec.ofNat 64 (wrap48 (co.hintDrops.toNat + 1)) }
/-- A PREF is issued: its address is checked now; a miss starts a walk (R176). -/
def issuePref (s : State) (a : Access) : State :=
  if a.v.x then hintDrop s a.core
  else match checkAddr s { core := a.core, space := a.loc.space, size := 1, write := false, noReg := true } a.loc.va with
    | .ok loc t => (noteTlb s a.core t).send (.access { a with loc })
    | .trap _ _ => hintDrop s a.core
    | .miss => startWalk s a.core a.loc.va (.pref a.core a.loc.va)

/-- A memory operation is issued: on the own scratchpad it may be performed at once, with nothing of the core before it on its way
(R431); otherwise it leaves for its home. (DESIGN CHOICE, log 3) -/
def issueMem (s : State) (a : Access) : State :=
  match a.op with
  | .pref => issuePref s a
  | _ => if ownNow s a && !Config.slow s.draws then homeAccess s a else s.send (.access a)

/-- A POD.PUT or POD.AMO that the core issued and that has not completed (R179). -/
def podPending (s : State) (c : Nat) : Bool :=
  s.pkg.pod.outs.any (fun o => o.core == c && (match o.what with | .get .. => false | _ => true))
    || s.net.any fun p => match p with
      | .release r => r.core == c && (match r.i with | .podPut .. | .podAmo .. => true | _ => false)
      | _ => false
def fenceClear (s : State) (c ser : Nat) (scope : Scope) : Bool :=
  !inFlight s c (some ser) && (match scope with | .pod => !podPending s c | _ => true)

/-- Step 3: the operations in order, up to a FENCE that holds the rest. -/
def step3 (s : State) (c ser : Nat) : List Out → State × Option (Scope × List Out)
  | [] => (s, none)
  | .mem _ _ a :: l => step3 (issueMem s a) c ser l
  | .fence _ _ sc :: l => if fenceClear s c ser sc then step3 s c ser l else (s, some (sc, l))
  | _ :: l => step3 s c ser l

/-! ## Step 4 -/

/-- Tokens of a core's commits wait at its own port for room in the token buffer (R206). -/
def portBusy (s : State) (c : Nat) : Bool :=
  s.net.any fun p => match p with | .token u => u.port && u.src == some c | _ => false
/-- A token that a commit sends to a frame of its own core: it is applied at once, by R106, so that the tokens of the core's
commits come in the order of release, and one to the committing frame waits in the buffer for step 8 (R121); a full token
buffer holds it at the core's own port, and those behind it (R206). (DEDUCED, log 11) -/
def ownToken (s : State) (c : Nat) (t : Token) : State :=
  if tbufRoom (s.core c) 1 && !portBusy s c then deliver s t else s.send (.token { t with port := true })
/-- A token leaves a commit. -/
def commitToken (s : State) (c : Nat) (t : Token) : State := if fpCore t.fp = c then ownToken s c t else s.send (.token t)
/-- A free applied at the frame's core, by the frame's state (R151). -/
def freeAtCore (s : State) (fp : Nat) : State :=
  let c := fpCore fp
  let later := fun (s : State) => s.modCore c fun co => { co with freeAfter := co.freeAfter ++ [fp] }
  if !frameAlloc s fp then stray s c fp 0
  else
    let st := frameState s fp
    if st = stRunning ∨ st = stHeld then later s
    else if st = stQueued then freeFrame (dropRec s fp) fp
    else if st = stParked then freeFrame (dropWaiters s fp) fp
    else freeFrame s fp
/-- A free leaves a commit: one of a frame of the own core is applied at once, behind the tokens before it. (DEDUCED, log 11) -/
def commitFree (s : State) (c : Nat) (r : Released) : State :=
  let fp := (opn r.ops 0).nat
  if fpCore fp = c ∧ portBusy s c = false then freeAtCore s fp else s.send (.release r)

/-- Words of the own scratchpad as the core's writes leave them, those that are not performed yet included (R118). -/
def ownWords (s : State) (c w n : Nat) : List TWord :=
  let m := ((pendingOf s c).filter ownLocal).foldl perform s
  (List.range n).map fun k => getWord m.mem (wordKey c (w + k))

/-- What a released instruction does at its core: tokens, frees, register writes, timers, engine commands; the rest leaves for
its home. (DEDUCED, log 11) -/
def releaseOne (s : State) (c : Nat) (f : Firing) (r : Released) : State :=
  let op := opn r.ops
  let tok := fun (slot : Nat) (v : Val) => commitToken s c { fp := (op 0).nat, slot, v, src := some c }
  match r.i with
  | .send _ n => tok n.toNat (op 1).norm
  | .sendx _ n => tok n.toNat ⟨(op 1).norm.d, true⟩
  | .sendi _ => if (op 2).nat ≥ 128 then stray s c (op 0).nat 127 else tok (op 2).nat (op 1).norm
  | .sysWr _ reg => coreRegWrite s c reg.toNat (op 0).d
  | .tlbInv _ scope => tlbInv s scope c (corePart s c) (op 0).nat
  | .waittick _ =>
    if (op 1).nat ≥ 128 ∨ (op 1).nat ≥ f.size then stray s c f.fp (op 1).nat
    else
      let s := tbufAdd s c (.timer (op 0).nat f.fp (op 1).nat s.tick)
      if (op 0).nat ≤ s.tick then raiseOnce s (.waittickTimerFire c) else s
  | .halt _ => s
  | .ffree _ => commitFree s c r
  | .wchSet .. =>
    let s := (List.range 8).foldl (fun s k => awake s (wordKey c ((op 1).nat + k))) s
    s.send (.release { r with words := ownWords s c (op 1).nat 8 })
  | i => match engOf i, controlStream i with
    | some e, _ => enqCmd s c e r
    | none, some _ => cpyControl s c r
    | none, none => s.send (.release r)

/-- An engine command (R410): work and control commands of opcodes 0x70 to 0x74. -/
def isEngCmd (i : Instr) : Bool := (engOf i).isSome || (controlStream i).isSome

/-- One output of step 4. -/
def step4One (s : State) (c : Nat) (f : Firing) (sec : Option Nat) (o : Out) : State :=
  match o with
  | .rel _ r =>
    let r := { r with cls := frameClass s f.fp }
    let n := (s.core c).rels
    releaseOne (s.modCore c fun co => { co with rels := n + 1 }) c f { r with sec := if isEngCmd r.i then sec else none, num := n }
  | .rc _ reg v => rcClear s c reg v
  | .act _ fp task =>
    let hint := match taskBlk s c task with | some b => b.hdr.cls | none => 3
    let cls := max (frameClass s f.fp) hint
    if fpCore fp = c then activate s fp task cls f.fp else s.send (.activate fp task cls f.fp)
  | _ => s

/-- Two barrier instructions name one barrier. -/
def barKey : Instr → Option (Scope × Nat)
  | .barArrive _ sc id | .barWait _ sc id | .barCfg _ sc id => some (sc, id.toNat)
  | _ => none
/-- An ARRIVE at a barrier. -/
def arrivesAt (key : Option (Scope × Nat)) : Out → Bool
  | .rel _ r => (match r.i with | .barArrive .. => barKey r.i == key | _ => false)
  | _ => false
/-- The barrier of a BAR.WAIT. -/
def waitsAt : Out → Option (Scope × Nat)
  | .rel _ r => (match r.i with | .barWait .. => barKey r.i | _ => none)
  | _ => none
/-- An output put behind the last ARRIVE at a barrier. -/
def behindLast (key : Option (Scope × Nat)) (w : Out) : List Out → List Out
  | [] => [w]
  | o :: l => if l.any (arrivesAt key) then o :: behindLast key w l else o :: w :: l
/-- A BAR.WAIT goes behind the last ARRIVE of its commit at the same barrier, for its target is that of all of them (R338); everything
else stays in index order. (DEDUCED, log 33) -/
def waitsLast : List Out → List Out
  | [] => []
  | o :: l =>
    match waitsAt o with
    | some key => if l.any (arrivesAt (some key)) then behindLast (some key) o (waitsLast l) else o :: waitsLast l
    | none => o :: waitsLast l

/-- Does a commit release a section (R410)? -/
def hasSection (f : Firing) : Bool := f.outs.any fun o => match o with | .rel _ r => isEngCmd r.i | _ => false

/-! ## Steps 5 to 8 -/

/-- A value written to a slot in FILL mode (R63): the slots written so far are those that step 6 leaves. -/
def fillSlot (fp : Nat) (consume : List Nat) (a : State × List Nat) (n : Nat) (v : Val) : State × List Nat :=
  let (s, written) := a
  if !(slotWord s fp n).f || (consume.contains n && !written.contains n) then (setSlot s fp n v, n :: written)
  else (ownToken s (fpCore fp) { fp, slot := n, v, src := some (fpCore fp) }, written)

/-- The slots that a firing's read entries consume (R62). -/
def consumed (f : Firing) : List Nat := f.reads.filterMap fun r => if r.consume then some r.slot else none
def entryTarget (n : Nat) : Target := if h : n < 127 then .write ⟨n, h⟩ else .none
/-- Step 5: write entries, then STFX. Answers the slots written. -/
def step5 (s : State) (f : Firing) : State × List Nat :=
  let con := consumed f
  let one := fun (a : (State × List Nat) × Nat) (w : WrEntry) =>
    let (st, n) := a
    match delAt f (entryTarget n) with
    | some (some v) => (if w.ovr then (setSlot st.1 f.fp w.slot v, w.slot :: st.2) else fillSlot f.fp con st w.slot v, n + 1)
    | _ => (st, n + 1)
  let st := (f.writes.foldl one ((s, []), 0)).1
  (stfxOuts f).foldl (fun st e => fillSlot f.fp con st e.1 e.2) st

/-- The exit code of a trace record. -/
def exitCode : Instr → Nat | .broEnd _ => 0 | .broKeep _ => 1 | .broRearm _ => 2 | _ => 3
def bumpLoop (s : State) (fp : Nat) : State :=
  setHdr s fp 3 ((hdr s fp 3 / 2 ^ 20 + 1) % 2 ^ 44 * 2 ^ 20 + hdr s fp 3 % 2 ^ 20)

/-- Step 7 (R121) for a frame that stays. -/
def exitFrame (s : State) (fp : Nat) (e : Instr) : State :=
  let s := match e with
    | .broRearm _ => bumpLoop s fp
    | .broCont _ t =>
      let same := frameTask s fp == t.toNat
      let node := match taskBlk s (fpCore fp) t.toNat with | some b => b.hdr.node | none => 0
      let s := if same then bumpLoop s fp else setHdr s fp 3 0
      let s := setHdr s fp 3 (hdr s fp 3 / 2 ^ 20 * 2 ^ 20 + node)
      setHdr s fp 0 (setBits (hdr s fp 0) 0 16 t.toNat)
    | _ => s
  setFrameState s fp stWaiting

/-- A record of higher class than the frame's waits in the queue (R204). -/
def higherWaits (s : State) (fp : Nat) : Bool := (s.core (fpCore fp)).tq.any fun r => decide (r.cls < frameClass s fp)

/-- Steps 6 to 8, with the slots to consume; slot k, where the firing still holds one, fires a BRO.CONT chain at once, with the
arrival tick of the record that the chain began with. (DEDUCED, log 106) -/
def steps678 (s : State) (c : Nat) (k : Option Nat) (fp arr : Nat) (con : List Nat) (e : Instr) (halts : Bool) : State :=
  let s := consumeSlots s fp con
  let s := match e with
    | .broEnd _ => freeFrame s fp
    | e =>
      let s := refillFrame (exitFrame s fp e) fp
      if (s.core c).freeAfter.contains fp then freeDeferred s fp
      else
        let chain := match e, k with
          | .broCont .., some _ => frameMissing s fp == 0 && !loopHold s fp && !higherWaits s fp && mayStart (s.core c) && !halts
          | _, _ => false
        match chain, k with
        | true, some k => startFiring (endReservations s fp) c k fp arr
        | _, _ => checkReady s fp
  let s := if frameAlloc s fp then endReservations s fp else s
  if halts then s.modCore c fun co => { co with halting := true } else s

/-- Steps 4 to 8 of a commit in block slot k. Nothing follows from a commit without step-4 outputs that ends its frame: a later load of
another firing may find its writes not performed yet (R329, R430). The firing's ASTAT bits are set before step 4, so that a SYS.WR of the same commit
can clear them. (DEDUCED, log 103) -/
def commitRest (s : State) (c k : Nat) (f : Firing) (e : Instr) : State :=
  let h3 := hdr s f.fp 3
  let s := traceRec s (coreDie c) c 1 (h3 % 2 ^ 20 + frameClass s f.fp * 2 ^ 20 + exitCode e * 2 ^ 22) (h3 / 2 ^ 20)
  let s := setAstat s c f.astat
  let sec := hasSection f
  let n := (s.core c).seq
  let restart := match taskOf (s.core c) f.task with | some t => t.restart | none => false
  let halts := f.outs.any fun o => match o with | .rel _ r => (match r.i with | .halt _ => true | _ => false) | _ => false
  let s := if sec then s.modCore c fun co =>
      { co with seq := n + 1, secs := co.secs ++ [{ ser := n, cls := frameClass s f.fp, fp := f.fp, restart, tick := f.arr }] } else s
  let s := s.modCore c fun co => { co with quiet := (match e, relOuts f with
    | .broEnd _, [] => f.ser :: co.quiet.filter fun n => inFlight s c (some n)
    | _, _ => []) }
  let s := (waitsLast (relOuts f)).foldl (fun s o => step4One s c f (if sec then some n else none) o) s
  let (s, written) := step5 s f
  let con := (consumed f).filter fun n => !written.contains n
  let s := s.modCore c fun co => { co with slots := setNth co.slots k none, commits := wrap48 (co.commits + 1), busy := co.busy ||| 1 }
  if sec && restart then
    let s := setFrameState s f.fp stHeld
    let upd := fun (x : Section) => if x.ser = n then { x with held := true, consume := con, exit := some e, halts } else x
    endReservations (s.modCore c fun co => { co with secs := co.secs.map upd }) f.fp
  else steps678 s c (some k) f.fp f.arr con e halts

/-- Step 3 and what follows, or a halt of the commit at a FENCE. -/
def commitFrom3 (s : State) (c k : Nat) (f : Firing) (outs : List Out) : State :=
  match f.exit with
  | none => s
  | some (_, e) =>
    match step3 s c f.ser outs with
    | (s, none) => commitRest s c k f e
    | (s, some (sc, rest)) => setFiring s c k (some { f with phase := .fencing sc rest })

/-- Step 1 fails: a BRO.CONT to a task larger than the frame (R80). -/
def contTooBig (s : State) (c : Nat) (f : Firing) : Option Nat :=
  match f.exit with
  | some (n, .broCont _ t) =>
    (match taskBlk s c t.toNat with | some b => if b.hdr.nslot > f.size then some n else none | none => none)
  | _ => none

/-- The firing whose turn it is to commit: the first to complete, while no other commits. -/
def commitTurn (s : State) (c k : Nat) : Bool :=
  let fs := (s.core c).slots.filterMap id
  let num := fun (f : Firing) => match f.phase with | .completed n => some n | _ => none
  let busy := commitBusy (s.core c)
  match firingAt s c k with
  | some f =>
    (match num f with
      | some n => !busy && fs.all fun g => match num g with | some m => decide (n ≤ m) | none => true
      | none => false)
  | none => false

/-- A commit begins: step 1, then the take is sent, or step 3 (R117). -/
def commitStart (s : State) (c k : Nat) (f : Firing) : State :=
  match contTooBig s c f with
  | some n => takeTrap s c k { cause := 0x02, pos := n, w5 := 0x0B }
  | none =>
    match f.take with
    | some (loc, v) =>
      (setFiring s c k (some { f with phase := .taking })).send (.take { core := c, fp := f.fp, ser := f.ser, loc, v })
    | none => commitFrom3 s c k f (memOuts f)

/-! ## A firing that is discarded -/

/-- A discarded firing whose frame is queued again with a new arrival tick (R122, case 3). -/
def discardAgain (s : State) (c k : Nat) (f : Firing) : State :=
  let s := undo s c k f
  if (s.core c).freeAfter.contains f.fp then freeDeferred s f.fp
  else
    let s := setFrameState s f.fp stQueued
    appendRec s c (mkRec s f.fp s.tick)
/-- A firing that the scheduler discards: its record returns with its own arrival tick (R127). -/
def discardBack (s : State) (c k : Nat) : State :=
  match firingAt s c k with
  | none => s
  | some f =>
    let s := endReservations (dropWaiters (undo s c k f) f.fp) f.fp
    if (s.core c).freeAfter.contains f.fp then freeDeferred s f.fp
    else
      let s := setFrameState s f.fp stQueued
      returnRec s c (mkRec s f.fp f.arr)

/-- The answer to a take (R117, R122). -/
def takeDone (s : State) (t : TakeAns) : State :=
  match resident s t.core t.ser with
  | none => s
  | some (k, f) =>
    match t.res with
    | .taken => commitFrom3 s t.core k f (memOuts f)
    | .parked => parkFiring (countEv s t.core 0x05 1) t.core k (f.take.map (·.1.key))
    | .differs => discardAgain (countEv s t.core 0x05 1) t.core k f

/-! ## Sections (R411) -/

/-- A restartable section ends: its HELD frame runs steps 6 to 8. (DEDUCED, log 34) -/
def sectionDone (s : State) (c : Nat) (x : Section) : State :=
  let s := s.modCore c fun co => dropSec co x.ser
  match x.exit with
  | some e => steps678 s c none x.fp x.tick x.consume e x.halts
  | none => s

end Sys2Proof.Machine
end

