-- ==== Sys2Proof/Machine/FrameOps.lean ====
section
/-! DEFINITION. Meanings: frames and tokens (R149 to R157). -/

namespace Sys2Proof.Machine

/-- A frame pointer operand: OPND_X, then BAD_FP (R114). -/
def fpCheck (s : State) (v : Val) (k : Nat → FRes) : FRes :=
  if v.x then .trap cOpndX 0 0 else if fpBad s v.nat then .trap cBadFp 0 0 else k v.nat
/-- An instruction held to commit step 4 with its operands. -/
def relOut (i : Instr) (c : Nat) (f : Firing) (n : Nat) (ops : List Val) : FRes :=
  .out (.rel n { i, core := c, fp := f.fp, ser := f.ser, ops })

/-- A malformed placement word: the firing's own pointer is the one pointer that may stand there (R149; log 7). -/
def placeBad (s : State) (own v : Nat) : Bool :=
  decide (v ≥ 2 ^ 32) || decide (bits v 31 27 > 23) || !corePresent s (v / 2 ^ 20) || (v % 2 ^ 20 != 0 && v != own)

/-- FALLOC (R149): the checks in order, then the request. -/
def execFalloc (scope : Scope) (g : GF) (s : State) : Host.Outcome State Fault Refusal :=
  fireWord s (.falloc scope g) fun s c f n vs =>
    let a := opn vs 0
    let b := opn vs 1
    if a.x || b.x then .trap cOpndX 0 0
    else match (if a.nat < 2 ^ 16 then taskBlk s c a.nat else none) with
      | none => .trap cBadTask a.nat 0
      | some t =>
        if placeBad s f.fp b.nat then .trap cBadFp 0 0
        else .ok { pkts := [.falloc { core := c, ser := f.ser, idx := n, scope, near := b.nat / 2 ^ 20
                                      task := a.nat, nslot := t.hdr.nslot, part := corePart s c }] }

/-- FFREE (R151): checks in the firing, the free at the frame's core. -/
def execFfree (pred : Pred) (s : State) : Host.Outcome State Fault Refusal :=
  match s.focus with
  | .home r =>
    let fp := (opn r.ops 0).nat
    .next (if corePresent s (fpCore fp) then freeAtCore s fp else stray s r.core fp 0)
  | _ => fireWord s (.ffree pred) fun s c f n vs =>
    fpCheck s (opn vs 0) fun fp =>
      if fp = f.fp then .trap cSelfFree fp 0 else relOut (.ffree pred) c f n vs

/-- SELF (R152). -/
def execSelf (g : GF) (s : State) : Host.Outcome State Fault Refusal :=
  fireWord s (.self g) fun _ _ f _ _ => .val (Val.ofNat f.fp)
/-- TASKID (R152). -/
def execTaskid (g : GF) (s : State) : Host.Outcome State Fault Refusal :=
  fireWord s (.taskid g) fun _ _ f _ _ => .val (Val.ofNat f.task)

/-- The status of a frame (R153): zero when none is allocated. -/
def fstatVal (s : State) (fp : Nat) : Val :=
  if frameAlloc s fp then
    Val.ofNat (frameTask s fp * 2 ^ 24 + frameSize s fp * 2 ^ 16 + frameMissing s fp * 2 ^ 8 + frameClass s fp * 2 ^ 3 + frameState s fp)
  else Val.ofNat 0
/-- FSTAT: on the own core at once, elsewhere, or while the frame commits (R160), by a request to the frame's core (R153). -/
def execFstat (g : GF) (s : State) : Host.Outcome State Fault Refusal :=
  fireWord s (.fstat g) fun s c f n vs =>
    fpCheck s (opn vs 0) fun fp =>
      if fpCore fp = c ∧ !committing s fp then .val (fstatVal s fp) else .ok { pkts := [.fstat c f.ser n fp] }

/-- SEND (R154). -/
def execSend (pred : Pred) (slot : BitVec 7) (s : State) : Host.Outcome State Fault Refusal :=
  fireWord s (.send pred slot) fun s c f n vs => fpCheck s (opn vs 0) fun _ => relOut (.send pred slot) c f n vs
/-- SENDX (R154). -/
def execSendx (pred : Pred) (slot : BitVec 7) (s : State) : Host.Outcome State Fault Refusal :=
  fireWord s (.sendx pred slot) fun s c f n vs => fpCheck s (opn vs 0) fun _ => relOut (.sendx pred slot) c f n vs
/-- SENDI (R155). -/
def execSendi (pred : Pred) (s : State) : Host.Outcome State Fault Refusal :=
  fireWord s (.sendi pred) fun s c f n vs =>
    if (opn vs 0).x || (opn vs 2).x then .trap cOpndX 0 0
    else fpCheck s (opn vs 0) fun _ => relOut (.sendi pred) c f n vs

/-- LDFX: a slot of the own frame as it stands (R156). -/
def execLdfx (g : GF) (s : State) : Host.Outcome State Fault Refusal :=
  fireWord s (.ldfx g) fun s _ f _ vs =>
    let a := opn vs 0
    if a.x || decide (a.nat ≥ 128 ∨ a.nat ≥ f.size) then .val Val.err else .val (slotWord s f.fp a.nat).val
/-- STFX: status 0 and a write held to step 5, or an error token (R157). -/
def execStfx (g : GF) (s : State) : Host.Outcome State Fault Refusal :=
  fireWord s (.stfx g) fun _ _ f n vs =>
    let a := opn vs 0
    if a.x || decide (a.nat ≥ 128 ∨ a.nat ≥ f.size) then .val Val.err
    else .ok { v := some (some (Val.ofNat 0)), outs := [.stfx n a.nat (opn vs 1).norm] }

end Sys2Proof.Machine
end

