-- ==== Sys2Proof/Machine/Barrier.lean ====
section
/-! DEFINITION. Barriers (R335 to R340, R476) and the meanings of BAR.ARRIVE, BAR.WAIT, BAR.CFG. -/

namespace Sys2Proof.Machine

/-! ## Where a barrier is held -/

def barGet (s : State) (scope : Scope) (c id : Nat) : Barrier :=
  match scope with
  | .quad => (s.die (coreDie c)).qbars.get (quadOf c * 64 + id) {}
  | .die => (s.die (coreDie c)).bars.get id {}
  | .pod => s.pkg.pod.bars.get id {}
  | _ => s.pkg.bars.get id {}
def barSet (s : State) (scope : Scope) (c id : Nat) (b : Barrier) : State :=
  match scope with
  | .quad => s.modDie (coreDie c) fun di => { di with qbars := di.qbars.put (quadOf c * 64 + id) b }
  | .die => s.modDie (coreDie c) fun di => { di with bars := di.bars.put id b }
  | .pod => s.modPod fun p => { p with bars := p.bars.put id b }
  | _ => s.modPkg fun p => { p with bars := p.bars.put id b }
/-- A core lies in the extent of a barrier that core c names. -/
def inExtent (scope : Scope) (c k : Nat) : Bool :=
  match scope with
  | .core => k == c | .quad => quadOf k == quadOf c | .die => coreDie k == coreDie c | _ => true

/-! ## Waiters: entries of the issuing cores' token buffers -/

/-- A waiter of a barrier whose generation (or tag, of a pod barrier) a test picks: its frame and slot. -/
def barHit (scope : Scope) (id : Nat) (pick : Nat → Bool) (b : TBuf) : Option (Nat × Nat) :=
  match b.e with
  | .barWait sc i g fp slot => if sc == scope && i == id && pick g && b.ans.isNone then some (fp, slot) else none
  | .podWait i _ tag fp slot => if scope == .pod && i == id && pick tag && b.ans.isNone then some (fp, slot) else none
  | _ => none
/-- The waiters of a barrier that a test picks receive a value; their entries leave the token buffers. One in the overflow area
receives it when it has moved back (R206). -/
def barRelease (s : State) (scope : Scope) (c id : Nat) (pick : Nat → Bool) (v : Val) : State :=
  let hit := barHit scope id pick
  s.cores.foldl (fun s e =>
    if inExtent scope c e.1 && e.2.tbuf.any (fun b => (hit b).isSome) then
      let toks := (e.2.tbuf.filter (!·.place.away)).filterMap hit
      let l := e.2.tbuf.filterMap fun b => if (hit b).isNone then some b else if b.place.away then some { b with ans := some v } else none
      let s := s.setCore e.1 { e.2 with tbuf := l }
      toks.foldl (fun s t => s.send (.token { fp := t.1, slot := t.2, v, src := some e.1 })) s
    else s) s

/-- A package's own number (R461). -/
def pkgNo (s : State) : Nat := s.pkg.pod.id.toNat % 1024
/-- The package takes part in the pod (R461). -/
def podOn (s : State) : Bool := bit s.pkg.pod.id.toNat 63
/-- The delivery that a packet asks for (Table 22.1). -/
def PodPkt.delivery : PodPkt → Delivery
  | .put _ _ _ (some _) _ | .get _ _ _ (some _) _ | .amo _ _ _ _ _ _ _ (some _) _ _ => .ordered
  | .barArrive .. | .barWait .. | .barCfg .. | .barRelease .. | .barDropped .. | .gangArrive _ | .gangRelease .. => .ordered
  | .ptpSync _ | .ptpFollowUp _ | .ptpPdelay | .ptpPdelayResp _ | .ptpPdelayFollowUp _ | .ptpAnnounce .. => .unreliable
  | _ => .reliable
/-- A present entry of a peer table (R461): package number, GANG, the fabric endpoint's address, high half first. -/
structure Peer where
  no : Nat
  gang : Bool
  addr : Nat × Nat
deriving DecidableEq, Repr
/-- Entry k of a partition's peer table, none when it is absent. -/
def peerAt (s : State) (p k : Nat) : Option Peer :=
  let a := bits (partReg s p).podp.toNat 47 12 * 4096 + 32 * k
  let word := fun (n : Nat) => (physRead s (a + 8 * n) 8 s.tick).1
  if bit (word 0) 63 && bits (word 0) 61 10 == 0 && word 3 == 0 then some ⟨bits (word 0) 9 0, bit (word 0) 62, (word 1, word 2)⟩ else none
/-- The present entries of a partition's peer table, in order. -/
def peers (s : State) (p : Nat) : List Peer :=
  let r := (partReg s p).podp.toNat
  if !bit r 63 then [] else (List.range (bits r 10 0)).filterMap (peerAt s p)
/-- The first entry that carries a package number. -/
def peerOf (s : State) (p no : Nat) : Option Peer := (peers s p).find? (·.no == no)
/-- The reads of a partition's peer table up to the entry that carries a number pass through the cache of their home (R353). -/
def peerCache (s : State) (p no : Nat) : State :=
  let r := (partReg s p).podp.toNat
  let ks := List.range (if bit r 63 then bits r 10 0 else 0)
  let before := ks.takeWhile fun k => (peerAt s p k).map (·.no) != some no
  let n := min ks.length (before.length + 1)
  (List.range (cdiv n 4)).foldl (fun s k => (llcRead s (some p) (bits r 47 12 * 4096 + 128 * k) 0).1) s
/-- The ports of a partition that are up, as a mask. -/
def portsOf (s : State) (part : Option Nat) : Nat :=
  (List.range 32).foldl (fun m n => if part.isSome && portPart s n == part && portUp s n then m + 2 ^ n else m) 0
/-- A packet leaves to the fabric endpoint of a package. -/
def podLeave (s : State) (part : Option Nat) (dst : Nat) (p : PodPkt) : State :=
  let addr := match part with | some q => (peerOf s q dst).map (·.addr) | none => none
  let s' := match part with | some q => peerCache s q dst | none => s
  (countFabric s' part 0x30).modPod fun x => { x with sent := x.sent ++ [⟨some dst, addr, p.delivery, portsOf s part, p⟩] }
/-- A packet to a package, on the ports of its partition alone (R459), waiting while none of them is up; a package outside the pod
sends none (R461). (DEDUCED, log 81) -/
def podSend (s : State) (part : Option Nat) (dst : Nat) (p : PodPkt) : State :=
  if !podOn s then s
  else if portsOf s part = 0 ∨ s.pkg.pod.unsent.any (·.1 == part) then s.modPod fun x => { x with unsent := x.unsent ++ [(part, dst, p)] }
  else podLeave s part dst p
/-- Packets that waited for a port leave, in order, as one of their partition's is up. -/
def settlePorts (s : State) : State :=
  let go := fun (e : Option Nat × Nat × PodPkt) => portsOf s e.1 != 0 && podOn s
  (s.pkg.pod.unsent.filter go).foldl (fun s e => podLeave s e.1 e.2.1 e.2.2)
    (s.modPod fun p => { p with unsent := p.unsent.filter fun e => !go e })
/-- A token of an answered pod wait: the entry with the tag leaves its token buffer. -/
def podWaitDone (s : State) (tag : Nat) (v : Val) : State :=
  (List.range 64).foldl (fun s id => barRelease s .pod 0 id (fun g => g == tag) v) s
/-- Waits at a pod barrier's home that a test on (id, generation) picks are answered. -/
def podBarAnswer (s : State) (id : Nat) (pick : Nat → Bool) (v : Val) : State :=
  let ws := s.pkg.pod.barWaits.filter fun w => w.1 == id && pick w.2.1
  let s := s.modPod fun p => { p with barWaits := p.barWaits.filter fun w => !(w.1 == id && pick w.2.1) }
  ws.foldl (fun s w => match w with
    | (_, _, src, tag, part) => if src = pkgNo s then podWaitDone s tag v else podSend s part src (.barRelease tag v)) s

/-- The token of a released generation, and of an unconfigured barrier (R338). -/
def genVal (g : Nat) : Val := Val.ofNat (g % 2 ^ 16)
def unconfVal : Val := ⟨1, true⟩
/-- The waiters for a generation of a barrier, or all of them, receive a value. -/
def barAnswer (s : State) (scope : Scope) (c id : Nat) (pick : Nat → Bool) (v : Val) : State :=
  match scope with
  | .pod => podBarAnswer s id pick v
  | _ => barRelease s scope c id pick v

/-- The generation is released: its waiters receive their token, GEN advances, the count returns to 0. -/
def barAdvance (s : State) (scope : Scope) (c id : Nat) : State :=
  let b := barGet s scope c id
  let s := barSet s scope c id { b with arr := 0, gen := (b.gen + 1) % 2 ^ 16 }
  barAnswer s scope c id (fun g => g == b.gen) (genVal b.gen)
/-- An arrival at a barrier: the generation in which it counts, none when it is dropped. -/
def barArriveAt (s : State) (scope : Scope) (c id : Nat) : State × Option Nat :=
  let b := barGet s scope c id
  if b.n = 0 then (s, none)
  else
    let s := barSet s scope c id { b with arr := b.arr + 1 }
    (if b.arr + 1 ≥ b.n then barAdvance s scope c id else s, some b.gen)
/-- BAR.CFG at the barrier. -/
def barCfgAt (s : State) (scope : Scope) (c id n : Nat) : State :=
  let b := barGet s scope c id
  if n = 0 then barAnswer (barSet s scope c id { b with n := 0, arr := 0 }) scope c id (fun _ => true) unconfVal
  else
    let s := barSet s scope c id { b with n }
    if b.arr ≥ n then barAdvance s scope c id else s

/-- The WAITs of an ARRIVE's commit at the same barrier learn the generation in which it counted. -/
def markWaits (s : State) (r : Released) (g : Nat) : State :=
  let mark := fun (p : Packet) => match p with
    | .release w =>
      (match w.i with
        | .barWait .. => if barKey w.i = barKey r.i ∧ w.core = r.core ∧ w.ser = r.ser then .release { w with arrived := some g } else p
        | _ => p)
    | _ => p
  { s with net := s.net.map mark }

/-! ## Pod barriers: at their home, and on the way there (R476) -/

def podBarHome (s : State) : Nat := s.pkg.pod.ctl.toNat % 1024
/-- An arrival, a wait, a configuration at the home package, for a partition. -/
def podArrive (s : State) (part : Option Nat) (src id com fp : Nat) : State :=
  match barArriveAt s .pod 0 id with
  | (s, some g) =>
    s.modPod fun p => { p with barLast := (src, com, id, g) :: p.barLast.filter fun e =>
      !(e.1 == src && e.2.1 / 2 ^ 32 == com / 2 ^ 32 && e.2.2.1 == id) }
  | (s, none) => if src = pkgNo s then stray s (fpCore fp) fp id else podSend s part src (.barDropped fp id)
/-- The generation that a wait at its home awaits: that of its commit's last-counted arrival, else the one now open (R338). -/
def podTarget (s : State) (src id com : Nat) : Nat :=
  match s.pkg.pod.barLast.find? (fun e => e.1 == src && e.2.1 == com && e.2.2.1 == id) with
  | some e => e.2.2.2 | none => (s.pkg.pod.bars.get id {}).gen
def podWait (s : State) (part : Option Nat) (src id com tag : Nat) : State :=
  let b := s.pkg.pod.bars.get id {}
  let say := fun (s : State) v => if src = pkgNo s then podWaitDone s tag v else podSend s part src (.barRelease tag v)
  let target := podTarget s src id com
  if b.n = 0 then say s unconfVal
  else if target ≠ b.gen then say s (genVal target)
  else s.modPod fun p => { p with barWaits := p.barWaits ++ [(id, target, src, tag, part)] }

/-- A pod barrier instruction leaves its core: performed here when this package is the home, else sent; the generation that a wait at
another package awaits is known there alone, and is a free value in the entry. (DESIGN CHOICE, log 119) -/
def podBar (s : State) (r : Released) (id : Nat) : State :=
  let here := podBarHome s = pkgNo s
  let com := r.core * 2 ^ 32 + r.ser
  let part := corePart s r.core
  match r.i with
  | .barArrive .. =>
    if here then podArrive s part (pkgNo s) id com r.fp else podSend s part (podBarHome s) (.barArrive (pkgNo s) id com r.fp)
  | .barWait .. =>
    let tag := s.pkg.pod.tags
    let s := s.modPod fun p => { p with tags := tag + 1 }
    let gen := if here then podTarget s (pkgNo s) id com else (Config.podGen tag).toNat
    let s := tbufAdd s r.core (.podWait id gen tag r.fp (opn r.ops 0).nat)
    if here then podWait s part (pkgNo s) id com tag else podSend s part (podBarHome s) (.barWait (pkgNo s) id com tag)
  | _ =>
    let n := (opn r.ops 0).nat
    if here then barCfgAt s .pod 0 id n else podSend s part (podBarHome s) (.barCfg (pkgNo s) id n)

/-! ## Meanings -/

/-- The issuing partition owns every present die of the extent alone (R337). -/
def ownsExtent (s : State) (scope : Scope) (c : Nat) : Bool :=
  let p := corePart s c
  match scope with
  | .quad | .die | .core => ownsAlone s p (coreDie c)
  | _ => (List.range Config.numDies).all fun d => !diePresent s d || ownsAlone s p d
/-- PROT with REASON 0x21 outside the partition. -/
def extentCheck (s : State) (scope : Scope) (c : Nat) (k : FRes) : FRes :=
  if ownsExtent s scope c then k else .trap cProt 0 (rsOutside * 2 ^ 8)

/-- BAR.ARRIVE (R338). -/
def execBarArrive (pred : Pred) (scope : Scope) (id : BitVec 6) (s : State) : Host.Outcome State Fault Refusal :=
  match s.focus with
  | .home r => .next (match scope with
      | .pod => podBar s r id.toNat
      | _ => match barArriveAt s scope r.core id.toNat with
        | (s, some g) => markWaits s r g
        | (s, none) => stray s r.core r.fp id.toNat)
  | _ => fireWord s (.barArrive pred scope id) fun s c f n vs =>
    extentCheck s scope c (relOut (.barArrive pred scope id) c f n vs)

/-- BAR.WAIT (R338). -/
def execBarWait (pred : Pred) (scope : Scope) (id : BitVec 6) (s : State) : Host.Outcome State Fault Refusal :=
  match s.focus with
  | .home r => .next (match scope with
      | .pod => podBar s r id.toNat
      | _ =>
        let b := barGet s scope r.core id.toNat
        let slot := (opn r.ops 0).nat
        let target := match r.arrived with | some g => g | none => b.gen
        let say := fun v => s.send (.token { fp := r.fp, slot, v, src := some r.core })
        if b.n = 0 then say unconfVal
        else if target ≠ b.gen then say (genVal target)
        else tbufAdd s r.core (.barWait scope id.toNat target r.fp slot))
  | _ => fireWord s (.barWait pred scope id) fun s c f n vs =>
    if (opn vs 0).x then .trap cOpndX 0 0 else extentCheck s scope c (relOut (.barWait pred scope id) c f n vs)

/-- BAR.CFG (R338). -/
def execBarCfg (pred : Pred) (scope : Scope) (id : BitVec 6) (s : State) : Host.Outcome State Fault Refusal :=
  match s.focus with
  | .home r => .next (match scope with
      | .pod => podBar s r id.toNat
      | _ => barCfgAt s scope r.core id.toNat (opn r.ops 0).nat)
  | _ => fireWord s (.barCfg pred scope id) fun s c f n vs =>
    if (opn vs 0).x then .trap cOpndX 0 0
    else if (opn vs 0).nat ≥ 2 ^ 16 then .trap 0x02 0 0
    else extentCheck s scope c (relOut (.barCfg pred scope id) c f n vs)

end Sys2Proof.Machine
end

