-- ==== Sys2Proof/Machine/Vector.lean ====
section
/-! DEFINITION. The plane vector engine (chapter 9): descriptor checks in the firing, a started command block by block,
and the meanings of opcodes 0x70 and 0x71. -/

namespace Sys2Proof.Machine

/-! ## Descriptors (R224 to R226) -/

/-- VEC_DESC (Table 9.1). -/
def cVecDesc : Nat := 0x23
/-- A descriptor cause: word 4 the descriptor, word 5 reason and operand (R225). -/
def descTrap (cause : Nat) (v : Val) (opnd reason : Nat) : FRes := .trap cause v.nat (reason + 256 * opnd)
/-- The checks of one plane operand that covers `words` words, in order. -/
def planeOpnd (s : State) (c opnd : Nat) (v : Val) (words algn : Nat) (wr noCount : Bool) : Option FRes :=
  let base := bits v.nat 16 0
  if v.x then some (.trap cOpndX v.nat (word5 opnd 0 wr .loc))
  else if bits v.nat 63 42 ≠ 0 ∨ bits v.nat 19 17 ≠ 0 then some (descTrap cVecDesc v opnd 1)
  else if nelem v.nat = 0 ∧ !noCount then some (descTrap cVecDesc v opnd 2)
  else if base % algn ≠ 0 then some (.trap cAlign v.nat (word5 opnd 0 wr .loc))
  else if base + words > Config.spWords then some (descTrap cVecDesc v opnd 3)
  else if base + words > bits (s.core c).frameBase.toNat 16 0 then some (.trap cFrameProt v.nat (word5 opnd rsFrame wr .loc))
  else none
def firstSome {α : Type} : List (Option α) → Option α
  | [] => none
  | some a :: _ => some a
  | none :: l => firstSome l

/-- UNPACK.T5's LAY and KT. -/
def t5Slab (v : VF) : Bool := bit v.cmd.toNat 0
def t5Kt (v : VF) : Nat := v.cmd.toNat / 2 + 1

/-- The plane sets of a command's groups at core c (R224). -/
def vGrp (c : Nat) (v : VF) (k : Nat) (x : Nat) : PSet :=
  match k with
  | 0 => ⟨c, x % 2 ^ 17, gw v.wa v.ca, v.ca, v.ga, 16⟩
  | 1 => ⟨c, x % 2 ^ 17, gw v.wb v.cb, v.cb, v.gb, 16⟩
  | _ => ⟨c, x % 2 ^ 17, gw v.wd v.cd, v.cd, v.gd, 16⟩
/-- The operand that a group describes: 0 the first source, 1 the second or the mask, 2 the destination. -/
def VPos.at (p : VPos) : Nat → Option Nat | 0 => p.a | 1 => p.b | _ => p.d
def grpOf (i : Instr) (opnd : Nat) : Option Nat := (List.range 3).find? fun k => (vpos i).at k == some opnd

/-- A command's packed source: words that hold n ternary digits (R247). -/
def t5Words (n : Nat) : Nat := cdiv (cdiv n 5) 8
/-- Does an operand hold UNPACK.T5's packed bytes or its slabs? -/
def isT5 : Instr → Bool | .unpackT5 .. => true | _ => false
/-- Words of an operand's range, its alignment, whether its NELEM is ignored. (DEDUCED, log 46) -/
def opndGeom (i : Instr) (v : VF) (grp x : Nat) : Nat × Nat × Bool :=
  if isT5 i && grp == 0 then (t5Words (nelem x), 1, false)
  else if isT5 i && t5Slab v then (cdiv (t5Kt v) 32 * 96, 32, true)
  else (cdiv (nelem x) 1024 * (vGrp 0 v grp x).size, 16, false)

/-- NELEM of a group's operand; a command without the group has no count. -/
def cnt (i : Instr) (vs : List Val) (k : Nat) : Nat :=
  match (vpos i).at k with | some o => nelem (opn vs o).nat | none => 0
/-- The count relations (reason 0x04): the operand that must not be shorter, by group, and the count it must reach. -/
def vecCounts (i : Instr) (v : VF) (vs : List Val) : List (Nat × Nat) :=
  let n := cnt i vs
  match i with
  | .vred .. | .vcompact .. | .vscatter .. => [(1, n 0)]
  | .vtopk .. => [(2, v.cmd.toNat % 64 + 1), (1, n 0)]
  | .vscan .. => [(0, n 2), (1, n 2)]
  | .vexpand .. | .vgather .. => [(1, n 2)]
  | .vcopy .. | .vplane .. => [(2, n 0)]
  | .unpackT5 .. => if t5Slab v then [] else [(2, n 0)]
  | .vfill .. | .vrand .. | .vamaxh .. => []
  | _ => [(0, n 2), (1, n 2)]
/-- Commands that may work in place (R226). -/
def inPlace : Instr → Bool
  | .vred .. | .vscan .. | .vtopk .. | .vcompact .. | .vexpand .. | .vgather .. | .vscatter .. | .vrand .. | .vamaxh ..
  | .unpackT5 .. => false
  | _ => true
/-- The destination's range overlaps a source's in a way that R226 does not allow. -/
def badOverlap (i : Instr) (v : VF) (vs : List Val) : Bool :=
  match (vpos i).d with
  | none => false
  | some d =>
    let x := (opn vs d).nat
    (List.range 2).any fun k => match (vpos i).at k with
      | none => false
      | some o =>
        let y := (opn vs o).nat
        overlaps (x % 2 ^ 17) (opndGeom i v 2 x).1 (y % 2 ^ 17) (opndGeom i v k y).1
          && !(inPlace i && x == y && { vGrp 0 v k y with core := 0 } == vGrp 0 v 2 x)
/-- Indices of operand A that the destination group cannot hold (reason 0x06). -/
def badIndex (i : Instr) (v : VF) (vs : List Val) : Bool :=
  (match i with | .vtopk .. => true | .vcompact .. => v.opt | _ => false) && decide (cnt i vs 0 - 1 > elMax (gw v.wd v.cd) v.cd)

/-- The checks of a vector command when it executes (R225): the descriptors A, B, C, then those between them. (DEDUCED, log 42) -/
def vecCheck (s : State) (c : Nat) (i : Instr) (v : VF) (vs : List Val) : Option FRes :=
  let one := fun (o : Nat) => match grpOf i o with
    | none => none
    | some k => let x := opn vs o; let (w, al, z) := opndGeom i v k x.nat; planeOpnd s c o x w al (k == 2) z
  let opOf := fun (k : Nat) => match (vpos i).at k with | some o => o | none => 0
  let rel := fun (e : Nat × Nat) => match (vpos i).at e.1 with
    | some o => if nelem (opn vs o).nat < e.2 then some (descTrap cVecDesc (opn vs 0) o 4) else none
    | none => none
  firstSome ((List.range vs.length).map one ++ (vecCounts i v vs).map rel ++
    [if badOverlap i v vs then some (descTrap cVecDesc (opn vs 0) (opOf 2) 5) else none,
     if badIndex i v vs then some (descTrap cVecDesc (opn vs 0) (opOf 2) 6) else none,
     if isT5 i && t5Slab v && decide (cdiv (cnt i vs 0) (t5Kt v) > 64) then some (descTrap cVecDesc (opn vs 0) 0 7) else none])

/-! ## A started command -/

/-- What the engine does with one block: it waits on an empty word, or has written the block. -/
inductive VStep where
  | wait (key : Nat)
  | next (s : State) (a : EngAcc)

/-- The engine's cycles in a block of a started command (Tables 9.4 and 9.5). -/
def vecBusy (r : VecRun) (a : EngAcc) : Nat := vecLeft r.cmd r.blk r.acc.n1 - vecLeft r.cmd (r.blk + 1) a.n1
/-- The engine is busy with a command for some cclk (R230), which EVC counts (R447). (DEDUCED, log 89) -/
def vecPut (s : State) (c : Nat) (r : VecRun) (n : Nat) : State :=
  countEv (s.modCore c fun co => { co with vec := some { r with waitW := none, till := coreCclk s c + n } }) c 0x22 n
/-- A command starts: it takes the cycles that no block has (R230). -/
def vecBegin (s : State) (c : Nat) (r : Released) : State := vecPut (secStart s c r.sec) c { cmd := r } (vecFixed r)
/-- The next block of a started command is read and written, and keeps the engine for its cycles; behind the last the token is
released and the engine is free (R218, R219, R230). (DEDUCED, log 20) -/
def vecWork (s : State) (c : Nat) (r : VecRun) (blk : State → Released → Nat → EngAcc → VStep)
    (fin : State → Released → EngAcc → State × Val) : State :=
  if r.blk < cdiv (vecCount r.cmd) 1024 then
    match blk s r.cmd r.blk r.acc with
    | .wait key => awake (s.modCore c fun co => { co with vec := some { r with waitW := some key } }) key
    | .next s a => vecPut s c { r with blk := r.blk + 1, acc := a } (vecBusy r a)
  else
    let (s, v) := fin s r.cmd r.acc
    sendDone (s.modCore c fun co => { co with vec := none }) r.cmd v

/-- The meaning of a vector command: its checks in a firing, and its blocks in the engine. -/
def vecExec (s : State) (i : Instr) (v : VF) (blk : State → Released → Nat → EngAcc → VStep)
    (fin : State → Released → EngAcc → State × Val) : Host.Outcome State Fault Refusal :=
  match s.focus with
  | .engine c .vec =>
    let co := s.core c
    (match co.vec, co.vecQ with
      | some r, _ => if r.cmd.i = i ∧ r.till ≤ coreCclk s c then .next (vecWork s c r blk fin) else .refused .notEnabled
      | none, r :: q => if r.i = i then .next (vecBegin (s.setCore c { co with vecQ := q }) c r) else .refused .notEnabled
      | none, [] => .refused .notEnabled)
  | _ => fireWord s i fun s c f n vs =>
    match vecCheck s c i v vs with
    | some t => t
    | none => relOut i c f n vs

/-! ## Shared parts of the commands -/

/-- Lanes of block b below a count (R220). -/
def blkLanes (n b : Nat) : List Nat := List.range (min 1024 (n - 1024 * b))
/-- The plane set of group k of a released command. -/
def vSet (r : Released) (v : VF) (k : Nat) : PSet :=
  vGrp r.core v k (match (vpos r.i).at k with | some o => opNat r o | none => 0)
def vCnt (r : Released) (k : Nat) : Nat := match (vpos r.i).at k with | some o => nelem (opNat r o) | none => 0
/-- The block's source words, or the first that is empty. -/
def reading (s : State) (keys : List Nat) (k : Unit → VStep) : VStep :=
  match firstEmpty s.mem keys with | some key => .wait key | none => k ()
def errFin (s : State) (_ : Released) (a : EngAcc) : State × Val := (s, Val.ofNat (a.errs % 2 ^ 32))

/-- Elements written to a block with their status bits; those in error are counted. -/
def wrote (s : State) (p : PSet) (b : Nat) (a : EngAcc) (els : List (Nat × El)) (fl : Nat) : VStep :=
  .next (setAstat (p.put s b els) p.core fl) { a with errs := a.errs + errCount els }

/-- Element by element: a lane's source elements give the element written, or that the lane is not written, and status
bits. (DESIGN CHOICE, log 41) -/
def eachBlk (v : VF) (grps : List Nat) (f : List El → Option El × Nat) (s : State) (r : Released) (b : Nat) (a : EngAcc) : VStep :=
  let d := vSet r v 2
  let ls := blkLanes (vCnt r 2) b
  let srcs := grps.map (vSet r v)
  reading s (srcs.flatMap fun p => p.needs b ls) fun _ =>
    let out := ls.map fun l => (l, f (srcs.map fun p => p.el s.mem b l))
    wrote s d b a (out.filterMap fun e => e.2.1.map fun x => (e.1, x)) (flagsOf (out.map (·.2.2)))

/-- An FP lane (R229, R22): an F32 operation on the patterns. -/
def fpLane (op : List Nat → Num.FRes) (es : List El) : Option El × Nat :=
  let bad := es.any fun e => match e with | some x => f32Bad x.2 | none => false
  if bad ∨ es.any (·.isNone) then (some none, if bad then flPcode else 0)
  else
    let r := op (es.map fun e => match e with | some x => x.2 | none => 0)
    (some (match r with | .num p _ => some (false, p) | _ => none), fresFlags r)
/-- An integer lane: exact, then put_el (R228). -/
def intLane (v : VF) (f : List Int → Int) (es : List El) : Option El × Nat :=
  if es.any (·.isNone) then (some none, 0)
  else
    let (e, fl) := putEl v.sat (gw v.wd v.cd) v.cd (f (es.map fun e => match e with | some x => elInt x | none => 0))
    (some (some e), fl)
def nth2 {α β : Type} (d : α) (f : α → α → β) (l : List α) : β := f (nthD l 0 d) (nthD l 1 d)
/-- A lane of two operands, and of one. -/
def lane2 (v : VF) (g : Int → Int → Int) (h : Nat → Nat → Num.FRes) : List El → Option El × Nat :=
  if isFP v.ca then fpLane (nth2 0 h) else intLane v (nth2 0 g)
def lane1 (v : VF) (g : Int → Int) (h : Nat → Num.FRes) : List El → Option El × Nat :=
  if isFP v.ca then fpLane (fun l => h (nthD l 0 0)) else intLane v (fun l => g (nthD l 0 0))
/-- An element as it moves to a destination group: put_el, or the pattern for FP (R229, R234, R239). -/
def moveEl (v : VF) (e : El) : El × Nat :=
  match e with
  | none => (none, 0)
  | some x =>
    if isFP v.cd then (if f32Bad x.2 then (none, flPcode) else (some x, 0))
    else let (y, fl) := putEl v.sat (gw v.wd v.cd) v.cd (elInt x); (some y, fl)

/-! ## Opcode 0x70 (R231 to R235) -/

/-- VADD. -/
def execVadd (x : XF) (v : VF) (s : State) : Host.Outcome State Fault Refusal :=
  vecExec s (.vadd x v) v (eachBlk v [0, 1] (lane2 v (· + ·) Num.fadd)) errFin
/-- VSUB. -/
def execVsub (x : XF) (v : VF) (s : State) : Host.Outcome State Fault Refusal :=
  vecExec s (.vsub x v) v (eachBlk v [0, 1] (lane2 v (· - ·) Num.fsub)) errFin
/-- VMUL. -/
def execVmul (x : XF) (v : VF) (s : State) : Host.Outcome State Fault Refusal :=
  vecExec s (.vmul x v) v (eachBlk v [0, 1] (lane2 v (· * ·) Num.fmul)) errFin
/-- VFMA: the destination is the addend. -/
def execVfma (x : XF) (v : VF) (s : State) : Host.Outcome State Fault Refusal :=
  let f := if isFP v.ca then fpLane (fun l => Num.fma (nthD l 0 0) (nthD l 1 0) (nthD l 2 0))
    else intLane v (fun l => nthD l 0 0 * nthD l 1 0 + nthD l 2 0)
  vecExec s (.vfma x v) v (eachBlk v [0, 1, 2] f) errFin
/-- VMIN. -/
def execVmin (x : XF) (v : VF) (s : State) : Host.Outcome State Fault Refusal :=
  vecExec s (.vmin x v) v (eachBlk v [0, 1] (lane2 v min Num.fmin)) errFin
/-- VMAX. -/
def execVmax (x : XF) (v : VF) (s : State) : Host.Outcome State Fault Refusal :=
  vecExec s (.vmax x v) v (eachBlk v [0, 1] (lane2 v max Num.fmax)) errFin
/-- VABS. -/
def execVabs (x : XF) (v : VF) (s : State) : Host.Outcome State Fault Refusal :=
  vecExec s (.vabs x v) v (eachBlk v [0] (lane1 v (fun a => (a.natAbs : Int)) Num.fabs)) errFin
/-- VNEG. -/
def execVneg (x : XF) (v : VF) (s : State) : Host.Outcome State Fault Refusal :=
  vecExec s (.vneg x v) v (eachBlk v [0] (lane1 v (fun a => -a) Num.fneg)) errFin

/-- The bits of two elements combined plane by plane, sign planes as well (R232). (DEDUCED, log 43) -/
def bitLane (v : VF) (g : Nat → Nat → Nat) (es : List El) : Option El × Nat :=
  match nthD es 0 none, nthD es 1 none with
  | some a, some b =>
    if isTC v.ca then
      let w := gw v.wa v.ca
      (some (some (intEl (Num.asS (g (Num.wrap (elInt a) w) (Num.wrap (elInt b) w)) w))), 0)
    else (some (some (decide (g (bnat a.1) (bnat b.1) = 1), g a.2 b.2)), 0)
  | _, _ => (some none, 0)
/-- VAND. -/
def execVand (x : XF) (v : VF) (s : State) : Host.Outcome State Fault Refusal :=
  vecExec s (.vand x v) v (eachBlk v [0, 1] (bitLane v (· &&& ·))) errFin
/-- VOR. -/
def execVor (x : XF) (v : VF) (s : State) : Host.Outcome State Fault Refusal :=
  vecExec s (.vor x v) v (eachBlk v [0, 1] (bitLane v (· ||| ·))) errFin
/-- VXOR. -/
def execVxor (x : XF) (v : VF) (s : State) : Host.Outcome State Fault Refusal :=
  vecExec s (.vxor x v) v (eachBlk v [0, 1] (bitLane v (· ^^^ ·))) errFin

/-- K of VSHL and VSHR. -/
def vK (v : VF) : Nat := v.cmd.toNat % 64
/-- VSHL. -/
def execVshl (x : XF) (v : VF) (s : State) : Host.Outcome State Fault Refusal :=
  vecExec s (.vshl x v) v (eachBlk v [0] (intLane v fun l => nthD l 0 0 * (2 ^ vK v : Nat))) errFin
/-- VSHR: floor, or nearest even when OPT is set. -/
def execVshr (x : XF) (v : VF) (s : State) : Host.Outcome State Fault Refusal :=
  vecExec s (.vshr x v) v (eachBlk v [0] (intLane v fun l =>
    if v.opt then Num.rneInt (nthD l 0 0) (vK v) else nthD l 0 0 / (2 ^ vK v : Nat))) errFin

/-- The relation of VCMP (R233). -/
def cmpRel (rel : Nat) (o : Ordering) : Bool :=
  match rel with
  | 0 => o == .eq | 1 => o != .eq | 2 => o == .lt | 3 => o != .gt | 4 => o == .gt | _ => o != .lt
/-- VCMP. -/
def execVcmp (x : XF) (v : VF) (s : State) : Host.Outcome State Fault Refusal :=
  let rel := v.cmd.toNat % 8
  let fp := fpLane (nth2 0 (Num.f32Bin fun a b => .num (bnat (cmpRel rel (a.cmp b))) false))
  let int := intLane v (nth2 0 fun a b => bnat (cmpRel rel (compare a b)))
  vecExec s (.vcmp x v) v (eachBlk v [0, 1] (if isFP v.ca then fp else int)) errFin

/-- The status bits of a lane whose mask element is in error: an operand read as an error still sets its bit (R22), and no result
is put. -/
def carried (fl : Nat) : Nat := if fl = flPcode then fl else 0

/-- VSELECT (R234): the mask is operand A, group b. -/
def execVselect (x : XF) (v : VF) (s : State) : Host.Outcome State Fault Refusal :=
  let f := fun (es : List El) =>
    let (e, fl) := moveEl v (nthD es 1 none)
    match maskEl (nthD es 0 none) with
    | some true => (some e, fl)
    | some false => (none, 0)
    | none => (some none, carried fl)
  vecExec s (.vselect x v) v (eachBlk v [1, 0] f) errFin

/-- VEXP2. -/
def execVexp2 (x : XF) (v : VF) (s : State) : Host.Outcome State Fault Refusal :=
  vecExec s (.vexp2 x v) v (eachBlk v [0] (fpLane fun l => Num.fexp2 (nthD l 0 0))) errFin
/-- VLOG2. -/
def execVlog2 (x : XF) (v : VF) (s : State) : Host.Outcome State Fault Refusal :=
  vecExec s (.vlog2 x v) v (eachBlk v [0] (fpLane fun l => Num.flog2 (nthD l 0 0))) errFin
/-- VRCP. -/
def execVrcp (x : XF) (v : VF) (s : State) : Host.Outcome State Fault Refusal :=
  vecExec s (.vrcp x v) v (eachBlk v [0] (fpLane fun l => Num.frcp (nthD l 0 0))) errFin
/-- VRSQ. -/
def execVrsq (x : XF) (v : VF) (s : State) : Host.Outcome State Fault Refusal :=
  vecExec s (.vrsq x v) v (eachBlk v [0] (fpLane fun l => Num.frsq (nthD l 0 0))) errFin

/-- The exact value of lane l of a set, with the status bits of reading it. -/
def laneFl (m : List Host.Cell) (p : PSet) (b l : Nat) : Option Num.Fl × Nat :=
  match p.el m b l with
  | none => (none, 0)
  | some e => match elFl p.code e (p.exp m b l) with | some y => (some y, 0) | none => (none, flPcode)
/-- A value in a destination that is not block-scaled (R235, steps 2, 3, 5). (DEDUCED, log 44) -/
def cvtEl (v : VF) (y : Num.Fl) : El × Nat :=
  if isFP v.cd then (match Num.toF32 y with | .num p sat => (some (false, p), if sat then flSat else 0) | _ => (none, 0))
  else if y.m = 0 then (some (y.neg && isSM v.cd, 0), 0)
  else if elFits (gw v.wd v.cd) v.cd y.round then (some (intEl y.round), 0)
  else if v.sat then let (e, fl) := putEl true (gw v.wd v.cd) v.cd y.round; (some e, fl)
  else (none, flCvt)
/-- A block of values aligned into a block-scaled destination by groups of 32 lanes. -/
def putAligned (s : State) (p : PSet) (b : Nat) (a : EngAcc) (vs : List (Option Num.Fl)) (fl : Nat) : VStep :=
  let gs := (chunks32 32 vs).map (alignEls p.w p.code)
  let els := gs.flatMap (·.2.1)
  let s := p.putExps s b ((List.range gs.length).zip (gs.map (·.1)))
  wrote s p b a ((List.range els.length).zip els) (flagsOf (fl :: gs.map (·.2.2)))
/-- VCVT (R235). -/
def vcvtBlk (v : VF) (s : State) (r : Released) (b : Nat) (a : EngAcc) : VStep :=
  let p := vSet r v 0
  let d := vSet r v 2
  let ls := blkLanes (vCnt r 2) b
  reading s (p.needs b ls) fun _ =>
    let vals := ls.map fun l => laneFl s.mem p b l
    let fl := flagsOf (vals.map (·.2))
    if v.gd then putAligned s d b a (vals.map (·.1)) fl
    else
      let out := vals.map fun y => match y.1 with | some y => cvtEl v y | none => (none, 0)
      wrote s d b a (ls.zip (out.map (·.1))) (flagsOf (fl :: out.map (·.2)))
def execVcvt (x : XF) (v : VF) (s : State) : Host.Outcome State Fault Refusal :=
  vecExec s (.vcvt x v) v (vcvtBlk v) errFin

/-! ## Reductions and scans (R236, R237) -/

/-- The source elements of a block's lanes with what the mask says of each: true where no mask is present. -/
def masked (v : VF) (s : State) (r : Released) (n b : Nat) (k : List (Nat × El × Option Bool) → VStep) : VStep :=
  let p := vSet r v 0
  let q := vSet r v 1
  let ls := blkLanes n b
  reading s (p.needs b ls ++ if v.msk then q.needs b ls else []) fun _ =>
    k (ls.map fun l => (l, p.el s.mem b l, if v.msk then maskEl (q.el s.mem b l) else some true))
/-- F32 addition of patterns that are no errors. -/
def addF (a b : Nat) : Nat × Nat := match Num.fadd a b with | .num r sat => (r, if sat then flSat else 0) | _ => (0, 0)
/-- One level of the tree of R55, and the tree. -/
def treeLevel : List Nat → List Nat × Nat
  | a :: b :: l => let (x, f) := addF a b; let (y, g) := treeLevel l; (x :: y, orFlags f g)
  | l => (l, 0)
def treeSum : Nat → List Nat → Nat × Nat
  | 0, l => (nthD l 0 0, 0)
  | n + 1, l => let (x, f) := treeLevel l; let (y, g) := treeSum n x; (y, orFlags f g)

/-- An FP element in error by its pattern. -/
def fpBadEl (v : VF) (e : El) : Bool := match e with | some x => isFP v.ca && f32Bad x.2 | none => false
/-- The running integer and F32 extreme of VRED. -/
def redInt (op : Nat) (seen : Bool) (a x : Int) : Int :=
  match op with
  | 0 => a + x
  | 1 => if seen then max a x else x
  | 2 => if seen then min a x else x
  | _ => max a (x.natAbs : Int)
def redF (op : Nat) (seen : Bool) (a x : Nat) : Nat :=
  let pick := fun (r : Num.FRes) => match r with | .num p _ => p | _ => a
  match op with
  | 1 => if seen then pick (Num.fmax a x) else x
  | 2 => if seen then pick (Num.fmin a x) else x
  | _ => max a (x % 2 ^ 31)
/-- VRED on one block; a lane whose mask is in error takes part. (DEDUCED, log 47) -/
def vredBlk (v : VF) (s : State) (r : Released) (b : Nat) (a : EngAcc) : VStep :=
  let op := v.cmd.toNat % 4
  masked v s r (vCnt r 0) b fun ls =>
    let part := ls.filter fun e => e.2.2 != some false
    let pc := part.any fun e => fpBadEl v e.2.1
    let bad := a.bad || pc || part.any fun e => e.2.1.isNone || e.2.2.isNone
    let s := if pc then setAstat s r.core flPcode else s
    if bad then .next s { a with bad, seen := true }
    else if isFP v.ca && op == 0 then
      let at_ := fun (l : Nat) => match part.find? (fun e => e.1 == l) with | some (_, some x, _) => x.2 | _ => 0
      let (t, f) := treeSum 10 ((List.range 1024).map at_)
      let (t, g) := if b = 0 then (t, 0) else addF a.bits t
      .next s { a with seen := a.seen || part != [], bits := t, n2 := orFlags a.n2 (orFlags f g) }
    else
      .next s (part.foldl (fun a e => match e.2.1 with
        | some x => { a with seen := true, int := redInt op a.seen a.int (elInt x), bits := redF op a.seen a.bits x.2 }
        | none => a) a)
def vredFin (v : VF) (s : State) (r : Released) (a : EngAcc) : State × Val :=
  if a.bad then (s, Val.err)
  else if !a.seen then (s, if v.cmd.toNat % 4 = 0 then Val.ofNat 0 else Val.err)
  else if isFP v.ca then (setAstat s r.core a.n2, Val.ofNat a.bits)
  else (s, Val.ofNat (Num.wrap a.int 64))
/-- VRED (R236). -/
def execVred (x : XF) (v : VF) (s : State) : Host.Outcome State Fault Refusal :=
  vecExec s (.vred x v) v (vredBlk v) (vredFin v)

/-- F32 addition where none is an error (R229). -/
def addE (a b : Option Nat) : Option Nat × Nat :=
  match a, b with | some x, some y => let (r, f) := addF x y; (some r, f) | _, _ => (none, 0)
/-- Each lane with the lane d below it added. -/
def scanLevel (d : Nat) (l : List (Option Nat)) : List (Option Nat) × Nat :=
  let r := (l.drop d).zip l |>.map fun e => addE e.2 e.1
  (l.take d ++ r.map (·.1), flagsOf (r.map (·.2)))
def scanLevels : List Nat → List (Option Nat) → List (Option Nat) × Nat
  | [], l => (l, 0)
  | d :: ds, l => let (x, f) := scanLevel d l; let (y, g) := scanLevels ds x; (y, orFlags f g)
/-- Running exact sums from a start. -/
def prefixes : Option Int → List (Option Int) → List (Option Int)
  | _, [] => []
  | c, x :: l => let y := match c, x with | some a, some b => some (a + b) | _, _ => none; y :: prefixes y l
/-- A list's last element, or another. -/
def lastD {α : Type} (l : List α) (d : α) : α := match l.getLast? with | some a => a | none => d

/-- VSCAN on one block: `a.int` or `a.bits` is the running total, `a.bad` its error. -/
def vscanBlk (v : VF) (s : State) (r : Released) (b : Nat) (a : EngAcc) : VStep :=
  let d := vSet r v 2
  masked v s r (vCnt r 2) b fun ls =>
    let use := ls.filter fun e => e.2.2 != some false
    let fl := if use.any fun e => fpBadEl v e.2.1 then flPcode else 0
    let contrib := fun (e : Nat × El × Option Bool) => match e.2.2 with
      | some false => some (false, 0)
      | some true => if fpBadEl v e.2.1 then none else e.2.1
      | none => none
    if isFP v.ca then
      let (l, f) := scanLevels [1, 2, 4, 8, 16, 32, 64, 128, 256, 512] (ls.map fun e => (contrib e).map (·.2))
      let carry := if a.bad then none else some a.bits
      let inc := if b = 0 then l.map fun x => (x, 0) else l.map (addE carry)
      let incl := inc.map (·.1)
      let out := if v.opt then carry :: incl.take (incl.length - 1) else incl
      let tot := lastD incl carry
      wrote s d b { a with bits := match tot with | some t => t | none => 0, bad := tot.isNone }
        ((ls.map (·.1)).zip (out.map fun x => x.map fun p => (false, p))) (flagsOf (fl :: f :: inc.map (·.2)))
    else
      let carry := if a.bad then none else some a.int
      let incl := prefixes carry (ls.map fun e => (contrib e).map elInt)
      let out := if v.opt then carry :: incl.take (incl.length - 1) else incl
      let tot := lastD incl carry
      let els := out.map fun x => match x with
        | some y => let (e, f) := putEl v.sat (gw v.wd v.cd) v.cd y; ((some e : El), f)
        | none => (none, 0)
      wrote s d b { a with int := match tot with | some t => t | none => 0, bad := tot.isNone }
        ((ls.map (·.1)).zip (els.map (·.1))) (flagsOf (els.map (·.2)))
def vscanFin (v : VF) (s : State) (_ : Released) (a : EngAcc) : State × Val :=
  if a.bad then (s, ⟨BitVec.ofNat 64 (a.errs % 2 ^ 32), true⟩)
  else (s, Val.ofNat (if isFP v.ca then a.bits else Num.wrap a.int 64))
/-- VSCAN (R237). -/
def execVscan (x : XF) (v : VF) (s : State) : Host.Outcome State Fault Refusal :=
  vecExec s (.vscan x v) v (vscanBlk v) (vscanFin v)

/-! ## Selection and movement (R238 to R241) -/

/-- An element's place in the order of values: a natural that rises with it; −0 and +0 share one (R238). -/
def orderKey (fp : Bool) (x : Bool × Nat) : Nat :=
  if fp then (if bit x.2 31 then 2 ^ 31 - x.2 % 2 ^ 31 else 2 ^ 31 + x.2)
  else (elInt x + 2 ^ 31).toNat
/-- A candidate put into a list in order, behind its equals. -/
def rankIn (asc : Bool) (c : Nat × Nat) : List (Nat × Nat) → List (Nat × Nat)
  | [] => [c]
  | d :: l => if (if asc then c.1 < d.1 else d.1 < c.1) then c :: d :: l else d :: rankIn asc c l
/-- VTOPK on one block: the best candidates so far, as (place, index). -/
def vtopkBlk (v : VF) (s : State) (r : Released) (b : Nat) (a : EngAcc) : VStep :=
  masked v s r (vCnt r 0) b fun ls =>
    let use := ls.filter fun e => e.2.2 == some true
    let s := if use.any fun e => fpBadEl v e.2.1 then setAstat s r.core flPcode else s
    let cand := use.filterMap fun e => match e.2.1 with
      | some x => if fpBadEl v e.2.1 then none else some (orderKey (isFP v.ca) x, 1024 * b + e.1) | none => none
    .next s { a with top := (cand.foldl (fun t c => (rankIn v.opt c t).take (v.cmd.toNat % 64 + 1)) a.top) }
def vtopkFin (v : VF) (s : State) (r : Released) (a : EngAcc) : State × Val :=
  let els := (List.range (v.cmd.toNat % 64 + 1)).map fun k => (k, (nth? a.top k).map fun c => (false, c.2))
  ((vSet r v 2).put s 0 els, Val.ofNat a.top.length)
/-- VTOPK (R238). -/
def execVtopk (x : XF) (v : VF) (s : State) : Host.Outcome State Fault Refusal :=
  vecExec s (.vtopk x v) v (vtopkBlk v) (vtopkFin v)

/-- VCOMPACT on one source block: `a.n1` lanes have been selected before it. Each source block writes its lanes, so that a word
filled from two blocks is written in parts (R220). (DEDUCED, log 102) -/
def vcompactBlk (v : VF) (s : State) (r : Released) (b : Nat) (a : EngAcc) : VStep :=
  let p := vSet r v 0
  let q := vSet r v 1
  let d := vSet r v 2
  let ls := blkLanes (vCnt r 0) b
  reading s ((if v.opt then [] else p.needs b ls) ++ q.needs b ls) fun _ =>
    let sel := (ls.map fun l => (l, maskEl (q.el s.mem b l))).filter fun e => e.2 != some false
    let val := fun (e : Nat × Option Bool) => match e.2 with
      | none => (none, if v.opt then 0 else carried (moveEl v (p.el s.mem b e.1)).2)
      | some _ => if v.opt then (some (false, 1024 * b + e.1), 0) else moveEl v (p.el s.mem b e.1)
    let out := (((List.range sel.length).map (· + a.n1)).zip (sel.map val)).filter fun e => decide (e.1 < vCnt r 2)
    let s := d.putAll s (out.map fun e => (e.1, e.2.1))
    .next (setAstat s r.core (flagsOf (out.map (·.2.2)))) { a with n1 := a.n1 + sel.length }
def vcompactFin (s : State) (r : Released) (a : EngAcc) : State × Val :=
  (s, Val.ofNat (a.n1 * 2 ^ 32 + min a.n1 (vCnt r 2)))
/-- VCOMPACT (R239). -/
def execVcompact (x : XF) (v : VF) (s : State) : Host.Outcome State Fault Refusal :=
  vecExec s (.vcompact x v) v (vcompactBlk v) vcompactFin

/-- Which element of the dense source each lane takes: those that select count up from `u`. -/
def takeNext : Nat → List (Nat × Option Bool) → List (Nat × Option Nat)
  | _, [] => []
  | u, (l, some true) :: r => (l, some u) :: takeNext (u + 1) r
  | u, (l, none) :: r => (l, none) :: takeNext u r
  | u, (_, some false) :: r => takeNext u r
/-- The words that elements of a tensor depend on. -/
def PSet.needsAll (p : PSet) (idx : List Nat) : List Nat :=
  (distinct (idx.map (· / 1024))).flatMap fun b => p.needs b ((idx.filter (· / 1024 == b)).map (· % 1024))
def PSet.elAll (p : PSet) (m : List Host.Cell) (i : Nat) : El := p.el m (i / 1024) (i % 1024)
/-- VEXPAND on one destination block: `a.n1` elements of A have been used before it. -/
def vexpandBlk (v : VF) (s : State) (r : Released) (b : Nat) (a : EngAcc) : VStep :=
  let p := vSet r v 0
  let q := vSet r v 1
  let ls := blkLanes (vCnt r 2) b
  reading s (q.needs b ls) fun _ =>
    let todo := takeNext a.n1 (ls.map fun l => (l, maskEl (q.el s.mem b l)))
    let src := (todo.filterMap (·.2)).filter fun u => decide (u < vCnt r 0)
    reading s (p.needsAll src) fun _ =>
      let val := fun (e : Nat × Option Nat) => match e.2 with
        | some u => if u < vCnt r 0 then moveEl v (p.elAll s.mem u) else (none, 0)
        | none => (none, 0)
      let out := todo.map fun e => (e.1, val e)
      wrote s (vSet r v 2) b { a with n1 := a.n1 + src.length } (out.map fun e => (e.1, e.2.1)) (flagsOf (out.map (·.2.2)))
/-- VEXPAND (R240): the token carries the number of elements used. -/
def execVexpand (x : XF) (v : VF) (s : State) : Host.Outcome State Fault Refusal :=
  vecExec s (.vexpand x v) v (vexpandBlk v) fun s _ a => (s, Val.ofNat a.n1)

/-- An element that moves between equal groups; an FP pattern in error becomes an error element (R229). -/
def sameEl (v : VF) (e : El) : El × Nat :=
  match e with
  | some x => if isFP v.ca && f32Bad x.2 then (none, flPcode) else (some x, 0)
  | none => (none, 0)
/-- An index element below a count (R241). -/
def idxEl (e : El) (n : Nat) : Option Nat :=
  match e with | some x => if elInt x < 0 ∨ elInt x ≥ n then none else some (elInt x).toNat | none => none
def vgatherBlk (v : VF) (s : State) (r : Released) (b : Nat) (a : EngAcc) : VStep :=
  let p := vSet r v 0
  let q := vSet r v 1
  let ls := blkLanes (vCnt r 2) b
  reading s (q.needs b ls) fun _ =>
    let idx := ls.map fun l => (l, idxEl (q.el s.mem b l) (vCnt r 0))
    reading s (p.needsAll (idx.filterMap (·.2))) fun _ =>
      let out := idx.map fun e => (e.1, match e.2 with | some i => sameEl v (p.elAll s.mem i) | none => (none, 0))
      wrote s (vSet r v 2) b a (out.map fun e => (e.1, e.2.1)) (flagsOf (out.map (·.2.2)))
/-- VGATHER (R241). -/
def execVgather (x : XF) (v : VF) (s : State) : Host.Outcome State Fault Refusal :=
  vecExec s (.vgather x v) v (vgatherBlk v) errFin
def vscatterBlk (v : VF) (s : State) (r : Released) (b : Nat) (a : EngAcc) : VStep :=
  let p := vSet r v 0
  let q := vSet r v 1
  let ls := blkLanes (vCnt r 0) b
  reading s (p.needs b ls ++ q.needs b ls) fun _ =>
    let out := ls.filterMap fun l => (idxEl (q.el s.mem b l) (vCnt r 2)).map fun i => (i, sameEl v (p.el s.mem b l))
    let s := (vSet r v 2).putAll s (out.map fun e => (e.1, e.2.1))
    .next (setAstat s r.core (flagsOf (out.map (·.2.2)))) { a with n1 := a.n1 + (ls.length - out.length) }
/-- VSCATTER (R241): the token carries the number dropped. -/
def execVscatter (x : XF) (v : VF) (s : State) : Host.Outcome State Fault Refusal :=
  vecExec s (.vscatter x v) v (vscatterBlk v) fun s _ a => (s, Val.ofNat (a.n1 % 2 ^ 32))

/-! ## Fill, copy, re-planing (R242 to R244) -/

def vfillBlk (v : VF) (s : State) (r : Released) (b : Nat) (a : EngAcc) : VStep :=
  let x := nthD r.ops 0 Val.err
  let ls := blkLanes (vCnt r 2) b
  let d := vSet r v 2
  if v.gd then
    let y := if x.x then none else Num.f32.read (x.nat % 2 ^ 32)
    putAligned s d b a (ls.map fun _ => y) (if !x.x && y.isNone then flPcode else 0)
  else
    let (e, fl) := if x.x then (none, 0)
      else if isFP v.cd then moveEl v (some (false, x.nat % 2 ^ 32)) else moveEl v (some (intEl (Num.asS x.nat 64)))
    wrote s d b a (ls.map fun l => (l, e)) fl
/-- VFILL (R242). -/
def execVfill (x : XF) (v : VF) (s : State) : Host.Outcome State Fault Refusal :=
  vecExec s (.vfill x v) v (vfillBlk v) errFin

/-- VCOPY on one block: the planes' bits as they stand; the lanes of a word with X become error elements (R32), and error elements
are written in canonical form (R31). (DEDUCED, log 45) -/
def vcopyBlk (v : VF) (s : State) (r : Released) (b : Nat) (a : EngAcc) : VStep :=
  let p := vSet r v 0
  let d := vSet r v 2
  let ls := blkLanes (vCnt r 0) b
  reading s (p.needs b ls) fun _ =>
    let bad := fun (l : Nat) => p.spoilt s.mem b l || p.bitAt s.mem b (p.parts - 1) l
    let bitOf := fun (part l : Nat) => if bad l then part + 1 == p.parts else p.bitAt s.mem b part l
    let put := fun (st : State) (part : Nat) => (distinct (ls.map (· / 64))).foldl (fun st j =>
      let (mask, w) := laneBits ((ls.filter (· / 64 == j)).map fun l => (l % 64, bitOf part l))
      planeWrite st (d.key b part j) mask w) st
    let gs := if v.ga then (distinct (ls.map (· / 32))).map fun g => (g, p.exp s.mem b (32 * g)) else []
    let errs := (ls.filter (bitOf (p.parts - 1))).length
    .next (d.putExps ((List.range p.parts).foldl put s) b gs) { a with errs := a.errs + errs }
/-- VCOPY (R243). -/
def execVcopy (x : XF) (v : VF) (s : State) : Host.Outcome State Fault Refusal :=
  vecExec s (.vcopy x v) v (vcopyBlk v) errFin

/-- VPLANE on one block: values put at another width; exponents copied (R244). -/
def vplaneBlk (v : VF) (s : State) (r : Released) (b : Nat) (a : EngAcc) : VStep :=
  let p := vSet r v 0
  let d := vSet r v 2
  let ls := blkLanes (vCnt r 0) b
  reading s (p.needs b ls) fun _ =>
    let val := fun (l : Nat) => match p.el s.mem b l with
      | none => (none, 0)
      | some e => if !v.sat && !elFits d.w d.code (elInt e) then (none, flCvt) else moveEl v (some e)
    let out := ls.map fun l => (l, val l)
    let gs := if v.ga then (distinct (ls.map (· / 32))).map fun g => (g, p.exp s.mem b (32 * g)) else []
    wrote (d.putExps s b gs) d b a (out.map fun e => (e.1, e.2.1)) (flagsOf (out.map (·.2.2)))
/-- VPLANE (R244). -/
def execVplane (x : XF) (v : VF) (s : State) : Host.Outcome State Fault Refusal :=
  vecExec s (.vplane x v) v (vplaneBlk v) errFin

/-! ## Random numbers, scale history, ternary weights (R245 to R247) -/

def vrandBlk (v : VF) (s : State) (r : Released) (b : Nat) (a : EngAcc) : VStep :=
  let key := nthD r.ops 0 Val.err
  let base := nthD r.ops 1 Val.err
  let d := vSet r v 2
  let val := fun (l : Nat) =>
    let h := Num.fmix32 (((base.nat + 1024 * b + l) % 2 ^ 32 * 0x9E3779B1 + key.nat % 2 ^ 32) % 2 ^ 32)
    if isFP v.cd then (match Num.toF32 ⟨false, h / 256, -24⟩ with | .num p _ => (false, p) | _ => (false, 0))
    else
      let p := h / 2 ^ (32 - d.w)
      if isTC v.cd then intEl (Num.asS p d.w) else (false, p)
  wrote s d b a ((blkLanes (vCnt r 2) b).map fun l => (l, if key.x || base.x then none else some (val l))) 0
def vrandFin (s : State) (r : Released) (_ : EngAcc) : State × Val :=
  let base := nthD r.ops 1 Val.err
  (s, if (nthD r.ops 0 Val.err).x || base.x then Val.err else Val.ofNat (base.nat + vCnt r 2))
/-- VRAND (R245). -/
def execVrand (x : XF) (v : VF) (s : State) : Host.Outcome State Fault Refusal :=
  vecExec s (.vrand x v) v (vrandBlk v) vrandFin

/-- VAMAXH on one block: `a.bits` is the largest magnitude so far as an F32 pattern, `a.n1` the status bits. -/
def vamaxhBlk (v : VF) (s : State) (r : Released) (b : Nat) (a : EngAcc) : VStep :=
  let p := vSet r v 0
  let ls := blkLanes (vCnt r 0) b
  reading s (p.needs b ls) fun _ =>
    let vals := ls.map fun l => laneFl s.mem p b l
    let a := vals.foldl (fun (a : EngAcc) y => match y.1 with
      | some y => (match Num.toF32 y.abs with
          | .num q sat => { a with bits := max a.bits q, n1 := if sat then flSat else a.n1 } | _ => a)
      | none => a) a
    .next (setAstat s r.core (flagsOf (vals.map (·.2)))) a
/-- A maximum enters a scale history entry (R56). -/
def histPut (co : Core) (e q : Nat) (clear : Bool) : Core :=
  let co := if clear then { co with hist := List.filter (fun (x : Nat × Nat) => !(x.1 / 16 == e) && x.1 != 4096 + e) co.hist } else co
  let h := co.hist.get (4096 + e) 0
  { co with hist := (co.hist.put (16 * e + h) q).put (4096 + e) ((h + 1) % 16) }
def vamaxhFin (v : VF) (s : State) (r : Released) (a : EngAcc) : State × Val :=
  ((setAstat s r.core a.n1).modCore r.core fun co => histPut co (v.cmd.toNat % 256) a.bits v.opt, Val.ofNat a.bits)
/-- VAMAXH (R246). -/
def execVamaxh (x : XF) (v : VF) (s : State) : Host.Outcome State Fault Refusal :=
  vecExec s (.vamaxh x v) v (vamaxhBlk v) (vamaxhFin v)

/-- The key of the word that holds packed element i, and the element with its status bits (R39, R42). -/
def t5Key (r : Released) (i : Nat) : Nat := wordKey r.core (opNat r 0 % 2 ^ 17 + i / 40)
def t5El (s : State) (r : Released) (i : Nat) : El × Nat :=
  let w := getWord s.mem (t5Key r i)
  let y := w.d.toNat / 256 ^ (i / 5 % 8) % 256
  if w.x then (none, 0)
  else if y > 242 then (none, flPcode)
  else (match y / 3 ^ (i % 5) % 3 with | 0 => (some (false, 0), 0) | 1 => (some (false, 1), 0) | _ => (some (true, 1), 0))
/-- A ternary element as it is put into a block: +1 does not fit a TC element of width 1, and whether it wraps as put_el has it
(R228) or is an error element with CVT as R39 has it is a free choice. (DESIGN CHOICE, log 115) -/
def t5Put (v : VF) (e : El) : El × Nat :=
  if gw v.wd v.cd = 1 ∧ isTC v.cd = true ∧ e = some (false, 1) ∧ Config.t5Fits = false then (none, flCvt) else moveEl v e
/-- The positions of one half slab: row, K position, lane (R247, LAY = 1). (DEDUCED, log 48) -/
def t5Slots (b : Nat) : List (Nat × Nat) :=
  (List.range 1024).map fun n => (b % 2 * 32 + n / 32, b / 2 * 32 + n % 32)
def t5Blk (v : VF) (s : State) (r : Released) (b : Nat) (a : EngAcc) : VStep :=
  let n := nelem (opNat r 0)
  if t5Slab v then
    let kt := t5Kt v
    let pos := (t5Slots b).filter fun e => decide (e.1 < cdiv n kt) && (decide (e.2 ≥ kt) || decide (e.1 * kt + e.2 < n))
    let elt := pos.filter fun e => decide (e.2 < kt)
    reading s (distinct (elt.map fun e => t5Key r (e.1 * kt + e.2))) fun _ =>
      let out := pos.map fun e => (32 * e.1 + e.2 % 32, if e.2 < kt then t5El s r (e.1 * kt + e.2) else (some (false, 0), 0))
      wrote s { vSet r v 2 with unit := 32 } (b / 2) a (out.map fun e => (e.1, e.2.1)) (flagsOf (out.map (·.2.2)))
  else
    let ls := blkLanes n b
    reading s (distinct (ls.map fun l => t5Key r (1024 * b + l))) fun _ =>
      let out := ls.map fun l =>
        let (e, f) := t5El s r (1024 * b + l)
        let (e, g) := t5Put v e
        (l, e, orFlags f g)
      wrote s (vSet r v 2) b a (out.map fun e => (e.1, e.2.1)) (flagsOf (out.map (·.2.2)))
/-- UNPACK.T5 (R247). -/
def execUnpackT5 (x : XF) (v : VF) (s : State) : Host.Outcome State Fault Refusal :=
  vecExec s (.unpackT5 x v) v (t5Blk v) errFin

end Sys2Proof.Machine
end

