-- ==== Sys2Proof/Machine/Matrix.lean ====
section
/-! DEFINITION. The plane matrix engine and its accumulator nodes (chapter 10). -/

namespace Sys2Proof.Machine

/-- MAT_DESC (Table 10.4). -/
def cMatDesc : Nat := 0x24
/-- Reasons of Table 10.2. -/
def mNodeBusy : Nat := 1
def mNodeIdle : Nat := 2
def mRange : Nat := 3
def mImage : Nat := 4
def mCleared : Nat := 5

/-! ## Checks (R254, R256 to R258) -/

/-- One descriptor: OPND_X, reserved bits, alignment, and where its range is known, that it lies in scratchpad below the
frame area. `mask` are the bits that a descriptor may set. -/
def matOpnd (s : State) (c opnd : Nat) (v : Val) (mask algn : Nat) (words : Option Nat) (wr : Bool) : Option FRes :=
  let base := v.nat % 2 ^ 17
  if v.x then some (.trap cOpndX v.nat (word5 opnd 0 wr .loc))
  else if v.nat &&& mask ≠ v.nat then some (descTrap cMatDesc v opnd 1)
  else if base % algn ≠ 0 then some (.trap cAlign v.nat (word5 opnd 0 wr .loc))
  else match words with
    | none => none
    | some n =>
      if base + n > Config.spWords then some (descTrap cMatDesc v opnd 3)
      else if base + n > bits (s.core c).frameBase.toNat 16 0 then some (.trap cFrameProt v.nat (word5 opnd rsFrame wr .loc))
      else none
/-- A selecting operand that is not a descriptor. -/
def selOpnd (opnd : Nat) (v : Val) : Option FRes := if v.x then some (.trap cOpndX v.nat (word5 opnd 0 false .loc)) else none

/-- Bytes of an element of a packed release format (Table 10.5). -/
def relBytes (ofmt : Nat) : Nat :=
  match ofmt with | 0 | 4 | 9 | 10 => 1 | 1 | 5 | 8 => 2 | 2 | 6 | 7 => 4 | _ => 8
def ofPL : Nat := 11
/-- The plane sets of a PL destination (R265). -/
def plSet (c base wd : Nat) : PSet := ⟨c, base, wd, 1, true, 32⟩
/-- Alignment and words of a release destination (R254). -/
def relGeom (ofmt wd : Nat) : Nat × Nat := if ofmt = ofPL then (32, 2 * (plSet 0 0 wd).size) else (16, 512 * relBytes ofmt)
def imageWords : Nat := 4104

def matCheck (s : State) (c : Nat) (i : Instr) (vs : List Val) : Option FRes :=
  let a := opn vs 0
  let full := 2 ^ 17 - 1
  match i with
  | .ppSet .. => firstSome [selOpnd 0 a,
      if bits a.nat 5 4 ≥ 2 ∨ bits a.nat 11 10 ≥ 2 then some (.trap 0x02 0 0) else none,
      if a.nat ≥ 2 ^ 14 then some (descTrap cMatDesc a 0 1) else none]
  | .sclSet .. => firstSome [selOpnd 0 a,
      if Num.asS a.nat 64 < -128 ∨ Num.asS a.nat 64 > 127 then some (descTrap cMatDesc a 0 4) else none]
  | .lbdCfg .. => firstSome [selOpnd 0 a,
      if a.nat &&& 0x1F1F1 ≠ a.nat then some (descTrap cMatDesc a 0 1) else none,
      if bits a.nat 8 4 > 16 ∨ bits a.nat 16 12 > 16 then some (descTrap cMatDesc a 0 4) else none]
  | .accArm _ _ ofmt wd .. =>
    let (al, n) := relGeom ofmt.toNat (wd.toNat + 1)
    firstSome [matOpnd s c 0 a 0xFFFF0001FFFF al (some n) true, selOpnd 1 (opn vs 1), selOpnd 2 (opn vs 2)]
  | .mmp .. | .mmpE .. => firstSome [matOpnd s c 0 a full 32 none false, matOpnd s c 1 (opn vs 1) full 32 none false]
  | .accSave .. => matOpnd s c 0 a full 8 (some imageWords) true
  | .accLoad .. => matOpnd s c 0 a full 8 (some imageWords) false
  | _ => none

/-! ## A started command -/

/-- The engine is free again; the completion token carries a value. -/
def matDone (s : State) (c : Nat) (r : MatRun) (v : Val) : State :=
  sendDone (s.modCore c fun co => { co with mat := none }) r.cmd v
def matWait (s : State) (c : Nat) (r : MatRun) (key : Nat) : State :=
  awake (s.modCore c fun co => { co with mat := some { r with waitW := some key } }) key
def State.node (s : State) (c n : Nat) : Node := (s.core c).nodes.get n {}
def State.setNode (s : State) (c n : Nat) (x : Node) : State := s.modCore c fun co => { co with nodes := co.nodes.put n x }
/-- An unarmed node with every cell zero; what ACC.STAT counts stays (R260, R269). -/
def clearedNode (x : Node) : Node := { nfault := x.nfault, lastf := x.lastf }
/-- A condition of Table 10.2 is noted at its node. -/
def noteFault (s : State) (c n reason : Nat) : State :=
  let x := s.node c n
  s.setNode c n { x with nfault := hold (x.nfault + 1) 0xFFFF, lastf := reason }
/-- A command that meets a condition completes with the reason, X set (R252). -/
def matFault (s : State) (c : Nat) (r : MatRun) (n reason : Nat) : State :=
  matDone (noteFault s c n reason) c r ⟨BitVec.ofNat 64 reason, true⟩

def cellOf (nd : Node) (i j : Nat) : ACell := nd.cells.get (64 * i + j) {}
def cellVal (nd : Node) (a : ACell) : Num.Fl := (⟨a.m, a.x, a.err⟩ : Num.Acc).value nd.f
/-- Is a cell masked? -/
def maskedCell (nd : Node) (i j : Nat) : Bool := bit nd.mrow.toNat i || bit nd.mcol.toNat j
/-- Integer release formats. -/
def relInt (ofmt : Nat) : Bool := decide (ofmt ≤ 6)
/-- A cell's packed pattern, whether it is in error, whether it was limited (R53, Table 10.5). -/
def relPattern (nd : Node) (a : ACell) : Nat × Bool × Bool :=
  let n := 8 * relBytes nd.ofmt
  let fl := fun (f : Num.Fmt) => let (p, sat) := f.write (cellVal nd a); (p, false, sat)
  if a.err then ((match nd.ofmt with | 7 => 0x7FC00000 | 8 => 0x7FC0 | 9 | 10 => 0x7F | _ => 0), true, false)
  else match nd.ofmt with
    | 7 => fl Num.f32
    | 8 => fl Num.bf16
    | 9 => fl Num.e4m3
    | 10 => fl Num.e5m2
    | k =>
      let y := (cellVal nd a).round
      let (z, clip) := if k ≤ 3 then Num.satS y n else Num.satN y n
      (Num.wrap z n, false, clip)

/-- The packed form: cell by cell into the words of the destination. Answers cells in error and cells limited. -/
def releasePacked (s : State) (c : Nat) (nd : Node) : State × Nat × Nat :=
  let es := relBytes nd.ofmt
  let per := 8 / es
  let word := fun (st : State × Nat × Nat) (w : Nat) =>
    let cells := ((List.range per).map (· + w * per)).filter fun k => !maskedCell nd (k / 64) (k % 64)
    let vals := cells.map fun k => (k, relPattern nd (nd.cells.get k {}))
    let one := 2 ^ (8 * es) - 1
    let mask := natSum (cells.map fun k => one * 2 ^ (8 * es * (k % per)))
    let v := natSum (vals.map fun e => e.2.1 * 2 ^ (8 * es * (e.1 % per)))
    let bad := (vals.filter (·.2.2.1)).length
    let lim := (vals.filter (·.2.2.2)).length
    let st' := planeWriteX st.1 (wordKey c (nd.base + w)) mask v (relInt nd.ofmt && bad > 0)
    (setAstat st' c (if lim > 0 then (if relInt nd.ofmt then flIsat else flSat) else 0), st.2.1 + bad, st.2.2 + lim)
  (List.range (4096 / per)).foldl word (s, 0, 0)

/-- One row of slab t of a plane-set release: its written elements, its exponent and the magnitudes capped. A row's 32 cells are
one group, masked and flagged cells outside its maximum (R265, R41). (DEDUCED, log 49) -/
def releaseRow (nd : Node) (t i : Nat) : Option (List (Nat × El) × (Nat × Int) × Nat) :=
  let js := (List.range 32).filter fun k => !maskedCell nd i (32 * t + k)
  if js = [] then none
  else
    let cells := js.map fun k => cellOf nd i (32 * t + k)
    let g := Num.align (cells.map fun a => if a.err then none else some (cellVal nd a)) nd.wd
    some ((js.map (· + 32 * i)).zip g.els, (i, g.e), g.nsat)
/-- The plane-set form: two slabs, each written with one access to a word, so that a word whose every lane is written has X
cleared (R265, R220). Answers cells in error and cells limited. -/
def releasePlanes (s : State) (c : Nat) (nd : Node) : State × Nat × Nat :=
  let p := plSet c nd.base nd.wd
  let slab := fun (st : State × Nat × Nat) (t : Nat) =>
    let rows := (List.range 64).filterMap (releaseRow nd t)
    let els := rows.flatMap (·.1)
    let capped := natSum (rows.map (·.2.2))
    let s := p.putExps (p.put st.1 t els) t (rows.map (·.2.1))
    (setAstat s c (if capped > 0 then flSat else 0), st.2.1 + errCount els, st.2.2 + capped)
  (List.range 2).foldl slab (s, 0, 0)

/-- RELEASE (R265): the node is written, cleared and disarmed, its token sent. -/
def releaseNode (s : State) (c n : Nat) : State :=
  let nd := s.node c n
  let (s, bad, lim) := if nd.ofmt = ofPL then releasePlanes s c nd else releasePacked s c nd
  let s := s.setNode c n (clearedNode nd)
  if nd.cv then s.send (.token { fp := nd.fp, slot := nd.slot, v := Val.ofNat (bad + lim * 2 ^ 32), src := some c, eng := some .mat }) else s

/-- A release ends: the engine is free. -/
def matRelease (s : State) (c n : Nat) : State :=
  let s := if (s.node c n).armed && (s.node c n).due then releaseNode s c n else s
  s.modCore c fun co => { co with mat := none }
/-- A command ends with its token; a release that has become due begins, of 96 cclk, unless a checkpoint is to save its node (R262,
R265, R271). (DEDUCED, log 21) -/
def matEnd (s : State) (c n : Nat) (r : MatRun) (v : Val) : State :=
  let s := sendDone s r.cmd v
  let saved := fun (co : Core) (nd : Node) => co.secs.any fun y => y.saveTo.isSome && nd.sec == some y.ser
  s.modCore c fun co =>
    let nd := Sp.get co.nodes n {}
    { co with mat := if nd.due && !saved co nd then some { r with rel := some n, started := true, waitW := none, till := some (coreCclk s c + 96) } else none }

/-- The engine works on a command for some cclk. -/
def matPut (s : State) (c : Nat) (r : MatRun) (n : Nat) : State :=
  s.modCore c fun co => { co with mat := some { r with waitW := none, till := some (coreCclk s c + n) } }
/-- The precision pair that a product reads when it starts (R256). -/
def startPp (co : Core) (r : MatRun) : BitVec 64 :=
  if r.started then r.pp else match r.cmd.i with | .mmp _ k .. | .mmpE _ k .. => co.pp.get k.toNat 0 | _ => r.pp
/-- A command begins with its fixed cycles, one that continues too (R264, R271). -/
def matBegin (s : State) (c : Nat) (r : MatRun) : State :=
  matPut s c { r with started := true, pp := startPp (s.core c) r, cycles := 14, skipped := 0 } (matFixed (s.core c) r.cmd.i)

/-- The meaning of a matrix command: its checks in a firing; in the engine its fixed cycles, then its work, then a release that it
made due. -/
def matExec (s : State) (i : Instr) (run : State → Nat → MatRun → State) : Host.Outcome State Fault Refusal :=
  match s.focus with
  | .engine c .mat =>
    let co := s.core c
    (match co.mat, co.matQ with
      | some r, _ =>
        if r.cmd.i = i ∧ r.free (coreCclk s c) = true then
          .next (match r.till, r.rel with
            | none, _ => matBegin s c r
            | some _, some n => matRelease s c n
            | some _, none => run s c r)
        else .refused .notEnabled
      | none, r :: q =>
        if r.i = i then .next (matBegin (secStart (s.setCore c { co with matQ := q }) c r.sec) c { cmd := r })
        else .refused .notEnabled
      | none, [] => .refused .notEnabled)
  | _ => fireWord s i fun s c f n vs =>
    match matCheck s c i vs with
    | some t => t
    | none => relOut i c f n vs

/-! ## Registers (R256 to R258) -/

/-- PP.SET. -/
def execPpSet (x : XF) (k : BitVec 4) (s : State) : Host.Outcome State Fault Refusal :=
  matExec s (.ppSet x k) fun s c r =>
    matDone (s.modCore c fun co => { co with pp := co.pp.put k.toNat (BitVec.ofNat 64 (opNat r.cmd 0)) }) c r (Val.ofNat 0)
/-- SCL.SET. -/
def execSclSet (x : XF) (k : BitVec 4) (s : State) : Host.Outcome State Fault Refusal :=
  matExec s (.sclSet x k) fun s c r =>
    matDone (s.modCore c fun co => { co with sc := co.sc.put k.toNat (Num.asS (opNat r.cmd 0) 64) }) c r (Val.ofNat 0)
/-- floor(log2(FMT_MAX)) of Table 2.8 by target code. -/
def tgtLog (t : Nat) : Int := match t with | 0 => 8 | 1 => 15 | 2 => 2 | 3 => 127 | 4 => 2 | 5 => 6 | _ => 14
/-- The exponent of R57 from a history entry. -/
def deriveExp (co : Core) (ent tgt margin : Nat) : Int :=
  let h := ((List.range 16).map fun k => co.hist.get (16 * ent + k) 0).foldl max 0
  match Num.f32.read h with
  | some y => if y.m = 0 then 0 else max (-128) (min 127 (tgtLog tgt - y.clog2 - margin))
  | none => 0
/-- SCL.DERIVE. -/
def execSclDerive (x : XF) (sc : BitVec 4) (ent : BitVec 8) (tgt : BitVec 3) (margin : BitVec 4) (s : State) :
    Host.Outcome State Fault Refusal :=
  matExec s (.sclDerive x sc ent tgt margin) fun s c r =>
    let e := deriveExp (s.core c) ent.toNat tgt.toNat margin.toNat
    matDone (s.modCore c fun co => { co with sc := co.sc.put sc.toNat e }) c r (Val.ofNat (Num.wrap e 64))
/-- LBD.CFG. -/
def execLbdCfg (x : XF) (s : State) : Host.Outcome State Fault Refusal :=
  matExec s (.lbdCfg x) fun s c r =>
    let old := (s.core c).lbdSaved
    matDone (s.modCore c fun co => { co with lbdCtl := BitVec.ofNat 64 (opNat r.cmd 0), lbdSaved := 0 }) c r (Val.ofNat old)

/-! ## Nodes: arming and release -/

/-- ACC.ARM (R259, R260): its token is the release's. -/
def execAccArm (x : XF) (node : BitVec 2) (ofmt wd so sa sb : BitVec 4) (s : State) : Host.Outcome State Fault Refusal :=
  matExec s (.accArm x node ofmt wd so sa sb) fun s c r =>
    let nd := s.node c node.toNat
    if nd.armed then matFault s c r node.toNat mNodeBusy
    else
      let sc := fun (k : BitVec 4) => (s.core c).sc.get k.toNat 0
      let a := opNat r.cmd 0
      let slot := match x.dest with | some n => n.toNat | none => 0
      let nd := { nd with armed := true, base := a % 2 ^ 17, count := bits a 47 32, ofmt := ofmt.toNat, wd := wd.toNat + 1
                          mrow := BitVec.ofNat 64 (opNat r.cmd 1), mcol := BitVec.ofNat 64 (opNat r.cmd 2)
                          f := sc so - sc sa - sc sb, fp := r.cmd.fp, slot, cv := x.dest.isSome, sec := r.cmd.sec }
      (s.setNode c node.toNat nd).modCore c fun co => { co with mat := none }

/-- One expected MMP has come: at zero the release is due (R262). -/
def countDown (s : State) (c n : Nat) : State :=
  let nd := s.node c n
  if nd.count = 0 then s else s.setNode c n { nd with count := nd.count - 1, due := decide (nd.count = 1) }

/-! ## Products (R46 to R51, R262 to R264) -/

/-- The elements of a slab by row of A or column of B. -/
def slabEls (m : List Host.Cell) (p : PSet) (k : Nat) : List (List El) :=
  (List.range 64).map fun i => (List.range 32).map fun j => p.el m k (32 * i + j)
/-- Significant bits of a natural. -/
def bitLen (n : Nat) : Nat := if n = 0 then 0 else Nat.log2 n + 1
/-- Leading planes that are zero in every counted element (R48). -/
def slabTrim (p : PSet) (mask : Nat) (els : List (List El)) : Nat :=
  let pat := fun (e : El) => match e with | some x => if isTC p.code then Num.wrap (elInt x) p.w else x.2 | none => 0
  let rows := ((List.range 64).zip els).filter fun e => !bit mask e.1
  p.w - bitLen (rows.foldl (fun a e => e.2.foldl (fun a x => a ||| pat x) a) 0)
/-- An element's value over the planes that are left (R46, R48). -/
def trimmed (p : PSet) (t : Nat) (e : El) : Int :=
  match e with
  | none => 0
  | some x =>
    if t = 0 then elInt x
    else if isTC p.code then ((Num.wrap (elInt x) p.w % 2 ^ (p.w - t) : Nat) : Int)
    else elInt (x.1, x.2 % 2 ^ (p.w - t))
/-- partial(i, j, s) from a row of A and a column of B. -/
def dot : List Int → List Int → Int
  | a :: l, b :: r => a * b + dot l r
  | _, _ => 0

/-- Every cell of a node changed, row by row. -/
def mapCells (nd : Node) (f : Nat → Nat → ACell → ACell × Nat) : Node × Nat :=
  let out := (List.range 4096).map fun k => (k, f (k / 64) (k % 64) (nd.cells.get k {}))
  ({ nd with cells := out.filterMap fun e => if e.2.1 = {} then none else some (e.1, e.2.1) }, flagsOf (out.map (·.2.2)))
/-- q × 2^e added to a cell, with the status bits of R51. -/
def cellAdd (a : ACell) (q e : Int) : ACell × Nat :=
  let (r, sat, flush) := (⟨a.m, a.x, a.err⟩ : Num.Acc).add q e
  (⟨r.m, r.x, r.err⟩, (if sat then flAccSat else 0) + (if flush then flAccFlush else 0))

/-- Does a slab tensor's range fail (RANGE of Table 10.2)? -/
def slabRange (s : State) (c : Nat) (p : PSet) (ns : Nat) : Bool :=
  decide (p.base + ns * p.size > Config.spWords) || decide (p.base + ns * p.size > bits (s.core c).frameBase.toNat 16 0)
def slabA (c : Nat) (r : MatRun) (g : Bool) : PSet := ⟨c, opNat r.cmd 0 % 2 ^ 17, ppWa r.pp, BitVec.ofNat 2 (bits r.pp.toNat 5 4), g, 32⟩
def slabB (c : Nat) (r : MatRun) (g : Bool) : PSet := ⟨c, opNat r.cmd 1 % 2 ^ 17, ppWb r.pp, BitVec.ofNat 2 (bits r.pp.toNat 11 10), g, 32⟩

/-- One slab of an MMP, or the error pass alone: the node, status bits, and the plane pairs of the slab. -/
def slabWork (s : State) (c : Nat) (nd : Node) (pp : BitVec 64) (a b : PSet) (k : Nat) (values : Bool) : Node × Nat × Nat :=
  let ra := slabEls s.mem a k
  let rb := slabEls s.mem b k
  let ctl := (s.core c).lbdCtl.toNat
  let on := fun (bitNo : Nat) => values && bit ctl 0 && bit pp.toNat bitNo
  let ta := if on 12 then min (bits ctl 8 4) (slabTrim a nd.mrow.toNat ra) else 0
  let tb := if on 13 then min (bits ctl 16 12) (slabTrim b nd.mcol.toNat rb) else 0
  let va := ra.map fun l => l.map (trimmed a ta)
  let vb := rb.map fun l => l.map (trimmed b tb)
  let ea := ra.map fun l => l.any (·.isNone)
  let eb := rb.map fun l => l.any (·.isNone)
  let xa := (List.range 64).map fun i => a.exp s.mem k (32 * i)
  let xb := (List.range 64).map fun j => b.exp s.mem k (32 * j)
  let f := fun (i j : Nat) (x : ACell) =>
    let x := { x with err := x.err || nthD ea i false || nthD eb j false }
    if values then cellAdd x (dot (nthD va i []) (nthD vb j [])) (nthD xa i 0 + nthD xb j 0) else (x, 0)
  let (nd, fl) := mapCells nd f
  (nd, fl, max 1 ((a.w - ta) * (b.w - tb)))

/-- An MMP or MMP.E behind its fixed cycles: its next slab, whose source is read as the slab begins; behind the last its token, its
count, and the release when due; a node that was cleared meanwhile takes its slabs all the same. (DEDUCED, log 124) -/
def mmpWork (values : Bool) (n : Nat) (ga gb : Bool) (ns : Nat) (s : State) (c : Nat) (r : MatRun) : State :=
  let a := slabA c r ga
  let b := slabB c r gb
  if r.slab ≥ ns then matEnd (countDown s c n) c n r (Val.ofNat (r.cycles + r.skipped * 2 ^ 32))
  else if r.slab = 0 && !(s.node c n).armed then matFault s c r n mNodeIdle
  else if r.slab = 0 && (slabRange s c a ns || slabRange s c b ns) then
    let s := noteFault s c n mRange
    let s := s.setNode c n (mapCells (s.node c n) fun _ _ x => ({ x with err := true }, 0)).1
    matEnd (countDown s c n) c n r ⟨BitVec.ofNat 64 mRange, true⟩
  else
    let all := List.range 2048
    match firstEmpty s.mem (a.needs r.slab all ++ b.needs r.slab all) with
    | some key => matWait s c r key
    | none =>
      let (nd, fl, p) := slabWork s c (s.node c n) r.pp a b r.slab values
      let skip := if values then a.w * b.w - p else 0
      let p := if values then p else 1
      let r := { r with slab := r.slab + 1, cycles := r.cycles + p, skipped := r.skipped + skip }
      let s := setAstat (s.setNode c n nd) c fl
      let s := s.modCore c fun co => { co with lbdSaved := wrap48 (co.lbdSaved + skip) }
      let s := if values then countEv (countEv s c 0x20 p) c 0x21 skip else s
      matPut s c r p

/-- MMP (R262). -/
def execMmp (x : XF) (pp : BitVec 4) (node : BitVec 2) (ga gb : Bool) (ns : BitVec 10) (s : State) : Host.Outcome State Fault Refusal :=
  matExec s (.mmp x pp node ga gb ns) (mmpWork true node.toNat ga gb (ns.toNat + 1))
/-- MMP.E (R263). -/
def execMmpE (x : XF) (pp : BitVec 4) (node : BitVec 2) (ga gb : Bool) (ns : BitVec 10) (s : State) : Host.Outcome State Fault Refusal :=
  matExec s (.mmpE x pp node ga gb ns) (mmpWork false node.toNat ga gb (ns.toNat + 1))

/-! ## Release, clear, images, status -/

/-- ACC.REL (R266). -/
def execAccRel (x : XF) (node : BitVec 2) (s : State) : Host.Outcome State Fault Refusal :=
  matExec s (.accRel x node) fun s c r =>
    let nd := s.node c node.toNat
    if nd.armed then matEnd (s.setNode c node.toNat { nd with due := true }) c node.toNat r (Val.ofNat 0)
    else matFault s c r node.toNat mNodeIdle
/-- ACC.CLR (R266): the release token is sent with CLEARED. -/
def execAccClr (x : XF) (node : BitVec 2) (s : State) : Host.Outcome State Fault Refusal :=
  matExec s (.accClr x node) fun s c r =>
    let nd := s.node c node.toNat
    let s := if nd.armed && nd.cv then
        s.send (.token { fp := nd.fp, slot := nd.slot, v := ⟨BitVec.ofNat 64 mCleared, true⟩, src := some c, eng := some .mat }) else s
    matDone (s.setNode c node.toNat (clearedNode nd)) c r (Val.ofNat 0)

/-- A cell's word (Table 2.7). -/
def cellWord (a : ACell) : Nat := bnat a.err * 2 ^ 63 + Num.wrap a.x 10 * 2 ^ 48 + Num.wrap a.m 48
/-- The words of a node's image (Table 10.6). -/
def nodeImage (nd : Node) : List Nat :=
  let head := if nd.armed then
      [1 + nd.ofmt * 2 + (nd.wd - 1) * 2 ^ 5 + Num.wrap nd.f 10 * 2 ^ 9 + bnat nd.due * 2 ^ 19 + nd.count * 2 ^ 32, nd.base,
       nd.mrow.toNat, nd.mcol.toNat, nd.fp + nd.slot * 2 ^ 32 + bnat nd.cv * 2 ^ 39]
    else [0, 0, 0, 0, 0]
  head ++ [0, 0, 0] ++ (List.range 4096).map fun k => if nd.armed then cellWord (nd.cells.get k {}) else 0
/-- ACC.SAVE (R268). -/
def execAccSave (x : XF) (node : BitVec 2) (clr : Bool) (s : State) : Host.Outcome State Fault Refusal :=
  matExec s (.accSave x node clr) fun s c r =>
    let nd := s.node c node.toNat
    let s := putWords s c (opNat r.cmd 0 % 2 ^ 17) (nodeImage nd)
    matDone (if clr then s.setNode c node.toNat (clearedNode nd) else s) c r (Val.ofNat 0)

/-- The defects of an image header (R267). (DEDUCED, log 50) -/
def imageBad (s : State) (c : Nat) (h : List TWord) : Bool :=
  let w := fun (k : Nat) => (nthD h k {}).d.toNat
  let armed := bit (w 0) 0
  let ofmt := bits (w 0) 4 1
  let (al, n) := relGeom ofmt (bits (w 0) 8 5 + 1)
  h.any (·.x) || bits (w 0) 31 20 != 0 || bits (w 0) 63 48 != 0 || decide (w 1 ≥ 2 ^ 17) || decide (w 4 ≥ 2 ^ 40)
    || w 5 != 0 || w 6 != 0 || w 7 != 0 || decide (ofmt ≥ 12)
    || (bit (w 0) 19 && (!armed || bits (w 0) 47 32 != 0))
    || (armed && (w 1 % al != 0 || decide (w 1 + n > Config.spWords) || decide (w 1 + n > bits (s.core c).frameBase.toNat 16 0)
        || fpBad s (w 4 % 2 ^ 32) || fpCore (w 4 % 2 ^ 32) != c))
/-- A cell from its word (R52, R267). -/
def loadCell (w : TWord) : ACell × Nat :=
  let v := w.d.toNat
  let (r, sat, flush) := Num.Acc.norm (bit v 63 || bits v 62 58 != 0 || w.x) (Num.asS v 48) (Num.asS (bits v 57 48) 10)
  (⟨r.m, r.x, r.err⟩, (if sat then flAccSat else 0) + (if flush then flAccFlush else 0))
/-- The node that an image describes. -/
def loadNode (old : Node) (h : List TWord) (cells : List TWord) (sec : Option Nat) : Node × Nat :=
  let w := fun (k : Nat) => (nthD h k {}).d.toNat
  let cs := cells.map loadCell
  ({ clearedNode old with
      armed := true, base := w 1, ofmt := bits (w 0) 4 1, wd := bits (w 0) 8 5 + 1, f := Num.asS (bits (w 0) 18 9) 10
      mrow := BitVec.ofNat 64 (w 2), mcol := BitVec.ofNat 64 (w 3), count := bits (w 0) 47 32
      fp := w 4 % 2 ^ 32, slot := bits (w 4) 38 32, cv := bit (w 4) 39, due := bit (w 0) 19, sec
      cells := ((List.range 4096).zip (cs.map (·.1))).filter fun e => e.2 != {} }, flagsOf (cs.map (·.2)))
/-- ACC.LOAD (R267, R268): a condition too is met only when the whole image has been read (R252). -/
def execAccLoad (x : XF) (node : BitVec 2) (s : State) : Host.Outcome State Fault Refusal :=
  matExec s (.accLoad x node) fun s c r =>
    let n := node.toNat
    let base := opNat r.cmd 0 % 2 ^ 17
    let nd := s.node c n
    match firstEmpty s.mem ((List.range imageWords).map fun k => wordKey c (base + k)) with
      | some key => matWait s c r key
      | none =>
        let h := (List.range 8).map fun k => getWord s.mem (wordKey c (base + k))
        if nd.armed then matFault s c r n mNodeBusy
        else if imageBad s c h then matFault s c r n mImage
        else if !bit (nthD h 0 {}).d.toNat 0 then matDone s c r (Val.ofNat 0)
        else
          let cells := (List.range 4096).map fun k => getWord s.mem (wordKey c (base + 8 + k))
          let (nd, fl) := loadNode nd h cells r.cmd.sec
          matEnd (setAstat (s.setNode c n nd) c fl) c n r (Val.ofNat 0)

/-- ACC.STAT (R269). -/
def execAccStat (x : XF) (node : BitVec 2) (s : State) : Host.Outcome State Fault Refusal :=
  matExec s (.accStat x node) fun s c r =>
    let nd := s.node c node.toNat
    let v := nd.lastf * 2 ^ 56 + nd.nfault * 2 ^ 40 + min 16 (s.core c).matQ.length * 2 ^ 32 + nd.count * 2 ^ 16
      + Num.wrap nd.f 10 * 2 ^ 6 + nd.ofmt * 4 + bnat (nd.cells.any (·.2.err)) * 2 + bnat nd.armed
    matDone (s.setNode c node.toNat { nd with nfault := 0, lastf := 0 }) c r (Val.ofNat v)

end Sys2Proof.Machine
end

