-- ==== Sys2Proof/Machine/Firing.lean ====
section
/-! DEFINITION. Meanings of the machine events of firings, frames, tokens, sections and memory (chapters 5, 7, 8, 18). -/

namespace Sys2Proof.Machine

/-- An event whose condition does not hold. -/
abbrev noEvent : Host.Outcome State Fault Refusal := .refused .notEnabled

/-! ## Firings -/

/-- FIRING_START: a free block slot takes the record that is its turn (R111, R199). -/
def execFiringStart (s : State) : Host.Outcome State Fault Refusal :=
  match s.focus with
  | .event (.firingStart c k) =>
    (match canStart s c k with
      | some r => .next (startFiring (s.modCore c fun co => { co with tq := removeRec r.fp co.tq }) c k r.fp r.tick)
      | none => noEvent)
  | _ => noEvent
/-- FIRING_COMPLETION (R116). -/
def execFiringCompletion (s : State) : Host.Outcome State Fault Refusal :=
  match s.focus with
  | .event (.firingCompletion c k) =>
    (match firingAt s c k with
      | some f => if exhausted f then .next (complete s c k f) else noEvent
      | none => noEvent)
  | _ => noEvent
/-- COMMIT: step 1, the take, or steps 3 to 8 (R117). -/
def execCommit (s : State) : Host.Outcome State Fault Refusal :=
  match s.focus with
  | .event (.commit c k) =>
    (match firingAt s c k with
      | some f => if commitTurn s c k then .next (commitStart s c k f) else noEvent
      | none => noEvent)
  | _ => noEvent
/-- TAKE_AT_HOME (R122, R169). -/
def execTakeAtHome (s : State) : Host.Outcome State Fault Refusal :=
  match s.focus with
  | .event (.takeAtHome t) => .next (takeHome s t)
  | _ => noEvent
/-- TAKE_ANSWER (R117, R122). -/
def execTakeAnswer (s : State) : Host.Outcome State Fault Refusal :=
  match s.focus with
  | .event (.takeAnswer t) => .next (takeDone s t)
  | _ => noEvent
/-- FENCE_COMPLETE: the later steps of the commit proceed (R179). -/
def execFenceComplete (s : State) : Host.Outcome State Fault Refusal :=
  match s.focus with
  | .event (.fenceComplete c k) =>
    (match firingAt s c k with
      | some f =>
        (match f.phase with
          | .fencing sc rest => if fenceClear s c f.ser sc then .next (commitFrom3 s c k f rest) else noEvent
          | _ => noEvent)
      | none => noEvent)
  | _ => noEvent
/-- TOKEN_DELIVERY (R106, R108). -/
def execTokenDelivery (s : State) : Host.Outcome State Fault Refusal :=
  match s.focus with
  | .event (.tokenDelivery t) => .next (deliver s t)
  | _ => noEvent

/-! ## Sections -/

/-- A queue cut behind its first n commands; control commands take no room. -/
def cutQueue : Nat → List EngCmd → List EngCmd × List EngCmd
  | _, [] => ([], [])
  | n, x :: l =>
    let (a, b) := cutQueue (if isControl x then n else n - 1) l
    if isControl x || decide (0 < n) then (x :: a, b) else (a, x :: b)
/-- The commands of an engine's queue that have no room in it go to the front of the token buffer in their order (R217). -/
def spillBack (s : State) (c : Nat) (e : Eng) : State :=
  let co := s.core c
  let (q, late) := cutQueue (engCap e) (engQ co e)
  late.reverse.foldl (fun s x => tbufPut s c true (.cmd e x)) (s.setCore c (setEngQ co e q))
/-- The release that an image with DUE set starts when it is loaded (R265, R268). -/
def dueRun (c : Nat) (sec : Option Nat) (nodes : List (Nat × Node)) (t : Nat) : Option MatRun :=
  (nodes.find? (·.2.due)).map fun n =>
    { cmd := { i := .accLoad ⟨.always, none⟩ (BitVec.ofNat 2 n.1), core := c, fp := 0, ops := [], sec }
      started := true, till := some t, rel := some n.1 }
/-- Ck of what a checkpoint record holds (R412, R414). -/
def ckptCk (k : Ckpt) : Nat := 512 * k.nodes.length + 64 * k.streams.length + 96 * k.doms.length
/-- A checkpointed section is restored: its nodes as by ACC.LOAD, its streams as by CPY.RESUME, its domains' images (R318) with the
first step D cclk after, its taps, and its commands ahead of those that wait; the engines are free Ck cclk later (R414). (DEDUCED,
log 36) -/
def secRestore (s : State) (c : Nat) (k : Ckpt) : State :=
  let now := coreCclk s c + ckptCk k
  let away := now - k.since
  let mat := match dueRun c (some k.sec.ser) k.nodes (now + 96) with
    | some r => some r
    | none => k.mat.map fun m => { m with till := none, waitW := none }
  let co := s.core c
  let co := allEngs.foldl (fun co e =>
    setEngQ co e ((k.cmds.filterMap fun x => if x.1 = e then some x.2 else none) ++ engQ co e)) co
  let nodes := k.nodes.foldl (fun m (n : Nat × Node) =>
    let old := Sp.get m n.1 {}
    Sp.put m n.1 { n.2 with nfault := old.nfault, lastf := old.lastf }) co.nodes
  let streams := k.streams.foldl (fun m (x : Nat × CpyRun) => Sp.put m x.1 { Sp.get m x.1 {} with cur := some { x.2 with waitW := none, waitWalk := none } }) co.streams
  let cells := k.doms.foldl (fun m d => d.2.2.foldl (fun m (e : Nat × DCell) =>
    Sp.put m e.1 { Sp.get m e.1 {} with y := e.2.y, r := e.2.r, dz := e.2.dz, lat := e.2.lat }) m) co.dda.cells
  let doms := k.doms.foldl (fun m d =>
    let old := Sp.get m d.1 {}
    Sp.put m d.1 { d.2.1 with next := now + d.2.1.d, fwait := false, lastr := old.lastr, lastcell := old.lastcell }) co.dda.doms
  let taps := k.taps.foldl (fun m (t : Nat × Tap) => Sp.put m t.1 t.2) co.dda.taps
  let upd := fun (y : Section) => if y.ser = k.sec.ser then { y with choice := .none, idle := y.idle + away } else y
  let s := (ckptPages s c k.num).foldl (ckptPage c false) s
  let s := s.setCore c (engsFrom { co with mat := (match mat with | some m => some m | none => co.mat), nodes, streams
                                           dda := { co.dda with cells, doms, taps }
                                           secs := co.secs.map upd, ckpts := co.ckpts.filter (·.num != k.num) } k.engs now)
  allEngs.foldl (fun s e => spillBack s c e) s
/-- SECTION_RESTORE (R414). -/
def execSectionRestore (s : State) : Host.Outcome State Fault Refusal :=
  match s.focus with
  | .event (.sectionRestore c sec) =>
    (match (s.core c).ckpts.find? (·.sec.ser == sec) with
      | some k => .next (secRestore s c k)
      | none => noEvent)
  | _ => noEvent
/-- SECTION_END (R411). -/
def execSectionEnd (s : State) : Host.Outcome State Fault Refusal :=
  match s.focus with
  | .event (.sectionEnd c sec) =>
    (match (s.core c).secs.find? (fun x => x.ser == sec && x.held) with
      | some x => if secOver (s.core c) sec && !commitBusy (s.core c) then .next (sectionDone s c x) else noEvent
      | none => noEvent)
  | _ => noEvent

/-! ## Queue, traps, registers -/

/-- RECORD_AGING: every queued record that has waited 65,536 cclk gains one class, with its frame (R201). -/
def ageRecords (s : State) (c : Nat) : State :=
  let now := coreCclk s c
  let due := fun (r : TRec) => decide (r.cls ≥ 2 ∧ now ≥ r.entered + 65536)
  let co := s.core c
  let s := (co.tq.filter due).foldl (fun s r => setFrameClass s r.fp (r.cls - 1)) s
  s.modCore c fun co => { co with tq := co.tq.map fun r => if due r then { r with cls := r.cls - 1, entered := r.entered + 65536 } else r }
def execRecordAging (s : State) : Host.Outcome State Fault Refusal :=
  match s.focus with
  | .event (.recordAging c) => .next (ageRecords s c)
  | _ => noEvent

/-- HANDLER_ACTIVATION: the head record activates the free trap frame of lowest number (R210). (DEDUCED, log 29) -/
def activateHandler (s : State) (c : Nat) : Option State :=
  let co := s.core c
  match co.pend, (List.range 4).find? (fun k => !co.tframes.contains k) with
  | p :: l, some k =>
    let task := co.trapv.toNat % 2 ^ 16
    let (size, hint) := match taskBlk s c task with
      | some b => (min b.hdr.nslot 28, b.hdr.cls)
      | none => (8, p.cls)
    let fp := mkFp c (bits co.frameBase.toNat 16 0 + 32 * k)
    let parent := (nthD p.words 1 0).toNat
    let node := match taskBlk s c task with | some b => b.hdr.node | none => 0
    let s := s.setCore c { co with pend := l, tframes := co.tframes ++ [k], tfresh := co.tfresh ++ [k] }
    let s := allocFrame s fp (max size 8) task (min hint p.cls) parent node
    let s := (List.range 8).foldl (fun s n => setSlot s fp n ⟨nthD p.words n 0, false⟩) s
    some (checkReady (recount s fp) fp)
  | _, _ => none
def execHandlerActivation (s : State) : Host.Outcome State Fault Refusal :=
  match s.focus with
  | .event (.handlerActivation c) => (match activateHandler s c with | some s => .next s | none => noEvent)
  | _ => noEvent
/-- FRAME_CTL with ACTION RERUN, RESUME, FREE (R214). -/
def execFrameCtlRerun (s : State) : Host.Outcome State Fault Refusal :=
  match s.focus with
  | .event (.frameCtlRerun c fp) => .next (trapRerun s c fp)
  | _ => noEvent
def execFrameCtlResume (s : State) : Host.Outcome State Fault Refusal :=
  match s.focus with
  | .event (.frameCtlResume c fp) => .next (trapResume s c fp)
  | _ => noEvent
def execFrameCtlFree (s : State) : Host.Outcome State Fault Refusal :=
  match s.focus with
  | .event (.frameCtlFree c fp) => .next (trapFree s c fp)
  | _ => noEvent
/-- TQ_BASE_WRITE, TQ_BASE_APPLY (R200). -/
def execTqBaseWrite (s : State) : Host.Outcome State Fault Refusal :=
  match s.focus with
  | .event (.tqBaseWrite c v) => .next (writeTqBase s c v)
  | _ => noEvent
def execTqBaseApply (s : State) : Host.Outcome State Fault Refusal :=
  match s.focus with
  | .event (.tqBaseApply c) => if ringsEmpty (s.core c) then .next (applyTqBase s c) else noEvent
  | _ => noEvent
/-- EVSEL_WRITE (R447). -/
def execEvselWrite (s : State) : Host.Outcome State Fault Refusal :=
  match s.focus with
  | .event (.evselWrite c v) => .next (writeEvsel s c v)
  | _ => noEvent

/-- WAITTICK_TIMER_FIRE: the first timer due delivers its token, which carries the firing tick, the later of its tick and that of
its release (R186). -/
def fireTimer (s : State) (c : Nat) : Option State :=
  let due := fun (b : TBuf) => match b.e with | .timer t _ _ _ => decide (t ≤ s.tick) && !b.place.away | _ => false
  let co := s.core c
  match co.tbuf.find? due with
  | some ⟨.timer t fp slot rel, _, _, _, _⟩ =>
    let l := dropFirst due co.tbuf
    let s := s.setCore c { co with tbuf := l }
    let s := if l.any due then raiseOnce s (.waittickTimerFire c) else s
    let t : Token := { fp, slot, v := Val.ofNat (max t rel), src := some c }
    some (if committing s fp then s.send (.token t) else deliver s t)
  | _ => none
def execWaittickTimerFire (s : State) : Host.Outcome State Fault Refusal :=
  match s.focus with
  | .event (.waittickTimerFire c) => (match fireTimer s c with | some s => .next s | none => .next s)
  | _ => noEvent

/-! ## The frame allocator (R409) -/

/-- Depth of a core: records queued, in rings, in the walker table, and frames reserved. -/
def allocDepth (co : Core) : Nat :=
  co.tq.length + natSum (co.rings.map (·.2.length)) + natSum (co.walkRecs.map (·.2.length)) + co.reserved.length
/-- The best of some candidate cores: the smallest depth, ties to the core that B names, then to the lowest. -/
def bestCore (s : State) (near : Nat) (cands : List Nat) : Option Nat :=
  cands.foldl (fun (m : Option Nat) c => match m with
    | none => some c
    | some b =>
      let dc := allocDepth (s.core c)
      let db := allocDepth (s.core b)
      if dc < db ∨ (dc = db ∧ c = near) then some c else some b) none
/-- A die's candidates for a request: above CORE scope the cores that run the issuing partition now (R446). (DEDUCED, log 39) -/
def candidates (s : State) (r : FallocReq) (cores : List Nat) : List Nat :=
  cores.filter fun c => corePresent s c
    && (r.scope == .core || (r.part.isSome && corePart s c == r.part))
    && (freeAt s c (4 + r.nslot)).isSome
/-- The core that a request is served at. -/
def allocChoose (s : State) (r : FallocReq) : Option Nat :=
  match r.scope with
  | .core | .quad | .die => bestCore s r.near (candidates s r (scopeCores r.scope r.near))
  | _ =>
    let own := coreDie r.near
    (own :: (List.range Config.numDies).filter (· != own)).foldl (fun (m : Option Nat) d => match m with
      | some c => some c
      | none => bestCore s r.near (candidates s r (scopeCores .die (d * 128)))) none
/-- FRAME_ALLOCATION: the frame is reserved, its words written by R105, or NO_SPACE (R149). -/
def serveFalloc (s : State) (r : FallocReq) : State :=
  match allocChoose s r with
  | none => s.send (.result (coreDie r.near) r.core r.ser r.idx ⟨1, true⟩ none)
  | some c =>
    match freeAt s c (4 + r.nslot) with
    | none => s.send (.result (coreDie r.near) r.core r.ser r.idx ⟨1, true⟩ none)
    | some h =>
      let s := zeroWords s c h (4 + r.nslot)
      let s := s.modCore c fun co => { co with reserved := co.reserved ++ [(h, 4 + r.nslot)] }
      s.send (.result (coreDie c) r.core r.ser r.idx (Val.ofNat (mkFp c h)) (some (mkFp c h, r.task)))
def execFrameAllocation (s : State) : Host.Outcome State Fault Refusal :=
  match s.focus with
  | .event (.frameAllocation r) => .next (serveFalloc s r)
  | _ => noEvent

/-! ## Memory -/

/-- ROUTER_HOLD_EXPIRY: what a die's routers have held for 8 cclk goes on to its home (R350). -/
def expireHolds (s : State) (d : Nat) : State :=
  let di := s.die d
  let due := fun (h : Hold) => decide (h.since + 8 ≤ di.cclk)
  let s := s.setDie d { di with holds := di.holds.filter fun h => !due h }
  { s with net := ((di.holds.filter due).map fun h => .group d h.group) ++ s.net }
def execRouterHoldExpiry (s : State) : Host.Outcome State Fault Refusal :=
  match s.focus with
  | .event (.routerHoldExpiry d) => .next (expireHolds s d)
  | _ => noEvent
/-- COMBINED_GROUP_AT_HOME (R351, R352). -/
def execCombinedGroupAtHome (s : State) : Host.Outcome State Fault Refusal :=
  match s.focus with
  | .event (.combinedGroupAtHome _ g) => .next (groupHome s g)
  | _ => noEvent
/-- ACCESS_AT_HOME (R174). -/
def execAccessAtHome (s : State) : Host.Outcome State Fault Refusal :=
  match s.focus with
  | .event (.accessAtHome a) => .next (homeAccess s a)
  | _ => noEvent

/-- LOAD_VALUE_RETURN: the value with the bytes that the firing forwards (R115), or the abort on an empty word. -/
def loadReturn (s : State) (r : LoadRet) : State :=
  let a := r.a
  match resident s a.core a.ser with
  | none => s
  | some (k, f) =>
    if !f.waits.contains a.idx then s
    else
      match r.ans with
      | .parked => parkFiring s a.core k (some a.loc.key)
      | .value v raw =>
        let i := match decodeWords (wordsAt f.code a.idx) with | .ok i => some i | .error _ => none
        let tgts := match i with | some i => i.shape.tgts | none => []
        let lsid := match i with | some i => (match lsidOf i with | some l => l | none => 0) | none => 0
        let v := match a.op with | .feTest => v | _ => forwardVal f.outs a.loc a.size lsid v
        let take := match a.op with | .ldt => some (a.loc, raw) | _ => f.take
        let f := { f with waits := f.waits.filter (· != a.idx), lsids := a.idx :: f.lsids, take }
        deliverFrom s a.core k a.idx (f.answered a.idx (coreCclk s a.core)) tgts (some v)
def execLoadValueReturn (s : State) : Host.Outcome State Fault Refusal :=
  match s.focus with
  | .event (.loadValueReturn r) => .next (loadReturn s r)
  | _ => noEvent

/-- EVENT_COUNTER_WRAP: OVFk is set, and event 0x0B raised when OIEk is 1 (R447). -/
def counterWrap (s : State) (c k : Nat) : State :=
  let s := s.modCore c fun co => { co with evsel := BitVec.ofNat 64 (setBits co.evsel.toNat (60 + k) 1 1) }
  if bit (s.core c).evsel.toNat (56 + k) then dieEvent s (coreDie c) (c % 128) 0x0B (4 + k) noIdx else s
def execEventCounterWrap (s : State) : Host.Outcome State Fault Refusal :=
  match s.focus with
  | .event (.eventCounterWrap c k) => .next (counterWrap s c k)
  | _ => noEvent

end Sys2Proof.Machine
end

