-- ==== Sys2Proof/Machine/DieRegs.lean ====
section
/-! DEFINITION. Die registers as stores change them, and the die's own events: banks, pewter, refresh, scrubbing, the block
store's held accesses, the trace (R345, R356 to R360, R365, R368, R372, R415, R449, R453). -/

namespace Sys2Proof.Machine

/-- Does a value set a reserved bit of a die register (R13, R345)? -/
def dieReserved (n v : Nat) : Bool :=
  if n = 0 then bits v 63 48 != 0 || bits v 31 5 != 0
  else if 0x10 ≤ n ∧ n < 0x14 then decide (v ≥ 2 ^ 42)
  else if n = 0x18 then bits v 31 30 != 0 || bits v 23 0 != 0
  else if n = 0x20 ∨ n = 0x21 then false
  else if n = 0x30 then decide (v ≥ 2 ^ 33) || bits v 15 7 != 0
  else if n = 0x40 then decide (v ≥ 2 ^ 53) || bits v 31 21 != 0
  else if n = 0x41 then bits v 17 5 != 0
  else if n = 0x42 then decide (v ≥ 2 ^ 32) || bits v 15 2 != 0
  else if n = 0x50 then decide (v ≥ 2 ^ 48) || bits v 11 1 != 0
  else if n = 0x51 then bits v 15 9 != 0
  else if n = 0x60 then decide (v ≥ 2 ^ 48) || bits v 11 0 != 0
  else if n = 0x61 then bits v 62 52 != 0 || bits v 47 32 != 0
  else if 0x100 ≤ n ∧ n < 0x120 then n % 2 == 0 && (bits v 60 48 != 0 || bits v 31 16 != 0)
  else if 0x200 ≤ n ∧ n < 0x280 then decide (v ≥ 2 ^ 16)
  else v != 0

/-- A store of a die register that has no row of its own (R13, R368, R415). -/
def dieRegStore (s : State) (d n : Nat) (v : BitVec 64) : State :=
  let di := s.die d
  if dieReserved n v.toNat then dieReject s d
  else if n = 0x30 then (if bit v.toNat 32 then s.raise (.walkRetry d) else s)
  else if n = 0x40 then
    if bit di.kvb.ctl.toNat 0 then dieReject s d else s.setDie d { di with kvb := { di.kvb with pool := v } }
  else if n = 0x41 then
    if bit di.kvb.ctl.toNat 0 ∨ bits v.toNat 4 0 < 10 ∨ bits v.toNat 4 0 > 22 then dieReject s d
    else s.setDie d { di with kvb := { di.kvb with win := v } }
  else if n = 0x50 then
    if ckptsInUse s d ≠ 0 then dieReject s d else s.setDie d { di with ckpt := v }
  else if n = 0x60 then s.setDie d { di with trace := { di.trace with base := v } }
  else s

/-! ## Translation faults of rings (R365) -/

/-- WALK_RETRY: every held ring and overflow access of the die is retried. -/
def retryWalks (s : State) (d : Nat) : State :=
  { s with cores := s.cores.map fun e => if coreDie e.1 = d then (e.1, { e.2 with ringHold := false }) else e }
def execWalkRetry (s : State) : Host.Outcome State Fault Refusal :=
  match s.focus with
  | .event (.walkRetry d) => .next (retryWalks s d)
  | _ => noEvent

/-! ## Refresh and scrubbing (R356) -/

def modLayer (s : State) (d l : Nat) (f : Layer → Layer) : State :=
  s.modDie d fun di => { di with layers := di.layers.put l (f (di.layers.get l {})) }
/-- DRAM_REFRESH: no value depends on it; the next falls one interval later. -/
def execDramRefresh (s : State) : Host.Outcome State Fault Refusal :=
  match s.focus with
  | .event (.dramRefresh d l) => .next (modLayer s d l fun y => { y with nextRef := y.nextRef + y.int * 1000000 })
  | _ => noEvent
/-- Codewords of a layer (R355). -/
def layerWords : Nat := 2 ^ 29
/-- A die-local offset lies in a valid pewter range. -/
def inPewter (di : Die) (off : Nat) : Bool := (pewDeadline di off).isSome
/-- SCRUB_VISIT: one codeword; what is found in it is a free value. -/
def scrubOne (s : State) (d l : Nat) : State :=
  let y := (s.die d).layers.get l {}
  let off := l * 2 ^ 35 + y.pos * 64
  let pa := d * 2 ^ 37 + off
  let s := modLayer s d l fun y => { y with pos := y.pos + 1 }
  let s := if y.pos + 1 ≥ layerWords then raiseOnce s (.scrubPassEnd d l) else s
  if inPewter (s.die d) off then s
  else match Config.scrubFinds s.draws with
    | 0 => s
    | 1 => modLayer s d l fun y => { y with cur := y.cur + 1 }
    | _ =>
      lastingRec (lastingError s d pa (Config.spareLeft s.draws)) d 0 4 [BitVec.ofNat 64 pa]
def execScrubVisit (s : State) : Host.Outcome State Fault Refusal :=
  match s.focus with
  | .event (.scrubVisit d l) => .next (scrubOne s d l)
  | _ => noEvent
/-- SCRUB_PASS_END: CORR is set, the interval follows it, a new PASS takes effect. -/
def passEnd (s : State) (d l : Nat) : State :=
  let ctl := (s.die d).scrub.toNat
  modLayer s d l fun y =>
    let int := if y.cur > bits ctl 63 48 then max 32 (y.int / 2) else if y.cur < bits ctl 47 32 then min 512 (y.int * 2) else y.int
    { y with int, corr := hold y.cur (2 ^ 32 - 1), cur := 0, pos := 0, pass := bits ctl 29 24, passStart := y.passStart + 2 ^ y.pass }
def execScrubPassEnd (s : State) : Host.Outcome State Fault Refusal :=
  match s.focus with
  | .event (.scrubPassEnd d l) => .next (passEnd s d l)
  | _ => noEvent
/-- SCRUB_CTL_WRITE. -/
def execScrubCtlWrite (s : State) : Host.Outcome State Fault Refusal :=
  match s.focus with
  | .event (.scrubCtlWrite d v) =>
    let p := bits v.toNat 29 24
    .next (if dieReserved 0x18 v.toNat ∨ p < 30 ∨ p > 40 ∨ bits v.toNat 47 32 > bits v.toNat 63 48 then dieReject s d
           else s.modDie d fun di => { di with scrub := v })
  | _ => noEvent

/-! ## Pewter (R357, R358) -/

def modPew (s : State) (d k : Nat) (f : Pew → Pew) : State :=
  s.modDie d fun di => { di with pew := di.pew.put k (f (di.pew.get k {})) }
/-- The codewords of a pewter range are poisoned. -/
def poisonPew (s : State) (d ctl : Nat) : State :=
  s.setMem (poisonRange s.mem (d * 2 ^ 37 + bits ctl 15 0 * 2 ^ 21) ((bits ctl 47 32 + 1) * 2 ^ 21) true)
/-- A store of PEWk_CTL or PEWk_DL, by its register's offset from 0x100. (DEDUCED, log 30) -/
def pewStore (s : State) (d n : Nat) (v : BitVec 64) : State :=
  let k := n / 2
  let p := (s.die d).pew.get k {}
  let old := p.ctl.toNat
  let valid := bit old 63
  let w := v.toNat
  let place := fun (flags : Nat) => BitVec.ofNat 64 (flags + bits w 47 32 * 2 ^ 32 + bits w 15 0)
  if n % 2 = 1 then (if valid then dieReject s d else modPew s d k fun p => { p with dl := v })
  else if dieReserved 0x100 w then dieReject s d
  else if bit w 63 ∧ !valid then
    if bits w 15 0 + bits w 47 32 > 65535 ∨ p.dl.toNat ≤ s.tick ∨ p.dl.toNat > s.tick + 512000000 then
      modPew s d k fun p => { p with ctl := BitVec.ofNat 64 (setBits old 61 1 1) }
    else modPew s d k fun p => { p with ctl := place (2 ^ 63) }
  else if bit w 63 then
    (if bits w 15 0 = bits old 15 0 ∧ bits w 47 32 = bits old 47 32 then s else dieReject s d)
  else
    let s := if valid ∧ bit old 62 then poisonPew s d old else s
    modPew s d k fun p => { p with ctl := place (bits old 61 61 * 2 ^ 61) }
/-- PEW_CTL_WRITE. -/
def execPewCtlWrite (s : State) : Host.Outcome State Fault Refusal :=
  match s.focus with
  | .event (.pewCtlWrite d n v) => .next (pewStore s d n v)
  | _ => noEvent
/-- PEWTER_EXPIRY. -/
def execPewterExpiry (s : State) : Host.Outcome State Fault Refusal :=
  match s.focus with
  | .event (.pewterExpiry d k) => .next (modPew s d k fun p => { p with ctl := BitVec.ofNat 64 (setBits p.ctl.toNat 62 1 1) })
  | _ => noEvent

/-! ## Gated banks (R360, R453) -/

def onBits (v lo n : Nat) : List Nat := (List.range n).filterMap fun b => if bit v b then some (lo + b) else none
def union (a b : List Nat) : List Nat := a ++ b.filter fun x => !a.contains x
/-- BANK_GATE_REQUEST. -/
def execBankGateRequest (s : State) : Host.Outcome State Fault Refusal :=
  match s.focus with
  | .event (.bankGateRequest d g v) =>
    .next (s.modDie d fun di => { di with gateReq := union di.gateReq ((onBits v.toNat (64 * g) 64).filter fun b => !di.gated.contains b) })
  | _ => noEvent
/-- SPGATE_REQUEST: a bank that holds a word at or above FRAME_BASE is not gated. -/
def execSpgateRequest (s : State) : Host.Outcome State Fault Refusal :=
  match s.focus with
  | .event (.spgateRequest c v) =>
    .next (if dieReserved 0x200 v.toNat then dieReject s (coreDie c)
      else s.modCore c fun co =>
        { co with gateReq := union co.gateReq ((onBits v.toNat 0 16).filter fun b =>
            !co.gated.contains b && decide (8192 * (b + 1) ≤ bits co.frameBase.toNat 16 0)) })
  | _ => noEvent
/-- BANK_GATED: the words of the bank are gone. -/
def gateBank (s : State) (c : Option Nat) (d b : Nat) : State :=
  let s := s.setMem (memWithout s.mem (inBank c d b))
  match c with
  | some c => s.modCore c fun co => { co with gateReq := co.gateReq.filter (· != b), gated := union co.gated [b] }
  | none => s.modDie d fun di => { di with gateReq := di.gateReq.filter (· != b), gated := union di.gated [b] }
/-- The moment at which a bank may gate: a request stands, and it holds no waiter and no reservation. -/
def mayGate (s : State) (c : Option Nat) (d b : Nat) : Bool :=
  match c with
  | some c => (s.core c).gateReq.contains b && !(s.core c).waiters.any fun w => w.key % 2 ^ 20 / 65536 == b
  | none => (s.die d).gateReq.contains b && !(s.die d).waiters.any fun w => keyBank w.key == b
def execBankGated (s : State) : Host.Outcome State Fault Refusal :=
  match s.focus with
  | .event (.bankGated c d b) => if mayGate s c d b then .next (gateBank s c d b) else noEvent
  | _ => noEvent
/-- BANK_WAKE_COMPLETE: the held accesses are performed in the order of arrival. -/
def execBankWakeComplete (s : State) : Host.Outcome State Fault Refusal :=
  match s.focus with
  | .event (.bankWakeComplete c d b) => .next ((heldAt s c d b).foldl homeAccess (openBank s c d b))
  | _ => noEvent

/-! ## The block store's control and held accesses (R368, R372) -/

/-- The store starts empty: every slot's entry has V = 0. -/
def kvStart (s : State) (d : Nat) (ctl : BitVec 64) : State :=
  let k := (s.die d).kvb
  let base := bits k.win.toNat 53 18 * 4096
  let n := 8 * 2 ^ bits k.win.toNat 4 0
  let gone := fun (a : Nat) => decide (base ≤ a ∧ a < base + n) || decide (poisonKey base ≤ a ∧ a < poisonKey (base + n))
  let s := s.setMem (memWithout s.mem gone)
  s.modDie d fun di => { di with kvb := { pool := k.pool, win := k.win, ctl } }
/-- KVB_CTL_WRITE. -/
def kvCtlStore (s : State) (d : Nat) (v : BitVec 64) : State :=
  let k := (s.die d).kvb
  let ctl := BitVec.ofNat 64 (setBits v.toNat 1 1 0)
  let on := bit v.toNat 0
  if dieReserved 0x42 v.toNat then dieReject s d
  else if on && !bit k.ctl.toNat 0 then
    if bits k.pool.toNat 52 32 = 0 ∨ bits k.pool.toNat 20 0 + bits k.pool.toNat 52 32 > 2 ^ 21 then dieReject s d else kvStart s d ctl
  else if !on && bit k.ctl.toNat 0 && k.lists.any (fun l => l.2 != []) then dieReject s d
  else s.modDie d fun di => { di with kvb := { k with ctl } }
def execKvbCtlWrite (s : State) : Host.Outcome State Fault Refusal :=
  match s.focus with
  | .event (.kvbCtlWrite d v) => .next (kvCtlStore s d v)
  | _ => noEvent

/-- The first entry of a held list that may go on: an access first at its slot, or a parked frame when no access is left. -/
def kvReady (s : State) (d : Nat) : List Nat → List KvHeld → Option (KvHeld × Option (State × Loc))
  | _, [] => none
  | seen, h :: l =>
    let next := kvReady s d (h.slot :: seen) l
    match h.who with
    | .frame _ => if kvLine s d h.slot = [] then some (h, none) else kvReady s d seen l
    | .access a =>
      if seen.contains h.slot then next
      else (match kvMap s a.loc a.op.writes with | some r => some (h, some r) | none => next)
    | _ => next
/-- Held accesses are performed in order while blocks are free; parked frames follow, and pod requests that are first in
line run again (R372). -/
def kvReleaseHeld (s : State) (d : Nat) : Nat → State
  | 0 => s
  | n + 1 =>
    let drop := fun (s : State) h => s.modDie d fun di =>
      { di with kvb := { di.kvb with held := dropFirst (fun x => x == h) di.kvb.held } }
    let k := (s.die d).kvb
    match kvReady s d [] k.held with
    | none =>
      if k.held = [] then s.modDie d fun di => { di with kvb := { di.kvb with raised := false } }
      else k.held.foldl (fun s h => match h.who with | .event e => if kvMayGo s d h then raiseOnce s e else s | _ => s) s
    | some (h, some (s', loc)) =>
      (match h.who with
        | .access a => kvReleaseHeld (perform (drop s' h) { a with loc }) d n
        | _ => s)
    | some (h, none) =>
      let s := drop s h
      kvReleaseHeld (match h.who with | .frame fp => s.send (.wake d fp) | _ => s) d n
/-- KVB_HELD_RELEASE. -/
def execKvbHeldRelease (s : State) : Host.Outcome State Fault Refusal :=
  match s.focus with
  | .event (.kvbHeldRelease d) => .next (kvReleaseHeld s d ((s.die d).kvb.held.length + 1))
  | _ => noEvent

/-! ## The trace's control (R449) -/

/-- TRACE_CTL_WRITE: setting EN starts the ring with an ABS record of cause 0, behind a LOST record where records were lost. -/
def traceStore (s : State) (d : Nat) (v : BitVec 64) : State :=
  let t := (s.die d).trace
  let ctl := BitVec.ofNat 64 (v.toNat / 2 ^ 32 * 2 ^ 32)
  if dieReserved 0x61 v.toNat then dieReject s d
  else if bit v.toNat 63 && !bit t.ctl.toNat 63 then
    let s := s.modDie d fun di => { di with trace := { t with ctl, head := 0, last := s.tick, abs := none } }
    if t.lost = 0 then traceAbs s d 0 else traceLost s d
  else s.modDie d fun di => { di with trace := { t with ctl } }
def execTraceCtlWrite (s : State) : Host.Outcome State Fault Refusal :=
  match s.focus with
  | .event (.traceCtlWrite d v) => .next (traceStore s d v)
  | _ => noEvent

end Sys2Proof.Machine
end

