-- ==== Sys2Proof/Machine/Sha.lean ====
section
/-! DEFINITION. SHA-512, which R457 and R458 name and FIPS 180-4 defines. (PRESUMED, log 78) -/

namespace Sys2Proof.Machine

/-! ## The constants: 64 bits behind the point of roots of the first primes -/

/-- The largest r below 2^n with r^k at most v, its bits taken from the highest on. -/
def rootBelow (k v : Nat) : Nat → Nat → Nat
  | 0, r => r
  | n + 1, r => rootBelow k v n (if (r + 2 ^ n) ^ k ≤ v then r + 2 ^ n else r)
/-- The first 64 bits behind the point of the k-th root of p, whose whole part is below 256. -/
def rootBits (k p : Nat) : Nat := rootBelow k (p * 2 ^ (64 * k)) 72 0 % 2 ^ 64
def isPrime (n : Nat) : Bool := decide (2 ≤ n) && (List.range n).all fun d => decide (d < 2) || n % d != 0
/-- The primes below 410: there are 80. -/
def smallPrimes : List Nat := (List.range 410).filter isPrime
/-- The constants of the 80 rounds. -/
def shaRounds : List Nat := smallPrimes.map (rootBits 3)

/-! ## The hash

A chaining value is two histories of four words, newest first: the words that the manual's letters a to d name, and those
of e to h. -/

abbrev ShaHist := List Nat × List Nat

def shaInit : ShaHist := ((smallPrimes.take 4).map (rootBits 2), ((smallPrimes.drop 4).take 4).map (rootBits 2))

/-- Sum of words. -/
def shaSum (l : List Nat) : Nat := l.foldl (· + ·) 0 % 2 ^ 64
/-- A word turned right by n places. -/
def shaTurn (x n : Nat) : Nat := x / 2 ^ n + x % 2 ^ n * 2 ^ (64 - n)
def shaXor (l : List Nat) : Nat := l.foldl (· ^^^ ·) 0
/-- The exclusive or of a word turned by several counts. -/
def shaMix (x : Nat) (counts : List Nat) : Nat := shaXor (counts.map (shaTurn x))

/-- A schedule of the last sixteen words, newest first, goes on for n more; every word that leaves it is passed to the round. -/
def shaNext (w : List Nat) : Nat :=
  let far := nthD w 14 0
  let near := nthD w 1 0
  shaSum [nthD w 15 0, shaXor [shaMix far [1, 8], far / 2 ^ 7], nthD w 6 0, shaXor [shaMix near [19, 61], near / 2 ^ 6]]
/-- One round: each history gains a word and loses its oldest. -/
def shaRound (h : ShaHist) (k w : Nat) : ShaHist :=
  let p := fun i => nthD h.1 i 0
  let q := fun i => nthD h.2 i 0
  let chosen := q 2 ^^^ (q 0 &&& (q 1 ^^^ q 2))
  let most := (p 0 &&& (p 1 ||| p 2)) ||| (p 1 &&& p 2)
  let t := shaSum [k, w, q 3, chosen, shaMix (q 0) [41, 18, 14]]
  (shaSum [t, most, shaMix (p 0) [39, 34, 28]] :: h.1.take 3, shaSum [t, p 3] :: h.2.take 3)
/-- The rounds of a block: the oldest word of the schedule is used, and the schedule gains the next. -/
def shaRun : List Nat → List Nat → ShaHist → ShaHist
  | [], _, h => h
  | k :: ks, w, h => shaRun ks (shaNext w :: w.take 15) (shaRound h k (nthD w 15 0))
/-- The bytes as one number, the first the highest. -/
def bigNat (b : List (BitVec 8)) : Nat := b.foldl (fun n x => n * 256 + x.toNat) 0
/-- One block of 128 bytes, taken as one number. -/
def shaBlock (h : ShaHist) (block : Nat) : ShaHist :=
  let r := shaRun shaRounds ((List.range 16).map fun k => block / 2 ^ (64 * k) % 2 ^ 64) h
  let add := List.zipWith fun x y => shaSum [x, y]
  (add h.1 r.1, add h.2 r.2)
def shaBlocks : Nat → ShaHist → List (BitVec 8) → ShaHist
  | 0, h, _ => h
  | n + 1, h, b => shaBlocks n (shaBlock h (bigNat (b.take 128))) (b.drop 128)
/-- A number as n bytes, the highest first. -/
def bigBytes (v n : Nat) : List (BitVec 8) := ((leBytes v n).map (BitVec.ofNat 8)).reverse
/-- The message with its padding: a one bit, zeros, the length in bits. -/
def shaPad (m : List (BitVec 8)) : List (BitVec 8) :=
  m ++ bigBytes (2 ^ (8 * ((239 - m.length % 128) % 128) + 7)) ((239 - m.length % 128) % 128 + 1) ++ bigBytes (8 * m.length) 16
/-- SHA-512 of a string of bytes. -/
def sha512 (m : List (BitVec 8)) : List (BitVec 8) :=
  let p := shaPad m
  let h := shaBlocks (p.length / 128) shaInit p
  (h.1 ++ h.2).flatMap fun w => bigBytes w 8

end Sys2Proof.Machine
end

