-- ==== Sys2Proof/Machine/Launch.lean ====
section
/-! DEFINITION. Launches: launch lines and records (R398 to R400), the image and its checks (R401, R451), the two phases of
loading (R402, R403, R477), the switch of a core (R404 to R407). -/

namespace Sys2Proof.Machine

/-! ## Launch lines (R398, R399) -/

def lineKey (p w : Nat) : Nat := commonsKey 0 (0x7FFE000 + 0x200 * p + 8 * w)
/-- A word of a launch record, by its index. -/
def recAt (ws : List (BitVec 64)) (k : Nat) : Nat := (nthD ws k 0).toNat
def launchOf (s : State) (p : Nat) : Launch := s.pkg.launches.get p {}
def setLaunch (s : State) (p : Nat) (l : Launch) : State := s.modPkg fun k => { k with launches := k.launches.put p l }

def stOk : Nat := 1
def stLoadErr : Nat := 2
def stBadRec : Nat := 3
def stBusy : Nat := 4

/-- A word written at a host address; an address that is not populated host memory takes nothing (R441). -/
def hostPut (s : State) (a v : Nat) : State := if physKind s a = .host then s.setMem (memPut s.mem a v 8) else s
/-- A device write of a launch line's word: F stays. -/
def linePut (s : State) (p w v : Nat) : State :=
  let key := lineKey p w
  let s := awake s key
  s.setMem (putWord s.mem key ⟨BitVec.ofNat 64 v, keyF s.mem key, false⟩)

/-- A launch ends (R399, R443): words 16 and 17, then the event line, then event 0x01 in the partition's ring. -/
def launchEnd (s : State) (p seq event status detail ioff : Nat) : State :=
  let w16 := status * 2 ^ 56 + detail % 2 ^ 24 * 2 ^ 32 + seq
  let s := linePut (linePut s p 16 w16) p 17 ioff
  let a := event / 128 * 128
  let s := hostPut (hostPut (hostPut s a seq) (a + 8) w16) (a + 16) ioff
  ringRecord s (partReg s p).evt (eventWords s 0x01 0 0 p noIdx (seq + status * 2 ^ 32))

/-! ## The record (R400, R406, R477) -/

structure Region where
  d0 : Nat
  d1 : Nat
  c0 : Nat
  c1 : Nat
def regionOf (ws : List (BitVec 64)) : Region :=
  let w := recAt ws 3
  ⟨bits w 4 0, bits w 12 8, bits w 22 16, bits w 30 24⟩
def Region.dies (r : Region) : List Nat := (List.range (r.d1 + 1)).filter fun d => decide (r.d0 ≤ d)
/-- The region's present cores in the order of R101. -/
def regionCores (s : State) (r : Region) : List Nat :=
  r.dies.flatMap fun d => ((List.range 128).filter fun c => decide (r.c0 ≤ c ∧ c ≤ r.c1) && corePresent s (coreId d c)).map (coreId d)
def Region.has (r : Region) (c : Nat) : Bool := decide (r.d0 ≤ coreDie c ∧ coreDie c ≤ r.d1 ∧ r.c0 ≤ c % 128 ∧ c % 128 ≤ r.c1)

/-- Bits of a record word that Table 18.1 does not define. Words 16 and 17 are the device's. (DEDUCED, log 68) -/
def recReserved (k w : Nat) : Bool :=
  match k with
  | 0 => bits w 62 32 != 0
  | 1 => decide (w ≥ 2 ^ 48) || bits w 5 0 != 0
  | 2 => decide (w ≥ 2 ^ 32)
  | 3 => decide (w ≥ 2 ^ 36) || bit w 31 || bit w 23 || bits w 15 13 != 0 || bits w 7 5 != 0
  | 4 => decide (w ≥ 2 ^ 17)
  | 5 | 6 | 7 | 16 | 17 => false
  | 8 => decide (w ≥ 2 ^ 32)
  | 9 => decide (w ≥ 2 ^ 48)
  | _ => w != 0

/-- The state of a core as a partition has it: what runs there now, what a world switch saved, or a core without an image
(R446). -/
def worldCore (s : State) (p c : Nat) : Core :=
  if corePart s c = some p then s.core c else match s.pkg.saves.find? (·.1 == (p, c)) with | some e => e.2.1 | none => {}
/-- The same, changed. -/
def setWorldCore (s : State) (p c : Nat) (co : Core) : State :=
  if corePart s c = some p then s.setCore c co
  else
    let words := match s.pkg.saves.find? (·.1 == (p, c)) with | some e => e.2.2 | none => []
    s.modPkg fun k => { k with saves := ((p, c), co, words) :: k.saves.filter (·.1 != (p, c)) }
/-- Does a record word fail (R400, R406, R477)? -/
def recBad (s : State) (p : Nat) (ws : List (BitVec 64)) (k : Nat) : Bool :=
  let w := recAt ws k
  let r := regionOf ws
  recReserved k w ||
  match k with
  | 3 => decide (r.d0 > r.d1 ∨ r.d1 > 23 ∨ r.c0 > r.c1 ∨ r.c1 > 127) || r.dies.any fun d => !partLists s p d
  | 4 =>
    decide (w % 32 ≠ 0 ∨ w > 0x1FE80)
      || s.cores.any (fun e => partLists s p (coreDie e.1) && !r.has e.1 && (worldCore s p e.1).image != [] && (worldCore s p e.1).frameBase.toNat != w)
      || (bit (recAt ws 3) 35 && (regionCores s r).any fun c => (worldCore s p c).frameBase.toNat != w)
  | 8 => (List.range 32).any fun n => bit w n && portPart s n != some p
  | _ => false
/-- The first failing word of a record. -/
def recFail (s : State) (p : Nat) (ws : List (BitVec 64)) : Option Nat := List.find? (recBad s p ws) (List.range 64)

/-! ## The image (R401, R451) -/

/-- The bytes of an image as a number of 64-bit words; the last word is filled with zeros. -/
def imgWord (b : List (BitVec 8)) (k : Nat) : Nat := leNat (((b.drop (8 * k)).take 8).map BitVec.toNat)
/-- Parts of an image: number of words, header fields. -/
structure Img where
  b : List (BitVec 8)
  n : Nat
  ntask : Nat
  ndata : Nat
  nentry : Nat
  nseed : Nat
  nnode : Nat
  task : Nat
  code : Nat
  clen : Nat
  data : Nat
  seed : Nat
  entry : Nat
  node : Nat
def Img.at (m : Img) (k : Nat) : Nat := imgWord m.b k
def imgOf (b : List (BitVec 8)) : Img :=
  let h := imgWord b
  { b, n := cdiv b.length 8, ntask := bits (h 0) 31 16, ndata := bits (h 0) 47 32, nentry := bits (h 0) 63 48
    nseed := bits (h 3) 63 32, nnode := bits (h 5) 31 0, task := bits (h 1) 31 0 / 8, code := bits (h 1) 63 32 / 8
    clen := bits (h 2) 31 0, data := bits (h 2) 63 32 / 8, seed := bits (h 3) 31 0 / 8, entry := bits (h 4) 31 0 / 8
    node := bits (h 4) 63 32 / 8 }
/-- An offset of the header that is no multiple of 8, or whose table does not lie in the image behind the header. -/
def offBad (m : Img) (off count : Nat) : Bool := decide (off % 8 ≠ 0) || decide (count ≠ 0 ∧ (off < 64 ∨ off / 8 + count > m.n))
/-- The header words that fail. -/
def headBad (m : Img) (k : Nat) : Bool :=
  let w := m.at k
  let lenBad := decide (m.clen > Config.halfBytes ∨ m.clen % 4 ≠ 0)
  match k with
  | 0 => bits w 15 0 != 1 || decide (m.ntask = 0 ∨ m.nentry = 0 ∨ m.nentry > 16) || decide (m.n < 8)
  | 1 => offBad m (bits w 31 0) m.ntask || offBad m (bits w 63 32) (if lenBad then 0 else cdiv m.clen 8)
  | 2 => lenBad || offBad m (bits w 63 32) m.ndata
  | 3 => offBad m (bits w 31 0) (3 * m.nseed)
  | 4 => offBad m (bits w 31 0) m.nentry || offBad m (bits w 63 32) (2 * m.nnode)
  | 5 => decide (w ≥ 2 ^ 32)
  | _ => w != 0

/-- The task id and block address of task entry k. -/
def Img.taskId (m : Img) (k : Nat) : Nat := bits (m.at (m.task + k)) 15 0
def Img.taskAddr (m : Img) (k : Nat) : Nat := bits (m.at (m.task + k)) 30 16 * 16
/-- The block address of a task. -/
def Img.addrOf (m : Img) (id : Nat) : Option Nat := ((List.range m.ntask).find? fun k => m.taskId k == id).map m.taskAddr
/-- The second 64-bit word of a block header: NSLOT in bits 11:4. -/
def Img.nslotAt (m : Img) (addr : Nat) : Nat := bits (m.at (m.code + addr / 8 + 1)) 11 4
/-- HANDLER of the block at an address. -/
def Img.handlerAt (m : Img) (addr : Nat) : Bool := bit (m.at (m.code + addr / 8)) 53

/-- The places of the data items: word index of each header. -/
def dataItems (m : Img) : Nat → Nat → List Nat
  | 0, _ => []
  | n + 1, k => k :: dataItems m n (k + 1 + bits (m.at k) 55 24)

/-- A failing word among the image's tables. -/
def taskBad (m : Img) (k : Nat) : Bool :=
  let w := m.at (m.task + k)
  decide (w ≥ 2 ^ 32) || decide (m.taskAddr k ≥ m.clen) || (List.range k).any fun j => m.taskId j == m.taskId k
def dataBad (m : Img) (fb k : Nat) : Bool :=
  let w := m.at k
  let off := bits w 23 4
  let n := bits w 55 24
  bits w 1 0 != 0 || bits w 3 2 == 3 || decide (w ≥ 2 ^ 56) || decide (off % 8 ≠ 0 ∨ off / 8 + n > fb ∨ k + 1 + n > m.n)
def entryBad (m : Img) (k : Nat) : Bool := let w := m.at (m.entry + k); decide (w ≥ 2 ^ 16) || (m.addrOf w).isNone
def seedBad (m : Img) (k : Nat) : Option Nat :=
  let j := m.seed + 3 * k
  let w := m.at j
  let e := bits w 15 0
  let slot := match m.addrOf (m.at (m.entry + e)) with | some a => decide (bits w 38 32 ≥ m.nslotAt a) | none => false
  if w ≥ 2 ^ 40 ∨ e ≥ m.nentry then some j else if slot then some j else if m.at (j + 2) ≠ 0 then some (j + 2) else none
def nodeBad (m : Img) (k : Nat) : Option Nat :=
  let j := m.node + 2 * k
  let w := m.at j
  let tag := bits w 19 0
  if w ≥ 2 ^ 37 ∨ (bit w 36 ∧ bits w 35 20 ≠ 0) ∨ (List.range k).any (fun i => bits (m.at (m.node + 2 * i)) 19 0 == tag) then some j
  else if m.at (j + 1) ≥ 2 ^ 32 then some (j + 1) else none

/-- The first failing word of an image, header first, then in image order (R401). -/
def imgFail (m : Img) (fb : Nat) : Option Nat :=
  match (List.range 8).find? (headBad m) with
  | some k => some k
  | none =>
    let ks := fun (n : Nat) (f : Nat → Option Nat) => (List.range n).filterMap f
    let bad := ks m.ntask (fun k => if taskBad m k then some (m.task + k) else none)
      ++ (dataItems m m.ndata m.data).filter (dataBad m fb)
      ++ ks m.nentry (fun k => if entryBad m k then some (m.entry + k) else none)
      ++ ks m.nseed (seedBad m) ++ ks m.nnode (nodeBad m)
    bad.foldl (fun (r : Option Nat) k => match r with | some j => some (min j k) | none => some k) none

/-- The bytes at a physical address, and whether one of them is in error. -/
def imgBytes (s : State) (a n : Nat) : List (BitVec 8) × Bool :=
  let err := (codewords a n).any fun w => physErr s (64 * w) 64 s.tick
  ((List.range n).map fun k => BitVec.ofNat 8 (physVal s (a + k) 1 s.tick), err)

/-! ## Phase 1 (R402) -/

/-- The tasks of an image (Table 18.3); their engines follow when the block stands in the store. -/
def imgTasks (m : Img) : List Task :=
  (List.range m.ntask).map fun k => { id := m.taskId k, addr := m.taskAddr k, restart := bit (m.at (m.task + k)) 31 }
/-- The code of an image written into one half of a core's instruction store. -/
def putCode (s : State) (c half : Nat) (m : Img) : State :=
  let code := (m.b.drop (8 * m.code)).take m.clen
  let s := s.setMem ((code.foldl (fun (a : List Host.Cell × Nat) x => (memSet a.1 (codeKey c half a.2) x, a.2 + 1)) (s.mem, 0)).1)
  s.modCore c fun co => { co with badCode := co.badCode.filter fun e => !(e.1 == half && decide (4 * e.2 < m.clen)) }
/-- The launch of a partition is over. -/
def closeLaunch (s : State) (p status detail : Nat) : State :=
  let l := launchOf s p
  let s := setLaunch s p { last := l.last, hash := l.hash }
  launchEnd s p l.seq (bits (recAt l.words 9) 47 0) status detail 0
/-- Each core of the region takes the code into its shadow half; the items stand in staging. (DESIGN CHOICE, log 70) -/
def phase1 (s : State) (p : Nat) : State :=
  let l := launchOf s p
  let m := imgOf l.image
  let s := l.cores.foldl (fun s c => (putCode s c (1 - (s.core c).half) m).modCore c fun co => { co with shadow := imgTasks m }) s
  setLaunch s p { l with phase := 2 }
/-- Phase 1 runs only while the partition is switched in on every die of the region (R446). -/
def switchedIn (s : State) (p : Nat) (r : Region) : Bool := r.dies.all fun d => diePart s d == some p
def tryPhase1 (s : State) (p : Nat) : State :=
  let l := launchOf s p
  if l.phase = 1 ∧ switchedIn s p (regionOf l.words) then phase1 s p else s
/-- Phase 1 starts again at a slice of the partition: the image is read again, and may be in error, or fail by now (R402, R446).
(DEDUCED, log 108) -/
def againPhase1 (s : State) (p : Nat) : State :=
  let l := launchOf s p
  if l.phase = 1 ∧ switchedIn s p (regionOf l.words) then
    let (image, err) := imgBytes s (bits (recAt l.words 1) 47 0) (bits (recAt l.words 2) 31 0)
    if err then closeLaunch (lastingRec s (regionOf l.words).d0 0 4 []) p stLoadErr (regionOf l.words).d0
    else match imgFail (imgOf image) (recAt l.words 4) with
      | some k =>
        let s := setLaunch s p { last := l.last, hash := l.hash }
        launchEnd s p l.seq (bits (recAt l.words 9) 47 0) stBadRec 0xFFFFFF (8 * k)
      | none => phase1 (setLaunch s p { l with image, hash := image }) p
  else s

/-- POD_TIME.SYNCED (R462). -/
def synced (s : State) : Bool := bit s.pkg.pod.time.toNat 63
/-- A gang launch whose tick has come (R477). -/
def gangDue (s : State) (p : Nat) : Bool :=
  let l := launchOf s p
  match l.gtick with
  | some t => decide (t ≤ s.tick) && (l.phase == 1 || l.phase == 2)
  | none => false
/-- Its phase 2, or its end, comes next. -/
def raisePhase2 (s : State) (p : Nat) : State := if gangDue s p then raiseOnce s (.loadPhase2 p) else s
/-- LAUNCH_ACCEPT: the record of partition p's line is taken as a new launch and checked (R399, R400). (DEDUCED, log 67) -/
def acceptLaunch (s : State) (p : Nat) : State :=
  let ws := (List.range 64).map fun k => (getWord s.mem (lineKey p k)).d
  let old := launchOf s p
  let w0 := recAt ws 0
  let seq := w0 % 2 ^ 32
  if !bit w0 63 || old.last == some seq then s
  else
    let (image, err) := imgBytes s (bits (recAt ws 1) 47 0) (bits (recAt ws 2) 31 0)
    let s := setLaunch s p { old with last := some seq, hash := image }
    let event := bits (recAt ws 9) 47 0
    let fin := launchEnd s p seq event
    if old.phase ≠ 0 then fin stBusy 0 0
    else match recFail s p ws with
      | some k => fin stBadRec k 0
      | none =>
        let r := regionOf ws
        let cores := regionCores s r
        match (if err then none else imgFail (imgOf image) (recAt ws 4)) with
        | some k => fin stBadRec 0xFFFFFF (8 * k)
        | none =>
          if !bit (recAt ws 3) 35 && cores.any (fun c => (worldCore s p c).frames != []) then fin stBusy 0 0
          else if err then launchEnd (lastingRec s r.d0 0 4 [BitVec.ofNat 64 seq]) p seq event stLoadErr r.d0 0
          else
            let g := recAt ws 7
            let gtick := if g = 0 then none else if bit g 63 then some (s.tick + g % 2 ^ 63) else some g
            let late := match gtick with | some t => decide (t < s.tick) | none => false
            let s := setLaunch s p { last := some seq, hash := image, seq, phase := 1, words := ws, image, gtick, gang := g != 0, cores }
            if late then closeLaunch s p stLoadErr 0xFFFFFF
            else raisePhase2 (tryPhase1 s p) p
def execLaunchAccept (s : State) : Host.Outcome State Fault Refusal :=
  match s.focus with
  | .event (.launchAccept p) => .next (acceptLaunch s p)
  | _ => .refused .notEnabled

/-! ## Phase 2 (R403, R477) -/

/-- One data item of the image written into a core's scratchpad (R321); `bad` are the words that staging cannot give back, which
are written with X and zero (R403). -/
def putItem (s : State) (c : Nat) (m : Img) (bad : List Nat) (k : Nat) : State :=
  let w := m.at k
  let n := bits w 55 24
  let mode := bits w 3 2
  (List.range n).foldl (fun s j =>
    let key := localKey c (bits w 23 4 + 8 * j)
    let s := awake s key
    let was := keyF s.mem key
    let f := if mode = 1 then true else if mode = 2 then false else was
    let x := bad.contains (k + 1 + j)
    let s := s.setMem (putWord s.mem key ⟨if x then 0 else BitVec.ofNat 64 (m.at (k + 1 + j)), f, x⟩)
    if f && !was then becameFull s key else s) s
def putData (s : State) (c : Nat) (m : Img) (bad : List Nat) : State :=
  (dataItems m m.ndata m.data).foldl (fun s k => putItem s c m bad k) s

/-- The launch may go on to phase 2, or must end at its gang tick. -/
def phase2Due (s : State) (p : Nat) : Bool :=
  let l := launchOf s p
  match l.gtick with
  | none => l.phase == 2
  | some _ => gangDue s p

/-- LOAD_PHASE2. -/
def loadPhase2 (s : State) (p : Nat) : State :=
  let l := launchOf s p
  if l.gtick.isSome && (l.phase == 1 || !synced s) then closeLaunch s p stLoadErr 0xFFFFFF
  else
    let r := regionOf l.words
    let m := imgOf l.image
    let fb := nthD l.words 4 0
    let s := (allCores.filter fun c => partLists s p (coreDie c) && corePresent s c && !r.has c
        && (worldCore s p c).image == [] && (worldCore s p c).frameBase != fb).foldl
      (fun s c => setWorldCore s p c { worldCore s p c with frameBase := fb }) s
    let s := l.cores.foldl (fun s c => putData s c m (l.bad.filterMap fun e => if e.1 = coreDie c then some e.2 else none)) s
    let s := l.cores.foldl (fun s c => s.modCore c fun co => { co with waved := true }) s
    setLaunch s p { l with phase := 3 }
def execLoadPhase2 (s : State) : Host.Outcome State Fault Refusal :=
  match s.focus with
  | .event (.loadPhase2 p) => if phase2Due s p then .next (loadPhase2 s p) else .refused .notEnabled
  | _ => .refused .notEnabled

/-! ## The switch of a core (R404 to R407) -/

/-- Nothing of the old image runs any more. (DEDUCED, log 73) -/
def quiesced (co : Core) : Bool :=
  co.slots.all (·.isNone) && co.vecQ == [] && co.vec.isNone && co.matQ == [] && co.mat.isNone && co.dda.queue == []
    && co.streams.all (fun (x : Nat × Stream) => x.2.queue == [] && x.2.cur.isNone) && co.ckpts == []
    && !(co.tbuf.any fun b => match b.e with | .cmd .. => true | _ => false)
/-- The partition whose launch waits for a core's switch. -/
def switchPart (s : State) (c : Nat) : Option Nat :=
  (List.range 16).find? fun p => (launchOf s p).phase == 3 && (launchOf s p).cores.contains c
def maySwitch (s : State) (c : Nat) : Bool :=
  (s.core c).waved && quiesced (s.core c) && !(pendingOf s c).any ownLocal && (switchPart s c).isSome

/-- Bytes of a block. -/
def blkLen (h : Header) : Nat := 16 + 4 * (h.nrd + h.nwr + h.nins)
/-- A frame survives the switch (R405): PERSIST, the same task at the same address with the same bytes. -/
def survives (s : State) (c : Nat) (m : Img) (task : Nat) : Bool :=
  match taskOf (s.core c) task with
  | none => false
  | some t =>
    let b := fetchBlock s c t.addr
    let old := codeKey c (s.core c).half t.addr
    let new := codeKey c (1 - (s.core c).half) t.addr
    b.hdr.persist && m.addrOf task == some t.addr
      && decide (t.addr + blkLen b.hdr ≤ m.clen) && memNat s.mem old (blkLen b.hdr) == memNat s.mem new (blkLen b.hdr)

/-- An old frame goes with its record, its waiters and what its state held. -/
def dropFrame (s : State) (fp : Nat) : State := freeFrame (dropWaiters (dropRec s fp) fp) fp

/-- The INTERVAL records of R448, one for each counter of Table 7.6. -/
def intervals (s : State) (c : Nat) : State :=
  (List.range 13).foldl (fun s k => traceRec s (coreDie c) c 5 k (perfRead s c k)) s
/-- The counters of Table 7.6 clear; EVSEL keeps its selections and OIE bits (R404). -/
def clearCounters (co : Core) (now : Nat) : Core :=
  { co with cycBase := now, commits := 0, undone := 0, insns := 0, cc := [], evc := []
            evsel := BitVec.ofNat 64 (co.evsel.toNat % 2 ^ 60) }

/-- The trap-handling register as the loader writes it (R209). (DEDUCED, log 72) -/
def loadTrapv (m : Img) (old : BitVec 64) : BitVec 64 :=
  let hs := ((List.range m.ntask).filter fun k => m.handlerAt (m.taskAddr k)).map m.taskId
  let brk := old.toNat / 2 ^ 17 * 2 ^ 17
  match hs with
  | [] => BitVec.ofNat 64 brk
  | h :: l => BitVec.ofNat 64 (brk + 2 ^ 16 + l.foldl min h)

/-- The entry frames of a core in the order of the entry list (R407): their pointers, none for one without room; a block with NSLOT
above 128 gets 128 slots. (DEDUCED, log 71) (DEDUCED, log 107) -/
def entryFrames (s : State) (c cls : Nat) (m : Img) : State × List (Option Nat) :=
  (List.range m.nentry).foldl (fun (a : State × List (Option Nat)) k =>
    let task := m.at (m.entry + k)
    let addr := match m.addrOf task with | some x => x | none => 0
    let size := min 128 (m.nslotAt addr)
    match freeAt a.1 c (4 + size) with
    | none => (a.1, a.2 ++ [none])
    | some h =>
      let fp := mkFp c h
      let node := (fetchBlock a.1 c addr).hdr.node
      (checkReady (allocFrame a.1 fp size task cls 0xFFFFFFFF node) fp, a.2 ++ [some fp])) (s, [])
/-- The seeds of a core in image order (R407), ordinary tokens on their way (R102); one of an entry frame that found no room is a stray,
counted at the switch with frame pointer 0 in STRAY_FP (DESIGN CHOICE, log 71); `n` is its number in the region. -/
def seedCore (s : State) (c n : Nat) (m : Img) (fps : List (Option Nat)) : State :=
  (List.range m.nseed).foldl (fun s k =>
    let j := m.seed + 3 * k
    let w := m.at j
    let slot := bits w 38 32
    if bits w 31 16 = 0xFFFF ∨ bits w 31 16 = n then
      match nthD fps (bits w 15 0) none with
      | some fp => s.send (.token { fp, slot, v := ⟨BitVec.ofNat 64 (m.at (j + 1)), bit w 39⟩ })
      | none => stray s c 0 slot
    else s) s

/-- A launch whose cores have all switched and received their seeds ends (R403). -/
def settleLaunch (s : State) (p : Nat) : State :=
  let l := launchOf s p
  let seed := fun (q : Packet) => match q with
    | .token t => t.src.isNone && (regionOf l.words).has (fpCore t.fp)
    | _ => false
  if l.phase = 3 ∧ l.cores = [] ∧ !s.net.any seed then closeLaunch s p stOk 0 else s
def settleLaunches (s : State) : State := (s.pkg.launches.map (·.1)).foldl settleLaunch s

/-- A core's part of a switch, with the launch of partition p; its number counts the cores present as it switches (DEDUCED, log
107). A section whose nodes and domains go with the old image is over, and a frame that it held and that survives goes on
(R411). -/
def switchCore (s : State) (c p : Nat) : State :=
  let l := launchOf s p
  let m := imgOf l.image
  let ws := l.words
  let old := (s.core c).frames.map (mkFp c)
  let keep := old.filter fun fp => survives s c m (frameTask s fp)
  let s := intervals s c
  let s := (old.filter fun fp => !keep.contains fp).foldl dropFrame s
  let word := fun (k : Nat) => nthD ws k 0
  let mask := fun (w : Nat) => BitVec.ofNat 64 (w % 2 ^ 48 / 2 ^ 12 * 2 ^ 12 + w % 16)
  let s := s.modCore c fun co =>
    let co := clearCounters co (coreCclk s c)
    { co with
      half := 1 - co.half, tasks := co.shadow, shadow := []
      image := (ws.drop 1).take 6 ++ [BitVec.ofNat 64 l.seq], gang := l.gang, waved := false
      frameBase := word 4
      syncOva := mask (recAt ws 6), syncOvf := BitVec.ofNat 64 (bnat (bit (recAt ws 3) 34)), trapv := loadTrapv m co.trapv
      reserved := [], pend := co.pend.filter fun q => keep.contains (nthD q.words 1 0).toNat
      dfault := if (match co.dfault with | some fp => keep.contains fp | none => false) then co.dfault else none
      nodes := [], pp := [], sc := [], lbdCtl := 0x10101, lbdSaved := 0, hist := []
      dda := { inc := co.dda.inc }, secs := co.secs.filter fun x => x.held && keep.contains x.fp, busy := co.busy ||| 4 }
  let s := moveRings (keepFrames s c) c (mask (recAt ws 5))
  let engs := fun (t : Task) => { t with engs := blockEngines (fetchBlock s c t.addr) }
  let s := s.modCore c fun co => { co with tasks := co.tasks.map engs }
  let n := match (List.range (regionCores s (regionOf ws)).length).find? (fun k => nthD (regionCores s (regionOf ws)) k 0 == c) with
    | some k => k | none => 0
  let (s, fps) := entryFrames s c (bits (recAt ws 3) 33 32) m
  let s := seedCore s c n m fps
  setLaunch s p { l with cores := l.cores.filter (· != c) }
def execCoreSwitch (s : State) : Host.Outcome State Fault Refusal :=
  match s.focus with
  | .event (.coreSwitch c) =>
    (match switchPart s c with
      | some p => if maySwitch s c then .next (switchCore s c p) else .refused .notEnabled
      | none => .refused .notEnabled)
  | _ => .refused .notEnabled

end Sys2Proof.Machine
end

