-- ==== Sys2Proof/Machine/World.lean ====
section
/-! DEFINITION. Time slices and the world switch (R416, R417, R446). A save image is kept as the plain data of Table 18.4. -/

namespace Sys2Proof.Machine

/-! ## Saving a core (R416) -/

/-- The scratchpad words that a save image holds: those below FRAME_BASE, and of the frame area the header words and the
full slots of allocated frames. -/
def savedWords (s : State) (c : Nat) : List (Nat × TWord) :=
  let base := bits (s.core c).frameBase.toNat 16 0
  let low := List.range base
  let frames := (s.core c).frames.flatMap fun h => (List.range (4 + frameSize s (mkFp c h))).map (h + ·)
  let inFrame := frames.filter fun i => keyF s.mem (wordKey c i)
  (low ++ inFrame).filterMap fun i =>
    let w := getWord s.mem (wordKey c i)
    if w = {} then none else some (i, w)

/-- Resident firings go by R127; a started command stops at a step boundary, where the act before the switch left it; what a stream
has read is written (R294); a domain's step whose link answer is awaited takes effect. -/
def stopCore (s : State) (c : Nat) : State :=
  let s := (List.range 4).foldl (fun s k => discardBack s c k) s
  let s := (List.range 4).foldl (fun s k => streamLand s c k) s
  flushStops ((List.range 8).foldl (fun s d => domAnswer s c d) s) c

/-- A token that a core released and that is not delivered yet. -/
def sentBy (c : Nat) : Packet → Option Token
  | .token t => if t.src = some c then some t else none
  | _ => none
/-- The physical address of a core's slot in a partition's save area, 4 MiB each (R446). -/
def saveSlot (s : State) (p c : Nat) : Nat := bits (partReg s p).save.toNat 47 22 * 2 ^ 22 + c * 2 ^ 22
/-- A core's world goes to its slot of the outgoing partition's save area, with its tokens on their way (R294). -/
def saveCore (s : State) (p c : Nat) : State :=
  let s := stopCore s c
  let co := s.core c
  let now := coreCclk s c
  let img : Core := { co with cycBase := now - co.cycBase, tlb := [], gateReq := [], gated := [], gateHeld := [], xl := []
                              sent := s.net.filterMap (sentBy c) }
  let words := savedWords s c
  let s := { s with net := s.net.filter fun q => (sentBy c q).isNone }
  let s := llcRange (addImage s (saveSlot s p c) (2 ^ 22)) (some p) (saveSlot s p c) (2 ^ 22) true
  s.modPkg fun k => { k with saves := ((p, c), img, words) :: k.saves.filter (fun e => e.1 != (p, c))
                             saveTick := ((p, c), now) :: k.saveTick.filter (fun e => e.1 != (p, c)) }

/-! ## Restoring a core (R417) -/

/-- What a core is before any image runs on it. -/
def blankCore (co : Core) : Core :=
  { mapped := co.mapped, broken := co.broken, ser := co.ser, tlb := co.tlb, hctl := co.hctl }

/-- The times that stood still while a world was away: `d` cclk up to `now`; a domain's first step comes D cclk after the restart
(R320), a stream asks for its translation again (R294), a stopped product goes on as one that continues (R271). -/
def laterCore (co : Core) (d now : Nat) : Core :=
  let sec := fun (x : Section) => { x with start := x.start.map (· + d) }
  { co with
    tq := co.tq.map fun r => { r with entered := r.entered + d }
    secs := co.secs.map sec
    ckpts := co.ckpts.map fun k => { k with since := k.since + d, sec := sec k.sec }
    dda := { co.dda with
      doms := co.dda.doms.map fun e => (e.1, if e.2.run then { e.2 with next := now + e.2.d, fwait := false } else e.2)
      inc := co.dda.inc.map fun x => { x with due := x.due + d } }
    streams := co.streams.map fun e => (e.1, { e.2 with cur := e.2.cur.map fun r => { r with waitWalk := none } })
    mat := co.mat.map fun r => { r with till := none, waitW := none }
    engFree := co.engFree.map fun e => (e.1, e.2 + d)
    cycBase := now - co.cycBase, busy := 4 }

/-- The code of a saved world's image, reloaded by phase 1 (R417): none when the image does not load. -/
def reloadCode (s : State) (c : Nat) (co : Core) : Option State :=
  if co.image = [] then some s
  else
    let (b, err) := imgBytes s (bits (recAt co.image 0) 47 0) (bits (recAt co.image 1) 31 0)
    let m := imgOf b
    if err ∨ (imgFail m (recAt co.image 3)).isSome then none else some (putCode s c co.half m)

/-- The incoming partition's world comes to a core: answers whether its image failed to load. -/
def restoreCore (s : State) (p c : Nat) : State × Bool :=
  let here := fun (k : Nat) => decide (localKey c 0 ≤ k ∧ k < localKey (c + 1) 0)
  let gone := fun (k : Nat) => here k || (decide (2 ^ 51 ≤ k ∧ k < 2 ^ 52) && here ((k - 2 ^ 51) * 8))
  let s := s.setMem (memWithout s.mem gone)
  let co := s.core c
  let now := coreCclk s c
  match s.pkg.saves.find? (·.1 == (p, c)) with
  | none => (s.setCore c { blankCore co with cycBase := now }, false)
  | some (_, img, words) =>
    let s := llcRange s (some p) (saveSlot s p c) (2 ^ 22) false
    let toks := img.sent.map Packet.token
    let since := match s.pkg.saveTick.find? (·.1 == (p, c)) with | some e => e.2 | none => now
    let s := words.foldl (fun s (e : Nat × TWord) => s.setMem (putWord s.mem (wordKey c e.1) e.2)) s
    let img := { laterCore img (now - since) now with
      mapped := co.mapped, broken := co.broken, ser := max co.ser img.ser, tlb := co.tlb, hctl := co.hctl, sent := [] }
    let s := { s with net := s.net ++ toks }
    match reloadCode s c img with
    | some s => (s.setCore c img, false)
    | none => (s.setCore c { img with mode := 1 }, true)

/-! ## The end of a slice (R446) -/

def slicedDies (s : State) : List Nat := (List.range Config.numDies).filter (timeSliced s)
/-- The partition after p among those that list a die. -/
def nextOwner (s : State) (d : Nat) : Option Nat :=
  let l := owners s d
  match (s.die d).slice with
  | some p => (match l.find? (fun q => decide (q > p)) with | some q => some q | none => l.head?)
  | none => l.head?

/-- The dies that a packet concerns: of its cores, and of its home. -/
def packetDies : Packet → List Nat
  | .access a => coreDie a.core :: (homeDie a.loc.key).toList
  | .group d g => d :: g.map fun a => coreDie a.core
  | .loadRet r => [coreDie r.a.core]
  | .take t => coreDie t.core :: (homeDie t.loc.key).toList
  | .takeAns t => [coreDie t.core]
  | .token t => coreDie (fpCore t.fp) :: (t.src.map coreDie).toList
  | .release r => coreDie r.core :: match r.i with | .ffree _ => [coreDie (fpCore (opNat r 0))] | _ => []
  | .activate fp _ _ parent => [coreDie (fpCore fp), coreDie (fpCore parent)]
  | .falloc r => [coreDie r.core, coreDie r.near]
  | .fstat c _ _ fp => [coreDie c, coreDie (fpCore fp)]
  | .result d c .. => [d, coreDie c]
  | .wake d fp => [d, coreDie (fpCore fp)]
/-- The matrix engine of a core holds no command, or a product that stands between two slabs (R416). -/
def matStops (s : State) (c : Nat) : Bool := match (s.core c).mat with | some r => matAtSlab r (coreCclk s c) | none => true
/-- A slice has ended and its switch is awaited: no vector or matrix command starts on these dies (R223). -/
def sliceDue (s : State) : Bool := decide (slicedDies s ≠ []) && decide (s.pkg.sliceEnd ≤ s.tick)
/-- Nothing but their own tokens is on its way for the cores of the time-sliced dies, no commit of theirs stands among its steps,
no vector command of theirs runs and none of the matrix engine but a product between two slabs, no launch of theirs is in phase 2: the moment at which a switch may come. (DEDUCED, log 74) -/
def sliceReady (s : State) : Bool :=
  let on := timeSliced s
  let away := fun (q : Packet) => match q with
    | .token t => (match t.src with | some c => on (coreDie c) | none => false) || !(packetDies q).any on
    | q => !(packetDies q).any on
  sliceDue s && s.net.all away && !s.pkg.pod.outs.any (fun o => on (coreDie o.core)) && !s.pkg.pod.colls.any (fun k => on (coreDie k.rel.core))
    && s.cores.all (fun (e : Nat × Core) => !on (coreDie e.1) || (!commitBusy e.2 && e.2.gateHeld == [] && e.2.vec.isNone && matStops s e.1 && !e.2.devWait))
    && (List.range 16).all fun p => (launchOf s p).phase != 3 || !(regionOf (launchOf s p).words).dies.any on

/-- One die goes over to its next partition. -/
def sliceDie (s : State) (d : Nat) : State :=
  match (s.die d).slice, nextOwner s d with
  | some p, some q =>
    let cores := ((List.range 128).map (coreId d)).filter (corePresent s)
    let s := cores.foldl (fun s c => saveCore s p c) s
    let s := s.modDie d fun di => { di with slice := some q }
    let (s, bad) := cores.foldl (fun (a : State × Bool) c => let (s, b) := restoreCore a.1 q c; (s, a.2 || b)) (s, false)
    let l := launchOf s q
    if bad then
      let seq := match l.last with | some n => n | none => 0
      launchEnd s q seq 0 stLoadErr d 0
    else s
  | none, some q => s.modDie d fun di => { di with slice := some q }
  | _, none => s

/-- SLICE_END: every time-sliced die switches; the next slice starts; event 0x0C names the incoming partitions; loading goes
on, or starts again (R446). -/
def endSlice (s : State) : State :=
  let ds := slicedDies s
  let again := fun (l : Launch) => if l.phase = 2 ∧ !(regionOf l.words).dies.all (fun d => !timeSliced s d) then { l with phase := 1 } else l
  let s := s.modPkg fun k => { k with launches := k.launches.map fun e => (e.1, again e.2) }
  let s := ds.foldl sliceDie s
  let s := s.modPkg fun k => { k with sliceEnd := s.tick + bits k.quantum.toNat 39 0 }
  let s := (List.range 16).foldl (fun s q =>
    match ds.find? (fun d => (s.die d).slice == some q) with
    | some d => dieEvent s d 0 0x0C q noIdx
    | none => s) s
  (List.range 16).foldl againPhase1 s
def execSliceEnd (s : State) : Host.Outcome State Fault Refusal :=
  match s.focus with
  | .event .sliceEnd => if sliceReady s then .next (endSlice s) else .refused .notEnabled
  | _ => .refused .notEnabled

/-- After a change of the partitions: a die that is not time-sliced runs its owner; one that now is keeps the partition that
ran on it, or starts with its first; a first time-sliced die starts the slices. -/
def settleSlices (s : State) (had : Bool) : State :=
  let s := (List.range Config.numDies).foldl (fun s d =>
    let l := owners s d
    let keep := match (s.die d).slice with | some p => l.contains p | none => false
    if keep then s
    else if (s.die d).slice = l.head? then s
    else s.modDie d fun di => { di with slice := l.head? }) s
  if !had && slicedDies s != [] then s.modPkg fun k => { k with sliceEnd := s.tick + bits k.quantum.toNat 39 0 } else s

end Sys2Proof.Machine
end

