-- ==== Sys2Proof/Machine/Package.lean ====
section
/-! DEFINITION. The package: its registers, the link address space, the host's control of cores, partitions, power, errors and
service, firmware and attestation (R440 to R458), and registers without a row of their own (R13). -/

namespace Sys2Proof.Machine

/-! ## Package registers (Table 21.4, R460 to R462) -/

/-- A host store that is not applied (R441). -/
def pkgReject (s : State) : State := s.modPkg fun k => { k with reject := hold (k.reject + 1) 0xFFFF }
/-- PORTn_CTL: PEERHALT follows what the port has seen. -/
def portCtl (x : Port) : Nat := setBits x.ctl.toNat 2 1 (bnat (x.halted != []))

/-- A package register as it reads. A number that no table lists reads zero (R441). -/
def pkgRegRead (s : State) (n : Nat) : Nat :=
  let k := s.pkg
  if n = 0x000 then k.reject * 2 ^ 48 + k.loss * 2 ^ 24 + k.present
  else if n = 0x001 then k.evt.toNat
  else if n = 0x002 then k.quantum.toNat
  else if n = 0x003 then k.pwrCap.toNat
  else if n = 0x004 then k.attest.toNat
  else if n = 0x005 then k.pod.id.toNat
  else if n = 0x006 then k.pod.time.toNat
  else if n = 0x007 then k.pod.ctl.toNat
  else if 0x008 ≤ n ∧ n ≤ 0x00B then (k.portOwn.get (n - 8) 0).toNat
  else if 0x010 ≤ n ∧ n < 0x050 then
    let r := partReg s ((n - 0x10) / 4)
    (match (n - 0x10) % 4 with | 0 => r.ctl | 1 => r.root | 2 => r.save | _ => r.evt).toNat
  else if 0x060 ≤ n ∧ n < 0x080 then portCtl (portReg s (n - 0x60))
  else if 0x080 ≤ n ∧ n < 0x090 then (partReg s (n - 0x80)).podp.toNat
  else 0
/-- RC fields clear when the host reads them (R442). -/
def pkgRegClear (s : State) (n : Nat) : State :=
  if n = 0x000 then s.modPkg fun k => { k with reject := 0 }
  else if 0x060 ≤ n ∧ n < 0x080 then
    let x := portReg s (n - 0x60)
    setPort s (n - 0x60) { x with ctl := BitVec.ofNat 64 (setBits x.ctl.toNat 24 16 0) }
  else s

/-- Does a value set a reserved bit of a package register? -/
def pkgReserved (n v : Nat) : Bool :=
  let evt := bits v 62 52 != 0 || bits v 6 0 != 0
  if n = 0x001 then evt
  else if n = 0x002 then decide (v ≥ 2 ^ 40)
  else if n = 0x003 then decide (v ≥ 2 ^ 13)
  else if n = 0x004 then bits v 62 48 != 0 || bits v 10 0 != 0
  else if n = 0x005 then bits v 62 10 != 0
  else if n = 0x006 then bits v 61 32 != 0
  else if n = 0x007 then bits v 62 21 != 0 || bits v 15 10 != 0
  else if 0x008 ≤ n ∧ n ≤ 0x00B then (List.range 8).any fun i => bits v (8 * i + 6) (8 * i + 4) != 0
  else if 0x010 ≤ n ∧ n < 0x050 then
    (match (n - 0x10) % 4 with
      | 0 => bits v 62 24 != 0
      | 1 => decide (v ≥ 2 ^ 48) || bits v 11 0 != 0
      | 2 => decide (v ≥ 2 ^ 48) || bits v 21 0 != 0
      | _ => evt)
  else if 0x060 ≤ n ∧ n < 0x080 then bits v 60 40 != 0 || bits v 23 3 != 0
  else if 0x080 ≤ n ∧ n < 0x090 then bits v 62 48 != 0 || bit v 11
  else false

/-- An event line lies in the host's range (R445). -/
def evtBad (v : Nat) : Bool := bit v 63 && bits v 47 46 != 1
def setPart (s : State) (k : Nat) (f : PartReg → PartReg) : State :=
  s.modPkg fun p => { p with parts := p.parts.put k (f (partReg s k)) }

/-- A store of a package register whose reserved bits are zero (R445, R452, R458, R460 to R462). -/
def pkgRegStore (s : State) (n : Nat) (v : BitVec 64) : State :=
  let w := v.toNat
  if n = 0x001 then (if evtBad w then pkgReject s else s.modPkg fun k => { k with evt := v })
  else if n = 0x002 then (if w < 100000 then pkgReject s else s.modPkg fun k => { k with quantum := v })
  else if n = 0x003 then (if w < 1000 ∨ w > 7200 then pkgReject s else s.modPkg fun k => { k with pwrCap := v })
  else if n = 0x004 then
    if bit s.pkg.attest.toNat 63 then pkgReject s
    else
      let s := s.modPkg fun k => { k with attest := v }
      if bit w 63 then s.raise .attestReport else s
  else if n = 0x005 then
    let old := s.pkg.pod.id.toNat
    let no := if bit old 63 then bits old 9 0 else bits w 9 0
    s.modPod fun p => { p with id := BitVec.ofNat 64 (w / 2 ^ 63 * 2 ^ 63 + no), joined := p.joined && bit w 63 }
  else if n = 0x006 then s.modPod fun p => { p with time := BitVec.ofNat 64 (setBits p.time.toNat 62 1 (w / 2 ^ 62)) }
  else if n = 0x007 then
    if bits w 20 16 < 16 ∨ bits w 20 16 > 34 then pkgReject s
    else
      let was := bit s.pkg.pod.ctl.toNat 63
      let s := s.modPod fun p => { p with ctl := v }
      if was = bit w 63 then s else s.raise (.podDebugHalt (bit w 63))
  else if 0x008 ≤ n ∧ n ≤ 0x00B then s.modPkg fun k => { k with portOwn := k.portOwn.put (n - 8) v }
  else if 0x010 ≤ n ∧ n < 0x050 then
    let k := (n - 0x10) / 4
    (match (n - 0x10) % 4 with
      | 0 => s.raise (.partCtlWrite k v)
      | 1 => setPart s k fun r => { r with root := v }
      | 2 => setPart s k fun r => { r with save := v }
      | _ => if evtBad w then pkgReject s else setPart s k fun r => { r with evt := v })
  else if 0x060 ≤ n ∧ n < 0x080 then
    let x := portReg s (n - 0x60)
    let old := x.ctl.toNat
    if bit old 63 ∧ bits old 62 61 ≠ bits w 62 61 then pkgReject s
    else setPort s (n - 0x60) { x with ctl := BitVec.ofNat 64 (w / 2 ^ 61 * 2 ^ 61 + old % 2 ^ 61) }
  else if 0x080 ≤ n ∧ n < 0x090 then setPart s (n - 0x80) fun r => { r with podp := v }
  else s

/-- A store of a package register by the host (R13, R441). (DEDUCED, log 75) -/
def pkgStore (s : State) (n : Nat) (v : BitVec 64) : State :=
  if pkgReserved n v.toNat then pkgReject s else pkgRegStore s n v

/-! ## PART_CTL_WRITE (R445) -/

/-- A core of a die holds a frame of a partition, running there or in a saved world. -/
def holdsFrames (s : State) (p d : Nat) : Bool :=
  (diePart s d == some p && s.cores.any fun (e : Nat × Core) => coreDie e.1 == d && e.2.frames != [])
    || s.pkg.saves.any fun e => e.1.1 == p && coreDie e.1.2 == d && e.2.1.frames != []
/-- Does a store remove a die that holds frames of the partition? -/
def partKeeps (s : State) (k : Nat) (v : BitVec 64) : Bool :=
  (List.range Config.numDies).any fun d => partLists s k d && !(bit v.toNat 63 && bit v.toNat d) && holdsFrames s k d
def partCtlStore (s : State) (k : Nat) (v : BitVec 64) : State :=
  if partKeeps s k v then pkgReject s
  else
    let had := slicedDies s != []
    settleSlices (setPart s k fun r => { r with ctl := v }) had
def execPartCtlWrite (s : State) : Host.Outcome State Fault Refusal :=
  match s.focus with
  | .event (.partCtlWrite k v) => .next (partCtlStore s k v)
  | _ => noEvent

/-! ## Control of cores (R444) -/

/-- A core is mapped out: its frames are lost, with all that it held. MAPOUT is then a completed service action (R455). -/
def mapOutCore (s : State) (c : Nat) : State :=
  let s := (s.core c).frames.foldl (fun s h => endReservations (dropWaiters s (mkFp c h)) (mkFp c h)) s
  let co := s.core c
  let s := s.setCore c { ser := co.ser, hctl := co.hctl, broken := co.broken, evsel := co.evsel, cycBase := coreCclk s c, mapped := false, mode := 1 }
  if co.broken then s else dieEvent s (coreDie c) c 0x0E (Config.serviceCode 2).toNat noIdx
/-- STOP acts as HALT: no new firing, and HALTED when the resident ones have ended (R193). -/
def stopRun (s : State) (c : Nat) : State :=
  s.modCore c fun co => if co.mode = 0 ∨ co.mode = 3 then { co with halting := true } else co
/-- RESTART. -/
def restartCore (s : State) (c : Nat) : State :=
  let co := s.core c
  match co.mode with
  | 0 => s
  | 2 =>
    let s := match co.dfault with | some fp => if frameAlloc s fp then freeFrame s fp else s | none => s
    s.modCore c fun co => { co with mode := 0, dfault := none }
  | _ => s.setCore c { co with mode := 0 }

def execHctlRestart (s : State) : Host.Outcome State Fault Refusal :=
  match s.focus with
  | .event (.hctlRestart c) => .next (restartCore s c)
  | _ => noEvent
def execHctlStop (s : State) : Host.Outcome State Fault Refusal :=
  match s.focus with
  | .event (.hctlStop c) => .next (stopRun s c)
  | _ => noEvent
/-- A core that MAPOUT stopped has no resident firing any more. -/
def mayLeave (co : Core) : Bool := co.leaving && !co.halting && co.slots.all (·.isNone)
/-- MAPOUT: a stop, and the core is mapped out when its residents have ended. -/
def leaveCore (s : State) (c : Nat) : State := (stopRun s c).modCore c fun co => { co with leaving := true }
def execHctlMapout (s : State) : Host.Outcome State Fault Refusal :=
  match s.focus with
  | .event (.hctlMapout c) =>
    .next (if mayLeave (s.core c) then mapOutCore s c else if (s.core c).mapped then leaveCore s c else s)
  | _ => noEvent
/-- MAPIN: a mapped-out core without a lasting fault returns halted, with no image. -/
def mapInCore (s : State) (c : Nat) : State :=
  let co := s.core c
  if co.mapped ∨ co.broken then s
  else dieEvent (s.setCore c { ser := co.ser, hctl := co.hctl, cycBase := coreCclk s c, mode := 1 }) (coreDie c) c 0x0E
    (Config.serviceCode 3).toNat noIdx
def execHctlMapin (s : State) : Host.Outcome State Fault Refusal :=
  match s.focus with
  | .event (.hctlMapin c) => .next (mapInCore s c)
  | _ => noEvent

/-- The event of a CORE_HCTL store. (DEDUCED, log 76) -/
def hctlStore (s : State) (c : Nat) (v : BitVec 64) : State :=
  if v.toNat ≥ 5 then pkgReject s
  else
    let s := s.modCore c fun co => { co with hctl := v }
    match v.toNat with
    | 1 => s.raise (.hctlRestart c)
    | 2 => s.raise (.hctlStop c)
    | 3 => s.raise (.hctlMapout c)
    | 4 => s.raise (.hctlMapin c)
    | _ => s

/-! ## REGISTER_WRITE (R13) -/

/-- A store of a core's register by the host (R442, R444): reserved bits reject it. -/
def coreStore (s : State) (c n : Nat) (v : BitVec 64) : State :=
  if coreReserved n v.toNat then pkgReject s
  else match n with
    | 0x10 => s.raise (.tqBaseWrite c v)
    | 0x30 => s.raise (.evselWrite c v)
    | 0x09 =>
      let fp := v.toNat % 2 ^ 32
      let s := s.modCore c fun co => { co with frameCtl := v }
      (match bits v.toNat 34 32 with
        | 0 => s.raise (.frameCtlRerun c fp) | 1 => s.raise (.frameCtlResume c fp) | _ => s.raise (.frameCtlFree c fp))
    | _ => coreRegWrite s c n v
def registerStore (s : State) (r : RegDst) (v : BitVec 64) : State :=
  match r with
  | .core c n => coreStore s c n v
  | .die d n => dieRegStore s d n v
  | .pkg n => pkgStore s n v
def execRegisterWrite (s : State) : Host.Outcome State Fault Refusal :=
  match s.focus with
  | .event (.registerWrite r v) => .next (registerStore s r v)
  | _ => noEvent

/-! ## The link address space (R441, R442) -/

/-- What a link address names (Table 21.1): the register forms with the byte in the register. -/
inductive La where
  | phys (p : Nat)
  | pkg (n o : Nat)
  | core (c n o : Nat)
  | log (d r o : Nat)
  | cert (o : Nat)
  | none
deriving DecidableEq, Repr

def laOf (la : Nat) : La :=
  let pkg := 0x1000000000000
  let cores := pkg + 0x10000
  let log := 0x1000100000000
  let cert := 0x1000200000000
  if la < 0x400000000000 then .phys la
  else if la < pkg then .none
  else if la < cores then .pkg ((la - pkg) / 8) (la % 8)
  else if la < cores + 3072 * 0x10000 then
    .core ((la - cores) / 0x10000) ((la - cores) % 0x10000 / 8) (la % 8)
  else if log ≤ la ∧ la < log + 24 * 0x80000 then .log ((la - log) / 0x80000) ((la - log) % 0x80000 / 128) (la % 128)
  else if cert ≤ la ∧ la < cert + 4096 then .cert (la - cert)
  else .none

/-- Bytes of a register that a narrower read returns. -/
def cutReg (v o n : Nat) : Nat := v / 256 ^ o % 256 ^ min n (8 - o)
/-- A fault log record's byte; a record not written yet reads zero. -/
def logByte (s : State) (d r o : Nat) : Nat :=
  let ws := (s.die d).log.get r []
  (nthD ws (o / 8) 0).toNat / 256 ^ (o % 8) % 256

/-- A host read of n bytes: the state after RC fields cleared and read counts fell, the value, and whether it is an error token
(R355, R359). -/
def hostLoad (s : State) (la n : Nat) : State × Nat × Bool :=
  match laOf la with
  | .phys p =>
    (match physKind s p with
      | .dram d => ((llcRead s (diePart s d) p 0).1, physRead s p n s.tick)
      | .reg d r => (dieRegClear s d r, cutReg (dieRegRead s d r) (p % 8) n, false)
      | _ => (s, 0, false))
  | .pkg k o => (pkgRegClear s k, cutReg (pkgRegRead s k) o n, false)
  | .core c k o =>
    if !corePresent s c ∧ k ≠ 0x100 then (s, 0, false)
    else if k = 0x100 then (s, cutReg (s.core c).hctl.toNat o n, false)
    else if k < 0x100 then
      let v := coreRegRead s c k
      (if rcReg k then rcClear s c k (BitVec.ofNat 64 v) else s, cutReg v o n, false)
    else (s, 0, false)
  | .log d r o => (s, leNat ((List.range n).map fun k => logByte s d r (o + k)), false)
  | .cert o => (s, leNat ((List.range n).map fun k => (Config.certificate (o + k)).toNat), false)
  | .none => (s, 0, false)

/-- HOST_READ: the value stands in `reply`. -/
def execHostRead (s : State) : Host.Outcome State Fault Refusal :=
  match s.focus with
  | .event (.hostRead la n) => let (s, v, x) := hostLoad s la n; .next { s with reply := some (BitVec.ofNat 64 v), replyErr := x }
  | .event (.hostLine p w none) =>
    let w := getWord s.mem (lineKey p w)
    .next { s with reply := some w.d, replyErr := w.x }
  | _ => noEvent

/-- A host write of n bytes. -/
def hostStore (s : State) (la n : Nat) (v : BitVec 64) : State :=
  match laOf la with
  | .phys p =>
    (match physKind s p with
      | .dram d => llcWrite (physWrite s p v.toNat n false) (diePart s d) p
      | .reg d r =>
        if n = 8 ∧ p % 8 = 0 then (if dieReserved r v.toNat then pkgReject s else dieRegWrite s d r v) else dieReject s d
      | _ => s)
  | .pkg k o => if n = 8 ∧ o = 0 then s.raise (.registerWrite (.pkg k) v) else pkgReject s
  | .core c k o =>
    if k = 0x100 ∧ n = 8 ∧ o = 0 ∧ diePresent s (coreDie c) then hctlStore s c v
    else if !corePresent s c ∨ k > 0x100 then s
    else if n = 8 ∧ o = 0 then s.raise (.registerWrite (.core c k) v)
    else pkgReject s
  | _ => s
/-- A host write of a launch line's word; a write of word 0 with GO and a new SEQ is a launch (R399). (DEDUCED, log 66) -/
def hostLineStore (s : State) (p w : Nat) (v : BitVec 64) : State :=
  let s := linePut s p w v.toNat
  if w = 0 ∧ bit v.toNat 63 ∧ (launchOf s p).last ≠ some (v.toNat % 2 ^ 32) then s.raise (.launchAccept p) else s
/-- The host writes n bytes of its own memory, which the device sees from then on (R442). -/
def hostMemory (s : State) (a n : Nat) (v : BitVec 64) : State :=
  if physKind s a = .host ∧ physKind s (a + n - 1) = .host then s.setMem (memPut s.mem a v.toNat n) else s
/-- HOST_WRITE. -/
def execHostWrite (s : State) : Host.Outcome State Fault Refusal :=
  match s.focus with
  | .event (.hostMemory a n v) => .next (hostMemory s a n v)
  | .event (.hostWrite la n v) => .next (hostStore s la n v)
  | .event (.hostLine p w (some v)) => .next (if p < 16 ∧ w < 64 then hostLineStore s p w v else s)
  | _ => noEvent

/-! ## Power (R452) -/

def ThrottleCause.code : ThrottleCause → Nat | .thermal => 0 | .current => 1 | .droop => 2 | .budget => 3
/-- One change of a setting, with its THROTTLE record; a change of cclk makes the next record an ABS of cause 3. -/
def throttleOne (s : State) (d : Nat) (cause : ThrottleCause) (f : Die → Die) (clock : Bool) : State :=
  let s := s.modDie d f
  let di := s.die d
  let s := traceRec s d 0 4 cause.code (di.mhz + di.mv % 2 ^ 16 * 2 ^ 16 + di.limit * 2 ^ 32)
  if clock then s.modDie d fun di => { di with trace := { di.trace with abs := some 3 } } else s
/-- THROTTLE_CHANGE: the settings change one at a time. -/
def throttle (s : State) (d : Nat) (cause : ThrottleCause) (mhz mv limit : Nat) : State :=
  let s := if (s.die d).mhz = mhz then s else throttleOne s d cause (fun di => { di with mhz }) true
  let s := if (s.die d).mv = mv then s else throttleOne s d cause (fun di => { di with mv }) false
  if (s.die d).limit = limit then s else throttleOne s d cause (fun di => { di with limit }) false
/-- The settings that a controller may choose. -/
def settingOk (mhz mv limit : Nat) : Bool :=
  decide (350 ≤ mhz ∧ mhz ≤ 1050 ∧ mhz % 35 = 0 ∧ mv < 65536) && (limit == 1 || limit == 2)
def execThrottleChange (s : State) : Host.Outcome State Fault Refusal :=
  match s.focus with
  | .event (.throttleChange d cause mhz mv limit) => if settingOk mhz mv limit then .next (throttle s d cause mhz mv limit) else noEvent
  | _ => noEvent

/-! ## Errors, service, fatal loss (R454 to R456) -/

/-- The row of Table 21.8, the die and the core of a part. -/
def Part.code : Part → Nat
  | .coreRow .. | .storeRow .. => 0 | .coreLogic .. => 1 | .commonsRow .. | .llcRow .. => 2 | .lane .. => 3 | .dramRow .. | .staging .. => 4
/-- The place of an error in its part, for the log record. -/
def Part.detail : Part → List (BitVec 64)
  | .storeRow _ _ w => [BitVec.ofNat 64 (4 * w)]
  | .dramRow d off | .llcRow d off => [BitVec.ofNat 64 (d * 2 ^ 37 + off)]
  | _ => []
def Part.place : Part → Nat × Nat
  | .coreRow c _ | .coreLogic c _ | .storeRow c .. => (coreDie c, c % 128)
  | .commonsRow d _ | .llcRow d _ | .lane d _ | .dramRow d _ | .staging _ d _ => (d, 0)
/-- A tagged word is in error. -/
def spoilWord (s : State) (key : Nat) : State :=
  let s := awake s key
  s.setMem (putWord s.mem key ⟨0, keyF s.mem key, true⟩)
/-- A shadow store in error ends the launch that loads it, before its phase 2 (R402). -/
def abortShadow (s : State) (c : Nat) : State :=
  match (List.range 16).find? fun p => ((launchOf s p).phase == 1 || (launchOf s p).phase == 2) && (launchOf s p).cores.contains c with
  | some p => closeLaunch s p stLoadErr (coreDie c)
  | none => s
/-- A core with a lasting fault and no spare is mapped out as MAPOUT does. -/
def loseCore (s : State) (c : Nat) : State := leaveCore (s.modCore c fun co => { co with broken := true }) c
/-- What a lasting fault leaves; `spare`: a spare takes the part's place (Table 21.8). -/
def lasting (s : State) (p : Part) (spare : Bool) : State :=
  match p with
  | .coreRow c w => if spare then spoilWord s (wordKey c w) else loseCore (spoilWord s (wordKey c w)) c
  | .storeRow c half w =>
    let s := s.modCore c fun co => { co with badCode := (half, w) :: co.badCode }
    let s := if half = (s.core c).half then s else abortShadow s c
    if spare then s else loseCore s c
  | .staging p d w =>
    let l := launchOf s p
    if l.phase = 1 then closeLaunch s p stLoadErr d else if l.phase = 2 then setLaunch s p { l with bad := (d, w) :: l.bad } else s
  | .coreLogic c _ => loseCore s c
  | .commonsRow d off => let key := commonsKey d (off / 8 * 8); lastingError (awake s key) d key spare
  | .llcRow d off =>
    let pa := d * 2 ^ 37 + off
    let s := s.setMem (setPoison s.mem pa true)
    if spare then s else s.modDie d fun di =>
      let di := { di with waysOff := di.waysOff + 1 }
      { di with lines := (di.lines.filter (·.line != pa / 512)).take (llcCap di) }
  | .lane a b => if spare then s else s.modPkg fun k => { k with lanes := (a, b) :: k.lanes }
  | .dramRow d off => lastingError s d (d * 2 ^ 37 + off) spare
/-- ERROR_RETRY: a retry of core logic discards the firing, to run again (R127); a retry that succeeds shows nothing else; one
that fails is LASTING. (DESIGN CHOICE, log 22) -/
def errorRetry (s : State) (p : Part) (succeeds : Bool) : State :=
  let s := match p with | .coreLogic c k => discardBack s c k | _ => s
  if succeeds then s
  else
    let (d, c) := p.place
    let s := lastingRec s d c p.code p.detail
    lasting { s with draws := s.draws + 1 } p (Config.spareLeft s.draws)
def execErrorRetry (s : State) : Host.Outcome State Fault Refusal :=
  match s.focus with
  | .event (.errorRetry p ok) => .next (errorRetry s p ok)
  | _ => noEvent

/-- Does a byte lie in host memory? -/
def hostKey (k : Nat) : Bool := decide (2 ^ 46 ≤ k ∧ k < 2 ^ 47)
/-- The machine after a restart: every part in its reset state (R249, R297, R335), except time, presence, what is mapped out,
what lasting faults took away (R454), the fault logs, non-volatile storage, the firmware, and host memory, which is not the package's. (DEDUCED, log 79) -/
def restart (s : State) : State :=
  let t := s.tick
  let layers := (List.range 4).map fun l => (l, ({ nextRef := t + 256000000, passStart := t } : Layer))
  let die := fun (e : Nat × Die) =>
    (e.1, ({ cclk := e.2.cclk, acc := e.2.acc, mapOut := e.2.mapOut, log := e.2.log, logN := e.2.logN, layers,
             waysOff := e.2.waysOff, dead := e.2.dead } : Die))
  let dies := ((List.range Config.numDies).map fun d => die (d, s.die d))
  let core := fun (e : Nat × Core) =>
    (e.1, ({ mapped := e.2.mapped, broken := e.2.broken, ser := e.2.ser, cycBase := coreCclk s e.1, mode := if e.2.mapped then 0 else 1 } : Core))
  let pod : Pod := { syncNext := t + 62500000, annNext := t + 1000000000, annSeen := t }
  let pkg : Pkg := { present := s.pkg.present, loss := s.pkg.loss, nv := s.pkg.nv, fw := s.pkg.fw, lanes := s.pkg.lanes, pod }
  { mem := s.mem.filter (fun c => hostKey c.1), cores := s.cores.map core, dies, pkg, tick := t, draws := s.draws, mover := s.mover, inbox := s.inbox }
/-- RESET. -/
def execReset (s : State) : Host.Outcome State Fault Refusal :=
  match s.focus with
  | .event .reset => .next (restart s)
  | _ => noEvent

/-- Where a loss lies: die, first byte and length in its stack, the part code of Table 21.8's last row. -/
def DramLoss.range : DramLoss → Nat × Nat × Nat
  | .bank d g => (d, g * 2 ^ 30, 2 ^ 30)
  | .layer d l => (d, l * 2 ^ 35, 2 ^ 35)
/-- FATAL_DRAM_LOSS: every core stops, the loss is logged FATAL and raised on every ring, and the package restarts without
partition state and without the lost range. -/
def fatalLoss (s : State) (x : DramLoss) : State :=
  let (d, base, len) := x.range
  let (s, i) := logRec s d 0x06 0 2 5 [BitVec.ofNat 64 (d * 2 ^ 37 + base)]
  let s := dieEvent s d 0 0x06 5 i
  let s := restart (pkgEvent s 0x0D d 0)
  let s := s.modDie d fun di => { di with mapOut := (base, len) :: di.mapOut }
  s.modPkg fun k => { k with loss := k.loss ||| 2 ^ d }
def execFatalDramLoss (s : State) : Host.Outcome State Fault Refusal :=
  match s.focus with
  | .event (.fatalDramLoss x) => .next (fatalLoss s x)
  | _ => noEvent

/-- A boundary under calibration is mapped out for that time (R440, R455). -/
def boundaryWork (s : State) (a b : Nat) (starts : Bool) : State :=
  if starts then s.modPkg fun k => { k with lanes := (a, b) :: k.lanes }
  else dieEvent (s.modPkg fun k => { k with lanes := dropFirst (fun e => e == (a, b)) k.lanes }) a 0 0x0E (Config.serviceCode 1).toNat noIdx
/-- SERVICE_ACTION: event 0x0E reports the completed action (R455). (DEDUCED, log 80) -/
def execServiceAction (s : State) : Host.Outcome State Fault Refusal :=
  match s.focus with
  | .event (.serviceAction a d) => .next (dieEvent s d 0 0x0E a noIdx)
  | .event (.boundaryService a b starts) => .next (boundaryWork s a b starts)
  | _ => noEvent

/-! ## Firmware and attestation (R457, R458) -/

/-- FIRMWARE_UPDATE: an image is loaded only when its signature verifies, which completes a service action of the package (R455);
else a LOGGED record is written. -/
def execFirmwareUpdate (s : State) : Host.Outcome State Fault Refusal :=
  match s.focus with
  | .event (.firmwareUpdate b) =>
    .next (if Config.verifies b then pkgEvent (s.modPkg fun k => { k with fw := some b }) 0x0E 0 (Config.serviceCode 0).toNat
      else (logRec s 0 0 0 3 0 []).1)
  | _ => noEvent

/-- The running firmware's hash. -/
def fwHash (s : State) : List (BitVec 8) := sha512 (match s.pkg.fw with | some b => b | none => Config.firmware)
/-- A word as eight bytes. -/
def wordBytes (v : Nat) : List (BitVec 8) := (leBytes v 8).map (BitVec.ofNat 8)
/-- Words 0 to 161 of the report (Table 21.9) as bytes. -/
def reportBody (s : State) (buf : Nat) : List (BitVec 8) :=
  let nonce := (List.range 64).map fun k => memGet s.mem (buf + k)
  let part := fun (k : Nat) =>
    let l := launchOf s k
    match l.last with
    | some q => wordBytes q ++ sha512 l.hash
    | none => List.replicate 72 0
  wordBytes 1 ++ nonce ++ fwHash s ++ wordBytes s.tick ++ (List.range 16).flatMap part
/-- ATTEST_REPORT: the report is written from buffer byte 128 on, and GO clears. -/
def attest (s : State) : State :=
  let buf := bits s.pkg.attest.toNat 47 11 * 2048
  let body := reportBody s buf
  let sig := fun (second : Bool) => (List.range 72).map fun k => if k < 66 then Config.sign s.draws body second k else 0
  let bytes := body ++ sig false ++ sig true
  let put := fun (a : List Host.Cell × Nat) (b : BitVec 8) => (memSet a.1 a.2 b, a.2 + 1)
  let s := { s with draws := s.draws + 1 }
  let s := if physKind s buf = .host then s.setMem ((bytes.foldl put (s.mem, buf + 128)).1) else s
  s.modPkg fun k => { k with attest := BitVec.ofNat 64 (k.attest.toNat % 2 ^ 63) }
def execAttestReport (s : State) : Host.Outcome State Fault Refusal :=
  match s.focus with
  | .event .attestReport => if bit s.pkg.attest.toNat 63 then .next (attest s) else noEvent
  | _ => noEvent

end Sys2Proof.Machine
end

