-- ==== Sys2Proof/Machine/Pod.lean ====
section
/-! DEFINITION. The pod (chapter 22): peers, pod commands at the issuing and at the home package, replay filter, tickets and
timeouts, fabric packets, gangs, the time base, debug halt. -/

namespace Sys2Proof.Machine

/-! ## Reasons (Table 22.3) and peers (R461) -/

def pdNoPeer : Nat := 0x31
def pdUnconf : Nat := 0x32
def pdAmbig : Nat := 0x33
def pdBadTicket : Nat := 0x34
def pdMismatch : Nat := 0x35
def pdTimeout : Nat := 0x36
def pdDesc : Nat := 0x39
/-- The completion of a command that does not complete normally (R467). -/
def podErr (reason low : Nat) : Val := ⟨BitVec.ofNat 64 (reason * 2 ^ 56 + low), true⟩

/-- A partition's peer table names a package, of a pod that this package takes part in (R461). -/
def hasPeer (s : State) (p : Option Nat) (no : Nat) : Bool :=
  match p with | some p => podOn s && (peerOf s p no).isSome | none => false
/-- A core of a partition, for the cache's owner tags. -/
def partCore (s : State) (p : Option Nat) : Nat :=
  match allCores.find? (fun c => p.isSome && corePart s c == p) with | some c => c | none => 0

/-! ## GLOBAL memory at the home (R464, R468) -/

/-- The place of a virtual address in a partition, or the REASON of its fault. (DEDUCED, log 81) -/
def podPlace (s : State) (p : Option Nat) (va : Nat) (write : Bool) : Except Nat Loc :=
  match walk s p va with
  | .error r => .error r
  | .ok t => if write && !t.w then .error rsNoWrite else .ok { space := .global, key := t.phys va, va, slot := kvSlotOf s t va }
/-- The first addresses of the 64 KiB granules that a range touches. -/
def granules (a n : Nat) : List Nat :=
  if n = 0 then [] else (List.range ((a + n - 1) / 65536 + 1 - a / 65536)).map fun k => max a ((a / 65536 + k) * 65536)
/-- The walks that a request makes at its home for its granules, up to one that fails: they read the tables through the cache
(R363, R464). (DEDUCED, log 125) -/
def podWalks (s : State) (p : Option Nat) (write : Bool) : List Nat → State
  | [] => s
  | g :: l =>
    let s := walkCache s p (rootOf s p) g
    match podPlace s p g write with | .ok _ => podWalks s p write l | .error _ => s
/-- What a walk has brought to a command of a core for an address. -/
def xlOf (s : State) (c : Nat) (key : PodKey) (a : Nat) : Option PodXl := (s.core c).xl.find? fun x => x.key == key && x.gran == a / 65536
/-- A place on a command's own side, checked as R162 has it: the core's TLBs answer, else the walk made for the command (R364). -/
def localPlace (s : State) (c : Nat) (key : PodKey) (sp : Space) (a size : Nat) (write : Bool) : Except Nat Loc :=
  match checkAddr s { core := c, space := sp, size, write, frame := write } a with
  | .ok l _ => .ok l
  | .trap _ r => .error r
  | .miss =>
    match xlOf s c key a with
    | some { res := some t, .. } =>
      if physKind s (t.phys a) = .none then .error rsNoXlate
      else if write && !t.w then .error rsNoWrite
      else .ok { space := .global, key := t.phys a, va := a, slot := kvSlotOf s t a }
    | some x => .error x.reason
    | none => .error rsNoXlate
/-- The first granule of a range for which a command must wait for a walk (R364). -/
def localMiss (s : State) (c : Nat) (key : PodKey) (sp : Space) (a n : Nat) : Option Nat :=
  match sp with
  | .global => (granules a n).find? fun g =>
      (xlOf s c key g).isNone && (match checkAddr s { core := c, space := sp, size := 1, write := false } g with | .miss => true | _ => false)
  | _ => none
/-- A command has done with what walks brought to it. -/
def dropXl (s : State) (c : Nat) (key : PodKey) : State :=
  s.modCore c fun co => { co with xl := co.xl.filter (·.key != key) }

/-- A store of n bytes for a command, once its gate has been passed: where it went, too. -/
def podStore (s : State) (c : Nat) (loc : Loc) (n : Nat) (v : Val) : State × Loc :=
  let (s, loc) := slotGo (awake s loc.key) loc true
  (locWrite s c loc n v, loc)
/-- A read of n bytes for a command of a core, or for a request at its home. `cnt`: its sector has not been counted (R354). -/
def podLoad (s : State) (c : Option Nat) (part : Option Nat) (cnt : Bool) (loc : Loc) (n : Nat) : State × Val :=
  let (s, loc) := slotGo (awake s loc.key) loc false
  match loc.space, physKind s loc.key with
  | .global, .reg d r => (dieRegClear s d r, Val.ofNat (dieRegRead s d r / 256 ^ (loc.key % 8) % 256 ^ n))
  | .global, _ =>
    let (v, x) := physRead s loc.key n s.tick
    let get := fun (s : State) => match c with | some c => llcCoreRead s c loc.key 0 | none => (llcRead s part loc.key 0).1
    (if cnt then get s else s, ⟨BitVec.ofNat 64 v, x⟩)
  | _, _ => (s, ⟨BitVec.ofNat 64 (memNat s.mem loc.key n), keyX s.mem loc.key⟩)

abbrev PodData := List (BitVec 64 × Bool)
/-- The places of n items of a size from an address on, all of them or the first fault. -/
def places (f : Nat → Except Nat Loc) (a size n : Nat) : Except Nat (List Loc) := (List.range n).mapM fun k => f (a + size * k)
/-- The items at some places, in order; those of one sector that follow each other are one read. (DEDUCED, log 113) -/
def loadAll (s : State) (c : Option Nat) (part : Option Nat) (size : Nat) (ls : List Loc) : State × PodData :=
  let sec := fun (l : Loc) => l.va / 128
  (ls.foldl (fun (r : State × PodData × Option Nat) l =>
    let (s, v) := podLoad r.1 c part (r.2.2 != some (sec l)) l size
    (s, r.2.1 ++ [(v.d, v.x)], some (sec l))) (s, [], none)) |> fun r => (r.1, r.2.1)
/-- The codewords of which n items in a row hold every byte, all without error. -/
def healed (n : Nat) : List (Loc × Bool) → List Nat
  | [] => []
  | e :: l =>
    let cw := (e :: l).take n
    (if e.1.space == .global && e.1.key % 64 == 0 && cw.length == n && cw.all (fun x => !x.2) then [e.1.key] else []) ++ healed n l
/-- Items of a size are written at their places: one in error poisons its codeword, and a codeword that is written whole without
one loses its poison (R167). -/
def storeAll (s : State) (c size : Nat) (ls : List Loc) (d : PodData) : State :=
  let (s, at_) := (ls.zip d).foldl (fun (r : State × List (Loc × Bool)) e =>
    let (s, l) := podStore r.1 c e.1 size ⟨e.2.1, e.2.2⟩
    (s, r.2 ++ [(l, e.2.2)])) (s, [])
  s.setMem ((healed (64 / size) at_).foldl (fun m k => setPoison m k false) s.mem)

/-! ## The line of a slot (R372), and ORD (R471) -/

/-- The source and the core of a request with ORD. -/
def ordKey : Event → Option (Nat × Nat)
  | .podPacketReceive _ _ (.put src _ _ ord _) | .podPacketReceive _ _ (.get src _ _ ord _) => ord.map (src, ·)
  | .podAmoAtHome r => r.ord.map (r.src, ·)
  | _ => none
/-- A request with ORD waits behind an earlier one of its core that is held. -/
def ordWaits (s : State) (e : Event) : Option (Nat × Nat) :=
  if (ordKey e).isNone then none
  else (s.dies.filterMap fun di =>
    ((di.2.kvb.held.takeWhile fun h => h.who != .event e).find? fun h => match h.who with
      | .event x => ordKey x == ordKey e | _ => false).map fun h => (di.1, h.slot)).head?
/-- The places of a request are reached together: it is held as its event, or leaves every line and goes on. (DEDUCED, log 82) -/
def podGate (s : State) (e : Event) (ls : List Loc) (write : Bool) : State × Bool :=
  match ordWaits s e, kvWaits s ls write (.event e) with
  | some (d, slot), _ => (kvHold s d slot write (.event e), false)
  | none, some (d, slot) => (kvHold s d slot write (.event e), false)
  | none, none => (kvLeaveAll s (.event e), true)
/-- A held request of a partition runs again on a port number of its own. -/
def heldPort (p : Option Nat) : Nat := 32 + p.getD 0
/-- Is a slot's line in the way of a read of some places? -/
def lineBusy (s : State) (ls : List Loc) : Bool :=
  ls.any fun l => match l.slot with | some (d, slot) => kvLine s d slot != [] | none => false

/-- POD.PUT performed at its home: none while it is held there, else 0 or the reason of the fault that stopped it. (DEDUCED, log 96) -/
def homePut (s : State) (p : Option Nat) (e : Event) (va : Nat) (d : PodData) : State × Option Nat :=
  let s := podWalks s p true (granules va (8 * d.length))
  match places (fun a => podPlace s p a true) va 8 d.length with
  | .error r => (kvLeaveAll s (.event e), some r)
  | .ok ls => (match podGate s e ls true with
    | (s, false) => (s, none)
    | (s, true) => (storeAll s (partCore s p) 8 ls d, some 0))
/-- POD.GET performed at its home. -/
def homeGet (s : State) (p : Option Nat) (e : Event) (va n : Nat) : State × Option (Nat × PodData) :=
  let s := podWalks s p false (granules va (8 * n))
  match places (fun a => podPlace s p a false) va 8 n with
  | .error r => (kvLeaveAll s (.event e), some (r, []))
  | .ok ls => (match podGate s e ls false with
    | (s, false) => (s, none)
    | (s, true) => let (s, d) := loadAll s none p 8 ls; (s, some (0, d)))
/-- What POD.GET read is written on the issuing side. -/
def getStore (s : State) (c : Nat) (key : PodKey) (e : Event) (sp : Space) (dst : Nat) (full : Bool) (d : PodData) : State × Option Nat :=
  match places (fun a => localPlace s c key sp a 8 true) dst 8 d.length with
  | .error r => (kvLeaveAll s (.event e), some r)
  | .ok ls => (match podGate s e ls true with
    | (s, false) => (s, none)
    | (s, true) =>
      if full && sp != .global then
        ((ls.zip d).foldl (fun s e => writeFull (awake s e.1.key) e.1.key ⟨e.2.1, e.2.2⟩) s, some 0)
      else (storeAll s c 8 ls d, some 0))

/-! ## Atomics at the home (R469, R470) -/

/-- SOP codes with 7 for CAS. -/
def podOp (op : Nat) : Nat := if op = 7 then sopCas else op
/-- What the home answers: a reason, the result, SAT. -/
structure AmoAns where
  reason : Nat
  v : Val
  sat : Bool := false
/-- The atomic applied; none while it is held at its slot (R372). -/
def homeAmo (s : State) (p : Option Nat) (r : PodAmoReq) : State × Option AmoAns :=
  let e := Event.podAmoAtHome r
  let s := podWalks s p true [r.va]
  let fails := fun (reason : Nat) => (kvLeaveAll s (.event e), some ⟨reason, Val.err, false⟩)
  match podPlace s p r.va true with
  | .error x => fails x
  | .ok loc =>
    match physKind s loc.key with
    | .reg _ _ => fails rsNoWrite
    | _ => (match podGate s e [loc] true with
      | (s, false) => (s, none)
      | (s, true) =>
        let (s, loc) := slotGo s loc true
        let (s, v, sat) := amoAt s (partCore s p) loc (podOp r.op) r.w32 r.nat r.b r.c
        (s, some ⟨0, v, sat⟩))

/-- An entry leaves the filter and raises its source's FLOOR. -/
def expireReplay (s : State) (e : Replay) : State :=
  s.modPod fun p => { p with filter := p.filter.filter (fun x => x != e), floors := p.floors.put e.src (max (p.floors.get e.src 0) e.seq) }
/-- The oldest entry of the filter. -/
def oldestReplay (l : List Replay) : Option Replay :=
  l.foldl (fun (m : Option Replay) e => match m with | none => some e | some a => if e.tick < a.tick then some e else some a) none
/-- A source's FLOOR, none while none of its entries has expired. -/
def floorOf (s : State) (src : Nat) : Option Nat := (List.find? (fun (e : Nat × Nat) => e.1 == src) s.pkg.pod.floors).map Prod.snd

/-- The service of an arriving request (R470). -/
def serveAmo (s : State) (p : Option Nat) (r : PodAmoReq) : State × Option AmoAns :=
  match s.pkg.pod.filter.find? (fun e => e.src == r.src && e.seq == r.seq) with
  | some e => (s, some ⟨e.res.1, e.res.2, false⟩)
  | none =>
    if (match floorOf s r.src with | some f => decide (r.seq ≤ f) | none => false) then (s, some ⟨pdAmbig, Val.err, false⟩)
    else match homeAmo s p r with
      | (s, some ⟨0, v, sat⟩) =>
        let s := if s.pkg.pod.filter.length ≥ Config.filterMax then
            (match oldestReplay s.pkg.pod.filter with | some e => expireReplay s e | none => s) else s
        (s.modPod fun y => { y with filter := y.filter ++ [⟨r.src, r.seq, (0, v), s.tick⟩] }, some ⟨0, v, sat⟩)
      | a => a

/-! ## Outstanding commands -/

/-- A completion token to the issuing frame. -/
def podToken (s : State) (o : PodOut) (v : Val) : State :=
  match o.slot with
  | some slot => s.send (.token { fp := o.fp, slot, v, src := some o.core })
  | none => s
def outOf (s : State) (tag : Nat) : Option PodOut := s.pkg.pod.outs.find? (·.tag == tag)
def dropOut (s : State) (tag : Nat) : State := s.modPod fun p => { p with outs := p.outs.filter (·.tag != tag) }

/-- A ticket leaves its core (R470). -/
def freeTicket (s : State) (o : PodOut) : State :=
  match o.ticket with
  | some t => s.modCore o.core fun co => { co with tickets := co.tickets.filter (·.1 != t) }
  | none => s
/-- The answer to an outstanding command. -/
def putDone (s : State) (tag reason : Nat) : State :=
  match outOf s tag with
  | some o =>
    (match o.what with
      | .put len bad => podToken (dropOut s tag) o (if reason = 0 then ⟨BitVec.ofNat 64 len, bad⟩ else podErr reason 0)
      | _ => s)
  | none => s
/-- A GET's answer is written, when its destination is translated (R364); it completes when the write has been performed (R468). -/
def getDone (s : State) (tag reason : Nat) (d : PodData) : State :=
  match outOf s tag with
  | some o =>
    (match o.what with
      | .get dst sp len full =>
        let key := PodKey.get tag
        let e := Event.podPacketReceive (heldPort (corePart s o.core)) true (.getAns tag reason d)
        (match (if reason = 0 then localMiss s o.core key sp dst (8 * d.length) else none) with
          | some va => startWalk (s.modPod fun p => { p with gets := p.gets ++ [(tag, d)] }) o.core va (.pod o.core key va)
          | none =>
            let (s, r) := if reason = 0 then getStore s o.core key e sp dst full d else (s, some reason)
            (match r with
              | none => s
              | some r => podToken (dropXl (dropOut s tag) o.core key) o
                  (if r = 0 then ⟨BitVec.ofNat 64 len, d.any (·.2)⟩ else podErr r 0)))
      | _ => s)
  | none => s
def amoDone (s : State) (tag reason : Nat) (v : Val) (sat : Bool) : State :=
  match outOf s tag with
  | some o =>
    let s := freeTicket (dropOut s tag) o
    let s := if sat then setAstat s o.core flSat else s
    podToken s o (if reason = 0 then v else podErr reason 0)
  | none => s

/-- The partition in which an atomic is served. -/
def amoPart (s : State) (r : PodAmoReq) : Option Nat :=
  match r.port with | some n => portPart s n | none => (match outOf s r.tag with | some o => corePart s o.core | none => none)
/-- POD_AMO_AT_HOME: this package serves an atomic, its own or one that arrived on a port. -/
def amoAtHome (s : State) (r : PodAmoReq) : State :=
  let part := amoPart s r
  match serveAmo s part r, r.port with
  | (s, none), _ => s
  | (s, some x), some _ => podSend s part r.src (.amoAns r.tag x.reason x.v x.sat)
  | (s, some x), none => amoDone s r.tag x.reason x.v x.sat
def execPodAmoAtHome (s : State) : Host.Outcome State Fault Refusal :=
  match s.focus with
  | .event (.podAmoAtHome r) => .next (amoAtHome s r)
  | _ => noEvent
/-- REPLAY_ENTRY_EXPIRY: every entry whose 2^20 ticks are over. -/
def replayDue (s : State) : List Replay := s.pkg.pod.filter.filter fun e => decide (e.tick + 2 ^ 20 ≤ s.tick)
def execReplayEntryExpiry (s : State) : Host.Outcome State Fault Refusal :=
  match s.focus with
  | .event .replayEntryExpiry => .next ((replayDue s).foldl expireReplay s)
  | _ => noEvent

/-! ## Timeouts (R467, R470, R479) -/

def podTmo (s : State) : Nat := bits s.pkg.pod.ctl.toNat 20 16
/-- A package advertises DEBUG_HALT on some port. -/
def pkgHalted (s : State) (no : Nat) : Bool := List.any s.pkg.pod.ports (fun (e : Nat × Port) => e.2.halted.any (·.1 == no))
/-- The oldest ticket goes when all 64 are in use. -/
def newTicket (s : State) (c : Nat) (r : PodAmoReq) : State × Nat :=
  let co := s.core c
  let held := co.tickets
  let full := held.length ≥ 64
  let kept := if full then held.drop 1 else held
  let free := (List.range 64).filter fun t => !(kept.any (·.1 == t))
  let (s, t) := match choose s free with | some x => x | none => (s, 0)
  (s.setCore c { co with tickets := kept ++ [(t, r, true)] }, t)
/-- POD_TIMEOUT: the command ends UNCONFIRMED; an atomic with a completion leaves its exact operation under a ticket. -/
def timeoutOut (s : State) (o : PodOut) : State :=
  let s := dropOut s o.tag
  match o.what, o.slot, o.ticket with
  | .amo _, _, some t => podToken s o (podErr pdUnconf t)
  | .amo r, some _, none => let (s, t) := newTicket s o.core r; podToken s o (podErr pdUnconf t)
  | _, _, _ => podToken s o (podErr pdUnconf 0)
def execPodTimeout (s : State) : Host.Outcome State Fault Refusal :=
  match s.focus with
  | .event (.podTimeout tag) => (match outOf s tag with | some o => .next (timeoutOut s o) | none => noEvent)
  | _ => noEvent

/-! ## Issuing commands (R464 to R471) -/

/-- A command enters the outstanding ones; its tag is new. -/
def podOut (s : State) (r : Released) (home : Nat) (what : PodWait) (ticket : Option Nat) : State × Nat :=
  let tag := s.pkg.pod.tags
  let slot := r.i.shape.slots.head?.map BitVec.toNat
  (s.modPod fun p => { p with tags := tag + 1
                              outs := p.outs ++ [{ tag, core := r.core, fp := r.fp, slot, home, age := 0, what, ticket }] }, tag)
def remoteHome (a : Nat) : Nat := bits a 63 54
def remoteVa (a : Nat) : Nat := a % 2 ^ 48
/-- The home can be reached: it is this package, or a peer. -/
def reaches (s : State) (r : Released) (home : Nat) : Bool := home == pkgNo s || hasPeer s (corePart s r.core) home

/-- A PUT at its home, of this package or of another. -/
def servePut (s : State) (p : Option Nat) (src tag va : Nat) (ord : Option Nat) (d : PodData) : State :=
  match homePut s p (.podPacketReceive (heldPort p) true (.put src tag va ord d)) va d with
  | (s, none) => s
  | (s, some e) => if src = pkgNo s then putDone s tag e else podSend s p src (.putAns tag e)
/-- A GET at its home. -/
def serveGet (s : State) (p : Option Nat) (src tag va : Nat) (ord : Option Nat) (n : Nat) : State :=
  match homeGet s p (.podPacketReceive (heldPort p) true (.get src tag va ord n)) va n with
  | (s, none) => s
  | (s, some (e, d)) => if src = pkgNo s then getDone s tag e d else podSend s p src (.getAns tag e d)
/-- The issuing core of a command with ORD. -/
def ordOf (r : Released) (ord : Bool) : Option Nat := if ord then some r.core else none

def issuePut (s : State) (r : Released) (ord : Bool) (sp : Space) : State :=
  let a := opNat r 0
  let len := opNat r 2
  let home := remoteHome a
  if !reaches s r home then sendDone s r (podErr pdNoPeer 0)
  else match places (fun x => localPlace s r.core (.cmd r.num) sp x 8 false) (opNat r 1) 8 (len / 8) with
    | .error e => sendDone (dropXl s r.core (.cmd r.num)) r (podErr e 0)
    | .ok ls =>
      let (s, d) := loadAll (dropXl s r.core (.cmd r.num)) (some r.core) (corePart s r.core) 8 ls
      let bad := d.any (·.2)
      let (s, tag) := podOut s r home (.put len bad) none
      let part := corePart s r.core
      if home = pkgNo s then servePut s part (pkgNo s) tag (remoteVa a) (ordOf r ord) d
      else podSend s part home (.put (pkgNo s) tag (remoteVa a) (ordOf r ord) d)
def issueGet (s : State) (r : Released) (ord full : Bool) (sp : Space) : State :=
  let a := opNat r 0
  let len := opNat r 2
  let home := remoteHome a
  if !reaches s r home then sendDone s r (podErr pdNoPeer 0)
  else
    let (s, tag) := podOut s r home (.get (opNat r 1) sp len full) none
    let part := corePart s r.core
    if home = pkgNo s then serveGet s part (pkgNo s) tag (remoteVa a) (ordOf r ord) (len / 8)
    else podSend s part home (.get (pkgNo s) tag (remoteVa a) (ordOf r ord) (len / 8))
/-- An atomic's request leaves, or reaches its home here. -/
def sendAmo (s : State) (part : Option Nat) (home : Nat) (q : PodAmoReq) : State :=
  if home = pkgNo s then s.raise (.podAmoAtHome q)
  else podSend s part home (.amo q.src q.tag q.seq q.op q.w32 q.nat q.va q.ord q.b q.c)
def issueAmo (s : State) (r : Released) (ord : Bool) (op : Nat) (w32 nat : Bool) : State :=
  let a := opNat r 0
  let home := remoteHome a
  if !reaches s r home then sendDone s r (podErr pdNoPeer 0)
  else
    let seq := s.pkg.pod.seq
    let s := s.modPod fun p => { p with seq := (seq + 1) % 2 ^ 48 }
    let q : PodAmoReq := { port := none, src := pkgNo s, seq, op, w32, nat, va := remoteVa a, b := opn r.ops 1, c := opn r.ops 2
                           tag := s.pkg.pod.tags, home, ord := ordOf r ord }
    let (s, _) := podOut s r home (.amo q) none
    sendAmo s (corePart s r.core) home q
/-- RETRY reissues the exact operation of its ticket. -/
def issueRetry (s : State) (r : Released) (ord : Bool) : State :=
  let t := opNat r 0 % 2 ^ 16
  match (s.core r.core).tickets.find? (·.1 == t) with
  | none => sendDone s r (podErr pdBadTicket 0)
  | some (_, q, _) =>
    if !reaches s r q.home then freeTicket (sendDone s r (podErr pdNoPeer 0)) { tag := 0, core := r.core, fp := 0, slot := none, home := 0, age := 0, what := .put 0 false, ticket := some t }
    else
      let q := { q with tag := s.pkg.pod.tags, ord := ordOf r ord }
      let (s, _) := podOut s r q.home (.amo q) (some t)
      sendAmo s (corePart s r.core) q.home q

/-! ## Checks in the firing (R466) -/

def cPodDesc : Nat := 0x28
/-- The first check that fails, or the command held to commit. -/
def firstRes : List (Option FRes) → FRes → FRes
  | [], k => k
  | some r :: _, _ => r
  | none :: l, k => firstRes l k
def podBad (opnd reason : Nat) (v : Val) : FRes := .trap cPodDesc v.nat (opnd * 2 ^ 8 + reason)
def podX (opnd : Nat) (v : Val) (write : Bool) : Option FRes :=
  if v.x then some (.trap cOpndX v.nat (word5 opnd 0 write .loc)) else none
/-- The local range of a command: a GLOBAL range is checked in each 64 KiB granule, a tagged one in each word. -/
def podRange (s : State) (c : Nat) (sp : Space) (base len : Nat) (write : Bool) (opnd : Nat) : Option FRes :=
  let at_ := match sp with | .global => granules base len | _ => (List.range (cdiv len 8)).map fun k => base + 8 * k
  at_.foldl (fun (r : Option FRes) a => match r with
    | some x => some x
    | none => match checkAddr s { core := c, space := sp, size := 1, write, frame := write } a with
      | .ok _ _ => none
      | .trap cause e => some (.trap cause base (word5 opnd e write sp))
      | .miss => some (.walk a write sp.code)) none
/-- The core's partition owns a port. -/
def coreOwns (s : State) (c : Nat) : Bool := match corePart s c with | some p => ownsPort s p | none => false
/-- PROT where the issuing partition owns no port; word 4 is operand A. -/
def podPortCheck (s : State) (c a : Nat) : Option FRes :=
  if coreOwns s c then none else some (.trap cProt a (rsOutside * 2 ^ 8))
def remoteBad (v : Val) : Option FRes := if bits v.nat 53 48 ≠ 0 then some (podBad 0 1 v) else none

/-- POD.PUT and POD.GET. -/
def podMove (s : State) (c : Nat) (vs : List Val) (sp : Space) (get : Bool) (k : FRes) : FRes :=
  let a := opn vs 0
  let b := opn vs 1
  let l := opn vs 2
  let len := l.nat
  firstRes [podX 0 a (!get), podX 1 b get, podX 2 l false, remoteBad a,
    if len % 8 ≠ 0 ∨ len < 8 ∨ len > 16777216 then some (podBad 2 2 l)
      else if a.nat % 8 ≠ 0 then some (podBad 0 2 a) else if b.nat % 8 ≠ 0 then some (podBad 1 2 b) else none,
    if len > 16777216 then none else podRange s c sp b.nat len get 1, podPortCheck s c a.nat] k

/-- POD.PUT (R468). -/
def execPodPut (x : XF) (ord : Bool) (sp : Space) (s : State) : Host.Outcome State Fault Refusal :=
  match s.focus with
  | .home r => .next (issuePut s r ord sp)
  | _ => fireWord s (.podPut x ord sp) fun s c f n vs => podMove s c vs sp false (relOut (.podPut x ord sp) c f n vs)
/-- POD.GET (R468). -/
def execPodGet (x : XF) (ord full : Bool) (sp : Space) (s : State) : Host.Outcome State Fault Refusal :=
  match s.focus with
  | .home r => .next (issueGet s r ord full sp)
  | _ => fireWord s (.podGet x ord full sp) fun s c f n vs => podMove s c vs sp true (relOut (.podGet x ord full sp) c f n vs)
/-- POD.AMO (R469, R470). -/
def execPodAmo (x : XF) (ord retry : Bool) (op : BitVec 4) (w32 nat : Bool) (s : State) : Host.Outcome State Fault Refusal :=
  match s.focus with
  | .home r => .next (if retry then issueRetry s r ord else issueAmo s r ord op.toNat w32 nat)
  | _ => fireWord s (.podAmo x ord retry op w32 nat) fun s c f n vs =>
    let a := opn vs 0
    firstRes [podX 0 a true, if retry then none else remoteBad a,
      if !retry ∧ a.nat % (if w32 then 4 else 8) ≠ 0 then some (podBad 0 2 a) else none, podPortCheck s c a.nat]
      (relOut (.podAmo x ord retry op w32 nat) c f n vs)

/-! ## Gangs (R477, R478) -/

/-- The members of the gang of a partition: this package and its GANG peers. -/
def gangMembers (s : State) (p : Nat) : List Nat :=
  distinct (pkgNo s :: ((peers s p).filter (·.gang)).map (·.no))
def gangHome (s : State) (p : Nat) : Nat := (gangMembers s p).foldl min (pkgNo s)
/-- A generation is released to this package: its first `count` waiters receive their token at tick T. -/
def gangFree (s : State) (p count t : Nat) : State :=
  let mine := s.pkg.pod.gangWait.filter (·.1 == p)
  let go := mine.take count
  s.modPod fun x => { x with gangWait := mine.drop count ++ x.gangWait.filter (·.1 != p)
                             gangDue := x.gangDue ++ go.map fun w => (w.2.1, w.2.2, t) }
/-- An arrival at the gang home: a generation releases when every member has one in it. (DEDUCED, log 86) -/
def gangArrive (s : State) (p src : Nat) : State :=
  let key := fun (m : Nat) => p * 1024 + m
  let s := s.modPod fun x => { x with gangArr := x.gangArr.put (key src) (x.gangArr.get (key src) 0 + 1) }
  let ms := gangMembers s p
  if ms.all fun m => decide (s.pkg.pod.gangArr.get (key m) 0 > 0) then
    let t := s.tick + 20000
    let s' := ms.foldl (fun s m =>
      let n := s.pkg.pod.gangArr.get (key m) 0
      if m = pkgNo s then gangFree s p n t else podSend s (some p) m (.gangRelease n t)) s
    s'.modPod fun x => { x with gangArr := List.filter (fun (e : Nat × Nat) => e.1 / 1024 != p) x.gangArr }
  else s
/-- GANG.SYNC leaves its core. -/
def gangIssue (s : State) (r : Released) : State :=
  let slot := opNat r 0
  match (s.core r.core).gang, corePart s r.core with
  | true, some p =>
    let s := s.modPod fun x => { x with gangWait := x.gangWait ++ [(p, r.fp, slot)] }
    if gangHome s p = pkgNo s then gangArrive s p (pkgNo s) else podSend s (some p) (gangHome s p) (.gangArrive (pkgNo s))
  | _, _ => s.send (.token { fp := r.fp, slot, v := unconfVal, src := some r.core })
/-- GANG.SYNC (R478). -/
def execGangSync (pred : Pred) (s : State) : Host.Outcome State Fault Refusal :=
  match s.focus with
  | .home r => .next (gangIssue s r)
  | _ => fireWord s (.gangSync pred) fun _ c f n vs =>
    if (opn vs 0).x then .trap cOpndX 0 0 else relOut (.gangSync pred) c f n vs
/-- GANG_TOKEN_DUE. -/
def gangToken (s : State) (fp slot t : Nat) : State :=
  let s := s.modPod fun x => { x with gangDue := dropFirst (fun e => e == (fp, slot, t)) x.gangDue }
  s.send (.token { fp, slot, v := Val.ofNat t, src := some (fpCore fp) })
def execGangTokenDue (s : State) : Host.Outcome State Fault Refusal :=
  match s.focus with
  | .event (.gangTokenDue fp slot t) =>
    if s.pkg.pod.gangDue.contains (fp, slot, t) && decide (t ≤ s.tick) then .next (gangToken s fp slot t) else noEvent
  | _ => noEvent

/-! ## The time base (R462, R463) -/

/-- POD_TIME after a measurement: OFFSET, and SYNCED while it lies within ±20 ticks. (DEDUCED, log 87) -/
def setOffset (s : State) (o : Int) : State :=
  s.modPod fun p =>
    { p with time := BitVec.ofNat 64 (p.time.toNat / 2 ^ 62 % 2 * 2 ^ 62 + Num.wrap o 32 + (if o.natAbs ≤ 20 then 2 ^ 63 else 0)) }
/-- This package is the best candidate that it knows: GM is set and no lower-numbered grandmaster is heard. -/
def isMaster (s : State) : Bool :=
  bit s.pkg.pod.time.toNat 62 && (match s.pkg.pod.bestGm with | some g => decide (pkgNo s ≤ g) | none => true)
/-- Timeouts count n ticks, but for those that involve a package that advertises DEBUG_HALT (R479). -/
def podAges (s : State) (n : Nat) : State :=
  s.modPod fun p =>
    { p with outs := p.outs.map fun o => if pkgHalted s o.home then o else { o with age := o.age + n }
             colls := p.colls.map fun k => if k.members.any (pkgHalted s) then k else { k with age := k.age + n } }
/-- The one step forward that a member takes to the grandmaster's count: every timer and deadline that it passes falls due at
once (R12, R462). -/
def timeStep (s : State) (count : Nat) : State :=
  (podAges { s with tick := count } (count - s.tick)).modPod fun p => { p with joined := true, jumped := true }
/-- An Announce on a port that is up: priority1 255 is never elected; of the others the lowest package number is the best, and the port
on which it was heard first leads toward it (R463). A candidate hears no master above its own number. (DEDUCED, log 87) -/
def announced (s : State) (port prio no : Nat) : State :=
  let p := s.pkg.pod
  if prio = 255 ∨ no = pkgNo s ∨ (bit p.time.toNat 62 = true ∧ pkgNo s < no) then s
  else match p.bestGm with
    | none => s.modPod fun p => { p with bestGm := some no, gmPort := some port, annSeen := s.tick }
    | some g =>
      if no < g then s.modPod fun p => { p with bestGm := some no, gmPort := some port, annSeen := s.tick }
      else if no = g ∧ p.gmPort = some port then s.modPod fun p => { p with annSeen := s.tick }
      else s
/-- The security sublayer drops a packet and counts it (R459). -/
def authDrop (s : State) (n : Nat) : State :=
  let x := portReg s n
  setPort s n { x with ctl := BitVec.ofNat 64 (setBits x.ctl.toNat 24 16 (hold (bits x.ctl.toNat 39 24 + 1) 0xFFFF)) }
/-- The grandmaster's messages on the one port that leads toward it measure `offset`, local count less the grandmaster's, and say its
count. A package behind by more than 1,000 ticks steps forward once, while SYNCED is clear. -/
def timeMessage (s : State) (port gm : Nat) (offset : Int) (count : Nat) : State :=
  if s.pkg.pod.bestGm ≠ some gm ∨ s.pkg.pod.gmPort ≠ some port ∨ isMaster s = true then s
  else
    let step := decide (offset < -1000) && !synced s && decide (count > s.tick) && !s.pkg.pod.joined
    let s := setOffset s offset
    if step then timeStep s count else s
/-- PTP_MESSAGE_RECEIVE: nothing comes from a port that is not up, and what fails authentication is dropped (R463). -/
def execPtpMessageReceive (s : State) : Host.Outcome State Fault Refusal :=
  match s.focus with
  | .event (.ptpMessageReceive port auth gm offset count) =>
    if port < 32 then
      .next (if !portUp s port then s else if !auth then authDrop s port else timeMessage s port gm offset count)
    else noEvent
  | _ => noEvent

/-- The ports on which this package serves time, once it is the grandmaster or follows one: all that are up but the one that leads
toward the grandmaster (R463). -/
def servePorts (s : State) : List Nat :=
  (upPorts s).filter fun n => isMaster s || (s.pkg.pod.bestGm.isSome && s.pkg.pod.gmPort != some n)
/-- A packet on one port, whoever owns it. -/
def portSend (s : State) (n : Nat) (p : PodPkt) : State :=
  (countFabric s (portPart s n) 0x30).modPod fun x => { x with sent := x.sent ++ [⟨none, none, p.delivery, 2 ^ n, p⟩] }
/-- PTP_SYNC_SEND, every 2^-4 s: Sync and its Follow_Up where time is served, Pdelay_Req on every port that is up. -/
def execPtpSyncSend (s : State) : Host.Outcome State Fault Refusal :=
  match s.focus with
  | .event .ptpSyncSend =>
    let s := (servePorts s).foldl (fun s n => portSend (portSend s n (.ptpSync s.tick)) n (.ptpFollowUp s.tick)) s
    let s := (upPorts s).foldl (fun s n => portSend s n .ptpPdelay) s
    .next (s.modPod fun p => { p with syncNext := p.syncNext + 62500000 })
  | _ => noEvent
/-- The clockIdentity of a package number (R463). -/
def clockIdentity (no : Nat) : BitVec 64 := BitVec.ofNat 64 (Config.clockPrefix.toNat * 1024 + no % 1024)
/-- What this package announces: the grandmaster that it follows, or itself. (DEDUCED, log 87) -/
def announce (s : State) : PodPkt :=
  match isMaster s, s.pkg.pod.bestGm with
  | false, some g => .ptpAnnounce 128 128 (clockIdentity g)
  | _, _ => .ptpAnnounce (if bit s.pkg.pod.time.toNat 62 then 128 else 255) 128 (clockIdentity (pkgNo s))
/-- PTP_ANNOUNCE_SEND, every second; the grandmaster's own offset is 0. -/
def execPtpAnnounceSend (s : State) : Host.Outcome State Fault Refusal :=
  match s.focus with
  | .event .ptpAnnounceSend =>
    let s := (servePorts s).foldl (fun s n => portSend s n (announce s)) s
    let s := if isMaster s then setOffset s 0 else s
    .next (s.modPod fun p => { p with annNext := p.annNext + 1000000000 })
  | _ => noEvent
/-- ANNOUNCE_RECEIPT_TIMEOUT, after three intervals: the choice is made anew. -/
def execAnnounceReceiptTimeout (s : State) : Host.Outcome State Fault Refusal :=
  match s.focus with
  | .event .announceReceiptTimeout => .next (s.modPod fun p => { p with bestGm := none, gmPort := none, annSeen := s.tick })
  | _ => noEvent

/-- PORT_STATE_CHANGE (R460). -/
def execPortStateChange (s : State) : Host.Outcome State Fault Refusal :=
  match s.focus with
  | .event (.portStateChange n st) =>
    if n < 32 ∧ st < 3 then
      let x := portReg s n
      .next (setPort s n { x with ctl := BitVec.ofNat 64 (setBits x.ctl.toNat 0 2 st) })
    else noEvent
  | _ => noEvent

end Sys2Proof.Machine
end

