-- ==== Sys2Proof/Machine/Collective.lean ====
section
/-! DEFINITION. Collectives (R472 to R475), debug halt (R479) and the receipt of fabric packets (R459). -/

namespace Sys2Proof.Machine

/-! ## Descriptors (R472) -/

/-- A collective's command: kind 0 ALLRED, 1 REDSCAT, 2 ALLGATH, 3 BCAST; TYPE; ROP. -/
def colOf : Instr → Option (Nat × Nat × Nat)
  | .colAllred _ t r => some (0, t.toNat, r.toNat)
  | .colRedscat _ t r => some (1, t.toNat, r.toNat)
  | .colAllgath _ t => some (2, t.toNat, 0)
  | .colBcast _ t => some (3, t.toNat, 0)
  | _ => none
/-- Element size. -/
def colEs (ty : Nat) : Nat := match ty with | 0 => 4 | 1 => 8 | 2 => 4 | _ => 2

structure CDesc where
  n : Nat
  rank : Nat
  count : Nat
  tag : Nat
  root : Nat
  members : List Nat
deriving DecidableEq

def cdWord (s : State) (c w : Nat) : TWord := getWord s.mem (wordKey c w)
/-- NRANK as word 0 of the descriptor at word w has it, and the words of the descriptor. -/
def cdRanks (s : State) (c w : Nat) : Nat := bits (cdWord s c w).d.toNat 9 0 + 1
def cdWords (s : State) (c w : Nat) : List Nat := (List.range (2 + cdiv (cdRanks s c w) 4)).map (w + ·)
/-- The first empty word that the read of a descriptor waits on (R472); a list that passes the scratchpad is not waited for. -/
def cdEmpty (s : State) (c w : Nat) : Bool :=
  let head := [w, w + 1]
  if w + 1 ≥ Config.spWords then false
  else if head.any fun i => !(cdWord s c i).f then true
  else (cdWords s c w).any fun i => decide (i < Config.spWords) && !(cdWord s c i).f
/-- TAG as it stands. -/
def cdTag (s : State) (c w : Nat) : Nat := (cdWord s c (w + 1)).d.toNat % 2 ^ 32
/-- The descriptor, none where it breaks R472. -/
def colDesc (s : State) (c w kind : Nat) : Option CDesc :=
  let ws := cdWords s c w
  let w0 := (cdWord s c w).d.toNat
  let w1 := (cdWord s c (w + 1)).d.toNat
  let n := cdRanks s c w
  let field := fun (r : Nat) => (cdWord s c (w + 2 + r / 4)).d.toNat / 2 ^ (16 * (r % 4)) % 2 ^ 16
  let members := (List.range n).map fun r => field r % 1024
  let pad := (List.range (4 * cdiv n 4)).any fun r => if r < n then decide (field r ≥ 1024) else field r != 0
  let rank := bits w0 19 10
  if w + 2 + cdiv n 4 > Config.spWords then none
  else if ws.any (fun i => (cdWord s c i).x) then none
  else if decide (w0 ≥ 2 ^ 52) || decide (w1 ≥ 2 ^ 42) || pad || (kind != 3 && bits w1 41 32 != 0) then none
  else if bits w0 51 20 = 0 ∨ distinct members ≠ members ∨ rank ≥ n ∨ nthD members rank 1024 ≠ pkgNo s ∨ bits w1 41 32 ≥ n then none
  else some { n, rank, count := bits w0 51 20, tag := bits w1 31 0, root := bits w1 41 32, members }

/-- Elements of the source and of the destination. -/
def colSrcN (kind : Nat) (d : CDesc) : Nat := match kind with | 1 => d.n * d.count | 3 => if d.rank = d.root then d.count else 0 | _ => d.count
def colDstN (kind : Nat) (d : CDesc) : Nat := match kind with | 2 => d.n * d.count | _ => d.count
/-- What must agree between the members (R473). -/
def colShape (kind ty rop : Nat) (d : CDesc) : List Nat := [kind, ty, rop, d.count, d.n, d.root] ++ d.members

/-! ## Elements (R473) -/

/-- The places of n bytes of a GLOBAL range. -/
def colPlaces (s : State) (c : Nat) (key : PodKey) (a n : Nat) (write : Bool) : Except Nat (List Loc) :=
  places (fun x => localPlace s c key .global x 1 write) a 1 n
/-- n elements of a GLOBAL range, each a pattern with its error. -/
def colRead (s : State) (c : Nat) (key : PodKey) (a es n : Nat) : Except Nat (State × PodData) :=
  match colPlaces s c key a (es * n) false with
  | .error r => .error r
  | .ok ls =>
    let (s, d) := loadAll s (some c) (corePart s c) 1 ls
    .ok (s, (List.range n).map fun k =>
      let bs := (d.drop (es * k)).take es
      (BitVec.ofNat 64 (leNat (bs.map fun b => b.1.toNat)), bs.any (·.2)))
/-- Elements written to a GLOBAL range: an element with its error poisons. -/
def colWrite (s : State) (c : Nat) (key : PodKey) (a es : Nat) (els : PodData) : Except Nat State :=
  match colPlaces s c key a (es * els.length) true with
  | .error r => .error r
  | .ok ls =>
    let bytes := els.flatMap fun e => (leBytes e.1.toNat es).map fun b => (BitVec.ofNat 64 b, e.2)
    .ok (storeAll s c 1 ls bytes)

/-- A pattern of a type as the reduction holds it: F32 and BF16 as F32 patterns, none in error. -/
def colVal (ty : Nat) (e : BitVec 64 × Bool) : Option Nat :=
  if e.2 then none
  else match ty with
    | 0 => some (e.1.toNat % 2 ^ 32)
    | 1 => some e.1.toNat
    | _ => let v := if ty = 2 then e.1.toNat % 2 ^ 32 else e.1.toNat % 2 ^ 16 * 2 ^ 16
           if f32Bad v then none else some v
/-- op(acc, x): the value and SAT. Equal values keep acc's pattern. -/
def colOp (ty rop acc x : Nat) : Nat × Bool :=
  let w := if ty = 1 then 64 else 32
  if ty ≤ 1 then
    match rop with
    | 0 => ((acc + x) % 2 ^ w, false)
    | 1 => (if Num.asS x w > Num.asS acc w then x else acc, false)
    | _ => (if Num.asS x w < Num.asS acc w then x else acc, false)
  else match rop, Num.f32.read acc, Num.f32.read x with
    | 0, _, _ => (match Num.fadd acc x with | .num v sat => (v, sat) | _ => (acc, false))
    | 1, some a, some b => (if a.lt b then x else acc, false)
    | _, some a, some b => (if b.lt a then x else acc, false)
    | _, _, _ => (acc, false)
/-- Rank 0 first, then the others in order: none in error. -/
def colFold (ty rop : Nat) : Nat × Bool → List (Option Nat) → Option (Nat × Bool)
  | acc, [] => some acc
  | _, none :: _ => none
  | acc, some x :: l => let (v, sat) := colOp ty rop acc.1 x; colFold ty rop (v, acc.2 || sat) l
/-- A result element: its pattern with whether it poisons, whether it is in error, SAT. -/
def colEl (ty rop : Nat) (xs : List (BitVec 64 × Bool)) : (BitVec 64 × Bool) × Bool × Bool :=
  let fate : BitVec 64 × Bool := match ty with | 2 => (0x7FC00000, false) | 3 => (0x7FC0, false) | _ => (0, true)
  let bf := fun (v : Nat) => match Num.f32.read v with | some x => Num.bf16.write x | none => (0, false)
  match xs.map (colVal ty) with
  | some x :: l =>
    (match colFold ty rop (x, false) l with
      | some (v, sat) =>
        if ty = 3 then let (b, st) := bf v; ((BitVec.ofNat 64 b, false), false, sat || st)
        else ((BitVec.ofNat 64 v, false), false, sat)
      | none => (fate, true, false))
  | _ => (fate, true, false)

/-! ## Collectives in progress (R473 to R475) -/

def contribOf (k : Coll) (rank : Nat) : PodData :=
  match k.parts.find? (fun p => p.src == nthD k.members rank 1024) with | some p => p.data | none => []
/-- The member's result: elements, which of them are in error, SAT. (DEDUCED, log 85) -/
def colResult (k : Coll) : PodData × List Bool × Bool :=
  let n := k.members.length
  let xs := fun (i : Nat) => (List.range n).map fun r => nthD (contribOf k r) i (0, true)
  let red := fun (f : Nat → Nat) => (List.range k.count).map fun i => colEl k.ty k.rop (xs (f i))
  let sum := fun (l : List ((BitVec 64 × Bool) × Bool × Bool)) => (l.map (·.1), l.map (·.2.1), l.any (·.2.2))
  let move := fun (l : PodData) => (l, l.map (·.2), false)
  match k.kind with
  | 0 => sum (red id)
  | 1 => sum (red fun i => k.rank * k.count + i)
  | 2 => move ((List.range n).flatMap (contribOf k))
  | _ => move (contribOf k k.root)

/-- Do the source and the destination of a collective overlap otherwise than ALLRED with A = B does (R474)? -/
def colOverlap (k : Coll) : Bool :=
  let es := colEs k.ty
  let n := k.members.length
  let a := opNat k.rel 0
  let b := opNat k.rel 1
  let src := es * match k.kind with | 1 => n * k.count | 3 => if k.rank = k.root then k.count else 0 | _ => k.count
  let dst := es * match k.kind with | 2 => n * k.count | _ => k.count
  decide (a < b + dst) && decide (b < a + src) && !(k.kind == 0 && a == b)
/-- Each byte of an overlapping destination takes the value computed from the old or from the new source bytes: free choices
(R474). (DESIGN CHOICE, log 84) -/
def colMix (s : State) (k : Coll) (r : PodData × List Bool × Bool) : State × PodData × List Bool × Bool :=
  let c := k.rel.core
  let es := colEs k.ty
  let mine := match k.parts.find? (·.src == pkgNo s) with | some p => p.data.length | none => 0
  if !colOverlap k then (s, r) else
  match colRead s c (.coll k.serial) (opNat k.rel 0) es mine with
  | .error _ => (s, r)
  | .ok (s, data) =>
    let k' := { k with parts := k.parts.map fun p => if p.src == pkgNo s then { p with data } else p }
    let (els, errs, sat) := r
    let (els', errs', sat') := colResult k'
    let new := fun (i j : Nat) => Config.mixes s.draws (es * i + j)
    let any := fun (i : Nat) (o n : Bool) => (List.range es).any fun j => if new i j then n else o
    let el := fun (i : Nat) =>
      let o := nthD els i (0, true)
      let n := nthD els' i (0, true)
      let bs := fun (v : BitVec 64) => leBytes v.toNat es
      (BitVec.ofNat 64 (leNat ((List.range es).map fun j => nthD (if new i j then bs n.1 else bs o.1) j 0)), any i o.2 n.2)
    let ix := List.range els.length
    ({ s with draws := s.draws + 1 }, ix.map el, ix.map fun i => any i (nthD errs i false) (nthD errs' i false), sat || sat')

/-- A collective completes (R467, R475). -/
def colEnd (s : State) (k : Coll) (reason : Nat) (v : Val) : State :=
  let s := s.modPod fun p => { p with colls := p.colls.filter (·.serial != k.serial), done := (p.done + 1) % 2 ^ 32
                                      lastr := if reason = 0 then p.lastr else reason }
  sendDone (dropXl s k.rel.core (.coll k.serial)) k.rel (if reason = 0 then v else podErr reason 0)
/-- The engine stands: this package is halted, or a peer is (R479). -/
def colPaused (s : State) : Bool := s.pkg.pod.halt || List.any s.pkg.pod.ports fun (e : Nat × Port) => e.2.halted != []
def colFull (k : Coll) : Bool := k.members.all fun m => k.parts.any (·.src == m)
/-- A collective waits in the line of a slot that it writes (R372). -/
def colGate (s : State) (k : Coll) (n : Nat) : State × Bool :=
  match colPlaces s k.rel.core (.coll k.serial) (opNat k.rel 1) n true with
  | .error _ => (s, true)
  | .ok ls => (match kvWaits s ls true (.coll k.serial) with
    | some (d, slot) => (kvHold s d slot true (.coll k.serial), false)
    | none => (s, true))
/-- The results of a collective are written, and it completes. -/
def colWriteAll (s : State) (k : Coll) : State :=
  let c := k.rel.core
  let write := fun (s : State) (els : PodData) => colWrite s c (.coll k.serial) (opNat k.rel 1) (colEs k.ty) els
  match write s (colResult k).1 with
  | .error r => colEnd s k r Val.err
  | .ok s =>
    let (s, els, errs, sat) := colMix s k (colResult k)
    match (if colOverlap k then write s els else .ok s) with
    | .error r => colEnd s k r Val.err
    | .ok s =>
      let s := if sat then setAstat s c flSat else s
      let n := (errs.filter id).length
      colEnd s k 0 ⟨BitVec.ofNat 64 (n % 2 ^ 32), decide (n ≠ 0)⟩
/-- The granule for which a collective that would write its results must wait for a walk (R364): of its destination, and of a source
that the destination overlaps. -/
def colMiss (s : State) (k : Coll) : Option Nat :=
  let at_ := fun (a n : Nat) => localMiss s k.rel.core (.coll k.serial) .global a (colEs k.ty * n)
  match at_ (opNat k.rel 1) (colResult k).1.length with
  | some va => some va
  | none => if colOverlap k then at_ (opNat k.rel 0) (match k.parts.find? (·.src == pkgNo s) with | some p => p.data.length | none => 0) else none
/-- Every package that a collective's members name learns that they disagree (R473): a contribution without a shape agrees with none.
(DEDUCED, log 85) -/
def colTell (s : State) (k : Coll) : State :=
  let ms := distinct (k.members ++ k.parts.flatMap fun p => p.src :: p.shape.drop 6)
  (ms.filter (· != pkgNo s)).foldl (fun s m =>
    podSend s (corePart s k.rel.core) m (.col (pkgNo s) k.rank k.ctag k.nth [] [])) s
/-- A collective goes on: members that disagree end it as soon as it knows, and every contribution completes it (R473). -/
def colStep (s : State) (serial : Nat) : State :=
  match s.pkg.pod.colls.find? (·.serial == serial) with
  | none => s
  | some k =>
    if colPaused s then s
    else if k.parts.any (fun p => p.shape != k.shape) then colEnd (colTell s k) k pdMismatch Val.err
    else if !colFull k then s
    else if podAwaits s k.rel.core (.coll serial) then s
    else match colMiss s k with
    | some va => startWalk s k.rel.core va (.pod k.rel.core (.coll serial) va)
    | none => match colGate s k (colEs k.ty * (colResult k).1.length) with
      | (s, false) => s
      | (s, true) => kvLeaveAll (colWriteAll s k) (.coll serial)
/-- Every collective goes on as far as it can. -/
def colAll (s : State) : State := (s.pkg.pod.colls.map (·.serial)).foldl colStep s

/-- A collective that fails before it starts. -/
def colFail (s : State) (r : Released) (reason : Nat) : State :=
  sendDone (s.modPod fun p => { p with done := (p.done + 1) % 2 ^ 32, lastr := reason }) r (podErr reason 0)
/-- A collective starts: the descriptor and the source are read, the contribution goes to every member. -/
def colIssue (s : State) (r : Released) : State :=
  match colOf r.i with
  | none => s
  | some (kind, ty, rop) =>
    match colDesc s r.core (opNat r 2) kind with
    | none => colFail s r pdDesc
    | some d =>
      if d.members.any (fun m => !reaches s r m) then colFail s r pdNoPeer
      else match colRead s r.core (.cmd r.num) (opNat r 0) (colEs ty) (colSrcN kind d) with
        | .error e => colFail (dropXl s r.core (.cmd r.num)) r e
        | .ok (s, data) =>
          let s := dropXl s r.core (.cmd r.num)
          let nth := s.pkg.pod.colNth.get d.tag 0
          let shape := colShape kind ty rop d
          let me := pkgNo s
          let part := corePart s r.core
          let early := s.pkg.pod.early.filter fun x => x.ctag == d.tag && x.nth == nth && x.part == part
          let k : Coll :=
            { serial := s.pkg.pod.colSer, ctag := d.tag, nth, rel := r, kind, ty, rop, count := d.count, rank := d.rank
              root := d.root, members := d.members, age := 0, shape
              parts := { src := me, rank := d.rank, ctag := d.tag, nth, shape, data, part } :: early }
          let s := s.modPod fun p =>
            { p with colSer := p.colSer + 1, colNth := p.colNth.put d.tag (nth + 1), colls := p.colls ++ [k]
                     early := p.early.filter fun x => !(x.ctag == d.tag && x.nth == nth) }
          let s := (d.members.filter (· != me)).foldl (fun s m => podSend s (corePart s r.core) m (.col me d.rank d.tag nth shape data)) s
          colStep s k.serial
/-- A contribution arrives: it joins its collective, or waits for it; one for a collective that is over is dropped. -/
def colReceive (s : State) (x : Contrib) : State :=
  let mine := fun (k : Coll) => k.ctag == x.ctag && k.nth == x.nth
  match s.pkg.pod.colls.find? mine with
  | some k =>
    let add := fun (y : Coll) => if mine y ∧ corePart s y.rel.core = x.part ∧ (x.shape = [] ∨ !(y.parts.any (·.src == x.src))) then { y with parts := y.parts ++ [x] } else y
    colStep (s.modPod fun p => { p with colls := p.colls.map add }) k.serial
  | none => if x.nth < s.pkg.pod.colNth.get x.ctag 0 then s else s.modPod fun p => { p with early := p.early ++ [x] }
/-- COLLECTIVE_TIMEOUT. -/
def execCollectiveTimeout (s : State) : Host.Outcome State Fault Refusal :=
  match s.focus with
  | .event (.collectiveTimeout n) =>
    (match s.pkg.pod.colls.find? (·.serial == n) with | some k => .next (colEnd s k pdTimeout Val.err) | none => noEvent)
  | _ => noEvent

/-- The granule for which a command that would read its source must wait for a walk (R364). -/
def podNeed (s : State) (p : Packet) : Option (Nat × PodKey × Nat) :=
  match p with
  | .release r =>
    let at_ := fun (sp : Space) (a n : Nat) => (localMiss s r.core (.cmd r.num) sp a n).map fun va => (r.core, PodKey.cmd r.num, va)
    (match r.i with
      | .podPut _ _ sp => if reaches s r (remoteHome (opNat r 0)) then at_ sp (opNat r 1) (opNat r 2) else none
      | i => match colOf i with
        | some (kind, ty, _) => (match colDesc s r.core (opNat r 2) kind with
          | some d => if d.members.all (reaches s r) then at_ .global (opNat r 0) (colEs ty * colSrcN kind d) else none
          | none => none)
        | none => none)
  | _ => none
/-- A walk has come to a command: an answer to POD.GET and a collective go on; one that is still on its way is tried again. -/
def podWake (s : State) (key : PodKey) : State :=
  match key with
  | .cmd _ => s
  | .get tag =>
    (match s.pkg.pod.gets.find? (·.1 == tag) with
      | some e => getDone (s.modPod fun p => { p with gets := p.gets.filter (·.1 != tag) }) tag 0 e.2
      | none => s)
  | .coll n => colStep s n
/-- Commands to which walks have come go on. -/
def settlePods (s : State) : State :=
  s.pkg.pod.woken.foldl podWake (s.modPod fun p => { p with woken := [] })

/-! ## The commands (R466, R472) -/

/-- The checks of a collective: its A and B are GLOBAL ranges of the lengths that the descriptor gives as it stands; where
it gives none, their first bytes are checked. (DEDUCED, log 83) -/
def colBody (s : State) (i : Instr) (c : Nat) (f : Firing) (n : Nat) (vs : List Val) : FRes :=
  match colOf i with
  | none => .trap cPodDesc 0 0
  | some (kind, ty, _) =>
    let a := opn vs 0
    let b := opn vs 1
    let w := opn vs 2
    let (ls, ld) := match (if w.nat + 1 < Config.spWords ∧ !cdEmpty s c w.nat then colDesc s c w.nat kind else none) with
      | some d => (colSrcN kind d * colEs ty, colDstN kind d * colEs ty)
      | none => (1, 1)
    firstRes [podX 0 a false, podX 1 b true, podX 2 w false, podRange s c .global a.nat ls false 0,
      podRange s c .global b.nat ld true 1, podPortCheck s c a.nat] (relOut i c f n vs)

/-- COL.ALLRED. -/
def execColAllred (x : XF) (ty rop : BitVec 2) (s : State) : Host.Outcome State Fault Refusal :=
  match s.focus with
  | .home r => .next (colIssue s r)
  | _ => fireWord s (.colAllred x ty rop) fun s c f n vs => colBody s (.colAllred x ty rop) c f n vs
/-- COL.REDSCAT. -/
def execColRedscat (x : XF) (ty rop : BitVec 2) (s : State) : Host.Outcome State Fault Refusal :=
  match s.focus with
  | .home r => .next (colIssue s r)
  | _ => fireWord s (.colRedscat x ty rop) fun s c f n vs => colBody s (.colRedscat x ty rop) c f n vs
/-- COL.ALLGATH. -/
def execColAllgath (x : XF) (ty : BitVec 2) (s : State) : Host.Outcome State Fault Refusal :=
  match s.focus with
  | .home r => .next (colIssue s r)
  | _ => fireWord s (.colAllgath x ty) fun s c f n vs => colBody s (.colAllgath x ty) c f n vs
/-- COL.BCAST. -/
def execColBcast (x : XF) (ty : BitVec 2) (s : State) : Host.Outcome State Fault Refusal :=
  match s.focus with
  | .home r => .next (colIssue s r)
  | _ => fireWord s (.colBcast x ty) fun s c f n vs => colBody s (.colBcast x ty) c f n vs

/-- The collectives that are issued and not complete, those behind an empty descriptor word included. -/
def colQueued (s : State) : Nat :=
  s.pkg.pod.colls.length + (s.net.filter fun p => match p with | .release r => (colOf r.i).isSome | _ => false).length
/-- COL.STAT's value (R475). -/
def colStatVal (s : State) : Nat :=
  let st := if colPaused s then 2 else if s.pkg.pod.colls = [] then 0 else 1
  s.pkg.pod.lastr * 2 ^ 56 + min 255 (colQueued s) * 2 ^ 40 + st * 2 ^ 32 + s.pkg.pod.done
/-- COL.STAT. -/
def execColStat (x : XF) (s : State) : Host.Outcome State Fault Refusal :=
  match s.focus with
  | .home r => .next ((sendDone s r (Val.ofNat (colStatVal s))).modPod fun p => { p with lastr := 0 })
  | _ => fireWord s (.colStat x) fun s c f n vs => firstRes [podPortCheck s c 0] (relOut (.colStat x) c f n vs)

/-! ## Debug halt (R479) -/

/-- POD_DEBUG_HALT: every core stops, or those that it stopped start again; the advertisement starts or ends. (DEDUCED, log 88) -/
def debugHalt (s : State) (on : Bool) : State :=
  if on then
    let cs := allCores.filter fun c => corePresent s c && ((s.core c).mode == 0 || (s.core c).mode == 3)
    let s := cs.foldl stopRun s
    s.modPod fun p => { p with halt := true, haltNext := s.tick, stopped := cs }
  else
    let go := fun (s : State) (c : Nat) => restartCore (s.modCore c fun co => { co with halting := false }) c
    let s := (s.pkg.pod.stopped.filter fun c => (s.core c).mode != 2).foldl go s
    colAll (s.modPod fun p => { p with halt := false, stopped := [] })
def execPodDebugHalt (s : State) : Host.Outcome State Fault Refusal :=
  match s.focus with
  | .event (.podDebugHalt on) => .next (debugHalt s on)
  | _ => noEvent
/-- DEBUG_HALT_ADVERTISE, on every port that is up, every 10,000 ticks (R460, R479). -/
def execDebugHaltAdvertise (s : State) : Host.Outcome State Fault Refusal :=
  match s.focus with
  | .event .debugHaltAdvertise =>
    if s.pkg.pod.halt then
      let s := (upPorts s).foldl (fun s n => portSend s n (.debugHalt (pkgNo s))) s
      .next (s.modPod fun p => { p with haltNext := s.tick + 10000 })
    else noEvent
  | _ => noEvent
/-- DEBUG_HALT_SEEN: a port holds each package that advertises there. -/
def execDebugHaltSeen (s : State) : Host.Outcome State Fault Refusal :=
  match s.focus with
  | .event (.debugHaltSeen n src) => .next (setPort s n { portReg s n with halted := (src, s.tick) :: (portReg s n).halted.filter (·.1 != src) })
  | _ => noEvent
/-- DEBUG_HALT_LAPSE: packages whose advertisement has not come for 30,000 ticks are halted no more; paused steps continue. -/
def execDebugHaltLapse (s : State) : Host.Outcome State Fault Refusal :=
  match s.focus with
  | .event (.debugHaltLapse n) => .next (colAll (setPort s n { portReg s n with halted := (portReg s n).halted.filter fun h => decide (s.tick < h.2 + 30000) }))
  | _ => noEvent

/-! ## Receipt (R459) -/

/-- The partition of an outstanding command, and of the core that has a wait at a pod barrier. -/
def outPart (s : State) (tag : Nat) : Option Nat := match outOf s tag with | some o => corePart s o.core | none => none
def waitPart (s : State) (tag : Nat) : Option Nat :=
  match List.find? (fun (e : Nat × Core) => e.2.tbuf.any fun b => match b.e with | .podWait _ _ t _ _ => t == tag | _ => false) s.cores with
  | some e => corePart s e.1
  | none => none
/-- A request or an answer that arrived on a port of partition p; an answer enters through the ports of its command's partition alone
(R459). -/
def serve (s : State) (port p : Nat) (k : PodPkt) : State :=
  match k with
  | .put src tag va ord d => servePut s (some p) src tag va ord d
  | .get src tag va ord n => serveGet s (some p) src tag va ord n
  | .amo src tag seq op w32 nat va ord b c => s.raise (.podAmoAtHome { port := some port, src, seq, op, w32, nat, va, b, c, tag, ord })
  | .putAns tag e => if outPart s tag = some p then putDone s tag e else s
  | .getAns tag e d => if outPart s tag = some p then getDone s tag e d else s
  | .amoAns tag e v sat => if outPart s tag = some p then amoDone s tag e v sat else s
  | .col src rank ctag nth shape data => colReceive s { src, rank, ctag, nth, shape, data, part := some p }
  | .barArrive src id com fp => podArrive s (some p) src id com fp
  | .barWait src id com tag => podWait s (some p) src id com tag
  | .barCfg _ id n => barCfgAt s .pod 0 id n
  | .barRelease tag v => if waitPart s tag = some p then podWaitDone s tag v else s
  | .barDropped fp id => if corePart s (fpCore fp) = some p then stray s (fpCore fp) fp id else s
  | .gangArrive src => gangArrive s p src
  | .gangRelease n t => gangFree s p n t
  | .debugHalt src => s.raise (.debugHaltSeen port src)
  | .unsupported src => podSend s (some p) src (.unsupported (pkgNo s))
  | .ptpSync _ | .ptpFollowUp _ | .ptpPdelay | .ptpPdelayResp _ | .ptpPdelayFollowUp _ | .ptpAnnounce .. => s
/-- An authentic packet on a port that is up: one on an unowned port is dropped, but for the advertisement of a debug halt and
time messages, which no port's owner filters; Pdelay_Req is answered on its port (R463); a package outside the pod takes time
messages alone (R461). What a time message measures comes as PTP_MESSAGE_RECEIVE. (DEDUCED, log 81) -/
def accept (s : State) (port : Nat) (k : PodPkt) : State :=
  let s := countFabric s (portPart s port) 0x31
  match k, portPart s port with
  | .ptpPdelay, _ => portSend (portSend s port (.ptpPdelayResp s.tick)) port (.ptpPdelayFollowUp s.tick)
  | .debugHalt src, _ => if podOn s then s.raise (.debugHaltSeen port src) else s
  | .ptpAnnounce prio _ id, _ => announced s port prio (id.toNat % 1024)
  | _, some p => if podOn s then serve s port p k else s
  | _, none => s
/-- POD_PACKET_RECEIVE: nothing arrives on a port that is not up; a packet that fails authentication is counted and dropped. A
number above 31 is a partition's request that was held at a slot and runs again (R372). -/
def receive (s : State) (port : Nat) (auth : Bool) (k : PodPkt) : State :=
  if port ≥ 32 then serve s port (port - 32) k
  else if !portUp s port then s
  else if !auth then authDrop s port
  else accept s port k
def execPodPacketReceive (s : State) : Host.Outcome State Fault Refusal :=
  match s.focus with
  | .event (.podPacketReceive port auth k) =>
    let held := s.dies.any fun d => d.2.kvb.held.any fun h => h.who == .event (.podPacketReceive port auth k)
    if port < 32 ∨ held then .next (receive s port auth k) else noEvent
  | _ => noEvent

end Sys2Proof.Machine
end

