-- ==== Sys2Proof/Machine/Clock.lean ====
section
/-! DEFINITION. Time: a tick of the package (R5), the core clocks, the events that fall due, the cycle classes (R448). -/

namespace Sys2Proof.Machine

/-- The core that sent a packet, where ordering needs it. -/
def packetSrc : Packet → Option Nat
  | .access a => some a.core
  | .take t => some t.core
  | .token t => t.src
  | .release r => some r.core
  | .falloc r => some r.core
  | .fstat c .. => some c
  | .activate _ _ _ parent => some (fpCore parent)
  | _ => none

/-- The core whose full mode-0 area holds a packet at its sender's network port (R206). -/
def portHeld (s : State) (p : Packet) : Option Nat :=
  match p with
  | .token t => if corePresent s (fpCore t.fp) && !tbufRoom (s.core (fpCore t.fp)) 1 then some (fpCore t.fp) else none
  | .release r => (match r.i with | .barWait .. => if tbufRoom (s.core r.core) 1 then none else some r.core | _ => none)
  | .access a => (match a.op with
    | .ldw | .ldt =>
      let sees := if a.op == .ldt then takeSees s a.loc.key a.fp else keyF s.mem a.loc.key
      if keyLocal a.loc.key && !sees && !waiterRoom (s.core (keyCore a.loc.key)) then some (keyCore a.loc.key) else none
    | _ => none)
  | .take t => if keyLocal t.loc.key && !takeSees s t.loc.key t.fp && !waiterRoom (s.core (keyCore t.loc.key)) then some (keyCore t.loc.key) else none
  | _ => none
/-- Where the first output that a core holds at its port is bound. -/
def outputHeld (s : State) (c : Nat) : Option Nat :=
  ((if (s.core c).tbuf.any (·.place == .port) then [c] else []) ++
    s.net.filterMap fun p => if packetSrc p == some c then portHeld s p else none).head?

/-- A firing awaits a load's value, or the translation that a load needs first. -/
def awaitsLoad (f : Firing) : Bool :=
  (f.waits ++ f.walks).any fun n => match decodeWords (wordsAt f.code n) with | .ok i => isLoad i | .error _ => false
/-- The class of the cclk that a core has just passed (Table 21.6): a block is fetched and checked until the cclk in which its read
entries deliver (R202). -/
def cycleClass (s : State) (c : Nat) (co : Core) : Nat :=
  if bit co.busy 0 then 0
  else if (outputHeld s c).isSome then 1
  else if bit co.busy 2 || co.slots.any (fun o => match o with | some f => decide (coreCclk s c ≤ f.start) | none => false) then 2
  else if co.slots.any (fun o => match o with | some f => awaitsLoad f | none => false) || co.waitOrder != [] then 3
  else 4
/-- What a CLASS record names (Table 21.7). -/
def classDetail (s : State) (c cls : Nat) (co : Core) : Nat :=
  match cls, co.waitOrder with
  | 1, _ => (match outputHeld s c with | some d => coreDie d + d % 128 * 2 ^ 5 | none => 0)
  | 3, fp :: _ =>
    let slot := if frameState s fp = stParked then 0x7F
      else match (inputMask s (fpCore fp) (frameTask s fp)).filter (fun n => !(slotWord s fp n).f) with
        | [] => 0x7F | n :: l => l.foldl min n
    slot * 2 ^ 32 + fp
  | _, _ => 0

/-- A core's cycle counters take n cclk of its class; IDLE is what is left. -/
def countClass (s : State) (c n : Nat) : State :=
  let co := s.core c
  let k := cycleClass s c co
  let s := s.setCore c { co with cc := if k < 4 then co.cc.put k (wrap48 (co.cc.get k 0 + n)) else co.cc, busy := 0, lastCls := k }
  if k = co.lastCls then s else traceRec s (coreDie c) c 3 k (classDetail s c k co)

/-- A cclk of a die has gathered and passes (R12). -/
def dieCclk (s : State) (d : Nat) : State :=
  let di := s.die d
  if di.acc < 1000 then s
  else
    let s := s.setDie d { di with cclk := di.cclk + 1, acc := di.acc - 1000 }
    ((s.cores.map (·.1)).filter fun c => coreDie c = d).foldl (fun s c => countClass s c 1) s

/-! ## Events that fall due -/

/-- WAITTICK timers of a core that are due (R186); one still in the overflow area waits (R206). -/
def timerDue (s : State) (co : Core) : Bool :=
  co.tbuf.any fun b => match b.e with | .timer t _ _ _ => decide (t ≤ s.tick) && !b.place.away | _ => false
/-- A queued record ages (R201). -/
def agingDue (s : State) (c : Nat) (co : Core) : Bool :=
  co.tq.any fun r => decide (r.cls ≥ 2 ∧ coreCclk s c ≥ r.entered + 65536)
/-- The array's next event that is due (R302). -/
def ddaDue (s : State) (c : Nat) (co : Core) : List Event :=
  match ddaNext s.mem c co.dda (coreCclk s c) with
  | some (_, 0) => [.linkOverrunAnswer c]
  | some (_, 1) => [.ddaStep c]
  | some _ => [.linkDeposit c]
  | none => []
def coreEvents (s : State) (e : Nat × Core) : List Event :=
  let (c, co) := e
  (if timerDue s co then [.waittickTimerFire c] else []) ++ (if agingDue s c co then [.recordAging c] else [])
    ++ ddaDue s c co

/-- A refresh and a visit of the scrubber that are due (R356). -/
def layerEvents (s : State) (d l : Nat) (di : Die) : List Event :=
  let y := di.layers.get l {}
  (if y.nextRef ≤ s.tick then [.dramRefresh d l] else [])
    ++ (if y.pos ≥ layerWords then [] else if y.passStart + (y.pos + 1) * 2 ^ y.pass / layerWords ≤ s.tick then [.scrubVisit d l] else [])
def dieEvents (s : State) (d : Nat) : List Event :=
  let di := s.die d
  (if di.holds.any (fun h => decide (h.since + 8 ≤ di.cclk)) then [.routerHoldExpiry d] else [])
    ++ (List.range 16).flatMap (fun k =>
        let p := di.pew.get k {}
        if bit p.ctl.toNat 63 && !bit p.ctl.toNat 62 && decide (p.dl.toNat ≤ s.tick) then [.pewterExpiry d k] else [])
    ++ (if diePresent s d then (List.range 4).flatMap (fun l => layerEvents s d l di) else [])

/-- The answer of a GET has arrived and waits at a slot, or for its destination's translation. -/
def answerHeld (s : State) (tag : Nat) : Bool :=
  s.pkg.pod.gets.any (·.1 == tag) || s.dies.any fun d => d.2.kvb.held.any fun h => match h.who with | .event (.podPacketReceive _ _ (.getAns t _ _)) => t == tag | _ => false
/-- Events of the pod that fall due (R462, R463, R467, R470, R473, R478, R479). -/
def podEvents (s : State) : List Event :=
  let p := s.pkg.pod
  (p.outs.filter fun o => decide (o.age ≥ 2 ^ podTmo s) && !answerHeld s o.tag).map (fun o => .podTimeout o.tag)
    ++ (p.colls.filter fun k => decide (k.age ≥ 2 ^ (podTmo s + 4)) && !colFull k).map (fun k => .collectiveTimeout k.serial)
    ++ (if replayDue s = [] then [] else [.replayEntryExpiry])
    ++ (p.gangDue.filter fun w => decide (w.2.2 ≤ s.tick)).map (fun w => .gangTokenDue w.1 w.2.1 w.2.2)
    ++ (if p.syncNext ≤ s.tick then [.ptpSyncSend] else []) ++ (if p.annNext ≤ s.tick then [.ptpAnnounceSend] else [])
    ++ (if p.bestGm.isSome && decide (p.annSeen + 3000000000 ≤ s.tick) then [.announceReceiptTimeout] else [])
    ++ (if p.halt && decide (p.haltNext ≤ s.tick) then [.debugHaltAdvertise] else [])
    ++ p.ports.filterMap fun (e : Nat × Port) =>
        if e.2.halted.any fun h => decide (h.2 + 30000 ≤ s.tick) then some (.debugHaltLapse e.1) else none
def timedEvents (s : State) : List Event :=
  s.cores.flatMap (coreEvents s) ++ (List.range Config.numDies).flatMap (dieEvents s) ++ podEvents s
    ++ ((s.pkg.launches.map (·.1)).filter (gangDue s)).map .loadPhase2

/-- The tick moves on by one, and each die gathers thousandths of a cclk (R12). -/
def nextTick (s : State) : State :=
  let s := podAges { s with tick := s.tick + 1 } 1
  (List.range Config.numDies).foldl (fun s d => s.modDie d fun di => { di with acc := di.acc + di.mhz }) s
/-- One tick passes, or a second cclk of a die in it. (DESIGN CHOICE, log 4) -/
def advance (s : State) : State :=
  let s := if s.dies.any fun e => decide (e.2.acc ≥ 1000) then s else nextTick s
  let s := (List.range Config.numDies).foldl dieCclk s
  (timedEvents s).foldl raiseOnce s

end Sys2Proof.Machine
end

