-- ==== Sys2Proof/Machine/Memory.lean ====
section
/-! DEFINITION. Meanings: loads, stores, tag operations, cache hints, FENCE (R161 to R179). -/

namespace Sys2Proof.Machine

/-- Word 5 of a memory trap: REASON, WRITE, SPACE (Table 7.3). -/
def memW5 (reason : Nat) (write : Bool) (sp : Space) : Nat := word5 0 reason write sp

/-- The checks of R162 on an address, in order, then what the instruction does at the place. -/
def atAddr (s : State) (q : Ask) (a : Val) (addr : Nat) (k : Loc → Option Tlb → FRes) : FRes :=
  if a.x then .trap cOpndX addr 0
  else match checkAddr s q addr with
    | .trap cause reason => .trap cause addr (memW5 reason q.write q.space)
    | .miss => .walk addr q.write q.space.code
    | .ok l t => k l t

/-- The access of an instruction. -/
def mkAccess (s : State) (c : Nat) (f : Firing) (n : Nat) (op : MemOp) (loc : Loc) (size : Nat) (v w : Val)
    (slot : Option Nat) : Access :=
  { core := c, fp := f.fp, ser := f.ser, idx := n, op, loc, size, v, w, slot, tick := s.tick }

/-- The address of an L-format word: A plus the signed 7-bit offset times the access size (R83). -/
def lAddr (a : Val) (off : BitVec 7) (size : Nat) : Nat := offsetAddr a.nat off.toInt size
/-- The address of an S-format word (R83). -/
def sAddr (a : Val) (off : BitVec 9) (size : Nat) : Nat := offsetAddr a.nat off.toInt size

/-- A plain load: on the own scratchpad at once, elsewhere by a request to the home (R166, R428). -/
def loadBody (l : LF) (op : MemOp) (size : Nat) (noReg : Bool) (s : State) (c : Nat) (f : Firing) (n : Nat) (vs : List Val) : FRes :=
  let addr := lAddr (opn vs 0) l.off size
  atAddr s { core := c, space := l.space, size, write := false, noReg } (opn vs 0) addr fun loc t =>
    let a := mkAccess s c f n op loc size Val.err Val.err none
    if ownNow s a && !isGated s loc.key then
      let (_, v) := locRead s c loc size s.tick 0
      .ok { v := some (some (forwardVal f.outs loc size l.lsid.toNat v)), tlb := t }
    else .ok { pkts := [.access a], tlb := t }

/-- LD.B (R166). -/
def execLdB (f : LF) (s : State) : Host.Outcome State Fault Refusal := fireWord s (.ldB f) (loadBody f .ld 1 false)
/-- LD.H (R166). -/
def execLdH (f : LF) (s : State) : Host.Outcome State Fault Refusal := fireWord s (.ldH f) (loadBody f .ld 2 false)
/-- LD.W (R166). -/
def execLdW (f : LF) (s : State) : Host.Outcome State Fault Refusal := fireWord s (.ldW f) (loadBody f .ld 4 false)
/-- LD.D (R166). -/
def execLdD (f : LF) (s : State) : Host.Outcome State Fault Refusal := fireWord s (.ldD f) (loadBody f .ld 8 false)
/-- LDRC: LD.D with the expected read count B, a hint (R177). -/
def execLdrc (f : LF) (s : State) : Host.Outcome State Fault Refusal :=
  fireWord s (.ldrc f) fun s c fi n vs =>
    let b := opn vs 1
    loadBody f (.ldrc (if b.x then 0 else min b.nat 65535)) 8 true s c fi n vs

/-- LDW (R122, R168): a full word's value; an empty word parks the frame, or holds the access at the port while no waiter entry is free
(R206). -/
def execLdw (f : LF) (s : State) : Host.Outcome State Fault Refusal :=
  fireWord s (.ldw f) fun s c fi n vs =>
    atAddr s { core := c, space := f.space, size := 8, write := false } (opn vs 0) (lAddr (opn vs 0) f.off 8) fun loc t =>
      let a := mkAccess s c fi n .ldw loc 8 Val.err Val.err none
      if ownNow s a && !isGated s loc.key then
        if keyF s.mem loc.key then .ok { v := some (some (forwardVal fi.outs loc 8 f.lsid.toNat (getWord s.mem loc.key).val)), tlb := t }
        else if waiterRoom (s.core c) then .park loc.key false
        else .ok { pkts := [.access a], tlb := t }
      else .ok { pkts := [.access a], tlb := t }
/-- LDT during the firing (R122, R169): as LDW, and the value is recorded for the take. -/
def execLdt (f : LF) (s : State) : Host.Outcome State Fault Refusal :=
  fireWord s (.ldt f) fun s c fi n vs =>
    atAddr s { core := c, space := f.space, size := 8, write := true, frame := true } (opn vs 0) (lAddr (opn vs 0) f.off 8) fun loc t =>
      let a := mkAccess s c fi n .ldt loc 8 Val.err Val.err none
      if ownNow s a && !isGated s loc.key then
        if takeSees s loc.key fi.fp then
          let raw := (getWord s.mem loc.key).val
          .ok { v := some (some (forwardVal fi.outs loc 8 f.lsid.toNat raw)), take := some (loc, raw), tlb := t }
        else if waiterRoom (s.core c) then .park loc.key true
        else .ok { pkts := [.access a], tlb := t }
      else .ok { pkts := [.access a], tlb := t }
/-- FE.TEST (R173). -/
def execFeTest (f : LF) (s : State) : Host.Outcome State Fault Refusal :=
  fireWord s (.feTest f) fun s c fi n vs =>
    atAddr s { core := c, space := f.space, size := 8, write := false } (opn vs 0) (lAddr (opn vs 0) f.off 8) fun loc t =>
      let a := mkAccess s c fi n .feTest loc 8 Val.err Val.err none
      if ownNow s a && !isGated s loc.key then
        .ok { v := some (some (Val.ofNat (bnat (keyF s.mem loc.key) + 2 * bnat (keyX s.mem loc.key)))), tlb := t }
      else .ok { pkts := [.access a], tlb := t }

/-! ## Stores and tag operations: checked now, performed at commit step 3 (R115, R167) -/

/-- An operation that writes: the checks, then the output in LSID order. -/
def storeBody (pred_lsid : BitVec 5) (sp : Space) (off : BitVec 9) (op : MemOp) (size : Nat) (noReg : Bool) (slot : Option Nat)
    (s : State) (c : Nat) (f : Firing) (n : Nat) (vs : List Val) : FRes :=
  let addr := sAddr (opn vs 0) off size
  atAddr s { core := c, space := sp, size, write := true, frame := true, noReg } (opn vs 0) addr fun loc t =>
    .ok { outs := [.mem pred_lsid.toNat n (mkAccess s c f n op loc size (opn vs 1) Val.err slot)], tlb := t }

/-- ST.B (R167). -/
def execStB (f : SF) (s : State) : Host.Outcome State Fault Refusal := fireWord s (.stB f) (storeBody f.lsid f.space f.off .st 1 false none)
/-- ST.H (R167). -/
def execStH (f : SF) (s : State) : Host.Outcome State Fault Refusal := fireWord s (.stH f) (storeBody f.lsid f.space f.off .st 2 false none)
/-- ST.W (R167). -/
def execStW (f : SF) (s : State) : Host.Outcome State Fault Refusal := fireWord s (.stW f) (storeBody f.lsid f.space f.off .st 4 false none)
/-- ST.D (R167). -/
def execStD (f : SF) (s : State) : Host.Outcome State Fault Refusal := fireWord s (.stD f) (storeBody f.lsid f.space f.off .st 8 false none)
/-- STF (R170). -/
def execStf (f : SF) (s : State) : Host.Outcome State Fault Refusal := fireWord s (.stf f) (storeBody f.lsid f.space f.off .stf 8 true none)
/-- STE (R171): the offset is zero, the status goes to a slot. -/
def execSte (pred : Pred) (lsid : BitVec 5) (space : Space) (slot : BitVec 7) (s : State) : Host.Outcome State Fault Refusal :=
  fireWord s (.ste pred lsid space slot) (storeBody lsid space 0 .ste 8 true (some slot.toNat))
/-- FE.SET (R172). -/
def execFeSet (f : SF) (s : State) : Host.Outcome State Fault Refusal := fireWord s (.feSet f) (storeBody f.lsid f.space f.off .feSet 8 true none)
/-- FE.CLR (R172). -/
def execFeClr (f : SF) (s : State) : Host.Outcome State Fault Refusal := fireWord s (.feClr f) (storeBody f.lsid f.space f.off .feClr 8 true none)

/-- CLEAN and INVAL name the line that holds A and make no ALIGN check (R178). -/
def lineBody (lsid : BitVec 5) (op : MemOp) (s : State) (c : Nat) (f : Firing) (n : Nat) (vs : List Val) : FRes :=
  atAddr s { core := c, space := .global, size := 1, write := false } (opn vs 0) (opn vs 0).nat fun loc t =>
    .ok { outs := [.mem lsid.toNat n (mkAccess s c f n op loc 1 Val.err Val.err none)], tlb := t }
/-- CLEAN (R178). -/
def execClean (pred : Pred) (lsid : BitVec 5) (s : State) : Host.Outcome State Fault Refusal :=
  fireWord s (.clean pred lsid) (lineBody lsid .clean)
/-- INVAL (R178). -/
def execInval (pred : Pred) (lsid : BitVec 5) (s : State) : Host.Outcome State Fault Refusal :=
  fireWord s (.inval pred lsid) (lineBody lsid .inval)
/-- PREF makes no check here and never traps (R176). -/
def execPref (f : SF) (s : State) : Host.Outcome State Fault Refusal :=
  fireWord s (.pref f) fun s c fi n vs =>
    let a := opn vs 0
    let loc : Loc := { space := f.space, key := 0, va := sAddr a f.off 512 }
    .out (.mem f.lsid.toNat n (mkAccess s c fi n .pref loc 1 a Val.err none))
/-- FENCE, resolved at step 3 in its LSID place (R179). -/
def execFence (pred : Pred) (lsid : BitVec 5) (scope : Scope) (s : State) : Host.Outcome State Fault Refusal :=
  fireWord s (.fence pred lsid scope) fun _ _ _ n _ => .out (.fence lsid.toNat n scope)

end Sys2Proof.Machine
end

