-- ==== Sys2Proof/Machine/Atomics.lean ====
section
/-! DEFINITION. Meanings: atomics (R180 to R184): checked in the firing, performed at the home after commit step 3. -/

namespace Sys2Proof.Machine

/-- The checks of an atomic's address (R162, R183), then the output in LSID order. -/
def amoBody (lsid : BitVec 5) (sp : Space) (scope : Scope) (w32 nat reduce relaxed : Bool) (op : Nat) (slot : Option Nat)
    (s : State) (c : Nat) (f : Firing) (n : Nat) (vs : List Val) : FRes :=
  let size := if w32 then 4 else 8
  atAddr s { core := c, space := sp, size, write := true, frame := true, noReg := true, scope := some scope } (opn vs 0) (opn vs 0).nat
    fun loc t => .ok { outs := [.mem lsid.toNat n (mkAccess s c f n (.amo op w32 nat reduce relaxed) loc size (opn vs 1) (opn vs 2) slot)], tlb := t }

/-- AMO.ADD (R181). -/
def execAmoAdd (f : AF) (s : State) : Host.Outcome State Fault Refusal :=
  fireWord s (.amoAdd f) (amoBody f.lsid f.space f.scope f.w32 f.nat false false 0 (some f.slot.toNat))
/-- AMO.ADD.REDUCE (R184). -/
def execAmoAddReduce (f : RF) (s : State) : Host.Outcome State Fault Refusal :=
  fireWord s (.amoAddReduce f) (amoBody f.lsid f.space f.scope f.w32 f.nat true f.relaxed 0 none)
/-- AMO.MIN (R181). -/
def execAmoMin (f : AF) (s : State) : Host.Outcome State Fault Refusal :=
  fireWord s (.amoMin f) (amoBody f.lsid f.space f.scope f.w32 f.nat false false 1 (some f.slot.toNat))
/-- AMO.MIN.REDUCE (R184). -/
def execAmoMinReduce (f : RF) (s : State) : Host.Outcome State Fault Refusal :=
  fireWord s (.amoMinReduce f) (amoBody f.lsid f.space f.scope f.w32 f.nat true f.relaxed 1 none)
/-- AMO.MAX (R181). -/
def execAmoMax (f : AF) (s : State) : Host.Outcome State Fault Refusal :=
  fireWord s (.amoMax f) (amoBody f.lsid f.space f.scope f.w32 f.nat false false 2 (some f.slot.toNat))
/-- AMO.MAX.REDUCE (R184). -/
def execAmoMaxReduce (f : RF) (s : State) : Host.Outcome State Fault Refusal :=
  fireWord s (.amoMaxReduce f) (amoBody f.lsid f.space f.scope f.w32 f.nat true f.relaxed 2 none)
/-- AMO.AND (R181). -/
def execAmoAnd (f : AF) (s : State) : Host.Outcome State Fault Refusal :=
  fireWord s (.amoAnd f) (amoBody f.lsid f.space f.scope f.w32 f.nat false false 3 (some f.slot.toNat))
/-- AMO.AND.REDUCE (R184). -/
def execAmoAndReduce (f : RF) (s : State) : Host.Outcome State Fault Refusal :=
  fireWord s (.amoAndReduce f) (amoBody f.lsid f.space f.scope f.w32 f.nat true f.relaxed 3 none)
/-- AMO.OR (R181). -/
def execAmoOr (f : AF) (s : State) : Host.Outcome State Fault Refusal :=
  fireWord s (.amoOr f) (amoBody f.lsid f.space f.scope f.w32 f.nat false false 4 (some f.slot.toNat))
/-- AMO.OR.REDUCE (R184). -/
def execAmoOrReduce (f : RF) (s : State) : Host.Outcome State Fault Refusal :=
  fireWord s (.amoOrReduce f) (amoBody f.lsid f.space f.scope f.w32 f.nat true f.relaxed 4 none)
/-- AMO.XOR (R181). -/
def execAmoXor (f : AF) (s : State) : Host.Outcome State Fault Refusal :=
  fireWord s (.amoXor f) (amoBody f.lsid f.space f.scope f.w32 f.nat false false 5 (some f.slot.toNat))
/-- AMO.XOR.REDUCE (R184). -/
def execAmoXorReduce (f : RF) (s : State) : Host.Outcome State Fault Refusal :=
  fireWord s (.amoXorReduce f) (amoBody f.lsid f.space f.scope f.w32 f.nat true f.relaxed 5 none)
/-- AMO.SWAP (R181). -/
def execAmoSwap (f : AF) (s : State) : Host.Outcome State Fault Refusal :=
  fireWord s (.amoSwap f) (amoBody f.lsid f.space f.scope f.w32 f.nat false false 6 (some f.slot.toNat))
/-- AMO.SWAP.REDUCE (R184). -/
def execAmoSwapReduce (f : RF) (s : State) : Host.Outcome State Fault Refusal :=
  fireWord s (.amoSwapReduce f) (amoBody f.lsid f.space f.scope f.w32 f.nat true f.relaxed 6 none)
/-- AMO.FADD (R181). -/
def execAmoFadd (f : AF) (s : State) : Host.Outcome State Fault Refusal :=
  fireWord s (.amoFadd f) (amoBody f.lsid f.space f.scope f.w32 f.nat false false 8 (some f.slot.toNat))
/-- AMO.FADD.REDUCE (R184). -/
def execAmoFaddReduce (f : RF) (s : State) : Host.Outcome State Fault Refusal :=
  fireWord s (.amoFaddReduce f) (amoBody f.lsid f.space f.scope f.w32 f.nat true f.relaxed 8 none)
/-- AMO.INCW (R181). -/
def execAmoIncw (f : AF) (s : State) : Host.Outcome State Fault Refusal :=
  fireWord s (.amoIncw f) (amoBody f.lsid f.space f.scope f.w32 f.nat false false 9 (some f.slot.toNat))
/-- AMO.INCW.REDUCE (R184). -/
def execAmoIncwReduce (f : RF) (s : State) : Host.Outcome State Fault Refusal :=
  fireWord s (.amoIncwReduce f) (amoBody f.lsid f.space f.scope f.w32 f.nat true f.relaxed 9 none)
/-- AMO.CAS: with a result slot or in REDUCE form (R181). -/
def execAmoCas (x : XF) (lsid : BitVec 5) (space : Space) (scope : Scope) (w32 : Bool) (s : State) : Host.Outcome State Fault Refusal :=
  fireWord s (.amoCas x lsid space scope w32) (amoBody lsid space scope w32 false x.dest.isNone false sopCas (x.dest.map BitVec.toNat))

end Sys2Proof.Machine
end

