-- ==== Sys2Proof/Machine/Control.lean ====
section
/-! DEFINITION. Meanings: exits, null, predicate logic, TEST.X (R133 to R136), TRAP, BRK, HALT (R191 to R193). -/

namespace Sys2Proof.Machine

/-- An exit executes: it is recorded, or traps MULTI_EXIT behind another (R116, R133). -/
def exitBody (i : Instr) (f : Firing) : FRes :=
  if f.exit.isSome then .trap cMultiExit 0 0 else .ok { exit := some i }

/-- BRO.END (R121, R133). -/
def execBroEnd (pred : Pred) (s : State) : Host.Outcome State Fault Refusal :=
  fireWord s (.broEnd pred) fun _ _ f _ _ => exitBody (.broEnd pred) f
/-- BRO.KEEP (R121, R133). -/
def execBroKeep (pred : Pred) (s : State) : Host.Outcome State Fault Refusal :=
  fireWord s (.broKeep pred) fun _ _ f _ _ => exitBody (.broKeep pred) f
/-- BRO.REARM (R121, R133). -/
def execBroRearm (pred : Pred) (s : State) : Host.Outcome State Fault Refusal :=
  fireWord s (.broRearm pred) fun _ _ f _ _ => exitBody (.broRearm pred) f
/-- BRO.CONT (R121, R133). -/
def execBroCont (pred : Pred) (task : BitVec 16) (s : State) : Host.Outcome State Fault Refusal :=
  fireWord s (.broCont pred task) fun _ _ f _ _ => exitBody (.broCont pred task) f

/-- NULL: a null token to each target (R134). -/
def execNull (g : GF) (s : State) : Host.Outcome State Fault Refusal :=
  fireWord s (.null g) fun _ _ _ _ _ => .ok { v := some none }

/-- Predicate logic on bit 0 of the operands: an operand with X gives an error token (R135). -/
def predOp (k : List Bool → Bool) (vs : List Val) : FRes :=
  if vs.any (·.x) then .val Val.err else .val (Val.ofNat (bnat (k (vs.map fun v => bit v.nat 0))))

/-- PAND (R135). -/
def execPand (g : GF) (s : State) : Host.Outcome State Fault Refusal :=
  fireWord s (.pand g) fun _ _ _ _ vs => predOp (fun l => l.all id) vs
/-- POR (R135). -/
def execPor (g : GF) (s : State) : Host.Outcome State Fault Refusal :=
  fireWord s (.por g) fun _ _ _ _ vs => predOp (fun l => l.any id) vs
/-- PNOT (R135). -/
def execPnot (g : GF) (s : State) : Host.Outcome State Fault Refusal :=
  fireWord s (.pnot g) fun _ _ _ _ vs => predOp (fun l => !l.all id) vs
/-- TEST.X (R136). -/
def execTestX (g : GF) (s : State) : Host.Outcome State Fault Refusal :=
  fireWord s (.testX g) fun _ _ _ _ vs => .val (Val.ofNat (bnat (opn vs 0).x))

/-- TRAP: SWTRAP with A in word 5, or 1 in word 4 when A carries X (R191). -/
def execTrap (pred : Pred) (s : State) : Host.Outcome State Fault Refusal :=
  fireWord s (.trap pred) fun _ _ _ _ vs =>
    let a := opn vs 0
    if a.x then .trap 0x0D 1 0 else .trap 0x0D 0 a.nat
/-- BRK (R192). -/
def execBrk (pred : Pred) (s : State) : Host.Outcome State Fault Refusal :=
  fireWord s (.brk pred) fun _ _ _ _ _ => .trap 0x0E 0 0
/-- HALT: outside a handler block PROT; in one it takes effect after commit step 8 (R193). -/
def execHalt (pred : Pred) (s : State) : Host.Outcome State Fault Refusal :=
  fireWord s (.halt pred) fun _ c f n _ =>
    if !f.hdr.handler then protHandler
    else .out (.rel n { i := .halt pred, core := c, fp := f.fp, ser := f.ser, ops := [] })

end Sys2Proof.Machine
end

