-- ==== Sys2Proof/Machine/Copy.lean ====
section
/-! DEFINITION. Meanings: the copy engine (opcode 0x73, chapter 11), engine reads that resume, translation walks. -/

namespace Sys2Proof.Machine

/-- CPY_DESC (Table 11.6). -/
def cCpyDesc : Nat := 0x25


/-- The checks of one operand (R280): OPND_X, and of a word index its bits, alignment, range and FRAME_BASE. -/
def cpyOpnd (s : State) (c opnd : Nat) (v : Val) (wr : Bool) (w : Option (Nat × Nat)) : Option FRes :=
  if v.x then some (.trap cOpndX v.nat (word5 opnd 0 wr .loc))
  else match w with
    | none => none
    | some (algn, n) =>
      if v.nat ≥ 2 ^ 17 then some (descTrap cCpyDesc v opnd 1)
      else if v.nat % algn ≠ 0 then some (.trap cAlign v.nat (word5 opnd 0 wr .loc))
      else if n = 0 then none
      else if v.nat + n > Config.spWords then some (descTrap cCpyDesc v opnd 3)
      else if v.nat + n > bits (s.core c).frameBase.toNat 16 0 then some (.trap cFrameProt v.nat (word5 opnd rsFrame wr .loc))
      else none

/-- A work command: its checks in a firing (A, B, C), its steps in its stream. -/
def cpyExec (s : State) (i : Instr) (k : Nat) (wrA wrB : Bool) (plane : Option Nat) : Host.Outcome State Fault Refusal :=
  match s.focus with
  | .engine c (.cpy n) =>
    let x := s.stream c n
    (match x.cur, x.queue with
      | some r, _ => if n = k ∧ r.cmd.i = i ∧ !r.paused then .next (cpyGo s c k r) else .refused .notEnabled
      | none, r :: q =>
        if n = k ∧ r.i = i then
          .next (cpyGo (secStart (setStream s c k { x with queue := q }) c r.sec) c k { cmd := r })
        else .refused .notEnabled
      | none, [] => .refused .notEnabled)
  | _ => fireWord s i fun s c f n vs =>
    match firstSome [cpyOpnd s c 0 (opn vs 0) wrA none, cpyOpnd s c 1 (opn vs 1) wrB (plane.map fun a => (a, 0)),
        cpyOpnd s c 2 (opn vs 2) false (some (4, 12))] with
    | some t => t
    | none => relOut i c f n vs

/-- CPY.STREAM (R282). -/
def execCpyStream (x : XF) (sync full : Bool) (stream : BitVec 2) (sps spd : Space) (esz : BitVec 3) (s : State) :
    Host.Outcome State Fault Refusal :=
  cpyExec s (.cpyStream x sync full stream sps spd esz) stream.toNat false true none
/-- CPY.PLANES (R284). -/
def execCpyPlanes (x : XF) (sync full : Bool) (stream : BitVec 2) (spm : Space) (dir mat : Bool) (ws wd low : BitVec 4)
    (code : BitVec 2) (g expadj : Bool) (s : State) : Host.Outcome State Fault Refusal :=
  cpyExec s (.cpyPlanes x sync full stream spm dir mat ws wd low code g expadj) stream.toNat dir (!dir)
    (some (if mat then 32 else 16))
/-- CPY.CONV (R285, R286). -/
def execCpyConv (x : XF) (sync full : Bool) (stream : BitVec 2) (spm : Space) (dir : Bool) (fmt : BitVec 5) (wd : BitVec 4)
    (code : BitVec 2) (g sat : Bool) (lay : BitVec 2) (s : State) : Host.Outcome State Fault Refusal :=
  cpyExec s (.cpyConv x sync full stream spm dir fmt wd code g sat lay) stream.toNat dir (!dir)
    (some (if lay = 0 then 16 else 32))

/-- A control command: its checks in a firing, released at commit step 4, where it acts (R275); in a stream it stood behind a RESUME
that waited for its image. -/
def cpyCtl (s : State) (i : Instr) (chk : State → Nat → List Val → Option FRes) : Host.Outcome State Fault Refusal :=
  match s.focus with
  | .engine c (.cpy k) =>
    (match (s.stream c k).queue.find? isControl with
      | some r => if r.i = i ∧ !ctlWaits s c k r then .next (cpyParked s c k) else .refused .notEnabled
      | none => .refused .notEnabled)
  | _ => fireWord s i fun s c f n vs => match chk s c vs with | some t => t | none => relOut i c f n vs
/-- CPY.CANCEL (R291). -/
def execCpyCancel (x : XF) (all : Bool) (stream : BitVec 2) (s : State) : Host.Outcome State Fault Refusal :=
  cpyCtl s (.cpyCancel x all stream) fun _ _ _ => none
/-- CPY.SAVE (R292). -/
def execCpySave (x : XF) (clr : Bool) (stream : BitVec 2) (s : State) : Host.Outcome State Fault Refusal :=
  cpyCtl s (.cpySave x clr stream) fun s c vs => cpyOpnd s c 0 (opn vs 0) true (some (4, 20))
/-- CPY.RESUME (R290): operand A counts only with IMG = 1. -/
def execCpyResume (x : XF) (img : Bool) (stream : BitVec 2) (s : State) : Host.Outcome State Fault Refusal :=
  cpyCtl s (.cpyResume x img stream) fun s c vs => if img then cpyOpnd s c 0 (opn vs 0) false (some (4, 20)) else none
/-- CPY.STAT (R293). -/
def execCpyStat (x : XF) (stream : BitVec 2) (s : State) : Host.Outcome State Fault Refusal :=
  cpyCtl s (.cpyStat x stream) fun _ _ _ => none

/-! ## Engines resume, walks end -/

/-- ENGINE_SYNC_READ_RESUME: the word that an engine waits on has become full (R219). -/
def execEngineSyncReadResume (s : State) : Host.Outcome State Fault Refusal :=
  match s.focus with
  | .event (.engineSyncReadResume c e) =>
    let go := fun (o : Option Nat) (s' : State) => match o with
      | some key => if keyF s.mem key then Host.Outcome.next s' else .refused .notEnabled
      | none => .refused .notEnabled
    let co := s.core c
    (match e with
      | .vec => (match co.vec with
        | some r => go r.waitW (s.setCore c { co with vec := some { r with waitW := none } }) | none => .refused .notEnabled)
      | .mat => (match co.mat with
        | some r => go r.waitW (s.setCore c { co with mat := some { r with waitW := none } }) | none => .refused .notEnabled)
      | .cpy k => (match (s.stream c k).cur with
        | some r => go r.waitW (setStream s c k { s.stream c k with cur := some { r with waitW := none } }) | none => .refused .notEnabled)
      | .dda => go co.dda.waitW (s.setCore c { co with dda := { co.dda with waitW := none } }))
  | _ => .refused .notEnabled

/-- An instruction of a firing no longer awaits its translation. -/
def walkDone (s : State) (c ser idx : Nat) : State :=
  match resident s c ser with
  | some (k, f) => setFiring s c k (some { f with walks := f.walks.filter (· != idx) })
  | none => s

/-- What a walk's result does for one requester (R364): the access goes on, or fails. -/
def walkAnswer (s : State) (part : Option Nat) (res : Except Nat Tlb) (q : WalkReq) : State :=
  match q, res with
  | .insn c ser idx _ _ _, .ok t => walkDone (tlbBoth s c t) c ser idx
  | .insn c ser idx va write sp, .error e =>
    (match resident s c ser with
      | some (k, _) => takeTrap s c k { cause := cXlate, pos := idx, w4 := va, w5 := e * 2 ^ 8 + 4 * bnat write + sp }
      | none => s)
  | .copy c k va side, r =>
    let s := match r with | .ok t => tlbBoth s c t | .error _ => s
    (match (s.stream c k).cur with
      | some run =>
        if run.waitWalk = some (va, side) ∧ part = corePart s c then
          (match r with
            | .ok _ => setStream s c k { s.stream c k with cur := some { run with waitWalk := none } }
            | .error e => cpyPause s c k run e side va)
        else s
      | none => s)
  | .pref c va, .ok t =>
    let s := tlbBoth s c t
    (match checkAddr s { core := c, space := .global, size := 1, write := false, noReg := true } va with
      | .ok loc _ => s.send (.access { core := c, fp := 0, ser := 0, idx := 0, op := .pref, loc, size := 1, v := Val.ofNat 0, w := Val.ofNat 0, slot := none, tick := s.tick })
      | _ => hintDrop s c)
  | .pref c _, .error _ => hintDrop s c
  | .dev c va, r =>
    let s := match r with | .ok t => tlbBoth s c t | .error _ => s
    if (s.core c).devWait && part == corePart s c then
      let s := s.modCore c fun co => { co with devWait := false }
      (match r with | .ok _ => s | .error e => holdAccess s c va e)
    else s
  | .pod c key va, r =>
    let s := match r with | .ok t => tlbBoth s c t | .error _ => s
    let x : PodXl := match r with
      | .ok t => { key, gran := va / 65536, res := some t }
      | .error e => { key, gran := va / 65536, res := none, reason := e }
    if part = corePart s c then
      (s.modCore c fun co => { co with xl := co.xl ++ [x] }).modPod fun p => { p with woken := p.woken ++ [key] }
    else s

/-- WALK_COMPLETE: the oldest walk of a die ends (R361, R364); a waiting miss starts in its place. (DESIGN CHOICE, log 126) -/
def execWalkComplete (s : State) : Host.Outcome State Fault Refusal :=
  match s.focus with
  | .event (.walkComplete d) =>
    (match (s.die d).walks with
      | [] => .refused .notEnabled
      | w :: l =>
        let res := walkRoot s w.part w.root (w.gran * 65536)
        let s := walkCache s w.part w.root (w.gran * 65536)
        let s := s.modDie d fun di =>
          { di with walks := l ++ (di.walkQ.take 1).map (fun w => { w with root := rootOf s w.part }), walkQ := di.walkQ.drop 1
                    faults := match res with | .ok _ => di.faults | .error _ => hold (di.faults + 1) 0xFFFF }
        .next (w.reqs.foldl (fun s q => walkAnswer s w.part res q) s))
  | _ => .refused .notEnabled

end Sys2Proof.Machine
end

