-- ==== Sys2Proof/Machine/Float.lean ====
section
/-! DEFINITION. Meanings: F32 arithmetic and conversion (R144 to R148). -/

namespace Sys2Proof.Machine

/-- PCODE when an operand without X has exponent field 255 (R144). -/
def pcodeOf (vs : List Val) : Nat := if vs.any (fun v => !v.x && bits v.nat 30 23 == 255) then flPcode else 0

/-- An F32 instruction: an operand in error gives an error token, and PCODE where R144 says so. -/
def f32Op (vs : List Val) (k : List Nat → Num.FRes) : FRes :=
  if vs.any (·.x) then .val Val.err (pcodeOf vs)
  else
    let r := k (vs.map fun v => v.nat % 2 ^ 32)
    .val (fresVal r) (fresFlags r)
def at0 (l : List Nat) : Nat := nthD l 0 0
def at1 (l : List Nat) : Nat := nthD l 1 0
def at2 (l : List Nat) : Nat := nthD l 2 0

/-- FADD (R145, R146). -/
def execFadd (g : GF) (s : State) : Host.Outcome State Fault Refusal :=
  fireWord s (.fadd g) fun _ _ _ _ vs => f32Op vs fun l => Num.fadd (at0 l) (at1 l)
/-- FSUB (R145, R146). -/
def execFsub (g : GF) (s : State) : Host.Outcome State Fault Refusal :=
  fireWord s (.fsub g) fun _ _ _ _ vs => f32Op vs fun l => Num.fsub (at0 l) (at1 l)
/-- FMUL (R145, R146). -/
def execFmul (g : GF) (s : State) : Host.Outcome State Fault Refusal :=
  fireWord s (.fmul g) fun _ _ _ _ vs => f32Op vs fun l => Num.fmul (at0 l) (at1 l)
/-- FDIV (R145, R146). -/
def execFdiv (g : GF) (s : State) : Host.Outcome State Fault Refusal :=
  fireWord s (.fdiv g) fun _ _ _ _ vs => f32Op vs fun l => Num.fdiv (at0 l) (at1 l)
/-- FMIN (R145, R146). -/
def execFmin (g : GF) (s : State) : Host.Outcome State Fault Refusal :=
  fireWord s (.fmin g) fun _ _ _ _ vs => f32Op vs fun l => Num.fmin (at0 l) (at1 l)
/-- FMAX (R145, R146). -/
def execFmax (g : GF) (s : State) : Host.Outcome State Fault Refusal :=
  fireWord s (.fmax g) fun _ _ _ _ vs => f32Op vs fun l => Num.fmax (at0 l) (at1 l)
/-- FEQ (R145, R146). -/
def execFeq (g : GF) (s : State) : Host.Outcome State Fault Refusal :=
  fireWord s (.feq g) fun _ _ _ _ vs => f32Op vs fun l => Num.feq (at0 l) (at1 l)
/-- FLT (R145, R146). -/
def execFlt (g : GF) (s : State) : Host.Outcome State Fault Refusal :=
  fireWord s (.flt g) fun _ _ _ _ vs => f32Op vs fun l => Num.flt (at0 l) (at1 l)
/-- FLE (R145, R146). -/
def execFle (g : GF) (s : State) : Host.Outcome State Fault Refusal :=
  fireWord s (.fle g) fun _ _ _ _ vs => f32Op vs fun l => Num.fle (at0 l) (at1 l)
/-- FSQRT (R145, R146). -/
def execFsqrt (g : GF) (s : State) : Host.Outcome State Fault Refusal :=
  fireWord s (.fsqrt g) fun _ _ _ _ vs => f32Op vs fun l => Num.fsqrt (at0 l)
/-- FABS (R145, R146). -/
def execFabs (g : GF) (s : State) : Host.Outcome State Fault Refusal :=
  fireWord s (.fabs g) fun _ _ _ _ vs => f32Op vs fun l => Num.fabs (at0 l)
/-- FNEG (R145, R146). -/
def execFneg (g : GF) (s : State) : Host.Outcome State Fault Refusal :=
  fireWord s (.fneg g) fun _ _ _ _ vs => f32Op vs fun l => Num.fneg (at0 l)
/-- FEXP2 (R145, R146). -/
def execFexp2 (g : GF) (s : State) : Host.Outcome State Fault Refusal :=
  fireWord s (.fexp2 g) fun _ _ _ _ vs => f32Op vs fun l => Num.fexp2 (at0 l)
/-- FLOG2 (R145, R146). -/
def execFlog2 (g : GF) (s : State) : Host.Outcome State Fault Refusal :=
  fireWord s (.flog2 g) fun _ _ _ _ vs => f32Op vs fun l => Num.flog2 (at0 l)
/-- FRCP (R145, R146). -/
def execFrcp (g : GF) (s : State) : Host.Outcome State Fault Refusal :=
  fireWord s (.frcp g) fun _ _ _ _ vs => f32Op vs fun l => Num.frcp (at0 l)
/-- FRSQ (R145, R146). -/
def execFrsq (g : GF) (s : State) : Host.Outcome State Fault Refusal :=
  fireWord s (.frsq g) fun _ _ _ _ vs => f32Op vs fun l => Num.frsq (at0 l)
/-- FMA (R147). -/
def execFma (f : TF) (s : State) : Host.Outcome State Fault Refusal :=
  fireWord s (.fma f) fun _ _ _ _ vs => f32Op vs fun l => Num.fma (at0 l) (at1 l) (at2 l)

/-! ## Conversion (R148) -/

/-- The format of a float type code. -/
def ftyFmt : FTy → Num.Fmt
  | .bf16 => Num.bf16 | .e4m3 => Num.e4m3 | .e5m2 => Num.e5m2 | _ => Num.f32
/-- The exact value of a source pattern, none for one that reads as error. -/
def cvtRead (src : FTy) (v : Nat) : Option Num.Fl :=
  match src with
  | .int t => some (Num.Fl.ofInt (rdInt t v))
  | t => (ftyFmt t).read v
/-- A value written at the destination type. -/
def cvtWrite (dst : FTy) (x : Num.Fl) : FRes :=
  match dst with
  | .int t =>
    let r := x.round
    if rdInt t (Num.wrap r t.bits) = r then .val (putInt t r) else .val Val.err flCvt
  | t =>
    let (b, sat) := (ftyFmt t).write x
    .val (Val.ofNat b) (if sat then flSat else 0)
/-- FCVT (R148). -/
def execFcvt (f : TF) (src dst : FTy) (s : State) : Host.Outcome State Fault Refusal :=
  fireWord s (.fcvt f src dst) fun _ _ _ _ vs =>
    let a := opn vs 0
    if a.x then .val Val.err
    else match cvtRead src a.nat with
      | none => .val Val.err flPcode
      | some x => cvtWrite dst x

end Sys2Proof.Machine
end

