-- ==== Sys2Proof/Machine/KvStore.lean ====
section
/-! DEFINITION. Meanings: block commands (opcode 0x75, R366 to R380), and the operand checks that they share with the
sequence commands. -/

namespace Sys2Proof.Machine

/-! ## Operands (R366, R374, R375) -/

/-- SEQ_DESC (Table 17.3). -/
def cSeqDesc : Nat := 0x27
def seqIdx (v : Nat) : Nat := bits v 11 0
def keySeq (v : Nat) : Nat := bits v 19 0
def keyLayer (v : Nat) : Nat := bits v 27 20
def keyBlk (v : Nat) : Nat := bits v 43 28

/-- A die that an operand names: present, and the issuing partition's alone: the table and the store of a time-sliced die are
outside every partition (R446). -/
def dieOpnd (s : State) (c opnd : Nat) (v : Val) (d : Nat) : Option FRes :=
  if d > 23 ∨ !diePresent s d then some (descTrap cSeqDesc v opnd 2)
  else if !ownsAlone s (corePart s c) d then some (.trap cProt v.nat (word5 opnd rsOutside false .loc))
  else none
/-- An identifier, or a key of 44 bits. -/
def idOpnd (s : State) (c opnd n : Nat) (v : Val) : Option FRes :=
  if v.x then some (.trap cOpndX v.nat (word5 opnd 0 false .loc))
  else if v.nat ≥ 2 ^ n then some (descTrap cSeqDesc v opnd 1)
  else dieOpnd s c opnd v (seqDie v.nat)
/-- A trap or notify target (R374), which needs `n` slots. -/
def targetOpnd (s : State) (opnd n : Nat) (v : Val) : Option FRes :=
  let en := bit v.nat 39
  if v.x then some (.trap cOpndX v.nat (word5 opnd 0 false .loc))
  else if v.nat ≥ 2 ^ 40 ∨ (!en ∧ v.nat % 2 ^ 39 ≠ 0) then some (descTrap cSeqDesc v opnd 1)
  else if en ∧ fpBad s (v.nat % 2 ^ 32) then some (.trap cBadFp v.nat (opnd * 2 ^ 8))
  else if bits v.nat 38 32 + n > 128 then some (descTrap cSeqDesc v opnd 4)
  else none
/-- The record of WCH.SET: a word index, of which no bit is reserved. -/
def recordOpnd (s : State) (c opnd : Nat) (v : Val) : Option FRes :=
  if v.x then some (.trap cOpndX v.nat (word5 opnd 0 false .loc))
  else if v.nat % 8 ≠ 0 then some (.trap cAlign v.nat (word5 opnd 0 false .loc))
  else if v.nat + 8 > Config.spWords then some (descTrap cSeqDesc v opnd 3)
  else if v.nat + 8 > bits (s.core c).frameBase.toNat 16 0 then some (.trap cFrameProt v.nat (word5 opnd rsFrame false .loc))
  else none

/-! ## At the home (R367, R376) -/

/-- What a command gives its completion token. -/
abbrev SDone := State × Val
/-- A condition of Table 17.4: nothing is done. -/
def seqCond (s : State) (reason : Nat) : SDone := (s, ⟨BitVec.ofNat 64 (reason * 2 ^ 56), true⟩)
def seqOk (s : State) (v : Nat) : SDone := (s, Val.ofNat v)

/-- The meaning of a command of opcode 0x75 or 0x76: its checks in a firing; at its home, performed whole, then its token. -/
def seqExec (s : State) (i : Instr) (chk : State → Nat → List Val → Option FRes) (eff : State → Released → SDone) :
    Host.Outcome State Fault Refusal :=
  match s.focus with
  | .home r => let (s, v) := eff s r; .next (sendDone s r v)
  | _ => fireWord s i fun s c f n vs =>
    match chk s c vs with
    | some t => t
    | none => relOut i c f n vs

def State.seqOf (s : State) (v : Nat) : Seq := (s.die (seqDie v)).seqs.get (seqIdx v) {}
/-- The first condition of a list that holds, with its reason. -/
def firstCond : List (Bool × Nat) → Option Nat
  | [] => none
  | (b, r) :: l => if b then some r else firstCond l

/-! ## Lists (R370) -/

def kvList (k : Kvb) (seq layer : Nat) : List Nat := match k.lists.find? (·.1 == (seq, layer)) with | some e => e.2 | none => []
def setKvList (k : Kvb) (seq layer : Nat) (l : List Nat) : Kvb :=
  let rest := k.lists.filter (·.1 != (seq, layer))
  { k with lists := if l = [] then rest else ((seq, layer), l) :: rest }
def kvSlots (k : Kvb) : Nat := 2 ^ bits k.win.toNat 4 0
def kvFreeSlots (k : Kvb) : Nat := kvSlots k - k.slots.length
/-- A free slot: which one is open. -/
def kvFreeSlot (s : State) (k : Kvb) : Option (State × Nat) :=
  choose s ((List.range (kvSlots k)).filter fun x => !(k.slots.any fun e => e.1 == x))
def setKvb (s : State) (d : Nat) (k : Kvb) : State := s.modDie d fun di => { di with kvb := k }
def kvOn (k : Kvb) : Bool := bit k.ctl.toNat 0
/-- A slot that maps a block joins the end of a list. -/
def kvAppend (s : State) (d seq layer slot b : Nat) : State :=
  let k := (s.die d).kvb
  let k := setKvList k seq layer (kvList k seq layer ++ [slot])
  kvSetPte (setKvb s d { k with slots := (slot, b) :: k.slots, refs := k.refs.put b (k.refs.get b 0 + 1) }) d slot (some b)

/-- KVB.ALLOC (R377). (DEDUCED, log 62) -/
def kvAlloc (s : State) (key : Nat) (zero : Bool) : SDone :=
  let d := seqDie key
  let k := (s.die d).kvb
  let seq := keySeq key
  let n := (kvList k seq (keyLayer key)).length
  match firstCond [((s.seqOf seq).st == 3, 0x01), (keyBlk key != 0, 0x06), (!kvOn k, 0x10),
      (decide (kvFree k ≤ bits k.ctl.toNat 31 16), 0x11), (decide (kvFreeSlots k = 0), 0x12), (decide (n ≥ 65536), 0x16),
      (k.damaged.contains seq, 0x17)] with
  | some r => seqCond s r
  | none =>
    match kvFreeBlock s k with
    | none => seqCond s 0x11
    | some (s, b) =>
      match kvFreeSlot s k with
      | none => seqCond s 0x12
      | some (s, slot) =>
        let pa := kvBlockPa (s.die d) d b
        let gone := fun (a : Nat) => decide (pa ≤ a ∧ a < pa + 65536) || decide (poisonKey pa ≤ a ∧ a < poisonKey pa + 1024)
        let s := if zero then s.setMem (memWithout s.mem gone) else s
        seqOk (kvAppend s d seq (keyLayer key) slot b) (n * 2 ^ 48 + kvVa k slot)
def execKvbAlloc (x : XF) (zero : Bool) (s : State) : Host.Outcome State Fault Refusal :=
  seqExec s (.kvbAlloc x zero) (fun s c vs => idOpnd s c 0 44 (opn vs 0)) fun s r => kvAlloc s (opNat r 0) zero

/-- KVB.MAP (R377). -/
def execKvbMap (x : XF) (s : State) : Host.Outcome State Fault Refusal :=
  seqExec s (.kvbMap x) (fun s c vs => idOpnd s c 0 44 (opn vs 0)) fun s r =>
    let key := opNat r 0
    let k := (s.die (seqDie key)).kvb
    let l := kvList k (keySeq key) (keyLayer key)
    match firstCond [((s.seqOf key).st == 3, 0x01), (!kvOn k, 0x10), (decide (keyBlk key ≥ l.length), 0x13),
        (k.damaged.contains (keySeq key), 0x17)] with
    | some q => seqCond s q
    | none =>
      let slot := nthD l (keyBlk key) 0
      let b := match kvBlockOf k slot with | some b => b | none => 0
      seqOk s (k.refs.get b 0 * 2 ^ 48 + kvVa k slot)

/-- The elements that a share of some layers would give: layer and block of each, and whether a condition forbids it. -/
def shareElems (k : Kvb) (seq nb : Nat) (layers : List Nat) : List (Nat × Nat) :=
  layers.flatMap fun l =>
    let e := kvList k seq l
    ((if nb = 0 then e else e.take nb).filterMap (kvBlockOf k)).map fun b => (l, b)
def shareCond (k : Kvb) (seq child nb : Nat) (layers : List Nat) : List (Bool × Nat) :=
  let es := shareElems k seq nb layers
  let many := fun (b : Nat) => decide (k.refs.get b 0 + (es.filter fun e => e.2 == b).length > 65535)
  [(decide (es.length > kvFreeSlots k), 0x12), (layers.any fun l => kvList k child l != [], 0x14), (es.any fun e => many e.2, 0x16),
   (k.damaged.contains seq || k.damaged.contains child, 0x17)]
/-- The elements are shared, each on a new slot. -/
def shareDo (s : State) (d child : Nat) : List (Nat × Nat) → State
  | [] => s
  | e :: l =>
    match kvFreeSlot s (s.die d).kvb with
    | none => s
    | some (s, slot) => shareDo (kvAppend s d child e.1 slot e.2) d child l
/-- KVB.SHARE (R378). -/
def kvShare (s : State) (key child nl : Nat) : SDone :=
  let d := seqDie key
  let k := (s.die d).kvb
  let seq := keySeq key
  let far := seqDie child != d
  let layers := (List.range nl).map (· + keyLayer key)
  let top := decide (keyLayer key + nl > 256)
  let cs := shareCond k seq child (keyBlk key) layers
  let at' := fun (r : Nat) => (cs.any (fun c => c.1 && c.2 == r), r)
  match firstCond [((s.seqOf seq).st == 3 || (!far && (s.seqOf child).st == 3), 0x01), (!kvOn k, 0x10), at' 0x12, at' 0x14,
      (far, 0x15), (top || (at' 0x16).1, 0x16), at' 0x17] with
  | some q => seqCond s q
  | none =>
    let es := shareElems k seq (keyBlk key) layers
    seqOk (shareDo s d child es) es.length
def execKvbShare (x : XF) (nl1 : BitVec 8) (s : State) : Host.Outcome State Fault Refusal :=
  seqExec s (.kvbShare x nl1) (fun s c vs => firstSome [idOpnd s c 0 44 (opn vs 0), idOpnd s c 1 20 (opn vs 1)])
    fun s r => kvShare s (opNat r 0) (opNat r 1) (nl1.toNat + 1)

/-- One element goes (R379): its slot is free, its block's count drops, its translations go; a block that frees lets
held accesses on (R372). -/
def kvDrop (s : State) (d slot : Nat) : State :=
  let k := (s.die d).kvb
  match kvBlockOf k slot with
  | none => s
  | some b =>
    let n := k.refs.get b 1
    let refs := if n ≤ 1 then k.refs.del b else k.refs.put b (n - 1)
    let s := kvSetPte (setKvb s d { k with refs, slots := k.slots.filter (·.1 != slot) }) d slot none
    let s := tlbInv s .pkg 0 none (kvVa k slot)
    if n ≤ 1 ∧ k.held ≠ [] then raiseOnce s (.kvbHeldRelease d) else s
/-- A list keeps its first elements. -/
def kvTrunc (s : State) (d seq layer keep : Nat) : State :=
  let l := kvList (s.die d).kvb seq layer
  let s := (l.drop keep).foldl (fun s slot => kvDrop s d slot) s
  setKvb s d (setKvList (s.die d).kvb seq layer (l.take keep))
/-- Every list of a sequence is emptied: the state and the elements removed. (DEDUCED, log 65) -/
def kvEmpty (s : State) (d seq : Nat) : State × Nat :=
  let ls := (s.die d).kvb.lists.filter (·.1.1 == seq)
  (ls.foldl (fun s e => kvTrunc s d seq e.1.2 0) s, natSum (ls.map (·.2.length)))
/-- KVB.FREE (R379). -/
def kvFreeCmd (s : State) (key : Nat) (all : Bool) : SDone :=
  let d := seqDie key
  let k := (s.die d).kvb
  let seq := keySeq key
  let l := kvList k seq (keyLayer key)
  match firstCond [((s.seqOf seq).st == 3, 0x01), (all && (keyBlk key != 0 || keyLayer key != 0), 0x06), (!kvOn k, 0x10),
      (!all && decide (keyBlk key ≥ l.length), 0x13), (k.damaged.contains seq, 0x17)] with
  | some q => seqCond s q
  | none =>
    if all then let (s, n) := kvEmpty s d seq; seqOk s n
    else seqOk (kvTrunc s d seq (keyLayer key) (keyBlk key)) (l.length - keyBlk key)
def execKvbFree (x : XF) (all : Bool) (s : State) : Host.Outcome State Fault Refusal :=
  seqExec s (.kvbFree x all) (fun s c vs => idOpnd s c 0 44 (opn vs 0)) fun s r => kvFreeCmd s (opNat r 0) all

/-- SLOTS: 22 bits do not hold the 2^22 free slots of a largest window that nobody uses. (DESIGN CHOICE, log 112) -/
def slotsField (k : Kvb) : Nat := if kvFreeSlots k < 2 ^ 22 then kvFreeSlots k else Config.allSlots.toNat
/-- KVB.STAT (R380). -/
def execKvbStat (x : XF) (die : BitVec 5) (own : Bool) (s : State) : Host.Outcome State Fault Refusal :=
  seqExec s (.kvbStat x die own) (fun s c _ => dieOpnd s c 0 (Val.ofNat 0) (staticDie c die own)) fun s r =>
    let k := (s.die (staticDie r.core die own)).kvb
    if !kvOn k then seqCond s 0x10
    else seqOk s (hold (k.held.filter (·.who.isAccess)).length 0xFFFF * 2 ^ 44 + slotsField k * 2 ^ 22 + kvFree k)

end Sys2Proof.Machine
end

