-- ==== Sys2Proof/Machine/Gauntlet.lean ====
section
/-! DEFINITION. The Gauntlet table (R381 to R395) and the meanings of opcode 0x76. -/

namespace Sys2Proof.Machine

/-! ## Actions, symbols, hits (R381 to R383) -/

def acNotify : Nat := 1
def acFork : Nat := 2
def acInject : Nat := 3
def acStop : Nat := 4
def acTrap : Nat := 5
def wildSym : Nat := 0xFFFFF
/-- A symbol operand that is none (SYMBOL). -/
def symBad (v : Val) : Bool := v.x || decide (v.nat ≥ wildSym)
/-- P beyond which LENGTH is met. -/
def seqLen : Nat := 2 ^ 32 - 25

/-- The last n elements of a list. -/
def lastN (n : Nat) (l : List Nat) : List Nat := l.drop (l.length - n)
/-- A pattern hits at the last of a row of symbols (R382). -/
def patHits (p : Pat) (tail : List Nat) : Bool :=
  p.act != 0 && decide (p.len ≤ tail.length)
    && ((p.sym.take p.len).zip (lastN p.len tail)).all fun e => e.1 == wildSym || e.1 == e.2
def hitsAt (q : Seq) (tail : List Nat) : List Nat := (List.range 8).filter fun k => patHits (q.pats.get k {}) tail
/-- The action of a source: pattern k, or budget b as 8 + b. -/
def srcAct (q : Seq) (k : Nat) : Nat := if k < 8 then (q.pats.get k {}).act else (q.buds.get (k - 8) {}).act

/-- confirm_pos of R383: the entry, and its hits. -/
def confirmPos (q : Seq) (y : Nat) : Seq × List Nat :=
  let h := hitsAt q (q.hist ++ [y])
  let q := { q with hist := lastN 7 (q.hist ++ [y]), p := q.p + 1 }
  (List.range 4).foldl (fun (a : Seq × List Nat) b =>
    let u := a.1.buds.get b {}
    if u.armed && (u.sym == wildSym || u.sym == y) then
      let n := (u.count + 1) % 2 ^ 32
      let hit := n == u.limit
      ({ a.1 with buds := a.1.buds.put b { u with count := n, armed := !hit } }, if hit then a.2 ++ [8 + b] else a.2)
    else a) (q, h)
/-- choose of R383: the NOTIFY mask, and the winner among exclusive actions, whose codes rise with their priority. -/
def chooseHit (q : Seq) (h : List Nat) : Nat × Option Nat :=
  let mask := natSum ((List.range 12).map fun k => if h.contains k && srcAct q k == acNotify then 2 ^ k else 0)
  let ex := (List.range 12).filter fun k => h.contains k && decide (srcAct q k ≥ acFork)
  (mask, ex.foldl (fun (w : Option Nat) k => match w with
    | none => some k
    | some v => if srcAct q k > srcAct q v then some k else some v) none)

/-! ## Applying a winner (R386, R387) -/

/-- An operation in progress: the state, the entry, and the fields of its summary (R384); `trap` is a trapping position
with its source and symbol. -/
structure SeqOp where
  s : State
  id : Nat
  q : Seq
  nmask : Nat := 0
  act : Nat := 0
  src : Nat := 0
  child : Nat := 0
  cdone : Nat := 0
  injsrc : Nat := 0
  inj : Nat := 0
  conf : Nat := 0
  supp : Bool := false
  trap : Option (Nat × Nat × Nat) := none

/-- The summary (R384). -/
def SeqOp.summary (o : SeqOp) : Nat :=
  o.child * 2 ^ 44 + o.cdone * 2 ^ 40 + o.injsrc * 2 ^ 36 + o.inj * 2 ^ 32 + o.q.st * 2 ^ 30 + o.conf * 2 ^ 25
    + o.q.drafts.length * 2 ^ 20 + bnat o.supp * 2 ^ 19 + o.nmask * 2 ^ 7 + o.src * 2 ^ 3 + o.act

/-- A free entry of a die, the lowest (R389). -/
def freeSeq (s : State) (d : Nat) : Option Nat := (List.range 4096).find? fun k => ((s.die d).seqs.get k {}).st == 3
def putSeq (s : State) (id : Nat) (q : Seq) : State := s.modDie (seqDie id) fun di => { di with seqs := di.seqs.put (seqIdx id) q }

/-- FORK from source w: a child of the same die with the parent's history, patterns, budgets, targets and lists; or none, where no
entry is free or the share meets a condition, a disabled store among them (R386). A parent without list elements shares nothing.
(DEDUCED, log 64) -/
def seqFork (o : SeqOp) (w : Nat) : SeqOp :=
  let d := seqDie o.id
  let k := (o.s.die d).kvb
  let layers := List.range 256
  match freeSeq o.s d with
  | none => { o with supp := true }
  | some n =>
    let child := d * 2 ^ 12 + n
    let es := shareElems k (keySeq o.id) 0 layers
    if (shareCond k o.id child 0 layers).any (·.1) || !kvOn k then { o with supp := true }
    else
      let c : Seq := { st := 0, p := o.q.p, hist := o.q.hist, pats := o.q.pats, buds := o.q.buds, trapt := o.q.trapt, nott := o.q.nott }
      { o with s := shareDo (putSeq o.s child c) d child es, child, act := acFork, src := w }
/-- STOP, TRAP and FORK at a position that has just been confirmed with symbol y. -/
def applyPlain (o : SeqOp) (w y : Nat) : SeqOp :=
  let act := srcAct o.q w
  if act = acFork then seqFork o w
  else if act = acStop then { o with act, src := w, q := { o.q with drafts := [], st := 1 } }
  else { o with act, src := w, q := { o.q with drafts := [], st := 2 }, trap := some (o.q.p - 1, w, y) }
/-- INJECT from source k (R387); a budget has no string. -/
def applyInject (o : SeqOp) (k y : Nat) : SeqOp :=
  let p := o.q.pats.get k {}
  let inj := if k < 8 then p.inj else []
  let (q, h) := inj.foldl (fun (a : Seq × List Nat) z => let (q, h) := confirmPos a.1 z; (q, a.2 ++ h)) ({ o.q with drafts := [] }, [])
  let (cut, h) := h.partition fun k => srcAct q k == acInject
  let (nm, w) := chooseHit q h
  let o := { o with q, nmask := o.nmask ||| nm, act := acInject, src := k, injsrc := k, inj := inj.length, supp := o.supp || cut != [] }
  match w with
  | some w => applyPlain o w (inj.getLastD y)
  | none => o
/-- One position: its hits, NOTIFY bits, and its winner (R388). Answers whether the operation ends. -/
def seqPos (o : SeqOp) (y : Nat) : SeqOp × Bool :=
  let (q, h) := confirmPos o.q y
  let (nm, w) := chooseHit q h
  let o := { o with q, nmask := o.nmask ||| nm }
  match w with
  | none => (o, false)
  | some w => (if srcAct q w = acInject then applyInject o w y else applyPlain o w y, true)

/-- A token to a target word (R374). -/
def targetToken (s : State) (r : Released) (t off v : Nat) : State :=
  s.send (.token { fp := t % 2 ^ 32, slot := bits t 38 32 + off, v := Val.ofNat v, src := some r.core, die := cmdDie r })
/-- An operation ends: the entry is stored, NOTIFY is delivered (R385), a trap record sent (R389). -/
def seqEnd (o : SeqOp) (r : Released) : SDone :=
  let q := { o.q with notify := o.q.notify ||| o.nmask }
  let s := putSeq o.s o.id q
  let s := if o.nmask ≠ 0 ∧ bit q.nott 39 then
      targetToken s r q.nott 0 (o.nmask + o.id * 2 ^ 12 + (q.p + 2 ^ 32 - 1) % 2 ^ 32 * 2 ^ 32) else s
  let s := match o.trap with
    | none => s
    | some (pos, w, y) =>
      let ws := [1, o.id, pos, w, y, o.nmask, s.tick, r.fp]
      if bit q.trapt 39 then ((List.range 8).zip ws).foldl (fun s e => targetToken s r q.trapt e.1 e.2) s
      else
        let d := seqDie o.id
        let (s, i) := logRec s d 0x0A 0 3 0 (ws.map (BitVec.ofNat 64))
        dieEvent s d 0 0x0A o.id i
  seqOk s o.summary

/-! ## Sequence commands (R389 to R392) -/

/-- A command on the sequence that operand A names. -/
def seqIdCheck (s : State) (c : Nat) (vs : List Val) : Option FRes := idOpnd s c 0 20 (opn vs 0)
/-- CLOSED, TRAPPED, STOPPED. -/
def seqGate (q : Seq) : List (Bool × Nat) := [(q.st == 3, 0x01), (q.st == 2, 0x02), (q.st == 1, 0x03)]
/-- A command with its conditions; a damaged sequence is met last (R369). (DEDUCED, log 62) -/
def seqOn (s : State) (id : Nat) (cs : List (Bool × Nat)) (k : SDone) : SDone :=
  match firstCond (cs ++ [((s.die (seqDie id)).kvb.damaged.contains id, 0x17)]) with | some r => seqCond s r | none => k

/-- SEQ.OPEN (R389). -/
def execSeqOpen (x : XF) (die : BitVec 5) (own : Bool) (s : State) : Host.Outcome State Fault Refusal :=
  seqExec s (.seqOpen x die own)
    (fun s c vs => firstSome [dieOpnd s c 0 (Val.ofNat 0) (staticDie c die own), targetOpnd s 0 8 (opn vs 0), targetOpnd s 1 1 (opn vs 1)])
    fun s r =>
      let d := staticDie r.core die own
      match freeSeq s d with
      | none => seqCond s 0x08
      | some k =>
        let id := d * 2 ^ 12 + k
        seqOk (putSeq s id { st := 0, trapt := opNat r 0, nott := opNat r 1 }) id

/-- SEQ.EMIT (R390). -/
def execSeqEmit (x : XF) (s : State) : Host.Outcome State Fault Refusal :=
  seqExec s (.seqEmit x) seqIdCheck fun s r =>
    let id := opNat r 0
    let q := s.seqOf id
    let b := opn r.ops 1
    seqOn s id (seqGate q ++ [(q.drafts != [], 0x04), (symBad b, 0x07), (decide (q.p ≥ seqLen), 0x0A)])
      (seqEnd (seqPos { s, id, q, conf := 1 } b.nat).1 r)

/-- SEQ.DRAFT (R390): a provisional evaluation only. -/
def execSeqDraft (x : XF) (s : State) : Host.Outcome State Fault Refusal :=
  seqExec s (.seqDraft x) seqIdCheck fun s r =>
    let id := opNat r 0
    let q := s.seqOf id
    let b := opn r.ops 1
    let (nm, w) := chooseHit q (hitsAt q (q.hist ++ q.drafts.map (·.1) ++ [b.nat]))
    let src := match w with | some w => w | none => 0
    let act := match w with | some w => srcAct q w | none => 0
    let q' := { q with drafts := q.drafts ++ [(b.nat, act, src, nm)] }
    let o : SeqOp := { s := putSeq s id q', id, q := q', nmask := nm, act, src }
    seqOn s id (seqGate q ++ [(decide (q.drafts.length ≥ 16), 0x05), (symBad b, 0x07), (decide (q.p ≥ seqLen), 0x0A)])
      (seqOk o.s o.summary)

/-- The loop of R391 over the drafts to confirm. -/
def confirmLoop : Nat → SeqOp → SeqOp × Bool
  | 0, o => (o, false)
  | n + 1, o =>
    match o.q.drafts with
    | [] => (o, false)
    | (y, _) :: l =>
      let (o, ended) := seqPos { o with q := { o.q with drafts := l }, conf := o.conf + 1 } y
      if ended then (o, true) else confirmLoop n o
/-- SEQ.CONFIRM (R391). -/
def execSeqConfirm (x : XF) (corr : Bool) (s : State) : Host.Outcome State Fault Refusal :=
  seqExec s (.seqConfirm x corr) seqIdCheck fun s r =>
    let id := opNat r 0
    let q := s.seqOf id
    let b := opn r.ops 1
    let c := opn r.ops 2
    let (o, ended) := confirmLoop b.nat { s, id, q }
    let o := if corr ∧ o.q.st = 0 then
        let o := { o with q := { o.q with drafts := [] } }
        if ended then o else (seqPos { o with cdone := 1, conf := o.conf + 1 } c.nat).1
      else o
    seqOn s id (seqGate q ++ [(b.x || decide (b.nat = 0 ∨ b.nat > q.drafts.length), 0x06), (corr && symBad c, 0x07),
      (decide (q.p ≥ seqLen), 0x0A)]) (seqEnd o r)

/-- SEQ.REJECT (R392). -/
def execSeqReject (x : XF) (s : State) : Host.Outcome State Fault Refusal :=
  seqExec s (.seqReject x) seqIdCheck fun s r =>
    let id := opNat r 0
    let q := s.seqOf id
    let b := opn r.ops 1
    seqOn s id (seqGate q ++ [(b.x || decide (b.nat > 16), 0x06)])
      (seqOk (putSeq s id { q with drafts := q.drafts.take b.nat }) (q.drafts.length - b.nat))
/-- SEQ.RESUME (R392). -/
def execSeqResume (x : XF) (s : State) : Host.Outcome State Fault Refusal :=
  seqExec s (.seqResume x) seqIdCheck fun s r =>
    let id := opNat r 0
    let q := s.seqOf id
    seqOn s id [(q.st == 3, 0x01)] (if q.st = 0 then seqOk s 1 else seqOk (putSeq s id { q with st := 0 }) 0)
/-- SEQ.CLOSE (R392). -/
def execSeqClose (x : XF) (s : State) : Host.Outcome State Fault Refusal :=
  seqExec s (.seqClose x) seqIdCheck fun s r =>
    let id := opNat r 0
    seqOn s id [((s.seqOf id).st == 3, 0x01)]
      (let (s', n) := kvEmpty s (seqDie id) id; seqOk (putSeq s' id {}) n)

/-! ## Watch commands (R393 to R395) -/

/-- WCH.SET: the record was read at the release. -/
def execWchSet (x : XF) (pat len1 act : BitVec 3) (injlen : BitVec 4) (s : State) : Host.Outcome State Fault Refusal :=
  seqExec s (.wchSet x pat len1 act injlen) (fun s c vs => firstSome [idOpnd s c 0 20 (opn vs 0), recordOpnd s c 1 (opn vs 1)])
    fun s r =>
      let id := opNat r 0
      let q := s.seqOf id
      let len := len1.toNat + 1
      let ws := (List.range 8).zip r.words
      let bad := fun (e : Nat × TWord) => e.2.x || decide (e.2.d.toNat ≥ 2 ^ 40) || (decide (e.1 ≥ len) && bits e.2.d.toNat 19 0 != 0)
        || (decide (e.1 ≥ injlen.toNat) && bits e.2.d.toNat 39 20 != 0)
      let p : Pat := { len, act := act.toNat, sym := (r.words.take len).map fun w => bits w.d.toNat 19 0
                       inj := (r.words.take injlen.toNat).map fun w => bits w.d.toNat 39 20 }
      seqOn s id [(q.st == 3, 0x01), (ws.any bad, 0x09)] (seqOk (putSeq s id { q with pats := q.pats.put pat.toNat p }) 0)
/-- WCH.BUDGET. -/
def execWchBudget (x : XF) (bud : BitVec 2) (act : BitVec 3) (s : State) : Host.Outcome State Fault Refusal :=
  seqExec s (.wchBudget x bud act) seqIdCheck fun s r =>
    let id := opNat r 0
    let q := s.seqOf id
    let b := opn r.ops 1
    let c := opn r.ops 2
    let u : Bud := { act := act.toNat, sym := c.nat, limit := b.nat, count := 0, armed := b.nat != 0 && act != 0 }
    seqOn s id [(q.st == 3, 0x01), (b.x || decide (b.nat ≥ 2 ^ 32), 0x06), (c.x || decide (c.nat > wildSym), 0x07)]
      (seqOk (putSeq s id { q with buds := q.buds.put bud.toNat u }) 0)
/-- WCH.CLR. -/
def execWchClr (x : XF) (pmask : BitVec 8) (bmask : BitVec 4) (notify : Bool) (s : State) : Host.Outcome State Fault Refusal :=
  seqExec s (.wchClr x pmask bmask notify) seqIdCheck fun s r =>
    let id := opNat r 0
    let q := s.seqOf id
    let pats := (List.range 8).foldl (fun (m : Sp Pat) k => if bit pmask.toNat k then m.put k { Sp.get m k {} with act := 0 } else m) q.pats
    let buds := (List.range 4).foldl (fun (m : Sp Bud) k =>
      if bit bmask.toNat k then m.put k { Sp.get m k {} with count := 0, armed := false } else m) q.buds
    seqOn s id [(q.st == 3, 0x01)] (seqOk (putSeq s id { q with pats, buds, notify := if notify then 0 else q.notify }) 0)
/-- WCH.STAT: never CLOSED, DAMAGED on a damaged sequence (R369); it clears NOTIFY. -/
def execWchStat (x : XF) (s : State) : Host.Outcome State Fault Refusal :=
  seqExec s (.wchStat x) seqIdCheck fun s r =>
    let id := opNat r 0
    let q := s.seqOf id
    let pact := natSum ((List.range 8).map fun k => if (q.pats.get k {}).act ≠ 0 then 2 ^ k else 0)
    let barm := natSum ((List.range 4).map fun k => if (q.buds.get k {}).armed then 2 ^ k else 0)
    if q.st = 3 then seqOk s (3 * 2 ^ 37)
    else seqOn s id [] <| seqOk (putSeq s id { q with notify := 0 })
      (pact * 2 ^ 55 + barm * 2 ^ 51 + q.notify * 2 ^ 39 + q.st * 2 ^ 37 + q.drafts.length * 2 ^ 32 + q.p % 2 ^ 32)

end Sys2Proof.Machine
end

