-- ==== Sys2Proof/Machine/Integer.lean ====
section
/-! DEFINITION. Meanings: integer instructions (R137 to R143). -/

namespace Sys2Proof.Machine

/-- A two-operand instruction at type T: an operand with X gives an error token (R137). -/
def int2 (t : ITy) (k : Int → Int → Val) (vs : List Val) : FRes :=
  let a := opn vs 0
  let b := opn vs 1
  if a.x || b.x then .val Val.err else .val (k (rdInt t a.nat) (rdInt t b.nat))
/-- A one-operand instruction at type T. -/
def int1 (t : ITy) (k : Int → Val) (vs : List Val) : FRes :=
  let a := opn vs 0
  if a.x then .val Val.err else .val (k (rdInt t a.nat))
/-- Instructions on n-bit patterns. -/
def pat2 (t : ITy) (k : Nat → Nat → Nat) (vs : List Val) : FRes :=
  let a := opn vs 0
  let b := opn vs 1
  if a.x || b.x then .val Val.err else .val (putPat t (k (a.nat % 2 ^ t.bits) (b.nat % 2 ^ t.bits)))
def pat1 (t : ITy) (k : Nat → Val) (vs : List Val) : FRes :=
  let a := opn vs 0
  if a.x then .val Val.err else .val (k (a.nat % 2 ^ t.bits))
/-- A compare delivers the natural 0 or 1 whatever T is (R131). -/
def cmpVal (b : Bool) : Val := Val.ofNat (bnat b)

/-- Division truncating toward zero, and the remainder with the sign of a; by zero an error token with INV (R138). -/
def divOp (t : ITy) (vs : List Val) : FRes :=
  let a := opn vs 0
  let b := opn vs 1
  if a.x || b.x then .val Val.err
  else if rdInt t b.nat = 0 then .val Val.err flInv
  else .val (putInt t ((rdInt t a.nat).tdiv (rdInt t b.nat)))
def remOp (t : ITy) (vs : List Val) : FRes :=
  let a := opn vs 0
  let b := opn vs 1
  if a.x || b.x then .val Val.err
  else if rdInt t b.nat = 0 then .val Val.err flInv
  else .val (putInt t ((rdInt t a.nat).tmod (rdInt t b.nat)))

/-- Shifts of an n-bit pattern by a natural count (R139). -/
def shlPat (n p c : Nat) : Nat := if c ≥ n then 0 else p * 2 ^ c % 2 ^ n
def shrPat (n p c : Nat) : Nat := if c ≥ n then 0 else p / 2 ^ c
def sarPat (n p c : Nat) : Nat := Num.wrap (Num.asS p n / 2 ^ (min c n)) n
def rotPat (n p c : Nat) : Nat := p / 2 ^ (c % n) + p % 2 ^ (c % n) * 2 ^ (n - c % n)

/-- ADD (R137). -/
def execAdd (t : ITy) (g : GF) (s : State) : Host.Outcome State Fault Refusal :=
  fireWord s (.add t g) fun _ _ _ _ vs => int2 t (fun a b => putInt t (a + b)) vs
/-- SUB (R137). -/
def execSub (t : ITy) (g : GF) (s : State) : Host.Outcome State Fault Refusal :=
  fireWord s (.sub t g) fun _ _ _ _ vs => int2 t (fun a b => putInt t (a - b)) vs
/-- MUL (R137). -/
def execMul (t : ITy) (g : GF) (s : State) : Host.Outcome State Fault Refusal :=
  fireWord s (.mul t g) fun _ _ _ _ vs => int2 t (fun a b => putInt t (a * b)) vs
/-- MULH (R137). -/
def execMulh (w : IWidth) (g : GF) (s : State) : Host.Outcome State Fault Refusal :=
  fireWord s (.mulh w g) fun _ _ _ _ vs => int2 (.s w) (fun a b => putInt (.s w) (a * b / 2 ^ w.bits)) vs
/-- MULHN (R137). -/
def execMulhn (w : IWidth) (g : GF) (s : State) : Host.Outcome State Fault Refusal :=
  fireWord s (.mulhn w g) fun _ _ _ _ vs => int2 (.n w) (fun a b => putInt (.n w) (a * b / 2 ^ w.bits)) vs
/-- DIV (R138). -/
def execDiv (w : IWidth) (g : GF) (s : State) : Host.Outcome State Fault Refusal :=
  fireWord s (.div w g) fun _ _ _ _ vs => divOp (.s w) vs
/-- DIVN (R138). -/
def execDivn (w : IWidth) (g : GF) (s : State) : Host.Outcome State Fault Refusal :=
  fireWord s (.divn w g) fun _ _ _ _ vs => divOp (.n w) vs
/-- REM (R138). -/
def execRem (w : IWidth) (g : GF) (s : State) : Host.Outcome State Fault Refusal :=
  fireWord s (.rem w g) fun _ _ _ _ vs => remOp (.s w) vs
/-- REMN (R138). -/
def execRemn (w : IWidth) (g : GF) (s : State) : Host.Outcome State Fault Refusal :=
  fireWord s (.remn w g) fun _ _ _ _ vs => remOp (.n w) vs
/-- MIN (R137). -/
def execMin (w : IWidth) (g : GF) (s : State) : Host.Outcome State Fault Refusal :=
  fireWord s (.min w g) fun _ _ _ _ vs => int2 (.s w) (fun a b => putInt (.s w) (if a ≤ b then a else b)) vs
/-- MINN (R137). -/
def execMinn (w : IWidth) (g : GF) (s : State) : Host.Outcome State Fault Refusal :=
  fireWord s (.minn w g) fun _ _ _ _ vs => int2 (.n w) (fun a b => putInt (.n w) (if a ≤ b then a else b)) vs
/-- MAX (R137). -/
def execMax (w : IWidth) (g : GF) (s : State) : Host.Outcome State Fault Refusal :=
  fireWord s (.max w g) fun _ _ _ _ vs => int2 (.s w) (fun a b => putInt (.s w) (if a ≥ b then a else b)) vs
/-- MAXN (R137). -/
def execMaxn (w : IWidth) (g : GF) (s : State) : Host.Outcome State Fault Refusal :=
  fireWord s (.maxn w g) fun _ _ _ _ vs => int2 (.n w) (fun a b => putInt (.n w) (if a ≥ b then a else b)) vs
/-- AND (R137). -/
def execAnd (t : ITy) (g : GF) (s : State) : Host.Outcome State Fault Refusal :=
  fireWord s (.and t g) fun _ _ _ _ vs => pat2 t (fun a b => a &&& b) vs
/-- OR (R137). -/
def execOr (t : ITy) (g : GF) (s : State) : Host.Outcome State Fault Refusal :=
  fireWord s (.or t g) fun _ _ _ _ vs => pat2 t (fun a b => a ||| b) vs
/-- XOR (R137). -/
def execXor (t : ITy) (g : GF) (s : State) : Host.Outcome State Fault Refusal :=
  fireWord s (.xor t g) fun _ _ _ _ vs => pat2 t (fun a b => a ^^^ b) vs
/-- ANDN (R137). -/
def execAndn (t : ITy) (g : GF) (s : State) : Host.Outcome State Fault Refusal :=
  fireWord s (.andn t g) fun _ _ _ _ vs => pat2 t (fun a b => a &&& (2 ^ t.bits - 1 - b)) vs
/-- ORN (R137). -/
def execOrn (t : ITy) (g : GF) (s : State) : Host.Outcome State Fault Refusal :=
  fireWord s (.orn t g) fun _ _ _ _ vs => pat2 t (fun a b => a ||| (2 ^ t.bits - 1 - b)) vs
/-- SHL (R139). -/
def execShl (t : ITy) (g : GF) (s : State) : Host.Outcome State Fault Refusal :=
  fireWord s (.shl t g) fun _ _ _ _ vs => pat2 t (shlPat t.bits) vs
/-- SHR (R139). -/
def execShr (t : ITy) (g : GF) (s : State) : Host.Outcome State Fault Refusal :=
  fireWord s (.shr t g) fun _ _ _ _ vs => pat2 t (shrPat t.bits) vs
/-- SAR (R139). -/
def execSar (t : ITy) (g : GF) (s : State) : Host.Outcome State Fault Refusal :=
  fireWord s (.sar t g) fun _ _ _ _ vs => pat2 t (sarPat t.bits) vs
/-- ROT (R139). -/
def execRot (t : ITy) (g : GF) (s : State) : Host.Outcome State Fault Refusal :=
  fireWord s (.rot t g) fun _ _ _ _ vs => pat2 t (rotPat t.bits) vs
/-- TEQ (R137). -/
def execTeq (t : ITy) (g : GF) (s : State) : Host.Outcome State Fault Refusal :=
  fireWord s (.teq t g) fun _ _ _ _ vs => int2 t (fun a b => cmpVal (decide (a = b))) vs
/-- TNE (R137). -/
def execTne (t : ITy) (g : GF) (s : State) : Host.Outcome State Fault Refusal :=
  fireWord s (.tne t g) fun _ _ _ _ vs => int2 t (fun a b => cmpVal (decide (a ≠ b))) vs
/-- TLT (R137). -/
def execTlt (w : IWidth) (g : GF) (s : State) : Host.Outcome State Fault Refusal :=
  fireWord s (.tlt w g) fun _ _ _ _ vs => int2 (.s w) (fun a b => cmpVal (decide (a < b))) vs
/-- TLTN (R137). -/
def execTltn (w : IWidth) (g : GF) (s : State) : Host.Outcome State Fault Refusal :=
  fireWord s (.tltn w g) fun _ _ _ _ vs => int2 (.n w) (fun a b => cmpVal (decide (a < b))) vs
/-- TLE (R137). -/
def execTle (w : IWidth) (g : GF) (s : State) : Host.Outcome State Fault Refusal :=
  fireWord s (.tle w g) fun _ _ _ _ vs => int2 (.s w) (fun a b => cmpVal (decide (a ≤ b))) vs
/-- TLEN (R137). -/
def execTlen (w : IWidth) (g : GF) (s : State) : Host.Outcome State Fault Refusal :=
  fireWord s (.tlen w g) fun _ _ _ _ vs => int2 (.n w) (fun a b => cmpVal (decide (a ≤ b))) vs
/-- NEG (R137). -/
def execNeg (t : ITy) (g : GF) (s : State) : Host.Outcome State Fault Refusal :=
  fireWord s (.neg t g) fun _ _ _ _ vs => int1 t (fun a => putInt t (-a)) vs
/-- ABS (R137). -/
def execAbs (t : ITy) (g : GF) (s : State) : Host.Outcome State Fault Refusal :=
  fireWord s (.abs t g) fun _ _ _ _ vs => int1 t (fun a => putInt t a.natAbs) vs
/-- CLZ (R137). -/
def execClz (t : ITy) (g : GF) (s : State) : Host.Outcome State Fault Refusal :=
  fireWord s (.clz t g) fun _ _ _ _ vs => pat1 t (fun p => Val.ofNat (Num.clz p t.bits)) vs
/-- CTZ (R137). -/
def execCtz (t : ITy) (g : GF) (s : State) : Host.Outcome State Fault Refusal :=
  fireWord s (.ctz t g) fun _ _ _ _ vs => pat1 t (fun p => Val.ofNat (if p = 0 then t.bits else Num.ctz p t.bits)) vs
/-- POPC (R137). -/
def execPopc (t : ITy) (g : GF) (s : State) : Host.Outcome State Fault Refusal :=
  fireWord s (.popc t g) fun _ _ _ _ vs => pat1 t (fun p => Val.ofNat (Num.popc p t.bits)) vs
/-- BSWAP (R137). -/
def execBswap (t : ITy) (g : GF) (s : State) : Host.Outcome State Fault Refusal :=
  fireWord s (.bswap t g) fun _ _ _ _ vs => pat1 t (fun p => putPat t (Num.bswap p (t.bits / 8))) vs
/-- MOV: the value read and written at T, with its own X bit (R140). -/
def execMov (t : ITy) (pred : Pred) (t1 : Target) (s : State) : Host.Outcome State Fault Refusal :=
  fireWord s (.mov t pred t1) fun _ _ _ _ vs => .val ⟨(putInt t (rdInt t (opn vs 0).nat)).d, (opn vs 0).x⟩
/-- MOV2 (R140). -/
def execMov2 (t : ITy) (g : GF) (s : State) : Host.Outcome State Fault Refusal :=
  fireWord s (.mov2 t g) fun _ _ _ _ vs => .val ⟨(putInt t (rdInt t (opn vs 0).nat)).d, (opn vs 0).x⟩
/-- MKX (R140). -/
def execMkx (t : ITy) (g : GF) (s : State) : Host.Outcome State Fault Refusal :=
  fireWord s (.mkx t g) fun _ _ _ _ vs => .val ⟨(putInt t (rdInt t (opn vs 0).nat)).d, true⟩
/-- CLRX (R140). -/
def execClrx (t : ITy) (g : GF) (s : State) : Host.Outcome State Fault Refusal :=
  fireWord s (.clrx t g) fun _ _ _ _ vs => .val (putInt t (rdInt t (opn vs 0).nat))

/-! ## Immediate forms (R141, R142) -/

/-- The immediate of a compare, read at type T. -/
def immAt (t : ITy) (imm : BitVec 9) : Int := rdInt t (Num.wrap imm.toInt t.bits)

/-- ADDI (R141). -/
def execAddi (t : ITy) (f : TF) (imm : BitVec 9) (s : State) : Host.Outcome State Fault Refusal :=
  fireWord s (.addi t f imm) fun _ _ _ _ vs => int1 t (fun a => putInt t (a + imm.toInt)) vs
/-- TEQI (R141). -/
def execTeqi (t : ITy) (f : TF) (imm : BitVec 9) (s : State) : Host.Outcome State Fault Refusal :=
  fireWord s (.teqi t f imm) fun _ _ _ _ vs => int1 t (fun a => cmpVal (decide (a = immAt t imm))) vs
/-- TNEI (R141). -/
def execTnei (t : ITy) (f : TF) (imm : BitVec 9) (s : State) : Host.Outcome State Fault Refusal :=
  fireWord s (.tnei t f imm) fun _ _ _ _ vs => int1 t (fun a => cmpVal (decide (a ≠ immAt t imm))) vs
/-- TLTI (R141). -/
def execTlti (w : IWidth) (f : TF) (imm : BitVec 9) (s : State) : Host.Outcome State Fault Refusal :=
  fireWord s (.tlti w f imm) fun _ _ _ _ vs => int1 (.s w) (fun a => cmpVal (decide (a < immAt (.s w) imm))) vs
/-- TLTNI (R141). -/
def execTltni (w : IWidth) (f : TF) (imm : BitVec 9) (s : State) : Host.Outcome State Fault Refusal :=
  fireWord s (.tltni w f imm) fun _ _ _ _ vs => int1 (.n w) (fun a => cmpVal (decide (a < immAt (.n w) imm))) vs
/-- TLEI (R141). -/
def execTlei (w : IWidth) (f : TF) (imm : BitVec 9) (s : State) : Host.Outcome State Fault Refusal :=
  fireWord s (.tlei w f imm) fun _ _ _ _ vs => int1 (.s w) (fun a => cmpVal (decide (a ≤ immAt (.s w) imm))) vs
/-- TLENI (R141). -/
def execTleni (w : IWidth) (f : TF) (imm : BitVec 9) (s : State) : Host.Outcome State Fault Refusal :=
  fireWord s (.tleni w f imm) fun _ _ _ _ vs => int1 (.n w) (fun a => cmpVal (decide (a ≤ immAt (.n w) imm))) vs
/-- SEXT and ZEXT take m bits of the whole operand A (R141). -/
def extBody (vs : List Val) (k : Nat → Val) : FRes :=
  let a := opn vs 0
  if a.x then .val Val.err else .val (k a.nat)

/-- SEXT (R141). -/
def execSext (t : ITy) (f : TF) (m : BitVec 9) (s : State) : Host.Outcome State Fault Refusal :=
  fireWord s (.sext t f m) fun _ _ _ _ vs => extBody vs fun a => putInt t (Num.asS a m.toNat)
/-- ZEXT (R141). -/
def execZext (t : ITy) (f : TF) (m : BitVec 9) (s : State) : Host.Outcome State Fault Refusal :=
  fireWord s (.zext t f m) fun _ _ _ _ vs => extBody vs fun a => putInt t ((a % 2 ^ m.toNat : Nat) : Int)
/-- GENC (R142). -/
def execGenc (const : BitVec 16) (tgt : Target) (s : State) : Host.Outcome State Fault Refusal :=
  fireWord s (.genc const tgt) fun _ _ _ _ _ => .val ⟨BitVec.ofInt 64 const.toInt, false⟩
/-- APPC (R142). -/
def execAppc (const : BitVec 16) (tgt : Target) (s : State) : Host.Outcome State Fault Refusal :=
  fireWord s (.appc const tgt) fun _ _ _ _ vs => extBody vs fun a => Val.ofNat (a * 2 ^ 16 + const.toNat)

/-! ## Three-operand forms (R143) -/

/-- Any operand with X gives an error token with zero data. -/
def errAny (vs : List Val) (k : Val) : FRes := if vs.any (·.x) then .val Val.err else .val k

/-- MADD (R143). -/
def execMadd (f : TF) (t : ITy) (s : State) : Host.Outcome State Fault Refusal :=
  fireWord s (.madd f t) fun _ _ _ _ vs => errAny vs (putInt t (rdInt t (opn vs 0).nat * rdInt t (opn vs 1).nat + rdInt t (opn vs 2).nat))
/-- SEL (R143). -/
def execSel (f : TF) (t : ITy) (s : State) : Host.Outcome State Fault Refusal :=
  fireWord s (.sel f t) fun _ _ _ _ vs => errAny vs (putInt t (rdInt t (if bit (opn vs 0).nat 0 then opn vs 1 else opn vs 2).nat))
/-- BFX: LEN bits of A from POS on (R143). -/
def execBfx (f : TF) (t : ITy) (pos len1 : BitVec 6) (s : State) : Host.Outcome State Fault Refusal :=
  fireWord s (.bfx f t pos len1) fun _ _ _ _ vs =>
    let p := (opn vs 0).nat / 2 ^ pos.toNat % 2 ^ (len1.toNat + 1)
    errAny vs (putInt t (if t.signed then Num.asS p (len1.toNat + 1) else (p : Int)))
/-- BFI: LEN bits of A from POS on replaced by the low bits of B (R143). -/
def execBfi (f : TF) (t : ITy) (pos len1 : BitVec 6) (s : State) : Host.Outcome State Fault Refusal :=
  fireWord s (.bfi f t pos len1) fun _ _ _ _ vs =>
    errAny vs (putPat t (setBits ((opn vs 0).nat % 2 ^ t.bits) pos.toNat (len1.toNat + 1) (opn vs 1).nat))

end Sys2Proof.Machine
end

