-- ==== Sys2Proof/Machine/Integrator.lean ====
section
/-! DEFINITION. Meanings: the integrator array (opcode 0x74, chapter 12) and its events. -/

namespace Sys2Proof.Machine

/-- DDA_DESC (Table 12.5). -/
def cDdaDesc : Nat := 0x26
/-- Reasons of Table 12.6. -/
def daBusy : Nat := 1
def daData : Nat := 2
def daImage : Nat := 3
/-- Words of a domain image. -/
def domImageWords : Nat := 328

/-! ## Checks (R309, R314) -/

/-- A word-index operand with its range: words, alignment. -/
def ddaWordOpnd (s : State) (c : Nat) (v : Val) (words algn : Nat) (wr : Bool) : Option FRes :=
  if v.x then some (.trap cOpndX v.nat (word5 0 0 wr .loc))
  else if v.nat ≥ 2 ^ 17 then some (descTrap cDdaDesc v 0 1)
  else if v.nat % algn ≠ 0 then some (.trap cAlign v.nat (word5 0 0 wr .loc))
  else if v.nat + words > Config.spWords then some (descTrap cDdaDesc v 0 3)
  else if v.nat + words > bits (s.core c).frameBase.toNat 16 0 then some (.trap cFrameProt v.nat (word5 0 rsFrame wr .loc))
  else none
/-- A plain operand of so many bits. -/
def ddaNatOpnd (v : Val) (n : Nat) : Option FRes :=
  if v.x then some (.trap cOpndX v.nat (word5 0 0 false .loc))
  else if v.nat ≥ 2 ^ n then some (descTrap cDdaDesc v 0 1) else none

/-- The plane set that a tap's A names (R314). -/
def tapPlaneOpnd (s : State) (c : Nat) (t : Tap) (v : Val) : Option FRes :=
  let p := t.set c
  let words := (t.nelem + 1023) / 1024 * p.size
  let wr := t.mode == 2
  if v.x then some (.trap cOpndX v.nat (word5 0 0 wr .loc))
  else if bits v.nat 63 42 ≠ 0 ∨ bits v.nat 19 17 ≠ 0 then some (descTrap cDdaDesc v 0 1)
  else if t.nelem = 0 then some (descTrap cDdaDesc v 0 2)
  else if p.base % 16 ≠ 0 then some (.trap cAlign v.nat (word5 0 0 wr .loc))
  else if p.base + words > Config.spWords then some (descTrap cDdaDesc v 0 3)
  else if p.base + words > bits (s.core c).frameBase.toNat 16 0 then some (.trap cFrameProt v.nat (word5 0 rsFrame wr .loc))
  else none
/-- The operand checks of DDA.TAP by its mode (R314). -/
def tapCheck (s : State) (c : Nat) (mode : BitVec 2) (rest : BitVec 26) (a b : Val) : Option FRes :=
  let t : Tap := { mode := mode.toNat, rest := rest.toNat, a := a.d }
  let period := if b.x then some (FRes.trap cOpndX b.nat (word5 1 0 false .loc))
    else if b.nat = 0 ∨ b.nat ≥ 2 ^ 32 then some (descTrap cDdaDesc b 1 4) else none
  match mode.toNat with
  | 0 => none
  | 1 => firstSome [if a.x then some (.trap cOpndX a.nat (word5 0 0 false .loc)) else if fpBad s a.nat then some (.trap cBadFp a.nat 0) else none, period]
  | 2 => firstSome [tapPlaneOpnd s c t a, period]
  | _ => tapPlaneOpnd s c t a

/-! ## A command in the array -/

/-- What a command does when it takes effect: it waits on an empty word; or it is done, with token data and X, or with a
token that comes later. -/
inductive DRes where
  | wait (key : Nat)
  | done (s : State) (v : Nat) (x : Bool)
  | later (s : State)
/-- A condition of Table 12.6 (R310). -/
def DRes.cond (s : State) (reason : Nat) : DRes := .done s (reason * 2 ^ 56) true

/-- The head of the queue takes effect whole (R307). -/
def ddaWork (s : State) (c : Nat) (r : Released) (q : List EngCmd) (eff : State → Nat → Released → DRes) : State :=
  let s := secStart s c r.sec
  match eff s c r with
  | .wait key => awake (modDda s c fun a => { a with waitW := some key }) key
  | .done s v x => sendDone (modDda s c fun a => { a with queue := q, waitW := none }) r ⟨BitVec.ofNat 64 v, x⟩
  | .later s => modDda s c fun a => { a with queue := q, waitW := none }

/-- The meaning of an integrator command: its checks in a firing, its effect in the array. -/
def ddaExec (s : State) (i : Instr) (chk : State → Nat → List Val → Option FRes) (eff : State → Nat → Released → DRes) :
    Host.Outcome State Fault Refusal :=
  match s.focus with
  | .engine c .dda =>
    (match (s.core c).dda.queue with
      | r :: q => if r.i = i then .next (ddaWork s c r q eff) else .refused .notEnabled
      | [] => .refused .notEnabled)
  | _ => fireWord s i fun s c f n vs =>
    match chk s c vs with
    | some t => t
    | none => relOut i c f n vs

/-- The words from a command's operand A on, once all are full. -/
def ddaWords (s : State) (c : Nat) (r : Released) (n : Nat) (k : List TWord → DRes) : DRes :=
  let keys := (List.range n).map fun j => wordKey c (opNat r 0 + j)
  match firstEmpty s.mem keys with
  | some key => .wait key
  | none => k (keys.map (getWord s.mem))
def cellRange (first count1 : BitVec 8) : List Nat := (List.range (count1.toNat + 1)).map (· + first.toNat)
def running (a : Dda) (d : Nat) : Bool := (a.dom d).run

/-! ## DDA.PATCH (R299, R300, R311, R344) -/

/-- A configuration word that R300 or R344 rejects. -/
def patchWordBad (s : State) (c : Nat) (w : BitVec 64) : Bool :=
  decide (cellN w < 8) || (List.range 5).any fun f => match srcAt w f with
    | .bad => true
    | .none => cellSrc w f != 0
    | .link p _ => p == c % 4 || !(s.core (quadCore c p)).mapped
    | _ => false
/-- A link word's entries that R300 or R344 reject. -/
def patchLinkBad (s : State) (c j : Nat) (w : BitVec 64) : Bool :=
  (List.range 4).any fun e =>
    let x := w.toNat / 2 ^ (16 * e) % 2 ^ 16
    bits x 14 8 != 0 || (j / 4 == c % 4 && x != 0) || (bit x 15 && !(s.core (quadCore c (j / 4))).mapped)
/-- A feed channel read by enabled cells of two domains. -/
def feedClash (a : Dda) : Bool :=
  (List.range 8).any fun ch => decide (((List.range 8).filter fun d => (domFeeds a d).contains ch).length > 1)
/-- The cells of link entries that differ between two link tables. -/
def linkChanges (old new : Dda) : List Nat :=
  (((linkEntries old).filter fun e => !(linkEntries new).contains e) ++ (linkEntries new).filter fun e => !(linkEntries old).contains e).map (·.1)

def patchEff (first count1 : BitVec 8) (links : Bool) (s : State) (c : Nat) (r : Released) : DRes :=
  let cells := cellRange first count1
  ddaWords s c r (cells.length + 16 * bnat links) fun ws =>
    let a := (s.core c).dda
    let cfg := cells.zip (ws.map (·.d))
    let lw := (ws.drop cells.length).map (·.d)
    let put := fun (m : Sp DCell) (e : Nat × BitVec 64) => m.put e.1 { Sp.get m e.1 {} with cfg := e.2, y := 0, r := 0, dz := 0 }
    let hit := fun (k f : Nat) => cells.contains k || match srcAt (a.cell k).cfg f with | .cell p => cells.contains p | _ => false
    let emptied := (List.range 256).foldl (fun (m : Sp DCell) k =>
      let x := a.cell k
      if (List.range 5).any fun f => hit k f && latchOf x f != 0 then
        m.put k { x with lat := (List.range 5).map fun f => if hit k f then 0 else latchOf x f }
      else m) a.cells
    let b : Dda := { a with cells := cfg.foldl put emptied, links := if links then lw else a.links }
    let moved := cells.flatMap (fun k => [cellDom (a.cell k).cfg, cellDom (b.cell k).cfg])
      ++ (linkChanges a b).flatMap fun k => [cellDom (a.cell k).cfg, cellDom (b.cell k).cfg]
    if moved.any (running a) then .cond s daBusy
    else if ws.any (·.x) || cfg.any (fun e => patchWordBad s c e.2)
        || ((List.range lw.length).zip lw).any (fun e => patchLinkBad s c e.1 e.2) || feedClash b then .cond s daData
    else .done (modDda s c fun _ => b) 0 false
/-- DDA.PATCH. -/
def execDdaPatch (x : XF) (first count1 : BitVec 8) (links : Bool) (s : State) : Host.Outcome State Fault Refusal :=
  ddaExec s (.ddaPatch x first count1 links)
    (fun s c vs => ddaWordOpnd s c (opn vs 0) (count1.toNat + 1 + 16 * bnat links) 8 false) (patchEff first count1 links)

/-! ## Loads, dividers, runs (R312, R313) -/

/-- LDY and LDR: words into cells of stopped domains. -/
def loadEff (first count1 : BitVec 8) (res : Bool) (s : State) (c : Nat) (r : Released) : DRes :=
  let cells := cellRange first count1
  ddaWords s c r cells.length fun ws =>
    let a := (s.core c).dda
    let vals := cells.zip (ws.map fun w => Num.asS (w.d.toNat % 2 ^ 32) 32)
    let fits := fun (e : Nat × Int) =>
      let h : Int := (2 ^ (cellN (a.cell e.1).cfg - 1) : Nat)
      decide (-h ≤ e.2 ∧ e.2 < h)
    if cells.any fun k => running a (cellDom (a.cell k).cfg) then .cond s daBusy
    else if ws.any (·.x) || (res && vals.any fun e => !fits e) then .cond s daData
    else .done (modDda s c fun a => vals.foldl (fun (a : Dda) e =>
      { a with cells := a.cells.put e.1 (if res then { a.cell e.1 with r := e.2 } else { a.cell e.1 with y := e.2 }) }) a) 0 false
/-- DDA.LDY. -/
def execDdaLdy (x : XF) (first count1 : BitVec 8) (s : State) : Host.Outcome State Fault Refusal :=
  ddaExec s (.ddaLdy x first count1) (fun s c vs => ddaWordOpnd s c (opn vs 0) (count1.toNat + 1) 1 false) (loadEff first count1 false)
/-- DDA.LDR. -/
def execDdaLdr (x : XF) (first count1 : BitVec 8) (s : State) : Host.Outcome State Fault Refusal :=
  ddaExec s (.ddaLdr x first count1) (fun s c vs => ddaWordOpnd s c (opn vs 0) (count1.toNat + 1) 1 false) (loadEff first count1 true)

/-- DDA.CLK. -/
def execDdaClk (x : XF) (dom : BitVec 3) (s : State) : Host.Outcome State Fault Refusal :=
  ddaExec s (.ddaClk x dom) (fun _ _ vs => ddaNatOpnd (opn vs 0) 16) fun s c r =>
    if running (s.core c).dda dom.toNat then .cond s daBusy
    else .done (modDda s c fun a => a.setDom dom.toNat { a.dom dom.toNat with d := opNat r 0 % 2 ^ 16 + 1, steps := 0 }) 0 false

/-- The domains of a mask. -/
def maskDoms (m : BitVec 8) : List Nat := (List.range 8).filter fun d => bit m.toNat d
/-- DDA.RUN: its token is the stop token of each domain. A command acts behind the steps of the present cclk, which is the start of
the next one, before the steps of that (R302). (DEDUCED, log 59) -/
def execDdaRun (x : XF) (dmask : BitVec 8) (s : State) : Host.Outcome State Fault Refusal :=
  ddaExec s (.ddaRun x dmask) (fun _ _ vs => ddaNatOpnd (opn vs 0) 45) fun s c r =>
    if (maskDoms dmask).any (running (s.core c).dda) then .cond s daBusy
    else
      let now := coreCclk s c
      let start := fun (a : Dda) (d : Nat) =>
        let y := a.dom d
        a.setDom d { y with run := true, next := now + 1 + y.d, limit := opNat r 0, fp := r.fp, sec := r.sec, fwait := false
                            slot := match x.dest with | some n => n.toNat | none => 0, cv := x.dest.isSome }
      .later (modDda s c fun a => (maskDoms dmask).foldl start a)
/-- DDA.STOP: a step whose answer is awaited is settled first. -/
def execDdaStop (x : XF) (dmask : BitVec 8) (s : State) : Host.Outcome State Fault Refusal :=
  ddaExec s (.ddaStop x dmask) (fun _ _ _ => none) fun s c _ =>
    .done (flushStops ((maskDoms dmask).foldl (fun s d =>
      let s := domAnswer s c d
      if running (s.core c).dda d then domStop s c d dsStopped 0 else s) s) c) 0 false

/-! ## DDA.TAP, DDA.READ -/

/-- DDA.TAP (R314, R315): the completion of OFF carries 0, that of another mode comes when the tap ends. -/
def execDdaTap (x : XF) (tap : BitVec 4) (mode : BitVec 2) (rest : BitVec 26) (s : State) : Host.Outcome State Fault Refusal :=
  ddaExec s (.ddaTap x tap mode rest) (fun s c vs => tapCheck s c mode rest (opn vs 0) (opn vs 1)) fun s c r =>
    let s := tapEnd s c tap.toNat false
    if mode = 0 then .done s 0 false
    else .later (setTap s c tap.toNat
      { mode := mode.toNat, rest := rest.toNat, a := (opn r.ops 0).d, k := opNat r 1, fp := r.fp
        slot := match x.dest with | some n => n.toNat | none => 0, cv := x.dest.isSome })

/-- A cell's word: Y, and the residue sign-extended (R317). -/
def cellValue (y : DCell) : Nat := Num.wrap y.y 32 + Num.wrap y.r 32 * 2 ^ 32
/-- DDA.READ (R317). -/
def execDdaRead (x : XF) (first count1 : BitVec 8) (s : State) : Host.Outcome State Fault Refusal :=
  ddaExec s (.ddaRead x first count1) (fun s c vs => ddaWordOpnd s c (opn vs 0) (count1.toNat + 1) 1 true) fun s c r =>
    .done (putWords s c (opNat r 0) ((cellRange first count1).map fun k => cellValue ((s.core c).dda.cell k))) 0 false

/-! ## Images (R318, Table 12.7) -/

def dzCode (v : Int) : Nat := if v = 1 then 1 else if v = -1 then 3 else 0
def dzOf (n : Nat) : Int := match n % 4 with | 1 => 1 | 3 => -1 | _ => 0
/-- The cells whose DOM field is d. -/
def maskCells (a : Dda) (d : Nat) : List Nat := (List.range 256).filter fun k => cellDom (a.cell k).cfg == d
def maskWord (l : List Nat) (j : Nat) : Nat := natSum ((l.filter fun k => k / 64 == j).map fun k => 2 ^ (k % 64))
/-- A domain's image; a stopped domain holds no limit and no pointer (R331). -/
def domImage (a : Dda) (d : Nat) : List Nat :=
  let x := a.dom d
  let l := maskCells a d
  let lat := fun (k : Nat) => let y := a.cell k
    dzCode y.dz + natSum ((List.range 5).map fun f => dzCode (latchOf y f) * 4 ^ (f + 1))
  [d + bnat x.run * 8 + (x.d - 1) * 2 ^ 8, x.steps, x.limit, x.fp % 2 ^ 32 + x.slot * 2 ^ 32 + bnat x.cv * 2 ^ 39]
    ++ (List.range 4).map (maskWord l) ++ (List.range 256).map (fun k => if l.contains k then cellValue (a.cell k) else 0)
    ++ (List.range 64).map fun j => natSum ((List.range 4).map fun e => if l.contains (4 * j + e) then lat (4 * j + e) * 2 ^ (16 * e) else 0)
/-- DDA.SAVE. -/
def execDdaSave (x : XF) (dom : BitVec 3) (s : State) : Host.Outcome State Fault Refusal :=
  ddaExec s (.ddaSave x dom) (fun s c vs => ddaWordOpnd s c (opn vs 0) domImageWords 8 true) fun s c r =>
    let a := (s.core c).dda
    if running a dom.toNat then .cond s daBusy else .done (putWords s c (opNat r 0) (domImage a dom.toNat)) 0 false

/-- What makes RESTORE meet IMAGE (R318), a word or field of a cell outside the mask that is not zero too. (DEDUCED, log 61) -/
def domImageBad (s : State) (c d : Nat) (ws : List TWord) : Bool :=
  let a := (s.core c).dda
  let w := fun (n : Nat) => (nthD ws n {}).d.toNat
  let l := maskCells a d
  let fits := fun (k : Nat) =>
    let h : Int := (2 ^ (cellN (a.cell k).cfg - 1) : Nat)
    let r := Num.asS (w (8 + k) / 2 ^ 32) 32
    decide (-h ≤ r ∧ r < h)
  let code := fun (k : Nat) => w (264 + k / 4) / 2 ^ (16 * (k % 4)) % 2 ^ 16
  ws.any (·.x) || bits (w 0) 7 4 != 0 || bits (w 0) 63 24 != 0 || bits (w 0) 2 0 != d || bits (w 1) 63 45 != 0 || bits (w 2) 63 45 != 0
    || bits (w 3) 63 40 != 0 || (List.range 4).any (fun j => w (4 + j) != maskWord l j)
    || (List.range 256).any (fun k =>
        if l.contains k then !fits k || bits (code k) 15 12 != 0 || (List.range 6).any fun f => code k / 4 ^ f % 4 == 2
        else w (8 + k) != 0 || code k != 0)
    || (bit (w 0) 3 && (fpBad s (w 3 % 2 ^ 32) || fpCore (w 3 % 2 ^ 32) != c))
/-- The array with an image loaded at a cclk. -/
def domLoad (a : Dda) (d now : Nat) (sec : Option Nat) (ws : List TWord) : Dda :=
  let w := fun (n : Nat) => (nthD ws n {}).d.toNat
  let code := fun (k : Nat) => w (264 + k / 4) / 2 ^ (16 * (k % 4)) % 2 ^ 16
  let cells := (maskCells a d).foldl (fun (m : Sp DCell) k =>
    m.put k { a.cell k with y := Num.asS (w (8 + k) % 2 ^ 32) 32, r := Num.asS (w (8 + k) / 2 ^ 32) 32, dz := dzOf (code k)
                            lat := (List.range 5).map fun f => dzOf (code k / 4 ^ (f + 1)) }) a.cells
  let x := { a.dom d with d := bits (w 0) 23 8 + 1, steps := w 1 }
  let x := if bit (w 0) 3 then
      { x with run := true, next := now + x.d, limit := w 2, fp := w 3 % 2 ^ 32, slot := bits (w 3) 38 32, cv := bit (w 3) 39, fwait := false, sec }
    else x
  { a with cells }.setDom d x
/-- DDA.RESTORE. -/
def execDdaRestore (x : XF) (dom : BitVec 3) (s : State) : Host.Outcome State Fault Refusal :=
  ddaExec s (.ddaRestore x dom) (fun s c vs => ddaWordOpnd s c (opn vs 0) domImageWords 8 false) fun s c r =>
    ddaWords s c r domImageWords fun ws =>
      if running (s.core c).dda dom.toNat then .cond s daBusy
      else if domImageBad s c dom.toNat ws then .cond s daImage
      else .done (modDda s c fun a => domLoad a dom.toNat (coreCclk s c + 1) r.sec ws) 0 false

/-- DDA.STAT (R319). -/
def execDdaStat (x : XF) (dom : BitVec 3) (s : State) : Host.Outcome State Fault Refusal :=
  ddaExec s (.ddaStat x dom) (fun _ _ _ => none) fun s c _ =>
    let y := (s.core c).dda.dom dom.toNat
    .done (modDda s c fun a => a.setDom dom.toNat { y with lastr := 0 })
      (y.lastr * 2 ^ 56 + y.lastcell * 2 ^ 48 + bnat y.run * 2 ^ 47 + bnat y.fwait * 2 ^ 46 + y.steps) false

/-! ## Events -/

/-- Behind an event of cclk t: the stop tokens of the cclk when nothing more happens in it (R310), and the array's next event in the
order of R302 when it is due. -/
def ddaMore (s : State) (c t : Nat) : State :=
  let s := match ddaNext s.mem c (s.core c).dda (coreCclk s c) with
    | some (u, _) => if u = t then s else flushStops s c
    | none => flushStops s c
  (ddaDue s c (s.core c)).foldl raiseOnce s
/-- An event of the array: it happens when it is the next that is due. -/
def ddaEvent (s : State) (c kind : Nat) (k : Nat → State) : Host.Outcome State Fault Refusal :=
  match ddaNext s.mem c (s.core c).dda (coreCclk s c) with
  | some (t, n) => if n = kind then .next (ddaMore (k t) c t) else .refused .notEnabled
  | none => .refused .notEnabled
/-- DDA_STEP: every domain with a step in the cclk (R302, R304). -/
def execDdaStep (s : State) : Host.Outcome State Fault Refusal :=
  match s.focus with
  | .event (.ddaStep c) => ddaEvent s c 1 fun t => ddaCclk s c t
  | _ => .refused .notEnabled
/-- LINK_DEPOSIT (R303). -/
def execLinkDeposit (s : State) : Host.Outcome State Fault Refusal :=
  match s.focus with
  | .event (.linkDeposit c) => ddaEvent s c 2 fun t => linkArrive s c t
  | _ => .refused .notEnabled
/-- LINK_OVERRUN_ANSWER (R303). -/
def execLinkOverrunAnswer (s : State) : Host.Outcome State Fault Refusal :=
  match s.focus with
  | .event (.linkOverrunAnswer c) =>
    ddaEvent s c 0 fun t =>
      ((List.range 8).filter fun d => match ((s.core c).dda.dom d).hold with | some u => decide (u + 8 ≤ t) | none => false).foldl
        (fun s d => domAnswer s c d) s
  | _ => .refused .notEnabled

end Sys2Proof.Machine
end

