-- ==== Sys2Proof/Machine/System.lean ====
section
/-! DEFINITION. Meanings: time, control registers, counters, TLB.INV (R185 to R190). -/

namespace Sys2Proof.Machine

/-- TICK (R185). -/
def execTick (g : GF) (s : State) : Host.Outcome State Fault Refusal :=
  fireWord s (.tick g) fun s _ _ _ _ => .val (Val.ofNat s.tick)
/-- WAITTICK: the timer is released at step 4 (R186). -/
def execWaittick (pred : Pred) (s : State) : Host.Outcome State Fault Refusal :=
  fireWord s (.waittick pred) fun _ c f n vs =>
    if (opn vs 0).x || (opn vs 1).x then .trap cOpndX 0 0 else relOut (.waittick pred) c f n vs

/-- SYS.RD: the register as it stands; an RC register clears at commit (R187). -/
def execSysRd (f : TF) (reg : BitVec 9) (s : State) : Host.Outcome State Fault Refusal :=
  fireWord s (.sysRd f reg) fun s c _ n _ =>
    let v := Val.ofNat (coreRegRead s c reg.toNat)
    .ok { v := some (some v), outs := if rcReg reg.toNat then [.rc n reg.toNat v.d] else [] }
/-- SYS.WR: reserved bits trap, then the handler reservation; the write is released at step 4 (R188). -/
def execSysWr (pred : Pred) (reg : BitVec 9) (s : State) : Host.Outcome State Fault Refusal :=
  fireWord s (.sysWr pred reg) fun _ c f n vs =>
    let a := opn vs 0
    if a.x then .trap cOpndX 0 0
    else if coreReserved reg.toNat a.nat then .trap 0x02 0 0
    else if handlerReg reg.toNat && !f.hdr.handler then protHandler
    else relOut (.sysWr pred reg) c f n vs
/-- PERF.RD (R189). -/
def execPerfRd (f : TF) (ctr : BitVec 9) (s : State) : Host.Outcome State Fault Refusal :=
  fireWord s (.perfRd f ctr) fun s c _ _ _ => .val (Val.ofNat (perfRead s c ctr.toNat))
/-- TLB.INV (R190). -/
def execTlbInv (pred : Pred) (scope : Scope) (s : State) : Host.Outcome State Fault Refusal :=
  fireWord s (.tlbInv pred scope) fun _ c f n vs =>
    if (opn vs 0).x then .trap cOpndX 0 0
    else if !f.hdr.handler then protHandler
    else relOut (.tlbInv pred scope) c f n vs

end Sys2Proof.Machine
end

