-- ==== Sys2Proof/Machine/Dispatch.lean ====
section
/-! DEFINITION. Which meaning runs an instruction: one arm per row of the opcode table. -/

namespace Sys2Proof.Machine

def exec (i : Instr) (s : State) : Host.Outcome State Fault Refusal :=
  match i with
  | .broEnd pred => Sys2Proof.Machine.execBroEnd pred s
  | .broKeep pred => Sys2Proof.Machine.execBroKeep pred s
  | .broRearm pred => Sys2Proof.Machine.execBroRearm pred s
  | .broCont pred task => Sys2Proof.Machine.execBroCont pred task s
  | .null g => Sys2Proof.Machine.execNull g s
  | .pand g => Sys2Proof.Machine.execPand g s
  | .por g => Sys2Proof.Machine.execPor g s
  | .pnot g => Sys2Proof.Machine.execPnot g s
  | .testX g => Sys2Proof.Machine.execTestX g s
  | .add t g => Sys2Proof.Machine.execAdd t g s
  | .sub t g => Sys2Proof.Machine.execSub t g s
  | .mul t g => Sys2Proof.Machine.execMul t g s
  | .mulh w g => Sys2Proof.Machine.execMulh w g s
  | .mulhn w g => Sys2Proof.Machine.execMulhn w g s
  | .div w g => Sys2Proof.Machine.execDiv w g s
  | .divn w g => Sys2Proof.Machine.execDivn w g s
  | .rem w g => Sys2Proof.Machine.execRem w g s
  | .remn w g => Sys2Proof.Machine.execRemn w g s
  | .min w g => Sys2Proof.Machine.execMin w g s
  | .minn w g => Sys2Proof.Machine.execMinn w g s
  | .max w g => Sys2Proof.Machine.execMax w g s
  | .maxn w g => Sys2Proof.Machine.execMaxn w g s
  | .and t g => Sys2Proof.Machine.execAnd t g s
  | .or t g => Sys2Proof.Machine.execOr t g s
  | .xor t g => Sys2Proof.Machine.execXor t g s
  | .andn t g => Sys2Proof.Machine.execAndn t g s
  | .orn t g => Sys2Proof.Machine.execOrn t g s
  | .shl t g => Sys2Proof.Machine.execShl t g s
  | .shr t g => Sys2Proof.Machine.execShr t g s
  | .sar t g => Sys2Proof.Machine.execSar t g s
  | .rot t g => Sys2Proof.Machine.execRot t g s
  | .teq t g => Sys2Proof.Machine.execTeq t g s
  | .tne t g => Sys2Proof.Machine.execTne t g s
  | .tlt w g => Sys2Proof.Machine.execTlt w g s
  | .tltn w g => Sys2Proof.Machine.execTltn w g s
  | .tle w g => Sys2Proof.Machine.execTle w g s
  | .tlen w g => Sys2Proof.Machine.execTlen w g s
  | .neg t g => Sys2Proof.Machine.execNeg t g s
  | .abs t g => Sys2Proof.Machine.execAbs t g s
  | .clz t g => Sys2Proof.Machine.execClz t g s
  | .ctz t g => Sys2Proof.Machine.execCtz t g s
  | .popc t g => Sys2Proof.Machine.execPopc t g s
  | .bswap t g => Sys2Proof.Machine.execBswap t g s
  | .mov t pred t1 => Sys2Proof.Machine.execMov t pred t1 s
  | .mov2 t g => Sys2Proof.Machine.execMov2 t g s
  | .mkx t g => Sys2Proof.Machine.execMkx t g s
  | .clrx t g => Sys2Proof.Machine.execClrx t g s
  | .addi t f imm => Sys2Proof.Machine.execAddi t f imm s
  | .teqi t f imm => Sys2Proof.Machine.execTeqi t f imm s
  | .tnei t f imm => Sys2Proof.Machine.execTnei t f imm s
  | .tlti w f imm => Sys2Proof.Machine.execTlti w f imm s
  | .tltni w f imm => Sys2Proof.Machine.execTltni w f imm s
  | .tlei w f imm => Sys2Proof.Machine.execTlei w f imm s
  | .tleni w f imm => Sys2Proof.Machine.execTleni w f imm s
  | .sext t f m => Sys2Proof.Machine.execSext t f m s
  | .zext t f m => Sys2Proof.Machine.execZext t f m s
  | .genc const tgt => Sys2Proof.Machine.execGenc const tgt s
  | .appc const tgt => Sys2Proof.Machine.execAppc const tgt s
  | .madd f t => Sys2Proof.Machine.execMadd f t s
  | .sel f t => Sys2Proof.Machine.execSel f t s
  | .bfx f t pos len1 => Sys2Proof.Machine.execBfx f t pos len1 s
  | .bfi f t pos len1 => Sys2Proof.Machine.execBfi f t pos len1 s
  | .fadd g => Sys2Proof.Machine.execFadd g s
  | .fsub g => Sys2Proof.Machine.execFsub g s
  | .fmul g => Sys2Proof.Machine.execFmul g s
  | .fdiv g => Sys2Proof.Machine.execFdiv g s
  | .fmin g => Sys2Proof.Machine.execFmin g s
  | .fmax g => Sys2Proof.Machine.execFmax g s
  | .feq g => Sys2Proof.Machine.execFeq g s
  | .flt g => Sys2Proof.Machine.execFlt g s
  | .fle g => Sys2Proof.Machine.execFle g s
  | .fsqrt g => Sys2Proof.Machine.execFsqrt g s
  | .fabs g => Sys2Proof.Machine.execFabs g s
  | .fneg g => Sys2Proof.Machine.execFneg g s
  | .fexp2 g => Sys2Proof.Machine.execFexp2 g s
  | .flog2 g => Sys2Proof.Machine.execFlog2 g s
  | .frcp g => Sys2Proof.Machine.execFrcp g s
  | .frsq g => Sys2Proof.Machine.execFrsq g s
  | .fma f => Sys2Proof.Machine.execFma f s
  | .fcvt f src dst => Sys2Proof.Machine.execFcvt f src dst s
  | .falloc scope g => Sys2Proof.Machine.execFalloc scope g s
  | .ffree pred => Sys2Proof.Machine.execFfree pred s
  | .self g => Sys2Proof.Machine.execSelf g s
  | .taskid g => Sys2Proof.Machine.execTaskid g s
  | .fstat g => Sys2Proof.Machine.execFstat g s
  | .send pred slot => Sys2Proof.Machine.execSend pred slot s
  | .sendx pred slot => Sys2Proof.Machine.execSendx pred slot s
  | .sendi pred => Sys2Proof.Machine.execSendi pred s
  | .ldfx g => Sys2Proof.Machine.execLdfx g s
  | .stfx g => Sys2Proof.Machine.execStfx g s
  | .ldB f => Sys2Proof.Machine.execLdB f s
  | .ldH f => Sys2Proof.Machine.execLdH f s
  | .ldW f => Sys2Proof.Machine.execLdW f s
  | .ldD f => Sys2Proof.Machine.execLdD f s
  | .ldw f => Sys2Proof.Machine.execLdw f s
  | .ldt f => Sys2Proof.Machine.execLdt f s
  | .ldrc f => Sys2Proof.Machine.execLdrc f s
  | .feTest f => Sys2Proof.Machine.execFeTest f s
  | .stB f => Sys2Proof.Machine.execStB f s
  | .stH f => Sys2Proof.Machine.execStH f s
  | .stW f => Sys2Proof.Machine.execStW f s
  | .stD f => Sys2Proof.Machine.execStD f s
  | .stf f => Sys2Proof.Machine.execStf f s
  | .ste pred lsid space slot => Sys2Proof.Machine.execSte pred lsid space slot s
  | .feSet f => Sys2Proof.Machine.execFeSet f s
  | .feClr f => Sys2Proof.Machine.execFeClr f s
  | .clean pred lsid => Sys2Proof.Machine.execClean pred lsid s
  | .inval pred lsid => Sys2Proof.Machine.execInval pred lsid s
  | .pref f => Sys2Proof.Machine.execPref f s
  | .fence pred lsid scope => Sys2Proof.Machine.execFence pred lsid scope s
  | .amoAdd f => Sys2Proof.Machine.execAmoAdd f s
  | .amoMin f => Sys2Proof.Machine.execAmoMin f s
  | .amoMax f => Sys2Proof.Machine.execAmoMax f s
  | .amoAnd f => Sys2Proof.Machine.execAmoAnd f s
  | .amoOr f => Sys2Proof.Machine.execAmoOr f s
  | .amoXor f => Sys2Proof.Machine.execAmoXor f s
  | .amoSwap f => Sys2Proof.Machine.execAmoSwap f s
  | .amoFadd f => Sys2Proof.Machine.execAmoFadd f s
  | .amoIncw f => Sys2Proof.Machine.execAmoIncw f s
  | .amoAddReduce f => Sys2Proof.Machine.execAmoAddReduce f s
  | .amoMinReduce f => Sys2Proof.Machine.execAmoMinReduce f s
  | .amoMaxReduce f => Sys2Proof.Machine.execAmoMaxReduce f s
  | .amoAndReduce f => Sys2Proof.Machine.execAmoAndReduce f s
  | .amoOrReduce f => Sys2Proof.Machine.execAmoOrReduce f s
  | .amoXorReduce f => Sys2Proof.Machine.execAmoXorReduce f s
  | .amoSwapReduce f => Sys2Proof.Machine.execAmoSwapReduce f s
  | .amoFaddReduce f => Sys2Proof.Machine.execAmoFaddReduce f s
  | .amoIncwReduce f => Sys2Proof.Machine.execAmoIncwReduce f s
  | .amoCas x lsid space scope w32 => Sys2Proof.Machine.execAmoCas x lsid space scope w32 s
  | .barArrive pred scope id => Sys2Proof.Machine.execBarArrive pred scope id s
  | .barWait pred scope id => Sys2Proof.Machine.execBarWait pred scope id s
  | .barCfg pred scope id => Sys2Proof.Machine.execBarCfg pred scope id s
  | .tick g => Sys2Proof.Machine.execTick g s
  | .waittick pred => Sys2Proof.Machine.execWaittick pred s
  | .sysRd f reg => Sys2Proof.Machine.execSysRd f reg s
  | .sysWr pred reg => Sys2Proof.Machine.execSysWr pred reg s
  | .perfRd f ctr => Sys2Proof.Machine.execPerfRd f ctr s
  | .tlbInv pred scope => Sys2Proof.Machine.execTlbInv pred scope s
  | .gangSync pred => Sys2Proof.Machine.execGangSync pred s
  | .trap pred => Sys2Proof.Machine.execTrap pred s
  | .brk pred => Sys2Proof.Machine.execBrk pred s
  | .halt pred => Sys2Proof.Machine.execHalt pred s
  | .vadd x v => Sys2Proof.Machine.execVadd x v s
  | .vsub x v => Sys2Proof.Machine.execVsub x v s
  | .vmul x v => Sys2Proof.Machine.execVmul x v s
  | .vfma x v => Sys2Proof.Machine.execVfma x v s
  | .vmin x v => Sys2Proof.Machine.execVmin x v s
  | .vmax x v => Sys2Proof.Machine.execVmax x v s
  | .vabs x v => Sys2Proof.Machine.execVabs x v s
  | .vneg x v => Sys2Proof.Machine.execVneg x v s
  | .vand x v => Sys2Proof.Machine.execVand x v s
  | .vor x v => Sys2Proof.Machine.execVor x v s
  | .vxor x v => Sys2Proof.Machine.execVxor x v s
  | .vshl x v => Sys2Proof.Machine.execVshl x v s
  | .vshr x v => Sys2Proof.Machine.execVshr x v s
  | .vcmp x v => Sys2Proof.Machine.execVcmp x v s
  | .vselect x v => Sys2Proof.Machine.execVselect x v s
  | .vexp2 x v => Sys2Proof.Machine.execVexp2 x v s
  | .vlog2 x v => Sys2Proof.Machine.execVlog2 x v s
  | .vrcp x v => Sys2Proof.Machine.execVrcp x v s
  | .vrsq x v => Sys2Proof.Machine.execVrsq x v s
  | .vcvt x v => Sys2Proof.Machine.execVcvt x v s
  | .vred x v => Sys2Proof.Machine.execVred x v s
  | .vscan x v => Sys2Proof.Machine.execVscan x v s
  | .vtopk x v => Sys2Proof.Machine.execVtopk x v s
  | .vcompact x v => Sys2Proof.Machine.execVcompact x v s
  | .vexpand x v => Sys2Proof.Machine.execVexpand x v s
  | .vgather x v => Sys2Proof.Machine.execVgather x v s
  | .vscatter x v => Sys2Proof.Machine.execVscatter x v s
  | .vfill x v => Sys2Proof.Machine.execVfill x v s
  | .vcopy x v => Sys2Proof.Machine.execVcopy x v s
  | .vrand x v => Sys2Proof.Machine.execVrand x v s
  | .vamaxh x v => Sys2Proof.Machine.execVamaxh x v s
  | .unpackT5 x v => Sys2Proof.Machine.execUnpackT5 x v s
  | .vplane x v => Sys2Proof.Machine.execVplane x v s
  | .ppSet x k => Sys2Proof.Machine.execPpSet x k s
  | .sclSet x k => Sys2Proof.Machine.execSclSet x k s
  | .sclDerive x sc ent tgt margin => Sys2Proof.Machine.execSclDerive x sc ent tgt margin s
  | .lbdCfg x => Sys2Proof.Machine.execLbdCfg x s
  | .accArm x node ofmt wd so sa sb => Sys2Proof.Machine.execAccArm x node ofmt wd so sa sb s
  | .mmp x pp node ga gb ns => Sys2Proof.Machine.execMmp x pp node ga gb ns s
  | .mmpE x pp node ga gb ns => Sys2Proof.Machine.execMmpE x pp node ga gb ns s
  | .accRel x node => Sys2Proof.Machine.execAccRel x node s
  | .accClr x node => Sys2Proof.Machine.execAccClr x node s
  | .accSave x node clr => Sys2Proof.Machine.execAccSave x node clr s
  | .accLoad x node => Sys2Proof.Machine.execAccLoad x node s
  | .accStat x node => Sys2Proof.Machine.execAccStat x node s
  | .cpyStream x sync full stream sps spd esz => Sys2Proof.Machine.execCpyStream x sync full stream sps spd esz s
  | .cpyPlanes x sync full stream spm dir mat ws wd low code g expadj => Sys2Proof.Machine.execCpyPlanes x sync full stream spm dir mat ws wd low code g expadj s
  | .cpyConv x sync full stream spm dir fmt wd code g sat lay => Sys2Proof.Machine.execCpyConv x sync full stream spm dir fmt wd code g sat lay s
  | .cpyCancel x all stream => Sys2Proof.Machine.execCpyCancel x all stream s
  | .cpySave x clr stream => Sys2Proof.Machine.execCpySave x clr stream s
  | .cpyResume x img stream => Sys2Proof.Machine.execCpyResume x img stream s
  | .cpyStat x stream => Sys2Proof.Machine.execCpyStat x stream s
  | .ddaPatch x first count1 links => Sys2Proof.Machine.execDdaPatch x first count1 links s
  | .ddaLdy x first count1 => Sys2Proof.Machine.execDdaLdy x first count1 s
  | .ddaLdr x first count1 => Sys2Proof.Machine.execDdaLdr x first count1 s
  | .ddaClk x dom => Sys2Proof.Machine.execDdaClk x dom s
  | .ddaRun x dmask => Sys2Proof.Machine.execDdaRun x dmask s
  | .ddaStop x dmask => Sys2Proof.Machine.execDdaStop x dmask s
  | .ddaTap x tap mode rest => Sys2Proof.Machine.execDdaTap x tap mode rest s
  | .ddaRead x first count1 => Sys2Proof.Machine.execDdaRead x first count1 s
  | .ddaSave x dom => Sys2Proof.Machine.execDdaSave x dom s
  | .ddaRestore x dom => Sys2Proof.Machine.execDdaRestore x dom s
  | .ddaStat x dom => Sys2Proof.Machine.execDdaStat x dom s
  | .kvbAlloc x zero => Sys2Proof.Machine.execKvbAlloc x zero s
  | .kvbMap x => Sys2Proof.Machine.execKvbMap x s
  | .kvbShare x nl1 => Sys2Proof.Machine.execKvbShare x nl1 s
  | .kvbFree x all => Sys2Proof.Machine.execKvbFree x all s
  | .kvbStat x die own => Sys2Proof.Machine.execKvbStat x die own s
  | .seqOpen x die own => Sys2Proof.Machine.execSeqOpen x die own s
  | .seqEmit x => Sys2Proof.Machine.execSeqEmit x s
  | .seqDraft x => Sys2Proof.Machine.execSeqDraft x s
  | .seqConfirm x corr => Sys2Proof.Machine.execSeqConfirm x corr s
  | .seqReject x => Sys2Proof.Machine.execSeqReject x s
  | .seqResume x => Sys2Proof.Machine.execSeqResume x s
  | .seqClose x => Sys2Proof.Machine.execSeqClose x s
  | .wchSet x pat len1 act injlen => Sys2Proof.Machine.execWchSet x pat len1 act injlen s
  | .wchBudget x bud act => Sys2Proof.Machine.execWchBudget x bud act s
  | .wchClr x pmask bmask notify => Sys2Proof.Machine.execWchClr x pmask bmask notify s
  | .wchStat x => Sys2Proof.Machine.execWchStat x s
  | .podPut x ord sp => Sys2Proof.Machine.execPodPut x ord sp s
  | .podGet x ord full sp => Sys2Proof.Machine.execPodGet x ord full sp s
  | .podAmo x ord retry op w32 nat => Sys2Proof.Machine.execPodAmo x ord retry op w32 nat s
  | .colAllred x ty rop => Sys2Proof.Machine.execColAllred x ty rop s
  | .colRedscat x ty rop => Sys2Proof.Machine.execColRedscat x ty rop s
  | .colAllgath x ty => Sys2Proof.Machine.execColAllgath x ty s
  | .colBcast x ty => Sys2Proof.Machine.execColBcast x ty s
  | .colStat x => Sys2Proof.Machine.execColStat x s
  | .reset => Sys2Proof.Machine.execReset s
  | .firingStart => Sys2Proof.Machine.execFiringStart s
  | .firingCompletion => Sys2Proof.Machine.execFiringCompletion s
  | .commit => Sys2Proof.Machine.execCommit s
  | .takeAtHome => Sys2Proof.Machine.execTakeAtHome s
  | .takeAnswer => Sys2Proof.Machine.execTakeAnswer s
  | .fenceComplete => Sys2Proof.Machine.execFenceComplete s
  | .tokenDelivery => Sys2Proof.Machine.execTokenDelivery s
  | .sectionRestore => Sys2Proof.Machine.execSectionRestore s
  | .sectionEnd => Sys2Proof.Machine.execSectionEnd s
  | .recordAging => Sys2Proof.Machine.execRecordAging s
  | .handlerActivation => Sys2Proof.Machine.execHandlerActivation s
  | .frameCtlRerun => Sys2Proof.Machine.execFrameCtlRerun s
  | .frameCtlResume => Sys2Proof.Machine.execFrameCtlResume s
  | .frameCtlFree => Sys2Proof.Machine.execFrameCtlFree s
  | .tqBaseWrite => Sys2Proof.Machine.execTqBaseWrite s
  | .tqBaseApply => Sys2Proof.Machine.execTqBaseApply s
  | .registerWrite => Sys2Proof.Machine.execRegisterWrite s
  | .waittickTimerFire => Sys2Proof.Machine.execWaittickTimerFire s
  | .frameAllocation => Sys2Proof.Machine.execFrameAllocation s
  | .routerHoldExpiry => Sys2Proof.Machine.execRouterHoldExpiry s
  | .combinedGroupAtHome => Sys2Proof.Machine.execCombinedGroupAtHome s
  | .engineSyncReadResume => Sys2Proof.Machine.execEngineSyncReadResume s
  | .ddaStep => Sys2Proof.Machine.execDdaStep s
  | .linkDeposit => Sys2Proof.Machine.execLinkDeposit s
  | .linkOverrunAnswer => Sys2Proof.Machine.execLinkOverrunAnswer s
  | .kvbHeldRelease => Sys2Proof.Machine.execKvbHeldRelease s
  | .podAmoAtHome => Sys2Proof.Machine.execPodAmoAtHome s
  | .replayEntryExpiry => Sys2Proof.Machine.execReplayEntryExpiry s
  | .podTimeout => Sys2Proof.Machine.execPodTimeout s
  | .collectiveTimeout => Sys2Proof.Machine.execCollectiveTimeout s
  | .podPacketReceive => Sys2Proof.Machine.execPodPacketReceive s
  | .gangTokenDue => Sys2Proof.Machine.execGangTokenDue s
  | .ptpMessageReceive => Sys2Proof.Machine.execPtpMessageReceive s
  | .ptpSyncSend => Sys2Proof.Machine.execPtpSyncSend s
  | .ptpAnnounceSend => Sys2Proof.Machine.execPtpAnnounceSend s
  | .announceReceiptTimeout => Sys2Proof.Machine.execAnnounceReceiptTimeout s
  | .portStateChange => Sys2Proof.Machine.execPortStateChange s
  | .podDebugHalt => Sys2Proof.Machine.execPodDebugHalt s
  | .debugHaltAdvertise => Sys2Proof.Machine.execDebugHaltAdvertise s
  | .debugHaltSeen => Sys2Proof.Machine.execDebugHaltSeen s
  | .debugHaltLapse => Sys2Proof.Machine.execDebugHaltLapse s
  | .launchAccept => Sys2Proof.Machine.execLaunchAccept s
  | .loadPhase2 => Sys2Proof.Machine.execLoadPhase2 s
  | .coreSwitch => Sys2Proof.Machine.execCoreSwitch s
  | .sliceEnd => Sys2Proof.Machine.execSliceEnd s
  | .walkComplete => Sys2Proof.Machine.execWalkComplete s
  | .walkRetry => Sys2Proof.Machine.execWalkRetry s
  | .dramRefresh => Sys2Proof.Machine.execDramRefresh s
  | .scrubVisit => Sys2Proof.Machine.execScrubVisit s
  | .scrubPassEnd => Sys2Proof.Machine.execScrubPassEnd s
  | .scrubCtlWrite => Sys2Proof.Machine.execScrubCtlWrite s
  | .pewCtlWrite => Sys2Proof.Machine.execPewCtlWrite s
  | .pewterExpiry => Sys2Proof.Machine.execPewterExpiry s
  | .bankGateRequest => Sys2Proof.Machine.execBankGateRequest s
  | .spgateRequest => Sys2Proof.Machine.execSpgateRequest s
  | .bankGated => Sys2Proof.Machine.execBankGated s
  | .bankWakeComplete => Sys2Proof.Machine.execBankWakeComplete s
  | .kvbCtlWrite => Sys2Proof.Machine.execKvbCtlWrite s
  | .partCtlWrite => Sys2Proof.Machine.execPartCtlWrite s
  | .evselWrite => Sys2Proof.Machine.execEvselWrite s
  | .traceCtlWrite => Sys2Proof.Machine.execTraceCtlWrite s
  | .hctlRestart => Sys2Proof.Machine.execHctlRestart s
  | .hctlStop => Sys2Proof.Machine.execHctlStop s
  | .hctlMapout => Sys2Proof.Machine.execHctlMapout s
  | .hctlMapin => Sys2Proof.Machine.execHctlMapin s
  | .hostRead => Sys2Proof.Machine.execHostRead s
  | .hostWrite => Sys2Proof.Machine.execHostWrite s
  | .throttleChange => Sys2Proof.Machine.execThrottleChange s
  | .errorRetry => Sys2Proof.Machine.execErrorRetry s
  | .fatalDramLoss => Sys2Proof.Machine.execFatalDramLoss s
  | .serviceAction => Sys2Proof.Machine.execServiceAction s
  | .firmwareUpdate => Sys2Proof.Machine.execFirmwareUpdate s
  | .attestReport => Sys2Proof.Machine.execAttestReport s
  | .accessAtHome => Sys2Proof.Machine.execAccessAtHome s
  | .loadValueReturn => Sys2Proof.Machine.execLoadValueReturn s
  | .eventCounterWrap => Sys2Proof.Machine.execEventCounterWrap s

end Sys2Proof.Machine
end

