-- ==== Sys2Proof/Machine/Acts.lean ====
section
/-! DEFINITION. What can happen next: the acts of cores, engines, the net, the outside and time, and how one is done. -/

namespace Sys2Proof.Machine

/-- The row of the opcode table that an event belongs to. -/
def eventInstr (e : Event) : Instr :=
  match e with
  | .reset => .reset
  | .firingStart _ _ => .firingStart
  | .firingCompletion _ _ => .firingCompletion
  | .commit _ _ => .commit
  | .takeAtHome _ => .takeAtHome
  | .takeAnswer _ => .takeAnswer
  | .fenceComplete _ _ => .fenceComplete
  | .tokenDelivery _ => .tokenDelivery
  | .sectionRestore _ _ => .sectionRestore
  | .sectionEnd _ _ => .sectionEnd
  | .recordAging _ => .recordAging
  | .handlerActivation _ => .handlerActivation
  | .frameCtlRerun _ _ => .frameCtlRerun
  | .frameCtlResume _ _ => .frameCtlResume
  | .frameCtlFree _ _ => .frameCtlFree
  | .tqBaseWrite _ _ => .tqBaseWrite
  | .tqBaseApply _ => .tqBaseApply
  | .registerWrite _ _ => .registerWrite
  | .waittickTimerFire _ => .waittickTimerFire
  | .frameAllocation _ => .frameAllocation
  | .routerHoldExpiry _ => .routerHoldExpiry
  | .combinedGroupAtHome _ _ => .combinedGroupAtHome
  | .engineSyncReadResume _ _ => .engineSyncReadResume
  | .ddaStep _ => .ddaStep
  | .linkDeposit _ => .linkDeposit
  | .linkOverrunAnswer _ => .linkOverrunAnswer
  | .kvbHeldRelease _ => .kvbHeldRelease
  | .podAmoAtHome _ => .podAmoAtHome
  | .replayEntryExpiry => .replayEntryExpiry
  | .podTimeout _ => .podTimeout
  | .collectiveTimeout _ => .collectiveTimeout
  | .podPacketReceive .. => .podPacketReceive
  | .gangTokenDue .. => .gangTokenDue
  | .ptpMessageReceive .. => .ptpMessageReceive
  | .ptpSyncSend => .ptpSyncSend
  | .ptpAnnounceSend => .ptpAnnounceSend
  | .announceReceiptTimeout => .announceReceiptTimeout
  | .portStateChange _ _ => .portStateChange
  | .podDebugHalt _ => .podDebugHalt
  | .debugHaltAdvertise => .debugHaltAdvertise
  | .debugHaltSeen _ _ => .debugHaltSeen
  | .debugHaltLapse _ => .debugHaltLapse
  | .launchAccept _ => .launchAccept
  | .loadPhase2 _ => .loadPhase2
  | .coreSwitch _ => .coreSwitch
  | .sliceEnd => .sliceEnd
  | .walkComplete _ => .walkComplete
  | .walkRetry _ => .walkRetry
  | .dramRefresh _ _ => .dramRefresh
  | .scrubVisit _ _ => .scrubVisit
  | .scrubPassEnd _ _ => .scrubPassEnd
  | .scrubCtlWrite _ _ => .scrubCtlWrite
  | .pewCtlWrite .. => .pewCtlWrite
  | .pewterExpiry _ _ => .pewterExpiry
  | .bankGateRequest .. => .bankGateRequest
  | .spgateRequest _ _ => .spgateRequest
  | .bankGated .. => .bankGated
  | .bankWakeComplete .. => .bankWakeComplete
  | .kvbCtlWrite _ _ => .kvbCtlWrite
  | .partCtlWrite _ _ => .partCtlWrite
  | .evselWrite _ _ => .evselWrite
  | .traceCtlWrite _ _ => .traceCtlWrite
  | .hctlRestart _ => .hctlRestart
  | .hctlStop _ => .hctlStop
  | .hctlMapout _ => .hctlMapout
  | .hctlMapin _ => .hctlMapin
  | .hostRead _ _ => .hostRead
  | .hostWrite .. => .hostWrite
  | .hostLine _ _ v => if v.isSome then .hostWrite else .hostRead
  | .throttleChange .. => .throttleChange
  | .errorRetry _ _ => .errorRetry
  | .fatalDramLoss _ => .fatalDramLoss
  | .serviceAction _ _ => .serviceAction
  | .boundaryService .. => .serviceAction
  | .hostMemory .. => .hostWrite
  | .firmwareUpdate _ => .firmwareUpdate
  | .attestReport => .attestReport
  | .accessAtHome _ => .accessAtHome
  | .loadValueReturn _ => .loadValueReturn
  | .eventCounterWrap _ _ => .eventCounterWrap

/-! ## What a core could do -/

def evAct (e : Event) : Act := .run (.event e) (eventInstr e)

/-- Some instruction of a firing's block does not decode. -/
def undecoded (f : Firing) : Bool := (insns f.code).any fun e => match decodeWords e.2 with | .ok _ => false | .error _ => true
/-- The running firings of a core in the order in which they started, with their block slots. -/
def runningFirings (co : Core) : List (Nat × Firing) :=
  sortBy (fun e => e.2.ser) ((List.range 4).filterMap fun k => match nthD co.slots k none with
    | some f => if f.phase == .running && !undecoded f then some (k, f) else none
    | none => none)
/-- The instruction that a core issues next in the present cclk, with block slot and index: firings oldest first, within one by
index, at most as many as the die's issue limit, one memory instruction, one of the divider while it is free; what a limit
passes over stays (R132, R203, R452). Two instructions of one kind may issue together. (DEDUCED, log 118) -/
def issueNext (s : State) (c : Nat) : Option (Nat × Nat × Instr) :=
  let co := s.core c
  let now := coreCclk s c
  let used := if co.iss = now then co.issN else 0
  if used ≥ min 2 (s.die (coreDie c)).limit then none
  else
    let may := fun (i : Instr) => !(memIssue i && co.issM && decide (co.iss = now)) && !(divides i && decide (co.divFree > now))
    ((runningFirings co).flatMap fun e => ((eligible e.2 now).filter fun x => may x.2).map fun x => (e.1, x.1, x.2)).head?
/-- The act of block slot k. -/
def slotActs (s : State) (c k : Nat) : List Act :=
  match firingAt s c k with
  | none => if (canStart s c k).isSome then [evAct (.firingStart c k)] else []
  | some f =>
    match f.phase with
    | .running =>
      if undecoded f then [.bad] else if exhausted f && unitsDone f (coreCclk s c) then [evAct (.firingCompletion c k)] else []
    | .completed _ => if commitTurn s c k then [evAct (.commit c k)] else []
    | .taking => []
    | .fencing sc _ => if fenceClear s c f.ser sc then [evAct (.fenceComplete c k)] else []

/-- The command that an engine would work on next: the started one, or the head of its queue. -/
def engNext (co : Core) (e : Eng) : Option EngCmd :=
  match e with
  | .vec => (match co.vec with | some r => some r.cmd | none => co.vecQ.head?)
  | .mat => (match co.mat with | some r => some r.cmd | none => co.matQ.head?)
  | .cpy k =>
    let x := co.streams.get k {}
    (match x.queue.find? isControl, x.cur with | some r, _ => some r | none, some r => some r.cmd | none, none => x.queue.head?)
  | .dda => co.dda.queue.head?
/-- The empty word that an engine waits on (R219). -/
def engWait (co : Core) (e : Eng) : Option Nat :=
  match e with
  | .vec => (match co.vec with | some r => r.waitW | none => none)
  | .mat => (match co.mat with | some r => r.waitW | none => none)
  | .cpy k =>
    let x := co.streams.get k {}
    if x.queue.any isControl then none else (match x.cur with | some r => r.waitW | none => none)
  | .dda => co.dda.waitW
/-- The engine has started the command that it would work on next. -/
def engStarted (co : Core) (e : Eng) : Bool :=
  match e with
  | .vec => co.vec.isSome
  | .mat => co.mat.isSome
  | .cpy k => (co.streams.get k {}).cur.isSome || (co.streams.get k {}).queue.any isControl
  | .dda => false
/-- A command of a section that a checkpoint waits to save does not start. -/
def awaitsCkpt (co : Core) (r : Option EngCmd) : Bool :=
  match r with
  | some x => co.secs.any fun y => y.saveTo.isSome && x.sec == some y.ser
  | none => false
/-- The vector or matrix engine is in the midst of a command, which a pre-emption lets go on (R223, R271). -/
def engRuns (co : Core) (e : Eng) (now : Nat) : Bool :=
  match e with
  | .vec => co.vec.isSome
  | .mat => (match co.mat with | some r => !matAtSlab r now | none => false)
  | _ => false
/-- An engine is not at work on a block, a slab or its fixed cycles, and a pre-emption has let go of it (R413, R414). -/
def engReady (co : Core) (e : Eng) (now : Nat) : Bool :=
  let free : Bool := co.engFree.get e.no 0 ≤ now
  match e with
  | .vec => (match co.vec with | some r => decide (r.till ≤ now) | none => free)
  | .mat => (match co.mat with | some r => r.free now && (r.till.isSome || free) | none => free)
  | .cpy k => (co.streams.get k {}).queue.any isControl || free
  | .dda => free
/-- An engine stands: one that is still at work; a copy stream that is paused or awaits a translation, its image or its turn at a slot; a command that has not started, while
writes of its core are on their way, which it must see (R118, R430); a vector command or a slab while its die's slice has
ended (R223, R416); a command that a checkpoint is about to save. -/
def engStands (s : State) (c : Nat) (co : Core) (e : Eng) : Bool :=
  (match e with
  | .cpy k =>
    let x := co.streams.get k {}
    (match x.queue.find? isControl, x.cur with
      | some r, _ => ctlWaits s c k r
      | none, some r => r.paused || r.waitWalk.isSome || (r.held && s.dies.any fun d => d.2.kvb.held.any fun h =>
          h.who == .copy c k && !kvMayGo s d.1 h)
      | none, none => false)
  | _ => false) || !engReady co e (coreCclk s c) || ((e == .vec || e == .mat) && !engRuns co e (coreCclk s c) && sliceDue s && timeSliced s (coreDie c))
    || (!engStarted co e && ((pendingOf s c).any (·.op.writes) || awaitsCkpt co (engNext co e)))
def engActs (s : State) (c : Nat) (co : Core) (e : Eng) : List Act :=
  match engWait co e with
  | some key => if keyF s.mem key then [evAct (.engineSyncReadResume c e)] else []
  | none =>
    match engNext co e with
    | some r => if engStands s c co e then [] else [.run (.engine c e) r.i]
    | none => []

/-- A checkpointed section may be restored: its engines hold no command of a class below its own (R414), and what it puts back is not
in use. (DEDUCED, log 36) -/
def mayRestore (co : Core) (k : Ckpt) : Bool :=
  allEngs.all fun e => !k.engs.contains e || (engQ co e).all (fun x => decide (k.sec.cls ≤ x.cls)) &&
    (match e with
      | .vec => (match co.vec with | some r => decide (k.sec.cls ≤ r.cmd.cls) | none => true)
      | .mat => (match co.mat with | some r => decide (k.sec.cls ≤ r.cmd.cls) && k.mat.isNone && !(k.nodes.any (·.2.due)) | none => true)
          && k.nodes.all fun (n : Nat × Node) => !(Sp.get co.nodes n.1 {}).armed
      | .cpy n => (match (co.streams.get n {}).cur with
          | some r => decide (k.sec.cls ≤ r.cmd.cls) && !(k.streams.any fun x => x.1 == n) | none => true)
      | .dda => k.doms.all fun d => !(co.dda.dom d.1).run)

def coreActs (s : State) (e : Nat × Core) : List Act :=
  let (c, co) := e
  ((issueNext s c).toList.map fun x => .run (.firing c x.1 x.2.1) x.2.2) ++ (List.range 4).flatMap (slotActs s c) ++ allEngs.flatMap (engActs s c co)
    ++ co.ckpts.filterMap fun k => if mayRestore co k then some (evAct (.sectionRestore c k.sec.ser)) else none

/-! ## The net -/

/-- Is a write anywhere on its way or held (R474)? -/
def writesPending (s : State) : Bool :=
  s.net.any (fun p => match p with | .access _ => true | .group _ _ => true | _ => false)
    || s.cores.any (fun (e : Nat × Core) => e.2.gateHeld != [])
    || s.dies.any fun (e : Nat × Die) => e.2.gateHeld != [] || e.2.holds != []
        || e.2.kvb.held.any fun h => match h.who with | .access _ => true | _ => false
/-- The cores that a packet comes from. -/
def packetSrcs : Packet → List Nat
  | .group _ g => g.map (·.core)
  | p => (packetSrc p).toList
def isRead : Packet → Bool
  | .access a => a.op.isLoad
  | _ => false
/-- A command of the block store may free what a held write waits for. -/
def isStore : Packet → Bool
  | .release r => isSeqCmd r.i
  | _ => false
/-- A slot's line stands in the way of a source range (R372). -/
def sourceHeld (s : State) (c : Nat) (key : PodKey) (sp : Space) (a n : Nat) : Bool :=
  sp == .global && (granules a n).any fun va => match localPlace s c key sp va 1 false with | .ok l => lineBusy s [l] | .error _ => false
/-- The same of a collective's source. -/
def colHeld (s : State) (r : Released) : Bool :=
  match colOf r.i with
  | some (kind, ty, _) => (match colDesc s r.core (opNat r 2) kind with
    | some d => sourceHeld s r.core (.cmd r.num) .global (opNat r 0) (colEs ty * colSrcN kind d)
    | none => false)
  | none => false
/-- The home of a key, where accesses are performed in the order of arrival (R122, R174, R353). -/
def homeNo (key : Nat) : Nat × Nat × Nat :=
  if keyLocal key then (0, keyCore key, 0) else if keyCommons key then (1, keyCommonsDie key, keyBank key) else (2, key / 2 ^ 37, 0)
/-- The accesses of a packet: issuing core and home. -/
def homesOf : Packet → List (Nat × Nat × Nat × Nat)
  | .access a => [(a.core, homeNo a.loc.key)]
  | .group _ g => g.map fun a => (a.core, homeNo a.loc.key)
  | .take t => [(t.core, homeNo t.loc.key)]
  | _ => []
/-- The die at which a frame operation or a command is performed. -/
def releaseDie (r : Released) : Option Nat :=
  match r.i with
  | .ffree _ => some (coreDie (fpCore (opNat r 0)))
  | _ => cmdDie r
/-- The dies between which a packet goes. -/
def ends (p : Packet) : Option (Nat × Nat) :=
  match p with
  | .access a => (homeDie a.loc.key).map (coreDie a.core, ·)
  | .group _ _ => none
  | .loadRet r => (homeDie r.a.loc.key).map (·, coreDie r.a.core)
  | .take t => (homeDie t.loc.key).map (coreDie t.core, ·)
  | .takeAns t => some (t.die, coreDie t.core)
  | .token t => (match t.die with | some d => some d | none => t.src.map coreDie).map (·, coreDie (fpCore t.fp))
  | .release r => (releaseDie r).map (coreDie r.core, ·)
  | .activate fp _ _ parent => some (coreDie (fpCore parent), coreDie (fpCore fp))
  | .falloc r => some (coreDie r.core, coreDie r.near)
  | .fstat c _ _ fp => some (coreDie c, coreDie (fpCore fp))
  | .result d c .. => some (d, coreDie c)
  | .wake d fp => some (d, coreDie (fpCore fp))
/-- Source and destination die of a packet that leaves its die (R440). -/
def crossing (p : Packet) : Option (Nat × Nat) := (ends p).filter fun e => e.1 != e.2
/-- The boundaries of a die that are in use: the dies next to it in its row and its column, but for those mapped out (R440). -/
def beside (s : State) (d : Nat) : List Nat :=
  let near := fun (e : Nat) => (d / 6 == e / 6 && (d + 1 == e || e + 1 == d)) || d + 6 == e || e + 6 == d
  (List.range Config.numDies).filter fun e => near e && !s.pkg.lanes.contains (d, e) && !s.pkg.lanes.contains (e, d)
/-- The dies that a path of n boundaries reaches. -/
def reachable (s : State) : Nat → List Nat → List Nat
  | 0, l => l
  | n + 1, l => reachable s n (l ++ ((l.flatMap (beside s)).filter fun d => !l.contains d).eraseDups)
/-- No path is left between the dies of a packet. -/
def cutOff (s : State) (p : Packet) : Bool :=
  match crossing p with
  | some (a, b) => s.pkg.lanes != [] && !(reachable s Config.numDies [a]).contains b
  | none => false
/-- A packet may not be delivered yet: the target commits (R110), a full overflow area holds it (R206), a router holds an
earlier atomic of its source (R350), a barrier instruction waits for its commit's writes (R338), a pod command for its core's
(R118), a collective for its engine (R479), its descriptor, every write before it and for the collective of its TAG before it (R472 to R474), a PUT or a collective for
its source's slots (R372), no path of boundaries is left to its die (R440). -/
def blocked (s : State) (p : Packet) : Bool :=
  cutOff s p ||
  (match packetSrc p with
    | some c => s.dies.any fun d => d.2.holds.any fun h => h.group.any fun a =>
      a.core == c && (!isRead p || (homesOf p).contains (c, homeNo a.loc.key)) && (match p with | .access b => !mates a b | _ => true)
    | none => false) ||
  (!isRead p && !isStore p && (packetSrcs p).any fun c => s.dies.any fun d => d.2.kvb.held.any fun h =>
    match h.who with | .access a => a.core == c && a.op.writes | _ => false) ||
  (portHeld s p).isSome ||
  match p with
  | .token t => committing s t.fp
  | .release r =>
    (match r.i with
      | .ffree _ => committing s (opn r.ops 0).nat
      | .barArrive .. | .barCfg .. => inFlight s r.core (some r.ser)
      | .barWait .. => inFlight s r.core (some r.ser)
      | .gangSync _ => inFlight s r.core (some r.ser)
      | .podPut _ _ sp => inFlight s r.core none || podAwaits s r.core (.cmd r.num) || sourceHeld s r.core (.cmd r.num) sp (opNat r 1) (opNat r 2)
      | .podGet .. | .podAmo .. => inFlight s r.core none
      | .colAllred .. | .colRedscat .. | .colAllgath .. | .colBcast .. =>
        colPaused s || writesPending s || podAwaits s r.core (.cmd r.num) || cdEmpty s r.core (opNat r 2) || s.pkg.pod.colls.any (fun k => k.ctag == cdTag s r.core (opNat r 2)) || colHeld s r
      | _ => false)
  | .fstat _ _ _ fp => committing s fp
  | _ => false

/-- The TAG of a collective on its way to start (R473). -/
def packetTag (s : State) (p : Packet) : Option Nat :=
  match p with
  | .release r => if (colOf r.i).isSome then some (cdTag s r.core (opNat r 2)) else none
  | _ => none

/-- The cores whose later packets must not pass this one: they follow its writes, or it makes their frame (R118, R431, R150). -/
def holdsBack : Packet → List Nat
  | .access a => if a.op.isLoad then [] else [a.core]
  | .group _ g => g.map (·.core)
  | .activate _ _ _ parent => [fpCore parent]
  | _ => []
def isPodCmd : Instr → Bool
  | .podPut .. | .podGet .. | .podAmo .. => true
  | _ => false
/-- Two accesses of one core at one home of which the later follows the earlier; where that is held up, only at the same word
(R174, R429, R431). -/
def sameHome (s : State) (q p : Packet) : Bool :=
  let pass := match q, p with | .access b, .access a => mayPass s a b | _, _ => false
  let held := blocked s q
  let words : Packet → List Loc := fun x => match x with
    | .access a => [a.loc] | .group _ g => g.map Access.loc | .take t => [t.loc] | _ => []
  let same := fun (a b : Loc) => a.key / 8 == b.key / 8 || (a.slot.isSome && a.slot == b.slot && a.va / 8 == b.va / 8)
  !pass && (homesOf q).any (homesOf p).contains && (!held || (words q).any fun a => (words p).any (same a))
/-- An order that the manual promises between two packets, q sent before p: everything behind the writes of its core, accesses
of one core at one home (R174, R429), traffic from one die to another (R440), tokens of one core to one slot (R107), of its
commits or of one engine of it but the integrator array to its own frames, with its frees (R250), and of the loader to one core in the order of release (R102, R117), block
store, sequence and pod commands of one core (R367, R471), barrier instructions of one core at one barrier (R338, R339), collectives of one TAG
(R473), wakes among themselves and behind the answer that parked the frame (R123). No other arrival order is promised.
(DESIGN CHOICE, log 3) -/
def comesFirst (s : State) (q p : Packet) : Bool :=
  (!isRead p && (holdsBack q).any (packetSrcs p).contains) ||
  sameHome s q p || (!blocked s q && (crossing q).isSome && crossing q == crossing p) ||
  ((packetTag s q).isSome && packetTag s q == packetTag s p) ||
  match q, p with
  | .token t, .token u => t.src == u.src && ((t.fp == u.fp && t.slot == u.slot)
      || ((t.port && u.port || t.eng.isSome && t.eng == u.eng) && some (fpCore t.fp) == t.src && some (fpCore u.fp) == t.src)
      || (t.src.isNone && fpCore t.fp == fpCore u.fp))
  | .release x, .release y =>
    x.core == y.core && ((isSeqCmd x.i && isSeqCmd y.i) || (isPodCmd x.i && isPodCmd y.i)
      || ((barKey x.i).isSome && barKey x.i == barKey y.i))
  | .token t, .release r =>
    t.port && t.src == some r.core && (match r.i with | .ffree _ => fpCore (opn r.ops 0).nat == r.core | _ => false)
  | .wake _ _, .wake _ _ => true
  | .loadRet r, .wake _ fp => r.a.core == fpCore fp
  | .takeAns t, .wake _ fp => t.core == fpCore fp
  | _, _ => false
/-- The packets that may be delivered next, by their places in the net; `earlier` are those before the rest. -/
def deliverable (s : State) : List Packet → Nat → List Packet → List Nat
  | _, _, [] => []
  | earlier, n, p :: l =>
    (if blocked s p || earlier.any (comesFirst s · p) then [] else [n]) ++ deliverable s (p :: earlier) (n + 1) l
def dropNth {α : Type} : List α → Nat → List α
  | [], _ => []
  | _ :: l, 0 => l
  | a :: l, n + 1 => a :: dropNth l n

/-! ## Everything that could happen next -/

/-- Walks go on by themselves. -/
def dieActs (e : Nat × Die) : List Act := if e.2.walks ≠ [] then [evAct (.walkComplete e.1)] else []
/-- Launches (R403, R404; a gang's at its tick alone, R477), cores that MAPOUT stopped (R444), the end of a slice (R446). -/
def pkgActs (s : State) : List Act :=
  ((List.range 16).filter fun p => (launchOf s p).gtick.isNone && phase2Due s p).map (fun p => evAct (.loadPhase2 p))
    ++ s.cores.filterMap (fun (e : Nat × Core) => if e.2.waved && maySwitch s e.1 then some (evAct (.coreSwitch e.1)) else none)
    ++ s.cores.filterMap (fun (e : Nat × Core) => if mayLeave e.2 then some (evAct (.hctlMapout e.1)) else none)
    ++ (if sliceReady s then [evAct .sliceEnd] else [])
/-- A host write of a core's register waits while the core commits (R442). (DESIGN CHOICE, log 24) (DEDUCED, log 93) -/
def inboxHead (s : State) : Bool :=
  match s.inbox with
  | .hostWrite la _ _ :: _ => (match laOf la with | .core c _ _ => !commitBusy (s.core c) | _ => true)
  | _ :: _ => true
  | [] => false

/-- An act that falls in the present cclk: an instruction issues at the earliest cycle, a firing completes at the first, a free block
slot takes its record (R112, R116, R199), the vector and the matrix engine go on when their cycles are over (R230, R270). (DEDUCED,
log 20, log 122) -/
def inCclk : Act → Bool
  | .run (.firing ..) _ => true
  | .run (.event (.firingStart ..)) _ => true
  | .run (.engine _ .vec) _ => true
  | .run (.engine _ .mat) _ => true
  | .run (.event (.firingCompletion ..)) _ => true
  | _ => false
/-- A QUAD arrival that has no write to wait for, and its core's barrier instructions before it at its barrier: they have no transit
(R339). -/
def noTransit (s : State) : Packet → Bool
  | .release r => (barKey r.i).isSome && s.net.any fun q => match q with
    | .release a => (match a.i with | .barArrive _ .quad _ => a.core == r.core && barKey a.i == barKey r.i && !blocked s q | _ => false)
    | _ => false
  | _ => false
def acts (s : State) : List Act :=
  let l := s.cores.flatMap (coreActs s)
  let ps := deliverable s [] 0 s.net
  let now := l.any inCclk || ps.any fun n => match nth? s.net n with | some p => noTransit s p | none => false
  l ++ s.dies.flatMap dieActs ++ pkgActs s ++ ps.map .net
    ++ (if inboxHead s then [.inbox] else []) ++ (if now then [] else [.clock])

/-- The act that the mover chooses. (DESIGN CHOICE, log 2) -/
def chosen (s : State) : Act := nthD (acts s) (s.mover % (acts s).length) .clock

/-! ## Doing an act -/

/-- Combining, in the mesh of the home die alone: does a quad router on an atomic's way hold it (R350)? Which router it meets is
open, but one of a core follows an earlier one of it that is held. (DESIGN CHOICE, log 114) -/
def routeAtomic (s : State) (a : Access) : Option State :=
  match homeDie a.loc.key with
  | none => none
  | some d =>
    let q := Config.pick s.draws % 32
    let join := fun (h : Hold) => h.quad == q && (match h.group with | b :: _ => mates b a | [] => false)
    let hold : Hold := ⟨q, (s.die d).cclk, [a]⟩
    let add := fun (h : Hold) => if join h then { h with group := h.group ++ [a] } else h
    let own := (s.die d).holds.find? fun h => h.group.any fun b => b.core == a.core && mates b a
    if !combines a then none
    else if own.isSome then
      some (s.modDie d fun di => { di with holds := di.holds.map fun h => if some h = own then { h with group := h.group ++ [a] } else h })
    else if (s.die d).holds.any join then some (s.modDie d fun di => { di with holds := di.holds.map add })
    else if Config.holds s.draws then some (s.modDie d fun di => { di with holds := di.holds ++ [hold] })
    else none

/-- A value returns to an instruction of a firing that awaits it: FALLOC and FSTAT. -/
def giveResult (s : State) (c ser idx : Nat) (v : Val) (res : Option (Nat × Nat)) : State :=
  match resident s c ser with
  | some (k, f) =>
    let tgts := match decodeWords (wordsAt f.code idx) with | .ok i => i.shape.tgts | .error _ => []
    let f := { f with waits := f.waits.filter (· != idx)
                      fallocs := match res with | some (fp, t) => f.fallocs ++ [(idx, fp, t)] | none => f.fallocs }
    deliverFrom s c k idx (f.answered idx (coreCclk s c)) tgts (some v)
  | none =>
    match res with
    | some (fp, _) => s.modCore (fpCore fp) fun co => { co with reserved := co.reserved.filter fun r => r.1 != fpWord fp }
    | none => s

/-- An instruction run in a role. -/
def runIn (s : State) (f : Focus) (i : Instr) : Host.Outcome State Fault Refusal := exec i { s with focus := f }
def runEvent (s : State) (e : Event) : Host.Outcome State Fault Refusal := runIn s (.event e) (eventInstr e)

/-- A packet is delivered. -/
def deliverPacket (s : State) (p : Packet) : Host.Outcome State Fault Refusal :=
  match p with
  | .access a => match routeAtomic s a with | some s => .next s | none => runEvent s (.accessAtHome a)
  | .group d g => runEvent s (.combinedGroupAtHome d g)
  | .loadRet r => runEvent s (.loadValueReturn r)
  | .take t => runEvent s (.takeAtHome t)
  | .takeAns t => runEvent s (.takeAnswer t)
  | .token t => runEvent s (.tokenDelivery t)
  | .release r => runIn s (.home r) r.i
  | .activate fp task cls parent => .next (activate s fp task cls parent)
  | .falloc r => runEvent s (.frameAllocation r)
  | .fstat c ser idx fp => .next (s.send (.result (coreDie (fpCore fp)) c ser idx (fstatVal s fp) none))
  | .result _ c ser idx v res => .next (giveResult s c ser idx v res)
  | .wake _ fp => .next (wakeFrame s fp)

/-- One act. -/
def doAct (s : State) (a : Act) : Host.Outcome State Fault Refusal :=
  match a with
  | .run f i => runIn s f i
  | .net n => (match nth? s.net n with
      | some p => (match podNeed s p with
        | some (c, key, va) => .next (startWalk s c va (.pod c key va))
        | none => deliverPacket { s with net := dropNth s.net n } p)
      | none => .next s)
  | .inbox => (match s.inbox with | e :: l => runEvent { s with inbox := l } e | [] => .next s)
  | .clock => .next (advance s)
  | .bad => .fault .badWord

/-- The next act: an internal event that is due, or the mover's choice. -/
def stepAct (s : State) : Host.Outcome State Fault Refusal :=
  match s.due with
  | e :: l => runEvent { s with due := l } e
  | [] => doAct s (chosen s)

/-- A TLB may drop a translation at any time: R363 lets a core use the old or the new one of an entry that was changed.
(DEDUCED, log 19) -/
def forget (s : State) : State :=
  match Config.forgets s.draws with
  | none => s
  | some (.inl (c, k)) => if (s.core c).tlb = [] then s else s.modCore c fun co => { co with tlb := dropNth co.tlb k }
  | some (.inr (d, q, k)) =>
    if (s.die d).qtlb.get q [] = [] then s else s.modDie d fun di => { di with qtlb := di.qtlb.put q (dropNth (di.qtlb.get q []) k) }
/-- The core notes that it has issued the instruction in focus: the cclk's issue slots, the divider, and when the instruction's
value may be consumed (R129, R132, R203). One whose predicate fails takes an issue slot and nothing else; one that passes a null on
takes its latency and not the divider. (DEDUCED, log 117) -/
def noteIssue (s : State) : State :=
  match s.focus with
  | .firing c k n =>
    let now := coreCclk s c
    let slot := fun (s : State) (mem : Bool) => s.modCore c fun co =>
      { co with iss := now, issN := (if co.iss = now then co.issN else 0) + 1, issM := (decide (co.iss = now) && co.issM) || mem }
    (match firingAt s c k with
      | none => slot s false
      | some f => match decodeWords (wordsAt f.code n) with
        | .error _ => slot s false
        | .ok i =>
          let null := anyNull f (allPositions i.shape n)
          let s := slot s (memIssue i)
          if f.done.head? ≠ some n ∨ (!null && predRes f i.shape n == .fail) = true then s
          else
            let s := if divides i && !null && predRes f i.shape n == .pass then s.modCore c fun co => { co with divFree := now + latency i } else s
            setFiring s c k (some { f with due := (n, now + latency i) :: f.due }))
  | _ => s
/-- Second deliveries that have arrived trap their firings. -/
def trapDoubles (s : State) : State :=
  s.cores.foldl (fun s e => (List.range 4).foldl (fun s k => trapDouble s e.1 k) s) s
/-- A place in a slot's line whose holder is gone: a copy command, a ring access, a collective that ended otherwise. -/
def staleHeld (s : State) (d : Nat) (h : KvHeld) : Bool :=
  match h.who with
  | .copy c k => (match ((s.core c).streams.get k {}).cur with | some r => !r.held | none => true)
  | .dev c => if h.write then (s.core c).dev == [] else !devReads s c d h.slot
  | .trace t => (s.die t).trace.wait == []
  | .coll n => !s.pkg.pod.colls.any (·.serial == n)
  | _ => false
/-- The lines of the slots settle: places without a holder go, and a collective that is first in line goes on. -/
def settleSlots (s : State) : State :=
  s.dies.foldl (fun s d => d.2.kvb.held.foldl (fun s h =>
    if staleHeld s d.1 h then kvLeave s d.1 h
    else if !kvMayGo s d.1 h then s
    else match h.who with | .coll n => colStep s n | .trace t => traceGo s t (s.die t).trace.wait.length | _ => s) s) s
/-- What a step of the time base passes falls due at once (R12). -/
def settleTime (s : State) : State :=
  if s.pkg.pod.jumped then (timedEvents s).foldl raiseOnce (s.modPod fun p => { p with jumped := false }) else s
/-- Places that lasting faults keep in error are in error again, whatever was written there (R454). -/
def settleErrors (s : State) : State := s.dies.foldl (fun s e => e.2.dead.foldl keepError s) s
/-- What every act is followed by: the issue is noted, the state settles, nothing is in focus, the next choice is drawn. (DESIGN
CHOICE, log 5) -/
def afterAct (s : State) : State :=
  let s := settleTime (settlePorts (settleSlots (settlePods (forget (settleLaunches (settle (trapDoubles (settleErrors (noteIssue s)))))))))
  { s with focus := .none, mover := Config.pick s.draws, draws := s.draws + 1 }

/-- A next state settles; a fault or a refusal stays. -/
def finish (o : Host.Outcome State Fault Refusal) : Host.Outcome State Fault Refusal :=
  match o with
  | .next s' => .next (afterAct s')
  | o => o

/-! ## Placing one instruction (withFetchWord) -/

/-- An instruction alone in a firing of block slot 0 of core 0: its words at index 0, every position delivered, the
predicate such that it executes. (DESIGN CHOICE, log 25) -/
def placeFiring (s : State) (nbits w : Nat) : Firing :=
  let w1 := w % 2 ^ 32
  let w2 := if nbits > 32 then w / 2 ^ 32 % 2 ^ 32 else 0
  let code := if isX w1 then [BitVec.ofNat 32 w1, BitVec.ofNat 32 w2] else [BitVec.ofNat 32 w1]
  let zero : Option Val := some ⟨0, false⟩
  let pred : Option Val := some ⟨if w1 / 2 ^ 23 % 4 = 1 then 1 else 0, false⟩
  { fp := mkFp 0 (bits (s.core 0).frameBase.toNat 16 0 + 384), task := 0, ser := (s.core 0).ser, addr := 0
    hdr := { (default : Header) with handler := true, take := true, nins := code.length }
    reads := [], writes := [], code, size := 128, cls := 0, arr := 0
    dels := [(posP 0, pred), (posA 0, zero), (posB 0, zero), (posA 1, zero)] }

def placeWord (s : State) (nbits w : Nat) : State :=
  let s := s.modCore 0 fun co => { co with slots := setNth co.slots 0 (some (placeFiring s nbits w)) }
  { s with mover := 0, due := [] }

end Sys2Proof.Machine
end

