-- ==== Sys2Proof/Machine/Step.lean ====
section
/-! DEFINITION. One step of the machine, and a state that runs a given instruction next. -/

namespace Sys2Proof.Machine

/-- One act of the machine, and what follows every act. -/
def step (s : State) : Host.Outcome State Fault Refusal := finish (stepAct s)

/-- s with the instruction of bits w in a firing whose next step runs it. -/
def State.withFetchWord (s : State) (nbits w : Nat) : State := placeWord s nbits w

end Sys2Proof.Machine
end

