-- ==== Sys2Proof/Safety.lean ====
section
/-! DEFINITION. The terms in which the statements speak: an instruction that executes in a firing (R112 to R116), what a
firing becomes when it has, a trap taken, the memory invariant, and the values of chapter 6 in bit-vector terms. -/

namespace Sys2Proof.Safety

open Sys2Proof.Machine

/-! ## Runs -/

/-- A safe state: its memory is in canonical form. -/
def Safe (s : State) : Prop := Memory.wf s.mem = true

/-! ## An instruction executes -/

/-- Instruction i at index n of the firing f in block slot k of core c has received everything (R112), no null token
(R113), a predicate that lets it pass (R69), and the operand values vs (A, B and C in order). -/
structure Executes (s : State) (c k n : Nat) (f : Firing) (i : Instr) (vs : List Val) : Prop where
  focus : s.focus = .firing c k n
  slot : firingAt s c k = some f
  rdy : ready f n i = true
  live : anyNull f (allPositions i.shape n) = false
  go : predRes f i.shape n = .pass
  vals : valuesAt f (opPositions i.shape n) = vs

/-- The targets that name a position or a write entry. -/
def named (ts : List Target) : List Target := ts.filter fun t => t != .none
/-- No target has had its delivery, and no two are the same (R112). -/
def Free (f : Firing) (ts : List Target) : Prop :=
  (named ts).Nodup ∧ ∀ t ∈ named ts, f.dels.any (fun d => d.1 == t) = false
/-- The deliveries with one to each target. -/
def delivered (f : Firing) (ts : List Target) (v : Option Val) : List (Target × Option Val) :=
  f.dels ++ (named ts).map fun t => (t, v)

/-- Core c has executed one more instruction: INSTRUCTIONS counts it (Table 7.6). -/
def counted (s : State) (c : Nat) : State :=
  s.modCore c fun co => { co with insns := wrap48 (co.insns + 1), busy := co.busy ||| 1 }
/-- The firing after instruction n: it has executed, its LSID is resolved. -/
def ran (f : Firing) (n : Nat) : Firing := { f with done := n :: f.done, lsids := n :: f.lsids, insns := f.insns + 1 }

/-- exec answers the state s' with the instruction counted and the firing f' in block slot k. -/
def Does (s s' : State) (c k : Nat) (i : Instr) (f' : Firing) : Prop :=
  exec i s = .next (setFiring (counted s' c) c k (some f'))
/-- exec answers with one value, or null token, at each target, status bits fl raised, and nothing else changed. -/
def Gives (s : State) (c k n : Nat) (f : Firing) (i : Instr) (v : Option Val) (fl : Nat) : Prop :=
  Does s s c k i { ran f n with astat := f.astat ||| fl, dels := delivered f i.shape.tgts v }
/-- Wherever the instruction executes on the operands vs, its targets free, it delivers v and raises fl. -/
def Yields (i : Instr) (vs : List Val) (v : Val) (fl : Nat := 0) : Prop :=
  ∀ (s : State) (c k n : Nat) (f : Firing), Executes s c k n f i vs → Free f i.shape.tgts → Gives s c k n f i (some v) fl
/-- exec answers with outputs held to commit and no value (R115). -/
def Holds (s : State) (c k n : Nat) (f : Firing) (i : Instr) (outs : List Out) : Prop :=
  Does s s c k i { ran f n with outs := f.outs ++ outs }
/-- exec takes a trap at instruction n: the cause, words 4 and 5 of the record (R124). -/
def Traps (s : State) (c k n : Nat) (i : Instr) (cause w4 w5 : Nat) : Prop :=
  exec i s = .next (takeTrap (counted s c) c k { cause, pos := n, w4, w5 })

/-- exec on a state that s' stands for notes a second delivery: a target of the instruction has had one already. The firing traps
when the later of the two arrives (R112). -/
def DeliversTwice (s s' : State) (c k : Nat) (f : Firing) (i : Instr) : Prop :=
  ∃ g t, g.fp = f.fp ∧ g.addr = f.addr ∧ t ∈ named i.shape.tgts ∧ t ∈ g.twice ∧ exec i s = .next (setFiring s' c k (some g))
/-- A second delivery to a target of firing g that has arrived by a cclk, its producer at index p: another came no later (R112). -/
structure SecondAt (g : Firing) (now d p : Nat) (t : Target) : Prop where
  noted : t ∈ g.twice
  arrived : d ≤ now
  sent : (d, p) ∈ deliveriesTo (producers g) t
  second : t ∈ readTargets g ∨ ∃ e ∈ (deliveriesTo (producers g) t).erase (d, p), earlier e (d, p) = true

/-- The item that a held instruction releases at commit step 4, with its operands. -/
def item (i : Instr) (c : Nat) (f : Firing) (n : Nat) (ops : List Val) : Out :=
  .rel n { i, core := c, fp := f.fp, ser := f.ser, ops }

/-! ## Typed integers (R19, R20, R131) -/

/-- The n-bit field of a value at a type. -/
def low (t : ITy) (v : Val) : BitVec t.bits := v.d.setWidth t.bits
/-- An n-bit result extended to 64 bits by its type, X clear. -/
def wide (t : ITy) (x : BitVec t.bits) : Val := ⟨if t.signed then x.signExtend 64 else x.setWidth 64, false⟩
/-- The immediate of a compare or of ADDI at a type. -/
def immOf (t : ITy) (imm : BitVec 9) : BitVec t.bits := imm.signExtend t.bits
/-- A natural 0 or 1. -/
def flagVal (b : Bool) : Val := ⟨if b then 1 else 0, false⟩
/-- A natural number as a value. -/
def natVal (n : Nat) : Val := ⟨BitVec.ofNat 64 n, false⟩

/-- The instructions of R135, R137 to R139, R141 and R143 whose result is an error token when an operand carries X. -/
def spoiled : Instr → Bool
  | .pand _ | .por _ | .pnot _ | .add .. | .sub .. | .mul .. | .mulh .. | .mulhn .. | .div .. | .divn .. | .rem .. | .remn ..
  | .min .. | .minn .. | .max .. | .maxn .. | .and .. | .or .. | .xor .. | .andn .. | .orn .. | .shl .. | .shr .. | .sar ..
  | .rot .. | .teq .. | .tne .. | .tlt .. | .tltn .. | .tle .. | .tlen .. | .neg .. | .abs .. | .clz .. | .ctz .. | .popc ..
  | .bswap .. | .addi .. | .teqi .. | .tnei .. | .tlti .. | .tltni .. | .tlei .. | .tleni .. | .sext .. | .zext ..
  | .appc .. | .madd .. | .sel .. | .bfx .. | .bfi .. => true
  | _ => false

/-! ## Float formats (R26 to R28) -/

/-- The number that a finite value stands for. -/
def flNum (x : Num.Fl) : ℚ := (if x.neg then -1 else 1) * x.m * 2 ^ x.e
/-- A pattern of a format that stands for a number. -/
def isNum (F : Num.Fmt) (b : Nat) : Prop := b < 2 ^ (1 + F.ew + F.mw) ∧ (F.read b).isSome = true
/-- The number that it stands for. -/
def fmtNum (F : Num.Fmt) (b : Nat) : ℚ := match F.read b with | some x => flNum x | none => 0
/-- The weight of the last mantissa bit in the highest binade of a format, and its largest finite number. -/
def topUlp (F : Num.Fmt) : ℚ := 2 ^ ((F.maxE : ℤ) - F.bias - F.mw)
def topNum (F : Num.Fmt) : ℚ := (2 ^ F.mw + F.maxM) * topUlp F
/-- A magnitude that rounds beyond the largest finite number (R24, R28). -/
def tooLarge (F : Num.Fmt) (q : ℝ) : Prop :=
  q > topNum F + topUlp F / 2 ∨ (q = topNum F + topUlp F / 2 ∧ F.maxM % 2 = 1)
/-- r is q rounded once to a format, to nearest and ties to even; a magnitude too large gives the largest finite pattern of
its sign and SAT (R24, R27, R28). -/
def Rounds (F : Num.Fmt) (q : ℝ) (r : Nat) (sat : Bool) : Prop :=
  isNum F r ∧
  (sat = true → tooLarge F |q| ∧ r = (if q < 0 then 2 ^ (F.ew + F.mw) else 0) + F.maxE * 2 ^ F.mw + F.maxM) ∧
  (sat = false → ¬ tooLarge F |q| ∧ ∀ r', isNum F r' →
    |q - fmtNum F r| ≤ |q - fmtNum F r'| ∧ (|q - fmtNum F r| = |q - fmtNum F r'| → fmtNum F r' ≠ fmtNum F r → r % 2 = 0))
/-- SAT as a status bit. -/
def satBit (sat : Bool) : Nat := if sat then flSat else 0
/-- The F32 pattern of an operand. -/
def f32Of (v : Val) : Nat := v.nat % 2 ^ 32
/-- An operand without X whose pattern stands for a number, and the number. -/
def finite (v : Val) : Prop := v.x = false ∧ isNum Num.f32 (f32Of v)
def num (v : Val) : ℚ := fmtNum Num.f32 (f32Of v)

/-! ## Which part of the machine -/

/-- Two cores agree in everything but the block slots, the instruction counter, the activity bits and the order of the
TLB's entries (R341). -/
def SameButSlots (a b : Core) : Prop :=
  a = { b with slots := a.slots, insns := a.insns, busy := a.busy, tlb := a.tlb }

/-- The instructions whose one effect is a value at their targets. -/
def valueOnly : Instr → Bool
  | .testX _ | .mov .. | .mov2 .. | .mkx .. | .clrx .. | .genc .. | .fadd _ | .fsub _ | .fmul _ | .fdiv _ | .fmin _ | .fmax _
  | .feq _ | .flt _ | .fle _ | .fsqrt _ | .fabs _ | .fneg _ | .fexp2 _ | .flog2 _ | .frcp _ | .frsq _ | .fma _ | .fcvt ..
  | .self _ | .taskid _ | .tick _ | .ldfx _ | .perfRd .. => true
  | i => spoiled i

/-- A frame pointer that R114 accepts: bits 63:32 and field 19:17 zero, DIE at most 23, WORD<1:0> zero, the core present. -/
def goodFp (s : State) (v : Val) : Prop :=
  v.nat < 2 ^ 32 ∧ bits v.nat 31 27 ≤ 23 ∧ bits v.nat 19 17 = 0 ∧ bits v.nat 1 0 = 0 ∧ corePresent s (v.nat / 2 ^ 20) = true

/-! ## Memory -/

/-- The bytes that n bytes at a key are, and the tag byte of the word. -/
def outside (key n a : Nat) : Prop := (a < key ∨ key + n ≤ a) ∧ a ≠ tagKey key
/-- An address in core c's own scratchpad that R162 accepts for an aligned access of a size; `frame` closes the frame area. -/
structure OwnLocal (s : State) (c addr size : Nat) (frame : Bool) : Prop where
  range : addr < 2 ^ 32
  own : coreId (bits addr 31 27) (bits addr 26 20) = c
  here : corePresent s c = true
  aligned : addr % 2 ^ 20 % size = 0
  part : inPart s c (bits addr 31 27) = true
  below : frame = true → addr % 2 ^ 20 / 8 < bits (s.core c).frameBase.toNat 16 0
/-- The place of such an address. -/
def ownLoc (c addr : Nat) : Loc := { space := .loc, key := localKey c (addr % 2 ^ 20), va := addr }
/-- The operation that a memory instruction of a firing sends to its home. -/
def accessOf (s : State) (c : Nat) (f : Firing) (n : Nat) (op : MemOp) (loc : Loc) (size : Nat) (v w : Val) (slot : Option Nat) : Access :=
  { core := c, fp := f.fp, ser := f.ser, idx := n, op, loc, size, v, w, slot, tick := s.tick }
/-- w is the value v that a load of `size` bytes finds, with each byte that buffered stores of its firing write taken from the one of
highest LSID below the load's; X comes with the bytes that carry it (R115). -/
def Merged (f : Firing) (loc : Loc) (size lsid : Nat) (v w : Val) : Prop :=
  let src := fun j => forwardFrom f.outs loc.space (loc.key + j) lsid
  w.nat < 256 ^ size ∧
  (∀ j < size, w.nat / 256 ^ j % 256 = match src j with
    | some b => if b.v.x then 0 else b.v.nat / 256 ^ (loc.key + j - b.loc.key) % 256
    | none => v.nat / 256 ^ j % 256) ∧
  (w.x = true ↔ (∃ j < size, ∃ b, src j = some b ∧ b.v.x = true) ∨ (v.x = true ∧ ∃ j < size, src j = none))
/-- Output o is a store that a load of LSID l takes byte `key` of a space from, if it is the last of its kind (R115). -/
def Forwards (sp : Space) (key l : Nat) (o : Out) (lsid idx : Nat) (a : Access) : Prop :=
  o = .mem lsid idx a ∧ (a.op = .st ∨ a.op = .stf) ∧ a.loc.space = sp ∧ a.loc.key ≤ key ∧ key < a.loc.key + a.size ∧ lsid < l

/-! ## Commands (chapters 9 to 12, 17) -/

/-- Bytes of an element of a packed release format (Table 10.5). -/
def esOf (ofmt : Nat) : Nat := nthD [1, 2, 4, 8, 1, 2, 4, 4, 2, 1, 1] ofmt 8
/-- A check of an operand: whether it fails, and what it then traps with: the cause, words 4 and 5 of the record. -/
abbrev OpCheck := Bool × Nat × Nat × Nat
/-- The trap of the first check that fails. -/
def firstFailing (l : List OpCheck) : Option FRes := (l.find? (·.1)).map fun e => .trap e.2.1 e.2.2.1 e.2.2.2
/-- Word 5 of OPND_X, ALIGN and FRAME_PROT of a command: operand, REASON, WRITE; SPACE is LOCAL (R225). -/
def memW5 (o reason : Nat) (wr : Bool) : Nat := o * 2 ^ 16 + reason * 2 ^ 8 + 4 * bnat wr
/-- A descriptor cause: word 4 the operand, word 5 its reason and its place (R225). -/
def dCheck (fails : Prop) [Decidable fails] (cause o : Nat) (v : Val) (reason : Nat) : OpCheck := (decide fails, cause, v.nat, reason + 256 * o)
/-- OPND_X. -/
def xCheck (o : Nat) (v : Val) (wr : Bool := false) : OpCheck := (v.x, 0x05, v.nat, memW5 o 0 wr)
/-- ALIGN, the range past word 131,071 (reason 0x03), FRAME_PROT, of n words from a base (R225, R254, R280, R309, R375). -/
def rangeChecks (s : State) (c o : Nat) (v : Val) (cause base n algn : Nat) (wr : Bool) : List OpCheck :=
  [(decide (base % algn ≠ 0), 0x03, v.nat, memW5 o 0 wr), dCheck (2 ^ 17 < base + n) cause o v 3,
    (decide (bits (s.core c).frameBase.toNat 16 0 < base + n), 0x0A, v.nat, memW5 o 0x30 wr)]
/-- A word index: OPND_X, bits 63:17 (reason 0x01), then its range. -/
def wordChecks (s : State) (c o : Nat) (v : Val) (cause n algn : Nat) (wr : Bool) : List OpCheck :=
  [xCheck o v wr, dCheck (2 ^ 17 ≤ v.nat) cause o v 1] ++ rangeChecks s c o v cause v.nat n algn wr
/-- A plane descriptor that covers n words: OPND_X, reserved bits, NELEM 0 where it counts, its range (R224, R225). -/
def planeChecks (s : State) (c o : Nat) (v : Val) (cause n algn : Nat) (wr counts : Bool) : List OpCheck :=
  [xCheck o v wr, dCheck (bits v.nat 63 42 ≠ 0 ∨ bits v.nat 19 17 ≠ 0) cause o v 1, dCheck (counts = true ∧ nelem v.nat = 0) cause o v 2] ++
    rangeChecks s c o v cause (v.nat % 2 ^ 17) n algn wr

/-- The checks of a vector command: its descriptors in operand order, then the relations between them: counts, overlap, index width, rows
(R225, R226, R231 to R247). OPND of a relation names the operand that offends (log 42); NELEM of a slab destination is ignored (log 46). -/
def vecChecks (s : State) (c : Nat) (i : Instr) (v : VF) (vs : List Val) : List OpCheck :=
  let t5 := match i with | .unpackT5 .. => true | _ => false
  let slab := t5 && v.cmd.getLsbD 0
  let kt := v.cmd.toNat / 2 + 1
  let fields := fun (k : Nat) => match k with | 0 => (v.wa, v.ca, v.ga) | 1 => (v.wb, v.cb, v.gb) | _ => (v.wd, v.cd, v.gd)
  let width := fun k => let (w, code, _) := fields k; if code = 2 then 32 else w.toNat + 1
  let size := fun k => let (_, code, g) := fields k; 16 * (width k + bnat (code == 1) + 1) + 16 * bnat g
  let words : Nat → Nat → Nat := fun k x => if t5 && k == 0 then cdiv (cdiv (nelem x) 5) 8 else if slab then cdiv kt 32 * 96 else cdiv (nelem x) 1024 * size k
  let place := fun (k : Nat) => ((vpos i).at k).getD 0
  let has := fun (k : Nat) => ((vpos i).at k).isSome
  let n := fun (k : Nat) => if has k then nelem (opn vs (place k)).nat else 0
  let one := fun o => match (List.range 3).find? fun k => (vpos i).at k == some o with
    | none => []
    | some k => planeChecks s c o (opn vs o) 0x23 (words k (opn vs o).nat) (if t5 && k == 0 then 1 else if slab then 32 else 16) (k == 2) (!(slab && k != 0))
  let reach : List (Nat × Nat) := match i with
    | .vred .. | .vcompact .. | .vscatter .. => [(1, n 0)]
    | .vtopk .. => [(2, v.cmd.toNat % 64 + 1), (1, n 0)]
    | .vexpand .. | .vgather .. => [(1, n 2)]
    | .vcopy .. | .vplane .. => [(2, n 0)]
    | .unpackT5 .. => if slab then [] else [(2, n 0)]
    | .vfill .. | .vrand .. | .vamaxh .. => []
    | _ => [(0, n 2), (1, n 2)]
  let inPlace := match i with
    | .vred .. | .vscan .. | .vtopk .. | .vcompact .. | .vexpand .. | .vgather .. | .vscatter .. | .vrand .. | .vamaxh .. | .unpackT5 .. => false
    | _ => true
  let x : Nat → Nat := fun k => (opn vs (place k)).nat
  let overlap : Nat → Bool := fun (k : Nat) => has k && has 2 && overlaps (x 2 % 2 ^ 17) (words 2 (x 2)) (x k % 2 ^ 17) (words k (x k)) &&
    !(inPlace && x k == x 2 && width k == width 2 && (fields k).2 == (fields 2).2)
  let indexes := match i with | .vtopk .. => true | .vcompact .. => v.opt | _ => false
  let A := opn vs 0
  (List.range vs.length).flatMap one ++ (reach.filter fun e => has e.1).map (fun e => dCheck (n e.1 < e.2) 0x23 (place e.1) A 4) ++
    [dCheck (overlap 0 = true ∨ overlap 1 = true) 0x23 (place 2) A 5,
     dCheck (indexes = true ∧ (if v.cd = 0 then 2 ^ (width 2 - 1) else 2 ^ width 2) ≤ n 0 - 1) 0x23 (place 2) A 6,
     dCheck (slab = true ∧ 64 < cdiv (n 0) kt) 0x23 0 A 7]

/-- The checks of a matrix command (R254, R256 to R258). -/
def matChecks (s : State) (c : Nat) (i : Instr) (vs : List Val) : List OpCheck :=
  let a := opn vs 0
  let image := fun wr => wordChecks s c 0 a 0x24 4104 8 wr
  let tensor := fun o => let v := opn vs o
    [xCheck o v, dCheck (2 ^ 17 ≤ v.nat) 0x24 o v 1, (decide (v.nat % 2 ^ 17 % 32 ≠ 0), 0x03, v.nat, memW5 o 0 false)]
  match i with
  | .ppSet .. => [xCheck 0 a, (decide (2 ≤ bits a.nat 5 4 ∨ 2 ≤ bits a.nat 11 10), 0x02, 0, 0), dCheck (2 ^ 14 ≤ a.nat) 0x24 0 a 1]
  | .sclSet .. => [xCheck 0 a, dCheck (a.d.toInt < -128 ∨ 127 < a.d.toInt) 0x24 0 a 4]
  | .lbdCfg .. => [xCheck 0 a, dCheck (2 ^ 17 ≤ a.nat ∨ bits a.nat 11 9 ≠ 0 ∨ bits a.nat 3 1 ≠ 0) 0x24 0 a 1,
      dCheck (16 < bits a.nat 8 4 ∨ 16 < bits a.nat 16 12) 0x24 0 a 4]
  | .accArm _ _ ofmt wd .. =>
      let (algn, n) := if ofmt = 11 then (32, 2 * (32 * (wd.toNat + 3) + 16)) else (16, 512 * esOf ofmt.toNat)
      [xCheck 0 a true, dCheck (bits a.nat 63 48 ≠ 0 ∨ bits a.nat 31 17 ≠ 0) 0x24 0 a 1] ++ rangeChecks s c 0 a 0x24 (a.nat % 2 ^ 17) n algn true ++
        [xCheck 1 (opn vs 1), xCheck 2 (opn vs 2)]
  | .mmp .. | .mmpE .. => tensor 0 ++ tensor 1
  | .accSave .. => image true
  | .accLoad .. => image false
  | _ => []

/-- The checks of a copy command (R280). -/
def cpyChecks (s : State) (c : Nat) (i : Instr) (vs : List Val) : List OpCheck :=
  let b := opn vs 1
  let work := fun wrA wrB planes => xCheck 0 (opn vs 0) wrA :: xCheck 1 b wrB :: planes ++ wordChecks s c 2 (opn vs 2) 0x25 12 4 false
  let planes := fun algn wr => [dCheck (2 ^ 17 ≤ b.nat) 0x25 1 b 1, (decide (b.nat % algn ≠ 0), 0x03, b.nat, memW5 1 0 wr)]
  match i with
  | .cpyStream .. => work false true []
  | .cpyPlanes _ _ _ _ _ dir mat .. => work dir (!dir) (planes (if mat then 32 else 16) !dir)
  | .cpyConv _ _ _ _ _ dir _ _ _ _ _ lay => work dir (!dir) (planes (if lay = 0 then 16 else 32) !dir)
  | .cpySave .. => wordChecks s c 0 (opn vs 0) 0x25 20 4 true
  | .cpyResume _ img _ => if img then wordChecks s c 0 (opn vs 0) 0x25 20 4 false else []
  | _ => []

/-- The checks of an integrator command (R309, R314). -/
def ddaChecks (s : State) (c : Nat) (i : Instr) (vs : List Val) : List OpCheck :=
  let a := opn vs 0
  let b := opn vs 1
  let words := fun n algn wr => wordChecks s c 0 a 0x26 n algn wr
  let nat := fun n => [xCheck 0 a, dCheck (2 ^ n ≤ a.nat) 0x26 0 a 1]
  match i with
  | .ddaPatch _ _ n l => words (n.toNat + 1 + 16 * bnat l) 8 false
  | .ddaLdy _ _ n | .ddaLdr _ _ n => words (n.toNat + 1) 1 false
  | .ddaRead _ _ n => words (n.toNat + 1) 1 true
  | .ddaSave .. => words 328 8 true
  | .ddaRestore .. => words 328 8 false
  | .ddaClk .. => nat 16
  | .ddaRun .. => nat 45
  | .ddaTap _ _ mode rest =>
    let period := [xCheck 1 b, dCheck (b.nat = 0 ∨ 2 ^ 32 ≤ b.nat) 0x26 1 b 4]
    let set := fun per => planeChecks s c 0 a 0x26 (cdiv (nelem a.nat) 1024 * (16 * per)) 16 (mode == 2) true
    (match mode.toNat with
      | 0 => []
      | 1 => xCheck 0 a :: (fpBad s a.nat, 0x06, a.nat, 0) :: period
      | 2 => set ((rest.toNat / 2 ^ 8) % 16 + 2) ++ period
      | _ => set 3)
  | _ => []

/-- The checks of a command of the block store or the Gauntlet (R366, R374, R375). -/
def seqChecks (s : State) (c : Nat) (i : Instr) (vs : List Val) : List OpCheck :=
  let home := fun o v d => [dCheck (23 < d ∨ diePresent s d = false) 0x27 o v 2,
    (!ownsAlone s (corePart s c) d, 0x0C, v.nat, memW5 o 0x21 false)]
  let id := fun o n => let v := opn vs o; [xCheck o v, dCheck (2 ^ n ≤ v.nat) 0x27 o v 1] ++ home o v (bits v.nat 19 12)
  let die := fun (die : BitVec 5) own => home 0 (natVal 0) (if own then coreDie c else die.toNat)
  let target := fun o n => let v := opn vs o
    let en := v.d.getLsbD 39
    [xCheck o v, dCheck (2 ^ 40 ≤ v.nat ∨ (en = false ∧ v.nat % 2 ^ 39 ≠ 0)) 0x27 o v 1,
      (en && fpBad s (v.nat % 2 ^ 32), 0x06, v.nat, 256 * o), dCheck (128 < bits v.nat 38 32 + n) 0x27 o v 4]
  match i with
  | .kvbAlloc .. | .kvbMap _ | .kvbFree .. => id 0 44
  | .kvbShare .. => id 0 44 ++ id 1 20
  | .kvbStat _ d own => die d own
  | .seqOpen _ d own => die d own ++ target 0 8 ++ target 1 1
  | .wchSet .. => id 0 20 ++ xCheck 1 (opn vs 1) :: rangeChecks s c 1 (opn vs 1) 0x27 (opn vs 1).nat 8 8 false
  | _ => id 0 20

/-- The commands of opcodes 0x70 to 0x76: of the engines, of copy streams, of the block store and the Gauntlet. -/
def isCommand (i : Instr) : Bool :=
  (engOf i).isSome || (controlStream i).isSome || match i with
    | .kvbAlloc .. | .kvbMap _ | .kvbShare .. | .kvbFree .. | .kvbStat .. | .seqOpen .. | .seqEmit _ | .seqDraft _
    | .seqConfirm .. | .seqReject _ | .seqResume _ | .seqClose _ | .wchSet .. | .wchBudget .. | .wchClr .. | .wchStat _ => true
    | _ => false

/-- The checks of a command when it executes in its firing, in the order of its chapter; the trap of the first that fails. -/
def heldCheck (s : State) (c : Nat) (i : Instr) (vs : List Val) : Option FRes :=
  firstFailing (match vfOf i with
    | some v => vecChecks s c i v vs
    | none => match engOf i, controlStream i with
      | some .mat, _ => matChecks s c i vs
      | some .dda, _ => ddaChecks s c i vs
      | none, none => seqChecks s c i vs
      | _, _ => cpyChecks s c i vs)

/-- The completion token of a command with DEST is on its way (R222). -/
def Sent (t : State) (r : Released) (v : Val) : Prop :=
  ∀ slot, r.i.shape.slots.head? = some slot → Packet.token { fp := r.fp, slot := slot.toNat, v, src := some r.core, die := cmdDie r, eng := cmdEng r.i } ∈ t.net
/-- The token of a condition: its reason in bits 63:56, X set. -/
def condVal (reason : Nat) : Val := ⟨BitVec.ofNat 64 (reason * 2 ^ 56), true⟩
/-- No bank of scratchpad or commons is gated. -/
def Awake (s : State) : Prop := ∀ key, isGated s key = false
/-- Command r stands at the head of the vector engine's queue, and the engine is free. -/
def VecHead (s : State) (c : Nat) (r : Released) (q : List Released) : Prop :=
  s.focus = .engine c .vec ∧ (s.core c).vec = none ∧ (s.core c).vecQ = r :: q ∧ r.core = c
/-- Command r runs in the vector engine as `run`, the cycles of its last act over (R218, R230). -/
def VecOn (s : State) (c : Nat) (r : Released) (q : List Released) (run : VecRun) : Prop :=
  s.focus = .engine c .vec ∧ (s.core c).vec = some run ∧ run.cmd = r ∧ run.till ≤ coreCclk s c ∧ (s.core c).vecQ = q ∧ r.core = c
/-- The engine does block `run.blk` of its command: it waits on the first empty word of `keys`, or with all of them full does the
block, after which P holds of the state and of what the run keeps (R219). -/
def DoesBlock (s : State) (c : Nat) (run : VecRun) (keys : List Nat) (P : State → EngAcc → Prop) : Prop :=
  (∀ key, firstEmpty s.mem keys = some key →
    ∃ t, exec run.cmd.i s = .next t ∧ t.mem = s.mem ∧ (t.core c).vec = some { run with waitW := some key }) ∧
  (firstEmpty s.mem keys = none → ∃ t w, exec run.cmd.i s = .next t ∧ (t.core c).vec = some w ∧ w.cmd = run.cmd ∧ w.blk = run.blk + 1 ∧
    w.waitW = none ∧ P t w.acc)
/-- Behind its last block the command ends: the engine is free, the token carries v, and the status bits fl are raised. -/
def EndsWith (s : State) (c : Nat) (r : Released) (q : List Released) (v : Val) (fl : Nat := 0) : Prop :=
  ∃ t, exec r.i s = .next t ∧ (t.core c).vec = none ∧ (t.core c).vecQ = q ∧ t.mem = s.mem ∧ Sent t r v ∧
    (t.core c).astat = (s.core c).astat ||| BitVec.ofNat 64 fl
/-- The status bits fl, and no others, are raised in ASTAT (R25). -/
def Raised (s t : State) (c fl : Nat) : Prop := (t.core c).astat = (s.core c).astat ||| BitVec.ofNat 64 fl
/-- Lane l of block b of set d holds the element e in state t, its words are full; a word written in part keeps the X that it had in
state s, and with it the element is in error (R31, R32, R220). -/
structure Laid (s t : State) (d : Machine.PSet) (b l : Nat) (e : El) : Prop where
  holds : d.el t.mem b l = if d.spoilt t.mem b l then none else e
  kept : d.spoilt t.mem b l = true → d.spoilt s.mem b l = true
  full : ∀ part < d.parts, keyF t.mem (d.key b part (l / 64)) = true
/-- The lanes of a block of set d: those with an element hold it, the others have their bits and their X as before (R220). -/
def Lanes (s t : State) (d : Machine.PSet) (b : Nat) (els : Nat → Option El) : Prop :=
  ∀ l < 64 * d.unit, match els l with
    | some e => Laid s t d b l e
    | none => ∀ part < d.parts, d.bitAt t.mem b part l = d.bitAt s.mem b part l ∧
        keyX t.mem (d.key b part (l / 64)) = keyX s.mem (d.key b part (l / 64))
/-- y is the integer nearest to q, ties to even. -/
def Nearest (q : ℚ) (y : ℤ) : Prop := |q - y| ≤ 1 / 2 ∧ (|q - y| = 1 / 2 → y % 2 = 0)
/-- A group of values aligned into W magnitude planes: its exponent e, the signed magnitudes in order, none for an element in error,
and whether one was limited (R41). -/
structure AlignsTo (W : Nat) (qs : List (Option ℚ)) (e : ℤ) (ms : List (Option ℤ)) (sat : Bool) : Prop where
  zero : (∀ q, some q ∈ qs → q = 0) → e = 0
  top : ∀ m, some m ∈ qs → m ≠ 0 → (∀ q, some q ∈ qs → |q| ≤ |m|) → e = max (-128) (min 127 (Int.log 2 |m| - ((W : ℤ) - 1)))
  len : ms.length = qs.length
  els : ∀ k < qs.length, match nthD qs k none, nthD ms k none with
    | some q, some m => ∃ y, Nearest (|q| / (2 : ℚ) ^ e) y ∧ m = (if q < 0 then -1 else 1) * min y (2 ^ W - 1)
    | none, none => True
    | _, _ => False
  limited : sat = true ↔ ∃ q, some q ∈ qs ∧ ∃ y, Nearest (|q| / (2 : ℚ) ^ e) y ∧ 2 ^ W - 1 < y
/-- The same of the matrix engine, of the integrator array, of a copy stream. -/
def MatHead (s : State) (c : Nat) (r : Released) (q : List Released) : Prop :=
  s.focus = .engine c .mat ∧ (s.core c).mat = none ∧ (s.core c).matQ = r :: q ∧ r.core = c
/-- Command r runs in the matrix engine as `w`, the cycles of its last act over; it is at no release (R264). -/
def MatOn (s : State) (c : Nat) (r : Released) (q : List Released) (w : MatRun) : Prop :=
  s.focus = .engine c .mat ∧ (s.core c).mat = some w ∧ w.cmd = r ∧ w.rel = none ∧ (∃ t, w.till = some t ∧ t ≤ coreCclk s c) ∧
    (s.core c).matQ = q ∧ r.core = c
/-- The matrix engine is at the end of the 96 cycles of a release of node n, which `w` began (R265). -/
def MatRel (s : State) (c n : Nat) (q : List Released) (w : MatRun) : Prop :=
  s.focus = .engine c .mat ∧ (s.core c).mat = some w ∧ w.rel = some n ∧ (∃ t, w.till = some t ∧ t ≤ coreCclk s c) ∧
    (s.core c).matQ = q ∧ engOf w.cmd.i = some .mat
/-- A cell's significand and exponent hold the exact value S, with its saturation and its flush (R50, R51). -/
def Acc48 (S : ℚ) (a : ACell) (sat flush : Bool) : Prop :=
  (S = 0 → a.m = 0 ∧ a.x = 0 ∧ sat = false ∧ flush = false) ∧
  (S ≠ 0 → ∃ y : ℤ, let e := Int.log 2 |S| - 46
    let mag := if y = 2 ^ 47 then 2 ^ 46 else y
    let x := if y = 2 ^ 47 then e + 1 else e
    Nearest (|S| / (2 : ℚ) ^ e) y ∧ a.m = (if S < 0 then -1 else 1) * (if 511 < x then 2 ^ 47 - 1 else if x < -512 then 0 else mag) ∧
      a.x = (if 511 < x then 511 else if x < -512 then 0 else x) ∧ (sat = true ↔ 511 < x) ∧ (flush = true ↔ x < -512))
/-- A cell's value (R50). -/
def accNum (a : ACell) : ℚ := a.m * (2 : ℚ) ^ a.x
/-- The leading planes that the detector skips in an operand slab: none where it is off; else as many as hold 0 in every element that
counts, up to the cap (R48, R257). -/
def TrimsBy (m : List Host.Cell) (p : Machine.PSet) (k : Nat) (masked : BitVec 64) (on : Bool) (cap t : Nat) : Prop :=
  let counts := fun l => l < 2048 ∧ masked.getLsbD (l / 32) = false ∧ (p.el m k l).isSome
  (on = false → t = 0) ∧ (on = true → t ≤ min cap p.w ∧ (∀ l, counts l → p.pattern m k l < 2 ^ (p.w - t)) ∧
    (t < min cap p.w → ∃ l, counts l ∧ 2 ^ (p.w - t - 1) ≤ p.pattern m k l))
/-- What a cell that is not masked is released as in a packed format: the pattern, whether it is an error, whether it was limited
(R53, Table 10.5). -/
def ReleasedAs (ofmt : Nat) (f : ℤ) (a : ACell) (o : Nat × Bool × Bool) : Prop :=
  let v := accNum a * (2 : ℚ) ^ f
  let n := 8 * esOf ofmt
  if a.err then o = (nthD [0, 0, 0, 0, 0, 0, 0, 0x7FC00000, 0x7FC0, 0x7F, 0x7F] ofmt 0, true, false)
  else if ofmt ≤ 6 then ∃ y, Nearest v y ∧
    let lo : ℤ := if ofmt ≤ 3 then -2 ^ (n - 1) else 0
    let hi : ℤ := if ofmt ≤ 3 then 2 ^ (n - 1) - 1 else 2 ^ n - 1
    o = ((max lo (min hi y) % 2 ^ n).toNat, false, decide (y < lo ∨ hi < y))
  else ∃ p sat, Rounds (nthD [Num.f32, Num.bf16, Num.e4m3, Num.e5m2] (ofmt - 7) Num.f32) (v : ℚ) p sat ∧ o = (p, false, sat)
def DdaHead (s : State) (c : Nat) (r : Released) (q : List Released) : Prop :=
  s.focus = .engine c .dda ∧ (s.core c).dda.queue = r :: q ∧ r.core = c
def CpyHead (s : State) (c k : Nat) (r : Released) (q : List Released) : Prop :=
  s.focus = .engine c (.cpy k) ∧ (s.stream c k).cur = none ∧ (s.stream c k).queue = r :: q ∧ r.core = c
/-- A started command runs in a copy stream as `run`, none of its waits open (R281, R289). -/
def CpyOn (s : State) (c k : Nat) (r : Released) (q : List Released) (run : CpyRun) : Prop :=
  s.focus = .engine c (.cpy k) ∧ (s.stream c k).cur = some run ∧ (s.stream c k).queue = q ∧ run.cmd = r ∧ run.started = true ∧
    run.paused = false ∧ r.core = c ∧ engOf r.i = some (.cpy k)
/-- A place whose bytes are memory: no register page, no slot of a block store, no image of open layout, no private table; a page lies
on whole codewords. -/
def Plain (s : State) (loc : Loc) : Prop :=
  loc.slot = none ∧ (loc.space = .global → ((∃ d, physKind s loc.key = .dram d) ∨ physKind s loc.key = .host) ∧ loc.key % 64 = loc.va % 64 ∧
    kvPrivate s (loc.key / 8 * 8) = none ∧ ∀ r ∈ s.images, ¬ (r.1 ≤ loc.key ∧ loc.key < r.1 + r.2))
/-- What a copy stream asks of an address. -/
def copyAsk (c : Nat) (sp : Space) (write : Bool) : Ask := { core := c, space := sp, size := 1, write, frame := write }
/-- Where the check of byte j from an address on is made: at the start of its word, in GLOBAL memory of its codeword, or at the first
byte. -/
def blockAt (sp : Space) (va j : Nat) : Nat := max va ((va + j) / (if sp = .global then 64 else 8) * (if sp = .global then 64 else 8))
/-- The n bytes from an address on pass the checks of R162 for core c; byte j lies at the place f j. -/
def Reach (s : State) (c : Nat) (sp : Space) (write : Bool) (va n : Nat) (f : Nat → Loc) : Prop :=
  ∀ j < n, Plain s (f j) ∧ ∃ loc t, checkAddr s (copyAsk c sp write) (blockAt sp va j % 2 ^ 64) = .ok loc t ∧
    f j = { loc with key := loc.key + (va + j - blockAt sp va j), va := loc.va + (va + j - blockAt sp va j) }
/-- Core c holds every translation that its quad holds, so that none leaves its TLB. -/
def Warm (s : State) (c : Nat) : Prop := ∀ va t, tlbFind s c va = some t → t ∈ (s.core c).tlb
/-- The byte at a place, with the error of its word, its codeword or its region (R282). -/
def byteAt (s : State) (loc : Loc) : EByte :=
  let x := match loc.space with | .global => physErr s loc.key 1 s.tick | _ => keyX s.mem loc.key
  ((memGet s.mem loc.key).toNat, x)
/-- The float format of a memory format, and whether it ends a group of 32 with a scale byte (Table 2.5). -/
def memFlt (fmt : Nat) : Option Num.Fmt := nthD [some Num.e4m3, some Num.e5m2, some Num.e4m3, some Num.e2m1, some Num.bf16, some Num.f32, some Num.f32] (fmt - 0x0A) none
def floats (fmt : Nat) : Option Num.Fmt := if fmt < 0x0A then none else memFlt fmt
def isMx (fmt : Nat) : Bool := fmt == 0x0C || fmt == 0x0D
/-- Bytes of a memory unit, its elements, bits of an element's code (Tables 2.5 and 11.5). -/
def unitBytes (fmt : Nat) : Nat := nthD [0, 1, 1, 1, 1, 2, 2, 1, 1, 1, 1, 1, 33, 17, 2, 4, 4] fmt 0
def unitElems (fmt : Nat) : Nat := nthD [1, 2, 2, 1, 1, 1, 1, 4, 5, 8, 1, 1, 32, 32, 1, 1, 1] fmt 1
def codeBits (fmt : Nat) : Nat := nthD [0, 4, 4, 8, 8, 16, 16, 2, 0, 1, 8, 8, 8, 4, 16, 32, 32] fmt 0
/-- The code of element k of a unit's bytes, low bits first; a digit to base 3 in T5. -/
def memCode (fmt : Nat) (u : List EByte) (k : Nat) : Nat :=
  let all := natSum ((List.range u.length).map fun j => (nthD u j (0, false)).1 * 256 ^ j)
  if fmt = 8 then all / 3 ^ k % 3 else all / 2 ^ (codeBits fmt * k) % 2 ^ codeBits fmt
/-- The number that it stands for, or that it stands for none (R26, R39 to R41). -/
def memNum (fmt : Nat) (u : List EByte) (k : Nat) : Option ℚ :=
  let x := memCode fmt u k
  let scale := (nthD u (unitBytes fmt - 1) (0, false)).1
  let signed := fun (n : Nat) => (some (Num.asS x n : ℚ) : Option ℚ)
  match floats fmt with
  | some F => if (F.read x).isNone ∨ (isMx fmt = true ∧ scale = 255) then none
      else some (fmtNum F x * if isMx fmt then (2 : ℚ) ^ ((scale : ℤ) - 127) else 1)
  | none => match fmt with
    | 1 => signed 4
    | 3 => signed 8
    | 5 => signed 16
    | 7 => nthD [some 0, some 1, none, some (-1)] x none
    | 8 => if 242 < (nthD u 0 (0, false)).1 then none else nthD [some 0, some 1, some (-1)] x none
    | _ => some x
/-- An element is lost with a byte that it depends on; whether one of those that are whole stands for no number (R22, R42). -/
def memLost (fmt : Nat) (u : List EByte) (k : Nat) : Bool :=
  if isMx fmt then (nthD u (unitBytes fmt - 1) (0, true)).2 || (nthD u (k * codeBits fmt / 8) (0, true)).2 else u.any (·.2)
def memBad (fmt : Nat) (u : List EByte) (k : Nat) : Prop :=
  if isMx fmt = true then
    (nthD u (unitBytes fmt - 1) (0, true) = (255, false)) ∨ ((nthD u (k * codeBits fmt / 8) (0, true)).2 = false ∧ ∃ F, floats fmt = some F ∧ (F.read (memCode fmt u k)).isNone)
  else memLost fmt u k = false ∧ memNum fmt u k = none
/-- The code of an element out of planes in a format without a scale byte: whether it is in error, status bits (R43, R44). -/
def CodeOf (fmt : Nat) (sat : Bool) (v : Option (Bool × ℚ)) (o : Nat × Bool × Nat) : Prop :=
  match v, floats fmt with
  | none, some _ => o = (if fmt = 0x0E then 0x7FC0 else if 0x0E < fmt then 0x7FC00000 else 0x7F, true, 0)
  | none, none => o = (if fmt = 7 then 2 else 0, true, 0)
  | some (neg, q), some F => ∃ p st, Rounds F (q : ℝ) p st ∧ p / 2 ^ (F.ew + F.mw) = bnat neg ∧ o = (p, false, satBit st)
  | some (_, q), none => ∃ y, Nearest q y ∧
      let n := codeBits fmt
      let lo : ℤ := if fmt = 1 ∨ fmt = 3 ∨ fmt = 5 then -2 ^ (n - 1) else if fmt = 7 ∨ fmt = 8 then -1 else 0
      let hi : ℤ := if fmt = 1 ∨ fmt = 3 ∨ fmt = 5 then 2 ^ (n - 1) - 1 else if 7 ≤ fmt then 1 else 2 ^ n - 1
      if lo ≤ y ∧ y ≤ hi then o = ((y % if fmt = 8 then 3 else 2 ^ n).toNat, false, 0)
      else if sat = true ∧ fmt < 7 then o = ((max lo (min hi y) % 2 ^ n).toNat, false, flIsat)
      else o = (if fmt = 7 then 2 else 0, true, flCvt)
/-- A memory unit out of planes: its bytes, elements in error, status bits (R43 to R45). -/
def UnitOf (fmt : Nat) (sat : Bool) (vs : List (Option (Bool × ℚ))) (o : List Nat × Nat × Nat) : Prop :=
  ∃ cs : List (Nat × Bool × Nat), cs.length = vs.length ∧
    let errs := cs.countP (·.2.1)
    let fl := flagsOf (cs.map (·.2.2))
    let packed := natSum ((List.range cs.length).map fun k => (nthD cs k (0, false, 0)).1 * if fmt = 8 then 3 ^ k else 2 ^ (codeBits fmt * k))
    if isMx fmt = true then ∃ X : Nat,
      let amax := fun m => (∃ v ∈ vs, ∃ n q, v = some (n, q) ∧ m = |q|) ∧ ∀ v ∈ vs, ∀ n q, v = some (n, q) → |q| ≤ m
      (∀ m, amax m → (m = 0 → X = 0) ∧ (m ≠ 0 → (X : ℤ) = max 0 (min 254 (Int.log 2 m - (if fmt = 0x0C then 8 else 2) + 127)))) ∧
      ((∀ v ∈ vs, v = none) → X = 0) ∧
      (∀ k < vs.length, CodeOf (if fmt = 0x0C then 0x0A else fmt) sat ((nthD vs k none).map fun e => (e.1, e.2 * (2 : ℚ) ^ (127 - (X : ℤ)))) (nthD cs k (0, false, 0))) ∧
      o = if fmt = 0x0D ∧ none ∈ vs then (List.replicate 16 0 ++ [255], vs.length, 0) else (leBytes packed (unitBytes fmt - 1) ++ [X], errs, fl)
    else (∀ k < vs.length, CodeOf fmt sat (nthD vs k none) (nthD cs k (0, false, 0))) ∧
      o = if fmt = 8 ∧ 0 < errs then ([255], vs.length, fl) else (leBytes packed (unitBytes fmt), errs, fl)
/-- exec runs an integrator command: the queue moves on, no word is awaited. -/
def DdaRan (s t : State) (c : Nat) (i : Instr) (q : List Released) : Prop :=
  exec i s = .next t ∧ (t.core c).dda.queue = q ∧ (t.core c).dda.waitW = none
/-- Pattern k of an entry hits at the last of a row of symbols (R382). -/
def Hits (Q : Seq) (tail : List Nat) (k : Nat) : Prop :=
  let P := Q.pats.get k {}
  P.act ≠ 0 ∧ P.len ≤ tail.length ∧ ∀ i < min P.len P.sym.length,
    nthD P.sym i 0 = 0xFFFFF ∨ nthD P.sym i 0 = nthD tail (tail.length - P.len + i) 0
/-- Symbol y is confirmed at position P: the entry becomes Q', and h tells the sources that hit (R382, R383). -/
structure Confirmed (Q : Seq) (y : Nat) (Q' : Seq) (h : Nat → Bool) : Prop where
  entry : Q' = { Q with p := Q.p + 1, hist := (Q.hist ++ [y]).drop (Q.hist.length + 1 - 7), buds := Q'.buds }
  patterns : ∀ k < 8, (h k = true ↔ Hits Q (Q.hist ++ [y]) k)
  budgets : ∀ b < 4, let U := Q.buds.get b {}
    let counts := U.armed && (U.sym == 0xFFFFF || U.sym == y)
    let n := (U.count + 1) % 2 ^ 32
    Q'.buds.get b {} = (if counts then { U with count := n, armed := n != U.limit } else U) ∧ h (8 + b) = (counts && n == U.limit)
/-- The NOTIFY sources among those that hit, and the winner among exclusive actions: TRAP, STOP, INJECT, FORK, the lowest source of equals
(R383). -/
def notified (Q : Seq) (h : Nat → Bool) : Nat := natSum ((List.range 12).map fun k => if h k && srcAct Q k == 1 then 2 ^ k else 0)
def Winner (Q : Seq) (h : Nat → Bool) (w : Option Nat) : Prop :=
  match w with
  | none => ∀ k < 12, h k = true → srcAct Q k < 2
  | some w => w < 12 ∧ h w = true ∧ 2 ≤ srcAct Q w ∧ ∀ k < 12, h k = true → srcAct Q k < srcAct Q w ∨ (srcAct Q k = srcAct Q w ∧ w ≤ k)
/-- Two entries agree, budget by budget. -/
def SameSeq (a b : Seq) : Prop := a = { b with buds := a.buds } ∧ ∀ k < 4, a.buds.get k {} = b.buds.get k {}
/-- exec performs a command of the block store or the Gauntlet at its home, with its token. -/
def AtHome (s t : State) (r : Released) (v : Val) : Prop := exec r.i s = .next (sendDone t r v)

/-- A state in which an event is taken up. -/
def onEvent (s : State) (e : Event) : State := { s with focus := .event e }

/-- What must hold for an event to come about; the others may come in any state. -/
def Enabled (s : State) : Event → Prop
  | .firingStart c k => canStart s c k ≠ none
  | .firingCompletion c k => ∃ f, firingAt s c k = some f ∧ exhausted f = true
  | .commit c k => firingAt s c k ≠ none ∧ commitTurn s c k = true
  | .fenceComplete c k => ∃ f sc rest, firingAt s c k = some f ∧ f.phase = .fencing sc rest ∧ fenceClear s c f.ser sc = true
  | .sectionRestore c sec => (s.core c).ckpts.find? (·.sec.ser == sec) ≠ none
  | .sectionEnd c sec => (s.core c).secs.find? (fun x => x.ser == sec && x.held) ≠ none ∧ secOver (s.core c) sec = true ∧
      commitBusy (s.core c) = false
  | .handlerActivation c => (s.core c).pend ≠ [] ∧ ∃ k < 4, (s.core c).tframes.contains k = false
  | .tqBaseApply c => ringsEmpty (s.core c) = true
  | .waittickTimerFire c => timerDue s (s.core c) = true
  | .engineSyncReadResume c e => ∃ key, keyF s.mem key = true ∧
      (match e with
        | .vec => ∃ w, (s.core c).vec = some w ∧ w.waitW = some key
        | .mat => ∃ w, (s.core c).mat = some w ∧ w.waitW = some key
        | .cpy k => ∃ w, (s.stream c k).cur = some w ∧ w.waitW = some key
        | .dda => (s.core c).dda.waitW = some key)
  | .ddaStep c => ∃ t, ddaNext s.mem c (s.core c).dda (coreCclk s c) = some (t, 1)
  | .linkDeposit c => ∃ t, ddaNext s.mem c (s.core c).dda (coreCclk s c) = some (t, 2)
  | .linkOverrunAnswer c => ∃ t, ddaNext s.mem c (s.core c).dda (coreCclk s c) = some (t, 0)
  | .podTimeout tag => outOf s tag ≠ none
  | .collectiveTimeout n => s.pkg.pod.colls.find? (·.serial == n) ≠ none
  | .podPacketReceive port _ _ => port < 32
  | .gangTokenDue fp slot t => s.pkg.pod.gangDue.contains (fp, slot, t) = true ∧ t ≤ s.tick
  | .portStateChange n st => n < 32 ∧ st < 3
  | .debugHaltAdvertise => s.pkg.pod.halt = true
  | .loadPhase2 p => phase2Due s p = true
  | .coreSwitch c => switchPart s c ≠ none ∧ maySwitch s c = true
  | .sliceEnd => sliceReady s = true
  | .walkComplete d => (s.die d).walks ≠ []
  | .bankGated c d b => mayGate s c d b = true
  | .throttleChange _ _ mhz mv limit => settingOk mhz mv limit = true
  | .attestReport => s.pkg.attest.getLsbD 63 = true
  | _ => True

end Sys2Proof.Safety
end

