-- ==== Sys2Proof/WellFormed.lean ====
section
/-! DEFINITION. Well-formed instructions: those that some word of the instruction set stands for. The static rules
themselves (code 0x03, 0x0D and 0x0E of the block check) stand in Sys2Proof/Decode.lean. -/

namespace Sys2Proof

/-- The instruction has an encoding, its fields are ones that the chapters allow, a mandatory completion names its
slot, and MOV2 has a second target (R75: with TGT2 = NONE the word is MOV). -/
def Instr.wf (i : Instr) : Bool :=
  i.coded && i.resOk && i.fieldOk
    && (match i.destSlot with | some d => d.isSome || !i.mandatory | none => true)
    && (match i with | .mov2 _ g => g.t2 != .none | _ => true)

end Sys2Proof
end

