-- ==== Sys2Proof/Certificates/Slice0/Obligations.lean ====
section
/-! DEFINITION. The statements for the provers. -/

open Sys2Proof Sys2Proof.Machine Sys2Proof.Safety

/-! ## Encoding -/

/-- Words written out from the encoding tables decode to the instructions they stand for: ADD.S8 without targets, NULL,
BFX.N64 pos=8 len=8 (R143's example), VADD of two code-0 sets of 8-bit elements with saturation and a completion slot, LD.D,
BRO.END; the all-zero word and opcode 0x7F decode to nothing
(R64, R66, R78, R79, R143). -/
def Obligations.SpecWordsDecode : Prop :=
  decodeWords [0x2000FE7F#32] = .ok (.add (.s .w8) ⟨.always, .none, .none⟩) ∧
  decodeWords [0x0400FE7F#32] = .ok (.null ⟨.always, .none, .none⟩) ∧
  decodeWords [0x44098480#32, 0x00000E47#32] = .ok (.bfx ⟨.always, .opA 9⟩ (.n .w64) 8 7) ∧
  decodeWords [0xE0038281#32, 0x000081C7#32] = .ok (.vadd ⟨.always, some 5⟩ ⟨true, false, false, 0, false, false, false, 0, 8, 0, 7, 0, 7⟩) ∧
  decodeWords [0xA600027F#32] = .ok (.ldD ⟨.always, 0, .loc, 1, .none⟩) ∧
  decodeWords [0x02000000#32] = .ok (.broEnd .always) ∧
  decodeWords [0x00000000#32] = .error .opcode ∧
  decodeWords [0xFE000000#32] = .error .opcode

/-- Every well-formed instruction, with every operand at every value its encoding admits, decodes from its encoding. -/
def Obligations.EncodeThenDecode : Prop :=
  ∀ i : Instr, i.wf = true → decodeWords (encode i) = .ok i

/-- What the decoder accepts is well formed and has that encoding: no two encodings of one instruction, and no bit of a
word is dropped. -/
def Obligations.DecodeThenEncode : Prop :=
  ∀ (ws : List IWord) (i : Instr), decodeWords ws = .ok i → i.wf = true ∧ encode i <+: ws

/-! ## Steps and reset -/

/-- Memory is in canonical form after reset. It lists nothing; what an unlisted byte reads as is the model's choice (log 1). -/
def Obligations.ResetMemoryIsCanonical : Prop := Safe State.reset

/-- Every step keeps memory in canonical form: addresses strictly rising, no entry that equals what an unlisted address
reads as. -/
def Obligations.StepKeepsMemoryCanonical : Prop :=
  ∀ s t : State, Safe s → step s = .next t → Safe t

/-- The instruction that the issue rules give a core next: some choice of the next act makes step run exec on it in its firing;
what follows is what follows every act (R112, R203). It is a word of the firing's block, as
decoded, and the firing runs. Nothing internal is due. Where an event is due, step runs exec on the row of that event. That a
chosen number says which act comes next, and that due events come first, is the model's own form of the open order (log 2). -/
def Obligations.StepRunsTheDecodedWord : Prop :=
  ∀ (s : State) (c k n : Nat) (f : Firing) (i : Instr),
    (s.due = [] → c ∈ s.cores.map (·.1) → firingAt s c k = some f → issueNext s c = some (k, n, i) →
      f.phase = .running ∧ (∃ ws, (n, ws) ∈ insns f.code ∧ decodeWords ws = .ok i) ∧
      ∃ m, step { s with mover := m } = match exec i { s with mover := m, focus := .firing c k n } with
        | .next t => .next (afterAct t)
        | o => o) ∧
    ∀ e l, s.due = e :: l → step s = match exec (eventInstr e) { s with due := l, focus := .event e } with
      | .next t => .next (afterAct t)
      | o => o

/-- After reset every control register of every core reads the reset value of its map: CORE_ID its die and core, FRAME_BASE
0x10000, DRAIN_LIM 2,048, the others whose reset value the maps give 0 (R196, R25, R208, R447); nodes are unarmed and zero, PP
and SC zero, LBD_CTL at its map's values (R249); integrator cells and domains are zero, stopped, divider 1, taps off (R297);
barriers are unconfigured (R335); a layer refreshes every 256 ms (R356). -/
def Obligations.ResetControlRegisters : Prop :=
  ∀ c < 3072,
    coreRegRead State.reset c 0x00 = c / 128 * 2 ^ 7 + c % 128 ∧ coreRegRead State.reset c 0x0A = 0x10000 ∧
    coreRegRead State.reset c 0x1C = 2048 ∧
    (∀ n ∈ [0x01, 0x08, 0x09, 0x12, 0x1A, 0x20, 0x28, 0x29, 0x2A, 0x30, 0x31, 0x32, 0x33, 0x34], coreRegRead State.reset c n = 0) ∧
    let core := State.reset.core c
    (∀ n, (State.reset.node c n).armed = false ∧ ∀ k, ((State.reset.node c n).cells.get k {}).m = 0 ∧
      ((State.reset.node c n).cells.get k {}).err = false) ∧
    (∀ k, core.pp.get k 0 = 0 ∧ core.sc.get k 0 = 0) ∧ core.lbdCtl = 0x10101#64 ∧
    (∀ k, (core.dda.cell k).cfg = 0 ∧ (core.dda.cell k).y = 0 ∧ (core.dda.cell k).r = 0 ∧ (core.dda.cell k).dz = 0) ∧
    (∀ d, (core.dda.dom d).run = false ∧ (core.dda.dom d).d = 1 ∧ (core.dda.dom d).steps = 0) ∧
    (∀ k, (core.dda.taps.get k {}).mode = 0) ∧
    (∀ sc id, sc ≠ .pod → (barGet State.reset sc c id).n = 0 ∧ (barGet State.reset sc c id).arr = 0 ∧ (barGet State.reset sc c id).gen = 0) ∧
    ∀ d l, ((State.reset.die d).layers.get l {}).int = 256

/-! ## What holds for every instruction word of a firing -/

/-- A null token at an operand or the predicate: the instruction does not execute, passes a null token to each target,
holds nothing, and its LSID is resolved (R113). A predicate whose bit 0 fails the test leaves the instruction without any effect; one
with X gives error tokens, or traps PRED_X where the instruction holds an output or is an exit (R69, R70). Where a target has had its
delivery, a second is noted, which traps when it arrives (R112). Model's choices: what a null at an operand does beside a predicate that
fails (log 9); that NULL, TRAP and BRK, which neither make a value nor hold an output, are among those that give error tokens
(log 10); that a failed predicate resolves no LSID (log 8). -/
def Obligations.NullTokensAndPredicates : Prop :=
  (∀ (s : State) (c k n : Nat) (f : Firing) (i : Instr),
    i.coded = true → s.focus = .firing c k n → firingAt s c k = some f → ready f n i = true →
    anyNull f (allPositions i.shape n) = true →
    (Free f i.shape.tgts → exec i s = .next (setFiring s c k (some { f with
      done := n :: f.done, lsids := n :: f.lsids, dels := delivered f i.shape.tgts none }))) ∧
    (¬ Free f i.shape.tgts → DeliversTwice s s c k f i)) ∧
  ∀ (s : State) (c k n : Nat) (f : Firing) (i : Instr) (v : Val),
    i.coded = true → s.focus = .firing c k n → firingAt s c k = some f → ready f n i = true →
    anyNull f (allPositions i.shape n) = false → i.shape.pred ≠ .always → delAt f (posP n) = some (some v) →
    (v.x = false → v.d.getLsbD 0 ≠ (i.shape.pred == .ifTrue) → exec i s = .next (setFiring s c k (some { f with done := n :: f.done }))) ∧
    (v.x = true → isHeld i = true → exec i s = .next (takeTrap s c k { cause := 0x04, pos := n })) ∧
    (v.x = true → isHeld i = false → Free f i.shape.tgts → exec i s = .next (setFiring s c k (some { f with
      done := n :: f.done, lsids := n :: f.lsids, dels := delivered f i.shape.tgts (some ⟨0, true⟩) }))) ∧
    (v.x = true → isHeld i = false → ¬ Free f i.shape.tgts → DeliversTwice s s c k f i)

/-- An instruction whose one effect is a value, once it executes with its targets free, delivers one value to each of them and
changes nothing else; a second delivery to a position or write entry is noted, and when it has arrived it traps MULTI_DELIVER at its
producer, its target in word 5 (R112, R116, R129). That the trap comes before what issues in that cclk is the model's choice (log
116). -/
def Obligations.SecondDeliveryTraps : Prop :=
  ∀ (s : State) (c k n : Nat) (f : Firing) (i : Instr) (vs : List Val),
    valueOnly i = true → Executes s c k n f i vs →
    (Free f i.shape.tgts → ∃ v fl, Gives s c k n f i (some v) fl) ∧
    (¬ Free f i.shape.tgts → DeliversTwice s (counted s c) c k f i) ∧
    ∀ (u : State) (g : Firing), firingAt u c k = some g →
      (∀ d p t, doubleNow g (coreCclk u c) = some (d, p, t) →
        SecondAt g (coreCclk u c) d p t ∧ trapDouble u c k = takeTrap u c k { cause := 0x07, pos := p, w5 := t.code }) ∧
      (doubleNow g (coreCclk u c) = none → trapDouble u c k = u)

/-- The frame of every instruction word in a firing that goes on (no trap, no abort, no translation awaited): every byte of
memory, every die and package register, every other core and block slot is unchanged; of its core only the firing, the
instruction counter, the activity bits and the TLB change; packets are only added (R115: effects wait for the commit). -/
def Obligations.FiringInstructionFrame : Prop :=
  ∀ (s t : State) (c k n : Nat) (f g : Firing) (i : Instr),
    i.coded = true → s.focus = .firing c k n → firingAt s c k = some f → exec i s = .next t →
    firingAt t c k = some g → g.walks = f.walks →
    (∀ a, memGet t.mem a = memGet s.mem a) ∧ t.dies = s.dies ∧ t.pkg = s.pkg ∧ t.tick = s.tick ∧ t.due = s.due ∧
    t.inbox = s.inbox ∧ t.reply = s.reply ∧ (∃ ps, t.net = s.net ++ ps) ∧ (∀ c' ≠ c, t.core c' = s.core c') ∧
    (∀ k' ≠ k, firingAt t c k' = firingAt s c k') ∧ SameButSlots (t.core c) (s.core c)

/-! ## Integer instructions (R137 to R143), in bit-vector terms: `low` reads an operand at a type, `wide` writes a result -/

/-- ADD, SUB, MUL, NEG, ABS and the bitwise instructions deliver the n-bit result, extended by the type, and raise no status;
MULH and MULHN deliver the upper n bits of the 2n-bit product, MIN to MAXN the smaller or larger operand, and the compares the
natural 0 or 1 whatever the type (R19, R20, R131, R137). -/
def Obligations.ArithmeticExtremesAndCompares : Prop :=
  (∀ (t : ITy) (g : GF) (a b : Val), a.x = false → b.x = false →
    Yields (.add t g) [a, b] (wide t (low t a + low t b)) ∧
    Yields (.sub t g) [a, b] (wide t (low t a - low t b)) ∧
    Yields (.mul t g) [a, b] (wide t (low t a * low t b)) ∧
    Yields (.neg t g) [a] (wide t (-low t a)) ∧
    Yields (.abs t g) [a] (wide t (if t.signed && (low t a).msb then -low t a else low t a)) ∧
    Yields (.and t g) [a, b] (wide t (low t a &&& low t b)) ∧
    Yields (.or t g) [a, b] (wide t (low t a ||| low t b)) ∧
    Yields (.xor t g) [a, b] (wide t (low t a ^^^ low t b)) ∧
    Yields (.andn t g) [a, b] (wide t (low t a &&& ~~~low t b)) ∧
    Yields (.orn t g) [a, b] (wide t (low t a ||| ~~~low t b))) ∧
  (∀ (t : ITy) (w : IWidth) (g : GF) (a b : Val), a.x = false → b.x = false →
    Yields (.mulh w g) [a, b] (wide (.s w)
      ((((low (.s w) a).signExtend (w.bits + w.bits) * (low (.s w) b).signExtend (w.bits + w.bits)) >>> w.bits).setWidth w.bits)) ∧
    Yields (.mulhn w g) [a, b] (wide (.n w)
      ((((low (.n w) a).setWidth (w.bits + w.bits) * (low (.n w) b).setWidth (w.bits + w.bits)) >>> w.bits).setWidth w.bits)) ∧
    Yields (.min w g) [a, b] (wide (.s w) (if (low (.s w) a).sle (low (.s w) b) then low (.s w) a else low (.s w) b)) ∧
    Yields (.minn w g) [a, b] (wide (.n w) (if (low (.n w) a).ule (low (.n w) b) then low (.n w) a else low (.n w) b)) ∧
    Yields (.max w g) [a, b] (wide (.s w) (if (low (.s w) b).sle (low (.s w) a) then low (.s w) a else low (.s w) b)) ∧
    Yields (.maxn w g) [a, b] (wide (.n w) (if (low (.n w) b).ule (low (.n w) a) then low (.n w) a else low (.n w) b)) ∧
    Yields (.teq t g) [a, b] (flagVal (low t a == low t b)) ∧
    Yields (.tne t g) [a, b] (flagVal (low t a != low t b)) ∧
    Yields (.tlt w g) [a, b] (flagVal ((low (.s w) a).slt (low (.s w) b))) ∧
    Yields (.tltn w g) [a, b] (flagVal ((low (.n w) a).ult (low (.n w) b))) ∧
    Yields (.tle w g) [a, b] (flagVal ((low (.s w) a).sle (low (.s w) b))) ∧
    Yields (.tlen w g) [a, b] (flagVal ((low (.n w) a).ule (low (.n w) b))))

/-- Division truncates toward zero and wraps, the remainder takes the sign of a; a zero divisor gives an error token with
zero data and raises INV (R138). -/
def Obligations.DivisionTruncatesAndZeroIsInvalid : Prop :=
  ∀ (w : IWidth) (g : GF) (a b : Val), a.x = false → b.x = false →
    (low (.s w) b ≠ 0 →
      Yields (.div w g) [a, b] (wide (.s w) ((low (.s w) a).sdiv (low (.s w) b))) ∧
      Yields (.rem w g) [a, b] (wide (.s w) ((low (.s w) a).srem (low (.s w) b))) ∧
      Yields (.divn w g) [a, b] (wide (.n w) (low (.n w) a / low (.n w) b)) ∧
      Yields (.remn w g) [a, b] (wide (.n w) (low (.n w) a % low (.n w) b))) ∧
    (low (.s w) b = 0 →
      Yields (.div w g) [a, b] ⟨0, true⟩ flInv ∧ Yields (.rem w g) [a, b] ⟨0, true⟩ flInv ∧
      Yields (.divn w g) [a, b] ⟨0, true⟩ flInv ∧ Yields (.remn w g) [a, b] ⟨0, true⟩ flInv)

/-- Shifts take the whole n-bit natural B as their count: SHL and SHR give 0 and SAR copies of the top bit from n on, ROT
takes the count mod n (R139). -/
def Obligations.ShiftsTakeTheNaturalCount : Prop :=
  ∀ (t : ITy) (g : GF) (a b : Val), a.x = false → b.x = false →
    Yields (.shl t g) [a, b] (wide t (low t a <<< (low t b).toNat)) ∧
    Yields (.shr t g) [a, b] (wide t (low t a >>> (low t b).toNat)) ∧
    Yields (.sar t g) [a, b] (wide t ((low t a).sshiftRight (low t b).toNat)) ∧
    Yields (.rot t g) [a, b] (wide t ((low t a).rotateRight (low t b).toNat))

/-- MOV, MKX and CLRX deliver put(rd(A)) with A's X bit, with X set, with X clear; GENC the sign-extended constant; APPC A
shifted left by 16 with the constant appended; ADDI adds the signed 9-bit immediate, the compares read it at the type, SEXT
and ZEXT take the low m bits of A (R140, R141, R142). -/
def Obligations.MovesConstantsAndImmediates : Prop :=
  (∀ (t : ITy) (g : GF) (p : Pred) (tgt : Target) (k : BitVec 16) (a : Val),
    Yields (.mov t p tgt) [a] ⟨(wide t (low t a)).d, a.x⟩ ∧
    Yields (.mov2 t g) [a] ⟨(wide t (low t a)).d, a.x⟩ ∧
    Yields (.mkx t g) [a] ⟨(wide t (low t a)).d, true⟩ ∧
    Yields (.clrx t g) [a] (wide t (low t a)) ∧
    Yields (.genc k tgt) [] ⟨k.signExtend 64, false⟩ ∧
    (a.x = false → Yields (.appc k tgt) [a] ⟨a.d <<< 16 ||| k.setWidth 64, false⟩) ∧
    (a.x = true → Yields (.appc k tgt) [a] ⟨0, true⟩)) ∧
  (∀ (t : ITy) (w : IWidth) (f : TF) (k : BitVec 9) (a : Val), a.x = false →
    Yields (.addi t f k) [a] (wide t (low t a + immOf t k)) ∧
    Yields (.teqi t f k) [a] (flagVal (low t a == immOf t k)) ∧
    Yields (.tnei t f k) [a] (flagVal (low t a != immOf t k)) ∧
    Yields (.tlti w f k) [a] (flagVal ((low (.s w) a).slt (immOf (.s w) k))) ∧
    Yields (.tltni w f k) [a] (flagVal ((low (.n w) a).ult (immOf (.n w) k))) ∧
    Yields (.tlei w f k) [a] (flagVal ((low (.s w) a).sle (immOf (.s w) k))) ∧
    Yields (.tleni w f k) [a] (flagVal ((low (.n w) a).ule (immOf (.n w) k))) ∧
    (0 < k.toNat → k.toNat ≤ 64 →
      Yields (.sext t f k) [a] (wide t ((a.d.setWidth k.toNat).signExtend t.bits)) ∧
      Yields (.zext t f k) [a] (wide t ((a.d.setWidth k.toNat).setWidth t.bits))))

/-- CLZ, CTZ and POPC count bits of the n-bit field, BSWAP reverses its bytes; MADD, SEL, BFX and BFI at every type and
field (R137, R143). -/
def Obligations.BitCountsAndThreeOperandForms : Prop :=
  (∀ (t : ITy) (g : GF) (a : Val), a.x = false →
    (∀ m, m ≤ t.bits → (∀ j < m, (low t a).getMsbD j = false) → (m < t.bits → (low t a).getMsbD m = true) →
      Yields (.clz t g) [a] (natVal m)) ∧
    (∀ m, m ≤ t.bits → (∀ j < m, (low t a).getLsbD j = false) → (m < t.bits → (low t a).getLsbD m = true) →
      Yields (.ctz t g) [a] (natVal m)) ∧
    Yields (.popc t g) [a] (natVal ((List.range t.bits).filter fun j => (low t a).getLsbD j).length) ∧
    (∀ r : BitVec t.bits, (∀ j < t.bits / 8, ∀ b < 8, r.getLsbD (8 * j + b) = (low t a).getLsbD (8 * (t.bits / 8 - 1 - j) + b)) →
      Yields (.bswap t g) [a] (wide t r))) ∧
  (∀ (f : TF) (t : ITy) (pos len1 : BitVec 6) (a b c : Val), a.x = false → b.x = false → c.x = false →
    Yields (.madd f t) [a, b, c] (wide t (low t a * low t b + low t c)) ∧
    Yields (.sel f t) [a, b, c] (wide t (low t (if a.d.getLsbD 0 then b else c))) ∧
    Yields (.bfx f t pos len1) [a] (wide t
      (if t.signed then (a.d.extractLsb' pos.toNat (len1.toNat + 1)).signExtend t.bits
       else (a.d.extractLsb' pos.toNat (len1.toNat + 1)).setWidth t.bits)) ∧
    (∀ r : BitVec t.bits,
      (∀ j < t.bits, r.getLsbD j =
        if pos.toNat ≤ j ∧ j ≤ pos.toNat + len1.toNat then b.d.getLsbD (j - pos.toNat) else (low t a).getLsbD j) →
      Yields (.bfi f t pos len1) [a, b] (wide t r)))

/-- An operand with X gives an error token with zero data and raises no status bit (R22, R114, R137). -/
def Obligations.ErrorOperandGivesErrorToken : Prop :=
  ∀ (i : Instr) (vs : List Val), spoiled i = true → vs.any (·.x) = true → Yields i vs ⟨0, true⟩

/-! ## Exits, null tokens, predicate logic, TEST.X, SELF, TASKID, TICK -/

/-- An exit is recorded with its kind and task; an exit behind another traps MULTI_EXIT as it executes (R116, R133). TRAP takes a trap
of cause SWTRAP with A in word 5, or 1 in word 4 when A carries X; BRK one of cause BRK (R191, R192). -/
def Obligations.ExitsAndSoftwareTraps : Prop :=
  ∀ (p : Pred) (task : BitVec 16) (a : Val) (s : State) (c k n : Nat) (f : Firing),
    (∀ i ∈ [Instr.broEnd p, .broKeep p, .broRearm p, .broCont p task], Executes s c k n f i [] →
      (f.exit = none → Does s s c k i { ran f n with exit := some (n, i) }) ∧
      (f.exit ≠ none → Traps s c k n i 0x08 0 0)) ∧
    (Executes s c k n f (.trap p) [a] →
      (a.x = false → Traps s c k n (.trap p) 0x0D 0 a.nat) ∧ (a.x = true → Traps s c k n (.trap p) 0x0D 1 0)) ∧
    (Executes s c k n f (.brk p) [] → Traps s c k n (.brk p) 0x0E 0 0)

/-- NULL delivers a null token to each target; PAND, POR and PNOT read bit 0 of their operands; TEST.X tells X and never
carries it; SELF and TASKID deliver the frame pointer and the task id; TICK the tick (R134, R135, R136, R152, R185). -/
def Obligations.NullLogicAndIdentity : Prop :=
  ∀ (g : GF) (a b : Val) (s : State) (c k n : Nat) (f : Firing), Free f [g.t1, g.t2] →
    (Executes s c k n f (.null g) [] → Gives s c k n f (.null g) none 0) ∧
    (a.x = false → b.x = false →
      (Executes s c k n f (.pand g) [a, b] → Gives s c k n f (.pand g) (some (flagVal (a.d.getLsbD 0 && b.d.getLsbD 0))) 0) ∧
      (Executes s c k n f (.por g) [a, b] → Gives s c k n f (.por g) (some (flagVal (a.d.getLsbD 0 || b.d.getLsbD 0))) 0) ∧
      (Executes s c k n f (.pnot g) [a] → Gives s c k n f (.pnot g) (some (flagVal (!a.d.getLsbD 0))) 0)) ∧
    (Executes s c k n f (.testX g) [a] → Gives s c k n f (.testX g) (some (flagVal a.x)) 0) ∧
    (Executes s c k n f (.self g) [] → Gives s c k n f (.self g) (some (natVal f.fp)) 0) ∧
    (Executes s c k n f (.taskid g) [] → Gives s c k n f (.taskid g) (some (natVal f.task)) 0) ∧
    (Executes s c k n f (.tick g) [] → Gives s c k n f (.tick g) (some (natVal s.tick)) 0)

/-! ## F32 (R144 to R148) -/

/-- FADD, FSUB, FMUL, FDIV, FMA and FRCP deliver the exact result rounded once, SAT raised on overflow; an exact zero sum
is +0 unless both addends are −0 (R28, R145, R146, R147). -/
def Obligations.FloatResultsAreRoundedOnce : Prop :=
  ∀ (g : GF) (h : TF) (a b c : Val), finite a → finite b → finite c →
    (∃ r sat, Rounds Num.f32 (num a + num b : ℚ) r sat ∧ Yields (.fadd g) [a, b] (natVal r) (satBit sat) ∧
      (num a + num b = 0 → r = if f32Of a = 2 ^ 31 ∧ f32Of b = 2 ^ 31 then 2 ^ 31 else 0)) ∧
    (∃ r sat, Rounds Num.f32 (num a - num b : ℚ) r sat ∧ Yields (.fsub g) [a, b] (natVal r) (satBit sat) ∧
      (num a - num b = 0 → r = if f32Of a = 2 ^ 31 ∧ f32Of b = 0 then 2 ^ 31 else 0)) ∧
    (∃ r sat, Rounds Num.f32 (num a * num b : ℚ) r sat ∧ Yields (.fmul g) [a, b] (natVal r) (satBit sat)) ∧
    (num b ≠ 0 → ∃ r sat, Rounds Num.f32 (num a / num b : ℚ) r sat ∧ Yields (.fdiv g) [a, b] (natVal r) (satBit sat)) ∧
    (num a ≠ 0 → ∃ r sat, Rounds Num.f32 (1 / num a : ℚ) r sat ∧ Yields (.frcp g) [a] (natVal r) (satBit sat)) ∧
    (∃ r sat, Rounds Num.f32 (num a * num b + num c : ℚ) r sat ∧ Yields (.fma h) [a, b, c] (natVal r) (satBit sat))

/-- FMIN and FMAX deliver the smaller and larger number, of +0 and −0 the −0 and the +0; FEQ, FLT and FLE the natural 0 or 1
by value; FABS and FNEG clear and invert the sign bit (R145, R146). -/
def Obligations.FloatComparesAndSigns : Prop :=
  ∀ (g : GF) (a b : Val), finite a → finite b →
    Yields (.fmin g) [a, b] (natVal (if num a < num b ∨ (num a = num b ∧ 2 ^ 31 ≤ f32Of a) then f32Of a else f32Of b)) ∧
    Yields (.fmax g) [a, b] (natVal (if num b < num a ∨ (num a = num b ∧ f32Of a < 2 ^ 31) then f32Of a else f32Of b)) ∧
    Yields (.feq g) [a, b] (flagVal (decide (num a = num b))) ∧
    Yields (.flt g) [a, b] (flagVal (decide (num a < num b))) ∧
    Yields (.fle g) [a, b] (flagVal (decide (num a ≤ num b))) ∧
    Yields (.fabs g) [a] (natVal (f32Of a % 2 ^ 31)) ∧
    Yields (.fneg g) [a] (natVal ((f32Of a + 2 ^ 31) % 2 ^ 32))

/-- FSQRT and FRSQ are correctly rounded, FSQRT of −0 is −0; FEXP2 of an integer from −149 to 127, whose power F32 holds as a
subnormal below −126, and FLOG2 of a power of two are exact, and both always deliver a number of F32 (R26, R145, R146). -/
def Obligations.FloatRootsPowersAndLogarithms : Prop :=
  ∀ (g : GF) (a : Val), finite a →
    (0 ≤ num a → ∃ r sat, Rounds Num.f32 (√(num a : ℝ)) r sat ∧ Yields (.fsqrt g) [a] (natVal r) (satBit sat) ∧
      (num a = 0 → r = f32Of a)) ∧
    (0 < num a → ∃ r sat, Rounds Num.f32 (1 / √(num a : ℝ)) r sat ∧ Yields (.frsq g) [a] (natVal r) (satBit sat)) ∧
    (∃ r sat, isNum Num.f32 r ∧ Yields (.fexp2 g) [a] (natVal r) (satBit sat) ∧
      (∀ z : ℤ, num a = z → -149 ≤ z → z ≤ 127 → fmtNum Num.f32 r = 2 ^ z ∧ sat = false)) ∧
    (0 < num a → ∃ r sat, isNum Num.f32 r ∧ Yields (.flog2 g) [a] (natVal r) (satBit sat) ∧
      (∀ z : ℤ, num a = 2 ^ z → fmtNum Num.f32 r = z ∧ sat = false))

/-- An operand with X gives an error token; an operand without X that reads as an error raises PCODE, another operand's X
or not; an operation without a result gives an error token and raises INV; FSQRT, FEXP2, FLOG2 and FRSQ of every other operand
complete with a number (R22, R144, R145). -/
def Obligations.FloatErrorOperands : Prop :=
  ∀ (g : GF) (h : TF) (a b c : Val),
    let bad := fun (l : List Val) => if l.any (fun v => !v.x && !(Num.f32.read (f32Of v)).isSome) then flPcode else 0
    let err := fun (l : List Val) => l.any fun v => v.x || !(Num.f32.read (f32Of v)).isSome
    (err [a, b] = true → ∀ i ∈ [Instr.fadd g, .fsub g, .fmul g, .fdiv g, .fmin g, .fmax g, .feq g, .flt g, .fle g],
      Yields i [a, b] ⟨0, true⟩ (bad [a, b])) ∧
    (err [a] = true → ∀ i ∈ [Instr.fsqrt g, .fabs g, .fneg g, .fexp2 g, .flog2 g, .frcp g, .frsq g],
      Yields i [a] ⟨0, true⟩ (bad [a])) ∧
    (err [a, b, c] = true → Yields (.fma h) [a, b, c] ⟨0, true⟩ (bad [a, b, c])) ∧
    (finite a → finite b → num b = 0 → Yields (.fdiv g) [a, b] ⟨0, true⟩ flInv) ∧
    (finite a → num a < 0 → Yields (.fsqrt g) [a] ⟨0, true⟩ flInv) ∧
    (finite a → num a ≤ 0 → Yields (.flog2 g) [a] ⟨0, true⟩ flInv ∧ Yields (.frsq g) [a] ⟨0, true⟩ flInv) ∧
    (finite a → num a = 0 → Yields (.frcp g) [a] ⟨0, true⟩ flInv) ∧
    (finite a → (0 ≤ num a → ∃ r fl, isNum Num.f32 r ∧ Yields (.fsqrt g) [a] (natVal r) fl) ∧
      (0 < num a → (∃ r fl, isNum Num.f32 r ∧ Yields (.flog2 g) [a] (natVal r) fl) ∧
        ∃ r fl, isNum Num.f32 r ∧ Yields (.frsq g) [a] (natVal r) fl) ∧
      ∃ r fl, isNum Num.f32 r ∧ Yields (.fexp2 g) [a] (natVal r) fl)

/-- FCVT: an X or error pattern gives an error token (PCODE for the pattern); a float destination takes the value rounded
once with SAT on overflow; an integer destination takes the nearest integer, ties to even, or an error token with CVT when
it lies out of range (R148). -/
def Obligations.ConversionRoundsOrFails : Prop :=
  ∀ (h : TF) (src dst : FTy) (a : Val),
    (a.x = true → Yields (.fcvt h src dst) [a] ⟨0, true⟩) ∧
    (a.x = false → src.isInt = false → ((ftyFmt src).read a.nat).isSome = false → Yields (.fcvt h src dst) [a] ⟨0, true⟩ flPcode) ∧
    (∀ q : ℚ, a.x = false →
      (match src with
        | .int t => q = if t.signed then ((low t a).toInt : ℚ) else ((low t a).toNat : ℚ)
        | _ => ((ftyFmt src).read a.nat).isSome = true ∧ q = fmtNum (ftyFmt src) (a.nat % 2 ^ (1 + (ftyFmt src).ew + (ftyFmt src).mw))) →
      match dst with
      | .int t => ∀ z : ℤ, |q - z| ≤ 1 / 2 → (|q - z| = 1 / 2 → z % 2 = 0) →
          ((if t.signed then -(2 : ℤ) ^ (t.bits - 1) ≤ z ∧ z < 2 ^ (t.bits - 1) else 0 ≤ z ∧ z < 2 ^ t.bits) →
            Yields (.fcvt h src dst) [a] (wide t (BitVec.ofInt t.bits z))) ∧
          (¬ (if t.signed then -(2 : ℤ) ^ (t.bits - 1) ≤ z ∧ z < 2 ^ (t.bits - 1) else 0 ≤ z ∧ z < 2 ^ t.bits) →
            Yields (.fcvt h src dst) [a] ⟨0, true⟩ flCvt)
      | _ => ∃ r sat, Rounds (ftyFmt dst) q r sat ∧ Yields (.fcvt h src dst) [a] (natVal r) (satBit sat))

/-! ## Frames and tokens (R103 to R110, R114, R149 to R157) -/

/-- SEND, SENDX, SENDI and FFREE with a good frame pointer are held to the commit with their operands; a pointer with X
traps OPND_X, a malformed one BAD_FP, an FFREE of the own frame SELF_FREE. LDFX delivers the slot that A names; STFX delivers status 0
and holds its write to commit step 5, data with X as zero; an index beyond the frame, or with X, gives an error token and no write
(R114, R151, R154 to R157). -/
def Obligations.SendsFreesAndSlots : Prop :=
  (∀ (p : Pred) (slot : BitVec 7) (a b d : Val) (s : State) (c k n : Nat) (f : Firing),
    (∀ i ∈ [Instr.send p slot, .sendx p slot], Executes s c k n f i [a, b] →
      (a.x = false → goodFp s a → Holds s c k n f i [item i c f n [a, b]]) ∧
      (a.x = true → Traps s c k n i 0x05 0 0) ∧ (a.x = false → ¬ goodFp s a → Traps s c k n i 0x06 0 0)) ∧
    (Executes s c k n f (.sendi p) [a, b, d] →
      (a.x = false → d.x = false → goodFp s a → Holds s c k n f (.sendi p) [item (.sendi p) c f n [a, b, d]]) ∧
      (a.x = true ∨ d.x = true → Traps s c k n (.sendi p) 0x05 0 0) ∧
      (a.x = false → d.x = false → ¬ goodFp s a → Traps s c k n (.sendi p) 0x06 0 0)) ∧
    (Executes s c k n f (.ffree p) [a] →
      (a.x = false → goodFp s a → a.nat ≠ f.fp → Holds s c k n f (.ffree p) [item (.ffree p) c f n [a]]) ∧
      (a.x = true → Traps s c k n (.ffree p) 0x05 0 0) ∧ (a.x = false → ¬ goodFp s a → Traps s c k n (.ffree p) 0x06 0 0) ∧
      (a.x = false → goodFp s a → a.nat = f.fp → Traps s c k n (.ffree p) 0x21 f.fp 0))) ∧
  ∀ (g : GF) (a b : Val) (s : State) (c k n : Nat) (f : Firing), Free f [g.t1, g.t2] →
    (Executes s c k n f (.ldfx g) [a] →
      (a.x = false → a.nat < 128 → a.nat < f.size →
        Gives s c k n f (.ldfx g) (some ⟨(slotWord s f.fp a.nat).d, (slotWord s f.fp a.nat).x⟩) 0) ∧
      (a.x = true ∨ 128 ≤ a.nat ∨ f.size ≤ a.nat → Gives s c k n f (.ldfx g) (some ⟨0, true⟩) 0)) ∧
    (Executes s c k n f (.stfx g) [a, b] →
      (a.x = false → a.nat < 128 → a.nat < f.size →
        Does s s c k (.stfx g) { ran f n with
          dels := delivered f [g.t1, g.t2] (some ⟨0, false⟩), outs := f.outs ++ [.stfx n a.nat (if b.x then ⟨0, true⟩ else b)] }) ∧
      (a.x = true ∨ 128 ≤ a.nat ∨ f.size ≤ a.nat → Gives s c k n f (.stfx g) (some ⟨0, true⟩) 0))

/-- FALLOC of a task of the image with a good placement asks an allocator and awaits the pointer; an operand with X traps
OPND_X, a task outside the image BAD_TASK, a malformed placement BAD_FP (that a non-zero word index of another frame than the own is
malformed is the model's choice, log 7). FSTAT delivers the status of a frame of its own
core that is not inside a commit, and asks the frame's core otherwise (R149, R153, R160). -/
def Obligations.FrameRequests : Prop :=
  ∀ (sc : Scope) (g : GF) (a b : Val) (s : State) (c k n : Nat) (f : Firing), Free f [g.t1, g.t2] →
    (Executes s c k n f (.falloc sc g) [a, b] →
      (a.x = true ∨ b.x = true → Traps s c k n (.falloc sc g) 0x05 0 0) ∧
      (a.x = false → b.x = false → a.nat < 2 ^ 16 → ∀ t, taskBlk s c a.nat = some t →
        (placeBad s f.fp b.nat = true → Traps s c k n (.falloc sc g) 0x06 0 0) ∧
        (placeBad s f.fp b.nat = false →
          Does s (s.send (.falloc { core := c, ser := f.ser, idx := n, scope := sc, near := b.nat / 2 ^ 20, task := a.nat
                                    nslot := t.hdr.nslot, part := corePart s c })) c k (.falloc sc g)
            { ran f n with waits := n :: f.waits })) ∧
      (a.x = false → b.x = false → (2 ^ 16 ≤ a.nat ∨ taskBlk s c a.nat = none) → Traps s c k n (.falloc sc g) 0x20 a.nat 0)) ∧
    (Executes s c k n f (.fstat g) [a] →
      (a.x = true → Traps s c k n (.fstat g) 0x05 0 0) ∧ (a.x = false → ¬ goodFp s a → Traps s c k n (.fstat g) 0x06 0 0) ∧
      (a.x = false → goodFp s a → fpCore a.nat = c → committing s a.nat = false →
        Gives s c k n f (.fstat g) (some (fstatVal s a.nat)) 0) ∧
      (a.x = false → goodFp s a → (fpCore a.nat ≠ c ∨ committing s a.nat = true) →
        Does s (s.send (.fstat c f.ser n a.nat)) c k (.fstat g) { ran f n with waits := n :: f.waits }))

/-- A token fills an empty slot of its frame that has no queue, F set and X as sent, every other byte of memory but the
frame's header words as before; it joins the slot's queue otherwise, in the pool, or at the port behind what a full area holds there;
to a frame or slot that does not exist it is a stray,
counted at the frame's core, or at the sender's when that core is absent, the loader's being dropped. Every delivery answers a
next state (R106, R108, R206; that a token without a sender is the loader's, and what becomes of it, is the model's). -/
def Obligations.TokenFillsOrQueuesOrStrays : Prop :=
  ∀ (s0 : State) (t : Token), Safe s0 →
    let s := { s0 with focus := .event (.tokenDelivery t) }
    let c := fpCore t.fp
    (corePresent s c = true → frameAlloc s t.fp = true → t.slot < frameSize s t.fp →
      ((slotWord s t.fp t.slot).f = false → slotHead (s.core c).tbuf t.fp t.slot = none →
        exec .tokenDelivery s = .next (checkReady (recount (setSlot s t.fp t.slot t.v) t.fp) t.fp) ∧
        slotWord (setSlot s t.fp t.slot t.v) t.fp t.slot = ⟨t.v.d, true, t.v.x⟩ ∧
        ∀ a, outside (slotKey t.fp t.slot) 8 a → memGet (setSlot s t.fp t.slot t.v).mem a = memGet s.mem a) ∧
      ((slotWord s t.fp t.slot).f = true ∨ slotHead (s.core c).tbuf t.fp t.slot ≠ none →
        exec .tokenDelivery s = .next (tbufAdd s c (.token t)) ∧
        ((∀ b ∈ (s.core c).tbuf, b.place ≠ .port) → poolUsed (s.core c).tbuf + 1 ≤ 256 →
          ((tbufAdd s c (.token t)).core c).tbuf = (s.core c).tbuf ++ [{ e := .token t }]) ∧
        ((∃ b ∈ (s.core c).tbuf, b.place = .port) →
          ((tbufAdd s c (.token t)).core c).tbuf = (s.core c).tbuf ++ [{ e := .token t, place := .port }]))) ∧
    (corePresent s c = true → (frameAlloc s t.fp = false ∨ frameSize s t.fp ≤ t.slot) →
      exec .tokenDelivery s = .next (stray s c t.fp t.slot) ∧
      ((stray s c t.fp t.slot).core c).strayTok.toNat = ((s.core c).strayTok.toNat + 1) % 2 ^ 48) ∧
    (∀ m, corePresent s c = false → t.src = some m → exec .tokenDelivery s = .next (stray s m t.fp t.slot)) ∧
    (corePresent s c = false → t.src = none → exec .tokenDelivery s = .next s) ∧ ∃ u, exec .tokenDelivery s = .next u

/-- The net keeps orders: of two packets of which one comes first, the later is not delivered while the earlier is on its way. So
tokens of one core to one slot come in the order of sending (R107); what a core sends behind a store, other than a load, comes behind
the store (R118); two accesses of one core to one word reach its home in the order of sending, but for a load of another firing than
the first access's (R174, R431); what goes from one die to another arrives in the order of sending, where nothing holds the
first (R440). That the list of packets on their way stands for the open arrival order is the model's (log 2), and so is that a
token comes behind every store of its core that is on its way, where R118 promises that its receiver observes the store (log 3). -/
def Obligations.ArrivalKeepsPromisedOrders : Prop :=
  ∀ (s : State) (before between after : List Packet) (p q : Packet),
    (s.net = before ++ p :: between ++ q :: after → comesFirst s p q = true →
      before.length + 1 + between.length ∉ deliverable s [] 0 s.net) ∧
    (∀ t u : Token, t.src = u.src → t.fp = u.fp → t.slot = u.slot → comesFirst s (.token t) (.token u) = true) ∧
    (∀ a : Access, a.op.isLoad = false → a.core ∈ packetSrcs q → isRead q = false → comesFirst s (.access a) q = true) ∧
    (∀ a b : Access, a.core = b.core → a.loc.key / 8 = b.loc.key / 8 → (b.op.isLoad = false ∨ a.ser = b.ser) →
      comesFirst s (.access a) (.access b) = true) ∧
    (∀ d e, ends p = some (d, e) → ends q = some (d, e) → d ≠ e → blocked s p = false → comesFirst s p q = true)

/-! ## Memory (R161 to R184) -/

/-- The checks of R162 in their order, by space: reserved address, absent core or die, alignment, partition, scope, frame
area for LOCAL; the same without frames and with alone ownership for COMMONS, whose launch line on die 0 is refused too; reserved
address, alignment, partition, translation, write permission, register page, scope for GLOBAL; what passes them gives the
place (R162, R163, R346). That a core without a partition meets XLATE with reason 0x10 in GLOBAL space, and PROT with 0x21 in the
others, is the model's choice (log 17). -/
def Obligations.AddressChecksInOrder : Prop :=
  ∀ (s : State) (q : Ask) (a : Nat),
    (q.space = .loc →
      let h := coreId (bits a 31 27) (bits a 26 20)
      (2 ^ 32 ≤ a → checkAddr s q a = .trap 0x22 0x01) ∧
      (a < 2 ^ 32 → corePresent s h = false → checkAddr s q a = .trap 0x22 0x02) ∧
      (a < 2 ^ 32 → corePresent s h = true →
        (a % 2 ^ 20 % q.size ≠ 0 → checkAddr s q a = .trap 0x03 0) ∧
        (a % 2 ^ 20 % q.size = 0 →
          (inPart s q.core (bits a 31 27) = false → checkAddr s q a = .trap 0x0C 0x21) ∧
          (inPart s q.core (bits a 31 27) = true →
            (protOk q.scope q.core (some (.inl h)) = false → checkAddr s q a = .trap 0x0C 0x22) ∧
            (protOk q.scope q.core (some (.inl h)) = true →
              let low := bits (s.core q.core).frameBase.toNat 16 0
              (q.frame = true → low ≤ a % 2 ^ 20 / 8 → checkAddr s q a = .trap 0x0A 0x30) ∧
              (¬ (q.frame = true ∧ low ≤ a % 2 ^ 20 / 8) →
                checkAddr s q a = .ok { space := .loc, key := localKey h (a % 2 ^ 20), va := a } none)))))) ∧
    (q.space = .commons →
      let d := bits a 31 27
      (2 ^ 32 ≤ a → checkAddr s q a = .trap 0x22 0x01) ∧
      (a < 2 ^ 32 → diePresent s d = false → checkAddr s q a = .trap 0x22 0x02) ∧
      (a < 2 ^ 32 → diePresent s d = true → a % 2 ^ 27 % q.size ≠ 0 → checkAddr s q a = .trap 0x03 0) ∧
      (a < 2 ^ 32 → diePresent s d = true → a % 2 ^ 27 % q.size = 0 →
        let closed := ownsAlone s (corePart s q.core) d = false ∨ (d = 0 ∧ 0x7FFE000 ≤ a % 2 ^ 27)
        (closed → checkAddr s q a = .trap 0x0C 0x21) ∧
        (¬ closed → protOk q.scope q.core (some (.inr d)) = false → checkAddr s q a = .trap 0x0C 0x22) ∧
        (¬ closed → protOk q.scope q.core (some (.inr d)) = true →
          checkAddr s q a = .ok { space := .commons, key := commonsKey d (a % 2 ^ 27), va := a } none))) ∧
    (q.space = .global →
      (2 ^ 48 ≤ a → checkAddr s q a = .trap 0x22 0x01) ∧
      (a < 2 ^ 48 → a % q.size ≠ 0 → checkAddr s q a = .trap 0x03 0) ∧
      (a < 2 ^ 48 → a % q.size = 0 → corePart s q.core = none → checkAddr s q a = .trap 0x0B 0x10) ∧
      (a < 2 ^ 48 → a % q.size = 0 → corePart s q.core ≠ none → tlbFind s q.core a = none → checkAddr s q a = .miss) ∧
      (∀ t, a < 2 ^ 48 → a % q.size = 0 → corePart s q.core ≠ none → tlbFind s q.core a = some t →
        (physKind s (t.phys a) = .none → checkAddr s q a = .trap 0x0B 0x10) ∧
        (physKind s (t.phys a) ≠ .none → q.write = true → t.w = false → checkAddr s q a = .trap 0x0C 0x20) ∧
        (physKind s (t.phys a) ≠ .none → (q.write = true → t.w = true) →
          let page := ∃ d o, physKind s (t.phys a) = .reg d o
          let home : Option (Nat ⊕ Nat) := match physKind s (t.phys a) with | .dram d => some (.inr d) | .reg d _ => some (.inr d) | _ => none
          (q.noReg = true → page → checkAddr s q a = .trap 0x0C 0x20) ∧
          (¬ (q.noReg = true ∧ page) → protOk q.scope q.core home = false → checkAddr s q a = .trap 0x0C 0x22) ∧
          (¬ (q.noReg = true ∧ page) → protOk q.scope q.core home = true →
            checkAddr s q a = .ok { space := .global, key := t.phys a, va := a, slot := kvSlotOf s t a } (some t)))))

/-- LD.B, LD.H, LD.W and LD.D of the own scratchpad, behind no earlier access of the core, deliver the bytes little-endian with
the word's X at once, each byte that an older store of the firing writes taken from it; FE.TEST the F and X tags, of which nothing is
forwarded. The store that a byte comes from is the last in LSID order, then in index order, of the ST and STF below the load's
LSID (R9, R115, R166, R168, R173). -/
def Obligations.LoadsFromTheOwnScratchpad : Prop :=
  (∀ (l : LF) (a : Val) (s : State) (c k n : Nat) (f : Firing), l.space = .loc → Free f [l.tgt] → a.x = false → pendingOf s c = [] →
    (∀ e ∈ [(Instr.ldB l, 1), (.ldH l, 2), (.ldW l, 4), (.ldD l, 8)], ∀ i sz, e = (i, sz) →
      Executes s c k n f i [a] →
      let addr := lAddr a l.off sz
      let loc := ownLoc c addr
      OwnLocal s c addr sz false → isGated s loc.key = false →
        ∃ w, Merged f loc sz l.lsid.toNat ⟨BitVec.ofNat 64 (memNat s.mem loc.key sz), keyX s.mem loc.key⟩ w ∧ Gives s c k n f i (some w) 0) ∧
    (Executes s c k n f (.feTest l) [a] →
      let addr := lAddr a l.off 8
      OwnLocal s c addr 8 false → isGated s (ownLoc c addr).key = false →
        Gives s c k n f (.feTest l)
          (some (natVal (bnat (keyF s.mem (ownLoc c addr).key) + 2 * bnat (keyX s.mem (ownLoc c addr).key)))) 0)) ∧
  ∀ (outs : List Out) (sp : Space) (key l : Nat),
    (forwardFrom outs sp key l = none → ∀ o ∈ outs, ∀ lsid idx a, ¬ Forwards sp key l o lsid idx a) ∧
    ∀ a, forwardFrom outs sp key l = some a → ∃ o ∈ outs, ∃ lsid idx, Forwards sp key l o lsid idx a ∧
      ∀ o' ∈ outs, ∀ lsid' idx' a', Forwards sp key l o' lsid' idx' a' → lsid' < lsid ∨ (lsid' = lsid ∧ idx' ≤ idx)

/-- LDW and LDT of a full word of the own scratchpad deliver it, with the bytes that the firing forwards, LDT recording the place and
the word as the home holds it for the take of commit step 2. Of an empty word, which for LDT is one reserved for another frame too,
they abort the firing, whose frame waits at the word, PARKED; while the core has no waiter entry free the access is held instead.
The waiter is the last in the word's order; the frame whose own LDT finds its reserved word empty is the first, and the reservation
ends (R122, R123, R168, R169, R206). -/
def Obligations.FullEmptyLoads : Prop :=
  ∀ (l : LF) (a : Val) (s : State) (c k n : Nat) (f : Firing), l.space = .loc → a.x = false →
    let addr := lAddr a l.off 8
    let loc := ownLoc c addr
    let word : Val := ⟨BitVec.ofNat 64 (memNat s.mem loc.key 8), keyX s.mem loc.key⟩
    let own := reservedFor s loc.key
    let empty := fun (i : Instr) (op : MemOp) (take : Bool) =>
      (waiterRoom (s.core c) = true → exec i s = .next (parkFiring (registerWaiter s loc.key f.fp take) c k (some loc.key))) ∧
      (waiterRoom (s.core c) = false → Does s (s.send (.access (accessOf s c f n op loc 8 ⟨0, true⟩ ⟨0, true⟩ none))) c k i
        { ran f n with waits := n :: f.waits, lsids := f.lsids })
    isGated s loc.key = false → pendingOf s c = [] →
    (Executes s c k n f (.ldw l) [a] → OwnLocal s c addr 8 false →
      (keyF s.mem loc.key = true → Free f [l.tgt] → ∃ w, Merged f loc 8 l.lsid.toNat word w ∧ Gives s c k n f (.ldw l) (some w) 0) ∧
      (keyF s.mem loc.key = false → empty (.ldw l) .ldw false)) ∧
    (Executes s c k n f (.ldt l) [a] → OwnLocal s c addr 8 true →
      (keyF s.mem loc.key = true → own = none ∨ own = some f.fp → Free f [l.tgt] → ∃ w, Merged f loc 8 l.lsid.toNat word w ∧
        Does s s c k (.ldt l) { ran f n with dels := delivered f [l.tgt] (some w), take := some (loc, word) }) ∧
      (keyF s.mem loc.key = false ∨ (∃ g, own = some g ∧ g ≠ f.fp) → empty (.ldt l) .ldt true)) ∧
    (OwnLocal s c addr 8 false → ((s.core c).waiters.filter (·.place == .pool)).length < 256 → ∀ take,
      let w : Waiter := { key := loc.key, fp := f.fp, take }
      let rest := if own = some f.fp then (homeWaiters s loc.key).filter fun x => !(x.key == loc.key && x.reserved && x.fp == f.fp)
        else homeWaiters s loc.key
      homeWaiters (registerWaiter s loc.key f.fp take) loc.key = if own = some f.fp ∧ take = true then w :: rest else rest ++ [w])

/-- A load whose home is not the own scratchpad, whose bank is gated, or that must follow an earlier access of the core, is sent to its home and awaited; LDRC clamps its
count to 65,535; the LSIDs of LDW and LDT stay unresolved until the value returns (R166, R174, R177, R428). -/
def Obligations.LoadsElsewhereAreRequested : Prop :=
  ∀ (l : LF) (a b : Val) (s : State) (c k n : Nat) (f : Firing) (loc : Loc) (tl : Option Tlb), a.x = false →
    (∀ e ∈ [(Instr.ldB l, 1, MemOp.ld), (.ldH l, 2, .ld), (.ldW l, 4, .ld), (.ldD l, 8, .ld), (.feTest l, 8, .feTest)],
      ∀ i sz op, e = (i, sz, op) → Executes s c k n f i [a] →
      checkAddr s { core := c, space := l.space, size := sz, write := false } (lAddr a l.off sz) = .ok loc tl →
      (ownNow s (accessOf s c f n op loc sz ⟨0, true⟩ ⟨0, true⟩ none) && !isGated s loc.key) = false →
      Does s ((noteTlb s c tl).send (.access (accessOf s c f n op loc sz ⟨0, true⟩ ⟨0, true⟩ none))) c k i { ran f n with waits := n :: f.waits }) ∧
    (Executes s c k n f (.ldrc l) [a, b] →
      checkAddr s { core := c, space := l.space, size := 8, write := false, noReg := true } (lAddr a l.off 8) = .ok loc tl →
      let op : MemOp := .ldrc (if b.x then 0 else min b.nat 65535)
      (ownNow s (accessOf s c f n op loc 8 ⟨0, true⟩ ⟨0, true⟩ none) && !isGated s loc.key) = false →
      Does s ((noteTlb s c tl).send (.access (accessOf s c f n op loc 8 ⟨0, true⟩ ⟨0, true⟩ none))) c k (.ldrc l)
        { ran f n with waits := n :: f.waits }) ∧
    (∀ e ∈ [(Instr.ldw l, MemOp.ldw, false), (.ldt l, .ldt, true)], ∀ i op wr, e = (i, op, wr) → Executes s c k n f i [a] →
      checkAddr s { core := c, space := l.space, size := 8, write := wr, frame := wr } (lAddr a l.off 8) = .ok loc tl →
      (ownNow s (accessOf s c f n op loc 8 ⟨0, true⟩ ⟨0, true⟩ none) && !isGated s loc.key) = false →
      Does s ((noteTlb s c tl).send (.access (accessOf s c f n op loc 8 ⟨0, true⟩ ⟨0, true⟩ none))) c k i
        { ran f n with waits := n :: f.waits, lsids := f.lsids })

/-- Stores, tag operations, atomics, cache hints and FENCE write nothing when they execute: the operation is held to commit
step 3 with its place, operands and LSID (R115, R117, R167, R170 to R172, R176, R178, R179, R181, R184). -/
def Obligations.WritesAreHeldToCommit : Prop :=
  ∀ (p : Pred) (ls : BitVec 5) (sp : Space) (slot : BitVec 7) (sc : Scope) (w32 : Bool) (x : XF) (st : SF) (af : AF) (rf : RF)
    (a b d : Val) (s : State) (c k n : Nat) (f : Firing) (loc : Loc) (tl : Option Tlb), a.x = false →
    let holds := fun (i : Instr) (lsid : BitVec 5) (op : MemOp) (sz : Nat) (v w : Val) (sl : Option Nat) =>
      Does s (noteTlb s c tl) c k i { ran f n with outs := f.outs ++ [.mem lsid.toNat n (accessOf s c f n op loc sz v w sl)] }
    (∀ e ∈ [(Instr.stB st, MemOp.st, 1, false), (.stH st, .st, 2, false), (.stW st, .st, 4, false), (.stD st, .st, 8, false),
        (.stf st, .stf, 8, true), (.feSet st, .feSet, 8, true), (.feClr st, .feClr, 8, true)],
      ∀ i op sz nr vs, e = (i, op, sz, nr) → vs.head? = some a → Executes s c k n f i vs →
      checkAddr s { core := c, space := st.space, size := sz, write := true, frame := true, noReg := nr } (sAddr a st.off sz) = .ok loc tl →
      holds i st.lsid op sz (opn vs 1) ⟨0, true⟩ none) ∧
    (Executes s c k n f (.ste p ls sp slot) [a, b] →
      checkAddr s { core := c, space := sp, size := 8, write := true, frame := true, noReg := true } a.nat = .ok loc tl →
      holds (.ste p ls sp slot) ls .ste 8 b ⟨0, true⟩ (some slot.toNat)) ∧
    (∀ e ∈ [(Instr.amoAdd af, 0), (.amoMin af, 1), (.amoMax af, 2), (.amoAnd af, 3), (.amoOr af, 4), (.amoXor af, 5), (.amoSwap af, 6),
        (.amoFadd af, 8), (.amoIncw af, 9)], ∀ i op, e = (i, op) → Executes s c k n f i [a, b] →
      checkAddr s { core := c, space := af.space, size := if af.w32 then 4 else 8, write := true, frame := true, noReg := true, scope := some af.scope }
        a.nat = .ok loc tl →
      holds i af.lsid (.amo op af.w32 af.nat false false) (if af.w32 then 4 else 8) b ⟨0, true⟩ (some af.slot.toNat)) ∧
    (∀ e ∈ [(Instr.amoAddReduce rf, 0), (.amoMinReduce rf, 1), (.amoMaxReduce rf, 2), (.amoAndReduce rf, 3), (.amoOrReduce rf, 4),
        (.amoXorReduce rf, 5), (.amoSwapReduce rf, 6), (.amoFaddReduce rf, 8), (.amoIncwReduce rf, 9)],
      ∀ i op, e = (i, op) → Executes s c k n f i [a, b] →
      checkAddr s { core := c, space := rf.space, size := if rf.w32 then 4 else 8, write := true, frame := true, noReg := true, scope := some rf.scope }
        a.nat = .ok loc tl →
      holds i rf.lsid (.amo op rf.w32 rf.nat true rf.relaxed) (if rf.w32 then 4 else 8) b ⟨0, true⟩ none) ∧
    (Executes s c k n f (.amoCas x ls sp sc w32) [a, b, d] →
      checkAddr s { core := c, space := sp, size := if w32 then 4 else 8, write := true, frame := true, noReg := true, scope := some sc }
        a.nat = .ok loc tl →
      holds (.amoCas x ls sp sc w32) ls (.amo sopCas w32 false x.dest.isNone false) (if w32 then 4 else 8) b d (x.dest.map BitVec.toNat)) ∧
    (∀ e ∈ [(Instr.clean p ls, MemOp.clean), (.inval p ls, .inval)], ∀ i op, e = (i, op) → Executes s c k n f i [a] →
      checkAddr s { core := c, space := .global, size := 1, write := false } a.nat = .ok loc tl →
      holds i ls op 1 ⟨0, true⟩ ⟨0, true⟩ none) ∧
    (Executes s c k n f (.pref st) [a] → Holds s c k n f (.pref st) [.mem st.lsid.toNat n
      (accessOf s c f n .pref { space := st.space, key := 0, va := sAddr a st.off 512 } 1 a ⟨0, true⟩ none)]) ∧
    (Executes s c k n f (.fence p ls sc) [] → Holds s c k n f (.fence p ls sc) [.fence ls.toNat n sc])

/-- A memory instruction whose address carries X traps OPND_X with the address in word 4; one that a check refuses traps
with that check's cause, address and REASON, WRITE and SPACE; one without a translation awaits a walk. PREF alone never
traps and is held to commit (R115, R162, R164, R171 to R178, R183, R364). -/
def Obligations.AddressFailuresTrap : Prop :=
  ∀ (l : LF) (st : SF) (af : AF) (rf : RF) (x : XF) (p : Pred) (ls : BitVec 5) (sp : Space) (slot : BitVec 7) (sc : Scope) (w32 : Bool)
    (a b d : Val) (s : State) (c k n : Nat) (f : Firing),
    let fails := fun (i : Instr) (q : Ask) (addr : Nat) =>
      (a.x = true → Traps s c k n i 0x05 addr 0) ∧
      (∀ cause reason, a.x = false → checkAddr s q addr = .trap cause reason →
        Traps s c k n i cause addr (reason * 2 ^ 8 + 4 * bnat q.write + q.space.code)) ∧
      (a.x = false → checkAddr s q addr = .miss →
        exec i s = .next (startWalk (setFiring s c k (some { f with walks := n :: f.walks })) c addr (.insn c f.ser n addr q.write q.space.code)))
    let atomic := fun (sp : Space) (sc : Scope) (w32 : Bool) =>
      ({ core := c, space := sp, size := if w32 then 4 else 8, write := true, frame := true, noReg := true, scope := some sc } : Ask)
    (∀ e ∈ [(Instr.ldB l, 1, false), (.ldH l, 2, false), (.ldW l, 4, false), (.ldD l, 8, false), (.ldw l, 8, false), (.ldt l, 8, true),
        (.feTest l, 8, false)],
      ∀ i sz wr, e = (i, sz, wr) → Executes s c k n f i [a] →
      fails i { core := c, space := l.space, size := sz, write := wr, frame := wr } (lAddr a l.off sz)) ∧
    (Executes s c k n f (.ldrc l) [a, b] →
      fails (.ldrc l) { core := c, space := l.space, size := 8, write := false, noReg := true } (lAddr a l.off 8)) ∧
    (∀ e ∈ [(Instr.stB st, 1, false), (.stH st, 2, false), (.stW st, 4, false), (.stD st, 8, false), (.stf st, 8, true),
        (.feSet st, 8, true), (.feClr st, 8, true)],
      ∀ i sz nr vs, e = (i, sz, nr) → vs.head? = some a → Executes s c k n f i vs →
      fails i { core := c, space := st.space, size := sz, write := true, frame := true, noReg := nr } (sAddr a st.off sz)) ∧
    (Executes s c k n f (.ste p ls sp slot) [a, b] →
      fails (.ste p ls sp slot) { core := c, space := sp, size := 8, write := true, frame := true, noReg := true } a.nat) ∧
    (∀ i ∈ [Instr.amoAdd af, .amoMin af, .amoMax af, .amoAnd af, .amoOr af, .amoXor af, .amoSwap af, .amoFadd af, .amoIncw af],
      Executes s c k n f i [a, b] → fails i (atomic af.space af.scope af.w32) a.nat) ∧
    (∀ i ∈ [Instr.amoAddReduce rf, .amoMinReduce rf, .amoMaxReduce rf, .amoAndReduce rf, .amoOrReduce rf, .amoXorReduce rf,
        .amoSwapReduce rf, .amoFaddReduce rf, .amoIncwReduce rf],
      Executes s c k n f i [a, b] → fails i (atomic rf.space rf.scope rf.w32) a.nat) ∧
    (Executes s c k n f (.amoCas x ls sp sc w32) [a, b, d] → fails (.amoCas x ls sp sc w32) (atomic sp sc w32) a.nat) ∧
    (∀ i ∈ [Instr.clean p ls, .inval p ls], Executes s c k n f i [a] →
      fails i { core := c, space := .global, size := 1, write := false } a.nat) ∧
    (Executes s c k n f (.pref st) [a] → ∃ outs, Holds s c k n f (.pref st) outs)

/-- At its home, in LOCAL or COMMONS space, a store writes its bytes and X (data with X as zero; a part store keeps an X
that stands) and keeps F, and STF, STE, FE.SET and FE.CLR write the word and its F. In GLOBAL space it writes its bytes, zero with X,
and X poisons their codeword; a write of all its 64 bytes without X clears the poison. Every other byte of memory reads as
before (R167, R170 to R174). -/
def Obligations.StoresAtTheHome : Prop :=
  (∀ (s0 : State) (a : Access), Safe s0 → a.loc.space ≠ .global → a.loc.slot = none →
    2 ^ 48 ≤ a.loc.key → a.loc.key + 8 ≤ 2 ^ 50 →
    let s := { s0 with focus := .event (.accessAtHome a) }
    let key := a.loc.key
    isGated s key = false →
    (a.op = .st → key % 8 + a.size ≤ 8 → ∃ t, exec .accessAtHome s = .next t ∧
      memNat t.mem key a.size = (if a.v.x then 0 else a.v.nat % 256 ^ a.size) ∧ keyF t.mem key = keyF s.mem key ∧
      keyX t.mem key = (if a.size = 8 then a.v.x else a.v.x || keyX s.mem key) ∧
      (∀ b, outside key a.size b → memGet t.mem b = memGet s.mem b)) ∧
    (key % 8 = 0 → (a.op = .stf ∨ (a.op = .ste ∧ keyF s.mem key = false)) → ∃ t, exec .accessAtHome s = .next t ∧
      getWord t.mem key = ⟨if a.v.x then 0 else a.v.d, true, a.v.x⟩ ∧ (∀ b, outside key 8 b → memGet t.mem b = memGet s.mem b)) ∧
    (a.op = .ste → keyF s.mem key = true → ∀ n, a.slot = some n →
      exec .accessAtHome s = .next (s.send (.token { fp := a.fp, slot := n, v := ⟨1, false⟩, src := some a.core, die := homeDie a.loc.key }))) ∧
    (a.op = .feSet → ∃ t, exec .accessAtHome s = .next t ∧ keyF t.mem key = true ∧ keyX t.mem key = keyX s.mem key ∧
      (∀ b, b ≠ tagKey key → memGet t.mem b = memGet s.mem b)) ∧
    (a.op = .feClr → ∃ t, exec .accessAtHome s = .next t ∧ keyF t.mem key = false ∧ keyX t.mem key = keyX s.mem key ∧
      (∀ b, b ≠ tagKey key → memGet t.mem b = memGet s.mem b))) ∧
  (∀ (s0 : State) (a : Access), Safe s0 → a.op = .st → a.loc.space = .global → a.loc.slot = none → a.loc.key < 2 ^ 48 →
    0 < a.size → a.loc.key % 8 + a.size ≤ 8 → (∀ d n, physKind s0 a.loc.key ≠ .reg d n) → kvPrivate s0 (a.loc.key / 8 * 8) = none →
    let key := a.loc.key
    ∃ t, exec .accessAtHome { s0 with focus := .event (.accessAtHome a) } = .next t ∧
      memNat t.mem key a.size = (if a.v.x then 0 else a.v.nat % 256 ^ a.size) ∧ poisoned t.mem key = (a.v.x || poisoned s0.mem key) ∧
      ∀ b, (b < key ∨ key + a.size ≤ b) → b ≠ poisonKey key → memGet t.mem b = memGet s0.mem b) ∧
  ∀ (s : State) (p v : Nat) (x : Bool), Safe s → p % 64 = 0 → p < 2 ^ 48 → (∀ q, kvPrivate s q = none) →
    poisoned (physWrite s p v 64 x).mem p = x

/-- At its home an atomic writes the operation's result, sets F of a tagged word, and sends the old field to its result slot; FADD
writes the sum rounded once, with SAT in the issuing core's ASTAT. A field in error stays, and its result is an error token; an
operand with X puts the field in error: zero and X in a tagged word, the pattern 0x7FC00000 of FADD or a poisoned codeword in GLOBAL
space. Every other byte of memory reads as before (R167, R181, R182). -/
def Obligations.AtomicsAtTheHome : Prop :=
  ∀ (s0 : State) (a : Access) (op : Nat) (w32 nat reduce relaxed : Bool), Safe s0 → a.op = .amo op w32 nat reduce relaxed →
    a.loc.slot = none → (a.loc.key % 8 = 0 ∨ (w32 = true ∧ a.loc.key % 8 = 4)) → (op = 8 → w32 = true) →
    let s := { s0 with focus := .event (.accessAtHome a) }
    let key := a.loc.key
    let glob := a.loc.space = .global
    (glob → key < 2 ^ 48 ∧ (∀ d n, physKind s key ≠ .reg d n) ∧ s.images = [] ∧ kvPrivate s (key / 8 * 8) = none) →
    (¬ glob → 2 ^ 48 ≤ key ∧ key + 8 ≤ 2 ^ 50) → isGated s key = false →
    let n := if w32 then 4 else 8
    let w := 8 * n
    let field := memNat s.mem key n
    let old := BitVec.ofNat w field
    let b := a.v.d.setWidth w
    let err := fun (m : List Host.Cell) => if glob then poisoned m key else keyX m key
    let ends := fun (v : Val) (P : State → Prop) => ∃ t, exec .accessAtHome s = .next t ∧ P t ∧ (¬ glob → keyF t.mem key = true) ∧
      (∀ m, (m < key ∨ key + n ≤ m) → m ≠ (if glob then poisonKey key else tagKey key) → memGet t.mem m = memGet s.mem m) ∧
      (∀ slot, a.slot = some slot → .token { fp := a.fp, slot, v, src := some a.core, die := homeDie key } ∈ t.net)
    let stale := op = 8 ∧ bits field 30 23 = 255
    let spoilt := a.v.x = true ∨ (op = 10 ∧ a.w.x = true) ∨ (op = 8 ∧ bits a.v.nat 30 23 = 255)
    let leaves := fun (x : Nat) (e : Bool) (t : State) => memNat t.mem key n = x ∧ err t.mem = e
    (err s.mem = true → ends ⟨0, true⟩ (leaves field true)) ∧
    (err s.mem = false → stale → ends ⟨0, true⟩ (leaves field false)) ∧
    (err s.mem = false → ¬ stale → spoilt → ends (natVal field)
      (if glob then (if op = 8 then leaves 0x7FC00000 false else leaves field true) else leaves 0 true)) ∧
    (err s.mem = false → ¬ spoilt →
      ∀ e ∈ [(0, old + b), (1, if nat then (if old.ule b then old else b) else (if old.sle b then old else b)),
        (2, if nat then (if old.ule b then b else old) else (if old.sle b then b else old)), (3, old &&& b), (4, old ||| b), (5, old ^^^ b),
        (6, b), (9, if b.ule old then 0 else old + 1), (10, if old = b then a.w.d.setWidth w else old)],
      op = e.1 → ends (natVal field) (leaves e.2.toNat false)) ∧
    (err s.mem = false → op = 8 → isNum Num.f32 field → ¬ spoilt → isNum Num.f32 (f32Of a.v) → ∃ r sat,
      let sum := fmtNum Num.f32 field + fmtNum Num.f32 (f32Of a.v)
      Rounds Num.f32 (sum : ℚ) r sat ∧ (sum = 0 → r = if field = 2 ^ 31 ∧ f32Of a.v = 2 ^ 31 then 2 ^ 31 else 0) ∧
      ends (natVal field) fun t => leaves r false t ∧ (sat = true → (t.core a.core).astat.getLsbD 0 = true))

/-- The value of an awaited load reaches its targets with the bytes that the firing's own stores forward (FE.TEST's as it is), the load
awaited no longer, its LSID resolved, its delivery dated now; LDT records the word as the home held it; an answer for a firing that is
gone changes nothing (R115, R122, R168, R169, R428). -/
def Obligations.LoadValueReturns : Prop :=
  ∀ (s0 : State) (a : Access) (v raw : Val) (k : Nat) (f : Firing) (i : Instr),
    let s := { s0 with focus := .event (.loadValueReturn ⟨a, .value v raw⟩) }
    (resident s a.core a.ser = none → exec .loadValueReturn s = .next s) ∧
    (resident s a.core a.ser = some (k, f) → f.waits.contains a.idx = true → decodeWords (wordsAt f.code a.idx) = .ok i →
      Free f i.shape.tgts → a.size ≤ 8 → ∃ w,
        (a.op = .feTest → w = v) ∧ (a.op ≠ .feTest → Merged f a.loc a.size ((lsidOf i).getD 0) v w) ∧
        exec .loadValueReturn s = .next (setFiring s a.core k (some { f with
          waits := f.waits.filter (· != a.idx), lsids := a.idx :: f.lsids, take := if a.op = .ldt then some (a.loc, raw) else f.take
          due := f.due.map fun d => if d.1 = a.idx then (a.idx, max d.2 (coreCclk s a.core)) else d
          dels := delivered f i.shape.tgts (some w) })))

/-- The take of commit step 2: at the home, a word that is full, and reserved for no other frame, with the recorded value goes empty, data and X as
before, and the home answers that it was taken; another value is answered as different, a word that is empty, or reserved for
another frame, registers the frame as a waiter that held the take. Taken, the commit goes on with step 3; else the frame is parked, or its firing runs again (R117,
R122, R123, R169). -/
def Obligations.TakeOfCommitStepTwo : Prop :=
  (∀ (s0 : State) (r : TakeReq), Safe s0 → 2 ^ 48 ≤ r.loc.key → r.loc.key + 8 ≤ 2 ^ 50 → r.loc.key % 8 = 0 →
    let s := { s0 with focus := .event (.takeAtHome r) }
    let key := r.loc.key
    let say := fun (t : State) res => t.send (.takeAns ⟨r.core, r.ser, res, (homeDie key).getD 0⟩)
    let mine := reservedFor s key = none ∨ reservedFor s key = some r.fp
    isGated s key = false →
    (keyF s.mem key = true → mine → getWord s.mem key = ⟨r.v.d, true, r.v.x⟩ → ∃ t, exec .takeAtHome s = .next (say t .taken) ∧
      getWord t.mem key = ⟨r.v.d, false, r.v.x⟩ ∧ (∀ b, b ≠ tagKey key → memGet t.mem b = memGet s.mem b) ∧ t.cores = s.cores ∧ t.dies = s.dies) ∧
    (keyF s.mem key = true → mine → getWord s.mem key ≠ ⟨r.v.d, true, r.v.x⟩ → exec .takeAtHome s = .next (say s .differs)) ∧
    (keyF s.mem key = false ∨ ¬ mine → exec .takeAtHome s = .next (say (registerWaiter s key r.fp true) .parked))) ∧
  ∀ (s0 : State) (t : TakeAns) (k : Nat) (f : Firing),
    let s := { s0 with focus := .event (.takeAnswer t) }
    (resident s t.core t.ser = none → exec .takeAnswer s = .next s) ∧
    (resident s t.core t.ser = some (k, f) →
      (t.res = .taken → exec .takeAnswer s = .next (commitFrom3 s t.core k f (memOuts f))) ∧
      (t.res = .parked → exec .takeAnswer s = .next (parkFiring (countEv s t.core 0x05 1) t.core k (f.take.map (·.1.key)))) ∧
      (t.res = .differs → exec .takeAnswer s = .next (discardAgain (countEv s t.core 0x05 1) t.core k f)))

/-! ## A firing's start and its commit (R61 to R63, R66, R76, R111, R117, R121) -/

/-- The block check takes the header, the read entries, the write entries and the instruction words in ascending order, then the counts
that fall short; in each part the checks run in the order of Table 3.20, and the first that fails gives position and code. A target is in
range, forward, and names an operand position that its instruction takes. A firing whose block fails traps ILLEGAL_OP for code 0x10 and
ILLEGAL_FIELD for the others; else it is RUNNING, and each read entry has delivered its slot's value, or with ETEST its X bit, to its
targets, with nothing held or executed; a second delivery by read entry n traps MULTI_DELIVER at 0x100 + n (R61, R66, R67, R72, R76,
R77, R111, R112, R124). -/
def Obligations.BlockCheckAndReadEntries : Prop :=
  (∀ (co : Core) (b : Blk) (task : Nat), b.bad = [] →
    let H := b.hdr
    let ps := positions b.code
    let target := checkTarget H.nwr H.nins ps
    let check := blockCheck co b task
    let legal := bits b.raw 31 28 = 1 ∧ bits b.raw 27 24 = 0
    let sizes := H.nins = 0 ∨ 128 < H.nins ∨ 128 < H.nrd ∨ 32 < H.nwr ∨ 128 < H.nslot ∨ 32 < H.lsidCnt ∨ H.taskid ≠ task
    let zero := bits b.raw 111 96 = 0 ∧ bits b.raw 67 64 = 0 ∧ bits b.raw 50 48 = 0
    let after := fun (l : List (Nat × List IWord)) => l.foldl (fun k e => (checkInsn co H ps k e).2) ({} : Counts)
    (¬ legal → check = some (0x300, .fmtVer)) ∧ (legal → sizes → check = some (0x300, .counts)) ∧
    (legal → ¬ sizes → ¬ zero → check = some (0x300, .reserved)) ∧
    (legal → ¬ sizes → zero →
      (∀ j w e, b.reads[j]? = some w → checkRd H ps w = some e → (∀ i < j, ∀ u, b.reads[i]? = some u → checkRd H ps u = none) →
        check = some (0x100 + j, e)) ∧
      ((∀ w ∈ b.reads, checkRd H ps w = none) →
        (∀ j w e, b.writes[j]? = some w → checkWr H w = some e → (∀ i < j, ∀ u, b.writes[i]? = some u → checkWr H u = none) →
          check = some (0x200 + j, e)) ∧
        ((∀ w ∈ b.writes, checkWr H w = none) →
          let fine := fun (l : List (Nat × List IWord)) => ∀ l1 d l2, l = l1 ++ d :: l2 → (checkInsn co H ps (after l1) d).1 = none
          (∀ pre d post e, insns b.code = pre ++ d :: post → fine pre → (checkInsn co H ps (after pre) d).1 = some e → check = some (d.1, e)) ∧
          (fine (insns b.code) →
            check = if (H.take = true ∧ (after (insns b.code)).takes = 0) ∨ (after (insns b.code)).exits < H.nexit + 1 then some (0x300, .limit)
              else none)))) ∧
    (∀ w, let r := parseRd w
      (bits w 4 0 ≠ 0 → checkRd H ps w = some .reserved) ∧ (bits w 4 0 = 0 → H.nslot ≤ r.slot → checkRd H ps w = some .slot) ∧
      (bits w 4 0 = 0 → r.slot < H.nslot → (∀ e, target 0 r.t1 = some e → checkRd H ps w = some e) ∧
        (target 0 r.t1 = none → checkRd H ps w = target 0 r.t2)) ∧
      (bits w 23 0 ≠ 0 → checkWr H w = some .reserved) ∧
      (bits w 23 0 = 0 → checkWr H w = if H.nslot ≤ bits w 31 25 then some .slot else none)) ∧
    (∀ (k : Counts) (n : Nat) (w : IWord) (ws : List IWord), ws.length ≤ 1 →
      let check := checkInsn co H ps k (n, w :: ws)
      let decoded := decodeCore w.toNat (ws.head?.map BitVec.toNat)
      (∀ e, decoded = .error e → check.1 = some e) ∧
      (∀ i, decoded = .ok i → k.sends ≤ 16 → k.engs ≤ 8 → k.takes ≤ bnat H.take → k.exits ≤ H.nexit + 1 →
        let got := check.1
        let cls := i.shape.cls
        let lsid := ∃ l, i.shape.lsid = some l ∧ H.lsidCnt ≤ l.toNat
        let slot := ∃ t ∈ i.shape.slots, H.nslot ≤ t.toNat
        let away := ∃ p t, i = .broCont p t ∧ taskOf co t.toNat = none
        let full := (cls = .send ∧ k.sends = 16) ∨ (cls = .engine ∧ k.engs = 8) ∨ (cls = .take ∧ k.takes = bnat H.take) ∨
          (cls = .exit ∧ k.exits = H.nexit + 1)
        (lsid → got = some .lsid) ∧ (¬ lsid → slot → got = some .slot) ∧ (¬ lsid → ¬ slot → away → got = some .noTask) ∧
        (¬ lsid → ¬ slot → ¬ away → full → got = some .limit) ∧
        (¬ lsid → ¬ slot → ¬ away → ¬ full →
          (noneOk i w.toNat = false → got = some .tgtOperand) ∧
          (noneOk i w.toNat = true → got = (i.shape.tgts.map (target (n + 1))).findSome? id)) ∧
        check.2 = ⟨k.sends + bnat (cls == .send), k.engs + bnat (cls == .engine), k.takes + bnat (cls == .take),
          k.exits + bnat (cls == .exit)⟩)) ∧
    ∀ k, target k .none = none ∧ (∀ n, target k (.write n) = if H.nwr ≤ n.val then some .tgtRange else none) ∧
      ∀ n : Fin 128, ∀ t ∈ [Target.pred n, .opA n, .opB n],
        (H.nins ≤ n.val → target k t = some .tgtRange) ∧ (n.val < H.nins → n.val < k → target k t = some .tgtBackward) ∧
        (n.val < H.nins → k ≤ n.val →
          (∀ a b p, (ps.find? fun e => e.1 == n.val).map (·.2) = some (.first a b p) →
            target k (.pred n) = (if p then none else some .tgtUnpred) ∧ target k (.opA n) = (if a then none else some .tgtOperand) ∧
            target k (.opB n) = (if b then none else some .tgtOperand)) ∧
          (∀ x, (ps.find? fun e => e.1 == n.val).map (·.2) = some (.second x) →
            target k (.pred n) = some .tgtOperand ∧ target k (.opA n) = (if x then none else some .tgtOperand) ∧
            target k (.opB n) = some .tgtOperand))) ∧
  ∀ (s : State) (c k fp arr : Nat) (t : Task) (b : Blk), Safe s → fpCore fp = c → k < (s.core c).slots.length →
    taskOf (s.core c) (frameTask s fp) = some t → isFresh s fp = false → fetchBlock s c t.addr = b → b.bad = [] →
    let rd := b.reads.map parseRd
    let read := fun (r : RdEntry) => if r.etest then natVal (bnat (slotWord s fp r.slot).x) else ⟨(slotWord s fp r.slot).d, (slotWord s fp r.slot).x⟩
    let gives := fun (l : List RdEntry) => l.flatMap fun r => (named [r.t1, r.t2]).map fun t => (t, some (read r))
    let starts := fun (P : State → Firing → Prop) => ∃ u g, firingAt u c k = some g ∧ frameState u fp = 3 ∧
      (∀ a, outside (hdrKey fp 0) 8 a → memGet u.mem a = memGet s.mem a) ∧ u.net = s.net ∧
      g.fp = fp ∧ g.task = frameTask s fp ∧ g.code = b.code ∧ g.reads = rd ∧ g.writes = b.writes.map parseWr ∧ g.done = [] ∧ g.outs = [] ∧
      g.phase = .running ∧ g.exit = none ∧ g.take = none ∧ P u g
    (∀ p e, blockCheck (s.core c) b (frameTask s fp) = some (p, e) → starts fun u _ =>
      startFiring s c k fp arr = takeTrap u c k { cause := if e = .opcode then 0x01 else 0x02, pos := p, w5 := e.code }) ∧
    (blockCheck (s.core c) b (frameTask s fp) = none →
      (((gives rd).map (·.1)).Nodup → starts fun u g => startFiring s c k fp arr = u ∧ g.dels = gives rd) ∧
      ∀ pre r post, rd = pre ++ r :: post → ((gives pre).map (·.1)).Nodup →
        let got := (gives pre).map (·.1)
        (r.t1 ≠ .none → r.t1 ∈ got → starts fun u _ =>
          startFiring s c k fp arr = takeTrap u c k { cause := 0x07, pos := 0x100 + pre.length, w5 := r.t1.code }) ∧
        (r.t1 ∉ got → r.t2 ≠ .none → r.t2 ∈ r.t1 :: got → starts fun u _ =>
          startFiring s c k fp arr = takeTrap u c k { cause := 0x07, pos := 0x100 + pre.length, w5 := r.t2.code + 2 ^ 9 }))

/-- The steps of a commit. Step 3: memory operations and fences by LSID, then index; each is performed at the own scratchpad or sent,
and a fence that is not clear holds the rest. Step 4: outputs by index; a SEND to another core leaves as a token. Step 5: the write
entries in order, then STFX by index: OVER writes its slot; FILL and STFX write one that is empty, or that this commit consumes and has
not written yet, and else become a token to it; an entry without a value writes nothing. Step 6: the consumed slots that step 5
did not write go empty, data and X kept. Step 7: END frees the frame and what queued for it; REARM adds 1 to LOOP; CONT takes the
task and its NODE, LOOP + 1 for the own task and 0 for another; KEEP leaves LOOP; each makes the frame WAITING. Step 8: each empty slot
takes the head of its queue that stands in the pool or the walker table, and MISSING is counted again (R62, R63, R106, R109, R117, R121).
Tracing is off, and no section is released. -/
def Obligations.CommitSteps : Prop :=
  ∀ (s : State) (c k : Nat) (f : Firing) (e : Instr), Safe s → fpCore f.fp = c →
    let mem := fun (o : Out) => match o with | .mem l i _ => some (l, i) | .fence l i _ => some (l, i) | _ => none
    let stfx := fun (o : Out) => match o with | .stfx i n v => some (i, n, v) | _ => none
    let fill := fun (u : State × List Nat) (n : Nat) (v : Val) =>
      if (slotWord u.1 f.fp n).f = false ∨ (n ∈ consumed f ∧ n ∉ u.2) then (setSlot u.1 f.fp n v, n :: u.2)
      else (ownToken u.1 c { fp := f.fp, slot := n, v, src := some c }, u.2)
    -- step 3
    ((∀ o ∈ f.outs, ∀ p, mem o = some p → p.2 < 256) → (memOuts f).Perm (f.outs.filter fun o => (mem o).isSome) ∧
      (memOuts f).Pairwise fun a b => ∀ p q, mem a = some p → mem b = some q → p.1 < q.1 ∨ (p.1 = q.1 ∧ p.2 ≤ q.2)) ∧
    (∀ ser l, step3 s c ser [] = (s, none) ∧
      (∀ n i a, step3 s c ser (.mem n i a :: l) = step3 (issueMem s a) c ser l ∧
        (a.op ≠ .pref → issueMem s a = s.send (.access a) ∨ (ownNow s a = true ∧ issueMem s a = homeAccess s a))) ∧
      (∀ n i sc, step3 s c ser (.fence n i sc :: l) = if fenceClear s c ser sc then step3 s c ser l else (s, some (sc, l)))) ∧
    (∀ n outs u, f.exit = some (n, e) → (step3 s c f.ser outs = (u, none) → commitFrom3 s c k f outs = commitRest u c k f e) ∧
      ∀ sc rest, step3 s c f.ser outs = (u, some (sc, rest)) → commitFrom3 s c k f outs = setFiring u c k (some { f with phase := .fencing sc rest })) ∧
    -- step 4
    (∀ p slot n r sec, fpCore (opn r.ops 0).nat ≠ c →
      let leaves := fun v => (step4One s c f sec (.rel n r)).net = s.net ++ [.token { fp := (opn r.ops 0).nat, slot, v, src := some c }] ∧
        (step4One s c f sec (.rel n r)).mem = s.mem
      (∀ sl : BitVec 7, sl.toNat = slot → (r.i = .send p sl → leaves (if (opn r.ops 1).x then ⟨0, true⟩ else opn r.ops 1)) ∧
        (r.i = .sendx p sl → leaves ⟨if (opn r.ops 1).x then 0 else (opn r.ops 1).d, true⟩)) ∧
      (r.i = .sendi p → (opn r.ops 2).nat = slot → slot < 128 → leaves (if (opn r.ops 1).x then ⟨0, true⟩ else opn r.ops 1))) ∧
    -- step 5
    (∀ ws w, f.writes = ws ++ [w] → (∀ o ∈ f.outs, stfx o = none) → ws.length < 127 → let u := step5 s { f with writes := ws }
      (∀ v, delAt f (entryTarget ws.length) = some (some v) →
        step5 s f = if w.ovr then (setSlot u.1 f.fp w.slot v, w.slot :: u.2) else fill u w.slot v) ∧
      ((delAt f (entryTarget ws.length)).getD none = none → step5 s f = u)) ∧
    (f.writes = [] → (∀ o ∈ f.outs, stfx o = none) → step5 s f = (s, [])) ∧
    (∀ g l n v, stfxOuts f = l ++ [(n, v)] → stfxOuts g = l → g.writes = f.writes → g.reads = f.reads → g.dels = f.dels → g.fp = f.fp →
      step5 s f = fill (step5 s g) n v) ∧
    (∃ os : List Out, os.Perm (f.outs.filter fun o => (stfx o).isSome) ∧ (os.Pairwise fun a b => ∀ p q, stfx a = some p → stfx b = some q → p.1 ≤ q.1) ∧
      stfxOuts f = os.filterMap fun o => (stfx o).map (·.2)) ∧
    (∀ t : Token, tbufRoom (s.core c) 1 = true → portBusy s c = false → ownToken s c t = deliver s t) ∧
    -- steps 6 to 8 follow on step 5
    (hasSection f = false → relOuts f = [] → (s.die (coreDie c)).trace.ctl.getLsbD 63 = false →
      ∃ s4, s4.mem = s.mem ∧ s4.net = s.net ∧ (∀ c', (s4.core c').tbuf = (s.core c').tbuf ∧ (s4.core c').frames = (s.core c').frames) ∧
        let u := step5 s4 f
        let con := (consumed f).filter fun n => !u.2.contains n
        commitRest s c k f e = steps678 (u.1.modCore c fun co => { co with
          slots := setNth co.slots k none, commits := (co.commits + 1) % 2 ^ 48, busy := co.busy ||| 1 }) c (some k) f.fp f.arr con e false) ∧
    (∀ l n, (∀ m ∈ l, m < 128) → n < 128 → slotWord (consumeSlots s f.fp l) f.fp n =
      if n ∈ l then { slotWord s f.fp n with f := false } else slotWord s f.fp n) ∧
    (∀ p t, let loop := hdr s f.fp 3 / 2 ^ 20
      let ends := fun (x : Instr) (task lp node : Nat) => let u := exitFrame s f.fp x
        frameState u f.fp = 1 ∧ frameTask u f.fp = task ∧ hdr u f.fp 3 = lp * 2 ^ 20 + node ∧ frameSize u f.fp = frameSize s f.fp
      let node := hdr s f.fp 3 % 2 ^ 20
      let own := t.toNat = frameTask s f.fp
      ends (.broKeep p) (frameTask s f.fp) loop node ∧ ends (.broRearm p) (frameTask s f.fp) ((loop + 1) % 2 ^ 44) node ∧
      ends (.broCont p t) t.toNat (if own then (loop + 1) % 2 ^ 44 else 0) (match taskBlk s c t.toNat with | some b => b.hdr.node | none => 0) ∧
      ∀ con arr, let u := steps678 s c (some k) f.fp arr con (.broEnd p) false
        frameAlloc u f.fp = false ∧ ∀ x ∈ (u.core c).tbuf, entryFor f.fp x.e = none) ∧
    ((∀ t ∈ (s.core c).tasks, t.addr < 2 ^ 16) → (s.core c).half < 2 → let u := refillFrame s f.fp
      (∀ n < frameSize s f.fp, slotWord u f.fp n = if (slotWord s f.fp n).f then slotWord s f.fp n else
        match slotHead (s.core c).tbuf f.fp n with
        | some b => (match b.e with
            | .token t => if b.place = .pool ∨ b.place = .walk then ⟨t.v.d, true, t.v.x⟩ else slotWord s f.fp n
            | _ => slotWord s f.fp n)
        | none => slotWord s f.fp n) ∧
      frameMissing u f.fp = ((inputMask u c (frameTask u f.fp)).filter fun n => !(slotWord u f.fp n).f).length) ∧
    (∀ p con arr x, x ∈ [Instr.broKeep p, .broRearm p] → (s.core c).freeAfter.contains f.fp = false →
      let u := checkReady (refillFrame (exitFrame (consumeSlots s f.fp con) f.fp x) f.fp) f.fp
      steps678 s c (some k) f.fp arr con x false = if frameAlloc u f.fp then endReservations u f.fp else u)

/-! ## Registers, counters, traps (R124, R185 to R193, R210 to R215) -/

/-- SYS.RD delivers the register's value as it stands, and holds the clear of an RC register to commit step 4; PERF.RD delivers
the counter and clears nothing (R187, R189). SYS.WR, TLB.INV, WAITTICK, HALT, GANG.SYNC and the barrier instructions are held to
commit step 4 with their operands; X traps OPND_X; a reserved bit ILLEGAL_FIELD; a reserved register, TLB.INV or HALT outside a
handler block PROT 0x23; a barrier outside the partition PROT 0x21 (R186, R188, R190, R193, R337, R338, R477). -/
def Obligations.RegistersCountersAndSystemOperations : Prop :=
  (∀ (t : TF) (reg : BitVec 9) (s : State) (c k n : Nat) (f : Firing), Free f (Instr.sysRd t reg).shape.tgts →
    let v := natVal (coreRegRead s c reg.toNat)
    (Executes s c k n f (.sysRd t reg) [] →
      (reg.toNat ∈ [0x28, 0x29, 0x2A] → Does s s c k (.sysRd t reg) { ran f n with
        dels := delivered f (Instr.sysRd t reg).shape.tgts (some v), outs := f.outs ++ [.rc n reg.toNat v.d] }) ∧
      (reg.toNat ∉ [0x28, 0x29, 0x2A] → Gives s c k n f (.sysRd t reg) (some v) 0)) ∧
    (Executes s c k n f (.perfRd t reg) [] → Gives s c k n f (.perfRd t reg) (some (natVal (perfRead s c reg.toNat))) 0)) ∧
  ∀ (p : Pred) (reg : BitVec 9) (id : BitVec 6) (sc : Scope) (a b : Val) (s : State) (c k n : Nat) (f : Firing),
    let holds := fun i ops => Holds s c k n f i [item i c f n ops]
    (Executes s c k n f (.sysWr p reg) [a] → let i := Instr.sysWr p reg
      (a.x = true → Traps s c k n i 0x05 0 0) ∧
      (a.x = false → coreReserved reg.toNat a.nat = true → Traps s c k n i 0x02 0 0) ∧
      (a.x = false → coreReserved reg.toNat a.nat = false →
        (handlerReg reg.toNat = true → f.hdr.handler = false → Traps s c k n i 0x0C 0 (0x23 * 2 ^ 8)) ∧
        (handlerReg reg.toNat = false ∨ f.hdr.handler = true → holds i [a]))) ∧
    (Executes s c k n f (.tlbInv p sc) [a] → let i := Instr.tlbInv p sc
      (a.x = true → Traps s c k n i 0x05 0 0) ∧
      (a.x = false → f.hdr.handler = false → Traps s c k n i 0x0C 0 (0x23 * 2 ^ 8)) ∧
      (a.x = false → f.hdr.handler = true → holds i [a])) ∧
    (Executes s c k n f (.waittick p) [a, b] →
      (a.x = true ∨ b.x = true → Traps s c k n (.waittick p) 0x05 0 0) ∧
      (a.x = false → b.x = false → holds (.waittick p) [a, b])) ∧
    (Executes s c k n f (.halt p) [] →
      (f.hdr.handler = false → Traps s c k n (.halt p) 0x0C 0 (0x23 * 2 ^ 8)) ∧ (f.hdr.handler = true → holds (.halt p) [])) ∧
    (Executes s c k n f (.gangSync p) [a] →
      (a.x = true → Traps s c k n (.gangSync p) 0x05 0 0) ∧ (a.x = false → holds (.gangSync p) [a])) ∧
    (Executes s c k n f (.barArrive p sc id) [] → let i := Instr.barArrive p sc id
      (ownsExtent s sc c = true → holds i []) ∧ (ownsExtent s sc c = false → Traps s c k n i 0x0C 0 (0x21 * 2 ^ 8))) ∧
    (Executes s c k n f (.barWait p sc id) [a] → let i := Instr.barWait p sc id
      (a.x = true → Traps s c k n i 0x05 0 0) ∧
      (a.x = false → ownsExtent s sc c = true → holds i [a]) ∧
      (a.x = false → ownsExtent s sc c = false → Traps s c k n i 0x0C 0 (0x21 * 2 ^ 8))) ∧
    (Executes s c k n f (.barCfg p sc id) [a] → let i := Instr.barCfg p sc id
      (a.x = true → Traps s c k n i 0x05 0 0) ∧
      (a.x = false → 2 ^ 16 ≤ a.nat → Traps s c k n i 0x02 0 0) ∧
      (a.x = false → a.nat < 2 ^ 16 → ownsExtent s sc c = true → holds i [a]) ∧
      (a.x = false → a.nat < 2 ^ 16 → ownsExtent s sc c = false → Traps s c k n i 0x0C 0 (0x21 * 2 ^ 8)))

/-- Taking a trap: the firing ends, UNDONE counts it, nothing is released (no packet but the wakes of words that were reserved
for the frame), the frame is TRAPPED, and every other byte of memory is as before, but for the host's memory where a die event is raised;
with ENABLE the eight words of the record stand at the tail of the pending list with the frame's class; with ENABLE 0, or in a trap
frame, they go to the die fault log, a BRK under BRKDBG as well, MODE 3 (R120, R124, R210, R212, R215). Tracing is off, no free waits.
The model's choices: the record kinds 0x04 and 0x05 (log 26), and that in HALT_DF a BRK does not enter DEBUG and every record is logged
(log 27). -/
def Obligations.TrapEntryDeliversTheRecord : Prop :=
  ∀ (s : State) (c k : Nat) (f : Firing) (r : Trap), Safe s → c < 3072 → firingAt s c k = some f → fpCore f.fp = c →
    (s.core c).freeAfter.contains f.fp = false → (s.die (coreDie c)).trace.ctl.getLsbD 63 = false →
    let t := takeTrap s c k r
    let words := [r.cause, f.fp, f.addr, r.pos, r.w4, r.w5, s.tick, hdr s f.fp 3].map (BitVec.ofNat 64)
    let debug := r.cause = 0x0E ∧ (s.core c).trapv.getLsbD 17 = true ∧ (s.core c).mode ≠ 2
    let quiet := (s.core c).trapv.getLsbD 16 = false ∨ isTrapFrame s f.fp = true ∨ (s.core c).mode = 2
    let logged := fun kind => (t.die (coreDie c)).logN = (s.die (coreDie c)).logN + 1 ∧ (t.core c).pend = (s.core c).pend ∧
      ∃ w0 w1 rest, ((t.die (coreDie c)).log.get ((s.die (coreDie c)).logN % Config.faultLog) []) = w0 :: w1 :: (words ++ rest) ∧
        w0.toNat % 2 ^ 8 = kind
    firingAt t c k = none ∧ (t.core c).undone = ((s.core c).undone + 1) % 2 ^ 48 ∧ frameState t f.fp = 5 ∧
    (∃ ps, t.net = s.net ++ ps ∧ ∀ p ∈ ps, ∃ d fp, p = .wake d fp) ∧
    (∀ a, outside (hdrKey f.fp 0) 8 a → a < 2 ^ 46 ∨ 2 ^ 48 ≤ a → memGet t.mem a = memGet s.mem a) ∧
    (debug → (t.core c).mode = 3 ∧ logged 0x05) ∧ (¬ debug → quiet → (t.core c).mode = (s.core c).mode ∧ logged 0x04) ∧
    (¬ debug → ¬ quiet → (t.core c).pend = (s.core c).pend ++ [⟨words, frameClass s f.fp⟩] ∧ (t.core c).mode = (s.core c).mode ∧
      (t.die (coreDie c)).log = (s.die (coreDie c)).log ∧ ∀ a, outside (hdrKey f.fp 0) 8 a → memGet t.mem a = memGet s.mem a)

/-- A trapped frame of its core is run again, resumed or freed: RERUN makes it WAITING and R109 applies; RESUME empties the
trapped block's CONSUME slots first, makes it WAITING and runs step 8; FREE leaves no such frame. A pointer that names no
trapped frame is counted as a stray (R214). -/
def Obligations.TrappedFramesAreDisposedOf : Prop :=
  ∀ (s0 : State) (c fp : Nat),
    let at_ := fun e => { s0 with focus := .event e }
    let names := fpCore fp = c ∧ bits fp 19 17 = 0 ∧ frameAlloc s0 fp = true ∧ frameState s0 fp = 5
    (names →
      exec .frameCtlRerun (at_ (.frameCtlRerun c fp)) = .next (checkReady (setFrameState (at_ (.frameCtlRerun c fp)) fp 1) fp) ∧
      (∀ b, taskBlk s0 c (frameTask s0 fp) = some b → ∀ slots,
        slots = (b.reads.map parseRd).filterMap (fun r => if r.consume then some r.slot else none) →
        exec .frameCtlResume (at_ (.frameCtlResume c fp)) =
          .next (step8 (setFrameState (slots.foldl (fun s n => clearSlot s fp n) (at_ (.frameCtlResume c fp))) fp 1) fp)) ∧
      ∃ t, exec .frameCtlFree (at_ (.frameCtlFree c fp)) = .next t ∧ frameAlloc t fp = false) ∧
    (¬ names →
      exec .frameCtlRerun (at_ (.frameCtlRerun c fp)) = .next (stray (at_ (.frameCtlRerun c fp)) c fp 0) ∧
      exec .frameCtlResume (at_ (.frameCtlResume c fp)) = .next (stray (at_ (.frameCtlResume c fp)) c fp 0) ∧
      exec .frameCtlFree (at_ (.frameCtlFree c fp)) = .next (stray (at_ (.frameCtlFree c fp)) c fp 0))

/-- A store of a core's register takes effect by its access codes: TRAPV, SYNC_OVF, SYNC_OVA and DRAIN_LIM read what was
written, ASTAT clears where ones are written, a reserved bit rejects it; TQ_BASE is held while a ring or the walker table
holds records and takes effect when all are empty; EVSEL stores bits 59:0, clears OVF bits where ones are written and
clears the counters (R13, R200, R447). -/
def Obligations.RegisterWritesTakeEffect : Prop :=
  ∀ (s0 : State) (c : Nat) (v : BitVec 64),
    let at_ := fun e => { s0 with focus := .event e }
    (∀ n ∈ [0x08, 0x18, 0x19, 0x1C], coreReserved n v.toNat = false →
      ∃ t, exec .registerWrite (at_ (.registerWrite (.core c n) v)) = .next t ∧ coreRegRead t c n = v.toNat ∧
        (∀ m < 0x100, m ≠ n → coreRegRead t c m = coreRegRead s0 c m) ∧ ∀ a, memGet t.mem a = memGet s0.mem a) ∧
    (coreReserved 0x20 v.toNat = false → ∃ t, exec .registerWrite (at_ (.registerWrite (.core c 0x20) v)) = .next t ∧
      coreRegRead t c 0x20 = ((s0.core c).astat &&& ~~~v).toNat) ∧
    (∀ n, coreReserved n v.toNat = true →
      exec .registerWrite (at_ (.registerWrite (.core c n) v)) = .next (pkgReject (at_ (.registerWrite (.core c n) v)))) ∧
    (∀ n, ∃ t, exec .registerWrite (at_ (.registerWrite (.core c n) v)) = .next t) ∧
    (∃ t, exec .tqBaseWrite (at_ (.tqBaseWrite c v)) = .next t ∧
      (ringsEmpty (s0.core c) = true → coreRegRead t c 0x10 = v.toNat ∧ (t.core c).tqHeld = none) ∧
      (ringsEmpty (s0.core c) = false → coreRegRead t c 0x10 = coreRegRead s0 c 0x10 ∧ (t.core c).tqHeld = some v)) ∧
    (ringsEmpty (s0.core c) = true → (s0.core c).tqHeld = some v →
      ∃ t, exec .tqBaseApply (at_ (.tqBaseApply c)) = .next t ∧ coreRegRead t c 0x10 = v.toNat ∧ (t.core c).tqHeld = none) ∧
    (∃ t, exec .evselWrite (at_ (.evselWrite c v)) = .next t ∧ (∀ k < 4, coreRegRead t c (0x31 + k) = 0) ∧
      ∀ j < 64, (t.core c).evsel.getLsbD j =
        if j < 60 then v.getLsbD j else (s0.core c).evsel.getLsbD j && !v.getLsbD j)

/-! ## Barriers (R335 to R340) -/

/-- At a QUAD, DIE or PKG barrier: an ARRIVE counts, and as the N-th releases the generation, every waiter for it that stands in a pool or the walker
table gets its token with the generation's number, GEN advances and the count returns to 0; one at an unconfigured barrier is a stray. A
WAIT registers for its target generation, or gets its token at once. CFG sets N, and releases when the count reaches it; N
of 0 discards the arrivals (R338). A POD barrier's operation goes to its home (R476). -/
def Obligations.BarriersAtTheirHome : Prop :=
  ∀ (p : Pred) (sc : Scope) (id : BitVec 6) (s : State) (r : Released), s.focus = .home r →
    let b := barGet s sc r.core id.toNat
    let slot := (opn r.ops 0).nat
    let token := fun v => s.send (.token { fp := r.fp, slot, v, src := some r.core })
    (sc = .pod → exec (.barArrive p sc id) s = .next (podBar s r id.toNat) ∧ exec (.barWait p sc id) s = .next (podBar s r id.toNat) ∧
      exec (.barCfg p sc id) s = .next (podBar s r id.toNat)) ∧
    (sc ≠ .pod →
      (b.n = 0 → exec (.barArrive p sc id) s = .next (stray s r.core r.fp id.toNat)) ∧
      (b.n ≠ 0 → ∃ t, exec (.barArrive p sc id) s = .next t ∧
        (b.arr + 1 < b.n → barGet t sc r.core id.toNat = { b with arr := b.arr + 1 }) ∧
        (b.n ≤ b.arr + 1 → barGet t sc r.core id.toNat = { b with arr := 0, gen := (b.gen + 1) % 2 ^ 16 } ∧
          ∀ e ∈ s.cores, inExtent sc r.core e.1 = true → ∀ x ∈ e.2.tbuf, x.place.away = false → x.ans = none → ∀ fp sl, x.e = .barWait sc id.toNat b.gen fp sl →
            Packet.token { fp, slot := sl, v := natVal (b.gen % 2 ^ 16), src := some e.1 } ∈ t.net)) ∧
      (let target := r.arrived.getD b.gen
       (b.n = 0 → exec (.barWait p sc id) s = .next (token ⟨1, true⟩)) ∧
       (b.n ≠ 0 → target ≠ b.gen → exec (.barWait p sc id) s = .next (token (natVal (target % 2 ^ 16)))) ∧
       (b.n ≠ 0 → target = b.gen → exec (.barWait p sc id) s = .next (tbufAdd s r.core (.barWait sc id.toNat target r.fp slot)))) ∧
      ∃ t, exec (.barCfg p sc id) s = .next t ∧ barGet t sc r.core id.toNat =
        if slot = 0 then { b with n := 0, arr := 0 }
        else if slot ≤ b.arr then { n := slot, arr := 0, gen := (b.gen + 1) % 2 ^ 16 } else { b with n := slot })

/-! ## Commands: held by the firing, run by their engine or at their home -/

/-- Every command of opcodes 0x70 to 0x76 whose checks pass is held to commit step 4 with its operands; the first check
that fails traps, with its cause and words 4 and 5. The model's choices: OPND of a check that relates operands names the one that
offends (log 42); NELEM of a slab destination is not looked at (log 46) (R217, R225, R254, R280, R309, R366, R374, R375). -/
def Obligations.EngineCommandsAreHeld : Prop :=
  ∀ (i : Instr) (vs : List Val) (s : State) (c k n : Nat) (f : Firing), isCommand i = true → Executes s c k n f i vs →
    (heldCheck s c i vs = none → Holds s c k n f i [item i c f n vs]) ∧
    (∀ cause w4 w5, heldCheck s c i vs = some (.trap cause w4 w5) → Traps s c k n i cause w4 w5)

/-- The vector engine starts the command at the head of its queue, with the cycles that no block has; then it works block by block:
it waits on an empty word and writes nothing, or goes one block further; behind the last it sends the token and is free. In these
acts no word but those of the destination's range changes, and nothing else of the package but wakes of waiters of those words, the
status bits, the scale history, the token, and the event counters, which count the engine's cycles (R217 to R220, R222, R225, R230,
R447). No bank is gated; the checks of the command hold. -/
def Obligations.VectorEngineRunsBlockByBlock : Prop :=
  ∀ (i : Instr) (v : VF) (s : State) (c : Nat) (r : Released) (q : List Released), vfOf i = some v → i.wf = true → r.i = i →
    c < 3072 → Awake s → Safe s → vecCheck s c i v r.ops = none →
    (VecHead s c r q → ∃ t, exec i s = .next t ∧ t.mem = s.mem ∧ t.net = s.net ∧ (t.core c).vecQ = q ∧
      (t.core c).vec = some { cmd := r, till := coreCclk s c + vecFixed r }) ∧
    ∀ run, VecOn s c r q run → ∃ t ps es, exec i s = .next t ∧
      t = { s with mem := t.mem, cores := t.cores, net := s.net ++ ps, due := s.due ++ es } ∧ (∀ k, k ≠ c → t.core k = s.core k) ∧
      (let co := t.core c;
        co = { s.core c with vec := co.vec, astat := co.astat, hist := co.hist, evc := co.evc, waiters := co.waiters }) ∧
      (∀ e ∈ es, ∃ k < 4, e = .eventCounterWrap c k) ∧
      (∀ a, (∀ o, (vpos i).d = some o → ∀ w < (opndGeom i v 2 (opNat r o)).1, outside (wordKey c (opNat r o % 2 ^ 17 + w)) 8 a) →
        memGet t.mem a = memGet s.mem a) ∧
      (run.blk < cdiv (vecCount r) 1024 → (∀ p ∈ ps, ∃ d fp, p = .wake d fp) ∧
        ((∃ key, keyF s.mem key = false ∧ t.mem = s.mem ∧ (t.core c).vec = some { run with waitW := some key }) ∨
         ∃ w, (t.core c).vec = some w ∧ w.cmd = r ∧ w.blk = run.blk + 1 ∧ w.waitW = none)) ∧
      (cdiv (vecCount r) 1024 ≤ run.blk → (t.core c).vec = none ∧ (∃ val, Sent t r val) ∧
        ∀ p ∈ ps, (∃ d fp, p = .wake d fp) ∨ ∃ k, p = .token k ∧ k.fp = r.fp ∧ k.src = some c ∧ r.i.shape.slots.head?.map (·.toNat) = some k.slot)

/-- A block of a vector command that works lane by lane, its source words full (an empty one is waited on). Integers: the exact result
put at the destination's width and code. F32: VADD, VSUB, VMUL, VFMA round once, the others as the scalar instruction of the name; an
element in error makes one, PCODE is raised for a pattern of exponent 255. VAND, VOR, VXOR bit by bit, VCMP, VSELECT, VCVT and VFILL, aligned
where block-scaled, VCOPY and VPLANE with the exponents, VRAND, UNPACK.T5 in both layouts. The status bits are those of the lanes, the
token counts elements in error. The model's choices: VCOPY of a word with X (log 45), +1 in a TC element of width 1 (log 115), the
bits of two TC patterns (log 43), the limits and zeros of VCVT (log 44), the slab of UNPACK.T5 (log 48), VRAND's token (R218 to R222,
R227 to R235, R241 to R247). -/
def Obligations.VectorLanes : Prop :=
  ∀ (x : XF) (v : VF) (s : State) (c : Nat) (r : Released) (q : List Released) (run : VecRun), VecOn s c r q run →
    c < 3072 → Awake s → Safe s →
    let b := run.blk
    let d := vSet r v 2
    let src := fun k l => (vSet r v k).el s.mem b l
    let num := fun (e : El) => match e with | some p => elInt p | none => 0
    let pat := fun (e : El) => match e with | some p => p.2 | none => 0
    let bad := fun (e : El) => match e with | some p => (Num.f32.read p.2).isNone | none => false
    let put := fun (y : ℤ) => let z := putEl v.sat d.w v.cd y; ((some (some z.1), z.2) : Option El × Nat)
    let err := fun (fl : Nat) => ((some none, fl) : Option El × Nat)
    let moved := fun (e : El) => if e.isNone then err 0 else if v.cd = 2 then (if bad e then err flPcode else (some e, 0)) else put (num e)
    let fits := fun (y : ℤ) => if v.cd = 0 then -2 ^ (d.w - 1) ≤ y ∧ y < 2 ^ (d.w - 1) else |y| < 2 ^ d.w
    let kinds := fun (l : List (BitVec 2)) (k : BitVec 2) => ∀ e ∈ l, if k = 2 then e = 2 else e.toNat < 2
    let keysOf := fun (ks : List Nat) n => ks.flatMap fun k => (vSet r v k).needs b (List.range n)
    let block := fun (i : Instr) (o n : Nat) (keys : List Nat) (Lane : Nat → Option El × Nat → Prop) (Also : State → Prop) =>
      r.i = i → b < cdiv (vecCount r) 1024 → n = min 1024 (vCnt r o - 1024 * b) → d.base + (b + 1) * d.size ≤ 2 ^ 17 →
      ∃ out : Nat → Option El × Nat, (∀ l < n, Lane l (out l)) ∧ (∀ l, n ≤ l → out l = (none, 0)) ∧
        DoesBlock s c run keys fun t a => Lanes s t d b (fun l => (out l).1) ∧ Raised s t c (flagsOf ((List.range n).map fun l => (out l).2)) ∧
          a = { run.acc with errs := run.acc.errs + (List.range n).countP fun l => decide ((out l).1 = some none) } ∧ Also t ∧
          (t.core c).vec.map (·.till) = some (coreCclk s c + (vecCost i 0).1)
    let int := fun (ks : List Nat) (F : List ℤ → ℤ) l o =>
      let es := ks.map fun k => src k l
      if es.any (·.isNone) then o = err 0 else o = put (F (es.map num))
    let flt := fun (ks : List Nat) (P : List Nat → Option El × Nat → Prop) l o =>
      let es := ks.map fun k => src k l
      if es.any (fun e => e.isNone || bad e) then o = err (if es.any bad then flPcode else 0) else P (es.map pat) o
    let once := fun (F : List ℚ → ℚ) (ps : List Nat) o =>
      ∃ p sat, Rounds Num.f32 (F (ps.map (fmtNum Num.f32)) : ℚ) p sat ∧ o = (some (some (false, p)), satBit sat)
    let like := fun (F : List Nat → Num.FRes) (ps : List Nat) o => match F ps with
      | .num p sat => o = (some (some (false, p)), satBit sat)
      | .inv => o = err flInv
      | .pcode => o = err flPcode
    let exps := fun (n : Nat) (t : State) => ∀ g, 32 * g < n → d.exp t.mem b (32 * g) = (vSet r v 0).exp s.mem b (32 * g)
    let value := fun l => (src 0 l).bind fun p => if v.ca = 2 then (if (Num.f32.read p.2).isNone then none else some (fmtNum Num.f32 p.2))
      else some ((elInt p : ℚ) * (2 : ℚ) ^ (vSet r v 0).exp s.mem b l)
    let scaled := fun (i : Instr) (keys : List Nat) (qs : Nat → Option ℚ) (fl : Nat) =>
      let n := min 1024 (vCnt r 2 - 1024 * b)
      r.i = i → b < cdiv (vecCount r) 1024 → d.base + (b + 1) * d.size ≤ 2 ^ 17 → DoesBlock s c run keys fun t a =>
        ∃ (els : Nat → Option El) (sat : Nat → Bool), Lanes s t d b els ∧ (∀ l, n ≤ l → els l = none) ∧
          a = { run.acc with errs := run.acc.errs + (List.range n).countP fun l => (qs l).isNone } ∧
          Raised s t c (orFlags fl (flagsOf ((List.range (cdiv n 32)).map fun g => satBit (sat g)))) ∧
          ∀ g < cdiv n 32, let ls := (List.range (min 32 (n - 32 * g))).map (· + 32 * g)
            ∃ ms, AlignsTo (if v.cd = 0 then d.w - 1 else d.w) (ls.map qs) (d.exp t.mem b (32 * g)) ms (sat g) ∧
              ∀ l ∈ ls, ∃ e, els l = some e ∧ e.map elInt = nthD ms (l - 32 * g) none
    let any := fun (_ : State) => True
    (kinds [v.ca, v.cd] 0 →
      (∀ e ∈ [(Instr.vabs x v, fun (a : ℤ) => |a|), (.vneg x v, fun a => -a), (.vshl x v, fun a => a * 2 ^ (v.cmd.toNat % 64))],
        ∀ n, block e.1 2 n (keysOf [0] n) (int [0] fun l => e.2 (nthD l 0 0)) any) ∧
      (∀ n, block (.vshr x v) 2 n (keysOf [0] n) (fun l o => ∃ y : ℤ, int [0] (fun _ => y) l o ∧
        if v.opt then Nearest ((num (src 0 l) : ℚ) / 2 ^ (v.cmd.toNat % 64)) y else y = num (src 0 l) / 2 ^ (v.cmd.toNat % 64)) any) ∧
      (v.ga = v.gd → ∀ n, block (.vplane x v) 0 n (keysOf [0] n) (fun l o => if (src 0 l).isNone then o = err 0
        else if v.sat = true ∨ fits (num (src 0 l)) then o = put (num (src 0 l)) else o = err flCvt) fun t => v.ga = true → exps n t)) ∧
    (kinds [v.ca, v.cb, v.cd] 0 → ∀ e ∈ [(Instr.vadd x v, [0, 1], fun (a b _ : ℤ) => a + b), (.vsub x v, [0, 1], fun a b _ => a - b),
        (.vmul x v, [0, 1], fun a b _ => a * b), (.vfma x v, [0, 1, 2], fun a b d => a * b + d), (.vmin x v, [0, 1], fun a b _ => min a b),
        (.vmax x v, [0, 1], fun a b _ => max a b)],
      ∀ n, block e.1 2 n (keysOf e.2.1 n) (int e.2.1 fun l => e.2.2 (nthD l 0 0) (nthD l 1 0) (nthD l 2 0)) any) ∧
    (kinds [v.ca, v.cb, v.cd] 2 →
      (∀ e ∈ [(Instr.vadd x v, [0, 1], fun (a b _ : ℚ) => a + b), (.vsub x v, [0, 1], fun a b _ => a - b),
          (.vmul x v, [0, 1], fun a b _ => a * b), (.vfma x v, [0, 1, 2], fun a b d => a * b + d)],
        ∀ n, block e.1 2 n (keysOf e.2.1 n) (flt e.2.1 (once fun l => e.2.2 (nthD l 0 0) (nthD l 1 0) (nthD l 2 0))) any) ∧
      (∀ e ∈ [(Instr.vmin x v, Num.fmin), (.vmax x v, Num.fmax)],
        ∀ n, block e.1 2 n (keysOf [0, 1] n) (flt [0, 1] (like fun l => e.2 (nthD l 0 0) (nthD l 1 0))) any)) ∧
    (kinds [v.ca, v.cd] 2 → ∀ e ∈ [(Instr.vabs x v, Num.fabs), (.vneg x v, Num.fneg), (.vexp2 x v, Num.fexp2), (.vlog2 x v, Num.flog2),
        (.vrcp x v, Num.frcp), (.vrsq x v, Num.frsq)],
      ∀ n, block e.1 2 n (keysOf [0] n) (flt [0] (like fun l => e.2 (nthD l 0 0))) any) ∧
    (v.wa = v.wb ∧ v.wa = v.wd → v.ca = v.cb ∧ v.ca = v.cd → v.ca ≠ 3 →
      ∀ e ∈ [(Instr.vand x v, and), (.vor x v, or), (.vxor x v, xor)], ∀ n, block e.1 2 n (keysOf [0, 1] n) (fun l o =>
        if (src 0 l).isNone || (src 1 l).isNone then o = err 0 else ∃ y, o = (some (some y), 0) ∧ ∀ part, part + 1 < d.parts →
          d.partBit part (some y) = e.2 ((vSet r v 0).bitAt s.mem b part l) ((vSet r v 1).bitAt s.mem b part l)) any) ∧
    (kinds [v.ca, v.cb] v.ca → v.cd = 1 → v.cmd.toNat % 8 < 6 → ∀ n, block (.vcmp x v) 2 n (keysOf [0, 1] n) (fun l o =>
      let n := fun k => if v.ca = 2 then fmtNum Num.f32 (pat (src k l)) else (num (src k l) : ℚ)
      let holds : Prop := match v.cmd.toNat % 8 with
        | 0 => n 0 = n 1
        | 1 => n 0 ≠ n 1
        | 2 => n 0 < n 1
        | 3 => n 0 ≤ n 1
        | 4 => n 1 < n 0
        | _ => n 1 ≤ n 0
      let wrong := fun e => decide (v.ca = 2) && bad e
      if [0, 1].any (fun k => (src k l).isNone || wrong (src k l)) then o = err (if [0, 1].any fun k => wrong (src k l) then flPcode else 0)
      else (holds ∧ o = (some (some (false, 1)), 0)) ∨ (¬ holds ∧ o = (some (some (false, 0)), 0))) any) ∧
    (kinds [v.ca, v.cd] v.ca → ∀ n, block (.vselect x v) 2 n (keysOf [1, 0] n) (fun l o => match src 1 l with
      | none => o = err (if v.cd = 2 ∧ bad (src 0 l) = true then flPcode else 0)
      | some m => if m.2 = 0 then o = (none, 0) else o = moved (src 0 l)) any) ∧
    (v.ca ≠ 3 → v.cd ≠ 3 → v.gd = false → ∀ n, block (.vcvt x v) 2 n (keysOf [0] n) (fun l o => match value l with
      | none => o = err (if v.ca = 2 ∧ bad (src 0 l) = true then flPcode else 0)
      | some y => if v.cd = 2 then ∃ p sat, Rounds Num.f32 (y : ℚ) p sat ∧ o = (some (some (false, p)), satBit sat)
        else ∃ z, Nearest y z ∧ if fits z then ∃ w, o = (some (some w), 0) ∧ elInt w = z else if v.sat then o = put z else o = err flCvt) any) ∧
    (v.ca ≠ 3 → v.cd.toNat < 2 → v.gd = true → scaled (.vcvt x v) (keysOf [0] (min 1024 (vCnt r 2 - 1024 * b))) value
      (if (List.range (min 1024 (vCnt r 2 - 1024 * b))).any (fun l => decide (v.ca = 2) && bad (src 0 l)) then flPcode else 0)) ∧
    (let a := opn r.ops 0
      let p := a.d.toNat % 2 ^ 32
      (v.cd ≠ 3 → v.gd = false → ∀ n, block (.vfill x v) 2 n [] (fun _ o => if a.x then o = err 0
        else if v.cd = 2 then o = moved (some (false, p)) else o = put a.d.toInt) any) ∧
      (v.cd.toNat < 2 → v.gd = true → scaled (.vfill x v) [] (fun _ => if a.x || bad (some (false, p)) then none else some (fmtNum Num.f32 p))
        (if !a.x && bad (some (false, p)) then flPcode else 0))) ∧
    (v.wa = v.wd → v.ca = v.cd → v.ga = v.gd → v.cd ≠ 3 → ∀ n, block (.vcopy x v) 0 n (keysOf [0] n)
      (fun l o => o = (some (src 0 l), 0)) fun t => v.ga = true → exps n t) ∧
    (v.cd ≠ 3 → ∀ n, block (.vrand x v) 2 n [] (fun l o =>
      let key := opn r.ops 0
      let from_ := opn r.ops 1
      let h := Num.fmix32 (((from_.nat + 1024 * b + l) % 2 ^ 32 * 0x9E3779B1 + key.nat % 2 ^ 32) % 2 ^ 32)
      if key.x || from_.x then o = err 0
      else ∃ e, o = (some (some e), 0) ∧ if v.cd = 2 then e.1 = false ∧ isNum Num.f32 e.2 ∧ fmtNum Num.f32 e.2 = (h / 2 ^ 8 : ℕ) / 2 ^ 24
        else (∀ k < d.w, d.partBit k (some e) = h.testBit (32 - d.w + k)) ∧ (v.cd = 1 → e.1 = false)) any) ∧
    (let word := fun k => getWord s.mem (wordKey c (opNat r 0 % 2 ^ 17 + k / 40))
      let byte := fun k => (word k).d.toNat / 256 ^ (k / 5 % 8) % 256
      let digit : Nat → ℤ := fun k => match byte k / 3 ^ (k % 5) % 3 with | 0 => 0 | 1 => 1 | _ => -1
      let el := fun k o => if (word k).x then o = err 0 else if 242 < byte k then o = err flPcode
        else o = put (digit k) ∨ (d.w = 1 ∧ v.cd = 0 ∧ digit k = 1 ∧ o = err flCvt)
      (v.cmd.toNat % 2 = 0 → v.cd.toNat < 2 → ∀ n, block (.unpackT5 x v) 0 n
        ((List.range n).map fun l => wordKey c (opNat r 0 % 2 ^ 17 + (1024 * b + l) / 40)) (fun l o => el (1024 * b + l) o) any) ∧
      (v.cmd.toNat % 2 = 1 → v.wd = 0 → v.cd = 1 → v.gd = false → r.i = .unpackT5 x v → b < cdiv (vecCount r) 1024 →
        let slab := { d with unit := 32 }
        let kt := v.cmd.toNat / 2 + 1
        let kp := fun l => 32 * (b / 2) + l % 32
        let k := fun l => l / 32 * kt + kp l
        let here := fun l => l / 1024 = b % 2 ∧ l / 32 < cdiv (nelem (opNat r 0)) kt ∧ (kt ≤ kp l ∨ k l < nelem (opNat r 0))
        slab.base + (b / 2 + 1) * slab.size ≤ 2 ^ 17 → ∃ out : Nat → Option El × Nat,
          (∀ l < 2048, (¬ here l → out l = (none, 0)) ∧ (here l → kt ≤ kp l → out l = (some (some (false, 0)), 0)) ∧
            (here l → kp l < kt → el (k l) (out l))) ∧
          DoesBlock s c run (((List.range 2048).filter fun l => decide (here l ∧ kp l < kt)).map fun l => wordKey c (opNat r 0 % 2 ^ 17 + k l / 40)) fun t a =>
            Lanes s t slab (b / 2) (fun l => (out l).1) ∧ Raised s t c (flagsOf ((List.range 2048).map fun l => (out l).2)) ∧
            a = { run.acc with errs := run.acc.errs + (List.range 2048).countP fun l => decide ((out l).1 = some none) })) ∧
    (cdiv (vecCount r) 1024 ≤ b →
      (∀ i ∈ [Instr.vadd x v, .vsub x v, .vmul x v, .vfma x v, .vmin x v, .vmax x v, .vabs x v, .vneg x v, .vand x v, .vor x v, .vxor x v,
          .vshl x v, .vshr x v, .vcmp x v, .vselect x v, .vexp2 x v, .vlog2 x v, .vrcp x v, .vrsq x v, .vcvt x v, .vfill x v, .vcopy x v,
          .vplane x v, .unpackT5 x v], r.i = i → EndsWith s c r q (natVal (run.acc.errs % 2 ^ 32))) ∧
      (r.i = .vrand x v → EndsWith s c r q (if (opn r.ops 0).x || (opn r.ops 1).x then ⟨0, true⟩
        else natVal ((opn r.ops 1).nat + vCnt r 2))))

/-- A block of a vector command that reduces, scans or moves, its source words full, and the command's end. VRED keeps the exact sum or
extreme of the lanes that take part, F32 sums by the tree of R55; VSCAN lays the running sums; VTOPK keeps the best indices in order, and
lays them at the end; VCOMPACT lays the selected lanes one behind the other; VEXPAND takes them so; VGATHER and VSCATTER go by index,
the last of two winning; VAMAXH keeps the largest magnitude, which enters the scale history; each token carries its own value. What
the engine keeps between two blocks is part of the statement; the start gives it zero. The model's choices: a lane of VRED whose mask
is in error takes part (log 47), a word that VCOMPACT fills from two blocks is written in parts (log 102) (R25, R55, R56, R219, R220,
R236 to R241, R246). -/
def Obligations.VectorReductionsAndMoves : Prop :=
  ∀ (x : XF) (v : VF) (s : State) (c : Nat) (r : Released) (q : List Released) (run : VecRun), VecOn s c r q run →
    c < 3072 → Awake s → Safe s → v.cd.toNat < 3 → v.gd = false →
    let b := run.blk
    let d := vSet r v 2
    let cnt := vCnt r
    let count := fun k => min 1024 (cnt k - 1024 * b)
    let keysOf := fun k n => (vSet r v k).needs b (List.range n)
    let A := fun l => (vSet r v 0).el s.mem b l
    let B := fun l => (vSet r v 1).el s.mem b l
    let pick := fun l => (B l).map fun e => decide (e.2 ≠ 0)
    let mask := fun l => if v.msk then pick l else some true
    let maskKeys := fun n => keysOf 0 n ++ if v.msk then keysOf 1 n else []
    let fp := v.ca = 2
    let bad := fun (e : El) => match e with | some p => decide (v.ca = 2) && (Num.f32.read p.2).isNone | none => false
    let int : El → ℤ := fun e => match e with | some p => elInt p | none => 0
    let pat := fun (e : El) => match e with | some p => p.2 | none => 0
    let num := fun (e : El) => if v.ca = 2 then fmtNum Num.f32 (pat e) else (int e : ℚ)
    let err := fun (fl : Nat) => ((none, fl) : El × Nat)
    let put := fun (y : ℤ) => let z := putEl v.sat d.w v.cd y; ((some z.1, z.2) : El × Nat)
    let same := fun (e : El) => if bad e then err flPcode else (e, 0)
    let moved := fun (e : El) => if e.isNone || v.cd = 2 then same e else put (int e)
    let any := fun (i : Nat) => (vSet r v 0).el s.mem (i / 1024) (i % 1024)
    let anyKeys := fun (is : List Nat) => (vSet r v 0).needsAll is
    let room := fun n => d.base + cdiv n 1024 * d.size ≤ 2 ^ 17
    let ended := cdiv (vecCount r) 1024 ≤ b
    let on := b < cdiv (vecCount r) 1024
    (r.i = .vred x v →
      let n := count 0
      let part := (List.range n).filter fun l => mask l ≠ some false
      let op := v.cmd.toNat % 4
      (on → (run.acc.seen = true → fp → isNum Num.f32 run.acc.bits) → DoesBlock s c run (maskKeys n) fun t a => t.mem = s.mem ∧
        Raised s t c (if part.any fun l => bad (A l) then flPcode else 0) ∧
        a.bad = (run.acc.bad || part.any fun l => (A l).isNone || bad (A l) || (mask l).isNone) ∧
        (a.bad = false → a.seen = (run.acc.seen || decide (part ≠ [])) ∧
          (¬ fp → let xs := part.map (fun l => int (A l)) ++ if run.acc.seen then [run.acc.int] else []
            (op = 0 → a.int = run.acc.int + (part.map fun l => int (A l)).sum) ∧
            (op = 1 → xs ≠ [] → a.int ∈ xs ∧ ∀ y ∈ xs, y ≤ a.int) ∧ (op = 2 → xs ≠ [] → a.int ∈ xs ∧ ∀ y ∈ xs, a.int ≤ y) ∧
            (op = 3 → a.int = (part.map fun l => |int (A l)|).foldl max run.acc.int)) ∧
          (fp → let ps := part.map (fun l => pat (A l)) ++ if run.acc.seen then [run.acc.bits] else []
            let N := fmtNum Num.f32
            (op = 0 → ∀ T : Nat → Nat → Nat, (∀ l < 1024, T 0 l = if l ∈ part then pat (A l) else 0) →
              (∀ k < 10, ∀ j < 2 ^ (9 - k), T (k + 1) j = (addF (T k (2 * j)) (T k (2 * j + 1))).1) →
              a.bits = if b = 0 then T 10 0 else (addF run.acc.bits (T 10 0)).1) ∧
            (op = 1 → ps ≠ [] → a.bits ∈ ps ∧ (∀ p ∈ ps, N p ≤ N a.bits) ∧ (N a.bits = 0 → 0 ∈ ps → a.bits = 0)) ∧
            (op = 2 → ps ≠ [] → a.bits ∈ ps ∧ (∀ p ∈ ps, N a.bits ≤ N p) ∧ (N a.bits = 0 → 2 ^ 31 ∈ ps → a.bits = 2 ^ 31)) ∧
            (op = 3 → a.bits = (part.map fun l => pat (A l) % 2 ^ 31).foldl max run.acc.bits)))) ∧
      (ended → EndsWith s c r q (if run.acc.bad then ⟨0, true⟩ else if run.acc.seen = false then (if op = 0 then natVal 0 else ⟨0, true⟩)
        else if v.ca = 2 then natVal run.acc.bits else ⟨BitVec.ofInt 64 run.acc.int, false⟩)
        (if run.acc.bad = false ∧ run.acc.seen = true ∧ fp then run.acc.n2 else 0))) ∧
    (r.i = .vscan x v → (fp ↔ v.cd = 2) →
      let n := count 2
      let add := fun l => match mask l with
        | some false => some (false, 0)
        | some true => if bad (A l) then none else A l
        | none => none
      let sum := fun k => if run.acc.bad = true ∨ ∃ l < k, add l = none then none else
        some (run.acc.int + ((List.range k).map fun l => int (add l)).sum)
      let lays := fun (t : State) (a : EngAcc) (els : Nat → El) => Lanes s t d b (fun l => if l < n then some (els l) else none) ∧
        a.errs = run.acc.errs + (List.range n).countP fun l => (els l).isNone
      (on → room (cnt 2) → DoesBlock s c run (maskKeys n) fun t a =>
        (¬ fp → ∃ els : Nat → El × Nat, (∀ l < n, els l = match sum (if v.opt then l else l + 1) with | some y => put y | none => err 0) ∧
          lays t a (fun l => (els l).1) ∧ Raised s t c (flagsOf ((List.range n).map fun l => (els l).2)) ∧
          a.bad = (sum n).isNone ∧ ∀ y, sum n = some y → a.int = y) ∧
        (fp → ∀ V : Nat → Nat → Option Nat, (∀ l < n, V 0 l = (add l).map (·.2)) →
          (∀ k < 10, ∀ l < n, V (k + 1) l = if l < 2 ^ k then V k l else (addE (V k (l - 2 ^ k)) (V k l)).1) →
          let carry := if run.acc.bad then none else some run.acc.bits
          let upTo := fun l => if b = 0 then V 10 l else (addE carry (V 10 l)).1
          (∃ sat, Raised s t c (orFlags (if (List.range n).any (fun l => decide (mask l ≠ some false) && bad (A l)) then flPcode else 0) (satBit sat))) ∧
            lays t a (fun l => (if v.opt then (if l = 0 then carry else upTo (l - 1)) else upTo l).map fun p => (false, p)) ∧
            a.bad = (upTo (n - 1)).isNone ∧ ∀ y, upTo (n - 1) = some y → a.bits = y)) ∧
      (ended → EndsWith s c r q (if run.acc.bad then ⟨BitVec.ofNat 64 (run.acc.errs % 2 ^ 32), true⟩
        else if v.ca = 2 then natVal run.acc.bits else ⟨BitVec.ofInt 64 run.acc.int, false⟩))) ∧
    (r.i = .vtopk x v → v.cd.toNat < 2 →
      let K := v.cmd.toNat % 64 + 1
      let n := count 0
      let use := (List.range n).filter fun l => mask l = some true ∧ (A l).isSome ∧ bad (A l) = false
      let place := fun l => orderKey (decide (v.ca = 2)) ((A l).getD default)
      let better := fun (i j : Nat × Nat) => (if v.opt then i.1 < j.1 else j.1 < i.1) ∨ i.1 = j.1 ∧ i.2 < j.2
      let all := run.acc.top ++ use.map fun l => (place l, 1024 * b + l)
      (on → run.acc.top.Pairwise better → run.acc.top.length ≤ K → (∀ e ∈ run.acc.top, e.2 < 1024 * b) →
        DoesBlock s c run (maskKeys n) fun t a => t.mem = s.mem ∧
          Raised s t c (if (List.range n).any (fun l => decide (mask l = some true) && bad (A l)) then flPcode else 0) ∧
          (∀ i ∈ use, ∀ j ∈ use, place i < place j ↔ num (A i) < num (A j)) ∧
          a.top.Pairwise better ∧ a.top.length = min K all.length ∧ (∀ e ∈ a.top, e ∈ all) ∧ ∀ e ∈ all, e ∉ a.top → ∀ f ∈ a.top, better f e) ∧
      (ended → room K → run.acc.top.length ≤ K → (∀ e ∈ run.acc.top, e.2 ≤ elMax d.w v.cd) →
        ∃ t, exec r.i s = .next t ∧ (t.core c).vec = none ∧ (t.core c).vecQ = q ∧ Sent t r (natVal run.acc.top.length) ∧
          Lanes s t d 0 fun l => if l < K then some ((nth? run.acc.top l).map fun e => (false, e.2)) else none)) ∧
    (r.i = .vcompact x v → (v.opt = true ∧ v.cd.toNat < 2 ∨ v.opt = false ∧ (fp ↔ v.cd = 2)) →
      let n := count 0
      let sel := (List.range n).filter fun l => pick l ≠ some false
      let el := fun l => if v.opt then (if (pick l).isNone then err 0 else (some (false, 1024 * b + l), 0))
        else if (pick l).isNone then err (if bad (A l) then flPcode else 0) else moved (A l)
      let fit := sel.take (cnt 2 - run.acc.n1)
      (on → room (cnt 2) → (v.opt = true → 1024 * b + n ≤ elMax d.w v.cd + 1) →
        DoesBlock s c run ((if v.opt then [] else keysOf 0 n) ++ keysOf 1 n) fun t a =>
          (∀ k < cdiv (cnt 2) 1024, Lanes s t d k fun m => let j := 1024 * k + m
            if run.acc.n1 ≤ j ∧ j < run.acc.n1 + fit.length then (nth? fit (j - run.acc.n1)).map fun l => (el l).1 else none) ∧
          Raised s t c (flagsOf (fit.map fun l => (el l).2)) ∧ a = { run.acc with n1 := run.acc.n1 + sel.length }) ∧
      (ended → EndsWith s c r q (natVal (run.acc.n1 * 2 ^ 32 + min run.acc.n1 (cnt 2))))) ∧
    (r.i = .vexpand x v → (fp ↔ v.cd = 2) →
      let n := count 2
      let sel := (List.range n).filter fun l => pick l = some true
      let u := fun l => run.acc.n1 + (sel.filter (· < l)).length
      let used := (sel.map u).filter (· < cnt 0)
      let el := fun l => if pick l = some true ∧ u l < cnt 0 then moved (any (u l)) else err 0
      (on → room (cnt 2) → DoesBlock s c run (keysOf 1 n ++ anyKeys used) fun t a =>
        Lanes s t d b (fun l => if l < n ∧ pick l ≠ some false then some (el l).1 else none) ∧
        Raised s t c (flagsOf (((List.range n).filter fun l => pick l ≠ some false).map fun l => (el l).2)) ∧
        a.n1 = run.acc.n1 + used.length) ∧
      (ended → EndsWith s c r q (natVal run.acc.n1))) ∧
    (v.wa = v.wd → v.ca = v.cd →
      let index := fun l m => match B l with | some e => if 0 ≤ elInt e ∧ elInt e < (m : ℤ) then some (elInt e).toNat else none | none => none
      (r.i = .vgather x v →
        let n := count 2
        let el := fun l => match index l (cnt 0) with | some i => same (any i) | none => err 0
        (on → room (cnt 2) → DoesBlock s c run (keysOf 1 n ++ anyKeys ((List.range n).filterMap fun l => index l (cnt 0))) fun t a =>
          Lanes s t d b (fun l => if l < n then some (el l).1 else none) ∧ Raised s t c (flagsOf ((List.range n).map fun l => (el l).2)) ∧
          a = { run.acc with errs := run.acc.errs + (List.range n).countP fun l => (el l).1.isNone }) ∧
        (ended → EndsWith s c r q (natVal (run.acc.errs % 2 ^ 32)))) ∧
      (r.i = .vscatter x v →
        let n := count 0
        let writer := fun i => (List.range n).reverse.find? fun l => decide (index l (cnt 2) = some i)
        let kept := (List.range n).filter fun l => (index l (cnt 2)).isSome
        (on → room (cnt 2) → DoesBlock s c run (keysOf 0 n ++ keysOf 1 n) fun t a =>
          (∀ k < cdiv (cnt 2) 1024, Lanes s t d k fun m => (writer (1024 * k + m)).map fun l => (same (A l)).1) ∧
          Raised s t c (flagsOf (kept.map fun l => (same (A l)).2)) ∧ a = { run.acc with n1 := run.acc.n1 + (n - kept.length) }) ∧
        (ended → EndsWith s c r q (natVal (run.acc.n1 % 2 ^ 32))))) ∧
    (r.i = .vamaxh x v → v.ca ≠ 3 →
      let n := count 0
      let value := fun l => if (A l).isNone || bad (A l) then none else
        some (if v.ca = 2 then |num (A l)| else |num (A l)| * (2 : ℚ) ^ (vSet r v 0).exp s.mem b l)
      let H := run.acc.bits
      (on → isNum Num.f32 H → H < 2 ^ 31 → DoesBlock s c run (keysOf 0 n) fun t a => t.mem = s.mem ∧
        Raised s t c (if (List.range n).any (fun l => bad (A l)) then flPcode else 0) ∧ isNum Num.f32 a.bits ∧ a.bits < 2 ^ 31 ∧
        fmtNum Num.f32 a.bits = ((List.range n).filterMap value).foldl (fun m y => max m (min y (topNum Num.f32))) (fmtNum Num.f32 H)) ∧
      (ended → ∃ t, exec r.i s = .next t ∧ (t.core c).vec = none ∧ (t.core c).vecQ = q ∧ t.mem = s.mem ∧ Sent t r (natVal H) ∧ Raised s t c run.acc.n1 ∧
        let e := v.cmd.toNat % 256
        let old := fun k => if v.opt then 0 else (s.core c).hist.get k 0
        let head := old (4096 + e)
        head < 16 → (t.core c).hist.get (4096 + e) 0 = (head + 1) % 16 ∧
          ∀ k < 16, (t.core c).hist.get (16 * e + k) 0 = if k = head then H else old (16 * e + k)))

/-- In the matrix engine: PP.SET, SCL.SET, SCL.DERIVE and LBD.CFG write their registers; ACC.ARM arms an idle node with its
operands and scale, and meets NODE_BUSY otherwise; ACC.REL completes, makes an armed node's release due and begins its 96 cclk, and
meets NODE_IDLE otherwise; ACC.CLR clears and disarms; ACC.STAT tells the node's state and clears what it counted. That a release is
an act of its own behind the command's token, and stays due where a checkpoint is to save the node, is the model's reading (log 21)
(R256 to R260, R265, R266, R268, R269). -/
def Obligations.MatrixRegistersAndNodes : Prop :=
  ∀ (x : XF) (k : BitVec 4) (nd : BitVec 2) (ofmt wd so sa sb sc margin : BitVec 4) (ent : BitVec 8) (tgt : BitVec 3)
    (s : State) (c : Nat) (r : Released) (q : List Released) (w : MatRun), MatOn s c r q w →
    let runs := fun (t : State) => exec r.i s = .next t ∧ (t.core c).mat = none ∧ (t.core c).matQ = q ∧ t.mem = s.mem
    let N := s.node c nd.toNat
    let fault := fun (reason : Nat) => ∃ t, runs t ∧ Sent t r ⟨BitVec.ofNat 64 reason, true⟩ ∧
      t.node c nd.toNat = { N with nfault := min (N.nfault + 1) 0xFFFF, lastf := reason }
    let idle := fun (t : State) => t.node c nd.toNat = { nfault := N.nfault, lastf := N.lastf }
    (r.i = .ppSet x k → ∃ t, runs t ∧ (t.core c).pp.get k.toNat 0 = BitVec.ofNat 64 (opNat r 0) ∧ Sent t r (natVal 0)) ∧
    (r.i = .sclSet x k → ∃ t, runs t ∧ (t.core c).sc.get k.toNat 0 = (BitVec.ofNat 64 (opNat r 0)).toInt ∧ Sent t r (natVal 0)) ∧
    (r.i = .sclDerive x sc ent tgt margin → ∃ t, runs t ∧
      let e := deriveExp (s.core c) ent.toNat tgt.toNat margin.toNat
      (t.core c).sc.get sc.toNat 0 = e ∧ Sent t r ⟨BitVec.ofInt 64 e, false⟩) ∧
    (r.i = .lbdCfg x → ∃ t, runs t ∧ (t.core c).lbdCtl = BitVec.ofNat 64 (opNat r 0) ∧ (t.core c).lbdSaved = 0 ∧
      Sent t r (natVal (s.core c).lbdSaved)) ∧
    (r.i = .accArm x nd ofmt wd so sa sb → (N.armed = true → fault 1) ∧ (N.armed = false → ∃ t, runs t ∧
      let M := t.node c nd.toNat
      let a := opNat r 0
      let scale := fun (j : BitVec 4) => (s.core c).sc.get j.toNat 0
      M.armed = true ∧ M.base = a % 2 ^ 17 ∧ M.count = bits a 47 32 ∧ M.ofmt = ofmt.toNat ∧ M.wd = wd.toNat + 1 ∧
      M.mrow.toNat = opNat r 1 % 2 ^ 64 ∧ M.mcol.toNat = opNat r 2 % 2 ^ 64 ∧ M.f = scale so - scale sa - scale sb ∧
      M.fp = r.fp ∧ (∀ d, x.dest = some d → M.slot = d.toNat ∧ M.cv = true) ∧ (x.dest = none → M.cv = false) ∧ M.cells = N.cells)) ∧
    (r.i = .accRel x nd → (N.armed = false → fault 2) ∧ (N.armed = true → ∃ t, exec r.i s = .next t ∧ t.mem = s.mem ∧
      (t.core c).matQ = q ∧ t.node c nd.toNat = { N with due := true } ∧ Sent t r (natVal 0) ∧
      (t.core c).mat = if (s.core c).secs.any (fun y => y.saveTo.isSome && N.sec == some y.ser) then none
        else some { w with rel := some nd.toNat, started := true, waitW := none, till := some (coreCclk s c + 96) })) ∧
    (r.i = .accClr x nd → ∃ t, runs t ∧ idle t ∧ Sent t r (natVal 0) ∧ (N.armed = true → N.cv = true →
      Packet.token { fp := N.fp, slot := N.slot, v := ⟨5, true⟩, src := some c, eng := some .mat } ∈ t.net)) ∧
    (r.i = .accStat x nd → ∃ t, runs t ∧ t.node c nd.toNat = { N with nfault := 0, lastf := 0 } ∧
      Sent t r (natVal (N.lastf * 2 ^ 56 + N.nfault * 2 ^ 40 + min 16 q.length * 2 ^ 32 + N.count * 2 ^ 16
        + Num.wrap N.f 10 * 2 ^ 6 + N.ofmt * 4 + bnat (N.cells.any (·.2.err)) * 2 + bnat N.armed)))

/-- A matrix command starts with its fixed cycles, and one that a checkpoint stopped goes on so. MMP and MMP.E on an unarmed node meet
NODE_IDLE; a range that fails flags every cell and counts (RANGE); else they work slab by slab, waiting on an empty word: MMP adds to
each cell the dot product of its row of A and column of B at the sum of their group exponents, rounded by R51 (for a masked cell the
product of the planes processed); both flag a cell whose row or column has an element in error; the plane pairs are those that
the detector leaves. At the end come the token, the count, and the release that is due (an act of its own, log 21). A release writes each
cell that is not masked by R53, packed or aligned as planes by row (log 49), clears and disarms the node and sends its token. ACC.SAVE
writes the node's image; ACC.LOAD waits on an empty word, then meets NODE_BUSY or IMAGE, or loads every field and cell (the
defects' order, log 50). A node that was cleared meanwhile is no case of it (log 124) (R41, R46 to R53, R257, R262 to R268, R271). -/
def Obligations.MatrixProductsReleasesAndImages : Prop :=
  ∀ (x : XF) (pk : BitVec 4) (nd : BitVec 2) (ga gb clr : Bool) (ns : BitVec 10) (s : State) (c : Nat) (r : Released)
    (q : List Released) (w : MatRun), c < 3072 → Awake s → Safe s →
    let n := nd.toNat
    let N := s.node c n
    let now := coreCclk s c
    let begun := fun (u : MatRun) (pp : BitVec 64) =>
      some { u with started := true, pp, cycles := 14, skipped := 0, waitW := none, till := some (now + matFixed (s.core c) u.cmd.i) }
    let pair := fun (i : Instr) => match i with | .mmp _ k .. | .mmpE _ k .. => (s.core c).pp.get k.toNat 0 | _ => 0
    (MatHead s c r q → engOf r.i = some .mat → ∃ t, exec r.i s = .next t ∧ t.mem = s.mem ∧ t.net = s.net ∧ (t.core c).matQ = q ∧
      (t.core c).mat = begun { cmd := r } (pair r.i)) ∧
    (s.focus = .engine c .mat → (s.core c).mat = some w → w.till = none → w.started = true → engOf w.cmd.i = some .mat →
      ∃ t, exec w.cmd.i s = .next t ∧ t.mem = s.mem ∧ (t.core c).mat = begun w w.pp) ∧
    (let runs := fun (t : State) => exec r.i s = .next t ∧ (t.core c).matQ = q ∧ t.mem = s.mem
      let fault := fun (reason : Nat) => ∃ t, runs t ∧ (t.core c).mat = none ∧ Sent t r ⟨BitVec.ofNat 64 reason, true⟩ ∧
        t.node c n = { N with nfault := min (N.nfault + 1) 0xFFFF, lastf := reason }
      let waits := fun (key : Nat) => ∃ t, runs t ∧ (t.core c).mat = some { w with waitW := some key } ∧ t.node c n = N
      let after := fun (t : State) => (t.core c).mat =
        if (t.node c n).due && !(s.core c).secs.any (fun y => y.saveTo.isSome && (t.node c n).sec == some y.ser)
        then some { w with rel := some n, started := true, waitW := none, till := some (now + 96) } else none
      let counted := fun (M : Node) => if M.count = 0 then M else { M with count := M.count - 1, due := decide (M.count = 1) }
      let cell := fun (M : Node) (k : Nat) => M.cells.get k {}
      MatOn s c r q w →
      (∀ e ∈ [(Instr.mmp x pk nd ga gb ns, true), (.mmpE x pk nd ga gb ns, false)], r.i = e.1 →
        let A := slabA c w ga
        let B := slabB c w gb
        let k := w.slab
        let NS := ns.toNat + 1
        let off := fun (p : Machine.PSet) => 2 ^ 17 < p.base + NS * p.size ∨ bits (s.core c).frameBase.toNat 16 0 < p.base + NS * p.size
        let keys := A.needs k (List.range 2048) ++ B.needs k (List.range 2048)
        let bad := fun i j => (List.range 32).any fun l => (A.el s.mem k (32 * i + l)).isNone || (B.el s.mem k (32 * j + l)).isNone
        let val : El → ℤ := fun e => match e with | some y => elInt y | none => 0
        let dot : Nat → Nat → ℤ := fun i j => ((List.range 32).map fun l => val (A.el s.mem k (32 * i + l)) * val (B.el s.mem k (32 * j + l))).sum
        let on := fun b => e.2 && (s.core c).lbdCtl.getLsbD 0 && w.pp.getLsbD b
        let ctl := (s.core c).lbdCtl.toNat
        (k = 0 → N.armed = false → fault 2) ∧
        (k = 0 → N.armed = true → off A ∨ off B → ∃ t M, runs t ∧ after t ∧ Sent t r ⟨3, true⟩ ∧ t.node c n = counted M ∧
          M = { N with nfault := min (N.nfault + 1) 0xFFFF, lastf := 3, cells := M.cells } ∧
          ∀ j < 4096, cell M j = { cell N j with err := true }) ∧
        (k < NS → (k = 0 → N.armed = true ∧ ¬ off A ∧ ¬ off B) → (∀ key, firstEmpty s.mem keys = some key → waits key) ∧
          (firstEmpty s.mem keys = none → ∃ t ta tb, runs t ∧
            TrimsBy s.mem A k N.mrow (on 12) (bits ctl 8 4) ta ∧ TrimsBy s.mem B k N.mcol (on 13) (bits ctl 16 12) tb ∧
            let p := if e.2 then max 1 ((A.w - ta) * (B.w - tb)) else 1
            let skip := if e.2 then A.w * B.w - p else 0
            (t.core c).mat = some { w with slab := k + 1, cycles := w.cycles + p, skipped := w.skipped + skip, waitW := none, till := some (now + p) } ∧
            (t.core c).lbdSaved = ((s.core c).lbdSaved + skip) % 2 ^ 48 ∧
            let M := t.node c n
            M = { N with cells := M.cells } ∧
            ∃ (S : Nat → ℚ) (sat flush : Nat → Bool),
              Raised s t c (flagsOf ((List.range 4096).map fun j => (if sat j then flAccSat else 0) + if flush j then flAccFlush else 0)) ∧
              ∀ i < 64, ∀ j < 64, let a := 64 * i + j
                (cell M a).err = ((cell N a).err || bad i j) ∧
                (e.2 = false → (cell M a).m = (cell N a).m ∧ (cell M a).x = (cell N a).x ∧ sat a = false ∧ flush a = false) ∧
                (e.2 = true → Acc48 (S a) (cell M a) (sat a) (flush a) ∧ (N.mrow.getLsbD i = false → N.mcol.getLsbD j = false →
                  S a = accNum (cell N a) + (dot i j : ℚ) * (2 : ℚ) ^ (A.exp s.mem k (32 * i) + B.exp s.mem k (32 * j)))))) ∧
        (NS ≤ k → ∃ t, runs t ∧ after t ∧ t.node c n = counted N ∧ Sent t r (natVal (w.cycles + w.skipped * 2 ^ 32)))) ∧
      (r.i = .accSave x nd clr → opNat r 0 + 4104 ≤ 2 ^ 17 → ∃ t, exec r.i s = .next t ∧ (t.core c).mat = none ∧ (t.core c).matQ = q ∧
        (∀ j < 4104, getWord t.mem (wordKey c (opNat r 0 + j)) = ⟨BitVec.ofNat 64 (nthD (nodeImage N) j 0), true, false⟩) ∧
        (N.armed = true → ∀ j < 4096, nthD (nodeImage N) (8 + j) 0 =
          bnat (cell N j).err * 2 ^ 63 + Num.wrap (cell N j).x 10 * 2 ^ 48 + Num.wrap (cell N j).m 48) ∧
        t.node c n = (if clr then { nfault := N.nfault, lastf := N.lastf } else N) ∧ Sent t r (natVal 0)) ∧
      (r.i = .accLoad x nd →
        let W := fun j => getWord s.mem (wordKey c (opNat r 0 % 2 ^ 17 + j))
        let h := fun j => (W j).d.toNat
        let keys := (List.range 4104).map fun j => wordKey c (opNat r 0 % 2 ^ 17 + j)
        let armed := (W 0).d.getLsbD 0
        let due := (W 0).d.getLsbD 19
        let form := bits (h 0) 4 1
        let size := if form = 11 then 2 * (32 * (bits (h 0) 8 5 + 3) + 16) else 512 * esOf form
        let defect := (∃ j < 8, (W j).x = true) ∨ bits (h 0) 31 20 ≠ 0 ∨ bits (h 0) 63 48 ≠ 0 ∨ 2 ^ 17 ≤ h 1 ∨ 2 ^ 40 ≤ h 4 ∨ h 5 ≠ 0 ∨
          h 6 ≠ 0 ∨ h 7 ≠ 0 ∨ 12 ≤ form ∨ (due = true ∧ (armed = false ∨ bits (h 0) 47 32 ≠ 0)) ∨
          (armed = true ∧ (h 1 % (if form = 11 then 32 else 16) ≠ 0 ∨ 2 ^ 17 < h 1 + size ∨
            bits (s.core c).frameBase.toNat 16 0 < h 1 + size ∨ fpBad s (h 4 % 2 ^ 32) = true ∨ fpCore (h 4 % 2 ^ 32) ≠ c))
        (∀ key, firstEmpty s.mem keys = some key → waits key) ∧
        (firstEmpty s.mem keys = none → (N.armed = true → fault 1) ∧ (N.armed = false → (defect → fault 4) ∧
          (¬ defect → armed = false → ∃ t, runs t ∧ (t.core c).mat = none ∧ t.node c n = N ∧ Sent t r (natVal 0)) ∧
          (¬ defect → armed = true → ∃ t, runs t ∧ after t ∧ Sent t r (natVal 0) ∧
            let M := t.node c n
            M = { nfault := N.nfault, lastf := N.lastf, armed := true, base := h 1, ofmt := form, wd := bits (h 0) 8 5 + 1,
                  f := ((W 0).d.extractLsb' 9 10).toInt, mrow := (W 2).d, mcol := (W 3).d, count := bits (h 0) 47 32, fp := h 4 % 2 ^ 32,
                  slot := bits (h 4) 38 32, cv := (W 4).d.getLsbD 39, due, sec := r.sec, cells := M.cells } ∧
            ∃ sat flush : Nat → Bool,
              Raised s t c (flagsOf ((List.range 4096).map fun j => (if sat j then flAccSat else 0) + if flush j then flAccFlush else 0)) ∧
              ∀ j < 4096, let v := W (8 + j)
                (cell M j).err = (v.x || v.d.getLsbD 63 || decide (bits v.d.toNat 62 58 ≠ 0)) ∧
                Acc48 (((v.d.setWidth 48).toInt : ℚ) * (2 : ℚ) ^ (v.d.extractLsb' 48 10).toInt) (cell M j) (sat j) (flush j)))))) ∧
    ∀ m < 4, MatRel s c m q w → let N := s.node c m
      let out := fun k => N.mrow.getLsbD (k / 64) || N.mcol.getLsbD (k % 64)
      let cell := fun k => N.cells.get k {}
      let bad := (List.range 4096).countP fun k => !out k && (cell k).err
      let done := fun (t : State) (lim : Nat) => exec w.cmd.i s = .next t ∧ (t.core c).mat = none ∧ (t.core c).matQ = q ∧
        t.node c m = { nfault := N.nfault, lastf := N.lastf } ∧ (N.cv = true →
          Packet.token { fp := N.fp, slot := N.slot, v := natVal (bad + lim * 2 ^ 32), src := some c, eng := some .mat } ∈ t.net)
      N.armed = true → N.due = true →
      (N.ofmt < 11 → N.base + 512 * esOf N.ofmt ≤ 2 ^ 17 → ∃ (t : State) (o : Nat → Nat × Bool × Bool),
        let es := esOf N.ofmt
        let word := fun (s : State) k => getWord s.mem (wordKey c (N.base + k / (8 / es)))
        let field := fun (s : State) k => (word s k).d.toNat / 256 ^ (es * (k % (8 / es))) % 256 ^ es
        let here := fun k => (List.range (8 / es)).map (· + k / (8 / es) * (8 / es))
        let lim := (List.range 4096).countP fun k => !out k && (o k).2.2
        done t lim ∧ Raised s t c (if lim = 0 then 0 else if N.ofmt ≤ 6 then flIsat else flSat) ∧
        ∀ k < 4096, (out k = true → field t k = field s k) ∧
          (out k = false → ReleasedAs N.ofmt N.f (cell k) (o k) ∧ field t k = (o k).1 ∧ (word t k).f = true) ∧
          (word t k).x = ((decide (N.ofmt ≤ 6) && (here k).any fun j => !out j && (o j).2.1) || ((here k).any out && (word s k).x))) ∧
      (N.ofmt = 11 → N.base + 2 * (32 * (N.wd + 2) + 16) ≤ 2 ^ 17 → ∃ (t : State) (lim : Nat) (els : Nat → Nat → Option El) (sat : Nat → Nat → Bool),
        let p : Machine.PSet := ⟨c, N.base, N.wd, 1, true, 32⟩
        done t lim ∧ (lim = 0 ↔ ∀ h < 2, ∀ i < 64, sat h i = false) ∧ Raised s t c (if lim = 0 then 0 else flSat) ∧
        ∀ h < 2, Lanes s t p h (els h) ∧ ∀ i < 64,
          let js := (List.range 32).filter fun j => !out (64 * i + 32 * h + j)
          let v := fun j => let a := cell (64 * i + 32 * h + j); if a.err then none else some (accNum a * (2 : ℚ) ^ N.f)
          (∀ j < 32, j ∉ js → els h (32 * i + j) = none) ∧ (js = [] → sat h i = false) ∧
          (js ≠ [] → ∃ ms, AlignsTo N.wd (js.map v) (p.exp t.mem h (32 * i)) ms (sat h i) ∧
            ∀ k < js.length, ∃ e, els h (32 * i + nthD js k 0) = some e ∧ e.map elInt = nthD ms k none))

/-- In the integrator array: DDA.CLK sets a stopped domain's divider and clears STEPS; DDA.RUN starts the stopped domains of
its mask D cclk from now with their limit; DDA.STOP stops them; DDA.TAP OFF ends a tap; LDY and LDR load cells of stopped
domains; PATCH configures cells and links and empties their latches, or turns away words that R300 or R344 rejects; READ writes Y and
residue; SAVE writes an image, RESTORE loads one; STAT clears LASTR; a running domain gives BUSY, words with X DATA, an empty word is
waited on. The model's choices: a command acts at the start of a cclk, so that DDA.RUN's steps count from the next one (log 59), DDA.TAP
OFF completes with 0 (log 60) (R298 to R300, R307, R311 to R319, R344). -/
def Obligations.IntegratorCommandsTakeEffect : Prop :=
  ∀ (x : XF) (dom : BitVec 3) (mask first n1 : BitVec 8) (tap : BitVec 4) (rest : BitVec 26) (links : Bool)
    (s : State) (c : Nat) (r : Released) (q : List Released), DdaHead s c r q → c < 3072 → Awake s → Safe s →
    let a := (s.core c).dda
    let cells := (List.range (n1.toNat + 1)).map (· + first.toNat)
    let runs := fun (t : State) => DdaRan s t c r.i q
    let cond := fun (reason : Nat) => ∃ t, runs t ∧ (t.core c).dda = { a with queue := q, waitW := none } ∧ t.mem = s.mem ∧
      Sent t r (condVal reason)
    let reads := fun (n : Nat) (P : List TWord → Prop) =>
      let keys := (List.range n).map fun j => wordKey c (opNat r 0 + j)
      (∀ key, firstEmpty s.mem keys = some key → ∃ t, exec r.i s = .next t ∧ (t.core c).dda = { a with waitW := some key } ∧ t.mem = s.mem) ∧
      (firstEmpty s.mem keys = none → P (keys.map (getWord s.mem)))
    let stopped := ∀ k ∈ cells, (a.dom (cellDom (a.cell k).cfg)).run = false
    let wrote := fun (t : State) (ws : List Nat) => ∀ j < ws.length, getWord t.mem (wordKey c (opNat r 0 + j)) = ⟨BitVec.ofNat 64 (nthD ws j 0), true, false⟩
    (r.i = .ddaClk x dom → ((a.dom dom.toNat).run = true → cond 1) ∧ ((a.dom dom.toNat).run = false → ∃ t, runs t ∧
      ((t.core c).dda.dom dom.toNat).d = opNat r 0 % 2 ^ 16 + 1 ∧ ((t.core c).dda.dom dom.toNat).steps = 0 ∧ Sent t r (natVal 0))) ∧
    (r.i = .ddaRun x mask → ((∃ d < 8, mask.getLsbD d = true ∧ (a.dom d).run = true) → cond 1) ∧
      ((∀ d < 8, mask.getLsbD d = true → (a.dom d).run = false) → ∃ t, runs t ∧ ∀ d < 8, mask.getLsbD d = true →
        let y := (t.core c).dda.dom d
        y.run = true ∧ y.next = coreCclk s c + 1 + (a.dom d).d ∧ y.limit = opNat r 0 ∧ y.steps = (a.dom d).steps)) ∧
    (r.i = .ddaStop x mask → ∃ t, runs t ∧ (∀ d < 8, mask.getLsbD d = true → ((t.core c).dda.dom d).run = false) ∧ Sent t r (natVal 0)) ∧
    (∀ mode, r.i = .ddaTap x tap mode rest → ∃ t, runs t ∧ ((t.core c).dda.taps.get tap.toNat {}).mode = mode.toNat ∧
      (mode = 0 → Sent t r (natVal 0))) ∧
    (∀ e ∈ [(Instr.ddaLdy x first n1, false), (.ddaLdr x first n1, true)], r.i = e.1 → reads (n1.toNat + 1) fun ws =>
      (¬ stopped → cond 1) ∧ (stopped → ws.any (·.x) = true → cond 2) ∧
      (stopped → ws.any (·.x) = false → (e.2 = true → ∀ j < n1.toNat + 1,
          let w : Int := ((nthD ws j {}).d.setWidth 32).toInt
          let h : Int := 2 ^ (cellN (a.cell (first.toNat + j)).cfg - 1)
          w < h ∧ -h ≤ w) →
        ∃ t, runs t ∧ Sent t r (natVal 0) ∧ ∀ j < n1.toNat + 1,
          let y := (t.core c).dda.cell (first.toNat + j)
          (if e.2 then y.r else y.y) = ((nthD ws j {}).d.setWidth 32).toInt)) ∧
    (r.i = .ddaPatch x first n1 links → reads (n1.toNat + 1 + 16 * bnat links) fun ws =>
      let word := fun j => (nthD ws j {}).d
      let cfg := fun k => (a.cell k).cfg
      let after := fun k => if k ∈ cells then word (k - first.toNat) else cfg k
      let source := fun (w : BitVec 64) (f : Nat) => w.toNat / 2 ^ (11 * f) % 2 ^ 11
      let kind := fun y => y / 2 ^ 8 % 4
      let entry := fun (w : BitVec 64) e => w.toNat / 2 ^ (16 * (e % 4)) % 2 ^ 16
      let old := fun e => entry (nthD a.links (e / 4) 0) e
      let new := fun e => if links then entry (word (n1.toNat + 1 + e / 4)) e else old e
      let drives := fun (y : Nat) => if y / 2 ^ 15 = 1 then some (y % 2 ^ 8) else none
      let here := fun (k d : Nat) => cellDom (cfg k) = d ∨ cellDom (after k) = d
      let mapped := fun pos => (s.core (c / 4 * 4 + pos)).mapped = true
      let busy := ∃ d, (a.dom d).run = true ∧ ((∃ k ∈ cells, here k d) ∨
        ∃ e < 64, drives (old e) ≠ drives (new e) ∧ ∃ k, (drives (old e) = some k ∨ drives (new e) = some k) ∧ here k d)
      let feeds := fun k ch => ∃ f < 5, kind (source (after k) f) = 3 ∧ source (after k) f % 2 ^ 8 = 8 + ch
      let bad := ws.any (·.x) = true ∨
        (∃ k ∈ cells, (after k).toNat / 2 ^ 55 % 2 ^ 5 < 7 ∨ ∃ f < 5, let y := source (after k) f
          (kind y = 0 ∧ y ≠ 0) ∨ (kind y = 2 ∧ (y / 2 ^ 4 % 4 ≠ 0 ∨ y / 2 ^ 6 % 4 = c % 4 ∨ ¬ mapped (y / 2 ^ 6 % 4))) ∨
          (kind y = 3 ∧ y % 2 ^ 8 ≠ 0 ∧ ¬ (8 ≤ y % 2 ^ 8 ∧ y % 2 ^ 8 < 16))) ∨
        (links = true ∧ ∃ e < 64, new e / 2 ^ 8 % 2 ^ 7 ≠ 0 ∨ (e / 16 = c % 4 ∧ new e ≠ 0) ∨ (new e / 2 ^ 15 = 1 ∧ ¬ mapped (e / 16))) ∨
        ∃ ch < 8, ∃ k < 256, ∃ k' < 256, (after k).getLsbD 63 = true ∧ (after k').getLsbD 63 = true ∧ cellDom (after k) ≠ cellDom (after k') ∧
          feeds k ch ∧ feeds k' ch
      (busy → cond 1) ∧ (¬ busy → bad → cond 2) ∧
      (¬ busy → ¬ bad → first.toNat + n1.toNat < 256 → ∃ t, runs t ∧ Sent t r (natVal 0) ∧ (t.core c).dda.doms = a.doms ∧
        (∀ k, let y := (t.core c).dda.cell k
          y.cfg = after k ∧ (k ∈ cells → y.y = 0 ∧ y.r = 0 ∧ y.dz = 0) ∧ (k ∉ cells → y.y = (a.cell k).y ∧ y.r = (a.cell k).r ∧ y.dz = (a.cell k).dz)) ∧
        (links = true → (t.core c).dda.links = (List.range 16).map fun j => word (n1.toNat + 1 + j)) ∧ (links = false → (t.core c).dda.links = a.links) ∧
        ∀ k < 256, ∀ f < 5, latchOf ((t.core c).dda.cell k) f =
          if k ∈ cells ∨ (kind (source (cfg k) f) = 1 ∧ source (cfg k) f % 2 ^ 8 ∈ cells) then 0 else latchOf (a.cell k) f)) ∧
    (r.i = .ddaRead x first n1 → opNat r 0 + (n1.toNat + 1) ≤ 2 ^ 17 → ∃ t, runs t ∧ Sent t r (natVal 0) ∧
      wrote t (cells.map fun k => cellValue (a.cell k))) ∧
    (r.i = .ddaSave x dom → opNat r 0 + 328 ≤ 2 ^ 17 → ((a.dom dom.toNat).run = true → cond 1) ∧
      ((a.dom dom.toNat).run = false → ∃ t, runs t ∧ Sent t r (natVal 0) ∧ wrote t (domImage a dom.toNat))) ∧
    (r.i = .ddaRestore x dom → reads 328 fun ws => ((a.dom dom.toNat).run = true → cond 1) ∧
      ((a.dom dom.toNat).run = false → (domImageBad s c dom.toNat ws = true → cond 3) ∧ (domImageBad s c dom.toNat ws = false →
        ∃ t, runs t ∧ Sent t r (natVal 0) ∧ let y := (t.core c).dda.dom dom.toNat
          y.d = bits (nthD ws 0 {}).d.toNat 23 8 + 1 ∧ y.steps = (nthD ws 1 {}).d.toNat ∧ y.run = (nthD ws 0 {}).d.getLsbD 3))) ∧
    (r.i = .ddaStat x dom → ∃ t, runs t ∧ let y := a.dom dom.toNat
      (t.core c).dda.dom dom.toNat = { y with lastr := 0 } ∧
      Sent t r (natVal (y.lastr * 2 ^ 56 + y.lastcell * 2 ^ 48 + bnat y.run * 2 ^ 47 + bnat y.fwait * 2 ^ 46 + y.steps)))

/-- A copy stream begins the command at the head of its queue: it awaits an empty descriptor word; the words full, a descriptor with a
defect ends it with DESC, a plane side past the scratchpad or the frame area with RANGE, each with its token, and any other is kept as the
command's copy. A control command acts on its stream when it is released, unless one stands before it there or it waits for writes of
its core or for its image; then in its turn. CANCEL sends CANCELLED with the count, ALL also for the commands released before it; SAVE
writes the 20 words of the image; RESUME restarts a paused command, or loads an image; STAT tells reason, depth, state and count. The
model's choices: the image's order of tests and its command word (log 51), the control commands' turns (log 55) (R274 to R276, R278,
R280, R281, R289 to R293). -/
def Obligations.CopyStreamsRunTheirCommand : Prop :=
  ∀ (k : BitVec 2) (s : State) (c : Nat) (r : Released), c < 3072 → Awake s → Safe s → r.core = c →
    let x := s.stream c k.toNat
    -- what a descriptor of words W may not hold; what the plane side of a command may not reach
    let count := fun (W : Nat → Nat) (d : Nat) => if d < W 0 % 8 then W (1 + 2 * d) / 2 ^ 48 + 1 else 1
    let below := fun (W : Nat → Nat) (d : Nat) => (List.range d).foldl (fun p j => p * count W j) 1
    let kt := fun (W : Nat → Nat) => W 0 / 2 ^ 8 % 2 ^ 15 + 1
    let lay := fun (i : Instr) => match i with | .cpyConv _ _ _ _ _ _ _ _ _ _ _ lay => lay.toNat | _ => 0
    let desc := fun (W : Nat → Nat) (i : Instr) => W 0 / 8 % 32 ≠ 0 ∨ W 0 / 2 ^ 23 ≠ 0 ∨ W 11 ≠ 0 ∨ W 0 % 8 = 0 ∨ 5 < W 0 % 8 ∨
      (∃ d < 5, (W 0 % 8 ≤ d ∧ (W (1 + 2 * d) ≠ 0 ∨ W (2 + 2 * d) ≠ 0)) ∨ W (2 + 2 * d) / 2 ^ 48 ≠ 0 ∨
        ((∀ x b1 b2 k sp sd e, i ≠ .cpyStream x b1 b2 k sp sd e) ∧ W (2 + 2 * d) ≠ 0)) ∨
      2 ^ 32 ≤ below W 5 ∨ (lay i = 0 ∧ kt W ≠ 1) ∨ (lay i ≠ 0 ∧ kt W % 32 ≠ 0)
    let past := fun (y : Released) (sets : Nat) => 2 ^ 17 < opNat y 1 % 2 ^ 17 + sets * (cpySet y).size ∨
      (s.core c).frameBase.toNat % 2 ^ 17 < opNat y 1 % 2 ^ 17 + sets * (cpySet y).size
    let range := fun (W : Nat → Nat) (y : Released) => match y.i with
      | .cpyPlanes .. => past y (below W 5)
      | .cpyConv _ _ _ _ _ _ fm _ _ _ _ lay => let n := below W 5 * unitElems fm.toNat
          if lay = 0 then 4194303 < n ∨ past y (cdiv n 1024) else 64 * kt W < n ∨ past y (kt W / 32)
      | _ => False
    -- the start of a work command
    (∀ q, CpyHead s c k.toNat r q → r.sec = none → engOf r.i = some (.cpy k.toNat) →
      let words := (List.range 12).map fun j => wordKey c (opNat r 2 % 2 ^ 17 + j)
      let W := fun j => (getWord s.mem (nthD words j 0)).d.toNat
      let ends := fun (reason : Nat) => ∃ t, exec r.i s = .next t ∧ t.mem = s.mem ∧ Sent t r (condVal reason) ∧
        t.stream c k.toNat = { queue := q, cur := none, lastr := reason }
      (∀ key, firstEmpty s.mem words = some key → ∃ t, exec r.i s = .next t ∧ t.mem = s.mem ∧
        t.stream c k.toNat = { x with queue := q, cur := some { cmd := r, waitW := some key } }) ∧
      (firstEmpty s.mem words = none →
        let bad := (∃ key ∈ words, keyX s.mem key = true) ∨ desc W r.i
        (bad → ends 0x41) ∧ (¬ bad → range W r → ends 0x42) ∧
        (¬ bad → ¬ range W r → ∃ t, exec r.i s = .next t ∧ t.mem = s.mem ∧
          t.stream c k.toNat = { x with queue := q, cur := some { cmd := r, started := true, nest := words.map fun key => (getWord s.mem key).d } }))) ∧
    -- what a control command does, the queue being Q without it
    let acts := fun (t : State) (Q : List Released) =>
      (∀ n, n ≠ k.toNat → t.stream c n = s.stream c n) ∧
      ∀ (clr all : Bool) (xf : XF), let mine := fun (y : Released) => (controlStream y.i).isNone && decide (y.num < r.num)
        let same := t.mem = s.mem ∧ (t.core c).tbuf = (s.core c).tbuf
        let image := fun j => getWord s.mem (wordKey c (opNat r 0 % 2 ^ 17 + j))
        (r.i = .cpyCancel xf all k → let gone := fun (b : TBuf) => match b.e with | .cmd (.cpy n) y => all && n == k.toNat && mine y | _ => false
          t.mem = s.mem ∧ (t.core c).tbuf = ((s.core c).tbuf.filter fun b => !gone b) ∧ Sent t r (natVal 0) ∧
          (t.stream c k.toNat).cur = none ∧ (t.stream c k.toNat).queue = (if all then Q.filter fun y => !mine y else Q) ∧
          (∀ p, x.cur = some p → Sent t p.cmd ⟨BitVec.ofNat 64 (0x43 * 2 ^ 56 + p.done % 2 ^ 32), true⟩ ∧ (t.stream c k.toNat).lastr = 0x43) ∧
          (all = true → ∀ y, (y ∈ Q ∧ mine y = true ∨ ∃ b ∈ (s.core c).tbuf, gone b = true ∧ b.e = .cmd (.cpy k.toNat) y) →
            Sent t y (condVal 0x43) ∧ (t.stream c k.toNat).lastr = 0x43) ∧
          (all = false → x.cur = none → t.stream c k.toNat = { x with queue := Q })) ∧
        (r.i = .cpyStat xf k → same ∧ t.stream c k.toNat = { x with queue := Q, lastr := 0 } ∧
          Sent t r (natVal (x.lastr * 2 ^ 56 + min 8 (Q.countP mine) * 2 ^ 44 +
            match x.cur with | some p => (if p.paused then 2 else 1) * 2 ^ 40 + p.done % 2 ^ 32 | none => 0))) ∧
        (r.i = .cpyResume xf false k → same ∧
          (∀ p, x.cur = some p → p.paused = true → Sent t r (natVal 0) ∧ t.stream c k.toNat = { x with queue := Q, cur := some { p with paused := false } }) ∧
          ((∀ p, x.cur = some p → p.paused = false) → Sent t r (natVal 1) ∧ t.stream c k.toNat = { x with queue := Q })) ∧
        (r.i = .cpySave xf clr k → opNat r 0 + 20 ≤ 2 ^ 17 → Sent t r (natVal 0) ∧ (t.core c).tbuf = (s.core c).tbuf ∧
          t.stream c k.toNat = { x with queue := Q, cur := if clr then none else x.cur } ∧
          (∀ a, (∀ j < 20, outside (wordKey c (opNat r 0 + j)) 8 a) → memGet t.mem a = memGet s.mem a) ∧
          let holds := fun j (v : BitVec 64) => getWord t.mem (wordKey c (opNat r 0 + j)) = ⟨v, true, false⟩
          (x.cur = none → ∀ j < 20, holds j 0) ∧
          ∀ p, x.cur = some p → p.started = true →
            let u := match p.cmd.i with | .cpyConv _ _ _ _ _ _ fm _ _ _ _ _ => p.step * 32 / unitElems fm.toNat | _ => p.step
            let W := fun j => (nthD p.nest j 0).toNat
            let i := fun d => u / below W d % count W d
            (∀ w, p.w0 = some w → holds 0 (BitVec.ofNat 64 (w + nthD (encodeNat p.cmd.i) 1 0 * 2 ^ 32))) ∧
            (p.w0 = none → holds 0 (BitVec.ofNat 64 (nthD (encodeNat p.cmd.i) 0 0 + nthD (encodeNat p.cmd.i) 1 0 * 2 ^ 32))) ∧
            (∀ j < 3, holds (1 + j) (BitVec.ofNat 64 (opNat p.cmd j))) ∧
            (∀ slot, p.cmd.i.shape.slots.head? = some slot → holds 4 (BitVec.ofNat 64 (p.cmd.fp % 2 ^ 32 + slot.toNat * 2 ^ 32 + 2 ^ 40 +
              if p.paused then 2 ^ 41 + p.reason * 2 ^ 56 else 0))) ∧
            holds 5 (BitVec.ofNat 64 (i 0 + i 1 * 2 ^ 16 + i 2 * 2 ^ 32 + i 3 * 2 ^ 48)) ∧ holds 6 (BitVec.ofNat 64 (i 4)) ∧
            holds 7 (BitVec.ofNat 64 (p.done % 2 ^ 32 + min p.errs 0xFFFFFF * 2 ^ 32)) ∧ (p.nest.length = 12 → ∀ j < 12, holds (8 + j) (nthD p.nest j 0))) ∧
        (r.i = .cpyResume xf true k → same ∧
          let stays := fun (v : Val) (reason : Nat) => Sent t r v ∧ t.stream c k.toNat = { x with queue := Q, lastr := reason }
          (x.cur ≠ none → stays (condVal 0x44) 0x44) ∧
          (x.cur = none → (∃ j < 20, (image j).x = true) → stays (condVal 0x41) 0x41) ∧
          (x.cur = none → (∀ j < 20, (image j).x = false) →
            let I := fun j => (image j).d.toNat
            let W := fun j => I (8 + j)
            let i := fun d => if d = 4 then I 6 % 2 ^ 16 else I 5 / 2 ^ (16 * d) % 2 ^ 16
            let fp := I 4 % 2 ^ 32
            let run := imageInstr (I 0) (I 4 / 2 ^ 32 % 2 ^ 7) k.toNat
            let cmd := fun (j : Instr) => ({ i := j, core := c, fp, ops := [natVal (I 1), natVal (I 2), natVal (I 3)], cls := r.cls, sec := r.sec } : Released)
            let elems := fun (j : Instr) => match j with | .cpyConv _ _ _ _ _ _ fm _ _ _ _ _ => unitElems fm.toNat | _ => 1
            let bad := run = none ∨ ∃ j, run = some j ∧ (I 4 / 2 ^ 39 % 2 ≠ 0 ∨ I 4 / 2 ^ 42 % 2 ^ 14 ≠ 0 ∨ I 6 / 2 ^ 16 ≠ 0 ∨ I 7 / 2 ^ 56 ≠ 0 ∨
              ¬ goodFp s (natVal fp) ∨ fp / 2 ^ 27 * 128 + fp / 2 ^ 20 % 128 ≠ c ∨ desc W j ∨ range W (cmd j) ∨ (∃ d < 5, count W d ≤ i d) ∨
              below W 5 * elems j < I 7 % 2 ^ 32 ∨ I 7 % 2 ^ 32 < I 7 / 2 ^ 32 % 2 ^ 24)
            (I 4 / 2 ^ 40 % 2 = 0 → stays (natVal 0) x.lastr) ∧
            (I 4 / 2 ^ 40 % 2 = 1 → bad → stays (condVal 0x41) 0x41) ∧
            (I 4 / 2 ^ 40 % 2 = 1 → ¬ bad → Sent t r (natVal 0) ∧ ∀ j, run = some j → ∃ p, t.stream c k.toNat = { x with queue := Q, cur := some p } ∧
              p.cmd = cmd j ∧ p.started = true ∧ p.paused = decide (I 4 / 2 ^ 41 % 2 = 1) ∧ p.done = I 7 % 2 ^ 32 ∧ p.errs = I 7 / 2 ^ 32 % 2 ^ 24 ∧
              p.nest = (List.range 12).map (fun n => (image (8 + n)).d) ∧ p.ahead = [] ∧ p.waitW = none ∧
              let u := natSum ((List.range 5).map fun d => i d * below W d)
              p.step = match j with | .cpyConv .. => cdiv (u * elems j) 32 | _ => u)))
    let late := (pendingOf s c).any (·.op.writes)
    let waits := (∃ xf clr, r.i = .cpySave xf clr k ∧ late = true) ∨
      ∃ xf, r.i = .cpyResume xf true k ∧ x.cur = none ∧ (late = true ∨ imageEmpty s c r ≠ none)
    controlStream r.i = some k.toNat →
      (r.sec = none → (x.queue.all fun y => (controlStream y.i).isNone) = true → ¬ waits → acts (cpyControl s c r) x.queue) ∧
      (r.sec = none → ((x.queue.any fun y => (controlStream y.i).isSome) = true ∨ waits) →
        cpyControl s c r = setStream s c k.toNat { x with queue := x.queue ++ [r] }) ∧
      ∀ pre post, s.focus = .engine c (.cpy k.toNat) → x.queue = pre ++ r :: post → (pre.all fun y => (controlStream y.i).isNone) = true →
        ¬ waits → ∃ t, exec r.i s = .next t ∧ acts t (pre ++ post)

/-- A step of a started work command whose bytes are reached. The address of unit u is wrap(base + Σ i_d × stride_d). CPY.STREAM reads
2^ESZ bytes, or has read them ahead, and writes them; one in error makes zeros with X or poison. CPY.PLANES copies planes LOW on, sign,
error plane and exponents of an image into its set, or a set out as an image; a spoiled element becomes canonical. CPY.CONV converts a
group of 32 positions into planes, or the units that end in it out of planes. An empty word that the step reads on F is awaited, an
address in error pauses the stream with its token; the last step sends the counts and frees the stream; no other byte changes. The
model's choices: logs 45, 52 to 54, 56, 57 (an address translated ahead is taken as it stood), 101, 102 (R279, R281 to R288). -/
def Obligations.CopyStepsMoveTheirUnits : Prop :=
  (∀ (nest : List (BitVec 64)) (base : Nat) (dst : Bool) (i : Nat → Nat), nestNd nest ≤ 5 → (∀ d < 5, i d < nestCount nest d) →
    let below := fun d => (List.range d).foldl (fun p k => p * nestCount nest k) 1
    nestU nest = below 5 ∧
    (nestAddr nest base (natSum ((List.range 5).map fun d => i d * below d)) dst : ℤ) =
      (base + ((List.range 5).map fun d => (i d : ℤ) * ((nthD nest (1 + 2 * d + bnat dst) 0).setWidth 48).toInt).sum) % 2 ^ 64) ∧
  ∀ (b1 b2 dir mat g eadj sat : Bool) (kk : BitVec 2) (sp sd : Space) (e : BitVec 3) (ws wd lo : BitVec 4) (co lay : BitVec 2) (fm : BitVec 5)
    (x : XF) (s : State) (c : Nat) (r : Released) (q : List Released) (run : CpyRun), c < 3072 → Awake s → Safe s → CpyOn s c kk.toNat r q run →
    r.i.wf = true → let k := kk.toNat
    (∃ t, exec r.i s = .next t) ∧
    let addr := fun o u => nestAddr run.nest (opNat r o) u (o == 1)
    let pow2 := fun (n : Nat) => ∃ j, n = 2 ^ j
    -- the step is over: counts, and the token after the last of U steps
    let goes := fun (t : State) (U n errs : Nat) (xt : Bool) =>
      (t.stream c k).queue = q ∧ if run.step + 1 < U then ∃ l, l.length ≤ 64 ∧ (t.stream c k).cur = some { run with
          step := run.step + 1, done := run.done + n, errs := run.errs + errs, xtok := run.xtok || xt, waitW := none, held := false, ahead := l }
        else (t.stream c k).cur = none ∧ Sent t r ⟨BitVec.ofNat 64 ((run.done + n) % 2 ^ 32 + match r.i with
          | .cpyPlanes .. => 0 | _ => min (run.errs + errs) 0xFFFFFF * 2 ^ 32), run.xtok || xt⟩
    let waits := ∃ t key, exec r.i s = .next t ∧ keyF s.mem key = false ∧ t.mem = s.mem ∧
      (t.stream c k).cur = some { run with waitW := some key } ∧ (t.stream c k).queue = q
    let pauses := fun (reason : Nat) (dst : Bool) (va : Nat) => ∃ t, exec r.i s = .next t ∧ t.mem = s.mem ∧ (t.stream c k).queue = q ∧
      (t.stream c k).lastr = reason ∧ (t.stream c k).cur = some { run with paused := true, reason, waitW := none, waitWalk := none, held := false, ahead := [] } ∧
      Sent t r ⟨BitVec.ofNat 64 (reason * 2 ^ 56 + k * 2 ^ 54 + bnat dst * 2 ^ 53 + va % 2 ^ 48), true⟩
    -- whether words at places are read on F and all full
    let full := fun (sync : Bool) (f : Nat → Loc) (on : Nat → Prop) => sync = true → ∀ j, on j → (f j).space ≠ .global → keyF s.mem (f j).key = true
    -- memory outside written places and their tags, and the tags of words not written
    let only := fun (t : State) (written : Nat → Prop) => ∀ a < 2 ^ 51,
      (¬ written a → memGet t.mem a = memGet s.mem a) ∧
      ((∀ b, b / 8 = a / 8 → ¬ written b) → keyF t.mem a = keyF s.mem a ∧ keyX t.mem a = keyX s.mem a) ∧
      ((∀ b, b / 64 = a / 64 → ¬ written b) → poisoned t.mem a = poisoned s.mem a)
    let tagF := fun (t : State) (l : Loc) => l.space ≠ .global → keyF t.mem l.key = (b2 || keyF s.mem l.key)
    let p := cpySet r
    let inSet := fun (b : Nat) => p.base + (b + 1) * p.size ≤ 2 ^ 17
    -- CPY.STREAM
    (r.i = .cpyStream x b1 b2 kk sp sd e → run.step < nestU run.nest → ((sp = .global ∨ sd = .global) → Warm s c) →
      let n := 2 ^ e.toNat
      let a := addr 0 run.step
      let b := addr 1 run.step
      let side := fun (va : Nat) (space : Space) (w : Bool) =>
        let place := fun j => blockAt space va j % 2 ^ 64
        let chk := fun j => checkAddr s (copyAsk c space w) (place j)
        (∀ j < n, ∀ rs, chk j = .trap 0x22 rs → (∀ i < j, ∀ rs', chk i ≠ .trap 0x22 rs') → pauses rs w (place j)) ∧
        ((∀ j < n, ∀ rs, chk j ≠ .trap 0x22 rs) →
          (va % n ≠ 0 → pauses 0x38 w va) ∧
          (va % n = 0 → ∀ j < n, (∀ i < j, ∃ l t, chk i = .ok l t) →
            (∀ cause rs, chk j = .trap cause rs → pauses rs w (place j)) ∧
            (chk j = .miss → ∃ t, exec r.i s = .next t ∧ t.mem = s.mem ∧
              (t.stream c k).cur = some { run with waitWalk := some (place j, w) } ∧ (t.stream c k).queue = q)))
      let moves := fun (src : Nat → EByte) (h : Nat → Loc) =>
        let bad := (List.range n).any fun j => (src j).2
        ∃ t, exec r.i s = .next t ∧ goes t (nestU run.nest) 1 (bnat bad) false ∧ only t (fun a => ∃ j < n, a = (h j).key) ∧
          ∀ j < n, memGet t.mem (h j).key = BitVec.ofNat 8 (if bad then 0 else (src j).1) ∧ tagF t (h j) ∧
            if (h j).space = .global then poisoned t.mem (h j).key = (bad || (decide (n < 64) && poisoned s.mem (h j).key))
            else keyX t.mem (h j).key = (bad || (decide (n < 8) && keyX s.mem (h j).key))
      (run.ahead = [] → side a sp false ∧
        ∀ f, (Reach s c sp false a n f → a % n = 0 → side b sd true ∧
          ∀ h, (Reach s c sd true b n h → b % n = 0 →
            (full b1 f (· < n) → moves (fun j => byteAt s (f j)) h) ∧ (¬ full b1 f (· < n) → waits)))) ∧
      ∀ u l h, run.ahead = u :: l → l.length ≤ 64 → u.1.length = n → place s c sd b 0 n true true n b = .ok u.2 → Reach s c sd true b n h → b % n = 0 →
        moves (fun j => nthD u.1 j (0, false)) h) ∧
    -- CPY.PLANES: the image's part that holds part j of the set, its exponents
    (r.i = .cpyPlanes x b1 b2 kk sp dir mat ws wd lo co g eadj → run.step < nestU run.nest → inSet run.step →
      let P := if mat then 256 else 128
      let W := if co = 2 then 32 else ws.toNat + 1
      let from_ := fun part => if part < p.w then part + lo.toNat else part - p.w + W
      let expAt := fun gr => (W + bnat (co == 1) + 1) * P + gr
      let len := (W + bnat (co == 1) + 1) * P + (if g then P / 4 else 0)
      let used := fun o => o < len ∧ (o < W * P → lo.toNat * P ≤ o ∧ o < (lo.toNat + p.w) * P)
      let a := addr 0 run.step
      let u := run.step
      let lanes := 8 * P
      let size := len - (if g then P / 4 else 0) + (if g then 128 else 0)
      ((pow2 size → a % size = 0) → ∀ f, (if dir then Reach s c sp true a len f else Reach s c sp false (a + lo.toNat * P) (p.w * P) (fun j => f (lo.toNat * P + j)) ∧
          Reach s c sp false (a + W * P) (len - W * P) fun j => f (W * P + j)) →
        (dir = false →
          (¬ full b1 f used → waits) ∧
          (full b1 f used → ∃ t, exec r.i s = .next t ∧ goes t (nestU run.nest) 1 0 false ∧
            let src := fun o => byteAt s (f o)
            let bit := fun part l => (src (from_ part * P + l / 8)).1 / 2 ^ (l % 8) % 2 = 1
            let spoil := fun l => (∃ part < p.parts, (src (from_ part * P + l / 8)).2 = true) ∨ (g = true ∧ (src (expAt (l / 32))).2 = true)
            let exp := fun gr => if (src (expAt gr)).2 then 0 else Num.asS (src (expAt gr)).1 8 + if eadj then lo.toNat else 0
            (∀ l < lanes, ∀ part < p.parts, (p.bitAt t.mem u part l = true ↔
              if spoil l ∨ bit (p.parts - 1) l then part + 1 = p.parts else bit part l)) ∧
            (g = true → ∀ gr < lanes / 32, p.exp t.mem u (32 * gr) = min 127 (exp gr)) ∧
            Raised s t c (if g = true ∧ ∃ gr < lanes / 32, 127 < exp gr then flSat else 0) ∧
            (∀ part < p.parts + bnat g, ∀ j < (if part < p.parts then p.unit else p.unit / 4), keyF t.mem (p.key u part j) = true ∧ keyX t.mem (p.key u part j) = false) ∧
            only t fun a => ∃ part < p.parts + bnat g, ∃ j < (if part < p.parts then p.unit else p.unit / 4), ∃ b < 8, a = p.key u part j + b)) ∧
        (dir = true → let words := (List.range p.parts).flatMap (fun part => (List.range p.unit).map fun j => p.key u part j) ++
              if g then (List.range (p.unit / 4)).map fun j => p.key u p.parts j else []
          ((∃ key ∈ words, keyF s.mem key = false) → waits) ∧
          ((∀ key ∈ words, keyF s.mem key = true) → ∃ t, exec r.i s = .next t ∧ goes t (nestU run.nest) 1 0 false ∧
            let canon := fun l => p.spoilt s.mem u l || p.bitAt s.mem u (p.parts - 1) l
            (∀ part < p.parts, ∀ l < lanes, ((memGet t.mem (f (part * P + l / 8)).key).getLsbD (l % 8) = true ↔
              if canon l then part + 1 = p.parts else p.bitAt s.mem u part l)) ∧
            (g = true → ∀ gr < lanes / 32, memGet t.mem (f (expAt gr)).key =
              if keyX s.mem (p.key u p.parts (gr / 8)) then 0 else BitVec.ofInt 8 (p.exp s.mem u (32 * gr))) ∧
            (∀ o < len, tagF t (f o) ∧ ((f o).space = .global → let word := (a + o) / 64 * 64
              poisoned t.mem (f o).key = (poisoned s.mem (f o).key && !decide (a ≤ word ∧ word + 64 ≤ a + len))) ∧ ((f o).space ≠ .global →
              let word := (a + o) % 2 ^ 64 / 8
              let covered := ∀ b < 8, ∃ v ≤ u, addr 0 v ≤ 8 * word + b ∧ 8 * word + b < addr 0 v + len
              keyX t.mem (f o).key = true ↔ keyX s.mem (f o).key = true ∧ ¬ covered)) ∧
            only t fun a => ∃ o < len, a = (f o).key)))) ∧
    -- CPY.CONV: a group of 32 positions, from e0 below e1
    (r.i = .cpyConv x b1 b2 kk sp dir fm wd co g sat lay →
      let F := fm.toNat
      let m := unitElems F
      let n := nestU run.nest * m
      let e0 := 32 * run.step
      let e1 := min n (e0 + 32)
      let kt := nestKt run.nest
      let pos := fun (i : Nat) => if lay = 0 then (i / 1024, i % 1024) else (i % kt / 32, 32 * (i / kt) + i % kt % 32)
      e0 < n → (lay ≠ 0 → kt % 32 = 0 ∧ n ≤ 64 * kt) → (∀ i < e1, inSet (pos i).1) →
      let units := if dir then List.range' (e0 / m) (e1 / m - e0 / m) else List.range' (e0 / m) ((e1 - 1) / m + 1 - e0 / m)
      ∀ f : Nat → Nat → Loc, (∀ u ∈ units, (pow2 (unitBytes F) → addr 0 u % unitBytes F = 0) ∧ Reach s c sp dir (addr 0 u) (unitBytes F) (f u)) →
        (dir = false →
          let src := fun u => (List.range (unitBytes F)).map fun j => byteAt s (f u j)
          let num := fun i => if memLost F (src (i / m)) (i % m) then none else memNum F (src (i / m)) (i % m)
          let neg := fun i => match floats F with
            | some B => decide (2 ^ (B.ew + B.mw) ≤ memCode F (src (i / m)) (i % m))
            | none => match num i with | some y => decide (y < 0) | none => false
          let fits := fun (y : ℚ) => if co = 0 then -2 ^ (p.w - 1) ≤ y ∧ y < 2 ^ (p.w - 1) else |y| < 2 ^ p.w
          ((∃ u ∈ units, ¬ full b1 (f u) (· < unitBytes F)) → waits) ∧
          ((∀ u ∈ units, full b1 (f u) (· < unitBytes F)) → ∃ (t : State) (els : Nat → El) (fl : Nat), exec r.i s = .next t ∧
            goes t (cdiv n 32) (e1 - e0) ((List.range (e1 - e0)).countP fun j => (els j).isNone) false ∧
            Lanes s t p (pos e0).1 (fun l => if (pos e0).2 ≤ l ∧ l < (pos e0).2 + (e1 - e0) then some (els (l - (pos e0).2)) else none) ∧
            (∃ bad, (bad = true ↔ ∃ i, e0 ≤ i ∧ i < e1 ∧ memBad F (src (i / m)) (i % m)) ∧ Raised s t c (orFlags fl (if bad then flPcode else 0))) ∧
            (∀ j < e1 - e0, (num (e0 + j) = none → els j = none) ∧ ∀ el, els j = some el → co = 1 → el.1 = neg (e0 + j)) ∧
            let ex := p.exp t.mem (pos e0).1 (pos e0).2
            if F = 0x10 then fl = 0 ∧ ∀ j < e1 - e0, num (e0 + j) ≠ none → els j = some (false, memCode F (src ((e0 + j) / m)) ((e0 + j) % m))
            else if F = 0x0D then fl = 0 ∧ ex = (let z := nthD (src run.step) 16 (0, false); if z.2 || z.1 == 255 then 0 else (z.1 : ℤ) - 128) ∧
              ∀ j < e1 - e0, ∀ y, num (e0 + j) = some y → ∃ el, els j = some el ∧ (elInt el : ℚ) * (2 : ℚ) ^ ex = y
            else if (floats F).isSome then ∃ ms st, fl = satBit st ∧
              AlignsTo p.w ((List.range (e1 - e0)).map fun j => num (e0 + j)) ex ms st ∧ ∀ j < e1 - e0, (els j).map elInt = nthD ms j none
            else (g = true → ex = 0) ∧ (∃ cvt, (cvt = true ↔ ∃ j < e1 - e0, ∃ y, num (e0 + j) = some y ∧ ¬ fits y) ∧ fl = if cvt then flCvt else 0) ∧
              ∀ j < e1 - e0, ∀ y, num (e0 + j) = some y → (fits y → ∃ el, els j = some el ∧ (elInt el : ℚ) = y) ∧ (¬ fits y → els j = none))) ∧
        (dir = true →
          let words := fun i => (List.range p.parts).map (fun part => p.key (pos i).1 part ((pos i).2 / 64)) ++
            if g then [p.key (pos i).1 p.parts ((pos i).2 / 256)] else []
          let els := fun i => p.el s.mem (pos i).1 (pos i).2
          let bad := fun i => match els i with | some el => decide (co = 2) && (Num.f32.read el.2).isNone | none => false
          let val := fun i => (els i).bind fun el => if co = 2 then (if bad i then none else some (decide (2 ^ 31 ≤ el.2), fmtNum Num.f32 el.2))
            else some (el.1, (elInt el : ℚ) * (2 : ℚ) ^ p.exp s.mem (pos i).1 (pos i).2)
          let of := fun u => (List.range m).map fun j => u * m + j
          ((∃ u ∈ units, ∃ i ∈ of u, ∃ key ∈ words i, keyF s.mem key = false) → waits) ∧
          ((∀ u ∈ units, ∀ i ∈ of u, ∀ key ∈ words i, keyF s.mem key = true) → ∃ (t : State) (out : Nat → List Nat × Nat × Nat), exec r.i s = .next t ∧
            (∀ u ∈ units, UnitOf F sat ((of u).map val) (out u)) ∧
            let wrong := fun u => (decide (F < 7) || F == 9) && decide (0 < (out u).2.1)
            goes t (cdiv n 32) (e1 - e0) (natSum (units.map fun u => (out u).2.1)) (units.any fun u => wrong u && (f u 0).space == .global) ∧
            (∀ u ∈ units, ∀ j < unitBytes F, (∀ u' ∈ units, u < u' → ∀ j' < unitBytes F, (f u' j').key ≠ (f u j).key) →
              memGet t.mem (f u j).key = BitVec.ofNat 8 (nthD (out u).1 j 0)) ∧
            (∀ u ∈ units, ∀ j < unitBytes F, tagF t (f u j) ∧ ((f u j).space = .global → poisoned t.mem (f u j).key = poisoned s.mem (f u j).key) ∧ ((f u j).space ≠ .global → let key := (f u j).key
              if isMx F then keyX t.mem key = (keyX s.mem key && !((List.range 8).all fun b => (List.range 33).any fun j' => decide (j' < unitBytes F) && (f u j').key == key / 8 * 8 + b))
              else keyX t.mem key = (keyX s.mem key || units.any fun u' => wrong u' && (List.range (unitBytes F)).any fun j' => (f u' j').key / 8 == key / 8))) ∧
            (∃ pc, (pc = true ↔ ∃ u ∈ units, ∃ i ∈ of u, bad i = true) ∧ Raised s t c (orFlags (flagsOf (units.map fun u => (out u).2.2)) (if pc then flPcode else 0))) ∧
            only t fun a => ∃ u ∈ units, ∃ j < unitBytes F, a = (f u j).key)))

/-- At their home the block commands: ALLOC on a good key appends a free block, zeroed where asked, named by its virtual address, to
its list; MAP answers the address and the count of an element; SHARE gives the child the parent's first blocks of each layer and completes
with their number; FREE removes elements and completes with theirs; STAT tells the free blocks and slots. The first condition of Table 17.4
that holds does nothing and completes with its reason. The model's choices: the order of the conditions (log 62), DAMAGED behind all
others and SHARE of fewer blocks than asked (log 65), the block and the slot taken (log 63), SLOTS of a full window (log 112) (R367 to
R380). -/
def Obligations.BlockStoreCommands : Prop :=
  ∀ (x : XF) (zero all own : Bool) (nl1 : BitVec 8) (die : BitVec 5) (s : State) (r : Released), s.focus = .home r → Safe s →
    let key := opNat r 0
    let K := (s.die (seqDie key)).kvb
    let list := fun (K : Kvb) l => kvList K (keySeq key) l
    let L := list K (keyLayer key)
    let blk := key / 2 ^ 28 % 2 ^ 16
    let layer := key / 2 ^ 20 % 2 ^ 8
    let closed := (s.seqOf (keySeq key)).st = 3
    let off := K.ctl.getLsbD 0 = false
    let damaged := fun q => K.damaged.contains q = true
    -- the first condition that holds is answered; with none of them, `go`
    let tests := fun (l : List (Prop × Nat)) (go : Prop) =>
      (∀ k < l.length, (∀ j < k, ¬ (nthD l j (True, 0)).1) → (nthD l k (True, 0)).1 → AtHome s s r (condVal (nthD l k (True, 0)).2)) ∧
      ((∀ e ∈ l, ¬ e.1) → go)
    (r.i = .kvbAlloc x zero → (tests [(closed, 0x01), (blk ≠ 0, 0x06), (off, 0x10), (kvFree K ≤ bits K.ctl.toNat 31 16, 0x11),
        (kvFreeSlots K = 0, 0x12), (65536 ≤ L.length, 0x16), (damaged (keySeq key), 0x17)] <|
      kvFreeBlock s K ≠ none → (∀ s', kvFreeSlot s' K ≠ none) → ∃ t slot b, AtHome s t r (natVal (L.length * 2 ^ 48 + kvVa K slot)) ∧
        K.slots.all (fun e => e.1 != slot) = true ∧ K.refs.all (fun e => e.1 != b) = true ∧
        let K' := (t.die (seqDie key)).kvb
        list K' layer = L ++ [slot] ∧ kvBlockOf K' slot = some b ∧ K'.refs.get b 0 = 1 ∧
        (zero = true → ∀ a, kvBlockPa (s.die (seqDie key)) (seqDie key) b ≤ a → a < kvBlockPa (s.die (seqDie key)) (seqDie key) b + 65536 →
          (a < kvPtePa K slot ∨ kvPtePa K slot + 8 ≤ a) → memGet t.mem a = 0))) ∧
    (r.i = .kvbMap x → (tests [(closed, 0x01), (off, 0x10), (L.length ≤ blk, 0x13), (damaged (keySeq key), 0x17)] <|
      ∀ slot b, nthD L blk 0 = slot → kvBlockOf K slot = some b → AtHome s s r (natVal (K.refs.get b 0 * 2 ^ 48 + kvVa K slot)))) ∧
    (r.i = .kvbShare x nl1 → let child := opNat r 1
      let layers := (List.range (nl1.toNat + 1)).map (· + layer)
      let gives := fun l => ((if blk = 0 then list K l else (list K l).take blk).filterMap (kvBlockOf K))
      let blocks := layers.flatMap gives
      let far := seqDie child ≠ seqDie key
      (tests [(closed ∨ (¬ far ∧ (s.seqOf child).st = 3), 0x01), (off, 0x10), (kvFreeSlots K < blocks.length, 0x12),
        (∃ l ∈ layers, kvList K child l ≠ [], 0x14), (far, 0x15), (256 < layer + nl1.toNat + 1 ∨ ∃ b ∈ blocks, 65535 < K.refs.get b 0 + blocks.count b, 0x16),
        (damaged (keySeq key) ∨ damaged child, 0x17)] <|
      (K.slots.map (·.1)).Nodup → ∃ t, AtHome s t r (natVal blocks.length) ∧ let K' := (t.die (seqDie key)).kvb
        (∀ l ∈ layers, (kvList K' child l).map (kvBlockOf K') = (gives l).map some) ∧ (∀ b, K'.refs.get b 0 = K.refs.get b 0 + blocks.count b))) ∧
    (r.i = .kvbFree x all → (tests [(closed, 0x01), (all = true ∧ (blk ≠ 0 ∨ layer ≠ 0), 0x06), (off, 0x10), (all = false ∧ L.length ≤ blk, 0x13),
        (damaged (keySeq key), 0x17)] <|
      (all = false → ∃ t, AtHome s t r (natVal (L.length - blk)) ∧ let K' := (t.die (seqDie key)).kvb
        list K' layer = L.take blk ∧ ∀ slot ∈ L.drop blk, kvBlockOf K' slot = none) ∧
      (all = true → ∃ t, AtHome s t r (natVal (natSum ((K.lists.filter (·.1.1 == keySeq key)).map (·.2.length)))) ∧
        ∀ l, list (t.die (seqDie key)).kvb l = []))) ∧
    (r.i = .kvbStat x die own → let K := (s.die (if own then coreDie r.core else die.toNat)).kvb
      (K.ctl.getLsbD 0 = false → AtHome s s r (condVal 0x10)) ∧
      (K.ctl.getLsbD 0 = true → AtHome s s r (natVal (min (K.held.filter (·.who.isAccess)).length 0xFFFF * 2 ^ 44 + slotsField K * 2 ^ 22 + kvFree K))))

/-- At their home the sequence and watch commands: OPEN takes the lowest free entry; EMIT confirms its symbol, CONFIRM the first B drafts
and with CORR a symbol behind them, position by position up to the first exclusive winner, which is applied; DRAFT adds a draft with its
provisional result; REJECT removes those behind B; RESUME opens, CLOSE closes; WCH.SET writes a pattern, BUDGET a budget, CLR clears; STAT
tells the entry and clears NOTIFY. The first condition of Table 17.4 that holds does nothing and completes with its reason. The model's
choices: the order of the conditions (log 62), FORK and a budget's INJECT (log 64), DAMAGED behind all others (log 65) (R369, R381 to
R395). -/
def Obligations.SequenceAndWatchCommands : Prop :=
  ∀ (x : XF) (die : BitVec 5) (own corr notify : Bool) (pat len1 act : BitVec 3) (injlen : BitVec 4) (bud : BitVec 2) (pmask : BitVec 8)
    (bmask : BitVec 4) (s : State) (r : Released), s.focus = .home r →
    let id := opNat r 0
    let Q := s.seqOf id
    let b := opn r.ops 1
    let c := opn r.ops 2
    let damaged := (s.die (seqDie id)).kvb.damaged.contains id = true
    let noSym := fun (v : Val) => v.x = true ∨ 0xFFFFF ≤ v.nat
    let becomes := fun (v : Val) (P : Seq → Prop) => ∃ t, AtHome s t r v ∧ P (t.seqOf id)
    let tests := fun (l : List (Prop × Nat)) (go : Prop) =>
      (∀ k < l.length, (∀ j < k, ¬ (nthD l j (True, 0)).1) → (nthD l k (True, 0)).1 → AtHome s s r (condVal (nthD l k (True, 0)).2)) ∧
      ((∀ e ∈ l, ¬ e.1) → go)
    let gate : List (Prop × Nat) := [(Q.st = 3, 0x01), (Q.st = 2, 0x02), (Q.st = 1, 0x03)]
    let long := ((2 ^ 32 - 25 ≤ Q.p, 0x0A) : Prop × Nat)
    let hurt := ((damaged, 0x17) : Prop × Nat)
    let told := fun (t : State) (target k v : Nat) => Packet.token
      { fp := target % 2 ^ 32, slot := target / 2 ^ 32 % 2 ^ 7 + k, v := natVal v, src := some r.core, die := cmdDie r } ∈ t.net
    -- the operation ends at an entry, NMASK nm, the rest of its summary: NOTIFY is raised and told, the entry stored; a trap tells its record
    let ends := fun (E : Seq) (nm rest : Nat) (by_ : Nat × Nat) => Q.st = 0 → ∃ t, AtHome s t r (natVal (E.st * 2 ^ 30 + E.drafts.length * 2 ^ 20 + nm * 2 ^ 7 + rest)) ∧
      SameSeq (t.seqOf id) { E with notify := Q.notify ||| nm } ∧
      (nm ≠ 0 → Q.nott.testBit 39 = true → told t Q.nott 0 (nm + id * 2 ^ 12 + (E.p + 2 ^ 32 - 1) % 2 ^ 32 * 2 ^ 32)) ∧
      (E.st = 2 → Q.trapt.testBit 39 = true → ∀ k < 8, told t Q.trapt k (nthD [1, id, E.p - 1, by_.1, by_.2, nm, s.tick, r.fp] k 0))
    -- the last position of an operation, confirmed symbol y, whose winner is source w
    let applied := fun (E : Seq) (w y nm rest : Nat) (left : List (Nat × Nat × Nat × Nat)) =>
      (srcAct E w = 4 → ends { E with drafts := [], st := 1 } nm (rest + w * 2 ^ 3 + 4) (w, y)) ∧
      (srcAct E w = 5 → ends { E with drafts := [], st := 2 } nm (rest + w * 2 ^ 3 + 5) (w, y)) ∧
      (srcAct E w = 2 → Q.st = 0 → ∃ v, becomes v fun Q' => SameSeq Q' { E with drafts := left, notify := Q.notify ||| nm }) ∧
      (srcAct E w = 3 → Q.st = 0 → ∃ v, becomes v fun Q' => let inj := if w < 8 then (E.pats.get w {}).inj else []
        Q'.p = E.p + inj.length ∧ Q'.drafts = [] ∧ Q'.hist = (inj.foldl (fun h y => (h ++ [y]).drop (h.length + 1 - 7)) E.hist))
    (r.i = .seqOpen x die own → let d := if own then coreDie r.core else die.toNat
      (∀ k < 4096, ((s.die d).seqs.get k {}).st = 3 → (∀ j < k, ((s.die d).seqs.get j {}).st ≠ 3) → d < 256 →
        ∃ t, AtHome s t r (natVal (d * 2 ^ 12 + k)) ∧ t.seqOf (d * 2 ^ 12 + k) = { st := 0, trapt := opNat r 0, nott := opNat r 1 }) ∧
      ((∀ k < 4096, ((s.die d).seqs.get k {}).st ≠ 3) → AtHome s s r (condVal 0x08))) ∧
    (r.i = .seqEmit x → (tests (gate ++ [(Q.drafts ≠ [], 0x04), (noSym b, 0x07), long, hurt]) <|
      ∀ E h, Confirmed Q b.nat E h → (Winner E h none → ends E (notified E h) (2 ^ 25) (0, 0)) ∧
        ∀ w, Winner E h (some w) → applied E w b.nat (notified E h) (2 ^ 25) [])) ∧
    (r.i = .seqDraft x → (tests (gate ++ [(16 ≤ Q.drafts.length, 0x05), (noSym b, 0x07), long, hurt]) <|
      ∀ h w, (∀ k < 8, (h k = true ↔ Hits Q (Q.hist ++ Q.drafts.map (·.1) ++ [b.nat]) k)) → (∀ k, 8 ≤ k → h k = false) → Winner Q h w →
        let src := w.getD 0
        let act := match w with | some w => srcAct Q w | none => 0
        becomes (natVal (Q.st * 2 ^ 30 + (Q.drafts.length + 1) * 2 ^ 20 + notified Q h * 2 ^ 7 + src * 2 ^ 3 + act)) fun Q' =>
          Q' = { Q with drafts := Q.drafts ++ [(b.nat, act, src, notified Q h)] })) ∧
    (r.i = .seqConfirm x corr → (tests (gate ++ [(b.x = true ∨ b.nat = 0 ∨ Q.drafts.length < b.nat, 0x06), (corr = true ∧ noSym c, 0x07), long, hurt]) <|
      ∀ (f : Nat → Seq) (h : Nat → Nat → Bool) (m : Nat), m ≤ b.nat → f 0 = Q →
        (∀ j < m, Confirmed { f j with drafts := Q.drafts.drop (j + 1) } (nthD Q.drafts j (0, 0, 0, 0)).1 (f (j + 1)) (h j)) →
        let nm := fun n => (List.range n).foldl (fun a j => a ||| notified (f (j + 1)) (h j)) 0
        (m = b.nat → (∀ j < m, Winner (f (j + 1)) (h j) none) →
          (corr = false → ends (f m) (nm m) (m * 2 ^ 25) (0, 0)) ∧
          (corr = true → ∀ E hc, Confirmed { f m with drafts := [] } c.nat E hc →
            (Winner E hc none → ends E (nm m ||| notified E hc) (2 ^ 40 + (m + 1) * 2 ^ 25) (0, 0)) ∧
            ∀ w, Winner E hc (some w) → applied E w c.nat (nm m ||| notified E hc) (2 ^ 40 + (m + 1) * 2 ^ 25) [])) ∧
        ∀ n w, m = n + 1 → (∀ j < n, Winner (f (j + 1)) (h j) none) → Winner (f m) (h n) (some w) →
          applied (f m) w (nthD Q.drafts n (0, 0, 0, 0)).1 (nm m) (m * 2 ^ 25) (if corr then [] else Q.drafts.drop m))) ∧
    (r.i = .seqReject x → (tests (gate ++ [(b.x = true ∨ 16 < b.nat, 0x06), hurt]) <|
      becomes (natVal (Q.drafts.length - b.nat)) fun Q' => Q' = { Q with drafts := Q.drafts.take b.nat })) ∧
    (r.i = .seqResume x → (tests [(Q.st = 3, 0x01), hurt] <| (Q.st ≠ 0 → becomes (natVal 0) fun Q' => Q' = { Q with st := 0 }) ∧ (Q.st = 0 → AtHome s s r (natVal 1)))) ∧
    (r.i = .seqClose x → id < 2 ^ 20 → (tests [(Q.st = 3, 0x01), hurt] <| let ls := (s.die (seqDie id)).kvb.lists
      ∃ t, AtHome s t r (natVal (natSum ((ls.filter (·.1.1 == id)).map (·.2.length)))) ∧ t.seqOf id = {} ∧ ∀ l, kvList (t.die (seqDie id)).kvb id l = [])) ∧
    (r.i = .wchSet x pat len1 act injlen → r.words.length = 8 → let w := fun i => nthD r.words i {}
      (tests [(Q.st = 3, 0x01), (∃ i < 8, (w i).x = true ∨ 2 ^ 40 ≤ (w i).d.toNat ∨ (len1.toNat < i ∧ (w i).d.toNat % 2 ^ 20 ≠ 0) ∨
          (injlen.toNat ≤ i ∧ (w i).d.toNat / 2 ^ 20 % 2 ^ 20 ≠ 0), 0x09), hurt] <|
        becomes (natVal 0) fun Q' => Q' = { Q with pats := Q'.pats } ∧ (∀ k, k ≠ pat.toNat → Q'.pats.get k {} = Q.pats.get k {}) ∧
          Q'.pats.get pat.toNat {} = { len := len1.toNat + 1, act := act.toNat, sym := (r.words.take (len1.toNat + 1)).map fun w => w.d.toNat % 2 ^ 20
                                       inj := (r.words.take injlen.toNat).map fun w => w.d.toNat / 2 ^ 20 % 2 ^ 20 })) ∧
    (r.i = .wchBudget x bud act → (tests [(Q.st = 3, 0x01), (b.x = true ∨ 2 ^ 32 ≤ b.nat, 0x06), (c.x = true ∨ 0xFFFFF < c.nat, 0x07), hurt] <|
      becomes (natVal 0) fun Q' => Q' = { Q with buds := Q'.buds } ∧ (∀ k, k ≠ bud.toNat → Q'.buds.get k {} = Q.buds.get k {}) ∧
        Q'.buds.get bud.toNat {} = { act := act.toNat, sym := c.nat, limit := b.nat, count := 0, armed := b.nat != 0 && act != 0 })) ∧
    (r.i = .wchClr x pmask bmask notify → (tests [(Q.st = 3, 0x01), hurt] <| becomes (natVal 0) fun Q' =>
      (∀ k < 8, Q'.pats.get k {} = if pmask.getLsbD k then { Q.pats.get k {} with act := 0 } else Q.pats.get k {}) ∧
      (∀ k < 4, Q'.buds.get k {} = if bmask.getLsbD k then { Q.buds.get k {} with count := 0, armed := false } else Q.buds.get k {}) ∧
      Q' = { Q with pats := Q'.pats, buds := Q'.buds, notify := if notify then 0 else Q.notify })) ∧
    (r.i = .wchStat x → (Q.st = 3 → AtHome s s r (natVal (3 * 2 ^ 37))) ∧ (Q.st ≠ 3 → (tests [hurt] <|
      becomes (natVal (natSum ((List.range 8).map fun k => if (Q.pats.get k {}).act = 0 then 0 else 2 ^ (55 + k)) +
        natSum ((List.range 4).map fun k => if (Q.buds.get k {}).armed then 2 ^ (51 + k) else 0) +
        Q.notify * 2 ^ 39 + Q.st * 2 ^ 37 + Q.drafts.length * 2 ^ 32 + Q.p % 2 ^ 32)) fun Q' => Q' = { Q with notify := 0 })))

/-- POD.PUT, POD.GET, POD.AMO, the collectives and COL.STAT whose operands are good are held to commit step 4; X traps OPND_X, a
partition without a port PROT 0x21. At their home PUT, GET and AMO to a package that is no peer complete NO_PEER; a collective whose
descriptor is bad completes DESC; COL.STAT tells and clears LASTR; GANG.SYNC of an image without a gang answers its error token.
The model's choices: a package is a home of its own, and needs no peer for it (log 81); a collective's ranges are checked as it runs, at
the command their first bytes (log 83); COL.STAT is checked for a port like the others (log 85) (R461, R464 to R478). -/
def Obligations.PodCommands : Prop :=
  ∀ (x : XF) (ord full retry : Bool) (sp : Space) (op : BitVec 4) (w32 nat : Bool) (ty rop : BitVec 2) (p : Pred) (a b d : Val)
    (s : State) (c k n : Nat) (f : Firing),
    let port := coreOwns s c = true
    (∀ e ∈ [(Instr.podPut x ord sp, false), (.podGet x ord full sp, true)], ∀ i get, e = (i, get) → Executes s c k n f i [a, b, d] →
      (a.x = false → b.x = false → d.x = false → bits a.nat 53 48 = 0 → d.nat % 8 = 0 → 8 ≤ d.nat → d.nat ≤ 2 ^ 24 → a.nat % 8 = 0 → b.nat % 8 = 0 →
        podRange s c sp b.nat d.nat get 1 = none → (port → Holds s c k n f i [item i c f n [a, b, d]]) ∧
          (¬ port → Traps s c k n i 0x0C a.nat (0x21 * 2 ^ 8))) ∧
      (a.x = true → Traps s c k n i 0x05 a.nat (word5 0 0 (!get) .loc)) ∧
      (a.x = false → b.x = true → Traps s c k n i 0x05 b.nat (word5 1 0 get .loc)) ∧
      (a.x = false → b.x = false → d.x = true → Traps s c k n i 0x05 d.nat (word5 2 0 false .loc)) ∧
      (a.x = false → b.x = false → d.x = false →
        (bits a.nat 53 48 ≠ 0 → Traps s c k n i 0x28 a.nat 1) ∧
        (bits a.nat 53 48 = 0 → d.nat % 8 ≠ 0 ∨ d.nat < 8 ∨ 2 ^ 24 < d.nat → Traps s c k n i 0x28 d.nat (2 * 2 ^ 8 + 2)))) ∧
    (∀ vs, vs.head? = some a → Executes s c k n f (.podAmo x ord retry op w32 nat) vs → let i := Instr.podAmo x ord retry op w32 nat
      (a.x = false → (retry = true ∨ bits a.nat 53 48 = 0 ∧ a.nat % (if w32 then 4 else 8) = 0) → port →
        Holds s c k n f i [item i c f n vs]) ∧
      (a.x = true → Traps s c k n i 0x05 a.nat (word5 0 0 true .loc)) ∧
      (a.x = false → retry = false → bits a.nat 53 48 ≠ 0 → Traps s c k n i 0x28 a.nat 1) ∧
      (a.x = false → retry = false → bits a.nat 53 48 = 0 → a.nat % (if w32 then 4 else 8) ≠ 0 → Traps s c k n i 0x28 a.nat 2) ∧
      (a.x = false → (retry = true ∨ bits a.nat 53 48 = 0 ∧ a.nat % (if w32 then 4 else 8) = 0) → ¬ port →
        Traps s c k n i 0x0C a.nat (0x21 * 2 ^ 8))) ∧
    (∀ i ∈ [Instr.colAllred x ty rop, .colRedscat x ty rop, .colAllgath x ty, .colBcast x ty], Executes s c k n f i [a, b, d] →
      (a.x = false → b.x = false → d.x = false → (∀ len write, podRange s c .global a.nat len write 0 = none) →
        (∀ len write, podRange s c .global b.nat len write 1 = none) → (port → Holds s c k n f i [item i c f n [a, b, d]]) ∧
          (¬ port → Traps s c k n i 0x0C a.nat (0x21 * 2 ^ 8))) ∧
      (a.x = true → Traps s c k n i 0x05 a.nat (word5 0 0 false .loc)) ∧
      (a.x = false → b.x = true → Traps s c k n i 0x05 b.nat (word5 1 0 true .loc)) ∧
      (a.x = false → b.x = false → d.x = true → Traps s c k n i 0x05 d.nat (word5 2 0 false .loc))) ∧
    (Executes s c k n f (.colStat x) [] → (port → Holds s c k n f (.colStat x) [item (.colStat x) c f n []]) ∧
      (¬ port → Traps s c k n (.colStat x) 0x0C 0 (0x21 * 2 ^ 8))) ∧
    ∀ r, s.focus = .home r →
      (∀ i ∈ [Instr.podPut x ord sp, .podGet x ord full sp, .podAmo x ord false op w32 nat], r.i = i →
        (∃ t, exec i s = .next t) ∧ (bits (opNat r 0) 63 54 ≠ pkgNo s → hasPeer s (corePart s r.core) (bits (opNat r 0) 63 54) = false →
          exec i s = .next (sendDone s r (podErr 0x31 0)))) ∧
      (∀ i ∈ [Instr.colAllred x ty rop, .colRedscat x ty rop, .colAllgath x ty, .colBcast x ty], r.i = i → ∃ t, exec i s = .next t ∧
        ∀ e, colOf i = some e → colDesc s r.core (opNat r 2) e.1 = none →
          t.pkg.pod.lastr = 0x39 ∧ t.pkg.pod.done = (s.pkg.pod.done + 1) % 2 ^ 32 ∧ Sent t r (podErr 0x39 0)) ∧
      (r.i = .colStat x → ∃ t, exec r.i s = .next t ∧ t.pkg.pod.lastr = 0 ∧ Sent t r (natVal (colStatVal s))) ∧
      (r.i = .gangSync p → (s.core r.core).gang = false →
        exec r.i s = .next (s.send (.token { fp := r.fp, slot := opNat r 0, v := ⟨1, true⟩, src := some r.core })))

/-! ## Machine events -/

/-- Every machine event whose condition holds answers a next state. Firings, scheduler, memory routers: a start takes the record of highest class, then smallest arrival tick; a completed
firing awaits its commit or traps NO_EXIT; a commit sends its take or goes on with step 3, behind a FENCE when it is clear;
sections are restored and end; records age; the head pending trap activates the lowest free trap frame with the record in slots
0 to 7; timers, frame requests, held groups, resumed engines and counter wraps take effect (R111, R116, R117, R123, R149, R179,
R186, R199, R201, R210, R219, R350, R411, R414, R447). -/
def Obligations.FiringAndSchedulerEvents : Prop :=
  ∀ (s : State) (c k : Nat), c < 3072 →
    (∀ e, Enabled s e → ∃ t, exec (eventInstr e) (onEvent s e) = .next t) ∧
    (∀ r, canStart s c k = some r → r ∈ (s.core c).tq ∧ (∀ q ∈ (s.core c).tq, r.cls < q.cls ∨ (r.cls = q.cls ∧ r.tick ≤ q.tick)) ∧
      let s := onEvent s (.firingStart c k)
      exec .firingStart s = .next (startFiring (s.modCore c fun co => { co with tq := co.tq.filter (·.fp != r.fp) }) c k r.fp r.tick)) ∧
    (∀ f, firingAt s c k = some f →
      (exhausted f = true →
        (f.exit = none → exec .firingCompletion (onEvent s (.firingCompletion c k)) =
          .next (takeTrap (onEvent s (.firingCompletion c k)) c k { cause := 0x09, pos := 0x400 })) ∧
        (f.exit ≠ none → ∃ t, exec .firingCompletion (onEvent s (.firingCompletion c k)) = .next t ∧
          firingAt t c k = some { f with phase := .completed (s.core c).comps } ∧ (t.core c).comps = (s.core c).comps + 1 ∧ t.mem = s.mem)) ∧
      (commitTurn s c k = true → let s := onEvent s (.commit c k)
        (∀ n, contTooBig s c f = some n → exec .commit s = .next (takeTrap s c k { cause := 0x02, pos := n, w5 := 0x0B })) ∧
        (contTooBig s c f = none →
          (f.take = none → exec .commit s = .next (commitFrom3 s c k f (memOuts f))) ∧
          (∀ loc v, f.take = some (loc, v) → ∃ t, exec .commit s = .next t ∧ firingAt t c k = some { f with phase := .taking } ∧
            t.net = s.net ++ [.take { core := c, fp := f.fp, ser := f.ser, loc, v }]))) ∧
      (∀ sc rest, f.phase = .fencing sc rest → fenceClear s c f.ser sc = true →
        exec .fenceComplete (onEvent s (.fenceComplete c k)) = .next (commitFrom3 (onEvent s (.fenceComplete c k)) c k f rest))) ∧
    (∀ sec x, (s.core c).ckpts.find? (·.sec.ser == sec) = some x →
      exec .sectionRestore (onEvent s (.sectionRestore c sec)) = .next (secRestore (onEvent s (.sectionRestore c sec)) c x)) ∧
    (∀ sec x, (s.core c).secs.find? (fun x => x.ser == sec && x.held) = some x → secOver (s.core c) sec = true → commitBusy (s.core c) = false →
      exec .sectionEnd (onEvent s (.sectionEnd c sec)) = .next (sectionDone (onEvent s (.sectionEnd c sec)) c x)) ∧
    (∃ t, exec .recordAging (onEvent s (.recordAging c)) = .next t ∧ (t.core c).tq = (s.core c).tq.map fun r =>
      if r.cls ≥ 2 ∧ coreCclk s c ≥ r.entered + 65536 then { r with cls := r.cls - 1, entered := r.entered + 65536 } else r) ∧
    (∀ p l j, Safe s → (s.core c).pend = p :: l → j < 4 → (s.core c).tframes.contains j = false → (∀ i < j, (s.core c).tframes.contains i = true) →
      let fp := mkFp c (bits (s.core c).frameBase.toNat 16 0 + 32 * j)
      ∃ u, exec .handlerActivation (onEvent s (.handlerActivation c)) = .next (checkReady u fp) ∧ (u.core c).pend = l ∧
        (u.core c).tframes = (s.core c).tframes ++ [j] ∧ frameTask u fp = (s.core c).trapv.toNat % 2 ^ 16 ∧
        ∀ n < 8, slotWord u fp n = ⟨nthD p.words n 0, true, false⟩) ∧
    (∀ t, fireTimer (onEvent s (.waittickTimerFire c)) c = some t → exec .waittickTimerFire (onEvent s (.waittickTimerFire c)) = .next t) ∧
    (∀ r, let s := onEvent s (.frameAllocation r)
      (allocChoose s r = none → exec .frameAllocation s = .next (s.send (.result (coreDie r.near) r.core r.ser r.idx ⟨1, true⟩ none))) ∧
      (∀ m h, allocChoose s r = some m → freeAt s m (4 + r.nslot) = some h → ∃ t, exec .frameAllocation s = .next t ∧
        (t.core m).reserved = (s.core m).reserved ++ [(h, 4 + r.nslot)] ∧
        t.net = s.net ++ [.result (coreDie m) r.core r.ser r.idx (natVal (mkFp m h)) (some (mkFp m h, r.task))])) ∧
    (∀ d, ∃ t, exec .routerHoldExpiry (onEvent s (.routerHoldExpiry d)) = .next t ∧ t.mem = s.mem ∧
      (t.die d).holds = (s.die d).holds.filter (fun h => !decide (h.since + 8 ≤ (s.die d).cclk)) ∧
      t.net = ((s.die d).holds.filter fun h => decide (h.since + 8 ≤ (s.die d).cclk)).map (fun h => .group d h.group) ++ s.net) ∧
    (∀ d g, exec .combinedGroupAtHome (onEvent s (.combinedGroupAtHome d g)) = .next (groupHome (onEvent s (.combinedGroupAtHome d g)) g)) ∧
    (∀ w key, (s.core c).vec = some w → w.waitW = some key → keyF s.mem key = true →
      ∃ t, exec .engineSyncReadResume (onEvent s (.engineSyncReadResume c .vec)) = .next t ∧ (t.core c).vec = some { w with waitW := none }) ∧
    (∀ w key, (s.core c).mat = some w → w.waitW = some key → keyF s.mem key = true →
      ∃ t, exec .engineSyncReadResume (onEvent s (.engineSyncReadResume c .mat)) = .next t ∧ (t.core c).mat = some { w with waitW := none }) ∧
    (∀ n w key, (s.stream c n).cur = some w → w.waitW = some key → keyF s.mem key = true →
      ∃ t, exec .engineSyncReadResume (onEvent s (.engineSyncReadResume c (.cpy n))) = .next t ∧ (t.stream c n).cur = some { w with waitW := none }) ∧
    (∀ key, (s.core c).dda.waitW = some key → keyF s.mem key = true →
      ∃ t, exec .engineSyncReadResume (onEvent s (.engineSyncReadResume c .dda)) = .next t ∧ (t.core c).dda = { (s.core c).dda with waitW := none }) ∧
    (k < 4 → ∃ t, exec .eventCounterWrap (onEvent s (.eventCounterWrap c k)) = .next t ∧ (t.core c).evsel.getLsbD (60 + k) = true ∧
      ((s.core c).evsel.getLsbD (56 + k) = false → t.mem = s.mem))

/-- Die events: the oldest walk ends; WALK_RETRY lets every held ring access of the die go on; refresh and scrubbing advance,
halving or doubling the interval by the thresholds between 32 and 512 ms at a pass end; control registers take a store or reject
it; a deadline passes; banks are requested, gated and woken; a block store's held accesses go on. The model's choices: a refused store
to a pewter entry counts in REJECT and changes nothing (log 30), the walks of a die end oldest first (log 126) (R356 to R360, R364, R365,
R368, R372, R449, R453). -/
def Obligations.DieEvents : Prop :=
  ∀ (s : State) (d l : Nat) (v : BitVec 64),
    let rejects := fun (i : Instr) (e : Event) => exec i (onEvent s e) = .next (dieReject (onEvent s e) d)
    let Y := (s.die d).layers.get l {}
    let ctl := (s.die d).scrub.toNat
    (∀ w rest, (s.die d).walks = w :: rest → ∃ t, exec .walkComplete (onEvent s (.walkComplete d)) = .next t ∧
      (w.reqs = [] → (t.die d).walks = rest ++ ((s.die d).walkQ.take 1).map (fun w => { w with root := rootOf s w.part }) ∧
        (t.die d).walkQ = (s.die d).walkQ.drop 1)) ∧
    (∃ t, exec .walkRetry (onEvent s (.walkRetry d)) = .next t ∧ (∀ c, coreDie c = d → (t.core c).ringHold = false) ∧
      (∀ c, coreDie c ≠ d → t.core c = s.core c) ∧ t.mem = s.mem) ∧
    (∃ t, exec .dramRefresh (onEvent s (.dramRefresh d l)) = .next t ∧ t.mem = s.mem ∧
      (t.die d).layers.get l {} = { Y with nextRef := Y.nextRef + Y.int * 1000000 }) ∧
    (∃ t, exec .scrubVisit (onEvent s (.scrubVisit d l)) = .next t ∧ ((t.die d).layers.get l {}).pos = Y.pos + 1) ∧
    (∃ t, exec .scrubPassEnd (onEvent s (.scrubPassEnd d l)) = .next t ∧ t.mem = s.mem ∧
      (t.die d).layers.get l {} = { Y with
        int := if bits ctl 63 48 < Y.cur then max 32 (Y.int / 2) else if Y.cur < bits ctl 47 32 then min 512 (Y.int * 2) else Y.int
        corr := min Y.cur (2 ^ 32 - 1), cur := 0, pos := 0, pass := bits ctl 29 24, passStart := Y.passStart + 2 ^ Y.pass }) ∧
    (let p := bits v.toNat 29 24
     let ok := dieReserved 0x18 v.toNat = false ∧ 30 ≤ p ∧ p ≤ 40 ∧ bits v.toNat 47 32 ≤ bits v.toNat 63 48
     (ok → ∃ t, exec .scrubCtlWrite (onEvent s (.scrubCtlWrite d v)) = .next t ∧ dieRegRead t d 0x18 = v.toNat) ∧
     (¬ ok → rejects .scrubCtlWrite (.scrubCtlWrite d v))) ∧
    (∀ k, (((s.die d).pew.get k {}).ctl.getLsbD 63 = false → ∃ t, exec .pewCtlWrite (onEvent s (.pewCtlWrite d (2 * k + 1) v)) = .next t ∧
        ((t.die d).pew.get k {}).dl = v) ∧
      (((s.die d).pew.get k {}).ctl.getLsbD 63 = true → rejects .pewCtlWrite (.pewCtlWrite d (2 * k + 1) v)) ∧
      (dieReserved 0x100 v.toNat = true → rejects .pewCtlWrite (.pewCtlWrite d (2 * k) v)) ∧
      ∃ t, exec .pewterExpiry (onEvent s (.pewterExpiry d k)) = .next t ∧ ((t.die d).pew.get k {}).ctl.getLsbD 62 = true ∧ t.mem = s.mem) ∧
    (∀ g, ∃ t, exec .bankGateRequest (onEvent s (.bankGateRequest d g v)) = .next t ∧
      ∀ b < 64, v.getLsbD b = true → (s.die d).gated.contains (64 * g + b) = false → (t.die d).gateReq.contains (64 * g + b) = true) ∧
    (∀ c, coreDie c = d →
      (dieReserved 0x200 v.toNat = true → rejects .spgateRequest (.spgateRequest c v)) ∧
      (dieReserved 0x200 v.toNat = false → ∃ t, exec .spgateRequest (onEvent s (.spgateRequest c v)) = .next t ∧
        ∀ b < 16, v.getLsbD b = true → (s.core c).gated.contains b = false → 8192 * (b + 1) ≤ bits (s.core c).frameBase.toNat 16 0 →
          (t.core c).gateReq.contains b = true)) ∧
    (∀ c b, mayGate s (some c) d b = true → ∃ t, exec .bankGated (onEvent s (.bankGated (some c) d b)) = .next t ∧
      (t.core c).gated.contains b = true ∧ (t.core c).gateReq.contains b = false ∧ ∀ a, inBank (some c) d b a = true → memGet t.mem a = 0) ∧
    (∀ b, mayGate s none d b = true → ∃ t, exec .bankGated (onEvent s (.bankGated none d b)) = .next t ∧ (t.die d).gated.contains b = true) ∧
    (∀ c b, let s := onEvent s (.bankWakeComplete (some c) d b)
      ∃ t, exec .bankWakeComplete s = .next t ∧ (heldAt s (some c) d b = [] → (t.core c).gated.contains b = false ∧ t.mem = s.mem) ∧
        (∀ a, heldAt s (some c) d b = [a] → t = homeAccess (openBank s (some c) d b) a)) ∧
    (dieReserved 0x42 v.toNat = true → rejects .kvbCtlWrite (.kvbCtlWrite d v)) ∧
    (v.getLsbD 0 = false → (s.die d).kvb.ctl.getLsbD 0 = true → (s.die d).kvb.lists.any (fun e => e.2 != []) = true →
      rejects .kvbCtlWrite (.kvbCtlWrite d v)) ∧
    (dieReserved 0x42 v.toNat = false → v.getLsbD 0 = true → (s.die d).kvb.ctl.getLsbD 0 = true →
      ∃ t, exec .kvbCtlWrite (onEvent s (.kvbCtlWrite d v)) = .next t ∧ (t.die d).kvb.lists = (s.die d).kvb.lists ∧
        bits (t.die d).kvb.ctl.toNat 31 16 = bits v.toNat 31 16) ∧
    (∃ t, exec .kvbHeldRelease (onEvent s (.kvbHeldRelease d)) = .next t ∧
      ((s.die d).kvb.held = [] → (t.die d).kvb.raised = false ∧ t.mem = s.mem)) ∧
    (dieReserved 0x61 v.toNat = true → rejects .traceCtlWrite (.traceCtlWrite d v)) ∧
    (dieReserved 0x61 v.toNat = false → v.getLsbD 63 = false → ∃ t, exec .traceCtlWrite (onEvent s (.traceCtlWrite d v)) = .next t ∧
      (t.die d).trace.ctl.getLsbD 63 = false ∧ t.mem = s.mem)

/-- The package, the host and launches: partition and core control, host reads and writes, host memory that the host writes,
power, errors, losses, service, a boundary's calibration, firmware, attestation, reset, the acceptance of a launch, its phase 2, core switches and slice ends (R399 to R407, R441 to R446,
R452 to R458). The model's choices: the layout of a fault log or of a host's answer; what RESET keeps (log 79) and that
memory reads 0 after it (log 1); a launch's phase is one act (log 70) and takes its SEQ even where it is BUSY (log 67); which cores MAPIN,
STOP and MAPOUT act on (log 76); a transient error writes no log (log 77); what event 0x0E reports (log 80). -/
def Obligations.PackageAndHostEvents : Prop :=
  ∀ (s : State) (c d k : Nat) (v : BitVec 64),
    (partKeeps s k v = true → exec .partCtlWrite (onEvent s (.partCtlWrite k v)) = .next (pkgReject (onEvent s (.partCtlWrite k v)))) ∧
    (partKeeps s k v = false → ∃ t, exec .partCtlWrite (onEvent s (.partCtlWrite k v)) = .next t ∧ (partReg t k).ctl = v ∧ t.mem = s.mem) ∧
    (∃ t, exec .hctlRestart (onEvent s (.hctlRestart c)) = .next t ∧ (t.core c).mode = 0 ∧ ((s.core c).mode ≠ 2 → t.mem = s.mem)) ∧
    (∃ t, exec .hctlStop (onEvent s (.hctlStop c)) = .next t ∧ t.mem = s.mem ∧ ((s.core c).mode = 0 → (t.core c).halting = true) ∧
      (t.core c).slots = (s.core c).slots) ∧
    ((s.core c).mapped = true → mayLeave (s.core c) = false → ∃ t, exec .hctlMapout (onEvent s (.hctlMapout c)) = .next t ∧
      (t.core c).leaving = true ∧ (t.core c).mapped = true) ∧
    (mayLeave (s.core c) = true → ∃ t, exec .hctlMapout (onEvent s (.hctlMapout c)) = .next t ∧ (t.core c).mapped = false ∧ (t.core c).frames = []) ∧
    ((s.core c).mapped = false → (s.core c).broken = false → ∃ t, exec .hctlMapin (onEvent s (.hctlMapin c)) = .next t ∧
      (t.core c).mapped = true ∧ (t.core c).mode = 1 ∧ (t.core c).image = []) ∧
    (∀ n, 0 < n → n < 0x60 → let s := onEvent s (.hostRead (2 ^ 48 + 8 * n) 8)
      exec .hostRead s = .next { s with reply := some (BitVec.ofNat 64 (pkgRegRead s n)), replyErr := false }) ∧
    (∀ n < 0x60, let s := onEvent s (.hostWrite (2 ^ 48 + 8 * n) 8 v)
      exec .hostWrite s = .next (s.raise (.registerWrite (.pkg n) v))) ∧
    (∀ a n, n ≤ 8 → Safe s → ∃ t, exec .hostWrite (onEvent s (.hostMemory a n v)) = .next t ∧ t.cores = s.cores ∧ t.pkg = s.pkg ∧
      (∀ b, b < a ∨ a + n ≤ b → memGet t.mem b = memGet s.mem b) ∧
      (physKind s a = .host → physKind s (a + n - 1) = .host → ∀ j < n, memGet t.mem (a + j) = v.extractLsb' (8 * j) 8)) ∧
    (∀ cause mhz mv lim, settingOk mhz mv lim = true → (s.die d).trace.ctl.getLsbD 63 = false →
      ∃ t, exec .throttleChange (onEvent s (.throttleChange d cause mhz mv lim)) = .next t ∧ (t.die d).mhz = mhz ∧ (t.die d).mv = mv ∧
        (t.die d).limit = lim ∧ t.mem = s.mem) ∧
    (∀ off, let s := onEvent s (.errorRetry (.dramRow d off) true)
      exec .errorRetry s = .next s) ∧
    (∀ off, ∃ t, exec .errorRetry (onEvent s (.errorRetry (.dramRow d off) false)) = .next t ∧ (t.die d).logN = (s.die d).logN + 1) ∧
    (∀ g, ∃ t, exec .fatalDramLoss (onEvent s (.fatalDramLoss (.bank d g))) = .next t ∧ t.pkg.loss.testBit d = true ∧
      (t.die d).mapOut.head? = some (g * 2 ^ 30, 2 ^ 30)) ∧
    (∀ a, let s := onEvent s (.serviceAction a d)
      exec .serviceAction s = .next (dieEvent s d 0 0x0E a noIdx)) ∧
    (∀ a b, (∃ t, exec .serviceAction (onEvent s (.boundaryService a b true)) = .next t ∧ t.pkg.lanes = (a, b) :: s.pkg.lanes ∧ t.mem = s.mem) ∧
      ((a, b) ∈ s.pkg.lanes → ∃ t, exec .serviceAction (onEvent s (.boundaryService a b false)) = .next t ∧
        t.pkg.lanes = s.pkg.lanes.erase (a, b))) ∧
    (∀ b, (Config.verifies b = true → ∃ t, exec .firmwareUpdate (onEvent s (.firmwareUpdate b)) = .next t ∧ t.pkg.fw = some b ∧ t.cores = s.cores) ∧
      (Config.verifies b = false → ∃ t, exec .firmwareUpdate (onEvent s (.firmwareUpdate b)) = .next t ∧ t.pkg.fw = s.pkg.fw ∧
        (t.die 0).logN = (s.die 0).logN + 1)) ∧
    (s.pkg.attest.getLsbD 63 = true → ∃ t, exec .attestReport (onEvent s .attestReport) = .next t ∧ t.pkg.attest.getLsbD 63 = false) ∧
    (∃ t, exec .reset (onEvent s .reset) = .next t ∧ t.tick = s.tick ∧ t.net = [] ∧
      (Safe s → ∀ a, memGet t.mem a = if 2 ^ 46 ≤ a ∧ a < 2 ^ 47 then memGet s.mem a else 0) ∧
      ∀ n ∈ [0x08, 0x09, 0x12, 0x1A, 0x20, 0x28, 0x29, 0x2A, 0x30], coreRegRead t c n = 0) ∧
    (let w := getWord s.mem (lineKey k 0)
     (w.d.getLsbD 63 = false ∨ (launchOf s k).last = some (w.d.toNat % 2 ^ 32) →
       exec .launchAccept (onEvent s (.launchAccept k)) = .next (onEvent s (.launchAccept k))) ∧
     (w.d.getLsbD 63 = true → (launchOf s k).last ≠ some (w.d.toNat % 2 ^ 32) →
       ∃ t, exec .launchAccept (onEvent s (.launchAccept k)) = .next t ∧ (launchOf t k).last = some (w.d.toNat % 2 ^ 32))) ∧
    (phase2Due s k = true → exec .loadPhase2 (onEvent s (.loadPhase2 k)) = .next (loadPhase2 (onEvent s (.loadPhase2 k)) k)) ∧
    (∀ p, switchPart s c = some p → maySwitch s c = true → exec .coreSwitch (onEvent s (.coreSwitch c)) = .next (switchCore (onEvent s (.coreSwitch c)) c p)) ∧
    (sliceReady s = true → exec .sliceEnd (onEvent s .sliceEnd) = .next (endSlice (onEvent s .sliceEnd)))

/-- The pod and the integrator array: an atomic met again is answered from its replay entry without being applied, one at or
below the source's FLOOR is ambiguous; entries expire; timeouts complete UNCONFIRMED and TIMEOUT; a packet that fails
authentication is only counted, one on a port that is not up is lost; Pdelay_Req is answered on its port; gang tokens, time
messages, ports and debug halt; a step of the array gives each enabled cell of the domains of its cclk the residue, dz and Y of R304,
empties the latches read and fills those of its consumers; a link's deposit fills the latches that name it; an answer ends the step that
it held; a cell's residue stays in its range. The model's choices: a port that is not up takes and sends nothing (log 81), what a time
message carries and when time is taken (log 87), whom a debug halt stops (log 88), latches of disabled cells (log 58), the order inside a
cclk (log 59) (R302 to R304, R342, R459 to R463, R467, R470, R474, R478, R479). -/
def Obligations.PodAndIntegratorEvents : Prop :=
  ∀ (s : State) (c n tag : Nat),
    (∀ r p e, r.port = some p → s.pkg.pod.filter.find? (fun e => e.src == r.src && e.seq == r.seq) = some e →
      let s := onEvent s (.podAmoAtHome r)
      exec .podAmoAtHome s = .next (podSend s (portPart s p) r.src (.amoAns r.tag e.res.1 e.res.2 false))) ∧
    (∀ r p f, r.port = some p → s.pkg.pod.filter.find? (fun e => e.src == r.src && e.seq == r.seq) = none → floorOf s r.src = some f → r.seq ≤ f →
      let s := onEvent s (.podAmoAtHome r)
      exec .podAmoAtHome s = .next (podSend s (portPart s p) r.src (.amoAns r.tag 0x33 Val.err false))) ∧
    (∃ t, exec .replayEntryExpiry (onEvent s .replayEntryExpiry) = .next t ∧ t.mem = s.mem ∧
      t.pkg.pod.filter = s.pkg.pod.filter.filter fun e => !decide (e.tick + 2 ^ 20 ≤ s.tick)) ∧
    (∀ o, outOf s tag = some o → ∃ t, exec .podTimeout (onEvent s (.podTimeout tag)) = .next t ∧ outOf t tag = none ∧ t.mem = s.mem) ∧
    (∀ x, s.pkg.pod.colls.find? (·.serial == n) = some x → ∃ t, exec .collectiveTimeout (onEvent s (.collectiveTimeout n)) = .next t ∧
      t.pkg.pod.lastr = 0x36 ∧ t.pkg.pod.done = (s.pkg.pod.done + 1) % 2 ^ 32 ∧ Sent t x.rel (podErr 0x36 0)) ∧
    (∀ pkt auth, n < 32 → portUp s n = false → let s := onEvent s (.podPacketReceive n auth pkt)
      exec .podPacketReceive s = .next s) ∧
    (∀ pkt, n < 32 → portUp s n = true → ∃ t, exec .podPacketReceive (onEvent s (.podPacketReceive n false pkt)) = .next t ∧ t.mem = s.mem ∧
      t.net = s.net ∧ bits (portReg t n).ctl.toNat 39 24 = min (bits (portReg s n).ctl.toNat 39 24 + 1) 0xFFFF) ∧
    (∀ pkt p, n < 32 → portUp s n = true → portPart s n = some p → (∀ src, pkt ≠ .debugHalt src) → pkt ≠ .ptpPdelay → (∀ a b i, pkt ≠ .ptpAnnounce a b i) →
      let s := onEvent s (.podPacketReceive n true pkt)
      exec .podPacketReceive s = .next (if podOn s then serve (countFabric s (some p) 0x31) n p pkt else countFabric s (some p) 0x31)) ∧
    (∀ pkt, n < 32 → portUp s n = true → portPart s n = none → (∀ src, pkt ≠ .debugHalt src) → pkt ≠ .ptpPdelay → (∀ a b i, pkt ≠ .ptpAnnounce a b i) →
      let s := onEvent s (.podPacketReceive n true pkt)
      exec .podPacketReceive s = .next (countFabric s none 0x31)) ∧
    (∀ prio q (id : BitVec 64), n < 32 → portUp s n = true → prio ≠ 255 → id.toNat % 1024 ≠ pkgNo s → s.pkg.pod.time.getLsbD 62 = false →
      ∃ t, exec .podPacketReceive (onEvent s (.podPacketReceive n true (.ptpAnnounce prio q id))) = .next t ∧ t.mem = s.mem ∧
        t.pkg.pod.bestGm = some (match s.pkg.pod.bestGm with | some g => min g (id.toNat % 1024) | none => id.toNat % 1024)) ∧
    (n < 32 → portUp s n = true → ∃ t, exec .podPacketReceive (onEvent s (.podPacketReceive n true .ptpPdelay)) = .next t ∧ t.mem = s.mem ∧
      t.pkg.pod.sent = s.pkg.pod.sent ++ [⟨none, none, .unreliable, 2 ^ n, .ptpPdelayResp s.tick⟩,
        ⟨none, none, .unreliable, 2 ^ n, .ptpPdelayFollowUp s.tick⟩]) ∧
    (∀ fp slot t, s.pkg.pod.gangDue.contains (fp, slot, t) = true → t ≤ s.tick →
      ∃ u, exec .gangTokenDue (onEvent s (.gangTokenDue fp slot t)) = .next u ∧
        u.net = s.net ++ [.token { fp, slot, v := natVal t, src := some (fpCore fp) }]) ∧
    (∀ auth gm off cnt, n < 32 → ∃ t, exec .ptpMessageReceive (onEvent s (.ptpMessageReceive n auth gm off cnt)) = .next t ∧
      t.mem = s.mem ∧ s.tick ≤ t.tick ∧
      (portUp s n = true → auth = false → bits (portReg t n).ctl.toNat 39 24 = min (bits (portReg s n).ctl.toNat 39 24 + 1) 0xFFFF) ∧
      (t.tick ≠ s.tick → auth = true ∧ portUp s n = true ∧ s.pkg.pod.gmPort = some n ∧ s.pkg.pod.bestGm = some gm ∧ s.pkg.pod.time.getLsbD 63 = false ∧ off < -1000 ∧ s.pkg.pod.joined = false ∧ t.tick = cnt)) ∧
    (∃ t, exec .ptpSyncSend (onEvent s .ptpSyncSend) = .next t ∧ t.pkg.pod.syncNext = s.pkg.pod.syncNext + 62500000) ∧
    (∃ t, exec .ptpAnnounceSend (onEvent s .ptpAnnounceSend) = .next t ∧ t.pkg.pod.annNext = s.pkg.pod.annNext + 1000000000) ∧
    (∃ t, exec .announceReceiptTimeout (onEvent s .announceReceiptTimeout) = .next t ∧ t.pkg.pod.bestGm = none ∧ t.pkg.pod.gmPort = none ∧
      t.pkg.pod.annSeen = s.tick) ∧
    (∀ st, n < 32 → st < 3 → ∃ t, exec .portStateChange (onEvent s (.portStateChange n st)) = .next t ∧
      bits (portReg t n).ctl.toNat 1 0 = st ∧ t.mem = s.mem) ∧
    (∀ on, ∃ t, exec .podDebugHalt (onEvent s (.podDebugHalt on)) = .next t ∧ (on = true → t.pkg.pod.halt = true ∧
      ∀ c ∈ allCores, corePresent s c = true → (s.core c).mode = 0 → (t.core c).halting = true)) ∧
    (s.pkg.pod.halt = true → ∃ t, exec .debugHaltAdvertise (onEvent s .debugHaltAdvertise) = .next t ∧ t.pkg.pod.haltNext = s.tick + 10000) ∧
    (∀ src, ∃ t, exec .debugHaltSeen (onEvent s (.debugHaltSeen n src)) = .next t ∧
      (portReg t n).halted = (src, s.tick) :: (portReg s n).halted.filter (·.1 != src)) ∧
    (let s := onEvent s (.debugHaltLapse n)
     exec .debugHaltLapse s = .next (colAll (setPort s n { portReg s n with halted := (portReg s n).halted.filter fun h => decide (s.tick < h.2 + 30000) }))) ∧
    (let a := (s.core c).dda
     let five := ∀ j, (a.cell j).lat.length = 5
     let latch := fun (b : Dda) j f => latchOf (b.cell j) f
     (∀ t, ddaNext s.mem c a (coreCclk s c) = some (t, 1) → ∃ u, exec .ddaStep (onEvent s (.ddaStep c)) = .next u ∧
       (five → linkEntries a = [] → a.taps = [] →
         -- the domains of this cclk, a source's value in a step of its cell's domain, a step by R304
         let due := fun d => d < 8 ∧ (a.dom d).run = true ∧ (a.dom d).hold = none ∧ ((a.dom d).fwait = true ∨ (a.dom d).next ≤ t)
         let on := fun j => j < 256 ∧ (a.cell j).cfg.getLsbD 63 = true ∧ due (cellDom (a.cell j).cfg)
         let source := fun j f => (a.cell j).cfg.toNat / 2 ^ (11 * f) % 2 ^ 11
         let from_ := fun j f i => source j f / 2 ^ 8 % 4 = 1 ∧ source j f % 2 ^ 8 = i ∧ cellDom (a.cell i).cfg ≠ cellDom (a.cell j).cfg
         let value := fun j f => (if source j f / 2 ^ 10 = 1 then -1 else 1) * match source j f / 2 ^ 8 % 4 with
           | 1 => let i := source j f % 2 ^ 8; if cellDom (a.cell i).cfg = cellDom (a.cell j).cfg then (a.cell i).dz else latch a j f
           | 2 => if source j f / 2 ^ 4 % 4 = 0 then latch a j f else 0
           | 3 => if source j f % 2 ^ 8 = 0 then (1 : ℤ) else 0
           | _ => 0
         let h := fun j => (2 : ℤ) ^ (cellN (a.cell j).cfg - 1)
         let sdy := fun j => value j 1 + value j 2 + value j 3 + value j 4
         let sum := fun j => (a.cell j).r + value j 0 * (a.cell j).y
         let dz := fun j => if h j ≤ sum j then (1 : ℤ) else if sum j < -h j then -1 else 0
         (∀ j, on j → ¬ (value j 0 ≠ 0 ∧ h j ≤ |(a.cell j).y|) ∧ -2 ^ 31 ≤ (a.cell j).y + sdy j ∧ (a.cell j).y + sdy j ≤ 2 ^ 31 - 1 ∧
           (dz j ≠ 0 → ∀ i < 256, ∀ f < 5, from_ i f j → latch a i f = 0 ∨ due (cellDom (a.cell i).cfg))) →
         let b := (u.core c).dda
         (∀ j, on j → (b.cell j).r = sum j - 2 * h j * dz j ∧ (b.cell j).dz = dz j ∧ (b.cell j).y = (a.cell j).y + sdy j) ∧
         (∀ j < 256, ¬ on j → (b.cell j).r = (a.cell j).r ∧ (b.cell j).dz = (a.cell j).dz ∧ (b.cell j).y = (a.cell j).y) ∧
         (∀ i < 256, ∀ f < 5, ∀ j, from_ i f j → latch b i f = if on j ∧ dz j ≠ 0 then dz j else if due (cellDom (a.cell i).cfg) then 0 else latch a i f) ∧
         (∀ d, due d → (b.dom d).steps = ((a.dom d).steps + 1) % 2 ^ 45 ∧
           ((a.dom d).limit ≠ 1 → (b.dom d).run = true ∧ (b.dom d).next = t + (a.dom d).d ∧ (b.dom d).limit = (a.dom d).limit - 1) ∧
           ((a.dom d).limit = 1 → (b.dom d).run = false ∧ (b.dom d).lastr = 0x10)))) ∧
     (∀ t, ddaNext s.mem c a (coreCclk s c) = some (t, 2) → ∃ u, exec .linkDeposit (onEvent s (.linkDeposit c)) = .next u ∧
       (u.core c).dda.inc = a.inc.filter (fun x => !decide (x.due ≤ t)) ∧
       (five → ∀ j < 256, ∀ f < 5, let names := fun (x : LinkInc) => x ∈ a.inc ∧ x.due ≤ t ∧ srcAt (a.cell j).cfg f = .link x.pos x.link
         ((∀ x, ¬ names x) → latch (u.core c).dda j f = latch a j f) ∧
         ∀ x, names x → (∀ y, names y → y = x) → latch (u.core c).dda j f = x.v)) ∧
     (∀ t, ddaNext s.mem c a (coreCclk s c) = some (t, 0) → ∃ u, exec .linkOverrunAnswer (onEvent s (.linkOverrunAnswer c)) = .next u ∧
       ∀ d < 8, ∀ v, (a.dom d).hold = some v → v + 8 ≤ t → let y := (u.core c).dda.dom d
         (∀ j, (a.dom d).late = some j → y.run = false ∧ y.lastr = 0x21 ∧ y.lastcell = j ∧ y.steps = (a.dom d).steps) ∧
         ((a.dom d).late = none → y.steps = ((a.dom d).steps + 1) % 2 ^ 45 ∧ y.hold = none))) ∧
    (∀ m a d j, let x := Dda.cell a j
      let h : Int := 2 ^ (cellN x.cfg - 1)
      let y := cellStep m c a d j
      (∀ f v, srcVal m c a d j f = some v → |v| ≤ 1) → -h ≤ x.r → x.r < h → y.inc = false →
        -h ≤ y.r ∧ y.r < h ∧ |y.dz| ≤ 1 ∧ |y.r + 2 * h * y.dz - x.r| ≤ |x.y|)
end

