-- ==== Sys2Proof/Laws/State.lean ====
section
/-! SUPPORT. One lemma per field per update of the state, true by unfolding, and the accessors of cores and dies after an
update. Later proofs rewrite with these and unfold no record. -/

namespace Sys2Proof.Machine

/-! ## setCore -/

@[simp] theorem State.setCore_mem (s : State) (c : Nat) (x : Core) : (s.setCore c x).mem = s.mem := rfl
@[simp] theorem State.setCore_cores (s : State) (c : Nat) (x : Core) : (s.setCore c x).cores = s.cores.put c x := rfl
@[simp] theorem State.setCore_dies (s : State) (c : Nat) (x : Core) : (s.setCore c x).dies = s.dies := rfl
@[simp] theorem State.setCore_pkg (s : State) (c : Nat) (x : Core) : (s.setCore c x).pkg = s.pkg := rfl
@[simp] theorem State.setCore_tick (s : State) (c : Nat) (x : Core) : (s.setCore c x).tick = s.tick := rfl
@[simp] theorem State.setCore_images (s : State) (c : Nat) (x : Core) : (s.setCore c x).images = s.images := rfl
@[simp] theorem State.setCore_net (s : State) (c : Nat) (x : Core) : (s.setCore c x).net = s.net := rfl
@[simp] theorem State.setCore_due (s : State) (c : Nat) (x : Core) : (s.setCore c x).due = s.due := rfl
@[simp] theorem State.setCore_inbox (s : State) (c : Nat) (x : Core) : (s.setCore c x).inbox = s.inbox := rfl
@[simp] theorem State.setCore_reply (s : State) (c : Nat) (x : Core) : (s.setCore c x).reply = s.reply := rfl
@[simp] theorem State.setCore_replyErr (s : State) (c : Nat) (x : Core) : (s.setCore c x).replyErr = s.replyErr := rfl
@[simp] theorem State.setCore_focus (s : State) (c : Nat) (x : Core) : (s.setCore c x).focus = s.focus := rfl
@[simp] theorem State.setCore_mover (s : State) (c : Nat) (x : Core) : (s.setCore c x).mover = s.mover := rfl
@[simp] theorem State.setCore_draws (s : State) (c : Nat) (x : Core) : (s.setCore c x).draws = s.draws := rfl

/-! ## modCore -/

@[simp] theorem State.modCore_mem (s : State) (c : Nat) (f : Core → Core) : (s.modCore c f).mem = s.mem := rfl
@[simp] theorem State.modCore_cores (s : State) (c : Nat) (f : Core → Core) : (s.modCore c f).cores = s.cores.put c (f (s.core c)) := rfl
@[simp] theorem State.modCore_dies (s : State) (c : Nat) (f : Core → Core) : (s.modCore c f).dies = s.dies := rfl
@[simp] theorem State.modCore_pkg (s : State) (c : Nat) (f : Core → Core) : (s.modCore c f).pkg = s.pkg := rfl
@[simp] theorem State.modCore_tick (s : State) (c : Nat) (f : Core → Core) : (s.modCore c f).tick = s.tick := rfl
@[simp] theorem State.modCore_images (s : State) (c : Nat) (f : Core → Core) : (s.modCore c f).images = s.images := rfl
@[simp] theorem State.modCore_net (s : State) (c : Nat) (f : Core → Core) : (s.modCore c f).net = s.net := rfl
@[simp] theorem State.modCore_due (s : State) (c : Nat) (f : Core → Core) : (s.modCore c f).due = s.due := rfl
@[simp] theorem State.modCore_inbox (s : State) (c : Nat) (f : Core → Core) : (s.modCore c f).inbox = s.inbox := rfl
@[simp] theorem State.modCore_reply (s : State) (c : Nat) (f : Core → Core) : (s.modCore c f).reply = s.reply := rfl
@[simp] theorem State.modCore_replyErr (s : State) (c : Nat) (f : Core → Core) : (s.modCore c f).replyErr = s.replyErr := rfl
@[simp] theorem State.modCore_focus (s : State) (c : Nat) (f : Core → Core) : (s.modCore c f).focus = s.focus := rfl
@[simp] theorem State.modCore_mover (s : State) (c : Nat) (f : Core → Core) : (s.modCore c f).mover = s.mover := rfl
@[simp] theorem State.modCore_draws (s : State) (c : Nat) (f : Core → Core) : (s.modCore c f).draws = s.draws := rfl

/-! ## setDie -/

@[simp] theorem State.setDie_mem (s : State) (d : Nat) (x : Die) : (s.setDie d x).mem = s.mem := rfl
@[simp] theorem State.setDie_cores (s : State) (d : Nat) (x : Die) : (s.setDie d x).cores = s.cores := rfl
@[simp] theorem State.setDie_dies (s : State) (d : Nat) (x : Die) : (s.setDie d x).dies = s.dies.put d x := rfl
@[simp] theorem State.setDie_pkg (s : State) (d : Nat) (x : Die) : (s.setDie d x).pkg = s.pkg := rfl
@[simp] theorem State.setDie_tick (s : State) (d : Nat) (x : Die) : (s.setDie d x).tick = s.tick := rfl
@[simp] theorem State.setDie_images (s : State) (d : Nat) (x : Die) : (s.setDie d x).images = s.images := rfl
@[simp] theorem State.setDie_net (s : State) (d : Nat) (x : Die) : (s.setDie d x).net = s.net := rfl
@[simp] theorem State.setDie_due (s : State) (d : Nat) (x : Die) : (s.setDie d x).due = s.due := rfl
@[simp] theorem State.setDie_inbox (s : State) (d : Nat) (x : Die) : (s.setDie d x).inbox = s.inbox := rfl
@[simp] theorem State.setDie_reply (s : State) (d : Nat) (x : Die) : (s.setDie d x).reply = s.reply := rfl
@[simp] theorem State.setDie_replyErr (s : State) (d : Nat) (x : Die) : (s.setDie d x).replyErr = s.replyErr := rfl
@[simp] theorem State.setDie_focus (s : State) (d : Nat) (x : Die) : (s.setDie d x).focus = s.focus := rfl
@[simp] theorem State.setDie_mover (s : State) (d : Nat) (x : Die) : (s.setDie d x).mover = s.mover := rfl
@[simp] theorem State.setDie_draws (s : State) (d : Nat) (x : Die) : (s.setDie d x).draws = s.draws := rfl

/-! ## modDie -/

@[simp] theorem State.modDie_mem (s : State) (d : Nat) (f : Die → Die) : (s.modDie d f).mem = s.mem := rfl
@[simp] theorem State.modDie_cores (s : State) (d : Nat) (f : Die → Die) : (s.modDie d f).cores = s.cores := rfl
@[simp] theorem State.modDie_dies (s : State) (d : Nat) (f : Die → Die) : (s.modDie d f).dies = s.dies.put d (f (s.die d)) := rfl
@[simp] theorem State.modDie_pkg (s : State) (d : Nat) (f : Die → Die) : (s.modDie d f).pkg = s.pkg := rfl
@[simp] theorem State.modDie_tick (s : State) (d : Nat) (f : Die → Die) : (s.modDie d f).tick = s.tick := rfl
@[simp] theorem State.modDie_images (s : State) (d : Nat) (f : Die → Die) : (s.modDie d f).images = s.images := rfl
@[simp] theorem State.modDie_net (s : State) (d : Nat) (f : Die → Die) : (s.modDie d f).net = s.net := rfl
@[simp] theorem State.modDie_due (s : State) (d : Nat) (f : Die → Die) : (s.modDie d f).due = s.due := rfl
@[simp] theorem State.modDie_inbox (s : State) (d : Nat) (f : Die → Die) : (s.modDie d f).inbox = s.inbox := rfl
@[simp] theorem State.modDie_reply (s : State) (d : Nat) (f : Die → Die) : (s.modDie d f).reply = s.reply := rfl
@[simp] theorem State.modDie_replyErr (s : State) (d : Nat) (f : Die → Die) : (s.modDie d f).replyErr = s.replyErr := rfl
@[simp] theorem State.modDie_focus (s : State) (d : Nat) (f : Die → Die) : (s.modDie d f).focus = s.focus := rfl
@[simp] theorem State.modDie_mover (s : State) (d : Nat) (f : Die → Die) : (s.modDie d f).mover = s.mover := rfl
@[simp] theorem State.modDie_draws (s : State) (d : Nat) (f : Die → Die) : (s.modDie d f).draws = s.draws := rfl

/-! ## modPkg -/

@[simp] theorem State.modPkg_mem (s : State) (f : Pkg → Pkg) : (s.modPkg f).mem = s.mem := rfl
@[simp] theorem State.modPkg_cores (s : State) (f : Pkg → Pkg) : (s.modPkg f).cores = s.cores := rfl
@[simp] theorem State.modPkg_dies (s : State) (f : Pkg → Pkg) : (s.modPkg f).dies = s.dies := rfl
@[simp] theorem State.modPkg_pkg (s : State) (f : Pkg → Pkg) : (s.modPkg f).pkg = f s.pkg := rfl
@[simp] theorem State.modPkg_tick (s : State) (f : Pkg → Pkg) : (s.modPkg f).tick = s.tick := rfl
@[simp] theorem State.modPkg_images (s : State) (f : Pkg → Pkg) : (s.modPkg f).images = s.images := rfl
@[simp] theorem State.modPkg_net (s : State) (f : Pkg → Pkg) : (s.modPkg f).net = s.net := rfl
@[simp] theorem State.modPkg_due (s : State) (f : Pkg → Pkg) : (s.modPkg f).due = s.due := rfl
@[simp] theorem State.modPkg_inbox (s : State) (f : Pkg → Pkg) : (s.modPkg f).inbox = s.inbox := rfl
@[simp] theorem State.modPkg_reply (s : State) (f : Pkg → Pkg) : (s.modPkg f).reply = s.reply := rfl
@[simp] theorem State.modPkg_replyErr (s : State) (f : Pkg → Pkg) : (s.modPkg f).replyErr = s.replyErr := rfl
@[simp] theorem State.modPkg_focus (s : State) (f : Pkg → Pkg) : (s.modPkg f).focus = s.focus := rfl
@[simp] theorem State.modPkg_mover (s : State) (f : Pkg → Pkg) : (s.modPkg f).mover = s.mover := rfl
@[simp] theorem State.modPkg_draws (s : State) (f : Pkg → Pkg) : (s.modPkg f).draws = s.draws := rfl

/-! ## modPod -/

@[simp] theorem State.modPod_mem (s : State) (f : Pod → Pod) : (s.modPod f).mem = s.mem := rfl
@[simp] theorem State.modPod_cores (s : State) (f : Pod → Pod) : (s.modPod f).cores = s.cores := rfl
@[simp] theorem State.modPod_dies (s : State) (f : Pod → Pod) : (s.modPod f).dies = s.dies := rfl
@[simp] theorem State.modPod_pkg (s : State) (f : Pod → Pod) : (s.modPod f).pkg = { s.pkg with pod := f s.pkg.pod } := rfl
@[simp] theorem State.modPod_tick (s : State) (f : Pod → Pod) : (s.modPod f).tick = s.tick := rfl
@[simp] theorem State.modPod_images (s : State) (f : Pod → Pod) : (s.modPod f).images = s.images := rfl
@[simp] theorem State.modPod_net (s : State) (f : Pod → Pod) : (s.modPod f).net = s.net := rfl
@[simp] theorem State.modPod_due (s : State) (f : Pod → Pod) : (s.modPod f).due = s.due := rfl
@[simp] theorem State.modPod_inbox (s : State) (f : Pod → Pod) : (s.modPod f).inbox = s.inbox := rfl
@[simp] theorem State.modPod_reply (s : State) (f : Pod → Pod) : (s.modPod f).reply = s.reply := rfl
@[simp] theorem State.modPod_replyErr (s : State) (f : Pod → Pod) : (s.modPod f).replyErr = s.replyErr := rfl
@[simp] theorem State.modPod_focus (s : State) (f : Pod → Pod) : (s.modPod f).focus = s.focus := rfl
@[simp] theorem State.modPod_mover (s : State) (f : Pod → Pod) : (s.modPod f).mover = s.mover := rfl
@[simp] theorem State.modPod_draws (s : State) (f : Pod → Pod) : (s.modPod f).draws = s.draws := rfl

/-! ## send -/

@[simp] theorem State.send_mem (s : State) (p : Packet) : (s.send p).mem = s.mem := rfl
@[simp] theorem State.send_cores (s : State) (p : Packet) : (s.send p).cores = s.cores := rfl
@[simp] theorem State.send_dies (s : State) (p : Packet) : (s.send p).dies = s.dies := rfl
@[simp] theorem State.send_pkg (s : State) (p : Packet) : (s.send p).pkg = s.pkg := rfl
@[simp] theorem State.send_tick (s : State) (p : Packet) : (s.send p).tick = s.tick := rfl
@[simp] theorem State.send_images (s : State) (p : Packet) : (s.send p).images = s.images := rfl
@[simp] theorem State.send_net (s : State) (p : Packet) : (s.send p).net = s.net ++ [p] := rfl
@[simp] theorem State.send_due (s : State) (p : Packet) : (s.send p).due = s.due := rfl
@[simp] theorem State.send_inbox (s : State) (p : Packet) : (s.send p).inbox = s.inbox := rfl
@[simp] theorem State.send_reply (s : State) (p : Packet) : (s.send p).reply = s.reply := rfl
@[simp] theorem State.send_replyErr (s : State) (p : Packet) : (s.send p).replyErr = s.replyErr := rfl
@[simp] theorem State.send_focus (s : State) (p : Packet) : (s.send p).focus = s.focus := rfl
@[simp] theorem State.send_mover (s : State) (p : Packet) : (s.send p).mover = s.mover := rfl
@[simp] theorem State.send_draws (s : State) (p : Packet) : (s.send p).draws = s.draws := rfl

/-! ## raise -/

@[simp] theorem State.raise_mem (s : State) (e : Event) : (s.raise e).mem = s.mem := rfl
@[simp] theorem State.raise_cores (s : State) (e : Event) : (s.raise e).cores = s.cores := rfl
@[simp] theorem State.raise_dies (s : State) (e : Event) : (s.raise e).dies = s.dies := rfl
@[simp] theorem State.raise_pkg (s : State) (e : Event) : (s.raise e).pkg = s.pkg := rfl
@[simp] theorem State.raise_tick (s : State) (e : Event) : (s.raise e).tick = s.tick := rfl
@[simp] theorem State.raise_images (s : State) (e : Event) : (s.raise e).images = s.images := rfl
@[simp] theorem State.raise_net (s : State) (e : Event) : (s.raise e).net = s.net := rfl
@[simp] theorem State.raise_due (s : State) (e : Event) : (s.raise e).due = s.due ++ [e] := rfl
@[simp] theorem State.raise_inbox (s : State) (e : Event) : (s.raise e).inbox = s.inbox := rfl
@[simp] theorem State.raise_reply (s : State) (e : Event) : (s.raise e).reply = s.reply := rfl
@[simp] theorem State.raise_replyErr (s : State) (e : Event) : (s.raise e).replyErr = s.replyErr := rfl
@[simp] theorem State.raise_focus (s : State) (e : Event) : (s.raise e).focus = s.focus := rfl
@[simp] theorem State.raise_mover (s : State) (e : Event) : (s.raise e).mover = s.mover := rfl
@[simp] theorem State.raise_draws (s : State) (e : Event) : (s.raise e).draws = s.draws := rfl

/-! ## setMem -/

@[simp] theorem State.setMem_mem (s : State) (m : List Host.Cell) : (s.setMem m).mem = m := rfl
@[simp] theorem State.setMem_cores (s : State) (m : List Host.Cell) : (s.setMem m).cores = s.cores := rfl
@[simp] theorem State.setMem_dies (s : State) (m : List Host.Cell) : (s.setMem m).dies = s.dies := rfl
@[simp] theorem State.setMem_pkg (s : State) (m : List Host.Cell) : (s.setMem m).pkg = s.pkg := rfl
@[simp] theorem State.setMem_tick (s : State) (m : List Host.Cell) : (s.setMem m).tick = s.tick := rfl
@[simp] theorem State.setMem_images (s : State) (m : List Host.Cell) : (s.setMem m).images = s.images := rfl
@[simp] theorem State.setMem_net (s : State) (m : List Host.Cell) : (s.setMem m).net = s.net := rfl
@[simp] theorem State.setMem_due (s : State) (m : List Host.Cell) : (s.setMem m).due = s.due := rfl
@[simp] theorem State.setMem_inbox (s : State) (m : List Host.Cell) : (s.setMem m).inbox = s.inbox := rfl
@[simp] theorem State.setMem_reply (s : State) (m : List Host.Cell) : (s.setMem m).reply = s.reply := rfl
@[simp] theorem State.setMem_replyErr (s : State) (m : List Host.Cell) : (s.setMem m).replyErr = s.replyErr := rfl
@[simp] theorem State.setMem_focus (s : State) (m : List Host.Cell) : (s.setMem m).focus = s.focus := rfl
@[simp] theorem State.setMem_mover (s : State) (m : List Host.Cell) : (s.setMem m).mover = s.mover := rfl
@[simp] theorem State.setMem_draws (s : State) (m : List Host.Cell) : (s.setMem m).draws = s.draws := rfl

/-! ## Sparse maps -/

@[simp] theorem Sp.find?_put_self {α : Type} (m : Sp α) (i : Nat) (v : α) : Sp.find? (m.put i v) i = some v := by
  induction m with
  | nil => simp [Sp.put, Sp.find?]
  | cons e m ih =>
    obtain ⟨k, w⟩ := e
    unfold Sp.put
    split
    · simp [Sp.find?]
    · split
      · simp [Sp.find?]
      · simp [Sp.find?, *]
theorem Sp.find?_put_ne {α : Type} (m : Sp α) {i j : Nat} (v : α) (h : j ≠ i) : Sp.find? (m.put i v) j = Sp.find? m j := by
  induction m with
  | nil => simp [Sp.put, Sp.find?, h]
  | cons e m ih =>
    obtain ⟨k, w⟩ := e
    unfold Sp.put
    split
    · simp [Sp.find?, h]
    · split
      · rename_i hk; subst hk; simp [Sp.find?, h]
      · simp [Sp.find?, ih]
@[simp] theorem Sp.get_put_self {α : Type} (m : Sp α) (i : Nat) (v d : α) : (m.put i v).get i d = v := by
  simp [Sp.get]
theorem Sp.get_put_ne {α : Type} (m : Sp α) {i j : Nat} (v d : α) (h : j ≠ i) : (m.put i v).get j d = m.get j d := by
  simp [Sp.get, Sp.find?_put_ne m v h]
theorem Sp.get_put {α : Type} (m : Sp α) (i j : Nat) (v d : α) : (m.put i v).get j d = if j = i then v else m.get j d := by
  split
  · next h => subst h; simp
  · next h => exact Sp.get_put_ne m v d h

/-! ## Cores and dies after an update -/

@[simp] theorem State.core_setCore_self (s : State) (c : Nat) (x : Core) : (s.setCore c x).core c = x := by
  simp [State.core]
theorem State.core_setCore_ne (s : State) {c c' : Nat} (x : Core) (h : c' ≠ c) : (s.setCore c x).core c' = s.core c' := by
  simp [State.core, Sp.get_put_ne _ _ _ h]
@[simp] theorem State.core_modCore_self (s : State) (c : Nat) (f : Core → Core) : (s.modCore c f).core c = f (s.core c) := by
  simp [State.modCore]
theorem State.core_modCore_ne (s : State) {c c' : Nat} (f : Core → Core) (h : c' ≠ c) : (s.modCore c f).core c' = s.core c' := by
  simp [State.modCore, State.core_setCore_ne s _ h]
@[simp] theorem State.die_setDie_self (s : State) (d : Nat) (x : Die) : (s.setDie d x).die d = x := by
  simp [State.die]
theorem State.die_setDie_ne (s : State) {d d' : Nat} (x : Die) (h : d' ≠ d) : (s.setDie d x).die d' = s.die d' := by
  simp [State.die, Sp.get_put_ne _ _ _ h]
@[simp] theorem State.die_modDie_self (s : State) (d : Nat) (f : Die → Die) : (s.modDie d f).die d = f (s.die d) := by
  simp [State.modDie]
theorem State.die_modDie_ne (s : State) {d d' : Nat} (f : Die → Die) (h : d' ≠ d) : (s.modDie d f).die d' = s.die d' := by
  simp [State.modDie, State.die_setDie_ne s _ h]

@[simp] theorem State.setCore_die (s : State) (c : Nat) (x : Core) (k : Nat) : (s.setCore c x).die k = s.die k := rfl
@[simp] theorem State.modCore_die (s : State) (c : Nat) (f : Core → Core) (k : Nat) : (s.modCore c f).die k = s.die k := rfl
@[simp] theorem State.setDie_core (s : State) (d : Nat) (x : Die) (k : Nat) : (s.setDie d x).core k = s.core k := rfl
@[simp] theorem State.modDie_core (s : State) (d : Nat) (f : Die → Die) (k : Nat) : (s.modDie d f).core k = s.core k := rfl
@[simp] theorem State.modPkg_core (s : State) (f : Pkg → Pkg) (k : Nat) : (s.modPkg f).core k = s.core k := rfl
@[simp] theorem State.modPkg_die (s : State) (f : Pkg → Pkg) (k : Nat) : (s.modPkg f).die k = s.die k := rfl
@[simp] theorem State.modPod_core (s : State) (f : Pod → Pod) (k : Nat) : (s.modPod f).core k = s.core k := rfl
@[simp] theorem State.modPod_die (s : State) (f : Pod → Pod) (k : Nat) : (s.modPod f).die k = s.die k := rfl
@[simp] theorem State.send_core (s : State) (p : Packet) (k : Nat) : (s.send p).core k = s.core k := rfl
@[simp] theorem State.send_die (s : State) (p : Packet) (k : Nat) : (s.send p).die k = s.die k := rfl
@[simp] theorem State.raise_core (s : State) (e : Event) (k : Nat) : (s.raise e).core k = s.core k := rfl
@[simp] theorem State.raise_die (s : State) (e : Event) (k : Nat) : (s.raise e).die k = s.die k := rfl
@[simp] theorem State.setMem_core (s : State) (m : List Host.Cell) (k : Nat) : (s.setMem m).core k = s.core k := rfl
@[simp] theorem State.setMem_die (s : State) (m : List Host.Cell) (k : Nat) : (s.setMem m).die k = s.die k := rfl

end Sys2Proof.Machine
end

