-- ==== Sys2Proof/Laws/Fire.lean ====
section
/-! SUPPORT. What the execution of an instruction word in a firing answers, said once: a value delivered, outputs held, a
trap, by what the instruction's body answers on the operands. -/

namespace Sys2Proof.Safety

open Sys2Proof.Machine

/-- Deliveries to free targets are added, and nothing else changes. -/
theorem deliverAll_free (now n : Nat) (v : Option Val) (ts : List Target) (f : Firing)
    (hn : (named ts).Nodup) (hd : ∀ t ∈ named ts, f.dels.any (fun d => d.1 == t) = false) :
    ts.foldl (deliverOne now n v) f = { f with dels := delivered f ts v } := by
  induction ts generalizing f with
  | nil => simp [delivered, named]
  | cons t ts ih =>
    by_cases ht : t = .none
    · subst ht
      have : named (.none :: ts) = named ts := by simp [named]
      rw [this] at hn hd
      simpa [delivered, deliverOne, this] using ih f hn hd
    · have he : named (t :: ts) = t :: named ts := by simp [named, ht]
      rw [he] at hn hd
      have hf := hd t (by simp)
      have : deliverOne now n v f t = { f with dels := f.dels ++ [(t, v)] } := by
        cases t <;> first | exact absurd rfl ht | simp only [deliverOne, hf]; rfl
      rw [List.foldl_cons, this, ih]
      · simp [delivered, he]
      · exact (List.nodup_cons.mp hn).2
      · intro u hu
        have h1 := hd u (by simp [hu])
        have hne : t ≠ u := fun h => (List.nodup_cons.mp hn).1 (h ▸ hu)
        simp only [List.any_append, h1, List.any_cons, List.any_nil, Bool.or_false, Bool.false_or]
        simpa using hne

/-- A value, or a null token, given to free targets. -/
theorem deliverFrom_free (s : State) (c k n : Nat) (f : Firing) (ts : List Target) (v : Option Val) (hf : Free f ts) :
    deliverFrom s c k n f ts v = setFiring s c k (some { f with dels := delivered f ts v }) := by
  rw [deliverFrom, deliverAll_free _ _ _ _ _ hf.1 hf.2]

/-- The answer of a word of a firing by what its body answers. -/
theorem fireWord_eq {s : State} {c k n : Nat} {f : Firing} {i : Instr} {vs : List Val} (h : Executes s c k n f i vs)
    (body : State → Nat → Firing → Nat → List Val → FRes) :
    fireWord s i body = .next (match body s c f n vs with
      | .ok o => applyOut s c k n f i o
      | .trap cause w4 w5 => takeTrap (counted s c) c k { cause, pos := n, w4, w5 }
      | .walk va write sp => startWalk (setFiring s c k (some { f with walks := n :: f.walks })) c va (.insn c f.ser n va write sp)
      | .park key take =>
        let own := reservedFor s key == some f.fp
        let s := if own then setHomeWaiters s key ((homeWaiters s key).filter fun w => !(w.key == key && w.reserved && w.fp == f.fp)) else s
        parkFiring (addWaiter s key f.fp take (own && take)) c k (some key)) := by
  simp only [fireWord, h.focus, h.slot, h.rdy, if_true, fire, h.live, h.go, h.vals, counted]
  rfl

set_option maxRecDepth 4000 in
/-- In a firing every instruction word runs through `fireWord`. -/
theorem coded_fire (i : Instr) (hi : i.coded = true) :
    ∃ body, ∀ (s : State) (c k n : Nat), s.focus = .firing c k n → exec i s = fireWord s i body := by
  cases i
  all_goals first
    | exact absurd hi (by decide)
    | (apply Exists.intro; intro s c k n h; obtain ⟨m, co, di, pk, ti, im, ne, du, inb, re, rx, fo, mo, dr⟩ := s
       simp only at h; subst h; rfl)

theorem gives_of_val {s : State} {c k n : Nat} {f : Firing} {i : Instr} {vs : List Val} (h : Executes s c k n f i vs)
    (hf : Free f i.shape.tgts) {body : State → Nat → Firing → Nat → List Val → FRes} (he : exec i s = fireWord s i body)
    {v : Val} {fl : Nat} (hb : body s c f n vs = .val v fl) : Gives s c k n f i (some v) fl := by
  rw [Gives, Does, he, fireWord_eq h, hb]
  simp only [FRes.val, applyOut]
  rw [deliverFrom_free]
  · simp [noteTlb, ran, delivered, counted]
    rfl
  · exact hf

/-- A body that answers a value yields it. -/
theorem yields_of {i : Instr} {vs : List Val} {v : Val} {fl : Nat} {body : State → Nat → Firing → Nat → List Val → FRes}
    (he : ∀ s, exec i s = fireWord s i body) (hb : ∀ s c f n, body s c f n vs = .val v fl) : Yields i vs v fl :=
  fun s c _ n f h hf => gives_of_val h hf (he s) (hb s c f n)

/-- A body that answers outputs holds them. -/
theorem holds_of {s : State} {c k n : Nat} {f : Firing} {i : Instr} {vs : List Val} (h : Executes s c k n f i vs)
    {body : State → Nat → Firing → Nat → List Val → FRes} (he : exec i s = fireWord s i body) (hl : lateLoad i = false)
    {outs : List Out} (hb : body s c f n vs = .ok { outs }) : Holds s c k n f i outs := by
  rw [Holds, Does, he, fireWord_eq h, hb]
  simp [applyOut, noteTlb, ran, counted, hl]
  rfl

/-- A body that answers a trap takes it. -/
theorem traps_of {s : State} {c k n : Nat} {f : Firing} {i : Instr} {vs : List Val} (h : Executes s c k n f i vs)
    {body : State → Nat → Firing → Nat → List Val → FRes} (he : exec i s = fireWord s i body) {cause w4 w5 : Nat}
    (hb : body s c f n vs = .trap cause w4 w5) : Traps s c k n i cause w4 w5 := by
  rw [Traps, he, fireWord_eq h, hb]

end Sys2Proof.Safety
end

