-- ==== Sys2Proof/Laws/Int.lean ====
section
/-! SUPPORT. Typed integers: what an operand read at a type and a result written at it are, in bit-vector terms. -/

namespace Sys2Proof.Safety

open Sys2Proof.Machine

theorem asS_eq_toInt (x n : Nat) (hn : 0 < n) : Num.asS x n = (BitVec.ofNat n x).toInt := by
  unfold Num.asS
  rw [BitVec.toInt_eq_toNat_cond]
  simp only [BitVec.toNat_ofNat]
  have h2 : x % 2 ^ n < 2 ^ n := Nat.mod_lt _ (Nat.two_pow_pos n)
  rcases n with _ | n
  · omega
  · have : 2 ^ (n + 1) = 2 * 2 ^ n := by rw [Nat.pow_succ, Nat.mul_comm]
    split <;> split <;> omega

theorem wrap_eq_toNat (x : Int) (n : Nat) : Num.wrap x n = (BitVec.ofInt n x).toNat := by
  simp [Num.wrap, BitVec.toNat_ofInt]

theorem low_eq (t : ITy) (v : Val) : low t v = BitVec.ofNat t.bits v.nat := by
  simp [low, Val.nat, BitVec.ofNat_toNat]

theorem bits_le (t : ITy) : t.bits ≤ 64 := by rcases t with w | w <;> cases w <;> decide
theorem bits_pos (t : ITy) : 0 < t.bits := by rcases t with w | w <;> cases w <;> decide

/-- An operand read at a type (R19). -/
theorem rdInt_eq (t : ITy) (v : Val) : rdInt t v.nat = if t.signed then (low t v).toInt else ((low t v).toNat : Int) := by
  rw [low_eq]
  unfold rdInt
  split
  · rw [asS_eq_toInt _ _ (bits_pos t)]
  · simp

/-- A pattern written at a type (R19). -/
theorem putPat_eq (t : ITy) (p : Nat) : putPat t p = wide t (BitVec.ofNat t.bits p) := by
  unfold putPat extPat wide Val.ofNat
  by_cases h : t.signed = true
  · simp only [h, if_true]
    congr 1
    rw [asS_eq_toInt _ _ (bits_pos t), wrap_eq_toNat, BitVec.ofNat_toNat, BitVec.setWidth_eq]
    unfold BitVec.signExtend
    congr 2
    apply BitVec.eq_of_toNat_eq
    simp
  · simp only [h]
    congr 1
    apply BitVec.eq_of_toNat_eq
    have := bits_le t
    simp
/-- An exact integer written at a type (R20). -/
theorem putInt_eq (t : ITy) (x : Int) : putInt t x = wide t (BitVec.ofInt t.bits x) := by
  have : putInt t x = putPat t (Num.wrap x t.bits) := rfl
  rw [this, putPat_eq, wrap_eq_toNat, BitVec.ofNat_toNat, BitVec.setWidth_eq]

end Sys2Proof.Safety
end

