-- ==== Sys2Proof/Laws/Mem.lean ====
section
/-! SUPPORT. Memory: a read after a write, and that every operation keeps the canonical form. -/

namespace Sys2Proof.Machine

/-! ## One byte -/

theorem memGet_memSet (m : List Host.Cell) (a b : Nat) (v : Byte) (h : memWfFrom 0 m = true) :
    memGet (memSet m a v) b = if b = a then v else memGet m b := by
  suffices ∀ lo m, memWfFrom lo m = true → memGet (memSet m a v) b = if b = a then v else memGet m b from this 0 m h
  have low : ∀ m lo a, memWfFrom lo m = true → a < lo → memGet m a = unlisted := by
    intro m
    induction m with
    | nil => intro _ _ _ _; rfl
    | cons c m ih =>
      intro lo a h hl
      simp only [memWfFrom, Bool.and_eq_true, decide_eq_true_eq] at h
      have : a ≠ c.1 := by omega
      simp [memGet, this, ih (c.1 + 1) a h.2 (by omega)]
  intro lo m
  induction m generalizing lo with
  | nil =>
    intro _
    unfold memSet
    split
    · next hv => by_cases hb : b = a <;> simp [memGet, hb, hv]
    · by_cases hb : b = a <;> simp [memGet, hb]
  | cons c m ih =>
    intro h
    simp only [memWfFrom, Bool.and_eq_true, decide_eq_true_eq] at h
    obtain ⟨⟨hlo, hc⟩, hm⟩ := h
    unfold memSet
    split
    · next hlt =>
      split
      · next hv =>
        by_cases hb : b = a
        · subst hb
          have : b ≠ c.1 := by omega
          simp [memGet, this, low m (c.1 + 1) b hm (by omega), hv]
        · simp [hb]
      · by_cases hb : b = a <;> simp [memGet, hb]
    · split
      · next hge heq =>
        split
        · next hv =>
          by_cases hb : b = a
          · subst hb; simp [hv, low m (c.1 + 1) b hm (by omega)]
          · have : b ≠ c.1 := by omega
            simp [memGet, hb, this]
        · by_cases hb : b = a
          · simp [memGet, hb]
          · have : b ≠ c.1 := by omega
            simp [memGet, hb, this]
      · next hge hne =>
        by_cases hb : b = c.1
        · have : c.1 ≠ a := fun h => hne h.symm
          simp [memGet, hb, this]
        · simp [memGet, hb, ih (c.1 + 1) hm]

/-- A bound below can be lowered. -/
theorem memWfFrom_mono (m : List Host.Cell) {lo lo' : Nat} (hl : lo' ≤ lo) (h : memWfFrom lo m = true) : memWfFrom lo' m = true := by
  cases m with
  | nil => rfl
  | cons c m =>
    simp only [memWfFrom, Bool.and_eq_true, decide_eq_true_eq] at h ⊢
    exact ⟨⟨by omega, h.1.2⟩, h.2⟩

theorem memWfFrom_memSet (m : List Host.Cell) (lo a : Nat) (v : Byte) (ha : lo ≤ a) (h : memWfFrom lo m = true) :
    memWfFrom lo (memSet m a v) = true := by
  induction m generalizing lo with
  | nil => unfold memSet; split <;> simp_all [memWfFrom]
  | cons c m ih =>
    have h0 := h
    simp only [memWfFrom, Bool.and_eq_true, decide_eq_true_eq] at h
    obtain ⟨⟨hlo, hc⟩, hm⟩ := h
    unfold memSet
    split
    · split
      · exact h0
      · simp only [memWfFrom, Bool.and_eq_true, decide_eq_true_eq]
        refine ⟨⟨ha, by simpa using ‹_›⟩, ⟨by omega, hc⟩, hm⟩
    · split
      · split
        · exact memWfFrom_mono m (by omega) hm
        · simp only [memWfFrom, Bool.and_eq_true, decide_eq_true_eq]
          exact ⟨⟨ha, by simpa using ‹_›⟩, memWfFrom_mono m (by omega) hm⟩
      · simp only [memWfFrom, Bool.and_eq_true, decide_eq_true_eq]
        exact ⟨⟨hlo, hc⟩, ih (c.1 + 1) (by omega) hm⟩

theorem memWfFrom_filter (p : Host.Cell → Bool) (m : List Host.Cell) (lo : Nat) (h : memWfFrom lo m = true) :
    memWfFrom lo (m.filter p) = true := by
  induction m generalizing lo with
  | nil => rfl
  | cons c m ih =>
    simp only [memWfFrom, Bool.and_eq_true, decide_eq_true_eq] at h
    obtain ⟨⟨hlo, hc⟩, hm⟩ := h
    by_cases hp : p c = true
    · simp only [List.filter_cons, hp, if_true, memWfFrom, Bool.and_eq_true, decide_eq_true_eq]
      exact ⟨⟨hlo, hc⟩, ih _ hm⟩
    · simp only [List.filter_cons, hp]
      exact memWfFrom_mono _ (by omega) (ih _ hm)

theorem memSet_wf {m : List Host.Cell} (h : Memory.wf m = true) (a : Nat) (v : Byte) : Memory.wf (memSet m a v) = true :=
  memWfFrom_memSet m 0 a v (Nat.zero_le a) h
theorem filter_wf {m : List Host.Cell} (h : Memory.wf m = true) (p : Host.Cell → Bool) : Memory.wf (m.filter p) = true :=
  memWfFrom_filter p m 0 h

/-! ## Several bytes -/

theorem memPut_wf {m : List Host.Cell} (h : Memory.wf m = true) (a v n : Nat) : Memory.wf (memPut m a v n) = true := by
  induction n generalizing m a v with
  | zero => exact h
  | succ n ih => exact ih (memSet_wf h _ _) _ _
theorem setTags_wf {m : List Host.Cell} (h : Memory.wf m = true) (k : Nat) (f x : Bool) : Memory.wf (setTags m k f x) = true :=
  memSet_wf h _ _
theorem putWord_wf {m : List Host.Cell} (h : Memory.wf m = true) (k : Nat) (w : TWord) : Memory.wf (putWord m k w) = true :=
  setTags_wf (memPut_wf h _ _ _) _ _ _
theorem setPoison_wf {m : List Host.Cell} (h : Memory.wf m = true) (p : Nat) (b : Bool) : Memory.wf (setPoison m p b) = true :=
  memSet_wf h _ _
/-- A fold of steps that keep the form keeps it. -/
theorem foldl_wf {α : Type} (f : List Host.Cell → α → List Host.Cell) (hf : ∀ m a, Memory.wf m = true → Memory.wf (f m a) = true)
    (l : List α) {m : List Host.Cell} (h : Memory.wf m = true) : Memory.wf (l.foldl f m) = true := by
  induction l generalizing m with
  | nil => exact h
  | cons a l ih => exact ih (hf m a h)
theorem poisonRange_wf {m : List Host.Cell} (h : Memory.wf m = true) (p n : Nat) (b : Bool) : Memory.wf (poisonRange m p n b) = true :=
  foldl_wf _ (fun _ _ h => setPoison_wf h _ _) _ h
theorem memMove_wf {m : List Host.Cell} (h : Memory.wf m = true) (src dst n : Nat) : Memory.wf (memMove m src dst n) = true :=
  foldl_wf _ (fun _ _ h => memSet_wf h _ _) _ (filter_wf h _)
theorem memWithout_wf {m : List Host.Cell} (h : Memory.wf m = true) (p : Nat → Bool) : Memory.wf (memWithout m p) = true :=
  filter_wf h _

/-- A byte outside a range that is written reads as before. -/
theorem memGet_memPut_of_not_mem {m : List Host.Cell} (h : Memory.wf m = true) (a v n b : Nat) (hb : b < a ∨ a + n ≤ b) :
    memGet (memPut m a v n) b = memGet m b := by
  induction n generalizing m a v with
  | zero => rfl
  | succ n ih =>
    have hne : b ≠ a := by omega
    rw [memPut, ih (memSet_wf h _ _) _ _ (by omega), memGet_memSet _ _ _ _ h, if_neg hne]
/-- A byte of a range that is written reads as the byte written. -/
theorem memGet_memPut_of_mem {m : List Host.Cell} (h : Memory.wf m = true) (a v n k : Nat) (hk : k < n) :
    memGet (memPut m a v n) (a + k) = BitVec.ofNat 8 (v / 256 ^ k) := by
  induction n generalizing m a v k with
  | zero => omega
  | succ n ih =>
    cases k with
    | zero =>
      rw [memPut, memGet_memPut_of_not_mem (memSet_wf h _ _) _ _ _ _ (by omega), memGet_memSet _ _ _ _ h]
      simp
    | succ k =>
      rw [memPut, show a + (k + 1) = a + 1 + k by omega, ih (memSet_wf h _ _) _ _ k (by omega), Nat.pow_succ, Nat.mul_comm, Nat.div_div_eq_div_mul]
/-- Numbers read over bytes that agree agree. -/
theorem memNat_congr {m m' : List Host.Cell} (a n : Nat) (h : ∀ b, a ≤ b → b < a + n → memGet m b = memGet m' b) :
    memNat m a n = memNat m' a n := by
  induction n generalizing a with
  | zero => rfl
  | succ n ih => rw [memNat, memNat, h a (by omega) (by omega), ih (a + 1) fun b _ _ => h b (by omega) (by omega)]
/-- A number written reads back, as far as its bytes reach. -/
theorem memNat_memPut {m : List Host.Cell} (h : Memory.wf m = true) (a v n : Nat) : memNat (memPut m a v n) a n = v % 256 ^ n := by
  induction n generalizing m a v with
  | zero => simp [memNat, Nat.mod_one]
  | succ n ih =>
    have h0 := memGet_memPut_of_mem h a v (n + 1) 0 (by omega)
    rw [memNat, show memGet (memPut m a v (n + 1)) a = BitVec.ofNat 8 v by simpa using h0, memPut, ih (memSet_wf h _ _)]
    rw [BitVec.toNat_ofNat, Nat.pow_succ 256 n, Nat.mul_comm (256 ^ n) 256, Nat.mod_mul (x := v) (a := 256) (b := 256 ^ n)]
theorem memNat_memPut_of_disjoint {m : List Host.Cell} (h : Memory.wf m = true) (a v n b k : Nat) (hd : b + k ≤ a ∨ a + n ≤ b) :
    memNat (memPut m a v n) b k = memNat m b k :=
  memNat_congr b k fun c _ _ => memGet_memPut_of_not_mem h a v n c (by omega)

/-! ## Tags -/

theorem keyF_setTags {m : List Host.Cell} (h : Memory.wf m = true) (k j : Nat) (f x : Bool) :
    keyF (setTags m k f x) j = if j / 8 = k / 8 then f else keyF m j := by
  unfold keyF setTags
  rw [memGet_memSet _ _ _ _ h]
  by_cases hj : j / 8 = k / 8
  · cases f <;> cases x <;> simp [tagKey, hj, bnat]
  · rw [if_neg (by simpa [tagKey] using hj), if_neg hj]
theorem keyX_setTags {m : List Host.Cell} (h : Memory.wf m = true) (k j : Nat) (f x : Bool) :
    keyX (setTags m k f x) j = if j / 8 = k / 8 then x else keyX m j := by
  unfold keyX setTags
  rw [memGet_memSet _ _ _ _ h]
  by_cases hj : j / 8 = k / 8
  · cases f <;> cases x <;> simp [tagKey, hj, bnat]
  · rw [if_neg (by simpa [tagKey] using hj), if_neg hj]
/-- A tag write leaves every byte of data. -/
theorem memGet_setTags_data {m : List Host.Cell} (h : Memory.wf m = true) (k : Nat) (f x : Bool) (b : Nat) (hb : b ≠ tagKey k) :
    memGet (setTags m k f x) b = memGet m b := by
  unfold setTags; rw [memGet_memSet _ _ _ _ h, if_neg hb]

end Sys2Proof.Machine
end

