-- ==== Sys2Proof/Laws/Ops.lean ====
section
/-! SUPPORT. What the small shared operations can do, said once: event counters, status bits, strays, completion tokens. -/

namespace Sys2Proof.Machine

/-- What counting on core c can do: its event counters, and wraps of them that are due. -/
structure Counted (s t : State) (c : Nat) : Prop where
  rest : t = { s with cores := t.cores, due := t.due }
  other : ∀ j, j ≠ c → t.core j = s.core j
  own : ∃ m, t.core c = { s.core c with evc := m }
  due : ∃ es, t.due = s.due ++ es ∧ ∀ e ∈ es, ∃ k < 4, e = .eventCounterWrap c k

theorem Counted.refl (s : State) (c : Nat) : Counted s s c :=
  ⟨rfl, fun _ _ => rfl, ⟨_, rfl⟩, ⟨[], by simp, by simp⟩⟩
theorem Counted.trans {s t u : State} {c : Nat} (h : Counted s t c) (g : Counted t u c) : Counted s u c := by
  obtain ⟨_, h2⟩ := h.own
  obtain ⟨m, g2⟩ := g.own
  obtain ⟨es, h3, h4⟩ := h.due
  obtain ⟨fs, g3, g4⟩ := g.due
  refine ⟨by rw [g.rest, h.rest], fun j hj => (g.other j hj).trans (h.other j hj), ⟨m, by rw [g2, h2]⟩, ⟨es ++ fs, by rw [g3, h3, List.append_assoc], ?_⟩⟩
  intro e he
  exact (List.mem_append.mp he).elim (h4 e) (g4 e)

theorem countEv_counted (s : State) (c code n : Nat) : Counted s (countEv s c code n) c := by
  unfold countEv
  have h : ∀ (l : List Nat) (s : State), (∀ k ∈ l, k < 4) → Counted s (l.foldl (fun s k =>
      let co := s.core c
      if code ≠ 0 ∧ bits co.evsel.toNat (8 * k + 7) (8 * k) = code then
        let v := co.evc.get k 0 + n
        let s := s.setCore c { co with evc := co.evc.put k (wrap48 v) }
        if v ≥ 2 ^ 48 then s.raise (.eventCounterWrap c k) else s
      else s) s) c := by
    intro l
    induction l with
    | nil => exact fun s _ => Counted.refl s c
    | cons k l ih =>
      intro s hl
      rw [List.foldl_cons]
      refine Counted.trans ?_ (ih _ fun j hj => hl j (by simp [hj]))
      have hk := hl k (by simp)
      dsimp only
      split
      · split
        · exact ⟨rfl, fun j hj => by simp [State.core_setCore_ne _ _ hj], ⟨_, by simp; rfl⟩, ⟨[.eventCounterWrap c k], by simp, by simpa using hk⟩⟩
        · exact ⟨rfl, fun j hj => State.core_setCore_ne _ _ hj, ⟨_, by simp; rfl⟩, ⟨[], by simp, by simp⟩⟩
      · exact Counted.refl s c
  exact h _ s (by simp)

/-- Status bits are raised in ASTAT of one core, and nothing else changes. -/
theorem core_setAstat (s : State) (c fl : Nat) : (setAstat s c fl).core c = { s.core c with astat := (s.core c).astat ||| BitVec.ofNat 64 fl } := by
  unfold setAstat
  split
  · next h => subst h; simp
  · simp
theorem core_setAstat_ne (s : State) {c j : Nat} (fl : Nat) (h : j ≠ c) : (setAstat s c fl).core j = s.core j := by
  unfold setAstat
  split
  · rfl
  · exact State.core_modCore_ne s _ h
theorem setAstat_rest (s : State) (c fl : Nat) : setAstat s c fl = { s with cores := (setAstat s c fl).cores } := by
  unfold setAstat
  split <;> rfl

/-- A stray changes STRAY_TOK, STRAY_FP and event counters of its core only (R208). -/
theorem stray_core (s : State) (c fp slot : Nat) :
    ∃ m, (stray s c fp slot).core c = { s.core c with
      evc := m
      strayTok := BitVec.ofNat 64 (wrap48 ((s.core c).strayTok.toNat + 1))
      strayFp := if bit (s.core c).strayFp.toNat 39 then (s.core c).strayFp
                 else BitVec.ofNat 64 (2 ^ 39 + min slot 127 * 2 ^ 32 + fp % 2 ^ 32) } := by
  obtain ⟨m, h⟩ := (countEv_counted (s.modCore c fun co =>
    { co with
      strayTok := BitVec.ofNat 64 (wrap48 (co.strayTok.toNat + 1))
      strayFp := if bit co.strayFp.toNat 39 then co.strayFp
                 else BitVec.ofNat 64 (2 ^ 39 + min slot 127 * 2 ^ 32 + fp % 2 ^ 32) }) c 0x06 1).own
  exact ⟨m, by unfold stray; rw [h]; simp⟩
theorem stray_core_ne (s : State) {c j : Nat} (fp slot : Nat) (h : j ≠ c) : (stray s c fp slot).core j = s.core j := by
  unfold stray
  rw [(countEv_counted _ c 0x06 1).other j h, State.core_modCore_ne _ _ h]

/-- A completion sends one token, or none where the command has no DEST (R222). -/
theorem sendDone_cases (s : State) (r : Released) (v : Val) :
    (∃ slot, r.i.shape.slots.head? = some slot ∧ sendDone s r v = s.send (.token { fp := r.fp, slot := slot.toNat, v, src := some r.core, die := cmdDie r, eng := cmdEng r.i })) ∨
    (r.i.shape.slots.head? = none ∧ sendDone s r v = s) := by
  unfold sendDone
  split
  · next slot h => exact .inl ⟨slot, h, rfl⟩
  · next h => exact .inr ⟨h, rfl⟩
theorem sendDone_rest (s : State) (r : Released) (v : Val) : sendDone s r v = { s with net := (sendDone s r v).net } := by
  unfold sendDone
  split <;> rfl

end Sys2Proof.Machine
end

