-- ==== Sys2Proof/Tests/Slice0.lean ====
section
/-! SUPPORT. Tests: a word of every coded instruction written from the spec's tables, ill-formed terms refused, and
small one-step examples; each statement of Obligations.lean has a state here that meets its hypotheses. The expected
values come from the spec's rules and worked examples, by hand. -/

namespace Sys2Proof.Tests

open Sys2Proof.Machine Sys2Proof.Safety

/-- The words decode to the instruction, which is well formed and has these words as its encoding. -/
def reads (e : List Nat × Instr) : Bool :=
  let ws := e.1.map (BitVec.ofNat 32)
  (match decodeWords ws with | .ok i => i == e.2 | .error _ => false) && e.2.wf && encode e.2 == ws

set_option maxRecDepth 100000


/-! ## A firing with one instruction -/

/-- A value without X. -/
def v (n : Nat) : Val := natVal n
/-- A value that carries X. -/
def x (n : Nat) : Val := ⟨BitVec.ofNat 64 n, true⟩
/-- Core 5, frame at word 0x10100, task 7: the instruction stands alone in block slot 0 with its operands delivered and its
predicate, if it has one, passed. -/
def fi (i : Instr) (vs : List Val) (handler : Bool := true) : Firing :=
  { fp := mkFp 5 0x10100, task := 7, ser := 1, addr := 0x100, hdr := { (default : Header) with handler, take := true, nins := 2 }
    reads := [], writes := [], code := encode i, size := 8, cls := 1, arr := 0
    dels := (match i.shape.pred with
        | .always => []
        | p => [(posP 0, some ⟨if p = .ifTrue then 1 else 0, false⟩)])
      ++ (opPositions i.shape 0).zipWith (fun p w => (p, some w)) vs }
/-- The state around it: partition 1 has die 0 to itself, the other parts are as after reset. -/
def demo (i : Instr) (vs : List Val) (handler : Bool := true) (m : List Host.Cell := []) : State :=
  { State.reset with
    mem := m, tick := 9, pkg := { parts := [(1, { ctl := 0x8000000000000001 })] }
    cores := [(5, { slots := [some (fi i vs handler), none, none, none] })], focus := .firing 5 0 0 }

/-- Every core that the state lists, changed. -/
def change (s : State) (f : Core → Core) : State := { s with cores := s.cores.map fun e => (e.1, f e.2) }
/-- The premises of `Executes`, and that the targets are free, as a test. -/
def runs (s : State) (c k n : Nat) (f : Firing) (i : Instr) (vs : List Val) : Bool :=
  s.focus == .firing c k n && firingAt s c k == some f && ready f n i && !anyNull f (allPositions i.shape n)
    && predRes f i.shape n == .pass && valuesAt f (opPositions i.shape n) == vs
    && decide (named i.shape.tgts).Nodup && (named i.shape.tgts).all fun t => f.dels.all fun d => d.1 != t

/-- The test gives the premises. -/
theorem executes_of_runs {s : State} {c k n : Nat} {f : Firing} {i : Instr} {vs : List Val} (h : runs s c k n f i vs = true) :
    Executes s c k n f i vs ∧ Free f i.shape.tgts := by
  simp only [runs, Bool.and_eq_true, beq_iff_eq, Bool.not_eq_true', decide_eq_true_eq, List.all_eq_true, bne_iff_ne] at h
  obtain ⟨⟨⟨⟨⟨⟨⟨h1, h2⟩, h3⟩, h4⟩, h5⟩, h6⟩, h7⟩, h8⟩ := h
  exact ⟨⟨h1, h2, h3, h4, h5, h6⟩, h7, fun t ht => by simpa using h8 t ht⟩

/-- The instruction runs on the operands in `demo`. -/
def meets (i : Instr) (vs : List Val) (handler : Bool := true) : Bool := runs (demo i vs handler) 5 0 0 (fi i vs handler) i vs
/-- What it delivers, and the status bits it raises. -/
def gets (i : Instr) (vs : List Val) : Option (List (Option Val) × Nat) :=
  match exec i (demo i vs) with
  | .next t => (firingAt t 5 0).map fun f => ((f.dels.drop (fi i vs).dels.length).map (·.2), f.astat)
  | _ => none
/-- It meets the premises and delivers the value w, raising fl. -/
def yields (e : Instr × List Val × Val × Nat) : Bool :=
  meets e.1 e.2.1 && gets e.1 e.2.1 == some ([some e.2.2.1], e.2.2.2)
/-- The cause and words 4 and 5 of the trap it takes: word 0, 4 and 5 of the record in the fault log of die 0. -/
def traps (s : State) (i : Instr) : Option (Nat × Nat × Nat) :=
  match exec i s with
  | .next t => match (t.die 0).log with
    | [(_, _ :: _ :: w0 :: _ :: _ :: _ :: w4 :: w5 :: _)] => if firingAt t 5 0 = none then some (w0.toNat, w4.toNat, w5.toNat) else none
    | _ => none
  | _ => none
/-- How many outputs it holds to the commit. -/
def held (s : State) (i : Instr) : Option Nat :=
  match exec i s with
  | .next t => (firingAt t 5 0).map fun f => f.outs.length
  | _ => none

/-- One target, no predicate. -/
def g : GF := ⟨.always, .write 0, .none⟩
def h : TF := ⟨.always, .write 0⟩

/-! ## Integer: results worked out by hand from R137 to R143 -/

theorem test_integer : ([
    (.add (.s .w8) g, [v 0x7F, v 1], v 0xFFFFFFFFFFFFFF80, 0), (.sub (.n .w16) ⟨.ifTrue, .write 1, .none⟩, [v 0, v 1], v 0xFFFF, 0),
    (.mul (.n .w32) g, [v 0xFFFFFFFF, v 0xFFFFFFFF], v 1, 0), (.mulh .w8 g, [v 0x80, v 0x80], v 0x40, 0),
    (.mulhn .w8 g, [v 0xFF, v 0xFF], v 0xFE, 0), (.div .w8 g, [v 0x80, v 0xFF], v 0xFFFFFFFFFFFFFF80, 0), (.div .w64 g, [v 5, v 0], x 0, 16),
    (.divn .w8 g, [v 0xFF, v 16], v 15, 0), (.rem .w32 g, [v 0xFFFFFFF9, v 2], v 0xFFFFFFFFFFFFFFFF, 0), (.remn .w8 g, [v 7, v 0x100], x 0, 16),
    (.min .w8 g, [v 0x80, v 0x7F], v 0xFFFFFFFFFFFFFF80, 0), (.minn .w8 g, [v 0x80, v 0x7F], v 0x7F, 0),
    (.max .w8 g, [v 0x80, v 0x7F], v 0x7F, 0), (.maxn .w8 g, [v 0x80, v 0x7F], v 0x80, 0)] : List (Instr × List Val × Val × Nat)).all yields = true := by decide
theorem test_bitwise : ([
    (.and (.s .w8) g, [v 0xF0, v 0xCC], v 0xFFFFFFFFFFFFFFC0, 0), (.or (.n .w8) g, [v 0xF0, v 0x0C], v 0xFC, 0),
    (.xor (.n .w64) g, [v 0xFF, v 0x0F], v 0xF0, 0), (.andn (.n .w16) g, [v 0xFFFF, v 0x00F0], v 0xFF0F, 0), (.orn (.n .w8) g, [v 1, v 0xF0], v 0x0F, 0),
    (.shl (.n .w8) g, [v 0xFF, v 8], v 0, 0), (.shr (.s .w8) g, [v 0x80, v 7], v 1, 0), (.sar (.s .w8) g, [v 0x80, v 200], v 0xFFFFFFFFFFFFFFFF, 0),
    (.rot (.n .w8) g, [v 0x81, v 9], v 0xC0, 0), (.teq (.n .w8) g, [v 0x100, v 0], v 1, 0), (.tne (.s .w64) g, [v 1, v 2], v 1, 0),
    (.tlt .w8 g, [v 0x80, v 0], v 1, 0), (.tltn .w8 g, [v 0x80, v 0], v 0, 0), (.tle .w16 g, [v 5, v 5], v 1, 0), (.tlen .w8 g, [v 0xFF, v 1], v 0, 0),
    (.neg (.s .w8) g, [v 0x80], v 0xFFFFFFFFFFFFFF80, 0), (.abs (.s .w16) g, [v 0xFFFF], v 1, 0), (.clz (.n .w16) g, [v 1], v 15, 0),
    (.ctz (.n .w32) g, [v 0], v 32, 0), (.popc (.s .w8) g, [v 0x1FF], v 8, 0), (.bswap (.s .w16) g, [v 0x1280], v 0xFFFFFFFFFFFF8012, 0)]
      : List (Instr × List Val × Val × Nat)).all yields = true := by decide
theorem test_moves_and_immediates : ([
    (.mov (.s .w8) .ifFalse (.write 3), [x 0x80], x 0xFFFFFFFFFFFFFF80, 0), (.mov2 (.n .w8) g, [v 0x180], v 0x80, 0), (.mkx (.n .w8) g, [v 0x1FF], x 0xFF, 0),
    (.clrx (.n .w64) g, [x 7], v 7, 0), (.addi (.n .w8) h 0x1FF, [v 0], v 0xFF, 0), (.teqi (.n .w8) h 0x1FF, [v 0xFF], v 1, 0), (.tnei (.s .w8) h 1, [v 1], v 0, 0),
    (.tlti .w8 h 0x1FF, [v 0x80], v 1, 0), (.tltni .w8 h 0x1FF, [v 0x80], v 1, 0), (.tlei .w8 h 0, [v 0], v 1, 0), (.tleni .w8 h 0, [v 1], v 0, 0),
    (.sext (.s .w64) h 64, [v 0x8000000000000000], v 0x8000000000000000, 0), (.sext (.n .w8) h 1, [v 3], v 0xFF, 0), (.zext (.s .w32) h 1, [v 3], v 1, 0),
    (.genc 0x8000 (.write 0), [], v 0xFFFFFFFFFFFF8000, 0), (.appc 0x1234 (.write 0), [v 0xABCD], v 0xABCD1234, 0), (.appc 1 (.write 0), [x 5], x 0, 0),
    (.madd h (.s .w8), [v 16, v 8, v 1], v 0xFFFFFFFFFFFFFF81, 0), (.sel h (.n .w8), [v 2, v 5, v 0x106], v 6, 0), (.sel h (.s .w64), [v 3, v 5, v 6], v 5, 0),
    (.bfx h (.s .w64) 63 0, [v 0x8000000000000000], v 0xFFFFFFFFFFFFFFFF, 0), (.bfx h (.n .w64) 8 7, [v 0xABCD], v 0xAB, 0),
    (.bfi h (.n .w16) 4 3, [v 0xFFFF, v 0], v 0xFF0F, 0)] : List (Instr × List Val × Val × Nat)).all yields = true := by decide
/-- Each instruction whose operand carries X gives an error token and raises nothing (R137). -/
theorem test_error_operand : ([.pand g, .por g, .add (.s .w8) g, .div .w8 g, .shl (.n .w8) g, .teq (.n .w8) g, .bfi h (.n .w16) 4 3]
    : List Instr).all (fun i => spoiled i && yields (i, [x 5, v 0], x 0, 0)) = true := by decide
theorem test_logic_and_identity : ([
    (.pand g, [v 3, v 5], v 1, 0), (.por g, [v 2, v 4], v 0, 0), (.pnot g, [v 2], v 1, 0), (.testX g, [x 7], v 1, 0), (.testX g, [v 7], v 0, 0),
    (.self g, [], v (mkFp 5 0x10100), 0), (.taskid g, [], v 7, 0), (.tick g, [], v 9, 0)] : List (Instr × List Val × Val × Nat)).all yields = true := by decide
theorem test_null : meets (.null g) [] = true ∧ gets (.null g) [] = some ([none], 0) := by decide
/-- The first exit is recorded with its kind and task; a second one traps MULTI_EXIT. -/
theorem test_exits : ([.broEnd .always, .broKeep .ifTrue, .broRearm .ifFalse, .broCont .always 7] : List Instr).all (fun i =>
    meets i [] && (match exec i (demo i []) with | .next t => (firingAt t 5 0).any fun f => f.exit == some (0, i) | _ => false)) = true := by decide
theorem test_second_exit_traps :
    let i := Instr.broEnd .always
    let f := { fi i [] with exit := some (3, i) }
    let s := setFiring (demo i []) 5 0 (some f)
    runs s 5 0 0 f i [] = true ∧ traps s i = some (8, 0, 0) := by decide

/-! ## F32: patterns worked out by hand from R26, R28, R145 to R148 -/

theorem test_float : ([
    (.fadd g, [v 0x3F800000, v 0x33800000], v 0x3F800000, 0), (.fsub g, [v 0x80000000, v 0], v 0x80000000, 0),
    (.fmul g, [v 0x7F7FFFFF, v 0x40000000], v 0x7F7FFFFF, 1), (.fdiv g, [v 0x3F800000, v 0x40400000], v 0x3EAAAAAB, 0),
    (.fdiv g, [v 0x3F800000, v 0x80000000], x 0, 16), (.fmin g, [v 0, v 0x80000000], v 0x80000000, 0), (.fmax g, [v 0x80000000, v 0], v 0, 0),
    (.feq g, [v 0, v 0x80000000], v 1, 0), (.flt g, [v 0xBF800000, v 0], v 1, 0), (.fle g, [v 0x3F800000, v 0], v 0, 0),
    (.fabs g, [v 0xC0000000], v 0x40000000, 0), (.fneg g, [v 0], v 0x80000000, 0)] : List (Instr × List Val × Val × Nat)).all yields = true := by decide
theorem test_float_roots : ([
    (.fsqrt g, [v 0x80000000], v 0x80000000, 0), (.fsqrt g, [v 0xBF800000], x 0, 16), (.fexp2 g, [v 0xC0000000], v 0x3E800000, 0),
    (.flog2 g, [v 0x3E800000], v 0xC0000000, 0), (.flog2 g, [v 0], x 0, 16), (.frcp g, [v 0x40000000], v 0x3F000000, 0), (.frcp g, [v 0], x 0, 16),
    (.frsq g, [v 0x40800000], v 0x3F000000, 0), (.fma h, [v 0x3F800001, v 0x3F800001, v 0xBF800002], v 0x28800000, 0)]
      : List (Instr × List Val × Val × Nat)).all yields = true := by decide
/-- An error pattern raises PCODE, an operand with X nothing; a conversion out of range raises CVT. -/
theorem test_float_errors : ([
    (.fadd g, [v 0x7F800000, v 0], x 0, 64), (.fadd g, [x 0, v 0x7F800000], x 0, 64), (.fneg g, [x 0], x 0, 0), (.fma h, [v 0, v 0, v 0xFF800000], x 0, 64),
    (.fcvt h .f32 (.int (.n .w8)), [v 0x40200000], v 2, 0), (.fcvt h .f32 (.int (.n .w8)), [v 0xBF800000], x 0, 32),
    (.fcvt h (.int (.s .w8)) .f32, [v 0x80], v 0xC3000000, 0), (.fcvt h .e4m3 .e5m2, [v 0x7F], x 0, 64), (.fcvt h .f32 .e4m3, [v 0x49742400], v 0x7E, 1),
    (.fcvt h .f32 .bf16, [x 1], x 0, 0)] : List (Instr × List Val × Val × Nat)).all yields = true := by decide
/-- 1 and −2 are finite, 1 positive; the pattern 0x7F800000 stands for no number. -/
theorem test_finite : finite (v 0x3F800000) ∧ finite (v 0xC0000000) ∧ (Num.f32.read 0x7F800000).isSome = false := by
  refine ⟨⟨by decide, by decide, by decide⟩, ⟨by decide, by decide, by decide⟩, by decide⟩

/-! ## Frames, tokens -/

/-- A frame of core 5 at word 0x10100: task 7, eight slots, state WAITING; slot 3 full with 0x77. -/
def fp : Nat := mkFp 5 0x10100
def framed (s : State) : State :=
  let m := putWord (putWord [] (hdrKey fp 0) ⟨0x08010007, true, false⟩) (slotKey fp 3) ⟨0x77, true, false⟩
  { s with mem := m, cores := s.cores.map fun e => (e.1, { e.2 with frames := [0x10100] }) }

/-- A pointer that R114 accepts, and three that it does not: a bit of 63:32, field 19:17, WORD<1:0>. -/
theorem test_good_pointer : goodFp (demo (.ffree .always) []) (v fp) ∧ ¬ goodFp (demo (.ffree .always) []) (v (fp + 2 ^ 32)) ∧
    ¬ goodFp (demo (.ffree .always) []) (v (fp + 2 ^ 17)) ∧ ¬ goodFp (demo (.ffree .always) []) (v (fp + 1)) := by
  unfold goodFp; decide
theorem test_sends : ([(.send .ifTrue 5, [v fp, x 1]), (.sendx .always 127, [v fp, v 1]), (.sendi .always, [v fp, v 1, v 2]), (.ffree .ifFalse, [v (fp + 16)])]
    : List (Instr × List Val)).all (fun e => meets e.1 e.2 && held (demo e.1 e.2) e.1 == some 1) = true := by decide
theorem test_send_traps : ([(.send .ifTrue 5, [x fp, v 1], 5), (.sendx .always 1, [v (fp + 2), v 1], 6), (.sendi .always, [v fp, v 1, x 2], 5),
      (.sendi .always, [v 1, v 1, v 2], 6), (.ffree .always, [x 0], 5), (.ffree .always, [v 1], 6)] : List (Instr × List Val × Nat)).all (fun e =>
    meets e.1 e.2.1 && traps (demo e.1 e.2.1) e.1 == some (e.2.2, 0, 0)) = true := by decide
theorem test_self_free : meets (.ffree .always) [v fp] = true ∧ traps (demo (.ffree .always) [v fp]) (.ffree .always) = some (0x21, fp, 0) := by decide
/-- LDFX and STFX at the last slot of the frame, at its size, and with an index that carries X. -/
theorem test_slots_by_index : ([(.ldfx g, [v 7], v 0, 0), (.ldfx g, [v 8], x 0, 0), (.ldfx g, [x 3], x 0, 0), (.stfx g, [v 7, v 1], v 0, 0), (.stfx g, [v 128, v 1], x 0, 0)]
    : List (Instr × List Val × Val × Nat)).all yields = true := by decide
theorem test_stfx_held : held (demo (.stfx g) [v 7, v 1]) (.stfx g) = some 1 ∧ held (demo (.stfx g) [v 8, v 1]) (.stfx g) = some 0 := by decide
theorem test_fstat : meets (.fstat g) [v fp] = true ∧ fpCore (v fp).nat = 5 ∧ (gets (.fstat g) [v fp]).isSome = true ∧
    meets (.fstat g) [v (mkFp 6 0x10100)] = true ∧ (gets (.fstat g) [v (mkFp 6 0x10100)]) = some ([], 0) ∧
    meets (.fstat g) [x fp] = true ∧ traps (demo (.fstat g) [x fp]) (.fstat g) = some (5, 0, 0) ∧
    meets (.fstat g) [v 3] = true ∧ traps (demo (.fstat g) [v 3]) (.fstat g) = some (6, 0, 0) := by decide

/-- Table 3.19: the twelve words of the block of task bump, in core 5's instruction store at 0x100. -/
def bump : List Nat := [0x10050206, 0x00880001, 0x00123020, 0x00050000, 0x01003FC0, 0x03823F80, 0x00000000, 0x36000301, 0x266C0102, 0x264D0684,
  0x02A00000, 0x03000000]
def stored : List Host.Cell → Nat → List Nat → List Host.Cell
  | m, _, [] => m
  | m, a, w :: l => stored (memPut m a w 4) (a + 4) l
/-- The state of `demo` with that block as task 5. -/
def withTask (s : State) : State :=
  { s with mem := stored s.mem (codeKey 5 0 0x100) bump, cores := s.cores.map fun e => (e.1, { e.2 with tasks := [{ id := 5, addr := 0x100 }] }) }
theorem test_bump_block : ((taskBlk (withTask (demo (.null g) [])) 5 5).map fun b => (b.hdr.nslot, b.hdr.nins, b.hdr.cls, b.hdr.est, b.hdr.node, b.hdr.loopsrc)) =
    some (2, 5, 2, 1, 0x123, true) := by decide
theorem test_falloc :
    let i := Instr.falloc .die g
    let go := fun vs => withTask (demo i vs)
    let ok := fun vs => runs (go vs) 5 0 0 (fi i vs) i vs
    (ok [v 5, v fp] && placeBad (go []) fp fp == false && (taskBlk (go []) 5 5).isSome) = true ∧
    (match exec i (go [v 5, v fp]) with | .next t => t.net.length | _ => 0) = 1 ∧
    (ok [v 5, x 0] && traps (go [v 5, x 0]) i == some (5, 0, 0)) = true ∧
    (ok [v 6, v fp] && taskBlk (go []) 5 6 == none && traps (go [v 6, v fp]) i == some (0x20, 6, 0)) = true ∧
    (ok [v 0x10005, v fp] && traps (go [v 0x10005, v fp]) i == some (0x20, 0x10005, 0)) = true ∧
    (ok [v 5, v 1] && placeBad (go []) fp 1 && traps (go [v 5, v 1]) i == some (6, 0, 0)) = true := by decide

/-- A token at its core: slot 2 is empty and takes it; slot 3 is full and queues it; slot 8 does not exist; core 3071 is absent when
its die is. -/
theorem test_tokens :
    let at_ := fun (t : Token) (s : State) => { s with focus := Focus.event (.tokenDelivery t) }
    let s := framed (demo (.null g) [])
    let went := fun (t : Token) => match exec .tokenDelivery (at_ t s) with
      | .next u => some ((slotWord u fp 2).d.toNat, (u.core 5).tbuf.length, (u.core 5).strayTok.toNat)
      | _ => none
    Memory.wf s.mem = true ∧ corePresent s 5 = true ∧ frameAlloc s fp = true ∧ frameSize s fp = 8 ∧ (slotWord s fp 2).f = false ∧ (slotWord s fp 3).f = true ∧
    went { fp, slot := 2, v := v 4 } = some (4, 0, 0) ∧ went { fp, slot := 3, v := v 4 } = some (0, 1, 0) ∧ went { fp, slot := 8, v := v 4 } = some (0, 0, 1) ∧
    went { fp := fp + 16, slot := 0, v := v 4 } = some (0, 0, 1) ∧
    (match exec .tokenDelivery (at_ { fp := mkFp 3071 0, slot := 1, v := v 4, src := some 5 } { s with pkg := { s.pkg with present := 1 } }) with
      | .next u => (u.core 5).strayTok.toNat | _ => 0) = 1 := by decide

/-! ## Memory -/

/-- An address in core 5's scratchpad, and one in the commons of die 0. -/
def own (off : Nat) : Val := v (5 * 2 ^ 20 + off)
/-- A TLB entry of partition 1: the 2 MiB at 0 are DRAM of die 0, readable and writable; those at 2^21 read-only; at 2^24 is its
register page. -/
def mapped (s : State) : State :=
  { s with cores := s.cores.map fun e => (e.1, { e.2 with tlb := [⟨1, 0, 2 ^ 21, 2 ^ 21, true, 0⟩, ⟨1, 2 ^ 21, 2 ^ 21, 2 ^ 22, false, 8⟩, ⟨1, 2 ^ 22, 2 ^ 21, 2 ^ 47, true, 16⟩,
    ⟨1, 2 ^ 24, 65536, 0x3F0000000000, true, 24⟩] }) }
/-- Each check of R162, at the first address that fails it. -/
theorem test_address_checks :
    let s := mapped (demo (.null g) [])
    let ask := fun sp wr fr sc => ({ core := 5, space := sp, size := 8, write := wr, frame := fr, scope := sc } : Ask)
    let loc := fun a => checkAddr s (ask .loc true true none) a
    let com := fun a => checkAddr s (ask .commons true true none) a
    let glo := fun a => checkAddr s (ask .global true true none) a
    let s2 := { s with pkg := { s.pkg with present := 1 } }
    loc (2 ^ 32) = .trap 0x22 1 ∧ checkAddr s2 (ask .loc false false none) (2 ^ 27) = .trap 0x22 2 ∧ loc (5 * 2 ^ 20 + 4) = .trap 3 0 ∧ loc (2 ^ 27) = .trap 0x0C 0x21 ∧
    checkAddr s (ask .loc true false (some .core)) (6 * 2 ^ 20) = .trap 0x0C 0x22 ∧ loc (5 * 2 ^ 20 + 0x80000) = .trap 0x0A 0x30 ∧
    loc (5 * 2 ^ 20 + 0x7FFF8) = .ok { space := .loc, key := localKey 5 0x7FFF8, va := 5 * 2 ^ 20 + 0x7FFF8 } none ∧
    com (2 ^ 32) = .trap 0x22 1 ∧ checkAddr s2 (ask .commons false false none) (2 ^ 27) = .trap 0x22 2 ∧ com 4 = .trap 3 0 ∧ com (2 ^ 27) = .trap 0x0C 0x21 ∧
    com 0 = .ok { space := .commons, key := commonsKey 0 0, va := 0 } none ∧ com 0x7FFE000 = .trap 0x0C 0x21 ∧
    checkAddr s (ask .commons true false (some .core)) 0 = .trap 0x0C 0x22 ∧ checkAddr s (ask .global true false (some .quad)) 0 = .trap 0x0C 0x22 ∧
    checkAddr s { ask .global true false none with noReg := true } (2 ^ 24) = .trap 0x0C 0x20 ∧
    glo (2 ^ 24) = .ok { space := .global, key := 0x3F0000000000, va := 2 ^ 24 } (some ⟨1, 2 ^ 24, 65536, 0x3F0000000000, true, 24⟩) ∧
    glo (2 ^ 48) = .trap 0x22 1 ∧ glo 4 = .trap 3 0 ∧ checkAddr { s with pkg := {} } (ask .global false false none) 0 = .trap 0x0B 0x10 ∧ glo (2 ^ 23) = .miss ∧
    glo (2 ^ 22) = .trap 0x0B 0x10 ∧ glo (2 ^ 21) = .trap 0x0C 0x20 ∧ glo 8 = .ok { space := .global, key := 2 ^ 21 + 8, va := 8 } (some ⟨1, 0, 2 ^ 21, 2 ^ 21, true, 0⟩) := by
  decide
/-- Word 3 of core 5's scratchpad is full and holds 0x1122334455667788; word 4 is empty. -/
def wordMem : List Host.Cell := putWord [] (wordKey 5 3) ⟨0x1122334455667788, true, false⟩
def l (sp : Space) (off : BitVec 7) : LF := ⟨.always, 2, sp, off, .write 0⟩
def loads (e : Instr × Nat × Val) : Bool :=
  let s := demo e.1 [own e.2.1] true wordMem
  runs s 5 0 0 (fi e.1 [own e.2.1]) e.1 [own e.2.1] && match exec e.1 s with
    | .next t => (firingAt t 5 0).any fun f => f.dels.any (fun d => d == (.write 0, some e.2.2)) && f.take.isSome == (match e.1 with | .ldt _ => true | _ => false)
    | _ => false
/-- Little-endian bytes; offsets count access sizes, −1 is the access below. -/
theorem test_own_loads : ([(.ldB (l .loc 0), 25, v 0x77), (.ldH (l .loc 1), 24, v 0x5566), (.ldW (l .loc 127), 32, v 0x11223344), (.ldD (l .loc 3), 0, v 0x1122334455667788),
    (.ldw (l .loc 0), 24, v 0x1122334455667788), (.ldt (l .loc 0), 24, v 0x1122334455667788), (.feTest (l .loc 0), 24, v 1), (.feTest (l .loc 0), 32, v 0)]
      : List (Instr × Nat × Val)).all loads = true := by decide
theorem test_own_place : OwnLocal (demo (.null g) []) 5 (lAddr (own 24) 0 8) 8 true ∧ isGated (demo (.null g) []) (ownLoc 5 (lAddr (own 24) 0 8)).key = false ∧
    pendingOf (demo (.null g) []) 5 = [] ∧ reservedFor (demo (.null g) []) (ownLoc 5 (lAddr (own 24) 0 8)).key = none ∧ waiterRoom ((demo (.null g) []).core 5) = true := by
  refine ⟨⟨by decide, by decide, by decide, by decide, by decide, by decide⟩, by decide, by decide, by decide, by decide⟩
/-- A firing that has buffered nothing forwards nothing. -/
theorem merged_alone {f : Firing} {loc : Loc} {size lsid : Nat} {v : Val} (h : f.outs = []) (hv : v.nat < 256 ^ size) (hs : 0 < size) :
    Merged f loc size lsid v v := by
  refine ⟨hv, fun j _ => by simp [h, forwardFrom], ?_⟩
  simp only [h, forwardFrom]
  simpa using fun _ => ⟨0, hs⟩
/-- A store of a byte and, behind it, one of two bytes in LSID order: what LD.D of LSID 2 takes from each. -/
def older : List Out :=
  let st := fun sz key w => ({ core := 5, fp, ser := 1, idx := 0, op := .st, loc := ⟨.loc, key, 0, none⟩, size := sz, v := w, w := v 0, slot := none, tick := 0 } : Access)
  [.mem 1 0 (st 2 (wordKey 5 3 + 1) (v 0xAABB)), .mem 0 1 (st 1 (wordKey 5 3 + 2) (x 0xCC)), .mem 2 2 (st 8 (wordKey 5 3) (v 0))]
theorem test_forwarding :
    let i := Instr.ldD (l .loc 0)
    let f := { fi i [own 24] with outs := older }
    (match exec i (setFiring (demo i [own 24] true wordMem) 5 0 (some f)) with
      | .next t => (firingAt t 5 0).any fun f => f.dels.contains (.write 0, some (v 0x1122334455AABB88)) | _ => false) = true ∧
    forwardVal older ⟨.loc, wordKey 5 3, 0, none⟩ 8 1 (v 0x1122334455667788) = x 0x1122334455007788 ∧
    (forwardFrom older .loc (wordKey 5 3 + 2) 2).map (·.size) = some 2 ∧ forwardFrom older .loc (wordKey 5 3) 2 = none := by decide
/-- The word is reserved for another frame, or for the own: an LDT sees it as empty, or takes it; an LDW sees it as it is. -/
theorem test_reserved_word :
    let go := fun (i : Instr) (who : Nat) =>
      let s := change (demo i [own 24] true wordMem) fun co => { co with waiters := [{ key := wordKey 5 3, fp := who, take := true, reserved := true }] }
      match exec i s with | .next t => some ((firingAt t 5 0).isSome, (t.core 5).waiters.map fun w => (w.fp, w.reserved)) | _ => none
    go (.ldt (l .loc 0)) 7 = some (false, [(7, true), (fp, false)]) ∧ go (.ldt (l .loc 0)) fp = some (true, [(fp, true)]) ∧ go (.ldw (l .loc 0)) 7 = some (true, [(7, true)]) ∧
    (let s := change (demo (.ldt (l .loc 0)) [] true []) fun co => { co with waiters := [{ key := wordKey 5 3, fp, take := true, reserved := true }, { key := wordKey 5 3, fp := 9, take := true }] }
     (homeWaiters (registerWaiter s (wordKey 5 3) fp true) (wordKey 5 3)).map (fun w => (w.fp, w.reserved)) = [(fp, false), (9, false)]) := by decide
/-- An empty word parks the frame at it. -/
theorem test_empty_word_parks : ([(.ldw (l .loc 0)), (.ldt (l .loc 0))] : List Instr).all (fun i => meets i [own 32] &&
    match exec i (demo i [own 32] true wordMem) with
    | .next t => firingAt t 5 0 == none && frameState t fp == stParked && (homeWaiters t (wordKey 5 4)).any (fun w => w.fp == fp)
    | _ => false) = true := by decide
/-- Loads of commons, of GLOBAL space and of another core's scratchpad are sent and awaited. -/
theorem test_loads_elsewhere : ([(.ldB (l .commons 0), [v 1]), (.ldH (l .global 0), [v 2]), (.ldW (l .loc 0), [v (6 * 2 ^ 20)]), (.ldD (l .global 0), [v 0]), (.feTest (l .commons 0), [v 8]),
      (.ldrc (l .global 0), [v 8, v 0x10000]), (.ldw (l .commons 0), [v 8]), (.ldt (l .commons 0), [v 16])] : List (Instr × List Val)).all (fun e =>
    let s := mapped (demo e.1 e.2)
    runs s 5 0 0 (fi e.1 e.2) e.1 e.2 && match exec e.1 s with
      | .next t => t.net.length == 1 && (firingAt t 5 0).any fun f => f.waits == [0] && f.lsids == (if lateLoad e.1 then [] else [0])
      | _ => false) = true := by decide
def st (sp : Space) (off : BitVec 9) : SF := ⟨.always, 3, sp, off⟩
def af (w32 : Bool) : AF := ⟨.always, 1, w32, false, 4, .loc, .pkg⟩
def rf (w32 : Bool) : RF := ⟨.always, 1, w32, false, false, .commons, .die⟩
theorem test_writes_held : ([(.stB (st .loc 1), [own 0, x 5]), (.stH (st .commons 0), [v 2, v 5]), (.stW (st .global 0x1FF), [v 4, v 5]), (.stD (st .loc 0), [own 8, v 1]),
      (.stf (st .commons 1), [v 0, v 5]), (.feSet (st .loc 0), [own 8]), (.feClr (st .loc 0), [own 8]), (.ste .always 1 .loc 3, [own 8, v 1]), (.clean .always 1, [v 512]), (.inval .always 1, [v 512]),
      (.pref ⟨.always, 1, .commons, 0⟩, [v 0]), (.fence .always 1 .pod, []), (.amoCas ⟨.always, some 3⟩ 1 .loc .pkg false, [own 0, v 1, v 2]), (.amoCas ⟨.always, none⟩ 1 .loc .core true, [own 4, v 1, v 2])]
    ++ [Instr.amoAdd, .amoMin, .amoMax, .amoAnd, .amoOr, .amoXor, .amoSwap, .amoIncw].map (fun i => (i (af false), [own 8, v 1]))
    ++ [Instr.amoAddReduce, .amoMinReduce, .amoMaxReduce, .amoAndReduce, .amoOrReduce, .amoXorReduce, .amoSwapReduce, .amoIncwReduce].map (fun i => (i (rf false), [v 8, v 1]))
    ++ [(.amoFadd (af true), [own 4, v 1]), (.amoFaddReduce (rf true), [v 4, v 1])] : List (Instr × List Val)).all (fun e =>
    let s := mapped (demo e.1 e.2)
    runs s 5 0 0 (fi e.1 e.2) e.1 e.2 && held s e.1 == some 1) = true := by decide
theorem test_address_traps : ([(.ldD (l .loc 0), [own 4], (3, 5 * 2 ^ 20 + 4, 0)), (.ldt (l .commons 0), [x 8], (5, 8, 0)), (.stD (st .loc 0), [own 0x80000, v 0], (0x0A, 5 * 2 ^ 20 + 0x80000, 0x3004)),
      (.stf (st .commons 0), [v 4, v 0], (3, 4, 5)), (.ldB (l .global 0), [v (2 ^ 48)], (0x22, 2 ^ 48, 0x0102)),
      (.ldrc (l .global 0), [v (2 ^ 24), v 1], (0x0C, 2 ^ 24, 0x2002)), (.feSet (st .global 0), [v (2 ^ 21)], (0x0C, 2 ^ 21, 0x2006)), (.ste .always 1 .loc 3, [x 8, v 1], (5, 8, 0)),
      (.amoAdd ⟨.always, 1, false, false, 4, .loc, .core⟩, [v (6 * 2 ^ 20), v 1], (0x0C, 6 * 2 ^ 20, 0x2204)), (.amoXorReduce (rf true), [v 2, v 1], (3, 2, 5)),
      (.amoCas ⟨.always, none⟩ 1 .commons .quad false, [v 0, v 1, v 2], (0x0C, 0, 0x2205)), (.inval .always 1, [v (2 ^ 22)], (0x0B, 2 ^ 22, 0x1002))] : List (Instr × List Val × Nat × Nat × Nat)).all (fun e =>
    let s := mapped (demo e.1 e.2.1)
    runs s 5 0 0 (fi e.1 e.2.1) e.1 e.2.1 && traps s e.1 == some e.2.2) = true := by decide
/-- A GLOBAL load without a translation starts a walk and waits for it. -/
theorem test_miss_walks : let i := Instr.ldB (l .global 0)
    meets i [v 64] = true ∧ (match exec i (demo i [v 64]) with
      | .next t => (t.die 0).walks.length == 1 && (firingAt t 5 0).any fun f => f.walks == [0] && f.done == []
      | _ => false) = true := by decide

/-! ## At the home -/

def access (op : MemOp) (sz : Nat) (key : Nat) (a : Val) (slot : Option Nat := none) : Access :=
  { core := 5, fp, ser := 1, idx := 0, op, loc := ⟨.loc, key, 0, none⟩, size := sz, v := a, w := v 9, slot, tick := 0 }
def home (a : Access) : Option TWord :=
  match exec .accessAtHome { demo (.null g) [] true wordMem with focus := .event (.accessAtHome a) } with
  | .next t => some (getWord t.mem (a.loc.key / 8 * 8))
  | _ => none
theorem test_home_stores :
    home (access .st 1 (wordKey 5 3 + 1) (v 0x1FF)) = some ⟨0x112233445566FF88, true, false⟩ ∧ home (access .st 4 (wordKey 5 3 + 4) (x 7)) = some ⟨0x55667788, true, true⟩ ∧
    home (access .st 8 (wordKey 5 4) (x 7)) = some ⟨0, false, true⟩ ∧ home (access .stf 8 (wordKey 5 4) (v 7)) = some ⟨7, true, false⟩ ∧
    home (access .ste 8 (wordKey 5 4) (v 7) (some 2)) = some ⟨7, true, false⟩ ∧ home (access .ste 8 (wordKey 5 3) (v 7) (some 2)) = some ⟨0x1122334455667788, true, false⟩ ∧
    home (access .feSet 8 (wordKey 5 4) (v 0)) = some ⟨0, true, false⟩ ∧ home (access .feClr 8 (wordKey 5 3) (v 0)) = some ⟨0x1122334455667788, false, false⟩ := by decide
/-- R181: ADD, MIN, MAX, AND, OR, XOR, SWAP, INCW and CAS on 0x1122334455667788; a 32-bit ADD on its low half; FADD of 1.0 and 2.0. -/
theorem test_home_atomics : ([(0, v 0x78, 0x1122334455667800), (1, v 0xFFFFFFFFFFFFFFFF, 0xFFFFFFFFFFFFFFFF), (2, v 0xFFFFFFFFFFFFFFFF, 0x1122334455667788), (3, v 0xFF, 0x88), (4, v 0xFF, 0x11223344556677FF), (5, v 0xFF, 0x1122334455667777),
      (6, v 5, 5), (9, v 0x1122334455667788, 0), (9, v 0x1122334455667789, 0x1122334455667789), (10, v 0x1122334455667788, 9), (10, v 1, 0x1122334455667788)] : List (Nat × Val × Nat)).all (fun e =>
    home (access (.amo e.1 false false false false) 8 (wordKey 5 3) e.2.1 (some 2)) == some ⟨BitVec.ofNat 64 e.2.2, true, false⟩) = true ∧
    home (access (.amo 0 true false true false) 4 (wordKey 5 3) (v 0xAA998878)) = some ⟨0x1122334400000000, true, false⟩ ∧
    home (access (.amo 8 true false false false) 4 (wordKey 5 3 + 4) (v 0)) = some ⟨0x1122334455667788, true, false⟩ := by decide
/-- R182 in a tagged word: B with X, a FADD operand 0x7F800000, a word in error, a FADD field in error; in DRAM the pattern of FADD, or poison. -/
theorem test_home_atomic_errors :
    let spoilt := putWord [] (wordKey 5 3) ⟨0x7F800000, true, true⟩
    let go := fun m a => match exec .accessAtHome { demo (.null g) [] true m with focus := .event (.accessAtHome a) } with
      | .next t => some (getWord t.mem (wordKey 5 3), t.net.map fun p => match p with | .token t => t.v | _ => v 0) | _ => none
    let amo := fun op w32 w => access (.amo op w32 false false false) (if w32 then 4 else 8) (wordKey 5 3) w (some 2)
    let far := fun op w32 w => { amo op w32 w with loc := ⟨.global, 2 ^ 20, 0, none⟩ }
    let dram := fun a => match exec .accessAtHome { demo (.null g) [] with focus := .event (.accessAtHome a) } with
      | .next t => some (memNat t.mem (2 ^ 20) 8, poisoned t.mem (2 ^ 20)) | _ => none
    go wordMem (amo 0 false (x 1)) = some (⟨0, true, true⟩, [v 0x1122334455667788]) ∧ go wordMem (amo 8 true (v 0x7F800000)) = some (⟨0x1122334400000000, true, true⟩, [v 0x55667788]) ∧
    go spoilt (amo 0 false (v 1)) = some (⟨0x7F800000, true, true⟩, [x 0]) ∧ go (putWord [] (wordKey 5 3) ⟨0x7F800000, false, false⟩) (amo 8 true (v 0)) = some (⟨0x7F800000, true, false⟩, [x 0]) ∧
    go (putWord [] (wordKey 5 3) ⟨0x3F800000, false, false⟩) (amo 8 true (v 0x40000000)) = some (⟨0x40400000, true, false⟩, [v 0x3F800000]) ∧
    dram (far 0 false (v 7)) = some (7, false) ∧ dram (far 8 true (x 0)) = some (0x7FC00000, false) ∧ dram (far 4 false (x 0)) = some (0, true) := by decide
/-- A GLOBAL store: its bytes; with X zero bytes and a poisoned codeword; a write of the 64 bytes clears it. -/
theorem test_global_stores :
    let s := demo (.null g) []
    let st := fun sz w => { access .st sz (2 ^ 20 + 64) w with loc := ⟨.global, 2 ^ 20 + 64, 0, none⟩ }
    let go := fun a => match exec .accessAtHome { s with focus := .event (.accessAtHome a) } with
      | .next t => some (memNat t.mem (2 ^ 20 + 64) 8, poisoned t.mem (2 ^ 20 + 64)) | _ => none
    physKind s (2 ^ 20 + 64) = .dram 0 ∧ kvPrivate s (2 ^ 20 + 64) = none ∧ s.images = [] ∧ go (st 2 (v 0xABCDEF)) = some (0xCDEF, false) ∧ go (st 8 (x 5)) = some (0, true) ∧
    poisoned (physWrite (physWrite s (2 ^ 20 + 64) 1 8 true) (2 ^ 20 + 64) 3 64 false).mem (2 ^ 20 + 64) = false := by decide
theorem test_value_returns :
    let i := Instr.ldD (l .commons 0)
    let f := { fi i [v 8] with waits := [0], done := [0] }
    let s := setFiring (demo i [v 8]) 5 0 (some f)
    let r : LoadRet := ⟨access .ld 8 (commonsKey 0 8) (x 0), .value (v 3) (v 3)⟩
    resident s 5 1 = some (0, f) ∧ decodeWords (wordsAt f.code 0) = .ok i ∧ (match exec .loadValueReturn { s with focus := .event (.loadValueReturn r) } with
      | .next t => (firingAt t 5 0).any fun f => f.waits == [] && f.dels.contains (.write 0, some (v 3)) | _ => false) = true ∧
    resident (demo i []) 6 1 = none ∧
    (match exec .loadValueReturn { setFiring s 5 0 (some { f with outs := [.mem 0 1 { access .st 1 (commonsKey 0 8) (v 9) with loc := ⟨.commons, commonsKey 0 8, 0, none⟩ }] }) with focus := .event (.loadValueReturn { r with a := { r.a with op := .ldt, loc := ⟨.commons, commonsKey 0 8, 0, none⟩ } }) } with
      | .next t => (firingAt t 5 0).any fun f => f.dels.contains (.write 0, some (v 9)) && f.take == some (⟨.commons, commonsKey 0 8, 0, none⟩, v 3) | _ => false) = true := by decide
theorem test_take :
    let s := demo (.null g) [] true wordMem
    let r := fun (n : Nat) (d : Nat) => ({ core := 5, fp, ser := 1, loc := ⟨.loc, wordKey 5 n, 0, none⟩, v := v d } : TakeReq)
    let went := fun q => match exec .takeAtHome { s with focus := .event (.takeAtHome q) } with
      | .next t => some (t.net, keyF t.mem (wordKey 5 3), (homeWaiters t (wordKey 5 4)).length)
      | _ => none
    went (r 3 0x1122334455667788) = some ([.takeAns ⟨5, 1, .taken, 0⟩], false, 0) ∧ went (r 3 7) = some ([.takeAns ⟨5, 1, .differs, 0⟩], true, 0) ∧
    went (r 4 0) = some ([.takeAns ⟨5, 1, .parked, 0⟩], true, 1) := by decide


/-- Eight packets: tokens of cores 3 and 4 to slots of one core, a store and two loads of core 3. -/
def arrivals : List Packet :=
  let tok := fun (c k : Nat) => Packet.token { fp := 5, slot := k, v := ⟨1, false⟩, src := some c }
  let acc := fun (o : MemOp) (n : Nat) => Packet.access {
    core := 3, fp := 0, ser := 0, idx := 0, op := o, loc := ⟨.loc, localKey n 0, 0, none⟩, size := 8,
    v := ⟨1, false⟩, w := ⟨0, true⟩, slot := none, tick := 0 }
  [tok 3 1, tok 3 1, tok 4 1, tok 3 2, acc .st 9, tok 3 3, acc .ld 10, acc .ld 9]
/-- R107, R174: a second token of one core to one slot waits, a token waits behind its core's store, and so does a load of
the store's word; the rest may arrive in any order. -/
theorem test_arrival_order : deliverable {} [] 0 arrivals = [0, 2, 3, 4, 6] := by decide
/-- Two packets from die 0 to die 1 (R440), and two loads of one firing at one word (R174). -/
theorem test_die_order :
    let tok := fun (c k : Nat) => Packet.token { fp := 129 * 2 ^ 20, slot := k, v := v 0, src := some c }
    ends (tok 3 1) = some (0, 1) ∧ ends (tok 4 2) = some (0, 1) ∧ blocked {} (tok 3 1) = false ∧ comesFirst {} (tok 3 1) (tok 4 2) = true ∧
    comesFirst {} (nthD arrivals 7 (tok 0 0)) (nthD arrivals 7 (tok 0 0)) = true := by decide
/-- What a full overflow area holds at the port is not overtaken. -/
theorem test_port :
    let t : Token := { fp, slot := 3, v := v 1 }
    ((tbufAdd (change (demo (.null g) []) fun co => { co with tbuf := [{ e := .token t, place := .port }] }) 5 (.token t)).core 5).tbuf.map (·.place) = [.port, .port] := by decide
/-! ## Registers, counters, traps, barriers -/

/-- The state of an instruction at its home, released by core 5's firing. -/
def rel (i : Instr) (ops : List Val) : Released := { i, core := 5, fp, ser := 1, ops }
def atHome (i : Instr) (ops : List Val) : State := { demo i [] with focus := .home (rel i ops) }

theorem test_reads : ([(.sysRd h 0, [], v 5, 0), (.sysRd h 0x0A, [], v 0x10000, 0), (.sysRd h 0x1C, [], v 2048, 0), (.perfRd h 1, [], v 0, 0), (.perfRd h 12, [], v 0, 0)]
    : List (Instr × List Val × Val × Nat)).all yields = true ∧ meets (.sysRd h 0x28) [] = true ∧ held (demo (.sysRd h 0x28) []) (.sysRd h 0x28) = some 1 := by decide
theorem test_system_held : ([(.sysWr .always 0x20, [v 0x7F]), (.sysWr .always 0x08, [v 0x3FFFF]), (.tlbInv .always .pkg, [v 0]), (.waittick .always, [v 10, v 1]), (.halt .always, []), (.gangSync .always, [v 3]),
      (.barArrive .always .quad 63, []), (.barWait .always .die 0, [v 3]), (.barCfg .always .quad 1, [v 0xFFFF])] : List (Instr × List Val)).all (fun e =>
    meets e.1 e.2 && held (demo e.1 e.2) e.1 == some 1) = true := by decide
theorem test_system_traps : ([(.sysWr .always 0x20, [v 0x80], 2, 0), (.sysWr .always 0x20, [x 0], 5, 0), (.sysWr .always 0x08, [v 1], 0x0C, 0x2300), (.tlbInv .always .core, [v 0], 0x0C, 0x2300),
      (.tlbInv .always .core, [x 0], 5, 0), (.waittick .always, [v 1, x 1], 5, 0), (.halt .always, [], 0x0C, 0x2300), (.gangSync .always, [x 0], 5, 0), (.barWait .always .die 0, [x 0], 5, 0),
      (.barArrive .always .pkg 0, [], 0x0C, 0x2100), (.barWait .always .pkg 0, [v 0], 0x0C, 0x2100), (.barCfg .always .pkg 0, [v 0], 0x0C, 0x2100), (.barCfg .always .die 0, [v 0x10000], 2, 0), (.barCfg .always .die 0, [x 0], 5, 0)]
    : List (Instr × List Val × Nat × Nat)).all (fun e => meets e.1 e.2.1 false && traps (demo e.1 e.2.1 false) e.1 == some (e.2.2.1, 0, e.2.2.2)) = true := by decide
theorem test_trap_and_break : (meets (.trap .always) [v 77] && traps (demo (.trap .always) [v 77]) (.trap .always) == some (0x0D, 0, 77)
    && meets (.trap .always) [x 77] && traps (demo (.trap .always) [x 77]) (.trap .always) == some (0x0D, 1, 0)
    && meets (.brk .always) [] && traps (demo (.brk .always) []) (.brk .always) == some (0x0E, 0, 0)) = true := by decide
/-- The instruction with a delivery to its predicate; what it has delivered, when it is ready and has executed. -/
def withPred (i : Instr) (vs : List Val) (p : Option Val) : Firing := { fi i vs with dels := (posP 0, p) :: (fi i vs).dels.tail }
def predGo (i : Instr) (p : Option Val) : Option (List (Option Val)) :=
  let f := withPred i [v 1, v 2] p
  match exec i (setFiring (demo i []) 5 0 (some f)) with
  | .next t => (firingAt t 5 0).bind fun f' => if ready f 0 i && anyNull f (allPositions i.shape 0) == p.isNone && f'.done == [0] then some ((f'.dels.drop 3).map (·.2)) else none
  | _ => none
def addT : Instr := .add (.s .w8) ⟨.ifTrue, .write 0, .none⟩
/-- A predicate that fails, one with X, and a null token; X at a held instruction. -/
theorem test_predicates : predGo addT (some (v 2)) = some [] ∧ predGo addT (some (x 1)) = some [some (x 0)] ∧ predGo addT none = some [none] := by decide
theorem test_predicate_x_traps : ready (withPred (.send .ifFalse 1) [v fp, v 2] (some (x 0))) 0 (.send .ifFalse 1) = true ∧ isHeld (.send .ifFalse 1) = true ∧
    traps (setFiring (demo (.send .ifFalse 1) []) 5 0 (some (withPred (.send .ifFalse 1) [v fp, v 2] (some (x 0))))) (.send .ifFalse 1) = some (4, 0, 0) := by decide
/-- Slot 0 has delivered to write entry 0; a second delivery to it traps when the second producer's latency is over, at it. -/
def twiced (f : Firing) : Firing := { f with reads := [⟨0, .write 0, .none, false, false⟩], dels := f.dels ++ [(.write 0, some (v 1))] }
/-- The second delivery of instruction 0: noted, not trapped a cclk before lat, trapped in it. -/
def secondAt (f : Firing) (i : Instr) (lat : Nat) : Bool :=
  let s := setFiring (demo i []) 5 0 (some (twiced f))
  let at_ := fun (t : State) (n : Nat) => let t := noteIssue t; trapDouble { t with dies := [(0, { t.die 0 with cclk := n })] } 5 0
  match exec i s with
  | .next t => ready (twiced f) 0 i && (firingAt t 5 0).map (·.twice) == some [.write 0] && (firingAt (at_ t (lat - 1)) 5 0).isSome &&
      firingAt (at_ t lat) 5 0 == none && ((at_ t lat).die 0).log.map (fun (_, l) => (nthD l 2 0, nthD l 5 0, nthD l 7 0)) == [(7, 0, BitVec.ofNat 64 (Target.write 0).code)]
  | _ => false
theorem test_multi_deliver :
    let f := twiced (fi (.tick g) [])
    let s := setFiring (demo (.tick g) []) 5 0 (some f)
    s.focus = .firing 5 0 0 ∧ firingAt s 5 0 = some f ∧ valueOnly (.tick g) = true ∧ ready f 0 (.tick g) = true ∧ anyNull f (allPositions (Instr.tick g).shape 0) = false ∧
    predRes f (Instr.tick g).shape 0 = .pass ∧ valuesAt f (opPositions (Instr.tick g).shape 0) = [] ∧
    f.dels.any (fun d => d.1 == Target.write 0) = true ∧ secondAt (fi (.tick g) []) (.tick g) 2 = true := by decide
/-- A null token, and an error token of a predicate, to a write entry that has its value. -/
theorem test_passed_on_twice : [none, some (x 1)].all (fun p =>
    let f := withPred addT [v 1, v 2] p
    anyNull f (allPositions addT.shape 0) == p.isNone && isHeld addT == false && secondAt f addT 1) = true := by decide
/-- The record of a trap: pending with ENABLE, in the fault log without, the debugger's stop on BRK with BRKDBG. -/
theorem test_trap_record :
    let s := fun tv => change (framed (demo (.null g) [])) fun co => { co with trapv := tv }
    let go := fun tv cause => let t := takeTrap (s tv) 5 0 { cause, pos := 3, w4 := 1, w5 := 2 }
      ((t.core 5).pend.map (·.words.map (·.toNat)), (t.core 5).mode, (t.die 0).logN, (t.core 5).undone, frameState t fp)
    Memory.wf (s 0).mem = true ∧ fpCore fp = 5 ∧ go 0x10000 0x0D = ([[0x0D, fp, 0x100, 3, 1, 2, 9, 0]], 0, 0, 1, 5) ∧ go 0 0x0D = ([], 0, 1, 1, 5) ∧ go 0x30000 0x0E = ([], 3, 1, 1, 5) := by decide
/-- The trapped frame is run again, resumed with task 5's slot 0 consumed, or freed; a frame that is not trapped is a stray. -/
theorem test_frame_ctl :
    let s0 := withTask (framed (demo (.null g) []))
    let s := { s0 with mem := putWord (putWord (putWord s0.mem (hdrKey fp 0) ⟨0x08050005, true, false⟩) (slotKey fp 0) ⟨6, true, false⟩) (slotKey fp 1) ⟨8, true, false⟩ }
    let out := fun (o : Host.Outcome State Fault Refusal) => match o with
      | .next t => some (frameAlloc t fp, frameState t fp, (slotWord t fp 0).f, (t.core 5).tq.length, (t.core 5).strayTok.toNat)
      | _ => none
    (frameAlloc s fp && frameState s fp == 5) = true ∧
    out (exec .frameCtlRerun { s with focus := .event (.frameCtlRerun 5 fp) }) = some (true, 2, true, 1, 0) ∧
    out (exec .frameCtlResume { s with focus := .event (.frameCtlResume 5 fp) }) = some (true, 1, false, 0, 0) ∧
    (out (exec .frameCtlFree { s with focus := .event (.frameCtlFree 5 fp) })).map (·.1) = some false ∧
    (out (exec .frameCtlRerun { s0 with focus := .event (.frameCtlRerun 5 (fp + 4)) })).map (·.2.2.2.2) = some 1 := by decide
theorem test_register_writes :
    let s := change (demo (.null g) []) fun co => { co with astat := 0x7F, evsel := 0xF000000000000000 }
    let put := fun n (w : BitVec 64) => match exec .registerWrite { s with focus := .event (.registerWrite (.core 5 n) w) } with | .next t => some (coreRegRead t 5 n, t.pkg.reject) | _ => none
    let ev := fun (i : Instr) (e : Event) (s : State) => match exec i { s with focus := .event e } with | .next t => some (t.core 5) | _ => none
    coreReserved 0x1C 0xFFFFFFFF = false ∧ coreReserved 0x1C 0x100000000 = true ∧ put 0x1C 0xFFFFFFFF = some (0xFFFFFFFF, 0) ∧ put 0x1C 0x100000000 = some (2048, 1) ∧ put 0x20 0x41 = some (0x3E, 0) ∧
    ringsEmpty (s.core 5) = true ∧ (ev .tqBaseWrite (.tqBaseWrite 5 0x1000) s).map (fun co => (co.tqBase, co.tqHeld)) = some (0x1000, none) ∧
    (let r : TRec := { fp, cls := 2, task := 7, tick := 0, est := 0, h3 := 0, entered := 0 }
     let s := change s fun co => { co with rings := [(2, [r])] }
     ringsEmpty (s.core 5) = false ∧ (ev .tqBaseWrite (.tqBaseWrite 5 0x1000) s).map (fun co => (co.tqBase, co.tqHeld)) = some (0, some 0x1000)) ∧
    (ev .tqBaseApply (.tqBaseApply 5) (change s fun co => { co with tqHeld := some 0x2000 })).map (·.tqBase) = some 0x2000 ∧
    (ev .evselWrite (.evselWrite 5 0x1000000000000001) s).map (·.evsel) = some 0xE000000000000001 := by decide
/-- Core 5 at a barrier of die 0 with N, a count and generation 3: the barrier after, tokens sent, waits, strays. -/
def atBar (i : Instr) (ops : List Val) (n arr : Nat) (waits : List TBuf := []) (com : Option Nat := none) : Barrier × List Packet × Nat × Nat :=
  let s := change { atHome i ops with dies := [(0, { (default : Die) with bars := [(1, { n, arr, gen := 3 })] })] } fun co => { co with tbuf := waits }
  match exec i { s with focus := .home { rel i ops with arrived := com } } with
  | .next t => (barGet t .die 5 1, t.net, (t.core 5).tbuf.length, (t.core 5).strayTok.toNat)
  | _ => ({}, [], 0, 0)
def tok (w : Val) : Packet := .token { fp, slot := 2, v := w, src := some 5 }
theorem test_bar_arrive : let i := Instr.barArrive .always .die 1
    atBar i [] 0 0 = ({ n := 0, arr := 0, gen := 3 }, [], 0, 1) ∧ atBar i [] 2 0 = ({ n := 2, arr := 1, gen := 3 }, [], 0, 0) ∧
    atBar i [] 2 1 [{ e := .barWait .die 1 3 fp 2 }] = ({ n := 2, arr := 0, gen := 4 }, [tok (v 3)], 0, 0) := by decide
theorem test_bar_wait : let i := Instr.barWait .always .die 1
    atBar i [v 2] 0 0 = ({ n := 0, arr := 0, gen := 3 }, [tok (x 1)], 0, 0) ∧ atBar i [v 2] 2 0 = ({ n := 2, arr := 0, gen := 3 }, [], 1, 0) ∧
    atBar i [v 2] 2 0 [] (some 2) = ({ n := 2, arr := 0, gen := 3 }, [tok (v 2)], 0, 0) := by decide
theorem test_bar_cfg : let i := Instr.barCfg .always .die 1
    atBar i [v 2] 5 2 = ({ n := 2, arr := 0, gen := 4 }, [], 0, 0) ∧ atBar i [v 0] 5 2 = ({ n := 0, arr := 0, gen := 3 }, [], 0, 0) ∧
    atBar i [v 3] 5 2 = ({ n := 3, arr := 2, gen := 3 }, [], 0, 0) := by decide

/-! ## The block check, a firing's start, the steps of a commit -/

/-- A state and a firing with nothing to do. -/
def base : State := demo (.null g) []
def withFiring (f : Firing) : State := setFiring base 5 0 (some f)
def f0 : Firing := fi (.null g) []
/-- Table 3.19's block as fetched, and with one word changed. -/
def bumpBlk : Blk := fetchBlock (withTask base) 5 0x100
def bumpWith (n w : Nat) : Blk :=
  fetchBlock { base with mem := stored [] (codeKey 5 0 0x100) ((bump.take n) ++ w :: bump.drop (n + 1)) } 5 0x100
/-- The first check that fails, by word: VER, a reserved header field, reserved bits of a read entry, its SLOT, a write entry's SLOT, an
unassigned opcode, a backward target; TASKID. -/
theorem test_block_check :
    let co := (withTask base).core 5
    let at_ := fun n w => (blockCheck co (bumpWith n w) 5).map fun e => (e.1, e.2.code)
    bumpBlk.bad = [] ∧ blockCheck co bumpBlk 5 = none ∧ (blockCheck co bumpBlk 6).map (fun e => (e.1, e.2.code)) = some (0x300, 2) ∧
    at_ 0 0x11050206 = some (0x300, 1) ∧ at_ 1 0x008A0001 = some (0x300, 3) ∧ at_ 4 0x01003FC1 = some (0x100, 3) ∧ at_ 5 0x07823F80 = some (0x101, 11) ∧ at_ 6 0x04000000 = some (0x200, 11) ∧
    at_ 7 0 = some (0x100, 6) ∧ at_ 8 0 = some (0, 6) ∧ at_ 10 0 = some (2, 7) ∧ at_ 9 0x264D0484 = some (2, 5) := by decide
/-- The frame of core 5 waits for task 5, slots 0 and 1 full. -/
def ready5 : State :=
  let s := withTask (framed base)
  { s with mem := putWord (putWord (putWord s.mem (hdrKey fp 0) ⟨0x02020005, true, false⟩) (slotKey fp 0) ⟨6, true, false⟩) (slotKey fp 1) ⟨8, true, true⟩ }
theorem test_firing_starts :
    let started := fun s => (firingAt (startFiring s 5 1 fp 0) 5 1).map fun f => (f.dels, f.task, f.outs.length)
    let twice := { ready5 with mem := stored ready5.mem (codeKey 5 0 0x114) [0x03003F80] }
    let bad := { ready5 with mem := stored ready5.mem (codeKey 5 0 0x11C) [0] }
    let logOf := fun s => ((startFiring s 5 1 fp 0).die 0).log.map fun (_, l) => (nthD l 2 0, nthD l 5 0, nthD l 7 0)
    (taskOf (ready5.core 5) (frameTask ready5 fp)).isSome = true ∧ isFresh ready5 fp = false ∧ fpCore fp = 5 ∧
    started ready5 = some ([(.opA 0, some (v 6)), (.opB 2, some (x 8))], 5, 0) ∧ frameState (startFiring ready5 5 1 fp 0) fp = 3 ∧
    logOf bad = [(2, 0x100, 6)] ∧ logOf twice = [(7, 0x101, 0x100)] := by decide
/-- A firing with write entries and held outputs, of the frame above. -/
def wr (ovr : Bool) (dels : List (Target × Option Val)) (outs : List Out := []) (consume : Bool := true) : Firing :=
  { f0 with hdr := default, reads := [⟨0, .none, .none, consume, false⟩], writes := [⟨0, ovr⟩], dels, outs, exit := some (0, .broKeep .always) }
/-- Step 5 by mode, slot 0 full: OVER, FILL into the consumed slot, FILL queued as a token, a null token, STFX behind a write entry. -/
theorem test_step5 :
    let one := [(entryTarget 0, some (v 9))]
    let go := fun f => let u := step5 ready5 f; ((slotWord u.1 fp 0).d.toNat, (slotWord u.1 fp 0).f, u.2, (u.1.core 5).tbuf.length)
    go (wr true one) = (9, true, [0], 0) ∧ go (wr false one) = (9, true, [0], 0) ∧ go (wr false one [] false) = (6, true, [], 1) ∧ go (wr true [(entryTarget 0, none)]) = (6, true, [], 0) ∧
    go (wr false one [.stfx 3 0 (v 5)]) = (9, true, [0], 1) ∧ stfxOuts (wr false one [.stfx 3 0 (v 5), .stfx 1 1 (v 4)]) = [(1, v 4), (0, v 5)] := by decide
/-- Steps 3 and 6 to 8: LSID order, a consumed slot, LOOP, the head of a queue. -/
theorem test_other_steps :
    let a := access .st 8 (wordKey 5 4) (v 1)
    let s := { change ready5 (fun co => { co with tbuf := [{ e := .token { fp, slot := 0, v := v 3 } }] }) with mem := putWord ready5.mem (hdrKey fp 3) ⟨0x100007, true, false⟩ }
    let task7 := putWord s.mem (hdrKey fp 0) ⟨0x02030005, true, false⟩
    memOuts (wr false [] [.mem 2 0 a, .fence 0 3 .core, .mem 0 1 a]) = [.mem 0 1 a, .fence 0 3 .core, .mem 2 0 a] ∧
    (slotWord (consumeSlots s fp [0]) fp 0) = ⟨6, false, false⟩ ∧ hdr (exitFrame s fp (.broRearm .always)) fp 3 = 0x200007 ∧ hdr (exitFrame s fp (.broCont .always 9)) fp 3 = 0 ∧
    frameTask (exitFrame { s with mem := task7 } fp (.broCont .always 9)) fp = 9 ∧ (slotWord (refillFrame (consumeSlots s fp [0]) fp) fp 0) = ⟨3, true, false⟩ ∧
    frameAlloc (steps678 s 5 none fp 0 [] (.broEnd .always) false) fp = false ∧ (s.core 5).half < 2 ∧ (∀ t ∈ (s.core 5).tasks, t.addr < 2 ^ 16) ∧
    hasSection (wr false []) = false ∧ relOuts (wr false []) = [] := by decide
/-- SEND leaves for core 6 as a token. -/
theorem test_step4 :
    let r := rel (.send .always 3) [v (mkFp 6 0x10100), x 5]
    (step4One base 5 f0 none (.rel 0 r)).net = [.token { fp := mkFp 6 0x10100, slot := 3, v := x 0, src := some 5 }] := by decide
/-! ## Commands -/

def xf : XF := ⟨.always, some 2⟩
def vf (wa wb wd : BitVec 4) (ca cb cd : BitVec 2) (opt : Bool := false) (cmd : BitVec 11 := 0) : VF := ⟨false, opt, false, cmd, false, false, false, cd, wd, cb, wb, ca, wa⟩
/-- A plane-set operand of n elements at a word index, and a slab or image operand. -/
def desc (base n : Nat) : Val := v (n * 2 ^ 20 + base)

/-- Commands of each engine whose checks pass are held; the first check that fails traps. -/
theorem test_commands_held : ([(.vadd xf (vf 7 7 8 0 0 0), [desc 0 64, desc 0 64, desc 1024 64]), (.unpackT5 xf (vf 0 0 0 0 0 1), [desc 0 15, desc 1024 15]), (.ppSet xf 3, [v 0]), (.mmp xf 3 1 false false 0, [v 0, v 4096]),
      (.accLoad xf 1, [v 8]), (.cpyStream xf false false 1 .loc .loc 3, [own 0, own 64, v 128]), (.cpySave xf false 1, [v 16]), (.cpyStat xf 0, []), (.cpyResume xf false 0, [x 0]), (.ddaRun xf 1, [v 4]), (.ddaStat xf 0, []),
      (.ddaPatch xf 0 0 false, [v 8]), (.kvbMap xf, [v 5]), (.seqEmit xf, [v 0, x 5]), (.wchStat xf, [v 0])] : List (Instr × List Val)).all (fun e =>
    isCommand e.1 && meets e.1 e.2 && (match heldCheck (demo e.1 e.2) 5 e.1 e.2 with | none => true | _ => false) && held (demo e.1 e.2) e.1 == some 1) = true := by decide
/-- X in a descriptor, a reserved bit, a base that is not aligned: the traps of R225, R254, R280, R309, R375. -/
theorem test_commands_trap : ([(.vadd xf (vf 7 7 8 0 0 0), [x 0, desc 0 64, desc 1024 64], 5), (.vadd xf (vf 7 7 8 0 0 0), [desc 1 64, desc 0 64, desc 1024 64], 3), (.mmp xf 3 1 false false 0, [v 1, v 4096], 3),
      (.ddaRun xf 1, [x 4], 5), (.ddaSave xf 1, [v 4], 3), (.cpySave xf false 1, [x 16], 5), (.kvbMap xf, [x 5], 5)] : List (Instr × List Val × Nat)).all (fun e =>
    meets e.1 e.2.1 && (match heldCheck (demo e.1 e.2.1) 5 e.1 e.2.1 with | some (.trap cause _ _) => cause == e.2.2 | _ => false)
      && (traps (demo e.1 e.2.1) e.1).map (·.1) == some e.2.2) = true := by decide

/-- Word 0 of each plane of a TC set of width w at a word index, full, with the error plane clear: the elements listed, the rest zero. -/
def planes (m : List Host.Cell) (base w : Nat) (vals : List Int) : List Host.Cell :=
  (List.range (w + 1)).foldl (fun m p => putWord m (wordKey 5 (base + 16 * p))
    ⟨if p < w then BitVec.ofNat 64 (natSum ((List.range vals.length).map fun i => bnat ((BitVec.ofInt 8 (nthD vals i 0)).getLsbD p) * 2 ^ i)) else 0, true, false⟩) m
/-- A completion token that an engine sends. -/
def etok (e : Eng) (w : Val) : Packet := .token { fp, slot := 2, v := w, src := some 5, eng := some e }
/-- Engine e of core 5 acts on a command when its cycles are over. -/
def engGo (e : Eng) (i : Instr) (s : State) : State :=
  match exec i { s.modDie (coreDie 5) (fun d => { d with cclk := d.cclk + 100000 }) with focus := .engine 5 e } with | .next t => t | _ => s
/-- The vector engine of core 5 runs the command of one block to its end over a memory: its start, its block, its end. -/
def vecRun (m : List Host.Cell) (i : Instr) (ops : List Val) : List Host.Cell × List Packet :=
  let t := engGo .vec i (engGo .vec i (engGo .vec i (change (demo (.null g) [] true m) fun co => { co with vecQ := [rel i ops] })))
  if (t.core 5).vec.isNone && (t.core 5).vecQ == [] then (t.mem, t.net) else ([], [])
def els (m : List Host.Cell) (base : Nat) (w : Nat) (code : BitVec 2) (n : Nat) : List (Option Int) :=
  (List.range n).map fun l => (PSet.el { core := 5, base, w, code, g := false } m 0 l).map elInt
theorem test_vadd :
    let m := planes (planes [] 0 4 [7, -8, 3]) 128 4 [1, -1, -3]
    let r := vecRun m (.vadd xf (vf 3 3 3 0 0 0)) [desc 0 3, desc 128 3, desc 256 3]
    Memory.wf m = true ∧ els r.1 256 4 0 3 = [some (-8), some 7, some 0] ∧ r.2 = [etok .vec (v 0)] := by decide
theorem test_vadd_saturates : let m := planes (planes [] 0 4 [7, -8, 3]) 128 4 [1, -1, -3]
    els (vecRun m (.vsub xf { vf 3 3 3 0 0 0 with sat := true }) [desc 0 3, desc 128 3, desc 256 3]).1 256 4 0 3 = [some 6, some (-7), some 6] := by decide
/-- The example of R247: bytes 100, 243 and 242. -/
theorem test_unpack : let r := vecRun (putWord [] (wordKey 5 0) ⟨0xF2F364, true, false⟩) (.unpackT5 xf (vf 0 0 0 0 0 1)) [desc 0 15, desc 128 15]
    els r.1 128 1 1 15 = [some 1, some 0, some (-1), some 0, some 1, none, none, none, none, none, some (-1), some (-1), some (-1), some (-1), some (-1)] ∧ r.2 = [etok .vec (v 5)] := by decide
/-- The example after R247: scores of 10 or more, their indices packed. -/
theorem test_screening :
    let m := planes [] 0 8 [12, -3, 40, 7, 40, 0]
    let m1 := (vecRun m (.vfill xf (vf 0 0 7 0 0 0)) [v 10, desc 1024 6]).1
    let m2 := (vecRun m1 (.vcmp xf (vf 7 7 0 0 0 1 false 5)) [desc 0 6, desc 1024 6, desc 2048 6]).1
    let r := vecRun m2 (.vcompact xf (vf 7 0 2 0 1 1 true)) [desc 0 6, desc 2048 6, desc 3072 6]
    els m2 2048 1 1 6 = [some 1, some 0, some 1, some 0, some 1, some 0] ∧ els r.1 3072 3 1 3 = [some 0, some 2, some 4] ∧ r.2 = [etok .vec (v 0x300000003)] := by decide
/-- An empty source word is waited on. -/
theorem test_vector_waits :
    let i := Instr.vneg xf (vf 0 0 0 0 0 0)
    let s := { change (demo (.null g) []) (fun co => { co with vecQ := [rel i [desc 0 1, desc 128 1]] }) with focus := .engine 5 .vec }
    (vfOf i).isSome = true ∧ ((engGo .vec i (engGo .vec i s)).core 5).vec.bind (·.waitW) = some (wordKey 5 0) := by decide
/-- VRED, VSCAN, VTOPK, VEXPAND, VGATHER, VSCATTER, VSELECT and VXOR on a few elements, by hand from R232 to R241. -/
theorem test_vector_moves :
    let m := planes (planes [] 0 4 [5, -3, 7, -3]) 128 1 [-1, 0, -1, -1]
    let ops := [desc 0 4, desc 128 4, desc 512 4]
    (vecRun m (.vred xf (vf 3 0 0 0 0 0)) [desc 0 4]).2 = [etok .vec (v 6)] ∧ (vecRun m (.vred xf (vf 3 0 0 0 0 0 false 2)) [desc 0 4]).2 = [etok .vec (v (2 ^ 64 - 3))] ∧
    (let r := vecRun m (.vscan xf (vf 3 0 7 0 0 0 true)) [desc 0 4, desc 512 4]; els r.1 512 8 0 4 = [some 0, some 5, some 2, some 9] ∧ r.2 = [etok .vec (v 6)]) ∧
    (let r := vecRun m (.vtopk xf (vf 3 0 3 0 0 1 true 2)) [desc 0 4, desc 512 3]; els r.1 512 4 1 3 = [some 1, some 3, some 0] ∧ r.2 = [etok .vec (v 3)]) ∧
    (let r := vecRun m (.vexpand xf (vf 3 0 3 0 0 0)) ops; els r.1 512 4 0 4 = [some 5, some 0, some (-3), some 7] ∧ r.2 = [etok .vec (v 3)]) ∧
    (let r := vecRun m (.vgather xf (vf 3 3 3 0 0 0)) [desc 0 4, desc 0 4, desc 512 4]; els r.1 512 4 0 2 = [none, none] ∧ r.2 = [etok .vec (v 4)]) ∧
    (let r := vecRun m (.vscatter xf (vf 3 0 3 0 0 0)) ops; els r.1 512 4 0 1 = [some (-3)] ∧ r.2 = [etok .vec (v 3)]) ∧
    els (vecRun m (.vxor xf (vf 3 3 3 0 0 0)) [desc 0 4, desc 0 4, desc 512 4]).1 512 4 0 4 = [some 0, some 0, some 0, some 0] := by decide
/-- Nothing is gated where no bank is. -/
theorem awake_of {s : State} (hc : ∀ c, (s.core c).gated = []) (hd : ∀ d, (s.die d).gated = []) : Awake s := by
  intro key
  unfold isGated
  split <;> simp [hc, hd]
theorem core_gated {s : State} (hl : ∀ e ∈ s.cores, e.2.gated = []) (c : Nat) : (s.core c).gated = [] := by
  have : ∀ l : Sp Core, (∀ e ∈ l, e.2.gated = []) → (l.get c {}).gated = [] := by
    intro l
    induction l with
    | nil => intro _; rfl
    | cons e l ih =>
      intro h
      obtain ⟨k, co⟩ := e
      by_cases hk : c = k
      · simpa [Sp.get, Sp.find?, hk] using h (k, co) (by simp)
      · simpa [Sp.get, Sp.find?, hk] using ih fun e he => h e (by simp [he])
  exact this s.cores hl
/-- A state with one command in an engine of core 5. -/
def inEng (f : Core → Core) (e : Eng) (m : List Host.Cell) : State := { change (demo (.null g) [] true m) f with focus := .engine 5 e }
theorem awake_inEng {f : Core → Core} (hf : ∀ co, (f co).gated = co.gated) (e : Eng) (m : List Host.Cell) : Awake (inEng f e m) :=
  awake_of (core_gated (by simp [inEng, change, demo, hf])) fun _ => rfl
/-- The command stands at the head of the matrix engine, the integrator array, copy stream 1 of core 5. -/
def inMat (i : Instr) (ops : List Val) (nodes : Sp Node := []) (m : List Host.Cell := []) : State :=
  inEng (fun co => { co with mat := some { cmd := rel i ops, started := true, till := some 0 }, nodes }) .mat m
def inDda (i : Instr) (ops : List Val) (d : Dda := {}) (m : List Host.Cell := []) : State := inEng (fun co => { co with dda := { d with queue := [rel i ops] } }) .dda m
def inCpy (i : Instr) (ops : List Val) (m : List Host.Cell := []) : State := inEng (fun co => { co with streams := [(1, { queue := [rel i ops] })] }) (.cpy 1) m
theorem test_heads (i : Instr) (ops : List Val) (nodes : Sp Node) (d : Dda) (m : List Host.Cell) :
    MatHead (inEng (fun co => { co with matQ := [rel i ops], nodes }) .mat m) 5 (rel i ops) [] ∧ DdaHead (inDda i ops d m) 5 (rel i ops) [] ∧ CpyHead (inCpy i ops m) 5 1 (rel i ops) [] ∧
    VecHead (inEng (fun co => { co with vecQ := [rel i ops] }) .vec m) 5 (rel i ops) [] := by
  refine ⟨⟨rfl, rfl, rfl, rfl⟩, ⟨rfl, rfl, rfl⟩, ⟨rfl, rfl, rfl, rfl⟩, ⟨rfl, rfl, rfl, rfl⟩⟩
/-- The vector engine of core 5 runs a command at its first block. -/
def inVec (i : Instr) (ops : List Val) (m : List Host.Cell) (blk : Nat := 0) : State := inEng (fun co => { co with vec := some { cmd := rel i ops, blk } }) .vec m
theorem test_vector_on (i : Instr) (ops : List Val) (m : List Host.Cell) (blk : Nat) : Awake (inVec i ops m blk) ∧
    VecOn (inVec i ops m blk) 5 (rel i ops) [] { cmd := rel i ops, blk } := by
  refine ⟨?_, rfl, rfl, rfl, Nat.zero_le _, rfl, rfl⟩
  exact awake_inEng (f := fun co => { co with vec := some { cmd := rel i ops, blk } }) (fun _ => rfl) _ _
/-- The premises of the statements about a block: the checks hold, the words are full, the destination has room; F32 and integer, in
both layouts of UNPACK.T5; and a command behind its last block. -/
theorem test_vector_premises :
    let m := planes (planes [] 0 4 [5, -3, 7, -3]) 128 4 [-1, 0, -1, -1]
    let ok := fun (i : Instr) (w : VF) (ops : List Val) => let s := inVec i ops m; let r := rel i ops; let d := vSet r w 2
      vfOf i == some w && i.wf && (match vecCheck s 5 i w r.ops with | none => true | _ => false) && decide (0 < cdiv (vecCount r) 1024) && decide (d.base + d.size ≤ 2 ^ 17) &&
        (firstEmpty m ((vSet r w 0).needs 0 (List.range 4) ++ (vSet r w 1).needs 0 (List.range 4))).isNone
    let w0 := vf 3 3 3 0 0 0
    Memory.wf m = true ∧ ok (.vadd xf w0) w0 [desc 0 4, desc 128 4, desc 1024 4] = true ∧ ok (.vscatter xf w0) w0 [desc 0 4, desc 128 4, desc 1024 4] = true ∧
    ok (.vscan xf (vf 3 0 3 0 0 0)) (vf 3 0 3 0 0 0) [desc 0 4, desc 1024 4] = true ∧ ok (.vred xf (vf 3 0 0 0 0 0)) (vf 3 0 0 0 0 0) [desc 0 4] = true ∧
    (vecCheck (inVec (.vadd xf (vf 0 0 0 2 2 2)) [] m) 5 (.vadd xf (vf 0 0 0 2 2 2)) (vf 0 0 0 2 2 2) [desc 0 4, desc 1024 4, desc 2048 4]).isNone = true ∧
    (Instr.unpackT5 xf (vf 0 0 0 0 0 1 false 1)).wf = true ∧ cdiv (vecCount (rel (.vadd xf w0) [desc 0 4, desc 128 4, desc 1024 4])) 1024 ≤ 1 ∧
    cdiv (vecCount (rel (.unpackT5 xf (vf 0 0 0 0 0 1 false 1)) [desc 0 1, desc 1024 1])) 1024 = 2 := by decide
/-- A run of n words of core 5's scratchpad, full and zero. -/
def full (b : Nat) : Nat → List Host.Cell
  | 0 => []
  | n + 1 => (b, 1) :: full (b + 1) n
theorem full_get {b n i : Nat} (h : i < n) : memGet (full b n) (b + i) = 1 := by
  induction n generalizing b i with
  | zero => omega
  | succ n ih =>
    cases i with
    | zero => simp [full, memGet]
    | succ i => simpa [full, memGet, Nat.add_comm, Nat.add_left_comm] using ih (b := b + 1) (i := i) (by omega)
theorem full_wf (b n lo : Nat) (h : lo ≤ b) : memWfFrom lo (full b n) = true := by
  induction n generalizing b lo with
  | zero => rfl
  | succ n ih => simp [full, memWfFrom, unlisted, h, ih (b + 1) (b + 1) (Nat.le_refl _)]
/-- Words 0 to 4103 of core 5's scratchpad are full: no word of an image or of a slab there is waited on. -/
def image : List Host.Cell := full (tagKey (wordKey 5 0)) 4104
theorem image_full {w : Nat} (h : w < 4104) : keyF image (wordKey 5 w) = true := by
  have : tagKey (wordKey 5 w) = tagKey (wordKey 5 0) + w := by simp [tagKey, wordKey, localKey]; omega
  simp only [keyF, this, image, full_get h]
  decide
theorem test_images_full : Memory.wf image = true ∧ firstEmpty image ((List.range 4104).map fun j => wordKey 5 (0 + j)) = none ∧
    firstEmpty image ((List.range 328).map fun j => wordKey 5 (0 + j)) = none := by
  refine ⟨full_wf _ _ _ (Nat.zero_le _), ?_, ?_⟩ <;>
  · simp only [firstEmpty, List.find?_eq_none, List.mem_map, List.mem_range]
    rintro _ ⟨j, hj, rfl⟩
    simp [image_full (w := j) (by omega)]
/-- The slabs of an MMP at words 0 and 2048, of the widths of PP register 0 after reset, lie in that run. -/
theorem test_slab_words :
    let s := inMat (.mmp xf 0 1 false false 0) [v 0, v 2048] [(1, { armed := true, count := 2 })] []
    let run : MatRun := { cmd := rel (.mmp xf 0 1 false false 0) [v 0, v 2048] }
    let A := slabA 5 run false
    let B := slabB 5 run false
    (s.node 5 1).armed = true ∧ (s.node 5 1).count ≠ 1 ∧ (s.node 5 1).due = false ∧ slabRange s 5 A 1 = false ∧ slabRange s 5 B 1 = false ∧ opNat run.cmd 0 + 4104 ≤ 2 ^ 17 ∧
    (A.needs 0 (List.range 2048) ++ B.needs 0 (List.range 2048)).all (fun k => decide (wordKey 5 0 ≤ k ∧ k < wordKey 5 4104)) = true ∧
    (match exec run.cmd.i s with | .next t => (t.core 5).mat.bind (·.waitW) | _ => none) = some (wordKey 5 0) := by decide
/-- The engine works on a command, or is at the end of a release; the words of a slab and of an image there may be full. -/
theorem test_mat_on (i : Instr) (ops : List Val) (nodes : Sp Node) (m : List Host.Cell) :
    MatOn (inMat i ops nodes m) 5 (rel i ops) [] { cmd := rel i ops, started := true, till := some 0 } ∧ Awake (inMat i ops nodes m) := by
  refine ⟨⟨rfl, rfl, rfl, rfl, ⟨0, rfl, Nat.zero_le _⟩, rfl, rfl⟩, ?_⟩
  exact awake_inEng (f := fun co => { co with mat := some { cmd := rel i ops, started := true, till := some 0 }, nodes }) (fun _ => rfl) _ _
/-- The second case of R51's example: 2^47 − 1 and 2 round to 2^46 at exponent 1. -/
theorem test_acc48 : cellAdd { m := 2 ^ 47 - 1 } 2 0 = ({ m := 2 ^ 46, x := 1 }, 0) := by decide
/-- The release of cell (0, 1) alone, 5 at F = 1, as S64 at word 16: 10, the engine free, the token with no error and nothing limited. -/
theorem test_release :
    let n : Node := { armed := true, due := true, base := 16, ofmt := 3, f := 1, mrow := 2 ^ 64 - 2, mcol := 2 ^ 64 - 3, cv := true, fp, slot := 4, cells := [(1, { m := 5 })] }
    let s := inEng (fun co => { co with mat := some { cmd := rel (.accRel xf 1) [], rel := some 1, started := true, till := some 0 }, nodes := [(1, n)] }) .mat []
    (match exec (.accRel xf 1) s with
      | .next t => (getWord t.mem (wordKey 5 17) == ⟨10, true, false⟩) && (t.core 5).mat.isNone && !(t.node 5 1).armed &&
          (t.net == [.token { fp, slot := 4, v := v 0, src := some 5, eng := some .mat }]) | _ => false) = true := by decide
def matGo (i : Instr) (ops : List Val) (nodes : Sp Node := []) : Option (Node × List Packet × Bool) :=
  match exec i (inMat i ops nodes) with | .next t => some (t.node 5 1, t.net, (t.core 5).mat.isNone) | _ => none
theorem test_matrix_registers :
    (match exec (.ppSet xf 9) (inMat (.ppSet xf 9) [v 0x3F]) with | .next t => (t.core 5).pp.get 9 0 | _ => 0) = 0x3F ∧
    (match exec (.sclSet xf 2) (inMat (.sclSet xf 2) [v (2 ^ 64 - 5)]) with | .next t => (t.core 5).sc.get 2 0 | _ => 0) = -5 ∧
    (match exec (.lbdCfg xf) (inMat (.lbdCfg xf) [v 1]) with | .next t => ((t.core 5).lbdCtl, t.net) | _ => (0, [])) = (1, [etok .mat (v 0)]) ∧
    (match exec (.sclDerive xf 1 0 0 0) (inMat (.sclDerive xf 1 0 0 0) []) with | .next t => t.net.length | _ => 0) = 1 := by decide
/-- NODE_BUSY and NODE_IDLE, arming, clearing, the count of faults. -/
theorem test_nodes :
    let arm := Instr.accArm xf 1 0 0 0 0 0
    let on : Sp Node := [(1, { armed := true, count := 2, cv := true, fp, slot := 4 })]
    (matGo arm [v 0x200000010, v 3, v 5]).map (fun r => (r.1.armed, r.1.base, r.1.count, r.1.mrow, r.1.mcol)) = some (true, 16, 2, 3, 5) ∧
    (matGo arm [v 0x200000010, v 0, v 0] on).map (fun r => (r.1.nfault, r.1.lastf, r.2.1)) = some (1, 1, [etok .mat (x 1)]) ∧
    (matGo (.accRel xf 1) []).map (fun r => (r.1.nfault, r.1.lastf, r.2.1)) = some (1, 2, [etok .mat (x 2)]) ∧ (matGo (.accRel xf 1) [] on).map (fun r => (r.1.due, r.2.2)) = some (true, false) ∧
    (matGo (.accClr xf 1) [] on).map (fun r => (r.1.armed, r.2.1.contains (.token { fp, slot := 4, v := x 5, src := some 5, eng := some .mat }))) = some (false, true) ∧
    (matGo (.mmpE xf 0 1 false false 0) [v 0, v 2048]).map (fun r => (r.1.lastf, r.2.1)) = some (2, [etok .mat (x 2)]) ∧
    (matGo (.accStat xf 1) [] [(1, { nfault := 3, lastf := 2 })]).map (fun r => (r.1.nfault, r.2.1)) = some (0, [etok .mat (v (2 * 2 ^ 56 + 3 * 2 ^ 40))]) ∧
    (matGo (.accLoad xf 1) [v 8] on).map (fun r => (r.1.lastf, r.2.2)) = some (0, false) ∧ (matGo (.accLoad xf 1) [v 8]).map (fun r => r.2.2) = some false := by decide

/-- The cells of the example after R319: 100 a step at n = 8 in domain 0, its carries into cell 1 in domain 1. -/
def twoCells : Dda := { cells := [(0, { cfg := 0x8380000000000300, y := 100 }), (1, { cfg := 0x9380000000000100, y := 50 })], doms := [(0, { d := 1 }), (1, { d := 4 })] }
def ddaGo (i : Instr) (ops : List Val) (d : Dda := twoCells) (m : List Host.Cell := []) : Option (Dda × List Packet × List Host.Cell) :=
  match exec i (inDda i ops d m) with | .next t => some ((t.core 5).dda, t.net, t.mem) | _ => none
def running : Dda := { twoCells with doms := [(0, { d := 1, run := true, next := 1 }), (1, { d := 4 })] }
theorem test_dda_control :
    (ddaGo (.ddaClk xf 0) [v 9]).map (fun r => ((r.1.dom 0).d, r.2.1)) = some (10, [tok (v 0)]) ∧ (ddaGo (.ddaClk xf 0) [v 9] running).map (·.2.1) = some [tok (condVal 1)] ∧
    (ddaGo (.ddaRun xf 3) [v 6]).map (fun r => ((r.1.dom 0).run, (r.1.dom 0).next, (r.1.dom 1).next, (r.1.dom 1).limit)) = some (true, 2, 5, 6) ∧
    (ddaGo (.ddaRun xf 3) [v 6] running).map (·.2.1) = some [tok (condVal 1)] ∧
    (ddaGo (.ddaPatch xf 0 0 false) [v 3] running wordMem).map (·.2.1) = some [tok (condVal 1)] ∧ (ddaGo (.ddaStop xf 1) [] running).map (fun r => ((r.1.dom 0).run, r.2.1)) = some (false, [tok (v 0)]) ∧
    (ddaGo (.ddaTap xf 3 0 0) [v 0, v 0]).map (fun r => ((r.1.taps.get 3 {}).mode, r.2.1)) = some (0, [tok (v 0)]) ∧
    (ddaGo (.ddaStat xf 0) [] running).map (·.2.1) = some [tok (v (2 ^ 47))] := by decide
theorem test_dda_tables :
    let m := putWord (putWord [] (wordKey 5 8) ⟨0xFFFFFFFFFFFFFF9C, true, false⟩) (wordKey 5 9) ⟨7, true, true⟩
    (ddaGo (.ddaLdy xf 0 0) [v 8] twoCells m).map (fun r => ((r.1.cell 0).y, r.2.1)) = some (-100, [tok (v 0)]) ∧ (ddaGo (.ddaLdr xf 0 0) [v 8] twoCells m).map (fun r => ((r.1.cell 0).r, r.2.1)) = some (-100, [tok (v 0)]) ∧
    (ddaGo (.ddaLdy xf 0 0) [v 9] twoCells m).map (·.2.1) = some [tok (condVal 2)] ∧ (ddaGo (.ddaLdy xf 0 1) [v 8] running m).map (·.2.1) = some [tok (condVal 1)] ∧
    (ddaGo (.ddaLdy xf 0 0) [v 10] twoCells m).map (·.1.waitW) = some (some (wordKey 5 10)) ∧ (ddaGo (.ddaPatch xf 0 0 false) [v 8] twoCells (putWord [] (wordKey 5 8) ⟨0x8380000000000300, true, false⟩)).map (fun r => (r.1.cell 0).y) = some 0 ∧
    (ddaGo (.ddaRead xf 0 0) [v 32]).map (fun r => getWord r.2.2 (wordKey 5 32)) = some ⟨BitVec.ofNat 64 (cellValue { cfg := 0x8380000000000300, y := 100 }), true, false⟩ ∧
    (ddaGo (.ddaSave xf 0) [v 0] running).map (·.2.1) = some [tok (condVal 1)] ∧ (ddaGo (.ddaRestore xf 0) [v 8]).map (·.1.waitW) = some (some (wordKey 5 8)) := by decide
/-- Steps 1 to 3 of cell 0: residues 100, −56 (a carry), 44. -/
theorem test_dda_steps :
    let c : DCell := { cfg := 0x8380000000000300, y := 100 }
    let step := fun (r : Int) => let y := cellStep [] 5 { cells := [(0, { c with r })] } (0 : Nat) (0 : Nat); (y.r, y.dz)
    step 0 = (100, 0) ∧ step 100 = (-56, 1) ∧ step (-56) = (44, 0) := by decide

/-- A copy stream waits on the first word of its nest descriptor, and starts when all twelve are full. -/
theorem test_copy :
    let i := Instr.cpyStream xf false false 1 .loc .loc 3
    let go := fun m => match exec i (inCpy i [own 0, own 64, v 128] m) with | .next t => (t.stream 5 1).cur.map fun w => (w.waitW, w.started, w.step) | _ => none
    go [] = some (some (wordKey 5 128), false, 0) ∧ go (putWord (full (tagKey (wordKey 5 128)) 12) (wordKey 5 128) ⟨1, true, false⟩) = some (none, true, 0) ∧
    go (putWord (full (tagKey (wordKey 5 128)) 12) (wordKey 5 128) ⟨1, true, true⟩) = none := by decide
theorem test_copy_control :
    let s := inCpy (.cpyStream xf false false 1 .loc .loc 3) [own 0, own 64, v 128]
    let go := fun i ops => let t := cpyControl s 5 { rel i ops with num := 1 }; ((t.stream 5 1).queue.length, (t.stream 5 1).cur.isSome, t.net.length)
    go (.cpyCancel xf false 1) [] = (1, false, 1) ∧ go (.cpyStat xf 1) [] = (1, false, 1) ∧ go (.cpyCancel xf true 1) [] = (0, false, 2) ∧
    imageEmpty s 5 (rel (.cpyResume xf true 1) [v 16]) = some (wordKey 5 16) := by decide
theorem test_copy_save :
    let go := fun i ops => match exec i (inCpy i ops) with
      | .next t => ((t.stream 5 1).queue.length, [16, 35, 36].map fun w => keyF t.mem (wordKey 5 w)) | _ => (9, [])
    go (.cpySave xf false 1) [v 16] = (0, [true, true, false]) ∧ go (.cpyResume xf false 1) [v 0] = (0, [false, false, false]) := by decide
theorem test_copy_resume :
    (match exec (.cpyResume xf false 1) (inCpy (.cpyResume xf false 1) [v 0]) with | .next t => t.net == [etok (.cpy 1) (v 1)] | _ => false) = true := by decide
/-- The first bytes of the hash of "abc" in FIPS 180-4's example. -/
theorem test_sha512_abc : (sha512 [0x61, 0x62, 0x63]).take 4 = [0xDD, 0xAF, 0x35, 0xA1] := by decide
/-! ## The block store, sequences, the pod -/

/-- A completion token that a die sends. -/
def dtok (d : Nat) (w : Val) : Packet := .token { fp, slot := 2, v := w, src := some 5, die := some d }
/-- A command of the block store, the Gauntlet or the pod at its home: the state after. -/
def done (i : Instr) (ops : List Val) (s : State) (words : List TWord := []) : Option State :=
  match exec i { s with focus := .home { rel i ops with words } } with | .next t => some t | _ => none
/-- Die 0 with a store of two blocks and two slots that is on; block 0 of layer 0 of sequence 1 lies on slot 0. Sequence 1 is open. -/
def store : State :=
  { demo (.null g) [] with dies := [(0, { (default : Die) with
      kvb := { pool := 0x0000000200000000, win := 1, ctl := 1, refs := [(0, 1)], slots := [(0, 0)], lists := [((1, 0), [0])] }
      seqs := [(1, { st := 0, p := 5 }), (2, { st := 1 }), (3, { st := 2 })] })] }
theorem test_block_store :
    let K := (store.die 0).kvb
    (store.seqOf 1).st = 0 ∧ (store.seqOf 9).st = 3 ∧ kvList K 1 0 = [0] ∧ kvBlockOf K 0 = some 0 ∧ kvFree K = 1 ∧ kvFreeSlots K = 1 ∧ K.damaged.contains 1 = false ∧
    (done (.kvbMap xf) [v 1] store).map (·.net) = some [dtok 0 (v (2 ^ 48))] ∧ (done (.kvbMap xf) [v (2 ^ 28 + 1)] store).map (·.net) = some [dtok 0 (condVal 0x13)] ∧
    (done (.kvbMap xf) [v 9] store).map (·.net) = some [dtok 0 (condVal 1)] ∧ (done (.kvbFree xf false) [v 1] store).map (fun t => (kvList (t.die 0).kvb 1 0, t.net)) = some ([], [dtok 0 (v 1)]) ∧
    (done (.kvbStat xf 0 true) [] store).map (·.net) = some [dtok 0 (v (2 ^ 22 + 1))] ∧ (done (.kvbStat xf 1 false) [] store).map (·.net) = some [dtok 1 (condVal 0x10)] ∧
    (done (.kvbShare xf 0) [v 1, v 9] store).map (·.net) = some [dtok 0 (condVal 1)] := by decide
theorem choose_some {α : Type} (s : State) (l : List α) (h : l ≠ []) : choose s l ≠ none := by
  have hn : ∀ (l : List α) n, n < l.length → nth? l n ≠ none := by
    intro l
    induction l with
    | nil => intro n h; simp at h
    | cons a l ih => intro n h; cases n with
      | zero => simp [nth?]
      | succ n => exact ih n (by simpa using h)
  have hl := hn l (Config.pick s.draws % l.length) (Nat.mod_lt _ (List.length_pos_iff.2 h))
  unfold choose
  split <;> simp_all
/-- KVB.ALLOC has a block and a slot to take. -/
theorem test_alloc_room : keyBlk 1 = 0 ∧ kvFreeBlock store (store.die 0).kvb ≠ none ∧ ∀ s', kvFreeSlot s' (store.die 0).kvb ≠ none :=
  ⟨by decide, choose_some _ _ (by decide), fun s' => choose_some s' _ (by decide)⟩

def seqGo (i : Instr) (ops : List Val) (s : State := store) (n : Nat := 1) : Option (Seq × List Packet) := (done i ops s).map fun t => (t.seqOf n, t.net)
theorem test_sequences :
    (seqGo (.seqOpen xf 0 true) [v 7, v 0] store 0).map (fun r => (r.1.st, r.1.trapt, r.2)) = some (0, 7, [dtok 0 (v 0)]) ∧
    (seqGo (.seqEmit xf) [v 1, v 41]).map (fun r => (r.1.p, r.1.hist, r.2)) = some (6, [41], [dtok 0 (v (2 ^ 25))]) ∧ (seqGo (.seqEmit xf) [v 2, v 41]).map (·.2) = some [dtok 0 (condVal 3)] ∧
    (seqGo (.seqEmit xf) [v 3, v 41]).map (·.2) = some [dtok 0 (condVal 2)] ∧ (seqGo (.seqEmit xf) [v 9, v 41]).map (·.2) = some [dtok 0 (condVal 1)] ∧
    (seqGo (.seqDraft xf) [v 1, v 41]).map (fun r => (r.1.p, r.1.drafts.map (·.1))) = some (5, [41]) ∧ (seqGo (.seqConfirm xf false) [v 1, v 0, v 0]).map (·.2) = some [dtok 0 (condVal 6)] ∧
    (seqGo (.seqReject xf) [v 1, v 0]).map (·.2) = some [dtok 0 (v 0)] ∧ (seqGo (.seqResume xf) [v 2] store 2).map (fun r => (r.1.st, r.2)) = some (0, [dtok 0 (v 0)]) ∧
    (seqGo (.seqResume xf) [v 1]).map (·.2) = some [dtok 0 (v 1)] ∧ (seqGo (.seqClose xf) [v 1]).map (·.1.st) = some 3 := by decide
theorem test_watches :
    let w : List TWord := [⟨41, true, false⟩, ⟨42, true, false⟩, {}, {}, {}, {}, {}, {}]
    ((done (.wchSet xf 2 1 1 0) [v 1, v 0] store w).map fun t => (((t.seqOf 1).pats.get 2 {}).sym, ((t.seqOf 1).pats.get 2 {}).act)) = some ([41, 42], 1) ∧
    ((done (.wchSet xf 2 1 1 0) [v 1, v 0] store (⟨0, true, true⟩ :: w.tail)).map (·.net)) = some [dtok 0 (condVal 9)] ∧
    (seqGo (.wchBudget xf 1 4) [v 1, v 3, v 7]).map (fun r => r.1.buds.get 1 {}) = some { act := 4, sym := 7, limit := 3, count := 0, armed := true } ∧
    (seqGo (.wchClr xf 0xFF 0xF true) [v 1]).map (fun r => (r.1.notify, r.2)) = some (0, [dtok 0 (v 0)]) ∧ (seqGo (.wchStat xf) [v 9]).map (·.2) = some [dtok 0 (v (3 * 2 ^ 37))] := by decide
/-- The example of chapter 17: the summary is 0x0000_0012_8400_824D, the sequence traps with P = 14. -/
theorem test_gauntlet :
    let Q : Seq := { st := 0, p := 10, pats := [(0, { len := 1, act := 4, sym := [500] }), (1, { len := 2, act := 3, sym := [41, 42], inj := [43, 44] }), (2, { len := 2, act := 1, sym := [42, 43] })]
                     buds := [(0, { act := 1, sym := 0xFFFFF, limit := 12, count := 10, armed := true }), (1, { act := 5, sym := 44, limit := 1, armed := true })] }
    let s := { store with dies := [(0, { (default : Die) with seqs := [(1, Q)] })] }
    let s3 := [41, 42, 500].foldl (fun s n => (s.bind (done (.seqDraft xf) [v 1, v n])).map fun t => { t with net := [] }) (some s)
    (s3.bind fun t => seqGo (.seqConfirm xf false) [v 1, v 3, v 0] t).map (fun r => (r.1.st, r.1.p, r.2.contains (dtok 0 (v 0x000000128400824D)))) = some (2, 14, true) := by decide

/-- Port 0 is partition 1's. -/
def ported (s : State) : State := { s with pkg := { s.pkg with portOwn := [(0, 0x81)] } }
theorem test_pod_held : ([(.podPut xf false .loc, [v (2 ^ 54), own 0, v 8]), (.podGet xf true true .loc, [v (2 ^ 54), own 8, v 0x80]), (.podAmo xf false false 0 false false, [v (2 ^ 54 + 8), v 1, v 0]),
      (.podAmo xf false true 0 false false, [v 3, v 0, v 0]), (.colStat xf, [])] : List (Instr × List Val)).all (fun e =>
    let s := ported (demo e.1 e.2)
    runs s 5 0 0 (fi e.1 e.2) e.1 e.2 && coreOwns s 5 && held s e.1 == some 1) = true := by decide
theorem test_pod_traps : ([(.podPut xf false .loc, [x 8, own 0, v 8], (5, 8, 4)), (.podPut xf false .loc, [v 8, own 0, x 8], (5, 8, 0x20000)),
      (.podGet xf false false .loc, [v (2 ^ 48), own 0, v 8], (0x28, 2 ^ 48, 1)), (.podPut xf false .loc, [v 8, own 0, v 12], (0x28, 12, 0x202)),
      (.podAmo xf false false 0 false false, [x 8, v 0, v 0], (5, 8, 4)), (.podAmo xf false false 0 false false, [v (2 ^ 50), v 0, v 0], (0x28, 2 ^ 50, 1)),
      (.podAmo xf false false 0 true false, [v 6, v 0, v 0], (0x28, 6, 2)), (.podAmo xf false true 0 false false, [v 3, v 0, v 0], (0x0C, 3, 0x2100)),
      (.colAllred xf 2 0, [x 0, v 0, v 0], (5, 0, 0)), (.colBcast xf 2, [v 0, x 8, v 0], (5, 8, 0x10004)), (.colAllgath xf 2, [v 0, v 8, x 16], (5, 16, 0x20000)),
      (.colStat xf, [], (0x0C, 0, 0x2100))] : List (Instr × List Val × Nat × Nat × Nat)).all (fun e =>
    meets e.1 e.2.1 && traps (demo e.1 e.2.1) e.1 == some e.2.2) = true := by decide
theorem test_pod_home :
    (done (.podPut xf false .loc) [v (2 ^ 54), own 0, v 8] (demo (.null g) [])).map (·.net) = some [tok (podErr 0x31 0)] ∧
    hasPeer (demo (.null g) []) (corePart (demo (.null g) []) 5) 1 = false ∧ pkgNo (demo (.null g) []) = 0 ∧ colDesc (demo (.null g) []) 5 0 0 = none ∧
    (done (.colAllred xf 2 0) [v 0, v 0, v 0] (demo (.null g) [])).map (fun t => (t.pkg.pod.lastr, t.pkg.pod.done, t.net)) = some (0x39, 1, [tok (podErr 0x39 0)]) ∧
    (done (.colStat xf) [] (demo (.null g) [])).map (fun t => t.net.length) = some 1 ∧ (done (.gangSync .always) [v 2] (demo (.null g) [])).map (·.net) = some [tok (x 1)] := by decide
/-! ## Copies, patches, confirmations, steps: the premises of their statements -/

/-- A started command of copy stream 1 of core 5, with the words of its nest descriptor, the rest zero. -/
def copying (i : Instr) (ops : List Val) (nest : List Nat) : CpyRun :=
  { cmd := rel i ops, started := true, nest := (List.range 12).map fun j => BitVec.ofNat 64 (nthD nest j 0) }
def onCpy (run : CpyRun) (m : List Host.Cell := []) (co : Core → Core := id) : State :=
  inEng (fun c => { co c with frameBase := 0x1FFFF, streams := [(1, { cur := some run })] }) (.cpy 1) m
theorem test_copy_on (run : CpyRun) (m : List Host.Cell) (h : run.started = true) (hp : run.paused = false) (hc : run.cmd.core = 5)
    (he : engOf run.cmd.i = some (.cpy 1)) : CpyOn (onCpy run m) 5 1 run.cmd [] run ∧ Awake (onCpy run m) :=
  ⟨⟨rfl, rfl, rfl, rfl, h, hp, hc, he⟩, awake_inEng (f := fun c => { id c with frameBase := 0x1FFFF, streams := [(1, { cur := some run })] }) (fun _ => rfl) _ _⟩
/-- `Plain` and `Reach` as tests, with the places that the checks give. -/
def plainB (s : State) (loc : Loc) : Bool :=
  loc.slot == none && (loc.space != .global || ((match physKind s loc.key with | .dram _ | .host => true | _ => false) && loc.key % 64 == loc.va % 64 &&
    kvPrivate s (loc.key / 8 * 8) == none && s.images.all fun r => !decide (r.1 ≤ loc.key ∧ loc.key < r.1 + r.2)))
def placeAt (s : State) (sp : Space) (write : Bool) (va j : Nat) : Loc :=
  match checkAddr s (copyAsk 5 sp write) (blockAt sp va j % 2 ^ 64) with
  | .ok loc _ => { loc with key := loc.key + (va + j - blockAt sp va j), va := loc.va + (va + j - blockAt sp va j) }
  | _ => { space := sp, key := 0, va := 0 }
def reachB (s : State) (sp : Space) (write : Bool) (va n : Nat) : Bool :=
  (List.range n).all fun j => plainB s (placeAt s sp write va j) &&
    match checkAddr s (copyAsk 5 sp write) (blockAt sp va j % 2 ^ 64) with | .ok _ _ => true | _ => false
theorem reach_of {s : State} {sp : Space} {write : Bool} {va n : Nat} (h : reachB s sp write va n = true) :
    Reach s 5 sp write va n (placeAt s sp write va) := by
  intro j hj
  have h' := List.all_eq_true.1 h j (List.mem_range.2 hj)
  rw [Bool.and_eq_true] at h'
  refine ⟨⟨?_, ?_⟩, ?_⟩
  · have := h'.1
    simp only [plainB, Bool.and_eq_true, beq_iff_eq] at this
    exact this.1
  · intro hg
    have := h'.1
    simp only [plainB, hg, bne_self_eq_false, Bool.false_or, Bool.and_eq_true, beq_iff_eq, List.all_eq_true, Bool.not_eq_true',
      decide_eq_false_iff_not] at this
    refine ⟨?_, this.2.1.1.2, this.2.1.2, this.2.2⟩
    have hk := this.2.1.1.1
    split at hk <;> simp_all
  · have hc := h'.2
    unfold placeAt
    split at hc
    · rename_i loc t heq
      exact ⟨loc, t, heq, rfl⟩
    · cases hc
theorem warm_of {s : State} {c : Nat} (h : (s.die (coreDie c)).qtlb = []) : Warm s c := by
  intro va t ht
  unfold tlbFind at ht
  split at ht
  · cases ht
  · split at ht
    · rename_i heq
      cases ht
      exact List.mem_of_find?_eq_some heq
    · simp [h, Sp.get, Sp.find?] at ht

def moveI (b1 b2 : Bool) : Instr := .cpyStream xf b1 b2 1 .loc .loc 3
def nest8 : List Nat := [1, 2 ^ 48 + 8, 8]
/-- Two full words at word 512 of core 5. -/
def twoWords : List Host.Cell := putWord (putWord [] (wordKey 5 512) ⟨0x1122, true, false⟩) (wordKey 5 513) ⟨0x3344, true, true⟩
/-- The last of the command's steps, behind which nothing is read ahead. -/
def stepOf (run : CpyRun) (m : List Host.Cell := []) (co : Core → Core := id) : Option (State × Stream) :=
  match exec run.cmd.i (onCpy run m co) with | .next t => some (t, t.stream 5 1) | _ => none
def cpyTok (w : Val) : List Packet := [etok (.cpy 1) w]
theorem test_stream_moves :
    let run := fun (a : Nat) => { copying (moveI true true) [own a, own 0x1FF8, v 0] nest8 with step := 1, done := 1 }
    let r := run 0xFF8
    let s := onCpy r twoWords
    nestNd r.nest ≤ 5 ∧ nestU r.nest = 2 ∧ nestAddr r.nest (5 * 2 ^ 20 + 0xFF8) 1 false = 5 * 2 ^ 20 + 0x1000 ∧ nestAddr r.nest (5 * 2 ^ 20 + 0x1FF8) 1 true = 5 * 2 ^ 20 + 0x2000 ∧
    reachB s .loc false (5 * 2 ^ 20 + 0x1000) 8 = true ∧ reachB s .loc true (5 * 2 ^ 20 + 0x2000) 8 = true ∧
    (stepOf r twoWords).map (fun a => (getWord a.1.mem (wordKey 5 1024), a.2, a.1.net)) = some (⟨0x1122, true, false⟩, {}, cpyTok (v 2)) ∧
    (stepOf (run 0x1000) twoWords).map (fun a => (getWord a.1.mem (wordKey 5 1024), a.2, a.1.net)) = some (⟨0, true, true⟩, {}, cpyTok (v (2 ^ 32 + 2))) ∧
    (stepOf r).map (fun a => a.2.cur.bind (·.waitW)) = some (some (wordKey 5 512)) := by decide
/-- A unit read ahead is written where its destination was translated; a GLOBAL address that no TLB holds asks for a walk. -/
theorem test_stream_ahead :
    let run := { copying (moveI false true) [own 0, own 0x1FF8, v 0] nest8 with step := 1, done := 1 }
    let ps := match place (onCpy run) 5 .loc (5 * 2 ^ 20 + 0x2000) 0 8 true true 8 (5 * 2 ^ 20 + 0x2000) with | .ok ps => ps | _ => []
    let go := stepOf { run with ahead := [((List.range 8).map fun j => (j, false), ps)] }
    ps ≠ [] ∧ go.map (fun a => (getWord a.1.mem (wordKey 5 1024), a.1.net)) = some (⟨0x0706050403020100, true, false⟩, cpyTok (v 2)) ∧
    (stepOf { copying (.cpyStream xf false false 1 .loc .global 3) [own 0xFF8, v 0, v 0] nest8 with step := 1 } twoWords).map (fun a => a.2.cur.bind (·.waitWalk)) = some (some (8, true)) := by decide
/-- An address in error pauses: past 2^32, of a die that is not there, not aligned, in the frame area. -/
theorem test_stream_pauses : ([(v (2 ^ 32), own 0, 1, 2 ^ 32 + 8), (v (24 * 2 ^ 27), own 0, 2, 24 * 2 ^ 27 + 8), (own 0x1004, own 0, 0x38, 5 * 2 ^ 20 + 0x100C),
      (own 0xFF8, own 0xFFFF0, 0x30, 2 ^ 53 + 5 * 2 ^ 20 + 0xFFFF8)] : List (Val × Val × Nat × Nat)).all (fun e =>
    match stepOf { copying (moveI false false) [e.1, e.2.1, v 0] nest8 with step := 1 } twoWords with
    | some (t, z) => (z.cur.map fun w => (w.paused, w.reason)) == some (true, e.2.2.1) && z.lastr == e.2.2.1 && t.net == cpyTok (x (e.2.2.1 * 2 ^ 56 + 2 ^ 54 + e.2.2.2)) && t.mem == twoWords
    | none => false) = true := by decide

/-- A plane set of width 1 at word 1024 against its image at word 512: element 2 is in error, elements 0 and 2 have their bit. -/
def planesI (dir : Bool) : CpyRun := copying (.cpyPlanes xf true true 1 .loc dir false 0 0 0 0 false false) [own 0x1000, v 1024, v 0] [1]
def setWords (base : Nat) : List Host.Cell :=
  memPut (memPut (full (tagKey (wordKey 5 base)) 32) (wordKey 5 base) 5 1) (wordKey 5 (base + 16)) 4 1
def pair (m : List Host.Cell) (base : Nat) : TWord × TWord := (getWord m (wordKey 5 base), getWord m (wordKey 5 (base + 16)))
theorem test_planes_premises :
    let p := cpySet (planesI true).cmd
    p.base = 1024 ∧ p.size = 32 ∧ p.parts = 2 ∧ nestU (planesI true).nest = 1 ∧ Memory.wf (setWords 512) = true ∧ Memory.wf (setWords 1024) = true ∧
    reachB (onCpy (planesI false) (setWords 512)) .loc false (5 * 2 ^ 20 + 0x1000) 128 = true ∧ reachB (onCpy (planesI false) (setWords 512)) .loc false (5 * 2 ^ 20 + 0x1080) 128 = true ∧
    reachB (onCpy (planesI true) (setWords 1024)) .loc true (5 * 2 ^ 20 + 0x1000) 256 = true := by decide
theorem test_planes :
    (stepOf (planesI false) (setWords 512)).map (fun a => (pair a.1.mem 1024, a.2, a.1.net)) = some ((⟨1, true, false⟩, ⟨4, true, false⟩), {}, cpyTok (v 1)) ∧
    (stepOf (planesI true) (setWords 1024)).map (fun a => (pair a.1.mem 512, a.2, a.1.net)) = some ((⟨1, true, false⟩, ⟨4, true, false⟩), {}, cpyTok (v 1)) ∧
    (stepOf (planesI false)).map (fun a => a.2.cur.bind (·.waitW)) = some (some (wordKey 5 512)) ∧ (stepOf (planesI true)).map (fun a => a.2.cur.bind (·.waitW)) = some (some (wordKey 5 1024)) := by decide
/-- One S8 unit, −3, into planes of width 4 and out of them. -/
def convI (dir : Bool) : CpyRun := copying (.cpyConv xf true true 1 .loc dir 3 3 0 false false 0) [own 0x1000, v 1024, v 0] [1]
theorem test_conv :
    let m := putWord [] (wordKey 5 512) ⟨0xFD, true, false⟩
    let p := planes [] 1024 4 [-3]
    let s := onCpy (convI false) m
    nestU (convI false).nest = 1 ∧ reachB s .loc false (5 * 2 ^ 20 + 0x1000) 1 = true ∧ reachB s .loc true (5 * 2 ^ 20 + 0x1000) 1 = true ∧ Memory.wf p = true ∧
    (stepOf (convI false) m).map (fun a => (els a.1.mem 1024 4 0 1, a.2, a.1.net)) = some ([some (-3)], {}, cpyTok (v 1)) ∧
    (stepOf (convI true) p).map (fun a => ((getWord a.1.mem (wordKey 5 512)).d, a.2, a.1.net)) = some (0xFD, {}, cpyTok (v 1)) ∧
    (stepOf (convI false)).map (fun a => a.2.cur.bind (·.waitW)) = some (some (wordKey 5 512)) ∧ (stepOf (convI true)).map (fun a => a.2.cur.bind (·.waitW)) = some (some (wordKey 5 1024)) := by decide
theorem test_warm (r : CpyRun) (m : List Host.Cell) : Warm (onCpy r m) 5 := warm_of rfl
/-- The start: a nest of zeros is no nest; one set past the scratchpad ends with RANGE; another is kept. -/
theorem test_copy_starts :
    let words := full (tagKey (wordKey 5 128)) 12
    let go := fun (i : Instr) (b : Val) (m : List Host.Cell) => match exec i (inCpy i [own 0x1000, b, v 128] m) with
      | .next t => ((t.stream 5 1).cur.map (·.started), (t.stream 5 1).lastr, t.net) | _ => (none, 0, [])
    let one := memPut words (wordKey 5 128) 1 1
    go (planesI false).cmd.i (v 1024) words = (none, 0x41, cpyTok (condVal 0x41)) ∧ go (planesI false).cmd.i (v 0x1FFF0) one = (none, 0x42, cpyTok (condVal 0x42)) ∧
    go (convI false).cmd.i (v 0x1FFF0) one = (none, 0x42, cpyTok (condVal 0x42)) ∧ go (convI false).cmd.i (v 1024) one = (some true, 0, []) := by decide
/-- CPY.SAVE of a command at its second unit, paused: the stream's image; CPY.RESUME from it, and from images that are bad. -/
def halted : CpyRun := { copying (moveI true true) [own 0xFF8, own 0x1FF8, v 0] nest8 with step := 1, done := 1, paused := true, reason := 2 }
def ctl (s : State) (i : Instr) : State := cpyControl { s with net := [] } 5 { rel i [v 512] with num := 1 }
def imaged : State := ctl (onCpy halted) (.cpySave xf true 1)
def told (t : State) (cur : Option (Bool × Nat × Nat)) (reason : Nat) (net : List Packet) : Bool :=
  ((t.stream 5 1).cur.map fun w => (w.paused, w.step, w.done)) == cur && ((t.stream 5 1).cur.all fun w => w.cmd.i == moveI true true) &&
    (t.stream 5 1).lastr == reason && t.net == net
theorem test_copy_images :
    let word := fun j => (getWord imaged.mem (wordKey 5 (512 + j))).d.toNat
    let load := fun (m : List Host.Cell) => told (ctl { imaged with mem := m } (.cpyResume xf true 1))
    (imaged.stream 5 1).cur = none ∧ (word 1, word 5, word 7, word 8) = (5 * 2 ^ 20 + 0xFF8, 1, 1, 1) ∧ imageInstr (word 0) (word 4 / 2 ^ 32 % 128) 1 = some (moveI true true) ∧
    load imaged.mem (some (true, 1, 1)) 0 (cpyTok (v 0)) = true ∧ load (setTags imaged.mem (wordKey 5 515) true true) none 0x41 (cpyTok (condVal 0x41)) = true ∧
    load (memPut imaged.mem (wordKey 5 516 + 5) 0 1) none 0 (cpyTok (v 0)) = true ∧ load (memPut imaged.mem (wordKey 5 520) 0 1) none 0x41 (cpyTok (condVal 0x41)) = true := by decide
theorem test_copy_halted :
    told (ctl (onCpy halted imaged.mem) (.cpyResume xf true 1)) (some (true, 1, 1)) 0x44 (cpyTok (condVal 0x44)) = true ∧
    told (ctl (onCpy halted) (.cpyResume xf false 1)) (some (false, 1, 1)) 0 (cpyTok (v 0)) = true ∧
    (ctl (onCpy halted) (.cpyStat xf 1)).net = cpyTok (v (2 * 2 ^ 40 + 1)) ∧
    told (ctl (onCpy halted) (.cpyCancel xf false 1)) none 0x43 [etok (.cpy 1) (x (0x43 * 2 ^ 56 + 1)), etok (.cpy 1) (v 0)] = true := by decide

/-- DDA.PATCH: a good word and links, a cell of width 6, one of a running domain. -/
theorem test_patch :
    let m := fun (w : BitVec 64) => putWord (full (tagKey (wordKey 5 8)) 17) (wordKey 5 8) ⟨w, true, false⟩
    let go := fun (w : BitVec 64) (d : Dda) => (ddaGo (.ddaPatch xf 0 0 true) [v 8] d (m w)).map fun r => ((r.1.cell 0).cfg, r.1.links.length, r.2.1)
    let good : BitVec 64 := 0x8380000000000300
    Memory.wf (m good) = true ∧ go good twoCells = some (good, 16, [tok (v 0)]) ∧ go 0x8300000000000300 twoCells = some (good, 0, [tok (condVal 2)]) ∧
    go good running = some (good, 0, [tok (condVal 1)]) ∧ go (good ||| 1) twoCells = some (good, 0, [tok (condVal 2)]) := by decide
/-- Every cell has five latches; none of the steps of cclk 1 stops. -/
theorem test_five (j : Nat) : (running.cell j).lat.length = 5 := by
  show (Sp.get [(0, ({ cfg := 0x8380000000000300, y := 100 } : DCell)), (1, { cfg := 0x9380000000000100, y := 50 })] j {}).lat.length = 5
  by_cases h0 : j = 0
  · subst h0; rfl
  by_cases h1 : j = 1
  · subst h1; rfl
  simp [Sp.get, Sp.find?, h0, h1]
theorem test_steps_run :
    let c := running.cell 0
    linkEntries running = [] ∧ running.taps = [] ∧ ((List.range 256).filter fun j => (running.cell j).cfg.getLsbD 63 && cellDom (running.cell j).cfg == 0) = [0] ∧
    srcAt c.cfg 0 = .tick ∧ cellN c.cfg = 8 ∧ |c.y| < 2 ^ 7 ∧ c.r + c.y < 2 ^ 7 := by decide

/-- KVB.SHARE of a block to a child that is open and lists nothing. -/
theorem test_share :
    let s := { store with dies := store.dies.map fun (e : Nat × Die) => (e.1, { e.2 with seqs := (4, { st := 0 }) :: e.2.seqs, kvb := { e.2.kvb with slots := [(0, 0)] } }) }
    let K := (s.die 0).kvb
    (s.seqOf 4).st = 0 ∧ kvFreeSlots K = 1 ∧ kvList K 4 0 = [] ∧ K.refs.get 0 0 = 1 ∧ (K.slots.map (·.1)).Nodup ∧
    (exec (.kvbShare xf 0) { s with focus := .home (rel (.kvbShare xf 0) [v 1, v 4]) } matches .next _) = true := by decide
/-- An entry with patterns and a budget, after a symbol that stops it and after one that notifies. -/
def watched : Seq :=
  { st := 0, p := 10, pats := [(0, { len := 1, act := 4, sym := [500] }), (2, { len := 2, act := 1, sym := [42, 43] })]
    hist := [42], buds := [(0, { act := 1, sym := 0xFFFFF, limit := 12, count := 10, armed := true })] }
def then_ (y : Nat) : Seq := { watched with p := 11, hist := [42, y], buds := [(0, { act := 1, sym := 0xFFFFF, limit := 12, count := 11, armed := true })] }
theorem test_confirmed :
    Confirmed watched 500 (then_ 500) (· == 0) ∧ Winner (then_ 500) (· == 0) (some 0) ∧ notified (then_ 500) (· == 0) = 0 ∧
    Confirmed watched 43 (then_ 43) (· == 2) ∧ Winner (then_ 43) (· == 2) none ∧ notified (then_ 43) (· == 2) = 4 := by
  refine ⟨⟨rfl, ?_, by decide⟩, ?_, by decide, ⟨rfl, ?_, by decide⟩, ?_, by decide⟩ <;> first | (unfold Hits; decide) | (unfold Winner; decide)
theorem test_watched :
    let s := { store with dies := store.dies.map fun (e : Nat × Die) => (e.1, { e.2 with seqs := [(1, watched)] }) }
    (seqGo (.seqEmit xf) [v 1, v 500] s).map (fun r => (r.1.st, r.2)) = some (1, [dtok 0 (v (2 ^ 30 + 2 ^ 25 + 4))]) ∧
    (seqGo (.seqEmit xf) [v 1, v 43] s).map (fun r => (r.1.notify, r.2)) = some (4, [dtok 0 (v (2 ^ 25 + 4 * 2 ^ 7))]) := by decide
/-! ## Machine events -/

/-- The event taken up in a state: the state after. -/
def ev (i : Instr) (e : Event) (s : State) : Option State := match exec i (onEvent s e) with | .next t => some t | _ => none

theorem test_start_complete_commit :
    let r := fun n cls tick => ({ fp := mkFp 5 n, cls, task := 5, tick, est := 0, h3 := 0 } : TRec)
    let s := change base fun co => { co with tq := [r 0x10200 2 1, r 0x10300 1 5, r 0x10400 1 4] }
    canStart s 5 1 = some (r 0x10400 1 4) ∧ canStart s 5 0 = none ∧ (ev .firingStart (.firingStart 5 1) s).map (fun t => (t.core 5).tq.length) = some 2 ∧
    exhausted { f0 with done := [0] } = true ∧ (ev .firingCompletion (.firingCompletion 5 0) (withFiring { f0 with done := [0] })).map (fun t => (t.die 0).logN) = some 1 ∧
    (ev .firingCompletion (.firingCompletion 5 0) (withFiring { f0 with done := [0], exit := some (0, .broEnd .always) })).bind (fun t => (firingAt t 5 0).map (·.phase)) = some (.completed 0) := by decide
theorem test_commit_steps :
    let f := { f0 with done := [0], exit := some (0, .broKeep .always), phase := .completed 0 }
    let big := { f with exit := some (0, .broCont .always 5), size := 1 }
    let taker := { f with take := some (⟨.loc, wordKey 5 3, 0, none⟩, v 7) }
    commitTurn (withFiring f) 5 0 = true ∧ contTooBig (withFiring f) 5 f = none ∧ (ev .commit (.commit 5 0) (withFiring f)).map (fun t => (firingAt t 5 0, (t.core 5).commits)) = some (none, 1) ∧
    contTooBig (withTask (withFiring big)) 5 big = some 0 ∧ (ev .commit (.commit 5 0) (withTask (withFiring big))).map (fun t => (t.die 0).logN) = some 1 ∧
    (ev .commit (.commit 5 0) (withFiring taker)).map (·.net) = some [.take { core := 5, fp, ser := 1, loc := ⟨.loc, wordKey 5 3, 0, none⟩, v := v 7 }] := by decide
theorem test_fence_and_sections :
    let f := { f0 with exit := some (0, .broKeep .always), phase := .fencing .core [] }
    let sec : Section := { ser := 3, cls := 1, fp, held := true }
    let s := change base fun co => { co with secs := [sec] }
    fenceClear (withFiring f) 5 1 .core = true ∧ (ev .fenceComplete (.fenceComplete 5 0) (withFiring f)).isSome = true ∧
    secOver (s.core 5) 3 = true ∧ commitBusy (s.core 5) = false ∧ (ev .sectionEnd (.sectionEnd 5 3) s).isSome = true ∧
    (ev .sectionRestore (.sectionRestore 5 3) { change base fun co => { co with secs := [sec], ckpts := [{ num := 0, sec }] } with pkg := default }).map (fun t => (t.core 5).ckpts.length) = some 0 := by decide
theorem test_core_events :
    let r : TRec := { fp, cls := 2, task := 5, tick := 0, est := 0, h3 := 0, entered := 0 }
    let old := { change base (fun co => { co with tq := [r] }) with dies := [(0, { (default : Die) with cclk := 65536 })] }
    let waitingT := change (framed base) fun co => { co with tbuf := [{ e := .timer 9 fp 2 0 }] }
    let pending := change base fun co => { co with trapv := 0x10005, pend := [⟨(List.range 8).map (BitVec.ofNat 64), 1⟩], tframes := [0] }
    let fp1 := mkFp 5 (0x10000 + 32)
    (ev .recordAging (.recordAging 5) old).map (fun t => (t.core 5).tq.map fun r => (r.cls, r.entered)) = some [(1, 65536)] ∧
    (ev .waittickTimerFire (.waittickTimerFire 5) waitingT).map (fun t => (slotWord t fp 2).d) = some 9 ∧
    (ev .handlerActivation (.handlerActivation 5) pending).map (fun t => ((t.core 5).tframes, (t.core 5).pend.length, (slotWord t fp1 7).d, frameTask t fp1)) = some ([0, 1], 0, 7, 5) := by decide
theorem test_allocation :
    let r : FallocReq := { core := 5, ser := 1, idx := 0, scope := .core, near := 5, task := 5, nslot := 2, part := some 1 }
    let none' := change base fun co => { co with reserved := [(0x10180, 0x20000 - 0x10180)] }
    allocChoose base r = some 5 ∧ freeAt base 5 6 = some 0x10180 ∧ (ev .frameAllocation (.frameAllocation r) base).map (fun t => ((t.core 5).reserved, t.net.length)) = some ([(0x10180, 6)], 1) ∧
    allocChoose none' r = none ∧ (ev .frameAllocation (.frameAllocation r) none').map (·.net) = some [.result 0 5 1 0 (x 1) none] := by decide
theorem test_engines_resume :
    let m := putWord [] (wordKey 5 3) ⟨0, true, false⟩
    let run : VecRun := { cmd := rel (.vneg xf (vf 0 0 0 0 0 0)) [], waitW := some (wordKey 5 3) }
    let w : MatRun := { cmd := rel (.accLoad xf 1) [], waitW := some (wordKey 5 3) }
    let k : CpyRun := { cmd := rel (.cpyStream xf false false 1 .loc .loc 3) [], waitW := some (wordKey 5 3) }
    let s := { change base fun co => { co with vec := some run, mat := some w, streams := [(1, { cur := some k })], dda := { waitW := some (wordKey 5 3) } } with mem := m }
    keyF m (wordKey 5 3) = true ∧ ([Eng.vec, .mat, .cpy 1, .dda].all fun e => match ev .engineSyncReadResume (.engineSyncReadResume 5 e) s with
      | some t => match e with
        | .vec => (t.core 5).vec.map (·.waitW) == some none | .mat => (t.core 5).mat.map (·.waitW) == some none
        | .cpy _ => (t.stream 5 1).cur.map (·.waitW) == some none | .dda => (t.core 5).dda.waitW == none
      | none => false) = true := by decide
theorem test_routers_counters :
    let s := { base with dies := [(0, { (default : Die) with cclk := 8, holds := [⟨0, 0, [access (.amo 0 false false true false) 8 (commonsKey 0 0) (v 1)]⟩] })] }
    (ev .routerHoldExpiry (.routerHoldExpiry 0) s).map (fun t => ((t.die 0).holds, t.net.length)) = some ([], 1) ∧
    (ev .combinedGroupAtHome (.combinedGroupAtHome 0 [access (.amo 0 false false true false) 8 (wordKey 5 3) (v 1), access (.amo 0 false false true false) 8 (wordKey 5 3) (v 2)]) base).map
      (fun t => (getWord t.mem (wordKey 5 3)).d) = some 3 ∧
    (ev .eventCounterWrap (.eventCounterWrap 5 3) base).map (fun t => (t.core 5).evsel) = some 0x8000000000000000 := by decide

theorem test_die_events :
    let d := fun (x : Die) => { base with dies := [(0, x)] }
    let D : Die := default
    let L : Layer := {}
    (ev .walkComplete (.walkComplete 0) (d { D with walks := [⟨some 1, 0, [], 0⟩], walkQ := [⟨some 1, 1, [], 0⟩] })).map (fun t => ((t.die 0).walks, (t.die 0).walkQ)) = some ([⟨some 1, 1, [], 0⟩], []) ∧
    (ev .walkRetry (.walkRetry 0) (change base fun co => { co with ringHold := true })).map (fun t => (t.core 5).ringHold) = some false ∧
    (ev .dramRefresh (.dramRefresh 0 2) base).map (fun t => ((t.die 0).layers.get 2 {}).nextRef) = some (256000000 + 256000000) ∧
    (ev .scrubPassEnd (.scrubPassEnd 0 1) (d { D with layers := [(1, { L with cur := 0x1001 })] })).map (fun t => let y := (t.die 0).layers.get 1 {}; (y.int, y.corr, y.pass)) = some (128, 0x1001, 34) ∧
    (ev .scrubPassEnd (.scrubPassEnd 0 1) (d { D with layers := [(1, { L with int := 512 })] })).map (fun t => ((t.die 0).layers.get 1 {}).int) = some 512 := by decide
theorem test_die_registers :
    let D : Die := default
    (ev .scrubCtlWrite (.scrubCtlWrite 0 0x100000041E000000) base).map (fun t => (dieRegRead t 0 0x18, (t.die 0).reject)) = some (0x100000041E000000, 0) ∧
    (ev .scrubCtlWrite (.scrubCtlWrite 0 0x100000041D000000) base).map (fun t => (t.die 0).reject) = some 1 ∧
    (ev .pewCtlWrite (.pewCtlWrite 0 7 5) base).map (fun t => ((t.die 0).pew.get 3 {}).dl) = some 5 ∧
    (ev .pewCtlWrite (.pewCtlWrite 0 7 5) { base with dies := [(0, { D with pew := [(3, { ctl := 0x8000000000000000 })] })] }).map (fun t => (t.die 0).reject) = some 1 ∧
    (ev .pewterExpiry (.pewterExpiry 0 3) base).map (fun t => ((t.die 0).pew.get 3 {}).ctl) = some 0x4000000000000000 ∧
    (ev .bankGateRequest (.bankGateRequest 0 1 3) base).map (fun t => (t.die 0).gateReq.length) = some 2 ∧ (ev .spgateRequest (.spgateRequest 5 0x81) base).map (fun t => (t.core 5).gateReq) = some [0, 7] ∧
    (ev .spgateRequest (.spgateRequest 5 0x10000) base).map (fun t => (t.die 0).reject) = some 1 := by decide
theorem test_gates_and_store :
    let s := { change base fun co => { co with gateReq := [0] } with mem := putWord [] (wordKey 5 3) ⟨7, true, false⟩, dies := [(0, { (default : Die) with gateReq := [4] })] }
    mayGate s (some 5) 0 0 = true ∧ mayGate s none 0 4 = true ∧ (ev .bankGated (.bankGated (some 5) 0 0) s).map (fun t => ((t.core 5).gated, t.mem.length)) = some ([0], 0) ∧
    (ev .bankGated (.bankGated none 0 4) s).map (fun t => (t.die 0).gated) = some [4] ∧ (ev .bankWakeComplete (.bankWakeComplete (some 5) 0 0) (change s fun co => { co with gated := [0] })).map (fun t => (t.core 5).gated) = some [] ∧
    dieReserved 0x42 0x50001 = false ∧ (ev .kvbCtlWrite (.kvbCtlWrite 0 0x50001) store).map (fun t => ((t.die 0).kvb.ctl.toNat / 2 ^ 16 % 2 ^ 16, (t.die 0).kvb.lists)) = some (5, [((1, 0), [0])]) ∧
    (ev .kvbCtlWrite (.kvbCtlWrite 0 0) store).map (fun t => (t.die 0).reject) = some 1 ∧ (ev .kvbCtlWrite (.kvbCtlWrite 0 4) store).map (fun t => (t.die 0).reject) = some 1 ∧
    (ev .kvbHeldRelease (.kvbHeldRelease 0) store).map (fun t => (t.die 0).kvb.raised) = some false ∧ dieReserved 0x61 0 = false ∧ (ev .traceCtlWrite (.traceCtlWrite 0 0) base).isSome = true ∧
    (ev .traceCtlWrite (.traceCtlWrite 0 0x100000000) base).map (fun t => (t.die 0).reject) = some 1 := by decide

theorem test_host_and_power :
    (ev .partCtlWrite (.partCtlWrite 1 0) (framed base)).map (fun t => t.pkg.reject) = some 1 ∧ (ev .partCtlWrite (.partCtlWrite 2 0x8000000000000002) base).map (fun t => (partReg t 2).ctl) = some 0x8000000000000002 ∧
    (ev .hctlRestart (.hctlRestart 5) (change base fun co => { co with mode := 1 })).map (fun t => (t.core 5).mode) = some 0 ∧ (ev .hctlStop (.hctlStop 5) base).map (fun t => (t.core 5).halting) = some true ∧
    (ev .hctlMapout (.hctlMapout 5) base).map (fun t => ((t.core 5).leaving, (t.core 5).mapped)) = some (true, true) ∧
    (let s := change base fun co => { co with leaving := true, slots := [none, none, none, none] }
     mayLeave (s.core 5) = true ∧ (ev .hctlMapout (.hctlMapout 5) s).map (fun t => (t.core 5).mapped) = some false) ∧
    (ev .hctlMapin (.hctlMapin 5) (change base fun co => { co with mapped := false })).map (fun t => ((t.core 5).mapped, (t.core 5).mode)) = some (true, 1) ∧
    (ev .hostRead (.hostRead (2 ^ 48 + 8) 8) base).map (fun t => t.reply.isSome) = some true ∧ (ev .hostWrite (.hostWrite (2 ^ 48 + 8) 8 1) base).map (fun t => t.due) = some [.registerWrite (.pkg 1) 1] ∧
    settingOk 350 65535 1 = true ∧ (ev .throttleChange (.throttleChange 0 .thermal 350 700 1) base).map (fun t => ((t.die 0).mhz, (t.die 0).limit)) = some (350, 1) := by decide
theorem test_errors_and_losses :
    (ev .errorRetry (.errorRetry (.dramRow 0 64) true) base).map (fun t => (t.die 0).logN) = some 0 ∧ (ev .errorRetry (.errorRetry (.dramRow 0 64) false) base).map (fun t => (t.die 0).logN) = some 1 ∧
    (ev .fatalDramLoss (.fatalDramLoss (.bank 0 3)) base).map (fun t => (t.pkg.loss, (t.die 0).mapOut)) = some (1, [(3 * 2 ^ 30, 2 ^ 30)]) ∧
    (ev .serviceAction (.serviceAction 2 0) base).isSome = true ∧ (ev .serviceAction (.boundaryService 0 1 true) base).map (fun t => t.pkg.lanes) = some [(0, 1)] ∧
    (ev .hostWrite (.hostMemory 8 2 0x1234) base).map (fun t => t.mem.length) = some base.mem.length ∧
    (ev .attestReport .attestReport { base with pkg := { base.pkg with attest := 0x8000000000000000 } }).isSome = true ∧
    (ev .reset .reset { base with pkg := { base.pkg with loss := 1 } }).map (fun t => (t.tick, t.net.length, (t.core 5).slots)) = some (9, 0, [none, none, none, none]) := by decide
theorem test_launch_and_switch :
    let line := { base with mem := putWord [] (lineKey 1 0) ⟨0x8000000000000003, true, false⟩ }
    let two := { base with pkg := { base.pkg with parts := [(1, { ctl := 0x8000000000000001 }), (2, { ctl := 0x8000000000000001 })] } }
    (launchOf line 1).last = none ∧ (ev .launchAccept (.launchAccept 1) line).map (fun t => (launchOf t 1).last) = some (some 3) ∧ (ev .launchAccept (.launchAccept 1) base) = some (onEvent base (.launchAccept 1)) ∧
    (let s := { base with pkg := { base.pkg with launches := [(1, { phase := 2 })] } }
     phase2Due s 1 = true ∧ (ev .loadPhase2 (.loadPhase2 1) s).isSome = true) ∧
    (let s := { change base fun co => { co with waved := true, slots := [none, none, none, none] } with pkg := { base.pkg with launches := [(1, { phase := 3, cores := [5] })] } }
     switchPart s 5 = some 1 ∧ maySwitch s 5 = true ∧ (ev .coreSwitch (.coreSwitch 5) s).isSome = true) ∧
    sliceReady two = true ∧ (ev .sliceEnd .sliceEnd two).isSome = true := by decide
theorem test_pod_events :
    let r : PodAmoReq := { port := some 0, src := 3, seq := 7, op := 0, w32 := false, nat := false, va := 0, b := v 1, c := v 0, tag := 2 }
    let pod := fun (p : Pod) => { ported base with pkg := { (ported base).pkg with pod := p } }
    let P : Pod := { (default : Pod) with id := 0x8000000000000000, ports := [(0, { ctl := 0x8000000000000002 })] }
    let sent := fun (dst : Option Nat) (c : Delivery) (k : PodPkt) => ({ dst, cls := c, ports := 1, pkt := k } : PodSent)
    (ev .podAmoAtHome (.podAmoAtHome r) (pod { P with filter := [⟨3, 7, (0, v 5), 0⟩] })).map (fun t => t.pkg.pod.sent) = some [sent (some 3) .reliable (.amoAns 2 0 (v 5) false)] ∧
    floorOf (pod { P with floors := [(3, 7)] }) 3 = some 7 ∧ (ev .podAmoAtHome (.podAmoAtHome r) (pod { P with floors := [(3, 7)] })).map (fun t => t.pkg.pod.sent) = some [sent (some 3) .reliable (.amoAns 2 0x33 Val.err false)] ∧
    (ev .replayEntryExpiry .replayEntryExpiry { pod { P with filter := [⟨3, 7, (0, v 5), 0⟩, ⟨3, 8, (0, v 5), 1⟩] } with tick := 2 ^ 20 }).map (fun t => t.pkg.pod.filter.length) = some 1 ∧
    (ev .podTimeout (.podTimeout 4) (pod { P with outs := [{ tag := 4, core := 5, fp, slot := some 2, home := 1, age := 0, what := .put 8 false }] })).map (fun t => t.pkg.pod.outs.length) = some 0 ∧
    (ev .podPacketReceive (.podPacketReceive 0 false (.putAns 0 0)) (pod P)).map (fun t => (portReg t 0).ctl.toNat / 2 ^ 24 % 2 ^ 16) = some 1 ∧ portUp (pod P) 0 = true ∧ portUp (pod P) 1 = false ∧ portPart (pod P) 0 = some 1 ∧ portPart (pod P) 1 = none ∧
    podOn (pod P) = true ∧ (ev .podPacketReceive (.podPacketReceive 0 true (.barArrive 7 2 0 0x80500000)) (pod P)).map (fun t => t.pkg.pod.sent) = some [sent (some 7) .ordered (.barDropped 0x80500000 2)] ∧
    (ev .podPacketReceive (.podPacketReceive 0 true .ptpPdelay) (pod P)).map (fun t => t.pkg.pod.sent) = some [sent none .unreliable (.ptpPdelayResp 9), sent none .unreliable (.ptpPdelayFollowUp 9)] ∧
    (ev .gangTokenDue (.gangTokenDue fp 2 9) (pod { P with gangDue := [(fp, 2, 9)] })).map (·.net) = some [tok (v 9)] := by decide
theorem test_pod_time_and_halt :
    let pod := fun (p : Pod) => { base with pkg := { base.pkg with pod := p } }
    let P : Pod := default
    (ev .ptpSyncSend .ptpSyncSend base).map (fun t => t.pkg.pod.syncNext) = some 125000000 ∧ (ev .ptpAnnounceSend .ptpAnnounceSend base).map (fun t => t.pkg.pod.annNext) = some 2000000000 ∧
    (ev .announceReceiptTimeout .announceReceiptTimeout (pod { P with bestGm := some 3 })).map (fun t => (t.pkg.pod.bestGm, t.pkg.pod.annSeen)) = some (none, 9) ∧
    (ev .portStateChange (.portStateChange 31 2) base).map (fun t => (portReg t 31).ctl.toNat % 4) = some 2 ∧ (ev .podDebugHalt (.podDebugHalt true) base).map (fun t => (t.pkg.pod.halt, (t.core 5).halting)) = some (true, true) ∧
    (ev .debugHaltAdvertise .debugHaltAdvertise (pod { P with halt := true })).map (fun t => t.pkg.pod.haltNext) = some 10009 ∧
    (ev .debugHaltSeen (.debugHaltSeen 2 7) base).map (fun t => (portReg t 2).halted) = some [(7, 9)] ∧
    (ev .debugHaltLapse (.debugHaltLapse 2) { pod { P with ports := [(2, { halted := [(7, 9), (8, 40000)] })] } with tick := 40000 }).map (fun t => (portReg t 2).halted) = some [(8, 40000)] ∧
    (let u := pod { P with ports := [(0, { ctl := 0x8000000000000002 })], bestGm := some 1, gmPort := some 0 }
     (ev .ptpMessageReceive (.ptpMessageReceive 0 true 1 (-5000) 30) u).map (·.tick) = some 30 ∧ (ev .ptpMessageReceive (.ptpMessageReceive 0 false 1 (-5000) 30) u).map (fun t => (t.tick, bits (portReg t 0).ctl.toNat 39 24)) = some (9, 1) ∧
     (ev .podPacketReceive (.podPacketReceive 0 true (.ptpAnnounce 128 128 7)) (pod { P with ports := [(0, { ctl := 0x8000000000000002 })] })).map (fun t => t.pkg.pod.bestGm) = some (some 7)) := by decide
/-- The array: the step of cell 0 is due at cclk 1, a deposit of a link at cclk 1, an answer eight cclk after a held step. -/
theorem test_array_events :
    let at_ := fun (d : Dda) (n : Nat) => { change base (fun co => { co with dda := d }) with dies := [(0, { (default : Die) with cclk := n })] }
    let inc : LinkInc := { due := 1, dst := 5, pos := 0, link := 0, v := 1 }
    ddaNext [] 5 running 1 = some (1, 1) ∧ (ev .ddaStep (.ddaStep 5) (at_ running 1)).map (fun t => (((t.core 5).dda.cell 0).r, ((t.core 5).dda.dom 0).steps)) = some (100, 1) ∧
    ddaNext [] 5 { twoCells with inc := [inc] } 1 = some (1, 2) ∧ (ev .linkDeposit (.linkDeposit 5) (at_ { twoCells with inc := [inc] } 1)).map (fun t => (t.core 5).dda.inc) = some [] ∧
    ddaNext [] 5 { twoCells with doms := [(0, { run := true, hold := some 1, next := 2 })] } 9 = some (9, 0) ∧
    (ev .linkOverrunAnswer (.linkOverrunAnswer 5) (at_ { twoCells with doms := [(0, { run := true, hold := some 1, next := 2 })] } 9)).isSome = true := by decide
/-! ## Ill-formed terms, one for each check, and words that the decoder rejects by name -/

theorem test_ill_formed : ([.reset, .mov2 (.s .w8) ⟨.always, .write 0, .none⟩, .accStat ⟨.always, none⟩ 0, .vred ⟨.always, none⟩ ⟨false, false, false, 0, false, false, false, 0, 0, 0, 0, 0, 7⟩,
    .sext (.s .w8) ⟨.always, .none⟩ 0, .zext (.s .w8) ⟨.always, .none⟩ 65, .bfx ⟨.always, .none⟩ (.s .w8) 4 4, .bfi ⟨.always, .none⟩ (.s .w8) 8 0, .fcvt ⟨.always, .none⟩ (.int (.s .w8)) (.int (.s .w8)),
    .falloc .pod ⟨.always, .none, .none⟩, .ldw ⟨.always, 0, .global, 0, .none⟩, .ldrc ⟨.always, 0, .loc, 0, .none⟩, .stf ⟨.always, 0, .global, 0⟩, .ste .always 0 .global 0, .pref ⟨.always, 0, .loc, 0⟩,
    .amoAdd ⟨.always, 0, false, true, 0, .loc, .core⟩, .amoFadd ⟨.always, 0, false, false, 0, .loc, .core⟩, .amoFaddReduce ⟨.always, 0, false, false, false, .loc, .core⟩, .amoOrReduce ⟨.always, 0, false, true, false, .loc, .core⟩,
    .barCfg .always .core 0, .sysRd ⟨.always, .none⟩ 2, .sysWr .always 0x1FF, .perfRd ⟨.always, .none⟩ 13, .tlbInv .always .pod] : List Instr).all (fun i => !i.wf) = true := by decide
/-- A vector command with the code 3, an FP width, a mix of kinds, block scaling, a flag or CMD bit that it does not define. -/
theorem test_ill_formed_vector :
    let x : XF := ⟨.always, some 1⟩
    let v : VF := ⟨false, false, false, 0, false, false, false, 0, 7, 0, 7, 0, 7⟩
    ([.vadd x { v with ca := 3 }, .vadd x { v with ca := 2, cb := 2, cd := 2 }, .vadd x { v with cb := 2, wb := 0 }, .vadd x { v with ga := true }, .vadd x { v with opt := true }, .vadd x { v with cmd := 1 },
      .vneg x { v with cb := 1 }, .vand x { v with wb := 6 }, .vshl x { v with ca := 2, wa := 0 }, .vcmp x { v with cmd := 6, wd := 0, cd := 1 }, .vselect x v, .vexp2 x { v with wb := 0 },
      .vgather x { v with wa := 6 }, .vcopy x { v with wb := 0, cd := 1 }, .unpackT5 x ⟨false, false, false, 1, false, false, false, 0, 7, 0, 0, 0, 0⟩, .vplane x { v with wb := 0, gd := true }, .vtopk x { v with wb := 0, cd := 2, wd := 0 },
      .vcompact x { v with cb := 1, wb := 0, cd := 2, wd := 0 }] : List Instr).all (fun i => !i.wf) = true := by decide
theorem test_ill_formed_commands :
    let x : XF := ⟨.always, some 1⟩
    ([.sclDerive x 0 0 7 0, .accArm x 0 12 0 0 0 0, .accArm x 0 0 1 0 0 0, .cpyStream x true false 0 .global .loc 3, .cpyPlanes x false false 0 .loc true false 7 3 0 0 false false,
      .cpyConv x false false 0 .loc false 3 7 0 false false 3, .ddaPatch x 255 1 false, .ddaRun x 0, .ddaTap x 0 0 1, .kvbStat x 24 false, .seqOpen x 1 true, .wchSet x 0 0 3 0, .wchSet x 0 0 6 0,
      .wchBudget x 0 7, .podAmo x false false 10 false false, .podAmo x false false 0 false true, .colAllred x 0 3] : List Instr).all (fun i => !i.wf) = true := by decide
/-- A reserved selector, a cut-off second word, PRED 11, a reserved bit, NOPS, SPACE 3: the check of each. -/
theorem test_rejected :
    let why := fun (ws : List Nat) => match decodeWords (ws.map (BitVec.ofNat 32)) with | .ok _ => none | .error e => some e
    why [0x20000000 + 30 * 2 ^ 18] = some .opcode ∧ why [0x44098480] = some .cutOff ∧ why [0x21800000] = some .pred ∧ why [0x02000001] = some .reserved ∧ why [0xE0028281, 0x81C7] = some .nops ∧
    why [0xA003007F] = some .field ∧ why [] = some .cutOff := by decide
theorem test_table_word : decodeTableWord 32 0x2000FE7F = some (.add (.s .w8) ⟨.always, .none, .none⟩) ∧ decodeTableWord 32 0 = none := by decide

/-! ## Reset, a step -/

theorem test_reset : State.reset.mem = [] ∧ Memory.wf State.reset.mem = true ∧ (State.reset.core 0).frameBase = 0x10000 ∧ State.reset.pkg.present = 0xFFFFFF := by decide
/-- The placed firing meets what a step of a decoded word asks: nothing due, every word decodes, index 0 is the next ready. -/
theorem test_placed_word :
    let s := State.reset.withFetchWord 32 0x2000FE7F
    s.due = [] ∧ (s.cores.map (·.1)).contains 0 = true ∧ ((firingAt s 0 0).map fun f => (f.phase == .running, nextReady f, (insns f.code).length)) = some (true, some 0, 1) ∧
    ((firingAt s 0 0).bind fun f => match decodeWords (wordsAt f.code 0) with | .ok i => some i | _ => none) = some (.add (.s .w8) ⟨.always, .none, .none⟩) := by decide
/-- A firing instruction that goes on leaves its firing in place. -/
theorem test_frame_premise : (match exec (.tick g) (demo (.tick g) []) with | .next t => (firingAt t 5 0).map fun f => f.walks == [] | _ => none) = some true ∧ (Instr.tick g).coded = true := by decide

/-- Tables 3.4, 3.11: exits, NULL, predicate logic, TEST.X. -/
theorem test_words_control : ([
    ([0x02000000], .broEnd .always),
    ([0x02900000], .broKeep .ifTrue),
    ([0x03200000], .broRearm .ifFalse),
    ([0x02B01234], .broCont .ifTrue 0x1234#16),
    ([0x04830681], .null ⟨.ifTrue, (.opB 3), (.pred 1)⟩),
    ([0x07000516], .pand ⟨.ifFalse, (.write 2), (.opA 22)⟩),
    ([0x06051F83], .por ⟨.always, (.pred 15), (.opB 3)⟩),
    ([0x068A087F], .pnot ⟨.ifTrue, (.opA 4), .none⟩),
    ([0x09031E03], .testX ⟨.ifFalse, (.opB 15), (.write 3)⟩)
  ] : List (List Nat × Instr)).all reads = true := by decide

/-- Table 3.12, opcodes 0x10 to 0x17: XOP 0 to 29, T = OPC − 0x10. -/
theorem test_words_integer : ([
    ([0x20000C86], .add (.s .w8) ⟨.always, (.write 6), (.pred 6)⟩),
    ([0x2685474D], .sub (.s .w64) ⟨.ifTrue, (.pred 35), (.opA 77)⟩),
    ([0x2D0A1188], .mul (.n .w32) ⟨.ifFalse, (.opA 8), (.opB 8)⟩),
    ([0x260F367F], .mulh .w64 ⟨.always, (.opB 27), .none⟩),
    ([0x2E8C1406], .mulhn .w64 ⟨.ifTrue, (.write 10), (.write 6)⟩),
    ([0x21116E8B], .div .w8 ⟨.ifFalse, (.pred 55), (.pred 11)⟩),
    ([0x28121904], .divn .w8 ⟨.always, (.opA 12), (.opA 4)⟩),
    ([0x22974F8D], .rem .w16 ⟨.ifTrue, (.opB 39), (.opB 13)⟩),
    ([0x2B141C7F], .remn .w16 ⟨.ifFalse, (.write 14), .none⟩),
    ([0x24199609], .min .w32 ⟨.always, (.pred 75), (.write 9)⟩),
    ([0x2C9A2090], .minn .w32 ⟨.ifTrue, (.opA 16), (.pred 16)⟩),
    ([0x271F673B], .max .w64 ⟨.ifFalse, (.opB 51), (.opA 59)⟩),
    ([0x2E1C2592], .maxn .w64 ⟨.always, (.write 18), (.opB 18)⟩),
    ([0x20A1BE7F], .and (.s .w8) ⟨.ifTrue, (.pred 95), .none⟩),
    ([0x2726280C], .or (.s .w64) ⟨.ifFalse, (.opA 20), (.write 12)⟩),
    ([0x2C2B7E95], .xor (.n .w32) ⟨.always, (.opB 63), (.pred 21)⟩),
    ([0x22AC2D72], .andn (.s .w16) ⟨.ifTrue, (.write 22), (.opA 114)⟩),
    ([0x2931E797], .orn (.n .w8) ⟨.ifFalse, (.pred 115), (.opB 23)⟩),
    ([0x2E36307F], .shl (.n .w64) ⟨.always, (.opA 24), .none⟩),
    ([0x24BB960F], .shr (.s .w32) ⟨.ifTrue, (.opB 75), (.write 15)⟩),
    ([0x2B3C349A], .sar (.n .w16) ⟨.ifFalse, (.write 26), (.pred 26)⟩),
    ([0x20410F29], .rot (.s .w8) ⟨.always, (.pred 7), (.opA 41)⟩),
    ([0x26C6399C], .teq (.s .w64) ⟨.ifTrue, (.opA 28), (.opB 28)⟩),
    ([0x2D4BAE7F], .tne (.n .w32) ⟨.ifFalse, (.opB 87), .none⟩),
    ([0x264C3C12], .tlt .w64 ⟨.always, (.write 30), (.write 18)⟩),
    ([0x2ECD369F], .tltn .w64 ⟨.ifTrue, (.pred 27), (.pred 31)⟩),
    ([0x21524160], .tle .w8 ⟨.ifFalse, (.opA 32), (.opA 96)⟩),
    ([0x2853C7A1], .tlen .w8 ⟨.always, (.opB 99), (.opB 33)⟩),
    ([0x2ED4047F], .neg (.n .w64) ⟨.ifTrue, (.write 2), .none⟩),
    ([0x25595E15], .abs (.s .w32) ⟨.ifFalse, (.pred 47), (.write 21)⟩),
    ([0x2A5E48A4], .clz (.n .w16) ⟨.always, (.opA 36), (.pred 36)⟩),
    ([0x20E3DF17], .ctz (.s .w8) ⟨.ifTrue, (.opB 111), (.opA 23)⟩),
    ([0x27640DA6], .popc (.s .w64) ⟨.ifFalse, (.write 6), (.opB 38)⟩),
    ([0x2C69867F], .bswap (.n .w32) ⟨.always, (.pred 67), .none⟩),
    ([0x2AEF127F], .mov (.n .w16) .ifTrue (.opB 9)),
    ([0x24EE5105], .mov2 (.s .w32) ⟨.ifTrue, (.opA 40), (.opA 5)⟩),
    ([0x2F73F6A9], .mkx (.n .w64) ⟨.ifFalse, (.opB 123), (.pred 41)⟩),
    ([0x2E74154E], .clrx (.n .w64) ⟨.always, (.write 10), (.opA 78)⟩)
  ] : List (List Nat × Instr)).all reads = true := by decide

/-- Table 3.12, opcodes 0x18 to 0x22; R81. -/
theorem test_words_immediate : ([
    ([0x308200D7], .addi (.s .w8) ⟨.ifTrue, (.pred 87)⟩ 256#9),
    ([0x3B05FF2C], .teqi (.n .w16) ⟨.ifFalse, (.opA 44)⟩ 255#9),
    ([0x340BFF87], .tnei (.s .w32) ⟨.always, (.opB 7)⟩ 511#9),
    ([0x368CC80E], .tlti .w64 ⟨.ifTrue, (.write 14)⟩ 100#9),
    ([0x3F0CC8EB], .tltni .w64 ⟨.ifFalse, (.pred 107)⟩ 100#9),
    ([0x3013B730], .tlei .w8 ⟨.always, (.opA 48)⟩ 475#9),
    ([0x3893B793], .tleni .w8 ⟨.ifTrue, (.opB 19)⟩ 475#9),
    ([0x33148012], .sext (.s .w16) ⟨.ifFalse, (.write 18)⟩ 64#9),
    ([0x3C1802FF], .zext (.n .w32) ⟨.always, (.pred 127)⟩ 1#9),
    ([0x41000303], .genc 0x8001#16 (.opA 3)),
    ([0x42FFFC82], .appc 0x7FFE#16 (.pred 2)),
    ([0x44839A00, 0x00000006], .madd ⟨.ifTrue, (.opA 52)⟩ (.n .w32)),
    ([0x4507CF80, 0x00000006], .sel ⟨.ifFalse, (.opB 31)⟩ (.n .w32)),
    ([0x44090B00, 0x000001FB], .bfx ⟨.always, (.write 22)⟩ (.s .w64) 63#6 0#6),
    ([0x448E4980, 0x0000181D], .bfi ⟨.ifTrue, (.pred 19)⟩ (.n .w16) 3#6 12#6)
  ] : List (List Nat × Instr)).all reads = true := by decide

/-- Table 3.13, opcodes 0x30 to 0x32. -/
theorem test_words_float : ([
    ([0x610270B8], .fadd ⟨.ifFalse, (.opA 56), (.pred 56)⟩),
    ([0x60075773], .fsub ⟨.always, (.opB 43), (.opA 115)⟩),
    ([0x608835BA], .fmul ⟨.ifTrue, (.write 26), (.opB 58)⟩),
    ([0x610D4E7F], .fdiv ⟨.ifFalse, (.pred 39), .none⟩),
    ([0x60127804], .fmin ⟨.always, (.opA 60), (.write 4)⟩),
    ([0x60976EBD], .fmax ⟨.ifTrue, (.opB 55), (.pred 61)⟩),
    ([0x61183D2A], .feq ⟨.ifFalse, (.write 30), (.opA 42)⟩),
    ([0x601D77BF], .flt ⟨.always, (.pred 59), (.opB 63)⟩),
    ([0x60A2807F], .fle ⟨.ifTrue, (.opA 64), .none⟩),
    ([0x61278607], .fsqrt ⟨.ifFalse, (.opB 67), (.write 7)⟩),
    ([0x602804C2], .fabs ⟨.always, (.write 2), (.pred 66)⟩),
    ([0x60AD9F61], .fneg ⟨.ifTrue, (.pred 79), (.opA 97)⟩),
    ([0x613289C4], .fexp2 ⟨.ifFalse, (.opA 68), (.opB 68)⟩),
    ([0x60379E7F], .flog2 ⟨.always, (.opB 79), .none⟩),
    ([0x60B80C0A], .frcp ⟨.ifTrue, (.write 6), (.write 10)⟩),
    ([0x613DC6C7], .frsq ⟨.ifFalse, (.pred 99), (.pred 71)⟩),
    ([0x6203A400, 0x00000000], .fma ⟨.always, (.opA 72)⟩),
    ([0x6482C9DB], .fcvt ⟨.ifTrue, (.opB 91)⟩ .e5m2 (.int (.s .w32))),
    ([0x6502240A], .fcvt ⟨.ifFalse, (.write 10)⟩ .f32 .bf16)
  ] : List (List Nat × Instr)).all reads = true := by decide

/-- Table 3.14, opcodes 0x40 to 0x44. -/
theorem test_words_frame : ([
    ([0x8001EE0D], .falloc .core ⟨.always, (.pred 119), (.write 13)⟩),
    ([0x808698CC], .falloc .quad ⟨.ifTrue, (.opA 76), (.pred 76)⟩),
    ([0x810BCF4F], .falloc .die ⟨.ifFalse, (.opB 103), (.opA 79)⟩),
    ([0x800C1DCE], .falloc .pkg ⟨.always, (.write 14), (.opB 78)⟩),
    ([0x8300FE7F], .ffree .ifFalse),
    ([0x8285167F], .self ⟨.ifTrue, (.pred 11), .none⟩),
    ([0x830AA010], .taskid ⟨.ifFalse, (.opA 80), (.write 16)⟩),
    ([0x820FE6D1], .fstat ⟨.always, (.opB 115), (.pred 81)⟩),
    ([0x88802506], .ldfx ⟨.ifTrue, (.write 18), (.opA 6)⟩),
    ([0x89053FD3], .stfx ⟨.ifFalse, (.pred 31), (.opB 83)⟩),
    ([0x8480FE7F], .send .ifTrue 127#7),
    ([0x84040A7F], .sendx .always 5#7),
    ([0x86033F80, 0x00000000], .sendi .always)
  ] : List (List Nat × Instr)).all reads = true := by decide

/-- Table 3.15, opcodes 0x50 to 0x59; R83. -/
theorem test_words_memory : ([
    ([0xA07C8154], .ldB ⟨.always, 31#5, .loc, 64#7, (.opA 84)⟩),
    ([0xA2F97FFF], .ldH ⟨.ifTrue, 30#5, .commons, 63#7, (.opB 127)⟩),
    ([0xA576FE16], .ldW ⟨.ifFalse, 29#5, .global, 127#7, (.write 22)⟩),
    ([0xA6700AB3], .ldD ⟨.always, 28#5, .loc, 5#7, (.pred 51)⟩),
    ([0xA8EC8158], .ldw ⟨.ifTrue, 27#5, .loc, 64#7, (.opA 88)⟩),
    ([0xAB697F8B], .ldt ⟨.ifFalse, 26#5, .commons, 63#7, (.opB 11)⟩),
    ([0xAC66FE1A], .ldrc ⟨.always, 25#5, .global, 127#7, (.write 26)⟩),
    ([0xAEE10AC7], .feTest ⟨.ifTrue, 24#5, .commons, 5#7, (.pred 71)⟩),
    ([0xB00E0000], .stB ⟨.always, 3#5, .loc, 256#9⟩),
    ([0xB091FE81], .stH ⟨.ifTrue, 4#5, .commons, 255#9⟩),
    ([0xB117FF02], .stW ⟨.ifFalse, 5#5, .global, 511#9⟩),
    ([0xB0182203], .stD ⟨.always, 6#5, .loc, 17#9⟩),
    ([0xB09E0004], .stf ⟨.ifTrue, 7#5, .loc, 256#9⟩),
    ([0xB027FE06], .feSet ⟨.always, 9#5, .loc, 511#9⟩),
    ([0xB0A82287], .feClr ⟨.ifTrue, 10#5, .commons, 17#9⟩),
    ([0xB0B7FF0A], .pref ⟨.ifTrue, 13#5, .global, 511#9⟩),
    ([0xB0A4AA85], .ste .ifTrue 9#5 .commons 0x55#7),
    ([0xB0040108], .clean .always 1#5),
    ([0xB1780109], .inval .ifFalse 30#5),
    ([0xB2100040], .fence .always 4#5 .pod)
  ] : List (List Nat × Instr)).all reads = true := by decide

/-- Table 3.16, opcodes 0x60 to 0x62; R84. -/
theorem test_words_atomic : ([
    ([0xC0000000], .amoAdd ⟨.always, 0#5, false, false, 0#7, .loc, .core⟩),
    ([0xC0861A91], .amoMin ⟨.ifTrue, 1#5, true, false, 13#7, .commons, .quad⟩),
    ([0xC1093522], .amoMax ⟨.ifFalse, 2#5, false, true, 26#7, .global, .die⟩),
    ([0xC00E4E33], .amoAnd ⟨.always, 3#5, true, false, 39#7, .loc, .pkg⟩),
    ([0xC09068C4], .amoOr ⟨.ifTrue, 4#5, false, false, 52#7, .commons, .pod⟩),
    ([0xC1168305], .amoXor ⟨.ifFalse, 5#5, true, false, 65#7, .global, .core⟩),
    ([0xC0189C16], .amoSwap ⟨.always, 6#5, false, false, 78#7, .loc, .quad⟩),
    ([0xC122D138], .amoFadd ⟨.ifFalse, 8#5, true, false, 104#7, .global, .pkg⟩),
    ([0xC026EA49], .amoIncw ⟨.always, 9#5, true, false, 117#7, .loc, .pod⟩),
    ([0xC2FE00A0], .amoAddReduce ⟨.ifTrue, 31#5, true, false, false, .commons, .die⟩),
    ([0xC3790331], .amoMinReduce ⟨.ifFalse, 30#5, false, true, true, .global, .pkg⟩),
    ([0xC2760042], .amoMaxReduce ⟨.always, 29#5, true, false, false, .loc, .pod⟩),
    ([0xC2F00283], .amoAndReduce ⟨.ifTrue, 28#5, false, false, true, .commons, .core⟩),
    ([0xC36E0114], .amoOrReduce ⟨.ifFalse, 27#5, true, false, false, .global, .quad⟩),
    ([0xC2680225], .amoXorReduce ⟨.always, 26#5, false, false, true, .loc, .die⟩),
    ([0xC2E600B6], .amoSwapReduce ⟨.ifTrue, 25#5, true, false, false, .commons, .pkg⟩),
    ([0xC25E0008], .amoFaddReduce ⟨.always, 23#5, true, false, false, .loc, .core⟩),
    ([0xC2D80299], .amoIncwReduce ⟨.ifTrue, 22#5, false, false, true, .commons, .quad⟩),
    ([0xC4038880, 0x000005C7], .amoCas ⟨.always, some 17#7⟩ 7#5 .global .pkg true),
    ([0xC4830000, 0x00000008], .amoCas ⟨.ifTrue, none⟩ 8#5 .loc .core false)
  ] : List (List Nat × Instr)).all reads = true := by decide

/-- Table 3.17, opcodes 0x68 to 0x6B. -/
theorem test_words_system : ([
    ([0xD001067F], .barArrive .always .die 3#6),
    ([0xD085AE7F], .barWait .ifTrue .pkg 23#6),
    ([0xD10A567F], .barCfg .ifFalse .pod 43#6),
    ([0xD302B974], .tick ⟨.ifFalse, (.opA 92), (.opA 116)⟩),
    ([0xD284FE7F], .waittick .ifTrue),
    ([0xD4005197], .sysRd ⟨.always, (.opB 23)⟩ 0x28#9),
    ([0xD404307F], .sysWr .always 0x18#9),
    ([0xD488181E], .perfRd ⟨.ifTrue, (.write 30)⟩ 0x0C#9),
    ([0xD50D807F], .tlbInv .ifFalse .pkg),
    ([0xD410007F], .gangSync .always),
    ([0xD680FE7F], .trap .ifTrue),
    ([0xD604FE7F], .brk .always),
    ([0xD708FE7F], .halt .ifFalse)
  ] : List (List Nat × Instr)).all reads = true := by decide

/-- Tables 9.2 to 9.4, opcode 0x70. -/
theorem test_words_vector1 : ([
    ([0xE0038281, 0x000081C7], .vadd ⟨.always, some 5#7⟩ ⟨true, false, false, 0#11, false, false, false, 0#2, 8#4, 0#2, 7#4, 0#2, 7#4⟩),
    ([0xE107AF80, 0x00020820], .vsub ⟨.ifFalse, some 95#7⟩ ⟨false, false, false, 0#11, false, false, false, 2#2, 0#4, 2#2, 0#4, 2#2, 0#4⟩),
    ([0xE00B0001, 0x0000F503], .vmul ⟨.always, none⟩ ⟨true, false, false, 0#11, false, false, false, 0#2, 15#4, 1#2, 4#4, 0#2, 3#4⟩),
    ([0xE08FB080, 0x00009091], .vfma ⟨.ifTrue, some 97#7⟩ ⟨false, false, false, 0#11, false, false, false, 0#2, 9#4, 0#2, 2#4, 1#2, 1#4⟩),
    ([0xE1130000, 0x00015187], .vmin ⟨.ifFalse, none⟩ ⟨false, false, false, 0#11, false, false, false, 1#2, 5#4, 0#2, 6#4, 0#2, 7#4⟩),
    ([0xE017B180, 0x00020820], .vmax ⟨.always, some 99#7⟩ ⟨false, false, false, 0#11, false, false, false, 2#2, 0#4, 2#2, 0#4, 2#2, 0#4⟩),
    ([0xE09A0000, 0x00018007], .vabs ⟨.ifTrue, none⟩ ⟨false, false, false, 0#11, false, false, false, 1#2, 8#4, 0#2, 0#4, 0#2, 7#4⟩),
    ([0xE11EB281, 0x00007017], .vneg ⟨.ifFalse, some 101#7⟩ ⟨true, false, false, 0#11, false, false, false, 0#2, 7#4, 0#2, 0#4, 1#2, 7#4⟩),
    ([0xE0230000, 0x00008208], .vand ⟨.always, none⟩ ⟨false, false, false, 0#11, false, false, false, 0#2, 8#4, 0#2, 8#4, 0#2, 8#4⟩),
    ([0xE0A7B380, 0x00009249], .vor ⟨.ifTrue, some 103#7⟩ ⟨false, false, false, 0#11, false, false, false, 0#2, 9#4, 0#2, 9#4, 0#2, 9#4⟩),
    ([0xE12B0000, 0x0000A28A], .vxor ⟨.ifFalse, none⟩ ⟨false, false, false, 0#11, false, false, false, 0#2, 10#4, 0#2, 10#4, 0#2, 10#4⟩),
    ([0xE02EB480, 0x07E0F007], .vshl ⟨.always, some 105#7⟩ ⟨false, false, false, 63#11, false, false, false, 0#2, 15#4, 0#2, 0#4, 0#2, 7#4⟩),
    ([0xE0B20003, 0x00A0301C], .vshr ⟨.ifTrue, none⟩ ⟨true, true, false, 5#11, false, false, false, 0#2, 3#4, 0#2, 0#4, 1#2, 12#4⟩),
    ([0xE137B580, 0x00A10187], .vcmp ⟨.ifFalse, some 107#7⟩ ⟨false, false, false, 5#11, false, false, false, 1#2, 0#4, 0#2, 6#4, 0#2, 7#4⟩),
    ([0xE03B0000, 0x00008407], .vselect ⟨.always, none⟩ ⟨false, false, false, 0#11, false, false, false, 0#2, 8#4, 1#2, 0#4, 0#2, 7#4⟩),
    ([0xE0BEB680, 0x00020020], .vexp2 ⟨.ifTrue, some 109#7⟩ ⟨false, false, false, 0#11, false, false, false, 2#2, 0#4, 0#2, 0#4, 2#2, 0#4⟩),
    ([0xE1420000, 0x00020020], .vlog2 ⟨.ifFalse, none⟩ ⟨false, false, false, 0#11, false, false, false, 2#2, 0#4, 0#2, 0#4, 2#2, 0#4⟩),
    ([0xE046B780, 0x00020020], .vrcp ⟨.always, some 111#7⟩ ⟨false, false, false, 0#11, false, false, false, 2#2, 0#4, 0#2, 0#4, 2#2, 0#4⟩),
    ([0xE0CA0000, 0x00020020], .vrsq ⟨.ifTrue, none⟩ ⟨false, false, false, 0#11, false, false, false, 2#2, 0#4, 0#2, 0#4, 2#2, 0#4⟩),
    ([0xE14EB881, 0x00113020], .vcvt ⟨.ifFalse, some 113#7⟩ ⟨true, false, false, 0#11, true, false, false, 1#2, 3#4, 0#2, 0#4, 2#2, 0#4⟩)
  ] : List (List Nat × Instr)).all reads = true := by decide

/-- Chapter 9, opcode 0x71. -/
theorem test_words_vector2 : ([
    ([0xE202B904, 0x00600407], .vred ⟨.always, some 114#7⟩ ⟨false, false, true, 3#11, false, false, false, 0#2, 0#4, 1#2, 0#4, 0#2, 7#4⟩),
    ([0xE286B982, 0x0000F007], .vscan ⟨.ifTrue, some 115#7⟩ ⟨false, true, false, 0#11, false, false, false, 0#2, 15#4, 0#2, 0#4, 0#2, 7#4⟩),
    ([0xE30ABA00, 0x07E09007], .vtopk ⟨.ifFalse, some 116#7⟩ ⟨false, false, false, 63#11, false, false, false, 0#2, 9#4, 0#2, 0#4, 0#2, 7#4⟩),
    ([0xE20FBA82, 0x00007407], .vcompact ⟨.always, some 117#7⟩ ⟨false, true, false, 0#11, false, false, false, 0#2, 7#4, 1#2, 0#4, 0#2, 7#4⟩),
    ([0xE2930000, 0x00004403], .vexpand ⟨.ifTrue, none⟩ ⟨false, false, false, 0#11, false, false, false, 0#2, 4#4, 1#2, 0#4, 0#2, 3#4⟩),
    ([0xE317BB80, 0x00003243], .vgather ⟨.ifFalse, some 119#7⟩ ⟨false, false, false, 0#11, false, false, false, 0#2, 3#4, 0#2, 9#4, 0#2, 3#4⟩),
    ([0xE21B0000, 0x00020260], .vscatter ⟨.always, none⟩ ⟨false, false, false, 0#11, false, false, false, 2#2, 0#4, 0#2, 9#4, 2#2, 0#4⟩),
    ([0xE29EBC80, 0x00116000], .vfill ⟨.ifTrue, some 121#7⟩ ⟨false, false, false, 0#11, true, false, false, 1#2, 6#4, 0#2, 0#4, 0#2, 0#4⟩),
    ([0xE3220000, 0x00156016], .vcopy ⟨.ifFalse, none⟩ ⟨false, false, false, 0#11, true, false, true, 1#2, 6#4, 0#2, 0#4, 1#2, 6#4⟩),
    ([0xE227BD80, 0x00020000], .vrand ⟨.always, some 123#7⟩ ⟨false, false, false, 0#11, false, false, false, 2#2, 0#4, 0#2, 0#4, 0#2, 0#4⟩),
    ([0xE2A90002, 0x19040017], .vamaxh ⟨.ifTrue, none⟩ ⟨false, true, false, 200#11, false, false, true, 0#2, 0#4, 0#2, 0#4, 1#2, 7#4⟩),
    ([0xE32EBE80, 0x00001000], .unpackT5 ⟨.ifFalse, some 125#7⟩ ⟨false, false, false, 0#11, false, false, false, 0#2, 1#4, 0#2, 0#4, 0#2, 0#4⟩),
    ([0xE2320001, 0x00013007], .vplane ⟨.always, none⟩ ⟨true, false, false, 0#11, false, false, false, 1#2, 3#4, 0#2, 0#4, 0#2, 7#4⟩)
  ] : List (List Nat × Instr)).all reads = true := by decide

/-- Table 10.3, opcode 0x72. -/
theorem test_words_matrix : ([
    ([0xE481BF80, 0x00000009], .ppSet ⟨.ifTrue, some 127#7⟩ 9#4),
    ([0xE5050000, 0x0000000F], .sclSet ⟨.ifFalse, none⟩ 15#4),
    ([0xE4088080, 0x00059C86], .sclDerive ⟨.always, some 1#7⟩ 6#4 200#8 1#3 11#4),
    ([0xE48D0000, 0x00000000], .lbdCfg ⟨.ifTrue, none⟩),
    ([0xE5138180, 0x00150DEE], .accArm ⟨.ifFalse, some 3#7⟩ 2#2 11#4 7#4 3#4 4#4 5#4),
    ([0xE4168300, 0x00000113], .mmp ⟨.always, some 6#7⟩ 3#4 1#2 false false 1#10),
    ([0xE41A0000, 0x0003FFFF], .mmpE ⟨.always, none⟩ 15#4 3#2 true true 1023#10),
    ([0xE49C8280, 0x00000001], .accRel ⟨.ifTrue, some 5#7⟩ 1#2),
    ([0xE5200000, 0x00000003], .accClr ⟨.ifFalse, none⟩ 3#2),
    ([0xE4258381, 0x00000002], .accSave ⟨.always, some 7#7⟩ 2#2 true),
    ([0xE4A98400, 0x00000001], .accLoad ⟨.ifTrue, some 8#7⟩ 1#2),
    ([0xE52C8480, 0x00000003], .accStat ⟨.ifFalse, some 9#7⟩ 3#2)
  ] : List (List Nat × Instr)).all reads = true := by decide

/-- Tables 11.1 to 11.3, opcode 0x73. -/
theorem test_words_copy : ([
    ([0xE6038503, 0x000000D2], .cpyStream ⟨.always, some 10#7⟩ true true 2#2 .loc .commons 3#3),
    ([0xE6878580, 0x00350DE9], .cpyPlanes ⟨.ifTrue, some 11#7⟩ false false 1#2 .global false true 7#4 3#4 4#4 1#2 true true),
    ([0xE60B8180, 0x00041C68], .cpyConv ⟨.always, some 3#7⟩ false false 0#2 .global false 3#5 7#4 0#2 false false 1#2),
    ([0xE70C0004, 0x00000003], .cpyCancel ⟨.ifFalse, none⟩ true 3#2),
    ([0xE6118690, 0x00000002], .cpySave ⟨.always, some 13#7⟩ true 2#2),
    ([0xE6950008, 0x00000001], .cpyResume ⟨.ifTrue, none⟩ true 1#2),
    ([0xE7188780, 0x00000000], .cpyStat ⟨.ifFalse, some 15#7⟩ 0#2)
  ] : List (List Nat × Instr)).all reads = true := by decide

/-- Table 12.4, R314, opcode 0x74. -/
theorem test_words_integrator : ([
    ([0xE8010000, 0x000107C8], .ddaPatch ⟨.always, none⟩ 200#8 7#8 true),
    ([0xE8858880, 0x0000FA05], .ddaLdy ⟨.ifTrue, some 17#7⟩ 5#8 250#8),
    ([0xE9090000, 0x0000FF00], .ddaLdr ⟨.ifFalse, none⟩ 0#8 255#8),
    ([0xE80D8980, 0x00000007], .ddaClk ⟨.always, some 19#7⟩ 7#3),
    ([0xE8118100, 0x00000003], .ddaRun ⟨.always, some 2#7⟩ 3#8),
    ([0xE8940000, 0x00000080], .ddaStop ⟨.ifTrue, none⟩ 0x80#8),
    ([0xE91A8A80, 0x00087219], .ddaTap ⟨.ifFalse, some 21#7⟩ 9#4 1#2 8648#26),
    ([0xE81D0000, 0x00000201], .ddaRead ⟨.always, none⟩ 1#8 2#8),
    ([0xE8A18B80, 0x00000004], .ddaSave ⟨.ifTrue, some 23#7⟩ 4#3),
    ([0xE9250000, 0x00000005], .ddaRestore ⟨.ifFalse, none⟩ 5#3),
    ([0xE8288C80, 0x00000006], .ddaStat ⟨.always, some 25#7⟩ 6#3)
  ] : List (List Nat × Instr)).all reads = true := by decide

/-- Table 17.2, opcodes 0x75 and 0x76. -/
theorem test_words_sequence : ([
    ([0xEA818D01, 0x00000000], .kvbAlloc ⟨.ifTrue, some 26#7⟩ true),
    ([0xEA058280, 0x00000000], .kvbMap ⟨.always, some 5#7⟩),
    ([0xEB0A8D80, 0x0000004F], .kvbShare ⟨.ifFalse, some 27#7⟩ 79#8),
    ([0xEA0D0001, 0x00000000], .kvbFree ⟨.always, none⟩ true),
    ([0xEA908E80, 0x00000017], .kvbStat ⟨.ifTrue, some 29#7⟩ 23#5 false),
    ([0xED028F00, 0x00000020], .seqOpen ⟨.ifFalse, some 30#7⟩ 0#5 true),
    ([0xEC068F80, 0x00000000], .seqEmit ⟨.always, some 31#7⟩),
    ([0xEC8A0000, 0x00000000], .seqDraft ⟨.ifTrue, none⟩),
    ([0xEC0F8300, 0x00000000], .seqConfirm ⟨.always, some 6#7⟩ false),
    ([0xED129080, 0x00000000], .seqReject ⟨.ifFalse, some 33#7⟩),
    ([0xEC150000, 0x00000000], .seqResume ⟨.always, none⟩),
    ([0xEC999180, 0x00000000], .seqClose ⟨.ifTrue, some 35#7⟩),
    ([0xED220000, 0x000010E7], .wchSet ⟨.ifFalse, none⟩ 7#3 4#3 3#3 8#4),
    ([0xEC279280, 0x0000000E], .wchBudget ⟨.always, some 37#7⟩ 2#2 3#3),
    ([0xECA90000, 0x00001981], .wchClr ⟨.ifTrue, none⟩ 0x81#8 9#4 true),
    ([0xED2D9380, 0x00000000], .wchStat ⟨.ifFalse, some 39#7⟩)
  ] : List (List Nat × Instr)).all reads = true := by decide

/-- Table 22.2, opcode 0x77. -/
theorem test_words_pod : ([
    ([0xEE039401, 0x00000001], .podPut ⟨.always, some 40#7⟩ true .commons),
    ([0xEE879480, 0x00000002], .podGet ⟨.ifTrue, some 41#7⟩ false false .global),
    ([0xEE0B8280, 0x00000000], .podAmo ⟨.always, some 5#7⟩ false false 0#4 false false),
    ([0xEE238300, 0x00000002], .colAllred ⟨.always, some 6#7⟩ 2#2 0#2),
    ([0xEF279500, 0x0000000B], .colRedscat ⟨.ifFalse, some 42#7⟩ 3#2 2#2),
    ([0xEE2B9580, 0x00000001], .colAllgath ⟨.always, some 43#7⟩ 1#2),
    ([0xEEAF9600, 0x00000000], .colBcast ⟨.ifTrue, some 44#7⟩ 0#2),
    ([0xEF309680, 0x00000000], .colStat ⟨.ifFalse, some 45#7⟩)
  ] : List (List Nat × Instr)).all reads = true := by decide

end Sys2Proof.Tests
end

section
/-! PROOFS. Loads of the own scratchpad: the place, the store that a byte is forwarded from, the bytes merged (R115, R162, R166). -/

namespace Sys2Proof.Safety

open Sys2Proof.Machine

/-! ## The store that a byte comes from -/

/-- What an output changes about the last forwarding store found: the step of `forwardFrom`. -/
def laterForward (sp : Space) (key l : Nat) (m : Option (Nat × Nat × Access)) (o : Out) : Option (Nat × Nat × Access) :=
  match o with
  | .mem lsid idx a =>
    let hit := (match a.op with | .st => true | .stf => true | _ => false) && a.loc.space == sp
      && decide (a.loc.key ≤ key ∧ key < a.loc.key + a.size ∧ lsid < l)
    if !hit then m
    else match m with
      | none => some (lsid, idx, a)
      | some (l', i', _) => if l' < lsid ∨ (l' = lsid ∧ i' < idx) then some (lsid, idx, a) else m
  | _ => m

theorem forwardFrom_eq_foldl (outs : List Out) (sp : Space) (key l : Nat) :
    forwardFrom outs sp key l = (outs.foldl (laterForward sp key l) none).map fun t => t.2.2 := rfl

/-- An output that forwards nothing leaves what has been found. -/
theorem laterForward_of_not_forwards {sp : Space} {key l : Nat} {o : Out} (m : Option (Nat × Nat × Access))
    (h : ∀ lsid idx a, ¬ Forwards sp key l o lsid idx a) : laterForward sp key l m o = m := by
  cases o with
  | mem lsid idx a =>
    have hop := h lsid idx a
    simp only [Forwards, true_and, not_and] at hop
    cases hk : a.op <;> simp_all [laterForward]
  | _ => rfl

/-- An output that forwards takes the place of what has been found unless that is as late. -/
theorem laterForward_of_forwards {sp : Space} {key l : Nat} {o : Out} {lsid idx : Nat} {a : Access}
    (h : Forwards sp key l o lsid idx a) (m : Option (Nat × Nat × Access)) :
    laterForward sp key l m o = match m with
      | none => some (lsid, idx, a)
      | some (l', i', _) => if l' < lsid ∨ (l' = lsid ∧ i' < idx) then some (lsid, idx, a) else m := by
  obtain ⟨rfl, hop, hsp, hlo, hhi, hl⟩ := h
  rcases hop with hop | hop <;> simp [laterForward, hop, hsp, hlo, hhi, hl]

/-- What has been found among some outputs is the last of those that forward. -/
def IsLastForward (sp : Space) (key l : Nat) (outs : List Out) : Option (Nat × Nat × Access) → Prop
  | none => ∀ o ∈ outs, ∀ lsid idx a, ¬ Forwards sp key l o lsid idx a
  | some (lsid, idx, a) => ∃ o ∈ outs, Forwards sp key l o lsid idx a ∧
      ∀ o' ∈ outs, ∀ lsid' idx' a', Forwards sp key l o' lsid' idx' a' → lsid' < lsid ∨ (lsid' = lsid ∧ idx' ≤ idx)

theorem Forwards.unique {sp : Space} {key l : Nat} {o : Out} {lsid idx lsid' idx' : Nat} {a a' : Access}
    (h : Forwards sp key l o lsid idx a) (h' : Forwards sp key l o lsid' idx' a') : lsid' = lsid ∧ idx' = idx := by
  obtain ⟨rfl, -⟩ := h
  have := h'.1
  simp_all

/-- One more output: it is the last where it forwards and is later than what has been found; else that stays the last. -/
theorem isLastForward_append {sp : Space} {key l : Nat} {outs : List Out} {m : Option (Nat × Nat × Access)} (o : Out)
    (h : IsLastForward sp key l outs m) : IsLastForward sp key l (outs ++ [o]) (laterForward sp key l m o) := by
  by_cases hf : ∃ lsid idx a, Forwards sp key l o lsid idx a
  · obtain ⟨lsid, idx, a, hf⟩ := hf
    rw [laterForward_of_forwards hf]
    match m, h with
    | none, h =>
      refine ⟨o, by simp, hf, List.forall_mem_append.mpr ⟨fun o' ho' _ _ _ hf' => absurd hf' (h o' ho' _ _ _), ?_⟩⟩
      exact List.forall_mem_singleton.mpr fun _ _ _ hf' => .inr ((hf.unique hf').imp_right Nat.le_of_eq)
    | some (l₀, i₀, a₀), ⟨o₀, ho₀, hf₀, hlast⟩ =>
      dsimp only
      split
      · refine ⟨o, by simp, hf, List.forall_mem_append.mpr ⟨fun o' ho' _ _ _ hf' => ?_, ?_⟩⟩
        · have := hlast o' ho' _ _ _ hf'
          omega
        · exact List.forall_mem_singleton.mpr fun _ _ _ hf' => .inr ((hf.unique hf').imp_right Nat.le_of_eq)
      · refine ⟨o₀, by simp [ho₀], hf₀, List.forall_mem_append.mpr ⟨hlast, List.forall_mem_singleton.mpr fun _ _ _ hf' => ?_⟩⟩
        have := hf.unique hf'
        omega
  · have hno : ∀ lsid idx a, ¬ Forwards sp key l o lsid idx a := fun lsid idx a h => hf ⟨lsid, idx, a, h⟩
    rw [laterForward_of_not_forwards m hno]
    match m, h with
    | none, h => exact List.forall_mem_append.mpr ⟨h, List.forall_mem_singleton.mpr hno⟩
    | some (l₀, i₀, a₀), ⟨o₀, ho₀, hf₀, hlast⟩ =>
      exact ⟨o₀, by simp [ho₀], hf₀, List.forall_mem_append.mpr
        ⟨hlast, List.forall_mem_singleton.mpr fun _ _ _ hf' => absurd hf' (hno _ _ _)⟩⟩

theorem isLastForward_foldl (outs : List Out) (sp : Space) (key l : Nat) :
    IsLastForward sp key l outs (outs.foldl (laterForward sp key l) none) := by
  induction outs using List.reverseRecOn with
  | nil => simp [IsLastForward]
  | append_singleton outs o ih =>
    rw [List.foldl_append]
    exact isLastForward_append o ih

/-- No byte is forwarded where no output forwards it. -/
theorem not_forwards_of_forwardFrom_eq_none {outs : List Out} {sp : Space} {key l : Nat} (h : forwardFrom outs sp key l = none) :
    ∀ o ∈ outs, ∀ lsid idx a, ¬ Forwards sp key l o lsid idx a := by
  rw [forwardFrom_eq_foldl, Option.map_eq_none_iff] at h
  have := isLastForward_foldl outs sp key l
  rwa [h] at this

/-- A byte is forwarded from the last output that forwards it. -/
theorem last_of_forwardFrom_eq_some {outs : List Out} {sp : Space} {key l : Nat} {a : Access} (h : forwardFrom outs sp key l = some a) :
    ∃ o ∈ outs, ∃ lsid idx, Forwards sp key l o lsid idx a ∧
      ∀ o' ∈ outs, ∀ lsid' idx' a', Forwards sp key l o' lsid' idx' a' → lsid' < lsid ∨ (lsid' = lsid ∧ idx' ≤ idx) := by
  rw [forwardFrom_eq_foldl, Option.map_eq_some_iff] at h
  obtain ⟨⟨lsid, idx, a'⟩, hfold, rfl⟩ := h
  have hl := isLastForward_foldl outs sp key l
  rw [hfold] at hl
  obtain ⟨o, ho, hf, hlast⟩ := hl
  exact ⟨o, ho, lsid, idx, hf, hlast⟩

/-! ## Little-endian numbers -/

theorem leNat_lt (bs : List Nat) : leNat bs < 256 ^ bs.length := by
  induction bs with
  | nil => simp [leNat]
  | cons b bs ih =>
    rw [leNat, List.length_cons, Nat.pow_succ]
    omega

theorem leNat_digit {bs : List Nat} {j : Nat} (h : j < bs.length) : leNat bs / 256 ^ j % 256 = bs[j] % 256 := by
  induction bs generalizing j with
  | nil => simp at h
  | cons b bs ih =>
    cases j with
    | zero => simp [leNat]
    | succ j =>
      have hdiv : leNat (b :: bs) / 256 = leNat bs := by rw [leNat]; omega
      rw [Nat.pow_succ', ← Nat.div_div_eq_div_mul, hdiv, ih (by simpa using h), List.getElem_cons_succ]

/-! ## The merged value -/

/-- Byte k of a load as the firing sees it: the byte, its X bit where it is forwarded, and whether it is. -/
def mergedByte (f : Firing) (loc : Loc) (lsid : Nat) (v : Val) (k : Nat) : Nat × Bool × Bool :=
  match forwardFrom f.outs loc.space (loc.key + k) lsid with
  | some a => (a.v.norm.d.toNat / 256 ^ (loc.key + k - a.loc.key) % 256, a.v.x, true)
  | none => (v.d.toNat / 256 ^ k % 256, false, false)

theorem mergedByte_of_some {f : Firing} {loc : Loc} {lsid k : Nat} (v : Val) {b : Access}
    (h : forwardFrom f.outs loc.space (loc.key + k) lsid = some b) :
    mergedByte f loc lsid v k = (if b.v.x then 0 else b.v.nat / 256 ^ (loc.key + k - b.loc.key) % 256, b.v.x, true) := by
  rw [mergedByte, h]
  cases hx : b.v.x <;> simp [Val.norm, Val.nat, Val.err, hx]

theorem mergedByte_of_none {f : Firing} {loc : Loc} {lsid k : Nat} (v : Val)
    (h : forwardFrom f.outs loc.space (loc.key + k) lsid = none) :
    mergedByte f loc lsid v k = (v.nat / 256 ^ k % 256, false, false) := by
  rw [mergedByte, h, Val.nat]

theorem forwardVal_eq (f : Firing) (loc : Loc) (size lsid : Nat) (v : Val) :
    forwardVal f.outs loc size lsid v =
      let bs := (List.range size).map (mergedByte f loc lsid v)
      ⟨BitVec.ofNat 64 (leNat (bs.map (·.1))), bs.any (fun b => b.2.1) || (v.x && bs.any fun b => !b.2.2)⟩ := rfl

/-- X of a load: a forwarded byte carries it, or the word does and some byte comes from the word (R115). -/
theorem forwardVal_x (f : Firing) (loc : Loc) (size lsid : Nat) (v : Val) :
    (forwardVal f.outs loc size lsid v).x = true ↔
      (∃ j < size, (mergedByte f loc lsid v j).2.1 = true) ∨ (v.x = true ∧ ∃ j < size, (mergedByte f loc lsid v j).2.2 = false) := by
  simp [forwardVal_eq]

theorem mergedByte_x_iff (f : Firing) (loc : Loc) (lsid : Nat) (v : Val) (j : Nat) :
    (mergedByte f loc lsid v j).2.1 = true ↔ ∃ b, forwardFrom f.outs loc.space (loc.key + j) lsid = some b ∧ b.v.x = true := by
  cases h : forwardFrom f.outs loc.space (loc.key + j) lsid with
  | none => simp [mergedByte_of_none v h]
  | some b => simp [mergedByte_of_some v h]

theorem mergedByte_kept_iff (f : Firing) (loc : Loc) (lsid : Nat) (v : Val) (j : Nat) :
    (mergedByte f loc lsid v j).2.2 = false ↔ forwardFrom f.outs loc.space (loc.key + j) lsid = none := by
  cases h : forwardFrom f.outs loc.space (loc.key + j) lsid with
  | none => simp [mergedByte_of_none v h]
  | some b => simp [mergedByte_of_some v h]

/-- A value of at most eight bytes is the number that its bytes make. -/
theorem forwardVal_nat (f : Firing) (loc : Loc) {size : Nat} (lsid : Nat) (v : Val) (hs : size ≤ 8) :
    (forwardVal f.outs loc size lsid v).nat = leNat ((List.range size).map fun k => (mergedByte f loc lsid v k).1) := by
  have hlt := leNat_lt ((List.range size).map fun k => (mergedByte f loc lsid v k).1)
  have hle : 256 ^ size ≤ 256 ^ 8 := Nat.pow_le_pow_right (by omega) hs
  rw [List.length_map, List.length_range] at hlt
  rw [forwardVal_eq, Val.nat, BitVec.toNat_ofNat, List.map_map]
  exact Nat.mod_eq_of_lt (by simpa [Function.comp_def] using lt_of_lt_of_le hlt hle)

/-- A loaded value with the bytes of older stores is merged as R115 says. -/
theorem forwardVal_merged (f : Firing) (loc : Loc) {size : Nat} (lsid : Nat) (v : Val) (hs : size ≤ 8) :
    Merged f loc size lsid v (forwardVal f.outs loc size lsid v) := by
  refine ⟨?_, fun j hj => ?_, ?_⟩
  · rw [forwardVal_nat f loc lsid v hs]
    simpa using leNat_lt ((List.range size).map fun k => (mergedByte f loc lsid v k).1)
  · rw [forwardVal_nat f loc lsid v hs, leNat_digit (by simpa using hj), List.getElem_map, List.getElem_range]
    beta_reduce
    cases h : forwardFrom f.outs loc.space (loc.key + j) lsid with
    | none => rw [mergedByte_of_none v h, Nat.mod_mod]
    | some b =>
      rw [mergedByte_of_some v h]
      cases hx : b.v.x <;> simp [hx]
  · simp only [forwardVal_x, mergedByte_x_iff, mergedByte_kept_iff]

/-! ## Loads at the own scratchpad -/

/-- An address of the own scratchpad passes the checks of R162, to its place. -/
theorem checkAddr_ownLocal {s : State} {c addr size : Nat} {q : Ask} (h : OwnLocal s c addr size q.frame) (hc : q.core = c)
    (hsp : q.space = .loc) (hsz : q.size = size) (hsc : q.scope = none) : checkAddr s q addr = .ok (ownLoc c addr) none := by
  obtain ⟨hr, ho, hh, ha, hp, hb⟩ := h
  have hr' : ¬ addr ≥ 2 ^ 32 := by omega
  have hb' : ¬ (q.frame = true ∧ bits (s.core c).frameBase.toNat 16 0 ≤ addr % 2 ^ 20 / 8) := fun h => absurd (hb h.1) (by omega)
  subst hc hsz
  simp only [checkAddr, hsp, if_neg hr', ho, hh, ha, hp, protOk, hsc, if_neg hb', ownLoc]
  rfl

/-- The place of an address of the own scratchpad lies at its core. -/
theorem keyCore_localKey {c off : Nat} (h : off < 2 ^ 20) : keyCore (localKey c off) = c := by
  unfold keyCore localKey
  omega

/-- With no earlier access of the core on its way, an access to the own scratchpad is performed at once (R174). -/
theorem ownNow_of_not_pending {s : State} {a : Access} {addr : Nat} (hl : a.loc = ownLoc a.core addr) (hp : pendingOf s a.core = []) :
    ownNow s a = true := by
  have hk : keyCore (localKey a.core (addr % 2 ^ 20)) = a.core := keyCore_localKey (Nat.mod_lt _ (by decide))
  simp only [ownNow, ownLocal, hl, hp, ownLoc, hk, beq_self_eq_true, List.any_nil, Bool.and_self, Bool.not_false]

/-- An operand without X whose address passes the checks goes on at the place. -/
theorem atAddr_ok {s : State} {q : Ask} {a : Val} {addr : Nat} {loc : Loc} {t : Option Tlb} (hx : a.x = false)
    (h : checkAddr s q addr = .ok loc t) (k : Loc → Option Tlb → FRes) : atAddr s q a addr k = k loc t := by
  simp [atAddr, hx, h]

section
variable {l : LF} {a : Val} {s : State} {c : Nat} {f : Firing} {n size : Nat}

/-- A plain load of the own scratchpad answers the bytes there at once, with those of older stores (R166). -/
theorem loadBody_ownLocal (op : MemOp) (noReg : Bool) (hsp : l.space = .loc) (hx : a.x = false) (hpend : pendingOf s c = [])
    (hown : OwnLocal s c (lAddr a l.off size) size false) (hg : isGated s (ownLoc c (lAddr a l.off size)).key = false) :
    loadBody l op size noReg s c f n [a] = .val (forwardVal f.outs (ownLoc c (lAddr a l.off size)) size l.lsid.toNat
      ⟨BitVec.ofNat 64 (memNat s.mem (ownLoc c (lAddr a l.off size)).key size), keyX s.mem (ownLoc c (lAddr a l.off size)).key⟩) := by
  have hchk : checkAddr s { core := c, space := l.space, size, write := false, noReg } (lAddr a l.off size)
      = .ok (ownLoc c (lAddr a l.off size)) none := checkAddr_ownLocal hown rfl hsp rfl rfl
  have hnow : ownNow s (mkAccess s c f n op (ownLoc c (lAddr a l.off size)) size Val.err Val.err none) = true :=
    ownNow_of_not_pending rfl hpend
  have ha : opn [a] 0 = a := rfl
  rw [loadBody, ha, atAddr_ok hx hchk]
  simp only [hnow, hg, Bool.not_false, Bool.and_self, if_true]
  rfl

/-- FE.TEST of the own scratchpad answers the tags of the word there at once (R173). -/
theorem feTest_ownLocal {k : Nat} (hsp : l.space = .loc) (hx : a.x = false) (hpend : pendingOf s c = [])
    (hfree : Free f [l.tgt]) (hex : Executes s c k n f (.feTest l) [a])
    (hown : OwnLocal s c (lAddr a l.off 8) 8 false) (hg : isGated s (ownLoc c (lAddr a l.off 8)).key = false) :
    Gives s c k n f (.feTest l) (some (natVal (bnat (keyF s.mem (ownLoc c (lAddr a l.off 8)).key)
      + 2 * bnat (keyX s.mem (ownLoc c (lAddr a l.off 8)).key)))) 0 := by
  refine gives_of_val hex hfree rfl ?_
  have hchk : checkAddr s { core := c, space := l.space, size := 8, write := false } (lAddr a l.off 8)
      = .ok (ownLoc c (lAddr a l.off 8)) none := checkAddr_ownLocal hown rfl hsp rfl rfl
  have hnow : ownNow s (mkAccess s c f n .feTest (ownLoc c (lAddr a l.off 8)) 8 Val.err Val.err none) = true :=
    ownNow_of_not_pending rfl hpend
  have ha : opn [a] 0 = a := rfl
  rw [ha, atAddr_ok hx hchk]
  simp only [hnow, hg, Bool.not_false, Bool.and_self, if_true]
  rfl

/-- A load whose body is a plain load delivers the merged bytes of the own scratchpad. -/
theorem load_gives_merged {k : Nat} {i : Instr} {op : MemOp} {noReg : Bool} (hexec : exec i s = fireWord s i (loadBody l op size noReg))
    (htgt : i.shape.tgts = [l.tgt]) (hs : size ≤ 8) (hsp : l.space = .loc) (hx : a.x = false) (hpend : pendingOf s c = [])
    (hfree : Free f [l.tgt]) (hex : Executes s c k n f i [a])
    (hown : OwnLocal s c (lAddr a l.off size) size false) (hg : isGated s (ownLoc c (lAddr a l.off size)).key = false) :
    let loc := ownLoc c (lAddr a l.off size)
    ∃ w, Merged f loc size l.lsid.toNat ⟨BitVec.ofNat 64 (memNat s.mem loc.key size), keyX s.mem loc.key⟩ w ∧
      Gives s c k n f i (some w) 0 :=
  ⟨_, forwardVal_merged f _ _ _ hs, gives_of_val hex (htgt ▸ hfree) hexec (loadBody_ownLocal op noReg hsp hx hpend hown hg)⟩

end

/-- Settles O29: each load by `load_gives_merged`, FE.TEST by its body, the forwarding store by induction on the outputs. -/
theorem loadsFromTheOwnScratchpad : Obligations.LoadsFromTheOwnScratchpad := by
  refine ⟨fun l a s c k n f hsp hfree hx hpend => ⟨fun e he i sz hi hex => ?_, fun hex hown hg => ?_⟩, fun outs sp key l => ⟨?_, ?_⟩⟩
  · subst hi
    simp only [List.mem_cons, Prod.mk.injEq, List.not_mem_nil, or_false] at he
    rcases he with ⟨rfl, rfl⟩ | ⟨rfl, rfl⟩ | ⟨rfl, rfl⟩ | ⟨rfl, rfl⟩ <;>
      exact load_gives_merged rfl rfl (by decide) hsp hx hpend hfree hex
  · exact feTest_ownLocal hsp hx hpend hfree hex hown hg
  · exact not_forwards_of_forwardFrom_eq_none
  · exact fun _ => last_of_forwardFrom_eq_some

end Sys2Proof.Safety
end

section
/-! PROOFS. Control registers of a core: what a store of one leaves behind (R13, R200, R447), and memory after reset. -/

namespace Sys2Proof.Safety

open Sys2Proof.Machine

/-! ## Reset -/

/-- Settles O4: memory after reset lists nothing. -/
theorem resetMemoryIsCanonical : Obligations.ResetMemoryIsCanonical := by
  unfold Obligations.ResetMemoryIsCanonical Safe
  rfl

/-! ## A number made of single bits -/

theorem natSum_append_singleton (l : List Nat) (a : Nat) : natSum (l ++ [a]) = natSum l + a := by
  simp [natSum]

/-- Chosen bits from bit b on, added to a number below it, are the bits of the sum from there on. -/
theorem testBit_add_natSum_bits {x b : Nat} (n : Nat) (p : Nat → Bool) (hx : x < 2 ^ b) :
    x + natSum ((List.range n).map fun k => if p k then 2 ^ (b + k) else 0) < 2 ^ (b + n) ∧
    ∀ j, (x + natSum ((List.range n).map fun k => if p k then 2 ^ (b + k) else 0)).testBit j =
      if j < b then x.testBit j else decide (j < b + n) && p (j - b) := by
  induction n with
  | zero =>
    refine ⟨by simpa [natSum] using hx, fun j => ?_⟩
    by_cases hj : j < b
    · simp [natSum, hj]
    · have : x < 2 ^ j := lt_of_lt_of_le hx (Nat.pow_le_pow_right (by omega) (by omega))
      simp [natSum, hj, Nat.testBit_lt_two_pow this]
  | succ n ih =>
    obtain ⟨hlt, hbit⟩ := ih
    have hy : x + natSum ((List.range (n + 1)).map fun k => if p k then 2 ^ (b + k) else 0) =
        2 ^ (b + n) * (p n).toNat + (x + natSum ((List.range n).map fun k => if p k then 2 ^ (b + k) else 0)) := by
      rw [List.range_succ, List.map_append, List.map_singleton, natSum_append_singleton]
      cases p n
      · simp
      · simp; omega
    rw [hy]
    refine ⟨?_, fun j => ?_⟩
    · rw [← Nat.add_assoc b n 1, Nat.pow_succ]
      cases p n
      · simp; omega
      · simp; omega
    · rw [Nat.testBit_two_pow_mul_add _ hlt, hbit]
      by_cases hj : j < b + n
      · have : j < b + (n + 1) := by omega
        simp [hj, this]
      · obtain ⟨i, rfl⟩ := Nat.exists_eq_add_of_le (Nat.le_of_not_lt hj)
        have hb : ¬ b + n + i < b := by omega
        have hi : b + n + i < b + (n + 1) ↔ i = 0 := by omega
        have hsub : b + n + i - b = n + i := by omega
        simp only [Nat.not_lt.mpr (Nat.le_add_right (b + n) i), if_false, hb, hi, hsub, Nat.add_sub_cancel_left]
        cases i <;> cases p n <;> simp [Nat.testBit_succ]

/-! ## Reads after a write to the core -/

@[simp] theorem onEvent_core (s : State) (e : Event) (c : Nat) : (onEvent s e).core c = s.core c := rfl
@[simp] theorem onEvent_mem (s : State) (e : Event) : (onEvent s e).mem = s.mem := rfl
@[simp] theorem coreRegRead_onEvent (s : State) (e : Event) (c n : Nat) : coreRegRead (onEvent s e) c n = coreRegRead s c n := rfl

/-- Event counters read as before where the core's counters and their selectors are. -/
theorem evcRead_setCore {s : State} {c : Nat} {x : Core} (hsel : x.evsel = (s.core c).evsel) (hevc : x.evc = (s.core c).evc) (k : Nat) :
    evcRead (s.setCore c x) c k = evcRead s c k := by
  have hpart : corePart (s.setCore c x) c = corePart s c := rfl
  have hport : ownsPort (s.setCore c x) = ownsPort s := rfl
  simp only [evcRead, State.core_setCore_self, hsel, hevc, hpart, hport]

/-- TRAPV, SYNC_OVF, SYNC_OVA and DRAIN_LIM of a core filled: each register reads as before but those that are filled anew. -/
theorem coreRegRead_setCore_plain {s : State} {c m : Nat} {t o a d : BitVec 64} (hm : m < 0x100)
    (ht : m = 0x08 → t = (s.core c).trapv) (ho : m = 0x18 → o = (s.core c).syncOvf) (ha : m = 0x19 → a = (s.core c).syncOva)
    (hd : m = 0x1C → d = (s.core c).drainLim) :
    coreRegRead (s.setCore c { s.core c with trapv := t, syncOvf := o, syncOva := a, drainLim := d }) c m = coreRegRead s c m := by
  unfold coreRegRead
  rw [State.core_setCore_self]
  split
  case h_3 => rw [ht rfl]
  case h_8 => rw [ho rfl]
  case h_9 => rw [ha rfl]
  case h_11 => rw [hd rfl]
  case h_17 | h_18 | h_19 | h_20 => refine evcRead_setCore ?_ ?_ _ <;> rfl
  case h_21 => omega
  all_goals rfl

/-- A store of one of these registers fills it, and no other register of Table 8.2 reads otherwise. -/
theorem coreRegWrite_plain {n : Nat} (s : State) (c : Nat) (v : BitVec 64) (hn : n ∈ [0x08, 0x18, 0x19, 0x1C]) :
    coreRegRead (coreRegWrite s c n v) c n = v.toNat ∧
    (∀ m < 0x100, m ≠ n → coreRegRead (coreRegWrite s c n v) c m = coreRegRead s c m) ∧ (coreRegWrite s c n v).mem = s.mem := by
  simp only [List.mem_cons, List.not_mem_nil, or_false] at hn
  rcases hn with rfl | rfl | rfl | rfl
  · exact ⟨by simp [coreRegRead, coreRegWrite], fun m hm hne =>
      coreRegRead_setCore_plain hm (absurd · hne) (fun _ => rfl) (fun _ => rfl) (fun _ => rfl), rfl⟩
  · exact ⟨by simp [coreRegRead, coreRegWrite], fun m hm hne =>
      coreRegRead_setCore_plain hm (fun _ => rfl) (absurd · hne) (fun _ => rfl) (fun _ => rfl), rfl⟩
  · exact ⟨by simp [coreRegRead, coreRegWrite], fun m hm hne =>
      coreRegRead_setCore_plain hm (fun _ => rfl) (fun _ => rfl) (absurd · hne) (fun _ => rfl), rfl⟩
  · exact ⟨by simp [coreRegRead, coreRegWrite], fun m hm hne =>
      coreRegRead_setCore_plain hm (fun _ => rfl) (fun _ => rfl) (fun _ => rfl) (absurd · hne), rfl⟩

/-! ## TQ_BASE -/

/-- With rings and walker table empty a write of TQ_BASE takes effect. -/
theorem writeTqBase_of_empty {s : State} {c : Nat} (v : BitVec 64) (h : ringsEmpty (s.core c) = true) :
    coreRegRead (writeTqBase s c v) c 0x10 = v.toNat ∧ ((writeTqBase s c v).core c).tqHeld = none := by
  simp [writeTqBase, h, coreRegRead]

/-- While they hold records it is held. -/
theorem writeTqBase_of_not_empty {s : State} {c : Nat} (v : BitVec 64) (h : ringsEmpty (s.core c) = false) :
    coreRegRead (writeTqBase s c v) c 0x10 = coreRegRead s c 0x10 ∧ ((writeTqBase s c v).core c).tqHeld = some v := by
  simp [writeTqBase, h, coreRegRead]

/-! ## EVSEL -/

theorem bit_eq_testBit (v i : Nat) : bit v i = v.testBit i := by
  rw [bit, Nat.testBit_eq_decide_div_mod_eq]

/-- A write of EVSEL clears the counters (R447). -/
theorem evcRead_writeEvsel (s : State) (c : Nat) (v : BitVec 64) (k : Nat) : evcRead (writeEvsel s c v) c k = 0 := by
  simp [evcRead, writeEvsel, Sp.get, Sp.find?]

/-- Bits 59:0 are stored, OVF bits clear where ones are written (R447). -/
theorem getLsbD_writeEvsel (s : State) (c : Nat) (v : BitVec 64) {j : Nat} (hj : j < 64) :
    ((writeEvsel s c v).core c).evsel.getLsbD j = if j < 60 then v.getLsbD j else (s.core c).evsel.getLsbD j && !v.getLsbD j := by
  have hbits := (testBit_add_natSum_bits (x := v.toNat % 2 ^ 60) (b := 60) 4
    (fun k => bit (bits (s.core c).evsel.toNat 63 60) k && !bit v.toNat (60 + k)) (Nat.mod_lt _ (by decide))).2 j
  rw [writeEvsel, State.core_modCore_self]
  dsimp only
  rw [BitVec.getLsbD_ofNat, hbits]
  by_cases h60 : j < 60
  · simp only [hj, decide_true, Bool.true_and, h60, if_true, Nat.testBit_mod_two_pow, BitVec.testBit_toNat]
  · obtain ⟨i, rfl⟩ := Nat.exists_eq_add_of_le (Nat.le_of_not_lt h60)
    have hi' : i < 63 - 60 + 1 := by omega
    simp only [hj, h60, bits, bit_eq_testBit, Nat.testBit_mod_two_pow, Nat.testBit_div_two_pow, BitVec.testBit_toNat,
      decide_true, Bool.true_and, if_false, Nat.add_sub_cancel_left, hi', Nat.add_comm i 60]

theorem coreRegRead_evc_writeEvsel (s : State) (c : Nat) (v : BitVec 64) {k : Nat} (hk : k < 4) :
    coreRegRead (writeEvsel s c v) c (0x31 + k) = 0 := by
  obtain rfl | rfl | rfl | rfl : k = 0 ∨ k = 1 ∨ k = 2 ∨ k = 3 := by omega
  all_goals exact evcRead_writeEvsel s c v _

/-! ## The events -/

/-- A host's store that sets no reserved bit writes the register, where no event of its own carries it out (R13). -/
theorem registerWrite_core {s : State} {c n : Nat} {v : BitVec 64} (hres : coreReserved n v.toNat = false)
    (hn : n ∉ [0x10, 0x30, 0x09]) :
    exec .registerWrite (onEvent s (.registerWrite (.core c n) v)) = .next (coreRegWrite (onEvent s (.registerWrite (.core c n) v)) c n v) := by
  have hstore : ∀ t, coreStore t c n v = coreRegWrite t c n v := by
    intro t
    simp only [List.mem_cons, List.not_mem_nil, or_false, not_or] at hn
    obtain ⟨h10, h30, h09⟩ := hn
    simp only [coreStore, hres, Bool.false_eq_true, if_false]
  exact congrArg _ (hstore _)

/-- A store that sets a reserved bit is rejected (R13). -/
theorem registerWrite_core_reserved {s : State} {c n : Nat} {v : BitVec 64} (hres : coreReserved n v.toNat = true) :
    exec .registerWrite (onEvent s (.registerWrite (.core c n) v)) = .next (pkgReject (onEvent s (.registerWrite (.core c n) v))) := by
  have hstore : ∀ t, coreStore t c n v = pkgReject t := fun t => by unfold coreStore; exact if_pos hres
  exact congrArg _ (hstore _)

/-- A held write of TQ_BASE is applied once rings and walker table are empty (R200). -/
theorem tqBaseApply_of_held {s : State} {c : Nat} {v : BitVec 64} (he : ringsEmpty (s.core c) = true) (ht : (s.core c).tqHeld = some v) :
    exec .tqBaseApply (onEvent s (.tqBaseApply c)) = .next (writeTqBase (onEvent s (.tqBaseApply c)) c v) := by
  have happly : applyTqBase (onEvent s (.tqBaseApply c)) c = writeTqBase (onEvent s (.tqBaseApply c)) c v := by
    rw [applyTqBase, onEvent_core, ht]
  rw [← happly]
  exact if_pos he

/-- Settles O43: a store by what it leaves in the core, by register; its events by what they run. -/
theorem registerWritesTakeEffect : Obligations.RegisterWritesTakeEffect := by
  intro s0 c v
  dsimp only
  refine ⟨fun n hn hres => ?_, fun hres => ?_, fun n hres => ?_, fun n => ⟨_, rfl⟩, ⟨_, rfl, ?_, ?_⟩, fun he ht => ?_, ⟨_, rfl, ?_, ?_⟩⟩
  · obtain ⟨hown, hother, hmem⟩ := coreRegWrite_plain (onEvent s0 (.registerWrite (.core c n) v)) c v hn
    exact ⟨_, registerWrite_core hres ((by decide : ∀ n ∈ [0x08, 0x18, 0x19, 0x1C], n ∉ [0x10, 0x30, 0x09]) n hn), hown, hother, fun a => by rw [hmem]; rfl⟩
  · exact ⟨_, registerWrite_core hres (by decide), by simp [coreRegRead, coreRegWrite]⟩
  · exact registerWrite_core_reserved hres
  · exact writeTqBase_of_empty (s := onEvent s0 (.tqBaseWrite c v)) v
  · exact writeTqBase_of_not_empty (s := onEvent s0 (.tqBaseWrite c v)) v
  · exact ⟨_, tqBaseApply_of_held he ht, writeTqBase_of_empty (s := onEvent s0 (.tqBaseApply c)) v he⟩
  · exact fun k hk => coreRegRead_evc_writeEvsel (onEvent s0 _) c v hk
  · exact fun j hj => getLsbD_writeEvsel (onEvent s0 _) c v hj

end Sys2Proof.Safety
end

section
/-! PROOFS. Integer arithmetic, extremes and compares (R19, R20, R131, R137), and operands with X (R22, R114, R135, R143). -/

namespace Sys2Proof.Safety

open Sys2Proof.Machine

/-! ## Operands without X, by the shape of the body -/

section
variable {i : Instr} {t : ITy} {a b v : Val}

/-- A two-operand instruction on integers yields what its operation makes of the operands read at the type. -/
theorem yields_int2 {k : Int → Int → Val} (he : ∀ s, exec i s = fireWord s i fun _ _ _ _ vs => int2 t k vs)
    (ha : a.x = false) (hb : b.x = false) (hv : k (rdInt t a.nat) (rdInt t b.nat) = v) : Yields i [a, b] v :=
  yields_of he fun _ _ _ _ => by simp [int2, opn, nthD, nth?, ha, hb, hv]

theorem yields_int1 {k : Int → Val} (he : ∀ s, exec i s = fireWord s i fun _ _ _ _ vs => int1 t k vs)
    (ha : a.x = false) (hv : k (rdInt t a.nat) = v) : Yields i [a] v :=
  yields_of he fun _ _ _ _ => by simp [int1, opn, nthD, nth?, ha, hv]

/-- A two-operand instruction on patterns yields what its operation makes of the n-bit fields. -/
theorem yields_pat2 {k : Nat → Nat → Nat} {x : BitVec t.bits} (he : ∀ s, exec i s = fireWord s i fun _ _ _ _ vs => pat2 t k vs)
    (ha : a.x = false) (hb : b.x = false) (hv : k (low t a).toNat (low t b).toNat = x.toNat) :
    Yields i [a, b] (wide t x) :=
  yields_of he fun _ _ _ _ => by
    have hlow : ∀ v : Val, v.nat % 2 ^ t.bits = (low t v).toNat := fun v => by rw [low_eq, BitVec.toNat_ofNat]
    simp [pat2, opn, nthD, nth?, ha, hb, hlow, putPat_eq, hv]

end

/-! ## Operands read at a type -/

@[simp] theorem ofInt_rdInt (t : ITy) (v : Val) : BitVec.ofInt t.bits (rdInt t v.nat) = low t v := by
  rw [rdInt_eq]
  split
  · exact BitVec.ofInt_toInt
  · exact BitVec.eq_of_toInt_eq (by rw [BitVec.toInt_ofInt, BitVec.toInt_eq_toNat_bmod])

theorem rdInt_s (w : IWidth) (v : Val) : rdInt (.s w) v.nat = (low (.s w) v).toInt := rdInt_eq (.s w) v
theorem rdInt_n (w : IWidth) (v : Val) : rdInt (.n w) v.nat = (low (.n w) v).toNat := rdInt_eq (.n w) v

/-- Operands read the same number exactly where their n-bit fields agree. -/
theorem rdInt_eq_iff (t : ITy) (a b : Val) : rdInt t a.nat = rdInt t b.nat ↔ low t a = low t b := by
  refine ⟨fun h => ?_, fun h => by rw [rdInt_eq, rdInt_eq, h]⟩
  rw [← ofInt_rdInt, h, ofInt_rdInt]

/-- Signed fields compare as the numbers read, natural fields too (R19). -/
theorem decide_rdInt_s_lt (w : IWidth) (a b : Val) :
    decide (rdInt (.s w) a.nat < rdInt (.s w) b.nat) = (low (.s w) a).slt (low (.s w) b) := by rw [rdInt_s, rdInt_s]; rfl
theorem decide_rdInt_s_le (w : IWidth) (a b : Val) :
    decide (rdInt (.s w) a.nat ≤ rdInt (.s w) b.nat) = (low (.s w) a).sle (low (.s w) b) := by rw [rdInt_s, rdInt_s]; rfl
theorem decide_rdInt_n_lt (w : IWidth) (a b : Val) :
    decide (rdInt (.n w) a.nat < rdInt (.n w) b.nat) = (low (.n w) a).ult (low (.n w) b) := by simp [rdInt_n, BitVec.ult]
theorem decide_rdInt_n_le (w : IWidth) (a b : Val) :
    decide (rdInt (.n w) a.nat ≤ rdInt (.n w) b.nat) = (low (.n w) a).ule (low (.n w) b) := by simp [rdInt_n, BitVec.ule]

theorem cmpVal_eq (b : Bool) : cmpVal b = flagVal b := by cases b <;> rfl

/-- One of two operands, written back at its type. -/
theorem putInt_ite (t : ITy) (p : Prop) [Decidable p] (a b : Val) :
    putInt t (if p then rdInt t a.nat else rdInt t b.nat) = wide t (if decide p = true then low t a else low t b) := by
  rw [putInt_eq, apply_ite (BitVec.ofInt t.bits), ofInt_rdInt, ofInt_rdInt]
  simp only [decide_eq_true_eq]

/-- The magnitude of an operand, wrapped: of a signed one whose top bit is set, the negative. -/
theorem ofInt_natAbs_rdInt (t : ITy) (v : Val) :
    BitVec.ofInt t.bits (rdInt t v.nat).natAbs = if t.signed && (low t v).msb then -low t v else low t v := by
  have hneg : rdInt t v.nat < 0 ↔ (t.signed && (low t v).msb) = true := by
    rw [rdInt_eq, Bool.and_eq_true, BitVec.msb_eq_toInt, decide_eq_true_eq]
    split <;> simp_all
  split
  · next h => rw [Int.ofNat_natAbs_of_nonpos (hneg.mpr h).le, BitVec.ofInt_neg, ofInt_rdInt]
  · next h => rw [Int.natAbs_of_nonneg (not_lt.mp (mt hneg.mp h)), ofInt_rdInt]

/-! ## The upper half of a product -/

/-- Bits n to 2n - 1 of an integer. -/
theorem setWidth_ushiftRight_ofInt (n : Nat) (x : Int) :
    (BitVec.ofInt (n + n) x >>> n).setWidth n = BitVec.ofInt n (x / 2 ^ n) := by
  have hpos : (0 : Int) < 2 ^ n := by positivity
  have hdiv : x % 2 ^ (n + n) / 2 ^ n = x / 2 ^ n - 2 ^ n * (x / 2 ^ (n + n)) := by
    rw [Int.emod_def, pow_add, mul_assoc, Int.sub_mul_ediv_left _ _ hpos.ne']
  apply BitVec.eq_of_toNat_eq
  zify
  simp only [BitVec.toNat_setWidth, BitVec.toNat_ushiftRight, BitVec.toNat_ofInt, Nat.shiftRight_eq_div_pow]
  push_cast
  rw [Int.toNat_of_nonneg (Int.emod_nonneg _ (by positivity)), Int.toNat_of_nonneg (Int.emod_nonneg _ (by positivity)), hdiv,
    Int.sub_mul_emod_self_left]

/-- The upper half of the product of two fields, signed and natural. -/
theorem upper_mul_signExtend {n : Nat} (x y : BitVec n) :
    ((x.signExtend (n + n) * y.signExtend (n + n)) >>> n).setWidth n = BitVec.ofInt n (x.toInt * y.toInt / 2 ^ n) := by
  rw [BitVec.signExtend, BitVec.signExtend, ← BitVec.ofInt_mul, setWidth_ushiftRight_ofInt]
theorem upper_mul_setWidth {n : Nat} (x y : BitVec n) :
    ((x.setWidth (n + n) * y.setWidth (n + n)) >>> n).setWidth n = BitVec.ofInt n ((x.toNat : Int) * y.toNat / 2 ^ n) := by
  have hwide : ∀ z : BitVec n, z.setWidth (n + n) = BitVec.ofInt (n + n) z.toNat := fun z =>
    BitVec.eq_of_toInt_eq (by rw [BitVec.toInt_ofInt, BitVec.toInt_eq_toNat_bmod, BitVec.toNat_setWidth, Int.natCast_mod, Int.emod_bmod])
  rw [hwide, hwide, ← BitVec.ofInt_mul, setWidth_ushiftRight_ofInt]

/-- Settles O11: each instruction by the shape of its body, its result by the lemmas about operands read at a type. -/
theorem arithmeticExtremesAndCompares : Obligations.ArithmeticExtremesAndCompares := by
  refine ⟨fun t g a b ha hb => ⟨?add, ?sub, ?mul, ?neg, ?abs, ?and, ?or, ?xor, ?andn, ?orn⟩,
    fun t w g a b ha hb => ⟨?mulh, ?mulhn, ?min, ?minn, ?max, ?maxn, ?teq, ?tne, ?tlt, ?tltn, ?tle, ?tlen⟩⟩
  case add => exact yields_int2 (fun _ => rfl) ha hb (by simp only [putInt_eq, BitVec.ofInt_add, ofInt_rdInt])
  case sub =>
    exact yields_int2 (fun _ => rfl) ha hb
      (by simp only [putInt_eq, Int.sub_eq_add_neg, BitVec.ofInt_add, BitVec.ofInt_neg, ofInt_rdInt, BitVec.sub_eq_add_neg])
  case mul => exact yields_int2 (fun _ => rfl) ha hb (by simp only [putInt_eq, BitVec.ofInt_mul, ofInt_rdInt])
  case neg => exact yields_int1 (fun _ => rfl) ha (by simp only [putInt_eq, BitVec.ofInt_neg, ofInt_rdInt])
  case abs => exact yields_int1 (fun _ => rfl) ha (by rw [putInt_eq, ofInt_natAbs_rdInt])
  case and => exact yields_pat2 (fun _ => rfl) ha hb (BitVec.toNat_and ..).symm
  case or => exact yields_pat2 (fun _ => rfl) ha hb (BitVec.toNat_or ..).symm
  case xor => exact yields_pat2 (fun _ => rfl) ha hb (BitVec.toNat_xor ..).symm
  case andn => exact yields_pat2 (fun _ => rfl) ha hb (by rw [BitVec.toNat_and, BitVec.toNat_not])
  case orn => exact yields_pat2 (fun _ => rfl) ha hb (by rw [BitVec.toNat_or, BitVec.toNat_not])
  case mulh => exact yields_int2 (fun _ => rfl) ha hb (by rw [putInt_eq, rdInt_s, rdInt_s]; exact congrArg _ (upper_mul_signExtend ..).symm)
  case mulhn => exact yields_int2 (fun _ => rfl) ha hb (by rw [putInt_eq, rdInt_n, rdInt_n]; exact congrArg _ (upper_mul_setWidth ..).symm)
  case min => exact yields_int2 (fun _ => rfl) ha hb (by rw [putInt_ite, decide_rdInt_s_le])
  case minn => exact yields_int2 (fun _ => rfl) ha hb (by rw [putInt_ite, decide_rdInt_n_le])
  case max => exact yields_int2 (fun _ => rfl) ha hb (by rw [putInt_ite]; simp only [ge_iff_le, decide_rdInt_s_le])
  case maxn => exact yields_int2 (fun _ => rfl) ha hb (by rw [putInt_ite]; simp only [ge_iff_le, decide_rdInt_n_le])
  case teq => exact yields_int2 (fun _ => rfl) ha hb (by simp only [cmpVal_eq, rdInt_eq_iff]; rfl)
  case tne => exact yields_int2 (fun _ => rfl) ha hb (by simp only [cmpVal_eq, ne_eq, rdInt_eq_iff, decide_not]; rfl)
  case tlt => exact yields_int2 (fun _ => rfl) ha hb (by rw [cmpVal_eq, decide_rdInt_s_lt])
  case tltn => exact yields_int2 (fun _ => rfl) ha hb (by rw [cmpVal_eq, decide_rdInt_n_lt])
  case tle => exact yields_int2 (fun _ => rfl) ha hb (by rw [cmpVal_eq, decide_rdInt_s_le])
  case tlen => exact yields_int2 (fun _ => rfl) ha hb (by rw [cmpVal_eq, decide_rdInt_n_le])

/-! ## Operands with X -/

/-- An instruction executes on as many values as its shape has operands. -/
theorem Executes.length_vals {s : State} {c k n : Nat} {f : Firing} {i : Instr} {vs : List Val} (h : Executes s c k n f i vs) :
    vs.length = bnat i.shape.a + bnat i.shape.b + bnat i.shape.c := by
  rw [← h.vals]
  cases ha : i.shape.a <;> cases hb : i.shape.b <;> cases hc : i.shape.c <;> simp [valuesAt, opPositions, ha, hb, hc, bnat]

/-- A body that answers an error token on as many operands as the instruction has yields one. -/
theorem yields_err_of {i : Instr} {vs : List Val} {body : List Val → FRes} (he : ∀ s, exec i s = fireWord s i fun _ _ _ _ vs => body vs)
    (hb : vs.length = bnat i.shape.a + bnat i.shape.b + bnat i.shape.c → body vs = .val Val.err) : Yields i vs ⟨0, true⟩ :=
  fun s _ _ _ _ h hf => gives_of_val h hf (he s) (hb h.length_vals)

section
variable {vs : List Val} (hx : vs.any (·.x) = true)
include hx

theorem int2_err (t : ITy) (k : Int → Int → Val) (hl : vs.length = 2) : int2 t k vs = .val Val.err := by
  obtain ⟨a, b, rfl⟩ := List.length_eq_two.mp hl
  simp_all [int2, opn, nthD, nth?]
theorem int1_err (t : ITy) (k : Int → Val) (hl : vs.length = 1) : int1 t k vs = .val Val.err := by
  obtain ⟨a, rfl⟩ := List.length_eq_one_iff.mp hl
  simp_all [int1, opn, nthD, nth?]
theorem pat2_err (t : ITy) (k : Nat → Nat → Nat) (hl : vs.length = 2) : pat2 t k vs = .val Val.err := by
  obtain ⟨a, b, rfl⟩ := List.length_eq_two.mp hl
  simp_all [pat2, opn, nthD, nth?]
theorem pat1_err (t : ITy) (k : Nat → Val) (hl : vs.length = 1) : pat1 t k vs = .val Val.err := by
  obtain ⟨a, rfl⟩ := List.length_eq_one_iff.mp hl
  simp_all [pat1, opn, nthD, nth?]
theorem divOp_err (t : ITy) (hl : vs.length = 2) : divOp t vs = .val Val.err := by
  obtain ⟨a, b, rfl⟩ := List.length_eq_two.mp hl
  simp_all [divOp, opn, nthD, nth?]
theorem remOp_err (t : ITy) (hl : vs.length = 2) : remOp t vs = .val Val.err := by
  obtain ⟨a, b, rfl⟩ := List.length_eq_two.mp hl
  simp_all [remOp, opn, nthD, nth?]
theorem extBody_err (k : Nat → Val) (hl : vs.length = 1) : extBody vs k = .val Val.err := by
  obtain ⟨a, rfl⟩ := List.length_eq_one_iff.mp hl
  simp_all [extBody, opn, nthD, nth?]
theorem errAny_err (k : Val) : errAny vs k = .val Val.err := if_pos hx
theorem predOp_err (k : List Bool → Bool) : predOp k vs = .val Val.err := if_pos hx

end

/-- Settles O16: an instruction's body is of one of nine shapes, and each answers an error token. -/
theorem errorOperandGivesErrorToken : Obligations.ErrorOperandGivesErrorToken := by
  intro i vs hi hx
  cases i
  case pand | por | pnot => exact yields_err_of (fun _ => rfl) fun _ => predOp_err hx _
  case add | sub | mul | mulh | mulhn | min | minn | max | maxn | teq | tne | tlt | tltn | tle | tlen =>
    exact yields_err_of (fun _ => rfl) fun hl => int2_err hx _ _ hl
  case neg | abs | addi | teqi | tnei | tlti | tltni | tlei | tleni =>
    exact yields_err_of (fun _ => rfl) fun hl => int1_err hx _ _ hl
  case and | or | xor | andn | orn | shl | shr | sar | rot =>
    exact yields_err_of (fun _ => rfl) fun hl => pat2_err hx _ _ hl
  case clz | ctz | popc | bswap => exact yields_err_of (fun _ => rfl) fun hl => pat1_err hx _ _ hl
  case div | divn => exact yields_err_of (fun _ => rfl) fun hl => divOp_err hx _ hl
  case rem | remn => exact yields_err_of (fun _ => rfl) fun hl => remOp_err hx _ hl
  case sext | zext | appc => exact yields_err_of (fun _ => rfl) fun hl => extBody_err hx _ hl
  case madd | sel | bfx | bfi => exact yields_err_of (fun _ => rfl) fun _ => errAny_err hx _
  all_goals exact absurd hi Bool.false_ne_true

end Sys2Proof.Safety
end

section
/-! PROOFS. Rounding (R24, R26 to R28): the nearest integer, the numbers of a format as multiples of a power of two, and that
`Fmt.write` rounds once, also a value that is known only to lie between two neighbours far below the format's last bit. -/

namespace Sys2Proof.Safety

open Sys2Proof.Machine

/-! ## The nearest integer, ties to even -/

/-- y is the integer nearest to the real number q, ties to even. -/
def NearR (q : ℝ) (y : ℤ) : Prop := |q - y| ≤ 1 / 2 ∧ (|q - y| = 1 / 2 → y % 2 = 0)

theorem nearR_cast (q : ℚ) (y : ℤ) : NearR (q : ℝ) y ↔ Nearest q y := by
  have habs : |(q : ℝ) - y| = ((|q - y| : ℚ) : ℝ) := by push_cast; rfl
  have hhalf : (1 / 2 : ℝ) = ((1 / 2 : ℚ) : ℝ) := by push_cast; rfl
  rw [NearR, Nearest, habs, hhalf, Rat.cast_le, Rat.cast_inj]

namespace NearR
variable {q : ℝ} {y : ℤ}

theorem bounds (h : NearR q y) : y - 1 / 2 ≤ q ∧ q ≤ y + 1 / 2 := by
  have := abs_le.mp h.1
  constructor <;> linarith

theorem le_of_le (h : NearR q y) {b : ℤ} (hb : q ≤ b) : y ≤ b := by
  have : (y : ℝ) < b + 1 := by linarith [h.bounds.1]
  exact Int.lt_add_one_iff.mp (by exact_mod_cast this)

theorem ge_of_ge (h : NearR q y) {a : ℤ} (ha : a ≤ q) : a ≤ y := by
  have : (a : ℝ) - 1 < y := by linarith [h.bounds.2]
  exact Int.sub_one_lt_iff.mp (by exact_mod_cast this)

/-- No integer lies nearer, and one as near means that y is even. -/
theorem best (h : NearR q y) (z : ℤ) : |q - y| ≤ |q - z| ∧ (|q - y| = |q - z| → z ≠ y → y % 2 = 0) := by
  by_cases hz : z = y
  · subst hz; simp
  · have hfar : (1 : ℝ) ≤ |(y : ℝ) - z| := by exact_mod_cast Int.one_le_abs (sub_ne_zero.mpr (Ne.symm hz))
    have htri : |(y : ℝ) - z| ≤ |q - y| + |q - z| := by
      rw [abs_sub_comm q y]; exact abs_sub_le (y : ℝ) q z
    refine ⟨by linarith [h.1], fun heq _ => h.2 (le_antisymm h.1 (by linarith))⟩

theorem unique (h : NearR q y) {z : ℤ} (hz : NearR q z) : z = y := by
  by_contra hne
  have heq : |q - y| = |q - z| := le_antisymm (h.best z).1 (hz.best y).1
  have hy := (h.best z).2 heq hne
  have hz' := (hz.best y).2 heq.symm (Ne.symm hne)
  have h1 := h.bounds
  have h2 := hz.bounds
  have : (z : ℝ) ≤ y + 1 ∧ (y : ℝ) ≤ z + 1 := by constructor <;> linarith
  have : z ≤ y + 1 ∧ y ≤ z + 1 := by exact_mod_cast this
  omega

/-- y lies above an integer M exactly where q lies above the middle of M and M + 1, or on it with M odd. -/
theorem gt_iff (h : NearR q y) (M : ℤ) : M < y ↔ (M + 1 / 2 : ℝ) < q ∨ (q = M + 1 / 2 ∧ M % 2 = 1) := by
  obtain ⟨hlo, hhi⟩ := h.bounds
  constructor
  · intro hM
    have hM' : (M : ℝ) + 1 ≤ y := by exact_mod_cast hM
    rcases lt_or_eq_of_le (show (M + 1 / 2 : ℝ) ≤ q by linarith) with hlt | heq
    · exact .inl hlt
    · have hy : y = M + 1 := by
        have : (y : ℝ) ≤ M + 1 := by linarith
        have : y ≤ M + 1 := by exact_mod_cast this
        omega
      have := h.2 (by rw [hy, ← heq]; push_cast; rw [show (M : ℝ) + 1 / 2 - (M + 1) = -(1 / 2) by ring, abs_neg]; norm_num)
      exact .inr ⟨heq.symm, by omega⟩
  · rintro (hlt | ⟨heq, hodd⟩)
    · have : (M : ℝ) < y := by linarith
      exact_mod_cast this
    · by_contra hM
      have hyM : y = M := by
        have : (M : ℝ) ≤ y := by linarith
        have : M ≤ y := by exact_mod_cast this
        omega
      have := h.2 (by rw [hyM, heq]; norm_num)
      omega

theorem neg (h : NearR q y) : NearR (-q) (-y) := by
  have habs : |-q - ((-y : ℤ) : ℝ)| = |q - y| := by push_cast; rw [← abs_neg]; ring_nf
  exact ⟨habs ▸ h.1, fun he => by have := h.2 (habs ▸ he); omega⟩

end NearR

/-- An integer is the nearest to itself. -/
theorem nearR_self (y : ℤ) : NearR y y := by simp [NearR]

/-- The nearest integer to d and a fraction f. -/
theorem nearR_add_fract (d : ℕ) {f : ℝ} (h0 : 0 ≤ f) (h1 : f < 1) :
    (1 / 2 < f → NearR (d + f) (d + 1 : ℕ)) ∧ (f = 1 / 2 → NearR (d + f) (d + d % 2 : ℕ)) ∧ (f < 1 / 2 → NearR (d + f) d) := by
  refine ⟨fun h => ?_, fun h => ?_, fun h => ?_⟩
  · have habs : |(d : ℝ) + f - ((d + 1 : ℕ) : ℤ)| = 1 - f := by push_cast; rw [abs_of_nonpos (by linarith)]; ring
    exact ⟨by linarith, fun he => by linarith⟩
  · subst h
    rcases Nat.mod_two_eq_zero_or_one d with hd | hd
    · rw [hd]; exact ⟨by norm_num, fun _ => by omega⟩
    · rw [hd]; exact ⟨by push_cast; rw [abs_le]; constructor <;> linarith, fun _ => by omega⟩
  · have habs : |(d : ℝ) + f - (d : ℤ)| = f := by push_cast; rw [add_sub_cancel_left, abs_of_nonneg h0]
    exact ⟨by linarith, fun he => by linarith⟩

theorem nearR_rne (x k : ℕ) : NearR ((x : ℝ) / 2 ^ k) (Num.rne x k) := by
  have hP : (0 : ℝ) < 2 ^ k := by positivity
  have hx : (x : ℝ) = ((x / 2 ^ k : ℕ) : ℝ) * 2 ^ k + ((x % 2 ^ k : ℕ) : ℝ) := by exact_mod_cast (Nat.div_add_mod' x (2 ^ k)).symm
  have hr : ((x % 2 ^ k : ℕ) : ℝ) < 2 ^ k := by exact_mod_cast Nat.mod_lt x (Nat.two_pow_pos k)
  unfold Num.rne
  dsimp only
  generalize x / 2 ^ k = d at hx ⊢
  generalize x % 2 ^ k = r at hx hr ⊢
  have hq : (x : ℝ) / 2 ^ k = d + r / 2 ^ k := by rw [hx]; field_simp
  obtain ⟨hgt, heq, hlt⟩ := nearR_add_fract d (f := r / 2 ^ k) (by positivity) ((div_lt_one hP).mpr hr)
  rw [hq]
  split
  · next h => exact hgt (by rw [lt_div_iff₀ hP]; have : (2 ^ k : ℝ) < 2 * r := by exact_mod_cast h
                            linarith)
  · split
    · next h => exact heq (by rw [div_eq_iff hP.ne']; have : (2 * r : ℝ) = 2 ^ k := by exact_mod_cast h
                              linarith)
    · next h1 h2 => exact hlt (by rw [div_lt_iff₀ hP]; have : (2 * r : ℝ) < 2 ^ k := by exact_mod_cast (by omega : 2 * r < 2 ^ k)
                                  linarith)

/-- The nearest integer to m × 2^e. -/
theorem nearR_rneAt (m : ℕ) (e : ℤ) : NearR ((m : ℝ) * 2 ^ e) (Num.rneAt m e) := by
  unfold Num.rneAt
  split
  · next h =>
    have : (m : ℝ) * 2 ^ e = ((m * 2 ^ e.toNat : ℕ) : ℤ) := by
      push_cast; rw [← zpow_natCast, Int.toNat_of_nonneg h]
    rw [this]; exact nearR_self _
  · next h =>
    have : (m : ℝ) * 2 ^ e = (m : ℝ) / 2 ^ (-e).toNat := by
      rw [← zpow_natCast, Int.toNat_of_nonneg (by omega), zpow_neg, div_inv_eq_mul]
    rw [this]; exact nearR_rne _ _

theorem nearest_rneAt (m : ℕ) (e : ℤ) : Nearest ((m : ℚ) * 2 ^ e) (Num.rneAt m e) := by
  rw [← nearR_cast]; push_cast; exact nearR_rneAt m e

end Sys2Proof.Safety
end

section
/-! PROOFS. The numbers of a float format, and that `Fmt.write` rounds once (R24, R26 to R28). -/

namespace Sys2Proof.Safety

open Sys2Proof.Machine

/-! ## Formats -/

/-- The fields of a format fit: a mantissa bit and a normal binade at least, the largest code within its fields. -/
structure FmtWf (F : Num.Fmt) : Prop where
  mw : 0 < F.mw
  maxE : 0 < F.maxE
  maxE_lt : F.maxE < 2 ^ F.ew
  maxM_lt : F.maxM < 2 ^ F.mw

theorem f32_wf : FmtWf Num.f32 := by constructor <;> decide
theorem bf16_wf : FmtWf Num.bf16 := by constructor <;> decide
theorem e5m2_wf : FmtWf Num.e5m2 := by constructor <;> decide
theorem e4m3_wf : FmtWf Num.e4m3 := by constructor <;> decide
theorem e2m1_wf : FmtWf Num.e2m1 := by constructor <;> decide

/-- The exponent of the last bit of a subnormal number. -/
def quantum (F : Num.Fmt) : ℤ := 1 - F.bias - F.mw
/-- A sign as a factor. -/
def sgn (neg : Bool) : ℝ := if neg then -1 else 1

theorem abs_sgn_mul (neg : Bool) (v : ℝ) : |sgn neg * v| = |v| := by cases neg <;> simp [sgn]
theorem sgn_mul_sgn (neg : Bool) : sgn neg * sgn neg = 1 := by cases neg <;> simp [sgn]

theorem flNum_cast (x : Num.Fl) : (flNum x : ℝ) = sgn x.neg * (x.m * 2 ^ x.e) := by
  unfold flNum sgn
  cases x.neg <;> simp

/-- A pattern from its fields. -/
def pattern (F : Num.Fmt) (neg : Bool) (ex ma : ℕ) : ℕ := (if neg then 2 ^ (F.mw + F.ew) else 0) + ex * 2 ^ F.mw + ma

section
variable {F : Num.Fmt} {neg : Bool} {ex ma : ℕ}

theorem pattern_fields (hex : ex < 2 ^ F.ew) (hma : ma < 2 ^ F.mw) :
    pattern F neg ex ma % 2 ^ F.mw = ma ∧ pattern F neg ex ma / 2 ^ F.mw % 2 ^ F.ew = ex ∧
      pattern F neg ex ma / 2 ^ (F.mw + F.ew) % 2 = bnat neg ∧ pattern F neg ex ma < 2 ^ (1 + F.ew + F.mw) := by
  have hM := Nat.two_pow_pos F.mw
  have hE := Nat.two_pow_pos F.ew
  have hp : pattern F neg ex ma = 2 ^ F.mw * (2 ^ F.ew * bnat neg + ex) + ma := by
    cases neg <;> simp [pattern, bnat, pow_add] <;> ring
  have hdiv : pattern F neg ex ma / 2 ^ F.mw = 2 ^ F.ew * bnat neg + ex := by
    rw [hp, Nat.mul_add_div hM, Nat.div_eq_of_lt hma, Nat.add_zero]
  have hs : bnat neg ≤ 1 := by cases neg <;> decide
  refine ⟨?_, ?_, ?_, ?_⟩
  · rw [hp, Nat.mul_add_mod, Nat.mod_eq_of_lt hma]
  · rw [hdiv, Nat.mul_add_mod, Nat.mod_eq_of_lt hex]
  · rw [pow_add, ← Nat.div_div_eq_div_mul, hdiv, Nat.mul_add_div hE, Nat.div_eq_of_lt hex, Nat.add_zero, Nat.mod_eq_of_lt (by omega)]
  · have h1 : 2 ^ F.ew * bnat neg + ex < 2 ^ (1 + F.ew) := by
      rw [Nat.add_comm 1, pow_succ]; nlinarith
    calc pattern F neg ex ma < 2 ^ F.mw * (2 ^ F.ew * bnat neg + ex + 1) := by rw [hp]; nlinarith
      _ ≤ 2 ^ F.mw * 2 ^ (1 + F.ew) := Nat.mul_le_mul_left _ h1
      _ = 2 ^ (1 + F.ew + F.mw) := by rw [← pow_add, Nat.add_comm]

theorem decide_bnat_eq_one (b : Bool) : decide (bnat b = 1) = b := by cases b <;> rfl

/-- A pattern within the largest code reads as its fields say (R26). -/
theorem read_pattern (hex : ex < 2 ^ F.ew) (hma : ma < 2 ^ F.mw) (hmax : ¬ (ex > F.maxE ∨ (ex = F.maxE ∧ ma > F.maxM))) :
    F.read (pattern F neg ex ma) = some (if ex = 0 then ⟨neg, ma, quantum F⟩ else ⟨neg, 2 ^ F.mw + ma, ex - F.bias - F.mw⟩) := by
  obtain ⟨h1, h2, h3, -⟩ := pattern_fields (F := F) (neg := neg) hex hma
  unfold Num.Fmt.read
  simp only [h1, h2, h3, if_neg hmax, decide_bnat_eq_one, quantum]
  split <;> rfl

theorem isNum_pattern (hex : ex < 2 ^ F.ew) (hma : ma < 2 ^ F.mw) (hmax : ¬ (ex > F.maxE ∨ (ex = F.maxE ∧ ma > F.maxM))) :
    isNum F (pattern F neg ex ma) :=
  ⟨(pattern_fields hex hma).2.2.2, by rw [read_pattern hex hma hmax]; rfl⟩

/-- The last mantissa bit is the last bit of the pattern. -/
theorem pattern_mod_two (hF : FmtWf F) : pattern F neg ex ma % 2 = ma % 2 := by
  obtain ⟨w, hw⟩ := Nat.exists_eq_succ_of_ne_zero hF.mw.ne'
  cases neg <;> simp only [pattern, hw, pow_add, pow_succ] <;> simp [Nat.add_mod, Nat.mul_mod]

end

/-- A pattern reads as at most mw + 1 bits from the quantum on. -/
theorem read_bounds {F : Num.Fmt} {b : ℕ} {x : Num.Fl} (hx : F.read b = some x) : quantum F ≤ x.e ∧ x.m < 2 ^ (F.mw + 1) := by
  have hm : b % 2 ^ F.mw < 2 ^ F.mw := Nat.mod_lt _ (Nat.two_pow_pos _)
  unfold Num.Fmt.read at hx
  dsimp only at hx
  split at hx
  · cases hx
  · split at hx <;> cases hx <;> simp only [quantum, pow_succ] <;> omega

/-- A number of a format, down to a power of two at or above the quantum, is a multiple of it, or lies below 2^mw of it. -/
theorem fmtNum_multiple_or_small {F : Num.Fmt} {b : ℕ} (hb : isNum F b) {Q : ℤ} (hQ : quantum F ≤ Q) :
    (∃ z : ℤ, (fmtNum F b : ℝ) = z * 2 ^ Q) ∨ (quantum F < Q ∧ |(fmtNum F b : ℝ)| < 2 ^ (Q + F.mw)) := by
  obtain ⟨x, hx⟩ := Option.isSome_iff_exists.mp hb.2
  have hval : (fmtNum F b : ℝ) = sgn x.neg * (x.m * 2 ^ x.e) := by rw [fmtNum, hx]; exact flNum_cast x
  have hfields := read_bounds hx
  rw [hval]
  by_cases hle : Q ≤ x.e
  · refine .inl ⟨(if x.neg then -1 else 1) * (x.m * 2 ^ (x.e - Q).toNat), ?_⟩
    have : (2 : ℝ) ^ x.e = 2 ^ (x.e - Q).toNat * 2 ^ Q := by
      rw [← zpow_natCast, Int.toNat_of_nonneg (by omega), ← zpow_add₀ two_ne_zero, sub_add_cancel]
    rw [this]
    cases x.neg <;> simp [sgn] <;> ring
  · refine .inr ⟨by omega, ?_⟩
    rw [abs_sgn_mul, abs_of_nonneg (by positivity)]
    calc (x.m : ℝ) * 2 ^ x.e < 2 ^ (F.mw + 1) * 2 ^ x.e := by
          have : (x.m : ℝ) < 2 ^ (F.mw + 1) := by exact_mod_cast hfields.2
          gcongr
      _ = 2 ^ ((F.mw + 1 : ℤ) + x.e) := by rw [zpow_add₀ two_ne_zero]; norm_cast
      _ ≤ 2 ^ (Q + F.mw) := zpow_le_zpow_right₀ one_le_two (by omega)

/-- The multiple of 2^Q nearest to a positive number whose binade has the last bit 2^Q is nearest among all numbers of the format. -/
theorem multiple_best {F : Num.Fmt} {v : ℝ} {Q : ℤ} (hbin : Q = quantum F ∨ 2 ^ (Q + F.mw) ≤ v)
    {y : ℤ} (hy : NearR (v / 2 ^ Q) y) {w : ℝ}
    (hw : (∃ z : ℤ, w = z * 2 ^ Q) ∨ (quantum F < Q ∧ |w| < 2 ^ (Q + F.mw))) :
    |v - y * 2 ^ Q| ≤ |v - w| ∧ (|v - y * 2 ^ Q| = |v - w| → w ≠ y * 2 ^ Q → y % 2 = 0) := by
  have hP : (0 : ℝ) < 2 ^ Q := by positivity
  have hscale : ∀ z : ℤ, |v - z * 2 ^ Q| = |v / 2 ^ Q - z| * 2 ^ Q := fun z => by
    rw [← abs_of_pos hP, ← abs_mul, sub_mul, abs_of_pos hP, div_mul_cancel₀ _ hP.ne']
  rcases hw with ⟨z, rfl⟩ | ⟨hlt, hw⟩
  · rw [hscale, hscale]
    refine ⟨mul_le_mul_of_nonneg_right (hy.best z).1 hP.le, fun he hne => (hy.best z).2 (mul_right_cancel₀ hP.ne' he) ?_⟩
    rintro rfl; exact hne rfl
  · have hbin : (2 : ℝ) ^ (Q + F.mw) ≤ v := hbin.resolve_left (by omega)
    have hedge : |v - y * 2 ^ Q| ≤ v - 2 ^ (Q + F.mw) := by
      have h1 := (hy.best (2 ^ F.mw)).1
      have h2 := mul_le_mul_of_nonneg_right h1 hP.le
      rw [← hscale, ← hscale] at h2
      have : (((2 : ℤ) ^ F.mw : ℤ) : ℝ) * 2 ^ Q = 2 ^ (Q + F.mw) := by
        rw [add_comm, zpow_add₀ two_ne_zero]; push_cast; rw [zpow_natCast]
      rw [this, abs_of_nonneg (sub_nonneg.mpr hbin)] at h2
      exact h2
    have hfar : v - 2 ^ (Q + F.mw) < |v - w| := by
      have := (abs_lt.mp hw).2
      exact lt_of_lt_of_le (by linarith) (le_abs_self _)
    exact ⟨by linarith, fun he => by linarith⟩

/-! ## The tail of a write: a magnitude of at most mw + 1 bits at a last bit 2^Q becomes a pattern -/

/-- What `Fmt.write` does with the rounded magnitude. -/
def packed (F : Num.Fmt) (neg : Bool) (mag : ℕ) (Q : ℤ) : ℕ × Bool :=
  let s := if neg then 2 ^ (F.mw + F.ew) else 0
  let (mag, q) := if mag = 2 ^ (F.mw + 1) then (2 ^ F.mw, Q + 1) else (mag, Q)
  if mag < 2 ^ F.mw then (s + mag, false)
  else
    let ex := q + F.mw + F.bias
    let ma := mag - 2 ^ F.mw
    if ex > F.maxE ∨ (ex = F.maxE ∧ ma > F.maxM) then (s + F.maxE * 2 ^ F.mw + F.maxM, true)
    else (s + ex.toNat * 2 ^ F.mw + ma, false)

/-- The exponent of the last bit that a value rounds at. -/
def lastBit (F : Num.Fmt) (x : Num.Fl) : ℤ := max ((Nat.log2 x.m : ℤ) + x.e) (1 - F.bias) - F.mw

theorem write_of_zero (F : Num.Fmt) {x : Num.Fl} (h : x.m = 0) : F.write x = (if x.neg then 2 ^ (F.mw + F.ew) else 0, false) := if_pos h
theorem write_of_ne_zero (F : Num.Fmt) {x : Num.Fl} (h : x.m ≠ 0) :
    F.write x = packed F x.neg (Num.rneAt x.m (x.e - lastBit F x)) (lastBit F x) := if_neg h

/-- The exponent of the last mantissa bit in the highest binade. -/
def topExp (F : Num.Fmt) : ℤ := (F.maxE : ℤ) - F.bias - F.mw

theorem topNum_eq (F : Num.Fmt) : topNum F = ((2 ^ F.mw + F.maxM : ℕ) : ℚ) * 2 ^ topExp F := by
  simp [topNum, topUlp, topExp]
theorem topNum_cast (F : Num.Fmt) : (topNum F : ℝ) = ((2 ^ F.mw + F.maxM : ℕ) : ℝ) * 2 ^ topExp F := by
  rw [topNum_eq]; push_cast; rfl

/-- Magnitudes of at most mw + 1 bits compare with the largest finite number by last bit, then by magnitude. -/
theorem topNum_lt_iff {F : Num.Fmt} (hF : FmtWf F) {mag : ℕ} {Q : ℤ} (hmag : mag < 2 ^ (F.mw + 1)) (hnorm : 2 ^ F.mw ≤ mag) :
    topNum F < mag * (2 : ℚ) ^ Q ↔ topExp F < Q ∨ (Q = topExp F ∧ F.maxM < mag - 2 ^ F.mw) := by
  have hM := hF.maxM_lt
  have hone : ∀ e : ℤ, (0 : ℚ) < 2 ^ e := fun e => by positivity
  have htwice : ∀ e : ℤ, (2 ^ (F.mw + 1) : ℕ) * (2 : ℚ) ^ e = (2 ^ F.mw : ℕ) * 2 ^ (e + 1) := fun e => by
    rw [zpow_add₀ two_ne_zero, pow_succ]; push_cast; ring
  rw [topNum_eq]
  rcases lt_trichotomy Q (topExp F) with h | h | h
  · refine iff_of_false (not_lt.mpr ?_) (by omega)
    calc (mag : ℚ) * 2 ^ Q ≤ (2 ^ (F.mw + 1) : ℕ) * 2 ^ Q := by gcongr
      _ = (2 ^ F.mw : ℕ) * 2 ^ (Q + 1) := htwice Q
      _ ≤ (2 ^ F.mw + F.maxM : ℕ) * 2 ^ topExp F := by
          gcongr
          · omega
          · norm_num
          · omega
  · subst h
    rw [mul_lt_mul_iff_left₀ (hone _), Nat.cast_lt]
    omega
  · refine iff_of_true ?_ (.inl h)
    calc ((2 ^ F.mw + F.maxM : ℕ) : ℚ) * 2 ^ topExp F < (2 ^ (F.mw + 1) : ℕ) * 2 ^ topExp F :=
          mul_lt_mul_of_pos_right (by rw [Nat.cast_lt, pow_succ]; omega) (hone _)
      _ = (2 ^ F.mw : ℕ) * 2 ^ (topExp F + 1) := htwice _
      _ ≤ mag * 2 ^ Q := by
          gcongr
          · norm_num
          · omega

theorem quantum_le_topExp {F : Num.Fmt} (hF : FmtWf F) : quantum F ≤ topExp F := by
  have := hF.maxE
  unfold quantum topExp
  omega

/-- What packing a magnitude comes to: beyond the largest code SAT, else a pattern that reads back exactly, its last bit that of the
magnitude. -/
def Packs (F : Num.Fmt) (neg : Bool) (mag : ℕ) (Q : ℤ) (o : ℕ × Bool) : Prop :=
  (o = (pattern F neg F.maxE F.maxM, true) ∧ topNum F < mag * (2 : ℚ) ^ Q) ∨
  ∃ r, o = (r, false) ∧ isNum F r ∧ (fmtNum F r : ℝ) = sgn neg * (mag * 2 ^ Q) ∧ r % 2 = mag % 2 ∧ mag * (2 : ℚ) ^ Q ≤ topNum F

theorem packs_subnormal {F : Num.Fmt} (hF : FmtWf F) (neg : Bool) {mag : ℕ} (hmag : mag < 2 ^ F.mw) :
    Packs F neg mag (quantum F) (packed F neg mag (quantum F)) := by
  have hne : mag ≠ 2 ^ (F.mw + 1) := by rw [pow_succ]; omega
  have hpos := hF.maxE
  have hfit : ¬ ((0 : ℕ) > F.maxE ∨ (0 = F.maxE ∧ mag > F.maxM)) := by omega
  have hp : packed F neg mag (quantum F) = (pattern F neg 0 mag, false) := by
    simp only [packed, if_neg hne, if_pos hmag, pattern, Nat.zero_mul, Nat.add_zero]
  refine .inr ⟨_, hp, isNum_pattern (Nat.two_pow_pos _) hmag hfit, ?_, pattern_mod_two hF, ?_⟩
  · rw [fmtNum, read_pattern (Nat.two_pow_pos _) hmag hfit]
    exact flNum_cast _
  · rw [topNum_eq]
    gcongr
    · omega
    · norm_num
    · exact quantum_le_topExp hF

theorem packs_normal {F : Num.Fmt} (hF : FmtWf F) (neg : Bool) {mag : ℕ} {Q : ℤ} (hmag : mag < 2 ^ (F.mw + 1)) (hnorm : 2 ^ F.mw ≤ mag)
    (hQ : quantum F ≤ Q) : Packs F neg mag Q (packed F neg mag Q) := by
  obtain ⟨ex, hex⟩ := Int.eq_ofNat_of_zero_le (show 0 ≤ Q + F.mw + F.bias by unfold quantum at hQ; omega)
  have hex0 : ex ≠ 0 := by unfold quantum at hQ; omega
  have hQex : (ex : ℤ) - F.bias - F.mw = Q := by omega
  have hma : mag - 2 ^ F.mw < 2 ^ F.mw := by rw [pow_succ] at hmag; omega
  have htop : topNum F < mag * (2 : ℚ) ^ Q ↔ (ex : ℤ) > F.maxE ∨ ((ex : ℤ) = F.maxE ∧ mag - 2 ^ F.mw > F.maxM) := by
    rw [topNum_lt_iff hF hmag hnorm, topExp]; omega
  have hp : packed F neg mag Q = if (ex : ℤ) > F.maxE ∨ ((ex : ℤ) = F.maxE ∧ mag - 2 ^ F.mw > F.maxM)
      then (pattern F neg F.maxE F.maxM, true) else (pattern F neg ex (mag - 2 ^ F.mw), false) := by
    simp only [packed, if_neg hmag.ne, if_neg (not_lt.mpr hnorm), hex, pattern]
    rfl
  rw [hp]
  split
  · next h => exact .inl ⟨rfl, htop.mpr h⟩
  · next h =>
    have hlt := hF.maxE_lt
    have hfit : ¬ (ex > F.maxE ∨ (ex = F.maxE ∧ mag - 2 ^ F.mw > F.maxM)) := by omega
    have hexlt : ex < 2 ^ F.ew := by omega
    refine .inr ⟨_, rfl, isNum_pattern hexlt hma hfit, ?_, ?_, not_lt.mp (mt htop.mp h)⟩
    · rw [fmtNum, read_pattern hexlt hma hfit, if_neg hex0, hQex, Nat.add_sub_cancel' hnorm]
      exact flNum_cast _
    · obtain ⟨c, hc⟩ := dvd_pow_self 2 hF.mw.ne'
      rw [pattern_mod_two hF]
      omega

/-- Packing a magnitude of at most mw + 1 bits, which has all of them above the subnormal range. -/
theorem packs {F : Num.Fmt} (hF : FmtWf F) (neg : Bool) {mag : ℕ} {Q : ℤ} (hmag : mag ≤ 2 ^ (F.mw + 1)) (hQ : quantum F ≤ Q)
    (hsub : Q = quantum F ∨ 2 ^ F.mw ≤ mag) : Packs F neg mag Q (packed F neg mag Q) := by
  rcases hmag.eq_or_lt with heq | hlt
  · have hcarry : packed F neg mag Q = packed F neg (2 ^ F.mw) (Q + 1) := by
      have hne : 2 ^ F.mw ≠ 2 ^ (F.mw + 1) := by have := Nat.two_pow_pos F.mw; rw [pow_succ]; omega
      simp only [packed, if_pos heq, if_neg hne]
    have hval : (mag : ℝ) * 2 ^ Q = ((2 ^ F.mw : ℕ) : ℝ) * 2 ^ (Q + 1) := by
      rw [heq, zpow_add₀ two_ne_zero, pow_succ]; push_cast; ring
    have hvalq : (mag : ℚ) * 2 ^ Q = ((2 ^ F.mw : ℕ) : ℚ) * 2 ^ (Q + 1) := by
      rw [heq, zpow_add₀ two_ne_zero, pow_succ]; push_cast; ring
    have hpar : mag % 2 = 2 ^ F.mw % 2 := by
      have h1 := Nat.mod_eq_zero_of_dvd (dvd_pow_self 2 hF.mw.ne')
      rw [heq, pow_succ, h1]; omega
    have := packs_normal hF neg (Q := Q + 1) (mag := 2 ^ F.mw) (by rw [pow_succ]; have := Nat.two_pow_pos F.mw; omega) le_rfl (by omega)
    rw [hcarry, Packs, hval, hvalq, hpar]
    exact this
  · rcases lt_or_ge mag (2 ^ F.mw) with h | h
    · rw [hsub.resolve_right (by omega)]; exact packs_subnormal hF neg h
    · exact packs_normal hF neg hlt h hQ

/-! ## Rounding once -/

/-- A magnitude is too large exactly where its nearest multiple of the last bit lies beyond the largest number. -/
theorem tooLarge_iff {F : Num.Fmt} (hF : FmtWf F) {v : ℝ} {Q : ℤ} (hQ : quantum F ≤ Q) (hbin : Q = quantum F ∨ 2 ^ (Q + F.mw) ≤ v)
    (hv : v < 2 ^ (Q + F.mw + 1)) {y : ℕ} (hy : NearR (v / 2 ^ Q) y) : tooLarge F v ↔ topNum F < y * (2 : ℚ) ^ Q := by
  have hpos : ∀ e : ℤ, (0 : ℝ) < 2 ^ e := fun e => by positivity
  have hM := hF.maxM_lt
  have hcast : topNum F < y * (2 : ℚ) ^ Q ↔ ((2 ^ F.mw + F.maxM : ℕ) : ℝ) * 2 ^ topExp F < y * (2 : ℝ) ^ Q := by
    rw [← topNum_cast, ← Rat.cast_lt (K := ℝ)]; push_cast; rfl
  have hedge : (topNum F : ℝ) + topUlp F / 2 = (((2 ^ F.mw + F.maxM : ℕ) : ℤ) + 1 / 2 : ℝ) * 2 ^ topExp F := by
    rw [topNum_cast, topUlp, topExp]; push_cast; ring
  have hpow : ∀ e : ℤ, ((2 ^ F.mw : ℕ) : ℝ) * 2 ^ e = 2 ^ (e + F.mw) := fun e => by
    rw [add_comm, zpow_add₀ two_ne_zero]; push_cast; rfl
  rw [hcast, tooLarge, hedge]
  rcases lt_trichotomy Q (topExp F) with h | rfl | h
  · have hle : (2 : ℝ) ^ (Q + F.mw + 1) ≤ (2 ^ F.mw : ℕ) * 2 ^ topExp F := by
      rw [hpow]; exact zpow_le_zpow_right₀ one_le_two (by omega)
    have hyv : (y : ℝ) * 2 ^ Q ≤ (2 ^ F.mw : ℕ) * 2 ^ topExp F := by
      have h1 : v / 2 ^ Q ≤ ((2 ^ (F.mw + 1) : ℕ) : ℤ) := by
        rw [div_le_iff₀ (hpos Q)]
        have : (((2 ^ (F.mw + 1) : ℕ) : ℤ) : ℝ) * 2 ^ Q = 2 ^ (Q + F.mw + 1) := by
          rw [show Q + F.mw + 1 = ((F.mw + 1 : ℕ) : ℤ) + Q by push_cast; ring, zpow_add₀ two_ne_zero]; push_cast; rfl
        rw [this]; exact hv.le
      have h2 : (y : ℝ) ≤ (2 ^ (F.mw + 1) : ℕ) := by exact_mod_cast hy.le_of_le h1
      calc (y : ℝ) * 2 ^ Q ≤ (2 ^ (F.mw + 1) : ℕ) * 2 ^ Q := by gcongr
        _ = (2 ^ F.mw : ℕ) * 2 ^ (Q + 1) := by rw [zpow_add₀ two_ne_zero, pow_succ]; push_cast; ring
        _ ≤ (2 ^ F.mw : ℕ) * 2 ^ topExp F := by
            gcongr
            · norm_num
            · omega
    have hM0 : (0 : ℝ) ≤ (F.maxM : ℝ) * 2 ^ topExp F := by positivity
    have hT := hpos (topExp F)
    refine iff_of_false ?_ ?_
    · push_cast at *
      rintro (h1 | ⟨h1, -⟩) <;> nlinarith
    · push_cast at *
      rw [not_lt]; nlinarith
  · have hgt := hy.gt_iff (2 ^ F.mw + F.maxM : ℕ)
    have hodd : ((2 ^ F.mw + F.maxM : ℕ) : ℤ) % 2 = 1 ↔ F.maxM % 2 = 1 := by
      obtain ⟨c, hc⟩ := dvd_pow_self 2 hF.mw.ne'
      omega
    rw [lt_div_iff₀ (hpos _), div_eq_iff (hpos _).ne', hodd] at hgt
    rw [mul_lt_mul_iff_left₀ (hpos _), Nat.cast_lt, gt_iff_lt, ← hgt, Nat.cast_lt]
  · have hq := hbin.resolve_left (by have := quantum_le_topExp hF; omega)
    have hbig : ((2 ^ F.mw + F.maxM : ℕ) : ℝ) + 1 ≤ (2 ^ F.mw : ℕ) * 2 := by
      have : 2 ^ F.mw + F.maxM + 1 ≤ 2 ^ F.mw * 2 := by omega
      exact_mod_cast this
    have hnext : (2 ^ F.mw : ℕ) * (2 : ℝ) * 2 ^ topExp F ≤ 2 ^ (Q + F.mw) := by
      rw [← hpow Q, mul_assoc]
      gcongr
      calc (2 : ℝ) * 2 ^ topExp F = 2 ^ (1 + topExp F) := by rw [zpow_add₀ two_ne_zero, zpow_one]
        _ ≤ 2 ^ Q := zpow_le_zpow_right₀ one_le_two (by omega)
    have hy1 : ((2 ^ F.mw : ℕ) : ℝ) ≤ y := by
      have h1 : (((2 ^ F.mw : ℕ) : ℤ) : ℝ) ≤ v / 2 ^ Q := by
        rw [le_div_iff₀ (hpos Q)]; push_cast; have := hpow Q; push_cast at this; rw [this]; exact hq
      exact_mod_cast hy.ge_of_ge h1
    have hy2 : (2 : ℝ) ^ (Q + F.mw) ≤ y * 2 ^ Q := by rw [← hpow]; gcongr
    have hT := hpos (topExp F)
    refine iff_of_true (.inl ?_) ?_
    · push_cast at *; nlinarith
    · push_cast at *; nlinarith

/-- x stands for the real number q, to `p` bits: exactly, or q lies strictly between two neighbours of at least p bits and x is their
middle (the sign of a zero is free). -/
def Stands (p : ℕ) (x : Num.Fl) (q : ℝ) : Prop :=
  (x.m ≠ 0 → (x.neg = true ↔ q < 0)) ∧
  (|q| = x.m * 2 ^ x.e ∨ ∃ m : ℕ, x.m = 2 * m + 1 ∧ 2 ^ p ≤ m ∧ (m : ℝ) * 2 ^ (x.e + 1) < |q| ∧ |q| < (m + 1) * 2 ^ (x.e + 1))

theorem stands_flNum (p : ℕ) (x : Num.Fl) : Stands p x (flNum x) := by
  have hm : (0 : ℝ) ≤ x.m * 2 ^ x.e := by positivity
  rw [Stands, flNum_cast, abs_sgn_mul, abs_of_nonneg hm]
  refine ⟨fun h => ?_, .inl rfl⟩
  have hm' : (0 : ℝ) < x.m * 2 ^ x.e := by positivity
  cases x.neg <;> simp [sgn] <;> linarith

/-- The integer nearest to the middle of m and m + 1 over 2^(j + 1) is nearest to all that lie strictly between them over it: the middle
of two integers, times 2^(j + 1), is an integer. -/
theorem nearR_of_between {m : ℕ} {u : ℝ} (hlo : (m : ℝ) < u) (hhi : u < m + 1) {j : ℕ} {y : ℤ}
    (h : NearR (((2 * m + 1 : ℕ) : ℝ) / 2 ^ (j + 2)) y) : NearR (u / 2 ^ (j + 1)) y := by
  have hP : (0 : ℝ) < 2 ^ (j + 1) := by positivity
  have hmid : ((2 * m + 1 : ℕ) : ℝ) / 2 ^ (j + 2) = (m + 1 / 2) / 2 ^ (j + 1) := by
    rw [pow_succ (2 : ℝ) (j + 1)]; push_cast; field_simp
  have hhalf : (2 : ℝ) ^ (j + 1) * (1 / 2) = 2 ^ j := by rw [pow_succ]; ring
  obtain ⟨h1, h2⟩ := h.bounds
  rw [hmid, le_div_iff₀ hP] at h1
  rw [hmid, div_le_iff₀ hP] at h2
  have h1' : ((y * 2 ^ (j + 1) - 2 ^ j : ℤ) : ℝ) < ((m + 1 : ℤ) : ℝ) := by push_cast; linarith
  have h2' : ((m : ℤ) : ℝ) < ((y * 2 ^ (j + 1) + 2 ^ j : ℤ) : ℝ) := by push_cast; linarith
  have h1 : ((y * 2 ^ (j + 1) - 2 ^ j : ℤ) : ℝ) ≤ (m : ℤ) := by exact_mod_cast Int.lt_add_one_iff.mp (by exact_mod_cast h1')
  have h2 : (((m : ℤ) + 1 : ℤ) : ℝ) ≤ ((y * 2 ^ (j + 1) + 2 ^ j : ℤ) : ℝ) := Int.cast_le.mpr (Int.add_one_le_iff.mpr (Int.cast_lt.mp h2'))
  push_cast at h1 h2
  have hlt : |u / 2 ^ (j + 1) - y| < 1 / 2 := by
    rw [abs_lt, lt_sub_iff_add_lt, sub_lt_iff_lt_add, lt_div_iff₀ hP, div_lt_iff₀ hP]
    constructor <;> linarith
  exact ⟨hlt.le, fun he => absurd he hlt.ne⟩

/-- A value that stands for a number rounds at any last bit above its own bits to the integer nearest to the number. -/
theorem Stands.nearR {p : ℕ} {x : Num.Fl} {q : ℝ} (h : Stands p x q) {Q : ℤ} (hQ : x.e + 2 ≤ Q ∨ |q| = x.m * 2 ^ x.e) :
    NearR (|q| / 2 ^ Q) (Num.rneAt x.m (x.e - Q)) := by
  have hnear := nearR_rneAt x.m (x.e - Q)
  rcases h.2 with hex | ⟨m, hm, -, hlo, hhi⟩
  · rwa [hex, mul_div_assoc, ← zpow_sub₀ two_ne_zero]
  · rcases hQ with hQ | hex
    · obtain ⟨j, hj⟩ := Int.eq_ofNat_of_zero_le (sub_nonneg.mpr hQ)
      have he : x.e - Q = -((j + 2 : ℕ) : ℤ) := by push_cast; omega
      have hpos : (0 : ℝ) < 2 ^ (x.e + 1) := by positivity
      rw [he, zpow_neg, zpow_natCast, ← div_eq_mul_inv, hm, ← hm, ← he, hm] at hnear
      have := nearR_of_between ((lt_div_iff₀ hpos).mpr hlo) ((div_lt_iff₀ hpos).mpr hhi) hnear
      rw [div_div, ← zpow_natCast, ← zpow_add₀ two_ne_zero] at this
      rw [hm]
      convert this using 3
      push_cast; omega
    · rwa [hex, mul_div_assoc, ← zpow_sub₀ two_ne_zero]

/-- The binade of a number is that of a value that stands for it. -/
theorem Stands.binade {p : ℕ} {x : Num.Fl} {q : ℝ} (h : Stands p x q) (hx : x.m ≠ 0) :
    2 ^ ((Nat.log2 x.m : ℤ) + x.e) ≤ |q| ∧ |q| < 2 ^ ((Nat.log2 x.m : ℤ) + x.e + 1) := by
  have hpow : ∀ (l : ℕ) (e : ℤ), (2 : ℝ) ^ ((l : ℤ) + e) = (2 ^ l : ℕ) * 2 ^ e := fun l e => by
    rw [zpow_add₀ two_ne_zero]; push_cast; rw [zpow_natCast]
  have hnext : (Nat.log2 x.m : ℤ) + x.e + 1 = ((Nat.log2 x.m + 1 : ℕ) : ℤ) + x.e := by push_cast; ring
  have hle := Nat.log2_self_le hx
  have hlt := @Nat.lt_log2_self x.m
  rw [hnext, hpow, hpow]
  have hpos : ∀ e : ℤ, (0 : ℝ) < 2 ^ e := fun e => by positivity
  rcases h.2 with hex | ⟨m, hm, hp, hlo, hhi⟩
  · rw [hex]
    exact ⟨mul_le_mul_of_nonneg_right (by exact_mod_cast hle) (hpos _).le, mul_lt_mul_of_pos_right (by exact_mod_cast hlt) (hpos _)⟩
  · obtain ⟨l, hl⟩ : ∃ l, Nat.log2 x.m = l + 1 := by
      refine Nat.exists_eq_succ_of_ne_zero fun h0 => ?_
      have := Nat.two_pow_pos p
      rw [h0] at hlt; omega
    rw [hl, pow_succ] at hle
    rw [hl] at hlt ⊢
    rw [pow_succ] at hlt
    have hle' : 2 ^ l ≤ m := by omega
    have hlt' : m + 1 ≤ 2 ^ (l + 1) := by omega
    have hcarry : ∀ k : ℕ, ((2 ^ (k + 1) : ℕ) : ℝ) * 2 ^ x.e = (2 ^ k : ℕ) * 2 ^ (x.e + 1) := fun k => by
      rw [zpow_add₀ two_ne_zero, pow_succ]; push_cast; ring
    rw [hcarry, hcarry]
    constructor
    · refine le_trans (mul_le_mul_of_nonneg_right ?_ (hpos _).le) hlo.le
      exact_mod_cast hle'
    · refine lt_of_lt_of_le hhi (mul_le_mul_of_nonneg_right ?_ (hpos _).le)
      exact_mod_cast hlt'

theorem topNum_pos {F : Num.Fmt} : 0 < topNum F := by
  rw [topNum_eq]; have := Nat.two_pow_pos F.mw; positivity

theorem not_tooLarge_zero {F : Num.Fmt} : ¬ tooLarge F 0 := by
  have h1 : (0 : ℝ) < topNum F := by exact_mod_cast topNum_pos
  have h2 : (0 : ℝ) < topUlp F := by unfold topUlp; positivity
  rintro (h | ⟨h, -⟩) <;> linarith

theorem isNum_signed_zero {F : Num.Fmt} (hF : FmtWf F) (neg : Bool) : isNum F (pattern F neg 0 0) ∧ fmtNum F (pattern F neg 0 0) = 0 := by
  have hpos := hF.maxE
  have hfit : ¬ ((0 : ℕ) > F.maxE ∨ (0 = F.maxE ∧ 0 > F.maxM)) := by omega
  refine ⟨isNum_pattern (Nat.two_pow_pos _) (Nat.two_pow_pos _) hfit, ?_⟩
  rw [fmtNum, read_pattern (Nat.two_pow_pos _) (Nat.two_pow_pos _) hfit]
  simp [flNum]

/-- A zero of either sign is zero rounded. -/
theorem rounds_zero {F : Num.Fmt} (hF : FmtWf F) (neg : Bool) : Rounds F 0 (pattern F neg 0 0) false := by
  obtain ⟨hnum, hval⟩ := isNum_signed_zero hF neg
  refine ⟨hnum, fun h => by simp at h, fun _ => ⟨by rw [abs_zero]; exact not_tooLarge_zero, fun r' _ => ?_⟩⟩
  rw [hval]
  refine ⟨by simp, fun he hne => absurd ?_ hne⟩
  simpa using he.symm

/-- A magnitude that packs as the nearest multiple of the last bit of its number is the number rounded once. -/
theorem rounds_of_packs {F : Num.Fmt} {neg : Bool} {q : ℝ} (hneg : neg = true ↔ q < 0) {Q : ℤ} {y : ℕ} (hlarge : tooLarge F |q| ↔ topNum F < y * (2 : ℚ) ^ Q)
    (hQ : quantum F ≤ Q) (hbin : Q = quantum F ∨ 2 ^ (Q + F.mw) ≤ |q|) (hy : NearR (|q| / 2 ^ Q) y) {o : ℕ × Bool} (ho : Packs F neg y Q o)
    (hF : FmtWf F) : Rounds F q o.1 o.2 := by
  have hq : q = sgn neg * |q| := by
    by_cases h : q < 0
    · rw [hneg.mpr h, sgn, if_pos rfl, abs_of_neg h]; ring
    · rw [Bool.eq_false_iff.mpr (mt hneg.mp h), sgn, if_neg (by simp), abs_of_nonneg (not_lt.mp h)]; ring
  rcases ho with ⟨rfl, hgt⟩ | ⟨r, rfl, hnum, hval, hpar, hle⟩
  · refine ⟨isNum_pattern hF.maxE_lt hF.maxM_lt (by omega), fun _ => ⟨hlarge.mpr hgt, ?_⟩, fun h => by simp at h⟩
    simp only [pattern, hneg, Nat.add_comm F.ew]
  · refine ⟨hnum, fun h => by simp at h, fun _ => ⟨fun h => absurd (hlarge.mp h) (not_lt.mpr hle), fun r' hr' => ?_⟩⟩
    have hdist : ∀ w : ℝ, |q - sgn neg * w| = |(|q|) - w| := fun w => by
      have : q - sgn neg * w = sgn neg * (|q| - w) := by rw [mul_sub, ← hq]
      rw [this, abs_sgn_mul]
    have hback : (fmtNum F r' : ℝ) = sgn neg * (sgn neg * fmtNum F r') := by rw [← mul_assoc, sgn_mul_sgn, one_mul]
    have hgrid : (∃ z : ℤ, sgn neg * (fmtNum F r' : ℝ) = z * 2 ^ Q) ∨ (quantum F < Q ∧ |sgn neg * (fmtNum F r' : ℝ)| < 2 ^ (Q + F.mw)) := by
      rcases fmtNum_multiple_or_small hr' hQ with ⟨z, hz⟩ | h
      · exact .inl ⟨(if neg then -1 else 1) * z, by rw [hz]; cases neg <;> simp [sgn]⟩
      · rw [abs_sgn_mul]; exact .inr h
    obtain ⟨hbest, htie⟩ := multiple_best hbin hy hgrid
    push_cast at hbest htie
    show |q - (fmtNum F r : ℝ)| ≤ |q - (fmtNum F r' : ℝ)| ∧ (|q - (fmtNum F r : ℝ)| = |q - (fmtNum F r' : ℝ)| → fmtNum F r' ≠ fmtNum F r → r % 2 = 0)
    rw [hback, hval, hdist, hdist]
    refine ⟨hbest, fun he hne => ?_⟩
    have := htie he fun hw => hne ?_
    · rw [hpar]; exact_mod_cast this
    · have : (fmtNum F r' : ℝ) = fmtNum F r := by rw [hback, hw, hval]
      exact_mod_cast this

/-- A value that stands for a number to the format's bits and one more is written as the number rounded once (R24, R28). -/
theorem write_rounds {F : Num.Fmt} (hF : FmtWf F) {x : Num.Fl} {q : ℝ} (h : Stands (F.mw + 1) x q) :
    Rounds F q (F.write x).1 (F.write x).2 := by
  by_cases hx : x.m = 0
  · have hq : q = 0 := by
      rcases h.2 with hex | ⟨m, hm, -⟩
      · simpa [hx] using hex
      · omega
    rw [write_of_zero F hx, hq]
    have := rounds_zero hF x.neg
    simpa [pattern] using this
  · obtain ⟨hlo, hhi⟩ := h.binade hx
    set l : ℤ := (Nat.log2 x.m : ℤ) + x.e with hl
    have hlast : lastBit F x = max l (1 - F.bias) - F.mw := rfl
    have hQ : quantum F ≤ lastBit F x := by rw [hlast, quantum]; omega
    have hbin : lastBit F x = quantum F ∨ 2 ^ (lastBit F x + F.mw) ≤ |q| := by
      rcases le_total l (1 - F.bias) with hc | hc
      · left; rw [hlast, max_eq_right hc]; rfl
      · right; rw [hlast, max_eq_left hc, sub_add_cancel]; exact hlo
    have hv : |q| < 2 ^ (lastBit F x + F.mw + 1) :=
      lt_of_lt_of_le hhi (zpow_le_zpow_right₀ one_le_two (by rw [hlast]; omega))
    have hnear : NearR (|q| / 2 ^ lastBit F x) (Num.rneAt x.m (x.e - lastBit F x)) := by
      refine h.nearR ?_
      rcases h.2 with hex | ⟨m, hm, hp, -⟩
      · exact .inr hex
      · left
        have : F.mw + 2 ≤ Nat.log2 x.m := (Nat.le_log2 hx).mpr (by rw [pow_succ]; omega)
        rw [hlast]; omega
    have hpos : (0 : ℝ) < 2 ^ lastBit F x := by positivity
    have hmag : Num.rneAt x.m (x.e - lastBit F x) ≤ 2 ^ (F.mw + 1) := by
      have : |q| / 2 ^ lastBit F x ≤ ((2 ^ (F.mw + 1) : ℕ) : ℤ) := by
        rw [div_le_iff₀ hpos]
        refine hv.le.trans_eq ?_
        rw [show lastBit F x + F.mw + 1 = ((F.mw + 1 : ℕ) : ℤ) + lastBit F x by push_cast; ring, zpow_add₀ two_ne_zero]
        push_cast; rfl
      exact_mod_cast hnear.le_of_le this
    have hsub : lastBit F x = quantum F ∨ 2 ^ F.mw ≤ Num.rneAt x.m (x.e - lastBit F x) := by
      refine hbin.imp_right fun hge => ?_
      have : (((2 ^ F.mw : ℕ) : ℤ) : ℝ) ≤ |q| / 2 ^ lastBit F x := by
        rw [le_div_iff₀ hpos]
        refine le_trans (le_of_eq ?_) hge
        rw [add_comm, zpow_add₀ two_ne_zero]; push_cast; rfl
      exact_mod_cast hnear.ge_of_ge this
    rw [write_of_ne_zero F hx]
    exact rounds_of_packs (h.1 hx) (tooLarge_iff hF hQ hbin hv hnear) hQ hbin hnear (packs hF x.neg hmag hQ hsub) hF

/-- What a write answers stands for a number. -/
theorem write_isNum {F : Num.Fmt} (hF : FmtWf F) (x : Num.Fl) : isNum F (F.write x).1 := (write_rounds hF (stands_flNum _ x)).1

/-- No number of a format is larger than its largest. -/
theorem abs_fmtNum_le_topNum {F : Num.Fmt} (hF : FmtWf F) {b : ℕ} (hb : isNum F b) : |fmtNum F b| ≤ topNum F := by
  obtain ⟨x, hx⟩ := Option.isSome_iff_exists.mp hb.2
  have habs : |flNum x| = x.m * (2 : ℚ) ^ x.e := by
    have hm : (0 : ℚ) ≤ x.m * 2 ^ x.e := by positivity
    unfold flNum
    cases x.neg <;> simp [abs_of_nonneg hm]
  have hm : b % 2 ^ F.mw < 2 ^ F.mw := Nat.mod_lt _ (Nat.two_pow_pos _)
  have hmaxM := hF.maxM_lt
  rw [fmtNum, hx]
  show |flNum x| ≤ topNum F
  rw [habs]
  unfold Num.Fmt.read at hx
  dsimp only at hx
  split at hx
  · cases hx
  · next hfit =>
    split at hx
    · cases hx
      rw [topNum_eq]
      dsimp only
      gcongr
      · omega
      · norm_num
      · exact quantum_le_topExp hF
    · cases hx
      rw [← not_lt]
      have := topNum_lt_iff hF (mag := 2 ^ F.mw + b % 2 ^ F.mw) (Q := (b / 2 ^ F.mw % 2 ^ F.ew : ℕ) - F.bias - F.mw)
        (by rw [pow_succ]; omega) (by omega)
      dsimp only
      rw [this, topExp]
      omega

/-- A number that the format holds is rounded to itself. -/
theorem Rounds.exact {F : Num.Fmt} (hF : FmtWf F) {q : ℝ} {r : ℕ} {sat : Bool} (h : Rounds F q r sat) {b : ℕ} (hb : isNum F b)
    (hq : q = fmtNum F b) : fmtNum F r = fmtNum F b ∧ sat = false := by
  have hsmall : ¬ tooLarge F |q| := by
    have h1 : |q| ≤ topNum F := by rw [hq]; exact_mod_cast abs_fmtNum_le_topNum hF hb
    have h2 : (0 : ℝ) < topUlp F := by unfold topUlp; positivity
    rintro (h | ⟨h, -⟩) <;> linarith
  have hsat : sat = false := by
    by_contra hs
    exact hsmall (h.2.1 (by simpa using hs)).1
  have hbest := ((h.2.2 hsat).2 b hb).1
  rw [hq, sub_self, abs_zero, abs_nonpos_iff, sub_eq_zero] at hbest
  exact ⟨by exact_mod_cast hbest.symm, hsat⟩

end Sys2Proof.Safety
end

section
/-! PROOFS. The F32 operations (R144 to R147): each exact result, or the value that stands for it, and what the instruction yields. -/

namespace Sys2Proof.Safety

open Sys2Proof.Machine

/-! ## Exact operations on finite values -/

theorem flNum_ofSigned (s k : ℤ) : flNum ⟨decide (s < 0), s.natAbs, k⟩ = s * 2 ^ k := by
  have : ((if decide (s < 0) = true then -1 else 1) * (s.natAbs : ℚ)) = s := by
    rcases lt_or_ge s 0 with h | h
    · simp [h, Nat.cast_natAbs, abs_of_neg h]
    · simp [not_lt.mpr h, Nat.cast_natAbs, abs_of_nonneg h]
  rw [flNum]; dsimp only; rw [this]

theorem flNum_eq_at (x : Num.Fl) {k : ℤ} (h : k ≤ x.e) : flNum x = (x.at k : ℤ) * 2 ^ k := by
  have : (2 : ℚ) ^ x.e = 2 ^ (x.e - k).toNat * 2 ^ k := by
    rw [← zpow_natCast, Int.toNat_of_nonneg (by omega), ← zpow_add₀ two_ne_zero, sub_add_cancel]
  rw [flNum, this, Num.Fl.at]
  cases x.neg <;> simp <;> ring

theorem flNum_eq_zero_iff (x : Num.Fl) : flNum x = 0 ↔ x.m = 0 := by
  have h : (2 : ℚ) ^ x.e ≠ 0 := by positivity
  unfold flNum
  cases x.neg <;> simp [h]

theorem flNum_neg_iff (x : Num.Fl) : flNum x < 0 ↔ x.neg = true ∧ x.m ≠ 0 := by
  have h : (0 : ℚ) < 2 ^ x.e := by positivity
  unfold flNum
  cases x.neg <;> simp [h, Nat.pos_iff_ne_zero]

theorem flNum_pos_iff (x : Num.Fl) : 0 < flNum x ↔ x.neg = false ∧ x.m ≠ 0 := by
  have h : (0 : ℚ) < 2 ^ x.e := by positivity
  unfold flNum
  cases x.neg <;> simp [h, Nat.pos_iff_ne_zero]

/-- A sum is exact (R146). -/
theorem flNum_add (a b : Num.Fl) : flNum (a.add b) = flNum a + flNum b := by
  rw [flNum_eq_at a (min_le_left a.e b.e), flNum_eq_at b (min_le_right a.e b.e), ← add_mul, ← Int.cast_add]
  unfold Num.Fl.add
  dsimp only
  split
  · next h => rw [h]; simp [flNum]
  · exact flNum_ofSigned _ _

/-- An exact zero sum is −0 where both addends are (R146). -/
theorem add_of_sum_zero {a b : Num.Fl} (h : flNum a + flNum b = 0) :
    a.add b = ⟨a.neg && b.neg && a.m == 0 && b.m == 0, 0, 0⟩ := by
  rw [flNum_eq_at a (min_le_left a.e b.e), flNum_eq_at b (min_le_right a.e b.e), ← add_mul, ← Int.cast_add,
    mul_eq_zero_iff_right (by positivity), Int.cast_eq_zero] at h
  exact if_pos h

theorem flNum_mul (a b : Num.Fl) : flNum (a.mul b) = flNum a * flNum b := by
  obtain ⟨an, am, ae⟩ := a
  obtain ⟨bn, bm, be⟩ := b
  simp only [flNum, Num.Fl.mul, Nat.cast_mul, zpow_add₀ (two_ne_zero' ℚ)]
  cases an <;> cases bn <;> simp <;> ring

theorem flNum_negate (a : Num.Fl) : flNum a.negate = -flNum a := by
  obtain ⟨an, am, ae⟩ := a
  simp only [flNum, Num.Fl.negate]
  cases an <;> simp

/-! ## Values that stand for a quotient or a root -/

/-- A truncated magnitude with a sticky bit stands for the number. -/
theorem stands_sticky {p m : ℕ} {e : ℤ} {neg inexact : Bool} {q : ℝ} (hneg : neg = true ↔ q < 0) (hm : 2 ^ p ≤ m)
    (hex : inexact = false → |q| = m * 2 ^ e) (hin : inexact = true → (m : ℝ) * 2 ^ e < |q| ∧ |q| < (m + 1) * 2 ^ e) :
    Stands p (Num.sticky neg m e inexact) q := by
  refine ⟨fun _ => hneg, ?_⟩
  unfold Num.sticky
  cases inexact
  · left
    rw [hex rfl]
    have : (2 : ℝ) ^ e = 2 * 2 ^ (e - 1) := by rw [zpow_sub_one₀ two_ne_zero]; ring
    simp only [bnat]; push_cast; rw [this]; ring
  · refine .inr ⟨m, rfl, hm, ?_⟩
    simpa using hin rfl

/-- A quotient to 60 or more bits stands for the exact one. -/
theorem stands_div (a : Num.Fl) {b : Num.Fl} (hb : b.m ≠ 0) : Stands 24 (a.div b) ((flNum a / flNum b : ℚ) : ℝ) := by
  have hbpos : (0 : ℝ) < b.m := by positivity
  have hsgn : ((flNum a / flNum b : ℚ) : ℝ) = sgn (a.neg != b.neg) * ((a.m : ℝ) / b.m * 2 ^ (a.e - b.e)) := by
    push_cast
    rw [flNum_cast, flNum_cast, zpow_sub₀ two_ne_zero]
    have : (2 : ℝ) ^ b.e ≠ 0 := by positivity
    cases a.neg <;> cases b.neg <;> simp [sgn] <;> field_simp
  by_cases ha : a.m = 0
  · have : a.div b = ⟨a.neg != b.neg, 0, 0⟩ := if_pos ha
    rw [this, hsgn, ha]
    exact ⟨fun h => absurd rfl h, .inl (by simp)⟩
  have hdiv : a.div b = Num.sticky (a.neg != b.neg) (a.m * 2 ^ (64 + Nat.log2 b.m) / b.m) (a.e - b.e - (64 + Nat.log2 b.m : ℕ))
      (a.m * 2 ^ (64 + Nat.log2 b.m) % b.m != 0) := if_neg ha
  have hapos : (0 : ℝ) < a.m := by positivity
  have hq : (0 : ℝ) < (a.m : ℝ) / b.m * 2 ^ (a.e - b.e) := by positivity
  generalize hk : 64 + Nat.log2 b.m = k at hdiv
  have hsplit : (a.m : ℝ) / b.m * 2 ^ (a.e - b.e) = ((a.m * 2 ^ k / b.m : ℕ) + ((a.m * 2 ^ k % b.m : ℕ) : ℝ) / b.m) * 2 ^ (a.e - b.e - k) := by
    have h1 : ((a.m * 2 ^ k : ℕ) : ℝ) = b.m * (a.m * 2 ^ k / b.m : ℕ) + (a.m * 2 ^ k % b.m : ℕ) := by
      exact_mod_cast (Nat.div_add_mod (a.m * 2 ^ k) b.m).symm
    have h2 : ((a.m * 2 ^ k / b.m : ℕ) + ((a.m * 2 ^ k % b.m : ℕ) : ℝ) / b.m) = (a.m : ℝ) * 2 ^ k / b.m := by
      rw [eq_div_iff hbpos.ne', add_mul, div_mul_cancel₀ _ hbpos.ne']; push_cast at h1; rw [mul_comm, ← h1]
    rw [h2, zpow_sub₀ two_ne_zero (a.e - b.e), zpow_natCast]
    field_simp
  have hmod : ((a.m * 2 ^ k % b.m : ℕ) : ℝ) / b.m < 1 := by
    rw [div_lt_one hbpos]; exact_mod_cast Nat.mod_lt _ (Nat.pos_of_ne_zero hb)
  have hbig : 2 ^ 24 ≤ a.m * 2 ^ k / b.m := by
    rw [Nat.le_div_iff_mul_le (Nat.pos_of_ne_zero hb), ← hk, pow_add]
    have h1 := @Nat.lt_log2_self b.m
    rw [pow_succ] at h1
    have h2 : 1 ≤ a.m := Nat.pos_of_ne_zero ha
    nlinarith
  have hpow : (0 : ℝ) < 2 ^ (a.e - b.e - k) := by positivity
  rw [hdiv, hsgn]
  refine stands_sticky ?_ hbig (fun hex => ?_) (fun hin => ?_)
  · generalize (a.neg != b.neg) = g
    cases g <;> simp [sgn] <;> positivity
  · have h0 : a.m * 2 ^ k % b.m = 0 := by simpa using hex
    rw [abs_sgn_mul, abs_of_pos hq, hsplit, h0]; simp
  · have h0 : (0 : ℝ) < ((a.m * 2 ^ k % b.m : ℕ) : ℝ) / b.m := by
      have : a.m * 2 ^ k % b.m ≠ 0 := by simpa using hin
      positivity
    rw [abs_sgn_mul, abs_of_pos hq, hsplit]
    constructor
    · exact mul_lt_mul_of_pos_right (by linarith) hpow
    · exact mul_lt_mul_of_pos_right (by linarith) hpow

/-- The root found bit by bit, while it lies in a range of 2^(i + 1). -/
theorem isqrtFrom_bounds (n i acc : ℕ) (hlo : acc * acc ≤ n) (hhi : n < (acc + 2 ^ (i + 1)) * (acc + 2 ^ (i + 1))) :
    Num.isqrtFrom n i acc * Num.isqrtFrom n i acc ≤ n ∧ n < (Num.isqrtFrom n i acc + 1) * (Num.isqrtFrom n i acc + 1) := by
  induction i generalizing acc with
  | zero => unfold Num.isqrtFrom; split <;> constructor <;> first | assumption | omega
  | succ i ih =>
    rw [Num.isqrtFrom]
    split
    · next h => exact ih _ h (by rw [add_assoc, ← mul_two, ← pow_succ]; exact hhi)
    · next h => exact ih _ hlo (not_le.mp h)

theorem isqrt_eq_sqrt (n : ℕ) : Num.isqrt n = Nat.sqrt n := by
  have hhi : n < (0 + 2 ^ (Nat.log2 n / 2 + 1 + 1)) * (0 + 2 ^ (Nat.log2 n / 2 + 1 + 1)) := by
    rw [zero_add, ← pow_add]
    exact lt_of_lt_of_le (@Nat.lt_log2_self n) (Nat.pow_le_pow_right (by omega) (by omega))
  obtain ⟨h1, h2⟩ := isqrtFrom_bounds n _ 0 (by omega) hhi
  exact Nat.eq_sqrt.mpr ⟨h1, h2⟩

/-- A root to 25 or more bits with a sticky bit stands for the exact root. -/
theorem stands_root {n : ℕ} {q : ℝ} {e : ℤ} {v : ℝ} {inexact : Bool} (hn : 2 ^ 48 ≤ n) (hq : q = √v * 2 ^ e) (hlo : (n : ℝ) ≤ v) (hhi : v < n + 1)
    (hex : inexact = false ↔ ((Nat.sqrt n * Nat.sqrt n : ℕ) : ℝ) = v) : Stands 24 (Num.sticky false (Nat.sqrt n) e inexact) q := by
  have hr := Nat.sqrt_le n
  have hr' := Nat.lt_succ_sqrt n
  have hpow : (0 : ℝ) < 2 ^ e := by positivity
  have hv0 : 0 ≤ v := le_trans (by positivity) hlo
  have hq0 : 0 ≤ q := by rw [hq]; positivity
  have hle : (Nat.sqrt n : ℝ) ≤ √v := Real.le_sqrt_of_sq_le (by rw [sq]; exact le_trans (by exact_mod_cast hr) hlo)
  have hlt : √v < Nat.sqrt n + 1 := by
    rw [Real.sqrt_lt' (by positivity), sq]
    have : ((n + 1 : ℕ) : ℝ) ≤ ((Nat.sqrt n + 1) * (Nat.sqrt n + 1) : ℕ) := by exact_mod_cast hr'
    push_cast at this; linarith
  refine stands_sticky ?_ (Nat.le_sqrt.mpr (by omega)) (fun h => ?_) (fun h => ?_)
  · simpa using hq0
  · have : √v = Nat.sqrt n := by rw [← hex.mp h]; push_cast; exact Real.sqrt_mul_self (by positivity)
    rw [abs_of_nonneg hq0, hq, this]
  · rw [abs_of_nonneg hq0, hq]
    refine ⟨mul_lt_mul_of_pos_right (lt_of_le_of_ne hle fun he => ?_) hpow, mul_lt_mul_of_pos_right hlt hpow⟩
    have : inexact = false := hex.mpr (by push_cast; rw [he, Real.mul_self_sqrt hv0])
    rw [h] at this; cases this

/-- The mantissa and half the exponent of a number as a multiple of an even power of two. -/
def evenMant (m : ℕ) (e : ℤ) : ℕ := if e % 2 == 1 then m * 2 else m
def halfExp (e : ℤ) : ℤ := (if e % 2 == 1 then e - 1 else e) / 2

theorem evenMant_pos {m : ℕ} (hm : m ≠ 0) (e : ℤ) : 0 < evenMant m e := by unfold evenMant; split <;> omega

theorem evenMant_mul_sq (m : ℕ) (e : ℤ) : (m : ℝ) * 2 ^ e = evenMant m e * (2 ^ halfExp e) ^ 2 := by
  rw [← zpow_natCast, ← zpow_mul]
  unfold evenMant halfExp
  split
  · next h =>
    have h : e % 2 = 1 := by simpa using h
    have : (2 : ℝ) ^ e = 2 * 2 ^ ((e - 1) / 2 * ((2 : ℕ) : ℤ)) := by
      rw [← zpow_one_add₀ two_ne_zero]; congr 1; push_cast; omega
    rw [this]; push_cast; ring
  · next h =>
    have h : ¬ e % 2 = 1 := by simpa using h
    congr 2; push_cast; omega

theorem flNum_real_of_nonneg {a : Num.Fl} (h : 0 ≤ flNum a) : (flNum a : ℝ) = a.m * 2 ^ a.e := by
  rw [flNum_cast]
  by_cases hm : a.m = 0
  · simp [hm]
  · have hneg := (flNum_neg_iff a).not.mp (not_lt.mpr h)
    have : a.neg = false := by simpa [hm] using hneg
    simp [this, sgn]

theorem sqrt_eq_sticky {a : Num.Fl} (hm : a.m ≠ 0) : a.sqrt = Num.sticky false (Nat.sqrt (evenMant a.m a.e * 2 ^ 100)) (halfExp a.e - 50)
    (Nat.sqrt (evenMant a.m a.e * 2 ^ 100) * Nat.sqrt (evenMant a.m a.e * 2 ^ 100) != evenMant a.m a.e * 2 ^ 100) := by
  have hodd : ∀ b : Bool, a.m * 2 ^ (if b then 101 else 100) = (if b then a.m * 2 else a.m) * 2 ^ 100 := by
    intro b; cases b <;> simp [pow_succ]; ring
  rw [Num.Fl.sqrt, if_neg hm]
  simp only [hodd, isqrt_eq_sqrt]
  rfl

theorem stands_sqrt {a : Num.Fl} (ha : 0 ≤ flNum a) : Stands 24 a.sqrt (√(flNum a : ℝ)) := by
  by_cases hm : a.m = 0
  · have : a.sqrt = a := if_pos hm
    rw [this, (flNum_eq_zero_iff a).mpr hm]
    exact ⟨fun h => absurd hm h, .inl (by simp [hm])⟩
  rw [sqrt_eq_sticky hm, flNum_real_of_nonneg ha, evenMant_mul_sq]
  have hM := evenMant_pos hm a.e
  generalize evenMant a.m a.e = M at hM ⊢
  generalize halfExp a.e = h
  refine stands_root (v := ((M * 2 ^ 100 : ℕ) : ℝ)) (by nlinarith) ?_ le_rfl (by linarith) ?_
  · have hp : (0 : ℝ) ≤ 2 ^ h := by positivity
    have hv : ((M * 2 ^ 100 : ℕ) : ℝ) = M * (2 ^ 50) ^ 2 := by push_cast; norm_num
    rw [hv, Real.sqrt_mul (by positivity), Real.sqrt_sq hp, Real.sqrt_mul (by positivity), Real.sqrt_sq (by positivity), zpow_sub₀ two_ne_zero]
    field_simp
  · simp only [bne_eq_false_iff_eq]
    exact_mod_cast Iff.rfl

/-- The scale that a reciprocal root is taken at. -/
def rsqrtScale (m : ℕ) : ℕ := 100 + 2 * (Nat.log2 m + 1)

theorem rsqrt_eq_sticky (a : Num.Fl) : let m := evenMant a.m a.e
    a.rsqrt = Num.sticky false (Nat.sqrt (2 ^ rsqrtScale m / m)) (-halfExp a.e - (rsqrtScale m / 2 : ℕ))
      (Nat.sqrt (2 ^ rsqrtScale m / m) * Nat.sqrt (2 ^ rsqrtScale m / m) * m != 2 ^ rsqrtScale m) := by
  rw [Num.Fl.rsqrt]
  simp only [isqrt_eq_sqrt]
  rfl

theorem stands_rsqrt {a : Num.Fl} (ha : 0 < flNum a) : Stands 24 a.rsqrt (1 / √(flNum a : ℝ)) := by
  have hM := evenMant_pos ((flNum_pos_iff a).mp ha).2 a.e
  rw [rsqrt_eq_sticky, flNum_real_of_nonneg ha.le, evenMant_mul_sq]
  generalize evenMant a.m a.e = M at hM ⊢
  generalize halfExp a.e = h
  have hMpos : (0 : ℝ) < M := by exact_mod_cast hM
  have hlog := @Nat.lt_log2_self M
  have hscale : rsqrtScale M = 100 + 2 * (Nat.log2 M + 1) := rfl
  generalize Nat.log2 M + 1 = l at hlog hscale
  rw [hscale]
  refine stands_root (v := (2 : ℝ) ^ (100 + 2 * l) / M) ?_ ?_ ?_ ?_ ?_
  · rw [Nat.le_div_iff_mul_le hM]
    calc 2 ^ 48 * M ≤ 2 ^ 48 * 2 ^ l := Nat.mul_le_mul_left _ hlog.le
      _ = 2 ^ (48 + l) := (pow_add ..).symm
      _ ≤ 2 ^ (100 + 2 * l) := Nat.pow_le_pow_right (by omega) (by omega)
  · have hp : (0 : ℝ) < 2 ^ h := by positivity
    have hsq : (2 : ℝ) ^ (100 + 2 * l) = (2 ^ (50 + l)) ^ 2 := by rw [← pow_mul]; congr 1; ring
    have hhalf : (100 + 2 * l) / 2 = 50 + l := by omega
    rw [hsq, hhalf, Real.sqrt_div (by positivity), Real.sqrt_sq (by positivity), Real.sqrt_mul hMpos.le, Real.sqrt_sq hp.le,
      zpow_sub₀ two_ne_zero, zpow_neg, zpow_natCast]
    field_simp
  · rw [le_div_iff₀ hMpos]
    exact_mod_cast Nat.div_mul_le_self (2 ^ (100 + 2 * l)) M
  · rw [div_lt_iff₀' hMpos]
    exact_mod_cast Nat.lt_mul_div_succ (2 ^ (100 + 2 * l)) hM
  · rw [eq_div_iff hMpos.ne']
    simp only [bne_eq_false_iff_eq]
    exact_mod_cast Iff.rfl

/-! ## Instructions on F32 operands -/

/-- The value that an operand without error reads as. -/
theorem read_of_finite {a : Val} (h : finite a) : ∃ x, Num.f32.read (f32Of a) = some x ∧ num a = flNum x := by
  obtain ⟨x, hx⟩ := Option.isSome_iff_exists.mp h.2.2
  exact ⟨x, hx, by rw [num, fmtNum, hx]⟩

/-- A pattern is made of its fields. -/
theorem eq_pattern {F : Num.Fmt} {b : ℕ} (hb : b < 2 ^ (1 + F.ew + F.mw)) :
    b = pattern F (decide (b / 2 ^ (F.mw + F.ew) % 2 = 1)) (b / 2 ^ F.mw % 2 ^ F.ew) (b % 2 ^ F.mw) := by
  have hs : b / 2 ^ (F.mw + F.ew) < 2 := by
    rw [Nat.div_lt_iff_lt_mul (Nat.two_pow_pos _), ← pow_succ']
    exact hb.trans_eq (by congr 1; omega)
  have h1 := Nat.div_add_mod b (2 ^ F.mw)
  have h2 := Nat.div_add_mod (b / 2 ^ F.mw) (2 ^ F.ew)
  rw [Nat.div_div_eq_div_mul, ← pow_add] at h2
  have h3 : b = 2 ^ F.mw * (2 ^ F.ew * (b / 2 ^ (F.mw + F.ew)) + b / 2 ^ F.mw % 2 ^ F.ew) + b % 2 ^ F.mw := by rw [h2, h1]
  obtain h | h := Nat.le_one_iff_eq_zero_or_eq_one.mp (Nat.lt_succ_iff.mp hs)
  all_goals
    rw [h] at h3 ⊢
    conv_lhs => rw [h3]
    simp [pattern, pow_add]
    ring

/-- A pattern reads as a zero exactly where it is one of the two patterns of a zero. -/
theorem read_zero_iff {F : Num.Fmt} (hF : FmtWf F) {b : ℕ} {x : Num.Fl} (hb : b < 2 ^ (1 + F.ew + F.mw)) (hx : F.read b = some x) (neg : Bool) :
    b = pattern F neg 0 0 ↔ x.neg = neg ∧ x.m = 0 := by
  constructor
  · rintro rfl
    have hpos := hF.maxE
    rw [read_pattern (Nat.two_pow_pos _) (Nat.two_pow_pos _) (by omega)] at hx
    cases hx; exact ⟨rfl, rfl⟩
  · rintro ⟨rfl, hm⟩
    have hpat := eq_pattern hb
    unfold Num.Fmt.read at hx
    dsimp only at hx
    split at hx
    · cases hx
    · split at hx
      · next hex => cases hx; dsimp only at hm; rwa [hex, hm] at hpat
      · cases hx; dsimp only at hm; have := Nat.two_pow_pos F.mw; omega

section
variable {i : Instr} {k : List ℕ → Num.FRes} {vs : List Val}

/-- An F32 instruction on operands without X yields what its operation makes of their patterns. -/
theorem yields_f32 (he : ∀ s, exec i s = fireWord s i fun _ _ _ _ vs => f32Op vs k) (hx : vs.any (·.x) = false) :
    Yields i vs (fresVal (k (vs.map f32Of))) (fresFlags (k (vs.map f32Of))) :=
  yields_of he fun _ _ _ _ => if_neg (by rw [hx]; simp)

/-- The number that a value stands for, written in F32. -/
theorem yields_toF32 (he : ∀ s, exec i s = fireWord s i fun _ _ _ _ vs => f32Op vs k) (hx : vs.any (·.x) = false) {x : Num.Fl} {q : ℝ}
    (hk : k (vs.map f32Of) = Num.toF32 x) (hq : Stands 24 x q) :
    Rounds Num.f32 q (Num.f32.write x).1 (Num.f32.write x).2 ∧ Yields i vs (natVal (Num.f32.write x).1) (satBit (Num.f32.write x).2) := by
  refine ⟨write_rounds f32_wf hq, ?_⟩
  have := yields_f32 he hx
  rw [hk] at this
  exact this

end

theorem f32Of_mod (v : Val) : f32Of v % 2 ^ 32 = f32Of v := Nat.mod_mod ..

theorem f32Un_of_read {k : Num.Fl → Num.FRes} {a : Val} {x : Num.Fl} (hx : Num.f32.read (f32Of a) = some x) :
    Num.f32Un k (f32Of a) = k x := by
  rw [Num.f32Un, f32Of_mod, hx]
theorem f32Bin_of_read {k : Num.Fl → Num.Fl → Num.FRes} {a b : Val} {x y : Num.Fl} (hx : Num.f32.read (f32Of a) = some x)
    (hy : Num.f32.read (f32Of b) = some y) : Num.f32Bin k (f32Of a) (f32Of b) = k x y := by
  rw [Num.f32Bin, f32Of_mod, f32Of_mod, hx, hy]
theorem fma_of_read {a b c : Val} {x y z : Num.Fl} (hx : Num.f32.read (f32Of a) = some x) (hy : Num.f32.read (f32Of b) = some y)
    (hz : Num.f32.read (f32Of c) = some z) : Num.fma (f32Of a) (f32Of b) (f32Of c) = Num.toF32 ((x.mul y).add z) := by
  rw [Num.fma, f32Of_mod, f32Of_mod, f32Of_mod, hx, hy, hz]

/-- The sum of two values that is an exact zero is written as −0 where both are (R146). -/
theorem write_add_of_sum_zero {x y : Num.Fl} (h : flNum x + flNum y = 0) :
    (Num.f32.write (x.add y)).1 = if (x.neg = true ∧ x.m = 0) ∧ y.neg = true ∧ y.m = 0 then 2 ^ 31 else 0 := by
  rw [add_of_sum_zero h, write_of_zero _ rfl]
  cases x.neg <;> cases y.neg <;> simp [Num.f32]

/-- Settles O19: each operation's value is exact or stands for its result, and is written rounded once. -/
theorem floatResultsAreRoundedOnce : Obligations.FloatResultsAreRoundedOnce := by
  intro g h a b c ha hb hc
  obtain ⟨x, hx, hax⟩ := read_of_finite ha
  obtain ⟨y, hy, hby⟩ := read_of_finite hb
  obtain ⟨z, hz, hcz⟩ := read_of_finite hc
  have hxab : [a, b].any (·.x) = false := by simp [ha.1, hb.1]
  have hzero : ∀ {v : Val} {w : Num.Fl}, finite v → Num.f32.read (f32Of v) = some w →
      (f32Of v = 2 ^ 31 ↔ w.neg = true ∧ w.m = 0) ∧ (f32Of v = 0 ↔ w.neg = false ∧ w.m = 0) := fun hv hw =>
    ⟨read_zero_iff f32_wf hv.2.1 hw true, read_zero_iff f32_wf hv.2.1 hw false⟩
  rw [hax, hby, hcz]
  refine ⟨?add, ?sub, ?mul, fun hb0 => ?div, fun ha0 => ?rcp, ?fma⟩
  case add =>
    obtain ⟨hr, hyield⟩ := yields_toF32 (i := .fadd g) (fun _ => rfl) hxab (f32Bin_of_read hx hy) (stands_flNum 24 (x.add y))
    rw [flNum_add] at hr
    refine ⟨_, _, hr, hyield, fun h0 => ?_⟩
    simp only [write_add_of_sum_zero h0, (hzero ha hx).1, (hzero hb hy).1]
  case sub =>
    obtain ⟨hr, hyield⟩ := yields_toF32 (i := .fsub g) (fun _ => rfl) hxab (f32Bin_of_read hx hy) (stands_flNum 24 (x.add y.negate))
    rw [flNum_add, flNum_negate, ← sub_eq_add_neg] at hr
    refine ⟨_, _, hr, hyield, fun h0 => ?_⟩
    rw [write_add_of_sum_zero (by rw [flNum_negate, ← sub_eq_add_neg]; exact h0)]
    simp only [(hzero ha hx).1, (hzero hb hy).2, Num.Fl.negate, Bool.not_eq_true']
  case mul =>
    obtain ⟨hr, hyield⟩ := yields_toF32 (i := .fmul g) (fun _ => rfl) hxab (f32Bin_of_read hx hy) (stands_flNum 24 (x.mul y))
    rw [flNum_mul] at hr
    exact ⟨_, _, hr, hyield⟩
  case div =>
    have hm := (flNum_eq_zero_iff y).not.mp hb0
    obtain ⟨hr, hyield⟩ := yields_toF32 (i := .fdiv g) (fun _ => rfl) hxab ((f32Bin_of_read hx hy).trans (if_neg hm)) (stands_div x hm)
    exact ⟨_, _, hr, hyield⟩
  case rcp =>
    have hm := (flNum_eq_zero_iff x).not.mp ha0
    obtain ⟨hr, hyield⟩ := yields_toF32 (i := .frcp g) (vs := [a]) (fun _ => rfl) (by simp [ha.1]) ((f32Un_of_read hx).trans (if_neg hm))
      (stands_div ⟨false, 1, 0⟩ hm)
    have hone : flNum ⟨false, 1, 0⟩ = 1 := by simp [flNum]
    rw [hone] at hr
    exact ⟨_, _, hr, hyield⟩
  case fma =>
    obtain ⟨hr, hyield⟩ := yields_toF32 (i := .fma h) (vs := [a, b, c]) (fun _ => rfl) (by simp [ha.1, hb.1, hc.1]) (fma_of_read hx hy hz)
      (stands_flNum 24 ((x.mul y).add z))
    rw [flNum_add, flNum_mul] at hr
    exact ⟨_, _, hr, hyield⟩

end Sys2Proof.Safety
end

section
/-! PROOFS. Roots, powers, logarithms, operands in error and conversions of F32 (R22, R26, R144, R145, R148). -/

namespace Sys2Proof.Safety

open Sys2Proof.Machine

/-! ## Numbers that a format holds -/

/-- A format holds every number of at most mw + 1 bits from its quantum on up to its largest. -/
theorem exists_pattern {F : Num.Fmt} (hF : FmtWf F) (neg : Bool) (j m : ℕ) (hm : m ≤ 2 ^ (F.mw + 1))
    (htop : m * (2 : ℚ) ^ (quantum F + j) ≤ topNum F) :
    ∃ b, isNum F b ∧ (fmtNum F b : ℝ) = sgn neg * (m * 2 ^ (quantum F + j)) := by
  induction j generalizing m with
  | zero =>
    rcases packs hF neg hm (Q := quantum F + (0 : ℕ)) (by omega) (by simp) with ⟨-, h⟩ | ⟨b, -, hb, hval, -⟩
    · exact absurd htop (not_le.mpr h)
    · exact ⟨b, hb, hval⟩
  | succ j ih =>
    by_cases hbig : 2 ^ F.mw ≤ m
    · rcases packs hF neg hm (Q := quantum F + (j + 1 : ℕ)) (by omega) (.inr hbig) with ⟨-, h⟩ | ⟨b, -, hb, hval, -⟩
      · exact absurd htop (not_le.mpr h)
      · exact ⟨b, hb, hval⟩
    · have hcarry : quantum F + (j + 1 : ℕ) = quantum F + j + 1 := by push_cast; ring
      have hq : (m : ℚ) * 2 ^ (quantum F + (j + 1 : ℕ)) = (2 * m : ℕ) * 2 ^ (quantum F + j) := by
        rw [hcarry, zpow_add_one₀ two_ne_zero]; push_cast; ring
      have hr : (m : ℝ) * 2 ^ (quantum F + (j + 1 : ℕ)) = (2 * m : ℕ) * 2 ^ (quantum F + j) := by
        rw [hcarry, zpow_add_one₀ two_ne_zero]; push_cast; ring
      rw [hr]
      exact ih _ (by rw [pow_succ]; omega) (by rw [← hq]; exact htop)

theorem one_le_f32_top : (2 : ℚ) ^ (127 : ℤ) ≤ topNum Num.f32 := by
  rw [topNum_eq]; norm_num [Num.f32, topExp]

/-- F32 holds 2^z for z from −149 to 127. -/
theorem exists_f32_two_zpow {z : ℤ} (hlo : -149 ≤ z) (hhi : z ≤ 127) : ∃ b, isNum Num.f32 b ∧ fmtNum Num.f32 b = 2 ^ z := by
  have hz : quantum Num.f32 + ((z + 149).toNat : ℤ) = z := by simp [quantum, Num.f32]; omega
  have htop : ((1 : ℕ) : ℚ) * 2 ^ (quantum Num.f32 + ((z + 149).toNat : ℤ)) ≤ topNum Num.f32 := by
    rw [hz, Nat.cast_one, one_mul]
    exact (zpow_le_zpow_right₀ one_le_two hhi).trans one_le_f32_top
  obtain ⟨b, hb, hval⟩ := exists_pattern f32_wf false (z + 149).toNat 1 (by decide) htop
  refine ⟨b, hb, ?_⟩
  rw [hz] at hval
  have : (fmtNum Num.f32 b : ℝ) = ((2 ^ z : ℚ) : ℝ) := by rw [hval]; simp [sgn]
  exact_mod_cast this

/-- F32 holds the integers of at most 24 bits. -/
theorem exists_f32_int {z : ℤ} (hz : z.natAbs ≤ 2 ^ 24) : ∃ b, isNum Num.f32 b ∧ fmtNum Num.f32 b = z := by
  have hq : quantum Num.f32 + ((149 : ℕ) : ℤ) = 0 := by simp [quantum, Num.f32]
  have htop : (z.natAbs : ℚ) * 2 ^ (quantum Num.f32 + ((149 : ℕ) : ℤ)) ≤ topNum Num.f32 := by
    rw [hq, zpow_zero, mul_one]
    refine le_trans ?_ one_le_f32_top
    have : (z.natAbs : ℚ) ≤ (2 ^ 24 : ℕ) := by exact_mod_cast hz
    refine this.trans (by norm_num)
  obtain ⟨b, hb, hval⟩ := exists_pattern f32_wf (decide (z < 0)) 149 z.natAbs hz htop
  refine ⟨b, hb, ?_⟩
  have hint := flNum_cast ⟨decide (z < 0), z.natAbs, 0⟩
  rw [flNum_ofSigned] at hint
  rw [hq] at hval
  have : (fmtNum Num.f32 b : ℝ) = ((z : ℚ) : ℝ) := by rw [hval, ← hint]; simp
  exact_mod_cast this

/-! ## Powers and logarithms that F32 holds exactly -/

/-- 2^z for an integer z that a value stands for. -/
theorem exp2_of_int {x : Num.Fl} {z : ℤ} (hx : flNum x = z) (hz : z.natAbs < 256) : x.exp2 = ⟨false, 1, z⟩ := by
  by_cases hm : x.m = 0
  · have h0 : z = 0 := by rw [(flNum_eq_zero_iff x).mpr hm] at hx; exact_mod_cast hx.symm
    rw [h0]; exact if_pos hm
  obtain ⟨hlo, hhi⟩ := (stands_flNum 0 x).binade hm
  have habs : |(flNum x : ℝ)| = (z.natAbs : ℝ) := by rw [hx, Nat.cast_natAbs]; push_cast; rfl
  rw [habs] at hlo hhi
  have hpos : z.natAbs ≠ 0 := by
    intro h0
    have : flNum x = 0 := by rw [hx]; exact_mod_cast Int.natAbs_eq_zero.mp h0
    exact hm ((flNum_eq_zero_iff x).mp this)
  have hL8 : (Nat.log2 x.m : ℤ) + x.e < 8 := by
    by_contra hge
    have h1 : (2 : ℝ) ^ (8 : ℤ) ≤ 2 ^ ((Nat.log2 x.m : ℤ) + x.e) := zpow_le_zpow_right₀ one_le_two (by omega)
    have h2 : (z.natAbs : ℝ) < 256 := by exact_mod_cast hz
    have h3 : (2 : ℝ) ^ (8 : ℤ) = 256 := by norm_num
    linarith
  have hL0 : -1 < (Nat.log2 x.m : ℤ) + x.e := by
    by_contra hlt
    have h1 : (2 : ℝ) ^ ((Nat.log2 x.m : ℤ) + x.e + 1) ≤ 2 ^ (0 : ℤ) := zpow_le_zpow_right₀ one_le_two (by omega)
    have h2 : (1 : ℝ) ≤ z.natAbs := by exact_mod_cast Nat.one_le_iff_ne_zero.mpr hpos
    rw [zpow_zero] at h1; linarith
  have hk : -((max 0 (-x.e)).toNat : ℤ) ≤ x.e := by omega
  generalize hkk : (max 0 (-x.e)).toNat = k at hk
  have hat : x.at (-(k : ℤ)) = z * (2 ^ k : ℕ) := by
    have h1 := flNum_eq_at x hk
    rw [hx, zpow_neg, zpow_natCast, eq_mul_inv_iff_mul_eq₀ (by positivity)] at h1
    have h2 : ((z * (2 ^ k : ℕ) : ℤ) : ℚ) = (x.at (-(k : ℤ)) : ℤ) := by push_cast; exact h1
    exact_mod_cast h2.symm
  have hp : ((2 ^ k : ℕ) : ℤ) ≠ 0 := by positivity
  rw [Num.Fl.exp2, if_neg hm, if_neg (by omega), if_neg (by omega)]
  simp only [hkk, hat, Int.mul_ediv_cancel z hp, Int.mul_emod_left]
  rfl

/-- The logarithm of a power of two. -/
theorem log2_of_two_zpow {x : Num.Fl} {z : ℤ} (hx : flNum x = 2 ^ z) : x.log2 = Num.Fl.ofInt z ∧ x.e ≤ z := by
  have hpos : 0 < flNum x := by rw [hx]; positivity
  obtain ⟨hneg, hm⟩ := (flNum_pos_iff x).mp hpos
  have hval : (x.m : ℚ) = 2 ^ (z - x.e) := by
    rw [zpow_sub₀ two_ne_zero, ← hx, flNum, hneg]; simp only [Bool.false_eq_true, if_false, one_mul]; field_simp
  have hge : 0 ≤ z - x.e := by
    by_contra hlt
    have h1 : (2 : ℚ) ^ (z - x.e) < 1 := zpow_lt_one_of_neg₀ one_lt_two (by omega)
    have h2 : (1 : ℚ) ≤ x.m := by exact_mod_cast Nat.one_le_iff_ne_zero.mpr hm
    linarith
  obtain ⟨l, hl⟩ := Int.eq_ofNat_of_zero_le hge
  have hml : x.m = 2 ^ l := by rw [hl, zpow_natCast] at hval; exact_mod_cast hval
  have hlog : Nat.log2 x.m = l := by rw [hml, Nat.log2_two_pow]
  have hz : (l : ℤ) + x.e = z := by omega
  refine ⟨?_, by omega⟩
  rw [Num.Fl.log2]
  simp only [hlog, if_pos hml, hz]

/-- Settles O21: roots stand for the exact roots; the power and the logarithm are exact values that F32 holds. -/
theorem floatRootsPowersAndLogarithms : Obligations.FloatRootsPowersAndLogarithms := by
  intro g a ha
  obtain ⟨x, hx, hax⟩ := read_of_finite ha
  have hxa : [a].any (·.x) = false := by simp [ha.1]
  rw [hax]
  refine ⟨fun h0 => ?sqrt, fun h0 => ?rsq, ?exp2, fun h0 => ?log2⟩
  case sqrt =>
    have hneg : (x.neg && x.m != 0) = false := by
      have := (flNum_neg_iff x).not.mp (not_lt.mpr h0)
      simpa using this
    obtain ⟨hr, hyield⟩ := yields_toF32 (i := .fsqrt g) (vs := [a]) (fun _ => rfl) hxa
      ((f32Un_of_read hx).trans (if_neg (by rw [hneg]; simp))) (stands_sqrt h0)
    refine ⟨_, _, hr, hyield, fun hz => ?_⟩
    have hm := (flNum_eq_zero_iff x).mp hz
    have hroot : x.sqrt = x := if_pos hm
    rw [hroot, write_of_zero _ hm, (read_zero_iff f32_wf ha.2.1 hx x.neg).mpr ⟨rfl, hm⟩]
    simp [pattern]
  case rsq =>
    obtain ⟨hneg, hm⟩ := (flNum_pos_iff x).mp h0
    obtain ⟨hr, hyield⟩ := yields_toF32 (i := .frsq g) (vs := [a]) (fun _ => rfl) hxa
      ((f32Un_of_read hx).trans (if_neg (by simp [hneg, hm]))) (stands_rsqrt h0)
    exact ⟨_, _, hr, hyield⟩
  case exp2 =>
    obtain ⟨hr, hyield⟩ := yields_toF32 (i := .fexp2 g) (vs := [a]) (fun _ => rfl) hxa (f32Un_of_read hx) (stands_flNum 24 x.exp2)
    refine ⟨_, _, hr.1, hyield, fun z hz hlo hhi => ?_⟩
    obtain ⟨b, hb, hval⟩ := exists_f32_two_zpow hlo hhi
    rw [← hval]
    refine hr.exact f32_wf hb ?_
    rw [exp2_of_int hz (by omega), hval]
    simp [flNum]
  case log2 =>
    obtain ⟨hneg, hm⟩ := (flNum_pos_iff x).mp h0
    obtain ⟨hr, hyield⟩ := yields_toF32 (i := .flog2 g) (vs := [a]) (fun _ => rfl) hxa
      ((f32Un_of_read hx).trans (if_neg (by simp [hneg, hm]))) (stands_flNum 24 x.log2)
    refine ⟨_, _, hr.1, hyield, fun z hz => ?_⟩
    obtain ⟨hlog, hle⟩ := log2_of_two_zpow hz
    have hlo : -149 ≤ z := by
      have := (read_bounds hx).1
      simp only [quantum, Num.f32] at this
      omega
    have hhi : z < 128 := by
      have htop := abs_fmtNum_le_topNum f32_wf ha.2
      rw [show fmtNum Num.f32 (f32Of a) = 2 ^ z by rw [← hz, ← hax]; rfl, abs_of_pos (by positivity)] at htop
      have : topNum Num.f32 < 2 ^ (128 : ℤ) := by rw [topNum_eq]; norm_num [Num.f32, topExp]
      exact (zpow_lt_zpow_iff_right₀ one_lt_two).mp (htop.trans_lt this)
    obtain ⟨b, hb, hval⟩ := exists_f32_int (z := z) (by omega)
    rw [← hval]
    refine hr.exact f32_wf hb ?_
    rw [hlog, hval, Num.Fl.ofInt, flNum_ofSigned]
    simp

/-! ## Operands in error -/

theorem read_isSome_iff (F : Num.Fmt) (b : ℕ) : (F.read b).isSome = true ↔
    ¬ (b / 2 ^ F.mw % 2 ^ F.ew > F.maxE ∨ (b / 2 ^ F.mw % 2 ^ F.ew = F.maxE ∧ b % 2 ^ F.mw > F.maxM)) := by
  unfold Num.Fmt.read
  dsimp only
  split
  · next h => simp [h]
  · next h => split <;> simp [h]

theorem f32_read_isSome (v : Val) : (Num.f32.read (f32Of v)).isSome = (bits v.nat 30 23 != 255) := by
  have hexp : f32Of v / 2 ^ 23 % 2 ^ 8 = bits v.nat 30 23 := by unfold f32Of bits; omega
  have hma : f32Of v % 2 ^ 23 < 2 ^ 23 := Nat.mod_lt _ (Nat.two_pow_pos _)
  have hlt : bits v.nat 30 23 < 2 ^ 8 := Nat.mod_lt _ (Nat.two_pow_pos _)
  rw [Bool.eq_iff_iff, read_isSome_iff, bne_iff_ne, ← hexp]
  rw [← hexp] at hlt
  show ¬ (f32Of v / 2 ^ 23 % 2 ^ 8 > 254 ∨ (f32Of v / 2 ^ 23 % 2 ^ 8 = 254 ∧ f32Of v % 2 ^ 23 > 2 ^ 23 - 1)) ↔ _
  omega

theorem pcodeOf_eq (vs : List Val) :
    pcodeOf vs = if vs.any (fun v => !v.x && !(Num.f32.read (f32Of v)).isSome) then flPcode else 0 := by
  unfold pcodeOf
  simp only [f32_read_isSome, bne, Bool.not_not]

/-- An F32 instruction that answers PCODE where an operand does not read yields an error token for operands in error (R22, R144). -/
theorem yields_f32_err {i : Instr} {k : List ℕ → Num.FRes} {vs : List Val}
    (he : ∀ s, exec i s = fireWord s i fun _ _ _ _ vs => f32Op vs k)
    (hk : (vs.any fun v => !(Num.f32.read (f32Of v)).isSome) = true → k (vs.map f32Of) = .pcode)
    (herr : (vs.any fun v => v.x || !(Num.f32.read (f32Of v)).isSome) = true) :
    Yields i vs ⟨0, true⟩ (if vs.any (fun v => !v.x && !(Num.f32.read (f32Of v)).isSome) then flPcode else 0) := by
  rw [← pcodeOf_eq]
  refine yields_of he fun _ _ _ _ => ?_
  by_cases hx : vs.any (·.x) = true
  · exact if_pos hx
  · have hread : (vs.any fun v => !(Num.f32.read (f32Of v)).isSome) = true := by
      simp only [List.any_eq_true, Bool.or_eq_true, not_exists, not_and] at herr hx ⊢
      obtain ⟨v, hv, h⟩ := herr
      exact ⟨v, hv, h.resolve_left (hx v hv)⟩
    have hpcode : pcodeOf vs = flPcode := by
      rw [pcodeOf_eq]
      simp only [List.any_eq_true, not_exists, not_and, Bool.and_eq_true, Bool.not_eq_true'] at hread hx ⊢
      obtain ⟨v, hv, h⟩ := hread
      exact if_pos ⟨v, hv, Bool.eq_false_iff.mpr (hx v hv), h⟩
    have hf : (fun v : Val => v.nat % 2 ^ 32) = f32Of := rfl
    rw [f32Op, if_neg hx, hf, hk hread, hpcode]
    rfl

theorem f32Un_of_not_read {k : Num.Fl → Num.FRes} {a : Val} (h : ([a].any fun v => !(Num.f32.read (f32Of v)).isSome) = true) :
    Num.f32Un k (f32Of a) = .pcode := by
  have h : Num.f32.read (f32Of a) = none := by simpa using h
  rw [Num.f32Un, f32Of_mod, h]
theorem f32Bin_of_not_read {k : Num.Fl → Num.Fl → Num.FRes} {a b : Val}
    (h : ([a, b].any fun v => !(Num.f32.read (f32Of v)).isSome) = true) : Num.f32Bin k (f32Of a) (f32Of b) = .pcode := by
  have h : Num.f32.read (f32Of a) = none ∨ Num.f32.read (f32Of b) = none := by simpa using h
  rw [Num.f32Bin, f32Of_mod, f32Of_mod]
  rcases h with h | h
  · rw [h]
  · rw [h]; cases Num.f32.read (f32Of a) <;> rfl
theorem fma_of_not_read {a b c : Val} (h : ([a, b, c].any fun v => !(Num.f32.read (f32Of v)).isSome) = true) :
    Num.fma (f32Of a) (f32Of b) (f32Of c) = .pcode := by
  have h : Num.f32.read (f32Of a) = none ∨ Num.f32.read (f32Of b) = none ∨ Num.f32.read (f32Of c) = none := by simpa using h
  rw [Num.fma, f32Of_mod, f32Of_mod, f32Of_mod]
  rcases h with h | h | h
  · rw [h]
  · rw [h]; cases Num.f32.read (f32Of a) <;> rfl
  · rw [h]; cases Num.f32.read (f32Of a) <;> cases Num.f32.read (f32Of b) <;> rfl

/-- An operation without a result yields an error token and raises INV. -/
theorem yields_f32_inv {i : Instr} {k : List ℕ → Num.FRes} {vs : List Val} (he : ∀ s, exec i s = fireWord s i fun _ _ _ _ vs => f32Op vs k)
    (hx : vs.any (·.x) = false) (hk : k (vs.map f32Of) = .inv) : Yields i vs ⟨0, true⟩ flInv := by
  have := yields_f32 he hx
  rw [hk] at this
  exact this

/-- Settles O22: operands in error by what reads, operations without a result by their guard, the others by what they write. -/
theorem floatErrorOperands : Obligations.FloatErrorOperands := by
  intro g h a b c bad err
  have hone : ∀ {v : Val}, finite v → [v].any (·.x) = false := fun hv => by simp [hv.1]
  refine ⟨fun he => ?bin, fun he => ?un, fun he => yields_f32_err (fun _ => rfl) fma_of_not_read he, fun ha hb hb0 => ?div, fun ha hneg => ?sqrt,
    fun ha hle => ?log2, fun ha ha0 => ?rcp, fun ha => ⟨fun h0 => ?sqrtNum, fun h0 => ⟨?log2Num, ?rsqNum⟩, ?exp2Num⟩⟩
  case bin =>
    simp only [List.forall_mem_cons]
    refine ⟨?_, ?_, ?_, ?_, ?_, ?_, ?_, ?_, ?_, by simp⟩ <;> exact yields_f32_err (fun _ => rfl) f32Bin_of_not_read he
  case un =>
    simp only [List.forall_mem_cons]
    refine ⟨?_, ?_, ?_, ?_, ?_, ?_, ?_, by simp⟩ <;> exact yields_f32_err (fun _ => rfl) f32Un_of_not_read he
  case div =>
    obtain ⟨x, hx, -⟩ := read_of_finite ha
    obtain ⟨y, hy, hby⟩ := read_of_finite hb
    exact yields_f32_inv (fun _ => rfl) (by simp [ha.1, hb.1]) ((f32Bin_of_read hx hy).trans (if_pos ((flNum_eq_zero_iff y).mp (hby ▸ hb0))))
  all_goals obtain ⟨x, hx, hax⟩ := read_of_finite ha
  case sqrt =>
    have hm := (flNum_neg_iff x).mp (hax ▸ hneg)
    exact yields_f32_inv (fun _ => rfl) (hone ha) ((f32Un_of_read hx).trans (if_pos (by simp [hm])))
  case log2 =>
    have hbad : x.m = 0 ∨ x.neg = true := by
      have := (flNum_pos_iff x).not.mp (not_lt.mpr (hax ▸ hle))
      cases hn : x.neg <;> simp_all
    exact ⟨yields_f32_inv (fun _ => rfl) (hone ha) ((f32Un_of_read hx).trans (if_pos hbad)),
      yields_f32_inv (fun _ => rfl) (hone ha) ((f32Un_of_read hx).trans (if_pos hbad))⟩
  case rcp => exact yields_f32_inv (fun _ => rfl) (hone ha) ((f32Un_of_read hx).trans (if_pos ((flNum_eq_zero_iff x).mp (hax ▸ ha0))))
  case exp2Num =>
    obtain ⟨r, sat, hr, hy, -⟩ := (floatRootsPowersAndLogarithms g a ha).2.2.1
    exact ⟨r, _, hr, hy⟩
  case sqrtNum =>
    obtain ⟨r, sat, hr, hy, -⟩ := (floatRootsPowersAndLogarithms g a ha).1 h0
    exact ⟨r, _, hr.1, hy⟩
  case rsqNum =>
    obtain ⟨r, sat, hr, hy⟩ := (floatRootsPowersAndLogarithms g a ha).2.1 h0
    exact ⟨r, _, hr.1, hy⟩
  case log2Num =>
    obtain ⟨r, sat, hr, hy, -⟩ := (floatRootsPowersAndLogarithms g a ha).2.2.2 h0
    exact ⟨r, _, hr, hy⟩

/-! ## Conversion -/

theorem read_mod (F : Num.Fmt) (b : ℕ) : F.read (b % 2 ^ (1 + F.ew + F.mw)) = F.read b := by
  have hma : b % 2 ^ (1 + F.ew + F.mw) % 2 ^ F.mw = b % 2 ^ F.mw := Nat.mod_mod_of_dvd _ (pow_dvd_pow 2 (by omega))
  have hex : b % 2 ^ (1 + F.ew + F.mw) / 2 ^ F.mw % 2 ^ F.ew = b / 2 ^ F.mw % 2 ^ F.ew := by
    rw [show 1 + F.ew + F.mw = F.mw + (1 + F.ew) by omega, pow_add, Nat.mod_mul_right_div_self]
    exact Nat.mod_mod_of_dvd _ (pow_dvd_pow 2 (by omega))
  have hneg : b % 2 ^ (1 + F.ew + F.mw) / 2 ^ (F.mw + F.ew) % 2 = b / 2 ^ (F.mw + F.ew) % 2 := by
    rw [show 1 + F.ew + F.mw = (F.mw + F.ew) + 1 by omega, pow_succ, Nat.mod_mul_right_div_self, Nat.mod_mod]
  unfold Num.Fmt.read
  simp only [hma, hex, hneg]

theorem Nearest.neg {q : ℚ} {y : ℤ} (h : Nearest q y) : Nearest (-q) (-y) := by
  rw [← nearR_cast] at h ⊢
  push_cast
  exact h.neg

/-- A finite value is rounded to the nearest integer, ties to even. -/
theorem nearest_round (x : Num.Fl) : Nearest (flNum x) x.round := by
  have h := nearest_rneAt x.m x.e
  unfold flNum Num.Fl.round
  cases x.neg
  · simpa using h
  · simpa using h.neg

theorem flNum_ofInt (z : ℤ) : flNum (Num.Fl.ofInt z) = z := by rw [Num.Fl.ofInt, flNum_ofSigned, zpow_zero, mul_one]

/-- An integer is read back from its wrapped pattern exactly where the type holds it (R19, R20). -/
theorem rdInt_wrap_iff (t : ITy) (z : ℤ) : rdInt t (Num.wrap z t.bits) = z ↔
    if t.signed then -(2 : ℤ) ^ (t.bits - 1) ≤ z ∧ z < 2 ^ (t.bits - 1) else 0 ≤ z ∧ z < 2 ^ t.bits := by
  have hpos := bits_pos t
  obtain ⟨n, hn⟩ := Nat.exists_eq_succ_of_ne_zero hpos.ne'
  unfold rdInt
  split
  · rw [asS_eq_toInt _ _ hpos, wrap_eq_toNat, BitVec.ofNat_toNat, BitVec.setWidth_eq, BitVec.toInt_ofInt, hn]
    have h2 : ((2 ^ (n + 1) : ℕ) : ℤ) = 2 * 2 ^ n := by push_cast; ring
    have hp : (0 : ℤ) < 2 ^ n := by positivity
    rw [Nat.succ_sub_one, Nat.succ_eq_add_one]
    constructor
    · intro h
      have h1 := @Int.le_bmod z (2 ^ (n + 1)) (by positivity)
      have h3 := @Int.bmod_lt z (2 ^ (n + 1)) (by positivity)
      rw [h, h2] at h1 h3
      omega
    · rintro ⟨h1, h3⟩
      exact Int.bmod_eq_of_le (by rw [h2]; omega) (by rw [h2]; omega)
  · have hp : (0 : ℤ) < 2 ^ t.bits := by positivity
    have hm : ((Num.wrap z t.bits % 2 ^ t.bits : ℕ) : ℤ) = z % 2 ^ t.bits := by
      unfold Num.wrap
      push_cast
      rw [Int.toNat_of_nonneg (Int.emod_nonneg _ hp.ne'), Int.emod_emod_of_dvd _ dvd_rfl]
    rw [hm]
    constructor
    · intro h; rw [← h]; exact ⟨Int.emod_nonneg _ hp.ne', Int.emod_lt_of_pos _ hp⟩
    · rintro ⟨h1, h2⟩; exact Int.emod_eq_of_lt h1 h2

theorem yields_fcvt {h : TF} {src dst : FTy} {a : Val} {v : Val} {fl : ℕ}
    (hb : (if a.x then FRes.val Val.err else match cvtRead src a.nat with
      | none => .val Val.err flPcode
      | some x => cvtWrite dst x) = .val v fl) : Yields (.fcvt h src dst) [a] v fl :=
  yields_of (fun _ => rfl) fun _ _ _ _ => hb

/-- What a source operand stands for. -/
theorem cvtRead_of_number {src : FTy} {a : Val} {q : ℚ}
    (hq : match src with
      | .int t => q = if t.signed then ((low t a).toInt : ℚ) else ((low t a).toNat : ℚ)
      | _ => ((ftyFmt src).read a.nat).isSome = true ∧ q = fmtNum (ftyFmt src) (a.nat % 2 ^ (1 + (ftyFmt src).ew + (ftyFmt src).mw))) :
    ∃ x, cvtRead src a.nat = some x ∧ flNum x = q := by
  have hfloat : ∀ F : Num.Fmt, (F.read a.nat).isSome = true ∧ q = fmtNum F (a.nat % 2 ^ (1 + F.ew + F.mw)) →
      ∃ x, F.read a.nat = some x ∧ flNum x = q := by
    rintro F ⟨hsome, rfl⟩
    obtain ⟨x, hx⟩ := Option.isSome_iff_exists.mp hsome
    exact ⟨x, hx, by rw [fmtNum, read_mod, hx]⟩
  cases src with
  | int t =>
    refine ⟨_, rfl, ?_⟩
    dsimp only at hq
    rw [hq, flNum_ofInt, rdInt_eq]
    split <;> simp
  | _ => exact hfloat _ hq

/-- Settles O23: the source by what it reads, a float destination by `write_rounds`, an integer one by the nearest integer. -/
theorem conversionRoundsOrFails : Obligations.ConversionRoundsOrFails := by
  intro h src dst a
  refine ⟨fun hx => yields_fcvt (by rw [hx]; rfl), fun hx hint hnone => yields_fcvt ?_, fun q hx hq => ?_⟩
  · have hread : cvtRead src a.nat = none := by
      cases src with
      | int t => cases hint
      | _ => exact Option.not_isSome_iff_eq_none.mp (Bool.eq_false_iff.mp hnone)
    rw [hx, hread]; rfl
  obtain ⟨x, hread, hval⟩ := cvtRead_of_number hq
  have hyield : ∀ {v fl}, cvtWrite dst x = .val v fl → Yields (.fcvt h src dst) [a] v fl := fun hw =>
    yields_fcvt (by rw [hx, hread]; exact hw)
  have hfloat : ∀ F, FmtWf F → cvtWrite dst x = .val (Val.ofNat (F.write x).1) (satBit (F.write x).2) →
      ∃ r sat, Rounds F q r sat ∧ Yields (.fcvt h src dst) [a] (natVal r) (satBit sat) := fun F hF hw =>
    ⟨_, _, hval ▸ write_rounds hF (stands_flNum _ x), hyield hw⟩
  cases dst with
  | int t =>
    intro z hle htie
    have hz : x.round = z := by
      have h1 := (nearR_cast _ _).mpr (nearest_round x)
      have h2 : NearR (flNum x : ℝ) z := (nearR_cast _ _).mpr ⟨hval ▸ hle, hval ▸ htie⟩
      exact h2.unique h1
    refine ⟨fun hin => hyield ?_, fun hout => hyield ?_⟩
    · rw [← putInt_eq, ← hz]
      exact if_pos ((rdInt_wrap_iff t _).mpr (hz ▸ hin))
    · exact if_neg ((rdInt_wrap_iff t _).not.mpr (hz ▸ hout))
  | f32 => exact hfloat _ f32_wf rfl
  | bf16 => exact hfloat _ bf16_wf rfl
  | e4m3 => exact hfloat _ e4m3_wf rfl
  | e5m2 => exact hfloat _ e5m2_wf rfl

end Sys2Proof.Safety
end

section
/-! PROOFS. VSCAN of F32 where the engine keeps a number that is no F32 pattern: the statement about reductions and moves (R237). -/

namespace Sys2Proof.Safety

open Sys2Proof.Machine

/-! ## An element read is no larger than its planes -/

theorem natSum_bits_lt (n : ℕ) (p : ℕ → Bool) : natSum ((List.range n).map fun k => bnat (p k) * 2 ^ k) < 2 ^ n := by
  induction n with
  | zero => simp [natSum]
  | succ n ih =>
    rw [List.range_succ, List.map_append, List.map_singleton, natSum_append_singleton, pow_succ]
    have hone : bnat (p n) ≤ 1 := by cases p n <;> decide
    nlinarith [Nat.two_pow_pos n]

theorem pattern_lt (p : Machine.PSet) (m : List Host.Cell) (b l : ℕ) : p.pattern m b l < 2 ^ p.w := natSum_bits_lt _ _

/-- An element of code FP reads as a pattern of its planes. -/
theorem el_lt_of_isFP {p : Machine.PSet} {m : List Host.Cell} {b l : ℕ} {e : Bool × ℕ} (hc : p.code = 2) (he : p.el m b l = some e) :
    e.2 < 2 ^ p.w := by
  unfold PSet.el at he
  split at he
  · cases he
  · simp only [hc, isTC, isSM] at he
    cases he
    exact pattern_lt p m b l

/-! ## The counterexample -/

/-- VSCAN of one F32 element with OPT, from word 0 to word 4096 of core 0. -/
def scanVF : VF := { sat := false, opt := true, msk := false, cmd := 0, gd := false, gb := false, ga := false, cd := 2, wd := 0, cb := 0, wb := 0, ca := 2, wa := 0 }
def scanCmd : Released :=
  { i := .vscan ⟨.always, none⟩ scanVF, core := 0, fp := 0, ops := [⟨BitVec.ofNat 64 (2 ^ 20), false⟩, ⟨BitVec.ofNat 64 (2 ^ 20 + 4096), false⟩] }
/-- The engine keeps 2^32, which 32 planes do not hold, as its running total. -/
def scanRun : VecRun := { cmd := scanCmd, acc := { bits := 2 ^ 32 } }
/-- The words of the source are full, and hold zero. -/
def scanState : State :=
  { mem := (List.range 33).map fun k => (2 ^ 51 + 2 ^ 45 + 16 * k, 1)
    cores := [(0, { vec := some scanRun })]
    focus := .engine 0 .vec }

theorem scanState_safe : Safe scanState := by
  unfold Safe; decide

theorem scanState_awake : Awake scanState := by
  have hcore : ∀ c, (scanState.core c).gated = [] := fun c => by
    by_cases hc : c = 0
    · subst hc; rfl
    · simp only [State.core, scanState, Sp.get, Sp.find?, if_neg hc]
  have hdie : ∀ d, (scanState.die d).gated = [] := fun _ => rfl
  intro key
  unfold isGated
  split
  · rw [hcore]; rfl
  · rw [hdie]; rfl
  · rfl

/-- Refutes O48: nothing in the statement bounds the running total that VSCAN keeps between blocks, and one of 2^32 is no F32 pattern: with
OPT the first lane would have to read as it. -/
theorem not_vectorReductionsAndMoves : ¬ Obligations.VectorReductionsAndMoves := by
  intro h
  have hon : VecOn scanState 0 scanCmd [] scanRun := ⟨rfl, rfl, rfl, by decide, rfl, rfl⟩
  have hscan := (h ⟨.always, none⟩ scanVF scanState 0 scanCmd [] scanRun hon (by decide) scanState_awake scanState_safe (by decide) rfl).2.1
    rfl (by decide)
  obtain ⟨t, w, -, -, -, -, -, -, hfp⟩ := (hscan.1 (by decide) (by decide)).2 (by decide)
  have hzero : ∀ l, l < 1 → l = 0 := fun l hl => by omega
  have hlanes := (hfp rfl (fun _ _ => some 0) (fun l hl => by rw [hzero l hl]; decide) fun k _ l hl => by
    rw [hzero l hl, if_pos (Nat.two_pow_pos k)]).2.1.1
  have hlaid : Laid scanState t (vSet scanCmd scanVF 2) 0 0 (some (false, 2 ^ 32)) := hlanes 0 (by decide)
  have hclean : (vSet scanCmd scanVF 2).spoilt t.mem 0 0 = false := by
    by_contra hx
    exact absurd (hlaid.kept (Bool.not_eq_false _ ▸ hx)) (by decide)
  have hel := hlaid.holds
  rw [hclean, if_neg Bool.false_ne_true] at hel
  exact absurd (el_lt_of_isFP rfl hel) (lt_irrefl _)

end Sys2Proof.Safety
end

section
/-! PROOFS. CPY.STREAM through two translations that name one codeword: the statement about the steps of the copy commands (R282). -/

namespace Sys2Proof.Safety

open Sys2Proof.Machine

/-! ## The counterexample -/

/-- One unit of 128 bytes, from word 0 of core 0 to the virtual addresses 0 to 127. -/
def aliasCmd : Released :=
  { i := .cpyStream ⟨.always, some 1⟩ false false 0 .loc .global 7, core := 0, fp := 0, ops := [⟨0, false⟩, ⟨0, false⟩, ⟨0, false⟩] }
def aliasRun : CpyRun := { cmd := aliasCmd, started := true }
/-- Partition 0's translations of the two codewords of the destination: both name physical address 0. -/
def aliasTlb : List Tlb := [⟨0, 0, 64, 0, true, 0⟩, ⟨0, 64, 64, 0, true, 0⟩]
/-- The first byte of the source is 1, the others are 0; core 0 holds both translations. -/
def aliasState : State :=
  { mem := [(2 ^ 48, 1)]
    cores := [(0, { tlb := aliasTlb, streams := [(0, { cur := some aliasRun })] })]
    pkg := { parts := [(0, { ctl := BitVec.ofNat 64 (2 ^ 63 + 1) })] }
    focus := .engine 0 (.cpy 0) }
/-- Where the bytes of the unit come from and go. -/
def aliasFrom (j : ℕ) : Loc := { space := .loc, key := localKey 0 j, va := j }
def aliasTo (j : ℕ) : Loc := { space := .global, key := j % 64, va := j }

theorem aliasState_safe : Safe aliasState := by
  unfold Safe; decide

theorem aliasState_awake : Awake aliasState := by
  have hcore : ∀ c, (aliasState.core c).gated = [] := fun c => by
    by_cases hc : c = 0
    · subst hc; rfl
    · simp only [State.core, aliasState, Sp.get, Sp.find?, if_neg hc]
  have hdie : ∀ d, (aliasState.die d).gated = [] := fun _ => rfl
  intro key
  unfold isGated
  split
  · rw [hcore]; rfl
  · rw [hdie]; rfl
  · rfl

theorem aliasState_warm : Warm aliasState 0 := by
  intro va t ht
  have hpart : corePart aliasState 0 = some 0 := by decide
  have hquad : (aliasState.die (coreDie 0)).qtlb.get (quadOf 0) [] = [] := rfl
  simp only [tlbFind, hpart, hquad, List.find?_nil] at ht
  split at ht
  · next u hu => exact Option.some.inj ht ▸ List.mem_of_find?_eq_some hu
  · cases ht

theorem aliasState_checkFrom : ∀ j < 128, checkAddr aliasState (copyAsk 0 .loc false) (blockAt .loc 0 j % 2 ^ 64) =
    .ok (aliasFrom (j / 8 * 8)) none := by decide

theorem aliasState_checkTo : ∀ j < 128, checkAddr aliasState (copyAsk 0 .global true) (blockAt .global 0 j % 2 ^ 64) =
    .ok (aliasTo (j / 64 * 64)) (nth? aliasTlb (j / 64)) := by decide

theorem aliasState_reachFrom : Reach aliasState 0 .loc false 0 128 aliasFrom := by
  intro j hj
  refine ⟨⟨rfl, nofun⟩, _, _, aliasState_checkFrom j hj, ?_⟩
  have hblock : blockAt .loc 0 j = j / 8 * 8 := by simp [blockAt]
  rw [hblock]
  simp only [aliasFrom, localKey, Loc.mk.injEq, true_and, and_true]
  omega

theorem aliasState_reachTo : Reach aliasState 0 .global true 0 128 aliasTo := by
  intro j hj
  have hkind : ∀ p < 64, physKind aliasState p = .dram 0 := by decide
  refine ⟨⟨rfl, fun _ => ⟨.inl ⟨0, hkind _ (Nat.mod_lt _ (by decide))⟩, Nat.mod_mod _ _, rfl, nofun⟩⟩, _, _, aliasState_checkTo j hj, ?_⟩
  have hblock : blockAt .global 0 j = j / 64 * 64 := by simp [blockAt]
  rw [hblock]
  simp only [aliasTo, Loc.mk.injEq, true_and, and_true]
  omega

/-- Refutes O53: nothing in the statement keeps two virtual codewords of one unit from naming one physical codeword; bytes 0 and 64 of this
unit, 1 and 0, are both to stand at key 0. -/
theorem not_copyStepsMoveTheirUnits : ¬ Obligations.CopyStepsMoveTheirUnits := by
  intro h
  have hon : CpyOn aliasState 0 0 aliasCmd [] aliasRun := ⟨rfl, rfl, rfl, rfl, rfl, rfl, rfl, rfl⟩
  have hstream := (h.2 false false false false false false false 0 .loc .global 7 0 0 0 0 0 0 ⟨.always, some 1⟩ aliasState 0 aliasCmd []
    aliasRun (by decide) aliasState_awake aliasState_safe hon (by decide)).2.1 rfl (by decide) fun _ => aliasState_warm
  obtain ⟨t, -, -, -, hbytes⟩ := (((hstream.1 rfl).2 aliasFrom aliasState_reachFrom (by decide)).2 aliasTo aliasState_reachTo (by decide)).1 nofun
  have hone : memGet t.mem 0 = 1 := (hbytes 0 (by decide)).1.trans (by decide)
  have hzero : memGet t.mem 0 = 0 := (hbytes 64 (by decide)).1.trans (by decide)
  exact absurd (hone.symm.trans hzero) (by decide)

end Sys2Proof.Safety
end

section
/-! PROOFS. Words of a scratchpad: a word read after one is written, what an access of the plane engines leaves in a word (R220), and
that it touches nothing of a core but its waiters. -/

namespace Sys2Proof.Safety

open Sys2Proof.Machine

/-! ## A word read after a word is written -/

/-- A key at which a tagged word can stand. -/
def IsWord (k : ℕ) : Prop := k % 8 = 0 ∧ k < 2 ^ 51

theorem isWord_wordKey {c i : ℕ} (hc : c < 3072) (hi : i < 2 ^ 40) : IsWord (wordKey c i) := by
  unfold IsWord wordKey localKey
  omega

theorem wordKey_inj {c i j : ℕ} : wordKey c i = wordKey c j ↔ i = j := by
  unfold wordKey localKey
  omega

theorem getWord_putWord_self {m : List Host.Cell} (hm : Memory.wf m = true) {k : ℕ} (hk : IsWord k) (w : TWord) :
    getWord (putWord m k w) k = w := by
  obtain ⟨-, hlt⟩ := hk
  have hput := memPut_wf hm k w.d.toNat 8
  have hdata : memNat (putWord m k w) k 8 = memNat (memPut m k w.d.toNat 8) k 8 :=
    memNat_congr _ _ fun b _ hb => memGet_setTags_data hput _ _ _ _ (by unfold tagKey; omega)
  unfold getWord
  rw [hdata, memNat_memPut hm, putWord, keyF_setTags hput, keyX_setTags hput, if_pos rfl, if_pos rfl]
  have hd : BitVec.ofNat 64 (w.d.toNat % 256 ^ 8) = w.d := BitVec.eq_of_toNat_eq (by simpa using w.d.isLt)
  rw [hd]

theorem getWord_putWord_ne {m : List Host.Cell} (hm : Memory.wf m = true) {k j : ℕ} (hk : IsWord k) (hj : IsWord j) (hne : j ≠ k) (w : TWord) :
    getWord (putWord m k w) j = getWord m j := by
  obtain ⟨hk8, hk⟩ := hk
  obtain ⟨hj8, hj⟩ := hj
  have hput := memPut_wf hm k w.d.toNat 8
  have hdata : ∀ b < 2 ^ 51, b < k ∨ k + 8 ≤ b → memGet (putWord m k w) b = memGet m b := fun b hb hout => by
    rw [putWord, memGet_setTags_data hput _ _ _ _ (by unfold tagKey; omega), memGet_memPut_of_not_mem hm _ _ _ _ hout]
  have htag : memGet (memPut m k w.d.toNat 8) (tagKey j) = memGet m (tagKey j) :=
    memGet_memPut_of_not_mem hm _ _ _ _ (by unfold tagKey; omega)
  have hdiv : j / 8 ≠ k / 8 := by omega
  have hF : keyF (putWord m k w) j = keyF m j := by rw [putWord, keyF_setTags hput, if_neg hdiv, keyF, htag, ← keyF]
  have hX : keyX (putWord m k w) j = keyX m j := by rw [putWord, keyX_setTags hput, if_neg hdiv, keyX, htag, ← keyX]
  unfold getWord
  rw [hF, hX, memNat_congr j 8 fun b h1 h2 => hdata b (by omega) (by omega)]

theorem keyF_eq (m : List Host.Cell) (k : ℕ) : keyF m k = (getWord m k).f := rfl
theorem keyX_eq (m : List Host.Cell) (k : ℕ) : keyX m k = (getWord m k).x := rfl

/-! ## A row of accesses to words -/

/-- One access of an engine to a word: the bits it writes, and whether it leaves the word in error. -/
structure WordWrite where
  key : ℕ
  mask : ℕ
  v : ℕ
  bad : Bool := false

/-- What it makes of the word (R220). -/
def WordWrite.on (e : WordWrite) (w : TWord) : TWord :=
  if e.mask = 0 then w
  else ⟨BitVec.ofNat 64 ((w.d.toNat &&& (2 ^ 64 - 1 - e.mask)) ||| (e.v &&& e.mask)), true, e.bad || (e.mask != 2 ^ 64 - 1 && w.x)⟩
def WordWrite.mem (m : List Host.Cell) (e : WordWrite) : List Host.Cell :=
  if e.mask = 0 then m else putWord m e.key (e.on (getWord m e.key))

theorem WordWrite.mem_wf {m : List Host.Cell} (hm : Memory.wf m = true) (e : WordWrite) : Memory.wf (WordWrite.mem m e) = true := by
  unfold WordWrite.mem
  split
  · exact hm
  · exact putWord_wf hm _ _

theorem getWord_mem {m : List Host.Cell} (hm : Memory.wf m = true) (e : WordWrite) (he : IsWord e.key) {k : ℕ} (hk : IsWord k) :
    getWord (WordWrite.mem m e) k = if k = e.key then e.on (getWord m k) else getWord m k := by
  unfold WordWrite.mem
  split
  · next h0 => split <;> simp [WordWrite.on, h0]
  · split
    · next h => rw [h, getWord_putWord_self hm he]
    · next h => exact getWord_putWord_ne hm he hk h _

/-- Accesses one behind the other. -/
def writeAll (m : List Host.Cell) (l : List WordWrite) : List Host.Cell := l.foldl WordWrite.mem m

theorem writeAll_wf {m : List Host.Cell} (hm : Memory.wf m = true) (l : List WordWrite) : Memory.wf (writeAll m l) = true :=
  foldl_wf _ (fun _ _ h => WordWrite.mem_wf h _) l hm

/-- A word that none of them names stays. -/
theorem getWord_writeAll_of_not_mem {m : List Host.Cell} (hm : Memory.wf m = true) {l : List WordWrite} (hl : ∀ e ∈ l, IsWord e.key) {k : ℕ}
    (hk : IsWord k) (hnot : ∀ e ∈ l, e.key ≠ k) : getWord (writeAll m l) k = getWord m k := by
  induction l generalizing m with
  | nil => rfl
  | cons e l ih =>
    rw [writeAll, List.foldl_cons, ← writeAll, ih (WordWrite.mem_wf hm e) (fun e' h => hl e' (List.mem_cons_of_mem _ h))
      (fun e' h => hnot e' (List.mem_cons_of_mem _ h)), getWord_mem hm e (hl e List.mem_cons_self) hk, if_neg (hnot e List.mem_cons_self).symm]

/-- A word that one of them names is what it makes of the word. -/
theorem getWord_writeAll_of_mem {m : List Host.Cell} (hm : Memory.wf m = true) {l : List WordWrite} (hl : ∀ e ∈ l, IsWord e.key)
    (hnd : (l.map (·.key)).Nodup) {e : WordWrite} (he : e ∈ l) : getWord (writeAll m l) e.key = e.on (getWord m e.key) := by
  induction l generalizing m with
  | nil => simp at he
  | cons a l ih =>
    obtain ⟨hnot, hnd⟩ := List.nodup_cons.mp hnd
    have hl' : ∀ e ∈ l, IsWord e.key := fun e' h => hl e' (List.mem_cons_of_mem _ h)
    have ha := hl a List.mem_cons_self
    rw [writeAll, List.foldl_cons, ← writeAll]
    rcases List.mem_cons.mp he with rfl | he
    · rw [getWord_writeAll_of_not_mem (WordWrite.mem_wf hm _) hl' ha fun e' h heq => hnot (List.mem_map.mpr ⟨e', h, heq⟩), getWord_mem hm _ ha ha,
        if_pos rfl]
    · have hne : e.key ≠ a.key := fun h => hnot (List.mem_map.mpr ⟨e, he, h⟩)
      rw [ih (WordWrite.mem_wf hm a) hl' hnd he, getWord_mem hm a ha (hl' e he), if_neg hne]

/-! ## What else an engine's write touches -/

/-- From s to t core c has got status bits fl and changed its waiters; every bank is gated as it was. -/
structure Calm (s t : State) (c fl : ℕ) : Prop where
  own : ∃ w, t.core c = { s.core c with waiters := w, astat := (s.core c).astat ||| BitVec.ofNat 64 fl }
  cores : ∀ j, (t.core j).gated = (s.core j).gated
  dies : ∀ d, (t.die d).gated = (s.die d).gated

theorem or_zero_astat (a : BitVec 64) : a ||| BitVec.ofNat 64 0 = a := by simp

theorem Calm.refl (s : State) (c : ℕ) : Calm s s c 0 := ⟨⟨_, by rw [or_zero_astat]⟩, fun _ => rfl, fun _ => rfl⟩
theorem Calm.trans {s t u : State} {c f g : ℕ} (h : Calm s t c f) (k : Calm t u c g) : Calm s u c (f ||| g) := by
  obtain ⟨w, hw⟩ := h.own
  obtain ⟨w', hw'⟩ := k.own
  refine ⟨⟨w', ?_⟩, fun j => (k.cores j).trans (h.cores j), fun d => (k.dies d).trans (h.dies d)⟩
  rw [hw', hw]
  simp only [BitVec.or_assoc, BitVec.ofNat_or]
theorem Calm.awake {s t : State} {c fl : ℕ} (h : Calm s t c fl) (ha : Awake s) : Awake t := by
  intro key
  have := ha key
  unfold isGated at this ⊢
  split at this <;> simp_all [h.cores, h.dies]

theorem awake_eq {s : State} (h : Awake s) (key : ℕ) : awake s key = s := by
  unfold awake
  rw [if_neg (by rw [h key]; simp)]

theorem calm_setMem (s : State) (m : List Host.Cell) (c : ℕ) : Calm s (s.setMem m) c 0 := ⟨⟨_, by rw [or_zero_astat]; rfl⟩, fun _ => rfl, fun _ => rfl⟩

theorem core_modCore (s : State) (c j : ℕ) (f : Core → Core) : (s.modCore c f).core j = if j = c then f (s.core c) else s.core j := by
  split
  · next h => rw [h, State.core_modCore_self]
  · next h => exact State.core_modCore_ne s f h
theorem die_modDie (s : State) (c j : ℕ) (f : Die → Die) : (s.modDie c f).die j = if j = c then f (s.die c) else s.die j := by
  split
  · next h => rw [h, State.die_modDie_self]
  · next h => exact State.die_modDie_ne s f h

theorem calm_setHomeWaiters (s : State) (key : ℕ) (l : List Waiter) (c : ℕ) : Calm s (setHomeWaiters s key l) c 0 := by
  unfold setHomeWaiters
  split
  · refine ⟨?_, fun j => ?_, fun _ => rfl⟩
    · rw [core_modCore, or_zero_astat]
      split
      · next h => exact ⟨l, by rw [h]⟩
      · exact ⟨_, rfl⟩
    · rw [core_modCore]
      split
      · next h => rw [h]
      · rfl
  · refine ⟨⟨_, by rw [or_zero_astat]; rfl⟩, fun _ => rfl, fun d => ?_⟩
    rw [die_modDie]
    split
    · next h => rw [h]
    · rfl

theorem calm_foldl_send (l : List Packet) (s : State) (c : ℕ) : Calm s (l.foldl State.send s) c 0 ∧ (l.foldl State.send s).mem = s.mem := by
  induction l generalizing s with
  | nil => exact ⟨Calm.refl s c, rfl⟩
  | cons p l ih =>
    have hp : Calm s (s.send p) c 0 := ⟨⟨_, by rw [or_zero_astat]; rfl⟩, fun _ => rfl, fun _ => rfl⟩
    exact ⟨hp.trans (ih (s.send p)).1, (ih (s.send p)).2⟩

/-- A word that has become full wakes its waiters, and that is all. -/
theorem calm_becameFull (s : State) (key c : ℕ) : Calm s (becameFull s key) c 0 ∧ (becameFull s key).mem = s.mem := by
  unfold becameFull
  dsimp only
  split
  · exact ⟨Calm.refl s c, rfl⟩
  · generalize List.filterMap _ _ = l
    generalize toWake _ _ = ws
    have hmem : (setHomeWaiters s key l).mem = s.mem := by unfold setHomeWaiters; split <;> rfl
    have h := calm_foldl_send (ws.map fun w => Packet.wake ((homeDie key).getD 0) w.fp) (setHomeWaiters s key l) c
    rw [List.foldl_map] at h
    exact ⟨(calm_setHomeWaiters s key l c).trans h.1, h.2.trans hmem⟩

/-- An access of a plane engine, in an awake bank. -/
def WordWrite.run (s : State) (e : WordWrite) : State := planeWriteX s e.key e.mask e.v e.bad

theorem run_calm {s : State} (h : Awake s) (e : WordWrite) (c : ℕ) : Calm s (e.run s) c 0 ∧ (e.run s).mem = WordWrite.mem s.mem e := by
  unfold WordWrite.run planeWriteX WordWrite.mem
  split
  · exact ⟨Calm.refl s c, rfl⟩
  · next hmask =>
    rw [awake_eq h]
    have hset := calm_setMem s (putWord s.mem e.key (e.on (getWord s.mem e.key))) c
    simp only [WordWrite.on, if_neg hmask] at hset ⊢
    split
    · exact ⟨hset, rfl⟩
    · obtain ⟨hcalm, hmem⟩ := calm_becameFull (s.setMem (putWord s.mem e.key
        ⟨BitVec.ofNat 64 (((getWord s.mem e.key).d.toNat &&& (2 ^ 64 - 1 - e.mask)) ||| (e.v &&& e.mask)), true,
          e.bad || (e.mask != 2 ^ 64 - 1 && (getWord s.mem e.key).x)⟩)) e.key c
      exact ⟨hset.trans hcalm, hmem⟩

/-- A row of accesses runs. -/
theorem runAll_calm (l : List WordWrite) {s : State} (h : Awake s) (c : ℕ) :
    Calm s (l.foldl WordWrite.run s) c 0 ∧ (l.foldl WordWrite.run s).mem = writeAll s.mem l := by
  induction l generalizing s with
  | nil => exact ⟨Calm.refl s c, rfl⟩
  | cons e l ih =>
    obtain ⟨hcalm, hmem⟩ := run_calm h e c
    obtain ⟨hcalm', hmem'⟩ := ih (hcalm.awake h)
    exact ⟨hcalm.trans hcalm', hmem'.trans (by rw [hmem]; rfl)⟩

/-! ## Bits of a word written -/

/-- Bits of the mask come from the value, the others stay. -/
theorem testBit_merge {w v mask n : ℕ} (hm : mask < 2 ^ 64) (hn : n < 64) :
    ((w &&& (2 ^ 64 - 1 - mask)) ||| (v &&& mask)).testBit n = if mask.testBit n then v.testBit n else w.testBit n := by
  have hnot : (2 ^ 64 - 1 - mask).testBit n = !mask.testBit n := by
    rw [show 2 ^ 64 - 1 - mask = 2 ^ 64 - (mask + 1) by omega, Nat.testBit_two_pow_sub_succ hm]
    simp [hn]
  rw [Nat.testBit_or, Nat.testBit_and, Nat.testBit_and, hnot]
  cases mask.testBit n <;> simp

/-- The bits of a word behind an access. -/
theorem bit_on (e : WordWrite) (w : TWord) (hm : e.mask < 2 ^ 64) {n : ℕ} (hn : n < 64) :
    bit (e.on w).d.toNat n = if e.mask.testBit n then e.v.testBit n else bit w.d.toNat n := by
  unfold WordWrite.on
  split
  · next h => simp [h]
  · rw [bit_eq_testBit, bit_eq_testBit, BitVec.toNat_ofNat, Nat.testBit_mod_two_pow, testBit_merge hm hn]
    simp [hn]

end Sys2Proof.Safety
end

section
/-! PROOFS. Fields of a word: bits replaced, fields laid side by side, and the words that elements and group exponents of a plane set are
written to (R30 to R37, R220). -/

namespace Sys2Proof.Safety

open Sys2Proof.Machine

/-! ## Bits replaced -/

theorem setBits_eq (v lo n x : ℕ) : setBits v lo n x = 2 ^ (lo + n) * (v / 2 ^ (lo + n)) + (2 ^ lo * (x % 2 ^ n) + v % 2 ^ lo) := by
  have h1 : v = 2 ^ lo * (v / 2 ^ lo) + v % 2 ^ lo := (Nat.div_add_mod v _).symm
  have h2 : v / 2 ^ lo = 2 ^ n * (v / 2 ^ (lo + n)) + v / 2 ^ lo % 2 ^ n := by
    rw [pow_add, ← Nat.div_div_eq_div_mul]; exact (Nat.div_add_mod _ _).symm
  have h3 : v = 2 ^ (lo + n) * (v / 2 ^ (lo + n)) + (2 ^ lo * (v / 2 ^ lo % 2 ^ n) + v % 2 ^ lo) := by
    conv_lhs => rw [h1, h2]
    rw [pow_add]; ring
  unfold setBits
  rw [Nat.mul_comm (v / 2 ^ lo % 2 ^ n), Nat.mul_comm (x % 2 ^ n)]
  omega

theorem testBit_setBits (v lo n x i : ℕ) : (setBits v lo n x).testBit i = if lo ≤ i ∧ i < lo + n then x.testBit (i - lo) else v.testBit i := by
  have hlow : v % 2 ^ lo < 2 ^ lo := Nat.mod_lt _ (Nat.two_pow_pos _)
  have hmid : 2 ^ lo * (x % 2 ^ n) + v % 2 ^ lo < 2 ^ (lo + n) := by
    have := Nat.mul_le_mul_left (2 ^ lo) (Nat.succ_le_of_lt (Nat.mod_lt x (Nat.two_pow_pos n)))
    rw [Nat.mul_succ] at this
    rw [pow_add]; omega
  rw [setBits_eq, Nat.testBit_two_pow_mul_add _ hmid, Nat.testBit_two_pow_mul_add _ hlow, Nat.testBit_mod_two_pow, Nat.testBit_mod_two_pow,
    Nat.testBit_div_two_pow]
  by_cases h1 : i < lo
  · have h2 : i < lo + n := by omega
    have h3 : ¬ lo ≤ i := by omega
    simp [h1, h2, h3]
  · by_cases h2 : i < lo + n
    · have h3 : i - lo < n := by omega
      simp [h1, h2, h3, Nat.le_of_not_lt h1]
    · simp [h2, Nat.sub_add_cancel (Nat.le_of_not_lt h2)]

/-! ## Fields of n bits side by side -/

/-- Fields with their places, one behind the other. -/
def packFields (n : ℕ) (l : List (ℕ × ℕ)) : ℕ := l.foldl (fun v e => setBits v (n * e.1) n e.2) 0

theorem packFields_append (n : ℕ) (l : List (ℕ × ℕ)) (e : ℕ × ℕ) : packFields n (l ++ [e]) = setBits (packFields n l) (n * e.1) n e.2 := by
  simp [packFields]

theorem testBit_setBits_field {n i : ℕ} (hi : i < n) (v k j x : ℕ) :
    (setBits v (n * k) n x).testBit (n * j + i) = if j = k then x.testBit i else v.testBit (n * j + i) := by
  rw [testBit_setBits]
  by_cases h : j = k
  · subst h
    have h1 : n * j ≤ n * j + i ∧ n * j + i < n * j + n := by omega
    simp [h1]
  · have h1 : ¬ (n * k ≤ n * j + i ∧ n * j + i < n * k + n) := by
      rcases Nat.lt_or_gt_of_ne h with hlt | hlt
      · have : n * (j + 1) ≤ n * k := Nat.mul_le_mul_left n hlt
        rw [Nat.mul_add, Nat.mul_one] at this; omega
      · have : n * (k + 1) ≤ n * j := Nat.mul_le_mul_left n hlt
        rw [Nat.mul_add, Nat.mul_one] at this; omega
    rw [if_neg h1, if_neg h]

theorem testBit_packFields_of_not_mem {n i : ℕ} (hi : i < n) {l : List (ℕ × ℕ)} {k : ℕ} (h : ∀ e ∈ l, e.1 ≠ k) :
    (packFields n l).testBit (n * k + i) = false := by
  induction l using List.reverseRecOn with
  | nil => simp [packFields]
  | append_singleton l e ih =>
    rw [packFields_append, testBit_setBits_field hi, if_neg (h e (by simp)).symm, ih fun e' h' => h e' (by simp [h'])]

theorem testBit_packFields_of_mem {n i : ℕ} (hi : i < n) {l : List (ℕ × ℕ)} (hnd : (l.map (·.1)).Nodup) {e : ℕ × ℕ} (he : e ∈ l) :
    (packFields n l).testBit (n * e.1 + i) = e.2.testBit i := by
  induction l using List.reverseRecOn with
  | nil => simp at he
  | append_singleton l a ih =>
    rw [List.map_append, List.nodup_append] at hnd
    obtain ⟨hnd, -, hdis⟩ := hnd
    rw [packFields_append, testBit_setBits_field hi]
    rcases List.mem_append.mp he with he | he
    · rw [if_neg (hdis _ (List.mem_map_of_mem he) _ (by simp)), ih hnd he]
    · rw [List.mem_singleton.mp he, if_pos rfl]

/-- Fields at distinct places add up to the fields side by side. -/
theorem natSum_eq_packFields {n : ℕ} {l : List (ℕ × ℕ)} (hnd : (l.map (·.1)).Nodup) (hlt : ∀ e ∈ l, e.2 < 2 ^ n) :
    natSum (l.map fun e => e.2 * 2 ^ (n * e.1)) = packFields n l := by
  induction l using List.reverseRecOn with
  | nil => rfl
  | append_singleton l a ih =>
    rw [List.map_append, List.nodup_append] at hnd
    obtain ⟨hnd, -, hdis⟩ := hnd
    have hzero : packFields n l / 2 ^ (n * a.1) % 2 ^ n = 0 := by
      apply Nat.eq_of_testBit_eq
      intro i
      rw [Nat.testBit_mod_two_pow, Nat.testBit_div_two_pow, Nat.zero_testBit]
      by_cases hi : i < n
      · rw [Nat.add_comm i, testBit_packFields_of_not_mem hi fun e he => hdis _ (List.mem_map_of_mem he) _ (by simp), Bool.and_false]
      · simp [hi]
    rw [List.map_append, List.map_singleton, natSum_append_singleton, ih hnd fun e he => hlt e (by simp [he]), packFields_append, setBits, hzero,
      Nat.mod_eq_of_lt (hlt a (by simp))]
    simp

/-- The mask of some fields. -/
def maskFields (n : ℕ) (ks : List ℕ) : ℕ := ks.foldl (fun a k => a ||| (2 ^ n - 1) * 2 ^ (n * k)) 0

theorem testBit_maskFields {n i : ℕ} (hi : i < n) (ks : List ℕ) (k : ℕ) : (maskFields n ks).testBit (n * k + i) = decide (k ∈ ks) := by
  induction ks using List.reverseRecOn with
  | nil => simp [maskFields]
  | append_singleton ks a ih =>
    have happ : maskFields n (ks ++ [a]) = maskFields n ks ||| (2 ^ n - 1) * 2 ^ (n * a) := by simp [maskFields]
    have hone : ((2 ^ n - 1) * 2 ^ (n * a)).testBit (n * k + i) = decide (k = a) := by
      have h := testBit_setBits_field hi 0 a k (2 ^ n - 1)
      have hset : setBits 0 (n * a) n (2 ^ n - 1) = (2 ^ n - 1) * 2 ^ (n * a) := by
        rw [setBits, Nat.mod_eq_of_lt (show 2 ^ n - 1 < 2 ^ n by have := Nat.two_pow_pos n; omega)]; simp
      rw [hset, Nat.zero_testBit, Nat.testBit_two_pow_sub_one] at h
      rw [h]
      by_cases hk : k = a <;> simp [hk, hi]
    rw [happ, Nat.testBit_or, ih, hone]
    simp

theorem maskFields_lt {n K : ℕ} {ks : List ℕ} (h : ∀ k ∈ ks, k < K) : maskFields n ks < 2 ^ (n * K) := by
  induction ks using List.reverseRecOn with
  | nil => exact Nat.two_pow_pos _
  | append_singleton ks a ih =>
    have happ : maskFields n (ks ++ [a]) = maskFields n ks ||| (2 ^ n - 1) * 2 ^ (n * a) := by simp [maskFields]
    rw [happ]
    refine Nat.or_lt_two_pow (ih fun k hk => h k (by simp [hk])) ?_
    have ha : n * a + n ≤ n * K := by rw [← Nat.mul_succ]; exact Nat.mul_le_mul_left n (h a (by simp))
    calc (2 ^ n - 1) * 2 ^ (n * a) < 2 ^ n * 2 ^ (n * a) := by
          have := Nat.two_pow_pos n
          exact Nat.mul_lt_mul_of_pos_right (by omega) (Nat.two_pow_pos _)
      _ = 2 ^ (n * a + n) := by rw [pow_add, Nat.mul_comm]
      _ ≤ 2 ^ (n * K) := Nat.pow_le_pow_right (by omega) ha

/-! ## The distinct elements of a list -/

theorem distinct_append (l : List ℕ) (a : ℕ) : distinct (l ++ [a]) = if a ∈ distinct l then distinct l else distinct l ++ [a] := by
  simp [distinct]

theorem mem_distinct {l : List ℕ} {a : ℕ} : a ∈ distinct l ↔ a ∈ l := by
  induction l using List.reverseRecOn generalizing a with
  | nil => simp [distinct]
  | append_singleton l b ih =>
    rw [distinct_append]
    split
    · next h =>
      rw [List.mem_append, List.mem_singleton, ih, or_iff_left_of_imp]
      rintro rfl
      exact ih.mp h
    · rw [List.mem_append, List.mem_append, ih]

theorem nodup_distinct (l : List ℕ) : (distinct l).Nodup := by
  induction l using List.reverseRecOn with
  | nil => simp [distinct]
  | append_singleton l b ih =>
    rw [distinct_append]
    split
    · exact ih
    · next h => exact List.nodup_append.mpr ⟨ih, List.nodup_singleton _, fun a ha c hc => by rw [List.mem_singleton.mp hc]; rintro rfl; exact h ha⟩

/-! ## Elements written to a plane set, word by word -/

theorem laneBits_eq (l : List (ℕ × Bool)) : laneBits l = (maskFields 1 (l.map (·.1)), packFields 1 (l.map fun e => (e.1, bnat e.2))) := by
  induction l using List.reverseRecOn with
  | nil => rfl
  | append_singleton l e ih =>
    have happ : laneBits (l ++ [e]) = ((laneBits l).1 ||| 2 ^ e.1, setBits (laneBits l).2 e.1 1 (bnat e.2)) := by simp [laneBits]
    rw [happ, ih]
    simp [maskFields, packFields]

theorem fieldBits_eq (l : List (ℕ × ℤ)) (s : ℕ → ℕ) :
    l.foldl (fun (a : ℕ × ℕ) e => (a.1 ||| 255 * 2 ^ (8 * s e.1), setBits a.2 (8 * s e.1) 8 (Num.wrap e.2 8))) (0, 0) =
      (maskFields 8 (l.map fun e => s e.1), packFields 8 (l.map fun e => (s e.1, Num.wrap e.2 8))) := by
  induction l using List.reverseRecOn with
  | nil => rfl
  | append_singleton l e ih =>
    rw [List.foldl_append, ih]
    simp [maskFields, packFields]

/-- The lanes of word j that some elements lie in. -/
def wordLanes (els : List (ℕ × El)) (j : ℕ) : List (ℕ × El) := els.filter fun e => e.1 / 64 == j
/-- What is written to word j of a part. -/
def laneWrite (p : Machine.PSet) (b : ℕ) (els : List (ℕ × El)) (part j : ℕ) : WordWrite :=
  { key := p.key b part j
    mask := maskFields 1 ((wordLanes els j).map (·.1 % 64))
    v := packFields 1 ((wordLanes els j).map fun e => (e.1 % 64, bnat (p.partBit part e.2))) }
/-- The accesses that write elements to set b. -/
def putWrites (p : Machine.PSet) (b : ℕ) (els : List (ℕ × El)) : List WordWrite :=
  (List.range p.parts).flatMap fun part => (distinct (els.map (·.1 / 64))).map (laneWrite p b els part)

theorem put_eq (p : Machine.PSet) (s : State) (b : ℕ) (els : List (ℕ × El)) : p.put s b els = (putWrites p b els).foldl WordWrite.run s := by
  unfold PSet.put putWrites
  rw [List.foldl_flatMap]
  congr 1
  funext s part
  rw [List.foldl_map]
  congr 1
  funext s j
  rw [laneBits_eq, List.map_map, List.map_map]
  rfl

/-- What is written to word j of the group exponents. -/
def expWrite (p : Machine.PSet) (b : ℕ) (gs : List (ℕ × ℤ)) (j : ℕ) : WordWrite :=
  let here := gs.filter fun e => e.1 / 8 == j
  { key := p.key b p.parts j, mask := maskFields 8 (here.map (·.1 % 8)), v := packFields 8 (here.map fun e => (e.1 % 8, Num.wrap e.2 8)) }
def expWrites (p : Machine.PSet) (b : ℕ) (gs : List (ℕ × ℤ)) : List WordWrite := (distinct (gs.map (·.1 / 8))).map (expWrite p b gs)

theorem putExps_eq (p : Machine.PSet) (s : State) (b : ℕ) (gs : List (ℕ × ℤ)) : p.putExps s b gs = (expWrites p b gs).foldl WordWrite.run s := by
  unfold PSet.putExps expWrites
  rw [List.foldl_map]
  congr 1
  funext s j
  rw [fieldBits_eq _ (· % 8)]
  rfl

/-! ## What a set holds behind them -/

section
variable {p : Machine.PSet} {b : ℕ} {els : List (ℕ × El)} {gs : List (ℕ × ℤ)}

/-- A set of 2,048 lanes that lies in the scratchpad of a core. -/
structure InPad (p : Machine.PSet) (b : ℕ) : Prop where
  core : p.core < 3072
  unit : p.unit = 32
  room : p.base + (b + 1) * p.size ≤ 2 ^ 17
  scaled : p.g = true

theorem key_inj {part part' j j' : ℕ} (hj : j < p.unit) (hj' : j' < p.unit) :
    p.key b part j = p.key b part' j' ↔ part = part' ∧ j = j' := by
  unfold PSet.key
  rw [wordKey_inj]
  constructor
  · intro h
    have hsum : j + p.unit * part = j' + p.unit * part' := by rw [Nat.mul_comm, Nat.mul_comm p.unit part']; omega
    have hmod : j = j' := by
      have := congrArg (· % p.unit) hsum
      simpa [Nat.add_mul_mod_self_left, Nat.mod_eq_of_lt hj, Nat.mod_eq_of_lt hj'] using this
    subst hmod
    exact ⟨Nat.eq_of_mul_eq_mul_left (by omega : 0 < p.unit) (by omega), rfl⟩
  · rintro ⟨rfl, rfl⟩; rfl

theorem InPad.isWord (hp : InPad p b) {part j : ℕ} (hpart : part ≤ p.parts) (hj : j < 32) : IsWord (p.key b part j) := by
  have hroom := hp.room
  have hu := hp.unit
  have hb : (b + 1) * p.size = b * p.size + p.size := by ring
  have hsize : p.parts * p.unit ≤ p.size := Nat.le_add_right _ _
  have hpart' : part * p.unit ≤ p.parts * p.unit := Nat.mul_le_mul_right _ hpart
  exact isWord_wordKey hp.core (by omega)

/-- Elements and exponents to be written: every lane and every group once. -/
structure Written (els : List (ℕ × El)) (gs : List (ℕ × ℤ)) : Prop where
  lane : ∀ e ∈ els, e.1 < 2048
  group : ∀ e ∈ gs, e.1 < 64
  lanes : (els.map (·.1)).Nodup
  groups : (gs.map (·.1)).Nodup

theorem Written.word_lt (h : Written els gs) {j : ℕ} (hj : j ∈ distinct (els.map (·.1 / 64))) : j < 32 := by
  obtain ⟨e, he, rfl⟩ := List.mem_map.mp (mem_distinct.mp hj)
  have := h.lane e he
  omega
theorem Written.expWord_lt (h : Written els gs) {j : ℕ} (hj : j ∈ distinct (gs.map (·.1 / 8))) : j < 8 := by
  obtain ⟨e, he, rfl⟩ := List.mem_map.mp (mem_distinct.mp hj)
  have := h.group e he
  omega

/-- The accesses of both kinds. -/
def setWrites (p : Machine.PSet) (b : ℕ) (els : List (ℕ × El)) (gs : List (ℕ × ℤ)) : List WordWrite := putWrites p b els ++ expWrites p b gs

theorem mem_putWrites {e : WordWrite} : e ∈ putWrites p b els ↔ ∃ part < p.parts, ∃ j ∈ distinct (els.map (·.1 / 64)), e = laneWrite p b els part j := by
  simp only [putWrites, List.mem_flatMap, List.mem_range, List.mem_map]
  exact exists_congr fun part => and_congr_right fun _ => exists_congr fun j => and_congr_right fun _ => eq_comm
theorem mem_expWrites {e : WordWrite} : e ∈ expWrites p b gs ↔ ∃ j ∈ distinct (gs.map (·.1 / 8)), e = expWrite p b gs j := by
  simp only [expWrites, List.mem_map]
  exact exists_congr fun j => and_congr_right fun _ => eq_comm

theorem setWrites_isWord (hp : InPad p b) (h : Written els gs) : ∀ e ∈ setWrites p b els gs, IsWord e.key := by
  intro e he
  rcases List.mem_append.mp he with he | he
  · obtain ⟨part, hpart, j, hj, rfl⟩ := mem_putWrites.mp he
    exact hp.isWord hpart.le (h.word_lt hj)
  · obtain ⟨j, hj, rfl⟩ := mem_expWrites.mp he
    have := h.expWord_lt hj
    exact hp.isWord le_rfl (by omega)

theorem setWrites_nodup (hp : InPad p b) (h : Written els gs) : ((setWrites p b els gs).map (·.key)).Nodup := by
  have hu := hp.unit
  rw [setWrites, List.map_append, List.nodup_append]
  refine ⟨?_, ?_, ?_⟩
  · rw [putWrites, List.map_flatMap, List.nodup_flatMap]
    refine ⟨fun part _ => ?_, ?_⟩
    · rw [List.map_map]
      refine (nodup_distinct _).map_on fun j hj j' hj' heq => ?_
      have h1 := h.word_lt hj
      have h2 := h.word_lt hj'
      exact ((key_inj (by omega) (by omega)).mp heq).2
    · refine List.Pairwise.imp_of_mem (fun {x y} _ _ hne => ?_) List.nodup_range
      intro k hk hk'
      simp only [List.map_map, List.mem_map] at hk hk'
      obtain ⟨j, hj, rfl⟩ := hk
      obtain ⟨j', hj', heq⟩ := hk'
      have h1 := h.word_lt hj
      have h2 := h.word_lt hj'
      exact hne ((key_inj (p := p) (b := b) (by omega) (by omega)).mp heq).1.symm
  · rw [expWrites, List.map_map]
    refine (nodup_distinct _).map_on fun j hj j' hj' heq => ?_
    have h1 := h.expWord_lt hj
    have h2 := h.expWord_lt hj'
    exact ((key_inj (by omega) (by omega)).mp heq).2
  · intro k hk k' hk' heq
    subst heq
    obtain ⟨e, he, rfl⟩ := List.mem_map.mp hk
    obtain ⟨e', he', heq⟩ := List.mem_map.mp hk'
    obtain ⟨part, hpart, j, hj, rfl⟩ := mem_putWrites.mp he
    obtain ⟨j', hj', rfl⟩ := mem_expWrites.mp he'
    have h1 := h.word_lt hj
    have h2 := h.expWord_lt hj'
    have := ((key_inj (p := p) (b := b) (by omega) (by omega)).mp heq).1
    omega

variable {m : List Host.Cell}

theorem wordLanes_eq_nil {j : ℕ} (hj : j ∉ distinct (els.map (·.1 / 64))) : wordLanes els j = [] := by
  rw [wordLanes, List.filter_eq_nil_iff]
  intro e he heq
  exact hj (mem_distinct.mpr (List.mem_map.mpr ⟨e, he, by simpa using heq⟩))

/-- A word of a part behind the writes. -/
theorem getWord_setWrites (hm : Memory.wf m = true) (hp : InPad p b) (h : Written els gs) {part j : ℕ} (hpart : part < p.parts) (hj : j < 32) :
    getWord (writeAll m (setWrites p b els gs)) (p.key b part j) = (laneWrite p b els part j).on (getWord m (p.key b part j)) := by
  by_cases hin : j ∈ distinct (els.map (·.1 / 64))
  · have hmem : laneWrite p b els part j ∈ setWrites p b els gs := List.mem_append.mpr (.inl (mem_putWrites.mpr ⟨part, hpart, j, hin, rfl⟩))
    have hkey : (laneWrite p b els part j).key = p.key b part j := rfl
    rw [← hkey]
    exact getWord_writeAll_of_mem hm (setWrites_isWord hp h) (setWrites_nodup hp h) hmem
  · have hnone : (laneWrite p b els part j).on (getWord m (p.key b part j)) = getWord m (p.key b part j) := by
      have : (laneWrite p b els part j).mask = 0 := by rw [laneWrite, wordLanes_eq_nil hin]; rfl
      rw [WordWrite.on, if_pos this]
    have hu := hp.unit
    rw [hnone]
    refine getWord_writeAll_of_not_mem hm (setWrites_isWord hp h) (hp.isWord hpart.le hj) fun e he heq => ?_
    rcases List.mem_append.mp he with he | he
    · obtain ⟨part', hpart', j', hj', rfl⟩ := mem_putWrites.mp he
      have h1 := h.word_lt hj'
      exact hin (((key_inj (p := p) (b := b) (by omega) (by omega)).mp heq).2 ▸ hj')
    · obtain ⟨j', hj', rfl⟩ := mem_expWrites.mp he
      have h1 := h.expWord_lt hj'
      have := ((key_inj (p := p) (b := b) (by omega) (by omega)).mp heq).1
      omega

/-- A word of group exponents that is written. -/
theorem getWord_setWrites_exp (hm : Memory.wf m = true) (hp : InPad p b) (h : Written els gs) {j : ℕ} (hj : j ∈ distinct (gs.map (·.1 / 8))) :
    getWord (writeAll m (setWrites p b els gs)) (p.key b p.parts j) = (expWrite p b gs j).on (getWord m (p.key b p.parts j)) := by
  have hkey : (expWrite p b gs j).key = p.key b p.parts j := rfl
  rw [← hkey]
  exact getWord_writeAll_of_mem hm (setWrites_isWord hp h) (setWrites_nodup hp h) (List.mem_append.mpr (.inr (mem_expWrites.mpr ⟨j, hj, rfl⟩)))
/-- A word of group exponents that is not written. -/
theorem getWord_setWrites_exp_of_not_mem (hm : Memory.wf m = true) (hp : InPad p b) (h : Written els gs) {j : ℕ} (hj : j < 8)
    (hnot : j ∉ distinct (gs.map (·.1 / 8))) : getWord (writeAll m (setWrites p b els gs)) (p.key b p.parts j) = getWord m (p.key b p.parts j) := by
  have hu := hp.unit
  refine getWord_writeAll_of_not_mem hm (setWrites_isWord hp h) (hp.isWord le_rfl (by omega)) fun e he heq => ?_
  rcases List.mem_append.mp he with he | he
  · obtain ⟨part', hpart', j', hj', rfl⟩ := mem_putWrites.mp he
    have h1 := h.word_lt hj'
    have := ((key_inj (p := p) (b := b) (by omega) (by omega)).mp heq).1
    omega
  · obtain ⟨j', hj', rfl⟩ := mem_expWrites.mp he
    have h1 := h.expWord_lt hj'
    exact hnot (((key_inj (p := p) (b := b) (by omega) (by omega)).mp heq).2 ▸ hj')

theorem mem_wordLanes {j : ℕ} {e : ℕ × El} : e ∈ wordLanes els j ↔ e ∈ els ∧ e.1 / 64 = j := by simp [wordLanes]

theorem wordLanes_nodup (h : Written els gs) (j : ℕ) : ((wordLanes els j).map (·.1 % 64)).Nodup := by
  have hnd : ((wordLanes els j).map (·.1)).Nodup := h.lanes.sublist (List.filter_sublist.map _)
  rw [show (fun e : ℕ × El => e.1 % 64) = (· % 64) ∘ (·.1) from rfl, ← List.map_map]
  refine hnd.map_on fun a ha a' ha' heq => ?_
  obtain ⟨e, he, rfl⟩ := List.mem_map.mp ha
  obtain ⟨e', he', rfl⟩ := List.mem_map.mp ha'
  have h1 := (mem_wordLanes.mp he).2
  have h2 := (mem_wordLanes.mp he').2
  omega

theorem testBit_laneMask {n : ℕ} (part j : ℕ) : (laneWrite p b els part j).mask.testBit n = decide (n ∈ (wordLanes els j).map (·.1 % 64)) := by
  have := testBit_maskFields (n := 1) (i := 0) (by omega) ((wordLanes els j).map (·.1 % 64)) n
  simpa [laneWrite] using this
theorem laneMask_lt (part j : ℕ) : (laneWrite p b els part j).mask < 2 ^ 64 := by
  refine maskFields_lt (n := 1) (K := 64) fun k hk => ?_
  obtain ⟨e, -, rfl⟩ := List.mem_map.mp hk
  exact Nat.mod_lt _ (by omega)
theorem expMask_lt (j : ℕ) : (expWrite p b gs j).mask < 2 ^ 64 := by
  refine maskFields_lt (n := 8) (K := 8) fun k hk => ?_
  obtain ⟨e, -, rfl⟩ := List.mem_map.mp hk
  exact Nat.mod_lt _ (by omega)

/-- A bit of an element that is written. -/
theorem bitAt_of_mem (hm : Memory.wf m = true) (hp : InPad p b) (h : Written els gs) {part : ℕ} (hpart : part < p.parts) {e : ℕ × El} (he : e ∈ els) :
    p.bitAt (writeAll m (setWrites p b els gs)) b part e.1 = p.partBit part e.2 := by
  have hlane := h.lane e he
  have hmem : e ∈ wordLanes els (e.1 / 64) := mem_wordLanes.mpr ⟨he, rfl⟩
  have hin : e.1 % 64 ∈ (wordLanes els (e.1 / 64)).map (·.1 % 64) := List.mem_map_of_mem (f := fun e : ℕ × El => e.1 % 64) hmem
  have hval := testBit_packFields_of_mem (n := 1) (i := 0) (by omega)
    (l := (wordLanes els (e.1 / 64)).map fun e => (e.1 % 64, bnat (p.partBit part e.2)))
    (by rw [List.map_map]; exact wordLanes_nodup h _) (List.mem_map_of_mem (f := fun e : ℕ × El => (e.1 % 64, bnat (p.partBit part e.2))) hmem)
  unfold PSet.bitAt
  rw [getWord_setWrites hm hp h hpart (by omega), bit_on _ _ (laneMask_lt _ _) (Nat.mod_lt _ (by omega)), testBit_laneMask, decide_eq_true hin, if_pos rfl]
  rw [one_mul, Nat.add_zero] at hval
  rw [show (laneWrite p b els part (e.1 / 64)).v.testBit (e.1 % 64) = (bnat (p.partBit part e.2)).testBit 0 from hval]
  cases p.partBit part e.2 <;> rfl

/-- A lane that is not written keeps its bits, and its word keeps X (R220). -/
theorem bitAt_of_not_mem (hm : Memory.wf m = true) (hp : InPad p b) (h : Written els gs) {part l : ℕ} (hpart : part < p.parts) (hl : l < 2048)
    (hnot : l ∉ els.map (·.1)) :
    p.bitAt (writeAll m (setWrites p b els gs)) b part l = p.bitAt m b part l ∧
      keyX (writeAll m (setWrites p b els gs)) (p.key b part (l / 64)) = keyX m (p.key b part (l / 64)) := by
  have hbit : (laneWrite p b els part (l / 64)).mask.testBit (l % 64) = false := by
    rw [testBit_laneMask, decide_eq_false_iff_not]
    intro hin
    obtain ⟨e, he, heq⟩ := List.mem_map.mp hin
    obtain ⟨he, hdiv⟩ := mem_wordLanes.mp he
    exact hnot (List.mem_map.mpr ⟨e, he, by omega⟩)
  have hpart' := getWord_setWrites hm hp h hpart (j := l / 64) (by omega)
  constructor
  · unfold PSet.bitAt
    rw [hpart', bit_on _ _ (laneMask_lt _ _) (Nat.mod_lt _ (by omega)), hbit, if_neg (by decide)]
  · rw [keyX_eq, hpart', keyX_eq, WordWrite.on]
    have hfull : (laneWrite p b els part (l / 64)).mask ≠ 2 ^ 64 - 1 := fun heq => by
      rw [heq, Nat.testBit_two_pow_sub_one, decide_eq_true (Nat.mod_lt l (by omega))] at hbit
      exact absurd hbit (by decide)
    split
    · rfl
    · simp [laneWrite] at hfull ⊢
      simp [hfull]

/-- No write leaves a word in error that was not. -/
theorem keyX_on {e : WordWrite} {w : TWord} (hbad : e.bad = false) (hx : (e.on w).x = true) : w.x = true := by
  unfold WordWrite.on at hx
  split at hx
  · exact hx
  · simp only [hbad, Bool.false_or, Bool.and_eq_true] at hx
    exact hx.2

theorem spoilt_of_spoilt (hm : Memory.wf m = true) (hp : InPad p b) (h : Written els gs) {l : ℕ} (hl : l < 2048)
    (hs : p.spoilt (writeAll m (setWrites p b els gs)) b l = true) : p.spoilt m b l = true := by
  unfold PSet.spoilt at hs ⊢
  simp only [Bool.or_eq_true, List.any_eq_true, List.mem_range, Bool.and_eq_true] at hs ⊢
  rcases hs with ⟨part, hpart, hx⟩ | ⟨hg, hx⟩
  · refine .inl ⟨part, hpart, ?_⟩
    rw [keyX_eq, getWord_setWrites hm hp h hpart (by omega)] at hx
    exact keyX_on rfl hx
  · refine .inr ⟨hg, ?_⟩
    by_cases hin : l / 256 ∈ distinct (gs.map (·.1 / 8))
    · rw [keyX_eq, getWord_setWrites_exp hm hp h hin] at hx
      exact keyX_on rfl hx
    · rwa [keyX_eq, getWord_setWrites_exp_of_not_mem hm hp h (by omega) hin, ← keyX_eq] at hx

theorem keyF_of_mem (hm : Memory.wf m = true) (hp : InPad p b) (h : Written els gs) {part : ℕ} (hpart : part < p.parts) {e : ℕ × El} (he : e ∈ els) :
    keyF (writeAll m (setWrites p b els gs)) (p.key b part (e.1 / 64)) = true := by
  have hlane := h.lane e he
  have hin : e.1 % 64 ∈ (wordLanes els (e.1 / 64)).map (·.1 % 64) :=
    List.mem_map_of_mem (f := fun e : ℕ × El => e.1 % 64) (mem_wordLanes.mpr ⟨he, rfl⟩)
  have hmask : (laneWrite p b els part (e.1 / 64)).mask ≠ 0 := fun h0 => by
    have := testBit_laneMask (p := p) (b := b) (els := els) (n := e.1 % 64) part (e.1 / 64)
    rw [h0, decide_eq_true hin] at this
    simp at this
  rw [keyF_eq, getWord_setWrites hm hp h hpart (by omega), WordWrite.on, if_neg hmask]

/-- The exponent of a group that is written (R37). -/
theorem exp_of_mem (hm : Memory.wf m = true) (hp : InPad p b) (h : Written els gs) {e : ℕ × ℤ} (he : e ∈ gs) :
    p.exp (writeAll m (setWrites p b els gs)) b (32 * e.1) = Num.asS (Num.wrap e.2 8) 8 := by
  have hgroup := h.group e he
  have hword : e.1 / 8 ∈ distinct (gs.map (·.1 / 8)) := mem_distinct.mpr (List.mem_map_of_mem (f := fun e : ℕ × ℤ => e.1 / 8) he)
  have hmem : e ∈ gs.filter fun e' => e'.1 / 8 == e.1 / 8 := by simp [he]
  have hnd : ((gs.filter fun e' => e'.1 / 8 == e.1 / 8).map (·.1 % 8)).Nodup := by
    have hnd' : ((gs.filter fun e' => e'.1 / 8 == e.1 / 8).map (·.1)).Nodup := h.groups.sublist (List.filter_sublist.map _)
    rw [show (fun e : ℕ × ℤ => e.1 % 8) = (· % 8) ∘ (·.1) from rfl, ← List.map_map]
    refine hnd'.map_on fun a ha a' ha' heq => ?_
    obtain ⟨x, hx, rfl⟩ := List.mem_map.mp ha
    obtain ⟨y, hy, rfl⟩ := List.mem_map.mp ha'
    have h1 : x.1 / 8 = e.1 / 8 := by simpa using (List.mem_filter.mp hx).2
    have h2 : y.1 / 8 = e.1 / 8 := by simpa using (List.mem_filter.mp hy).2
    omega
  have hbyte : ∀ i < 8, bit ((expWrite p b gs (e.1 / 8)).on (getWord m (p.key b p.parts (e.1 / 8)))).d.toNat (8 * (e.1 % 8) + i) =
      (Num.wrap e.2 8).testBit i := by
    intro i hi
    have hin : e.1 % 8 ∈ (gs.filter fun e' => e'.1 / 8 == e.1 / 8).map (·.1 % 8) := List.mem_map_of_mem (f := fun e : ℕ × ℤ => e.1 % 8) hmem
    rw [bit_on _ _ (expMask_lt _) (by omega), expWrite, testBit_maskFields hi, decide_eq_true hin, if_pos rfl]
    exact testBit_packFields_of_mem hi (l := (gs.filter fun e' => e'.1 / 8 == e.1 / 8).map fun e => (e.1 % 8, Num.wrap e.2 8))
      (by rw [List.map_map]; exact hnd) (List.mem_map_of_mem (f := fun e : ℕ × ℤ => (e.1 % 8, Num.wrap e.2 8)) hmem)
  have hdiv : 32 * e.1 / 256 = e.1 / 8 := by omega
  have hmod : 32 * e.1 / 32 % 8 = e.1 % 8 := by omega
  unfold PSet.exp
  rw [if_pos hp.scaled, hdiv, hmod, getWord_setWrites_exp hm hp h hword]
  congr 1
  apply Nat.eq_of_testBit_eq
  intro i
  rw [show (256 : ℕ) = 2 ^ 8 by rfl, ← pow_mul, Nat.testBit_mod_two_pow, Nat.testBit_div_two_pow]
  by_cases hi : i < 8
  · rw [decide_eq_true hi, Bool.true_and, Nat.add_comm i, ← bit_eq_testBit, hbyte i hi]
  · have hlt : Num.wrap e.2 8 < 2 ^ i := by
      refine lt_of_lt_of_le ?_ (Nat.pow_le_pow_right (by omega) (Nat.le_of_not_lt hi))
      rw [wrap_eq_toNat]
      exact BitVec.isLt _
    rw [decide_eq_false hi, Bool.false_and, Nat.testBit_lt_two_pow hlt]

end

end Sys2Proof.Safety
end

section
/-! PROOFS. The numbers of the matrix engine: a cell rounded (R50, R51), a group aligned (R41), a cell released in a packed format (R53). -/

namespace Sys2Proof.Safety

open Sys2Proof.Machine

/-! ## Lists read by place -/

theorem nth?_eq {α : Type} (l : List α) (n : ℕ) : nth? l n = l[n]? := by
  induction l generalizing n with
  | nil => rfl
  | cons a l ih => cases n <;> simp [nth?, ih]

theorem nthD_eq {α : Type} (l : List α) (n : ℕ) (d : α) : nthD l n d = l[n]?.getD d := by
  rw [nthD, nth?_eq]
  cases l[n]? <;> rfl

theorem nthD_of_lt {α : Type} {l : List α} {n : ℕ} (h : n < l.length) (d : α) : nthD l n d = l[n] := by
  rw [nthD_eq, List.getElem?_eq_getElem h, Option.getD_some]

theorem nthD_map_range {α : Type} (f : ℕ → α) {n k : ℕ} (h : k < n) (d : α) : nthD ((List.range n).map f) k d = f k := by
  rw [nthD_of_lt (by simpa using h), List.getElem_map, List.getElem_range]

/-! ## Nearest integers -/

theorem Nearest.unique {q : ℚ} {y z : ℤ} (h : Nearest q y) (h' : Nearest q z) : y = z :=
  NearR.unique ((nearR_cast q z).mpr h') ((nearR_cast q y).mpr h)

theorem intLog_mul_zpow {n : ℕ} (hn : n ≠ 0) (k : ℤ) : Int.log 2 ((n : ℚ) * 2 ^ k) = Nat.log2 n + k := by
  have hpos : (0 : ℚ) < n * 2 ^ k := by positivity
  have hlo : (2 ^ Nat.log2 n : ℕ) ≤ n := Nat.log2_self_le hn
  have hhi : n < 2 ^ (Nat.log2 n + 1) := Nat.lt_log2_self
  have hsplit : ∀ l : ℕ, (2 : ℚ) ^ ((l : ℤ) + k) = (2 ^ l : ℕ) * 2 ^ k := fun l => by
    rw [zpow_add₀ two_ne_zero, zpow_natCast]; push_cast; rfl
  have hle : (2 : ℚ) ^ ((Nat.log2 n : ℤ) + k) ≤ n * 2 ^ k := by
    rw [hsplit]; exact mul_le_mul_of_nonneg_right (by exact_mod_cast hlo) (by positivity)
  have hlt : (n : ℚ) * 2 ^ k < 2 ^ (((Nat.log2 n + 1 : ℕ) : ℤ) + k) := by
    rw [hsplit]; exact mul_lt_mul_of_pos_right (by exact_mod_cast hhi) (by positivity)
  have h1 := (Int.zpow_le_iff_le_log (b := 2) (by norm_num) hpos).mp hle
  have h2 := (Int.lt_zpow_iff_log_lt (b := 2) (by norm_num) hpos).mp hlt
  push_cast at h2
  omega

/-- The magnitude of a signed dyadic number in units of another power of two. -/
theorem abs_div_zpow (s : ℤ) (k e : ℤ) : |(s : ℚ) * 2 ^ k| / 2 ^ e = (s.natAbs : ℚ) * 2 ^ (k - e) := by
  rw [abs_mul, abs_of_pos (by positivity : (0 : ℚ) < 2 ^ k), zpow_sub₀ two_ne_zero, Nat.cast_natAbs, Int.cast_abs, mul_div_assoc]

/-! ## A cell -/

theorem acc48_norm (err : Bool) (s k : ℤ) : let o := Num.Acc.norm err s k
    Acc48 ((s : ℚ) * 2 ^ k) ⟨o.1.m, o.1.x, o.1.err⟩ o.2.1 o.2.2 ∧ o.1.err = err := by
  have hpow : (2 : ℚ) ^ k ≠ 0 := by positivity
  intro o
  by_cases hs : s = 0
  · have ho : o = (⟨0, 0, err⟩, false, false) := if_pos hs
    refine ⟨⟨fun _ => by rw [ho]; exact ⟨rfl, rfl, rfl, rfl⟩, fun h => absurd (by simp [hs]) h⟩, by rw [ho]⟩
  · have hne : s.natAbs ≠ 0 := Int.natAbs_ne_zero.mpr hs
    have hlog : Int.log 2 |(s : ℚ) * 2 ^ k| = Nat.log2 s.natAbs + k := by
      rw [← intLog_mul_zpow hne k, abs_mul, abs_of_pos (by positivity : (0 : ℚ) < 2 ^ k), Nat.cast_natAbs, Int.cast_abs]
    have hneg : (s : ℚ) * 2 ^ k < 0 ↔ s < 0 := by
      have hp : (0 : ℚ) < 2 ^ k := by positivity
      rw [← Int.cast_lt_zero (R := ℚ)]
      exact ⟨fun h => by_contra fun h0 => absurd (mul_nonneg (not_lt.mp h0) hp.le) (not_le.mpr h), fun h => mul_neg_of_neg_of_pos h hp⟩
    have hnear : Nearest (|(s : ℚ) * 2 ^ k| / 2 ^ (Int.log 2 |(s : ℚ) * 2 ^ k| - 46)) (Num.rneAt s.natAbs (k - (Nat.log2 s.natAbs + k - 46))) := by
      rw [hlog, abs_div_zpow]; exact nearest_rneAt _ _
    have herr : o.1.err = err := by
      change (Num.Acc.norm err s k).1.err = err
      unfold Num.Acc.norm
      rw [if_neg hs]
      dsimp only
      split_ifs <;> rfl
    refine ⟨⟨fun h => absurd h (by simp [hs, hpow]), fun _ => ⟨_, hnear, ?_⟩⟩, herr⟩
    change (Num.Acc.norm err s k).1.m = _ ∧ (Num.Acc.norm err s k).1.x = _ ∧ ((Num.Acc.norm err s k).2.1 = true ↔ _) ∧ ((Num.Acc.norm err s k).2.2 = true ↔ _)
    rw [hlog]
    simp only [hneg]
    unfold Num.Acc.norm
    rw [if_neg hs]
    dsimp only
    generalize Num.rneAt s.natAbs (k - (↑s.natAbs.log2 + k - 46)) = y
    have hy : ((y : ℤ) = 2 ^ 47) ↔ y = 2 ^ 47 := by norm_cast
    simp only [hy]
    by_cases hc : y = 2 ^ 47 <;> simp only [hc, if_true, if_false] <;> split_ifs <;> simp_all <;> omega

theorem zpow_split {a k : ℤ} (h : k ≤ a) : (2 : ℚ) ^ a = ((2 ^ (a - k).toNat : ℕ) : ℤ) * 2 ^ k := by
  push_cast
  rw [← zpow_natCast, Int.toNat_of_nonneg (by omega), ← zpow_add₀ two_ne_zero, sub_add_cancel]

/-- A product added to a cell, rounded once (R51). -/
theorem acc48_cellAdd (a : ACell) (q e : ℤ) : ∃ sat flush, Acc48 (accNum a + q * (2 : ℚ) ^ e) (cellAdd a q e).1 sat flush ∧
    (cellAdd a q e).1.err = a.err ∧ (cellAdd a q e).2 = (if sat then flAccSat else 0) + if flush then flAccFlush else 0 := by
  obtain ⟨h, herr⟩ := acc48_norm a.err (a.m * (2 ^ (a.x - min a.x e).toNat : ℕ) + q * (2 ^ (e - min a.x e).toNat : ℕ)) (min a.x e)
  have hsum : accNum a + q * (2 : ℚ) ^ e =
      ((a.m * (2 ^ (a.x - min a.x e).toNat : ℕ) + q * (2 ^ (e - min a.x e).toNat : ℕ) : ℤ) : ℚ) * 2 ^ min a.x e := by
    rw [accNum, zpow_split (min_le_left a.x e), zpow_split (min_le_right a.x e)]
    push_cast
    ring
  exact ⟨_, _, hsum ▸ h, herr, rfl⟩

/-- A cell's value times 2^f (R265). -/
theorem flNum_value (a : ACell) (f : ℤ) : flNum ((⟨a.m, a.x, a.err⟩ : Num.Acc).value f) = accNum a * (2 : ℚ) ^ f := by
  rw [Num.Acc.value, flNum_ofSigned, accNum, zpow_add₀ two_ne_zero, mul_assoc]

/-! ## A group aligned -/

theorem abs_flNum (x : Num.Fl) : |flNum x| = (x.m : ℚ) * 2 ^ x.e := by
  have hm : (0 : ℚ) ≤ x.m * 2 ^ x.e := by positivity
  unfold flNum
  cases x.neg
  · simp
  · simp only [if_true, neg_mul, one_mul, abs_neg]; exact abs_of_nonneg hm

theorem flNum_abs (x : Num.Fl) : flNum x.abs = |flNum x| := by
  rw [abs_flNum]; simp [flNum, Num.Fl.abs]

theorem lt_iff_flNum (a b : Num.Fl) : a.lt b = true ↔ flNum a < flNum b := by
  rw [flNum_eq_at a (min_le_left a.e b.e), flNum_eq_at b (min_le_right a.e b.e), mul_lt_mul_iff_left₀ (by positivity), Int.cast_lt]
  simp [Num.Fl.lt, Num.Fl.cmp, compare_lt_iff_lt]

/-- The largest magnitude of a group, as `align` finds it. -/
def alignMax (vs : List (Option Num.Fl)) : Num.Fl :=
  vs.foldl (fun (a : Num.Fl) v => match v with | some x => if a.lt x.abs then x.abs else a | none => a) ⟨false, 0, 0⟩

theorem alignMax_append (vs : List (Option Num.Fl)) (v : Option Num.Fl) : alignMax (vs ++ [v]) =
    match v with | some x => if (alignMax vs).lt x.abs then x.abs else alignMax vs | none => alignMax vs := by
  rw [alignMax, List.foldl_append]
  cases v <;> rfl

theorem alignMax_spec (vs : List (Option Num.Fl)) :
    (∀ x, some x ∈ vs → |flNum x| ≤ flNum (alignMax vs)) ∧ ((alignMax vs).m = 0 ∨ ∃ x, some x ∈ vs ∧ alignMax vs = x.abs) := by
  induction vs using List.reverseRecOn with
  | nil => exact ⟨fun x h => by simp at h, .inl rfl⟩
  | append_singleton vs v ih =>
    obtain ⟨hle, hat⟩ := ih
    have hat' : (alignMax vs).m = 0 ∨ ∃ x, some x ∈ vs ++ [v] ∧ alignMax vs = x.abs :=
      hat.imp_right fun ⟨x, hx, he⟩ => ⟨x, List.mem_append_left _ hx, he⟩
    rw [alignMax_append]
    cases v with
    | none => exact ⟨fun x h => hle x (by simpa using h), hat'⟩
    | some y =>
      dsimp only
      split
      · next hlt =>
        rw [lt_iff_flNum, flNum_abs] at hlt
        refine ⟨fun x h => ?_, .inr ⟨y, by simp, rfl⟩⟩
        rw [flNum_abs]
        rcases List.mem_append.mp h with h | h
        · exact (hle x h).trans hlt.le
        · rw [List.mem_singleton, Option.some.injEq] at h; rw [h]
      · next hge =>
        rw [lt_iff_flNum, flNum_abs, not_lt] at hge
        refine ⟨fun x h => ?_, hat'⟩
        rcases List.mem_append.mp h with h | h
        · exact hle x h
        · rw [List.mem_singleton, Option.some.injEq] at h; rw [h]; exact hge

theorem align_e (vs : List (Option Num.Fl)) (W : ℕ) : (Num.align vs W).e =
    max (-128) (min 127 (if (alignMax vs).m = 0 then 0 else (Nat.log2 (alignMax vs).m : ℤ) + (alignMax vs).e - ((W : ℤ) - 1))) := rfl
theorem align_els (vs : List (Option Num.Fl)) (W : ℕ) : (Num.align vs W).els =
    vs.map fun v => v.map fun x => (x.neg, min (Num.rneAt x.m (x.e - (Num.align vs W).e)) (2 ^ W - 1)) := by
  unfold Num.align
  simp only [List.map_map]
  congr 1
  funext v
  cases v <;> rfl
theorem align_nsat_pos (vs : List (Option Num.Fl)) (W : ℕ) : 0 < (Num.align vs W).nsat ↔
    ∃ x, some x ∈ vs ∧ 2 ^ W - 1 < Num.rneAt x.m (x.e - (Num.align vs W).e) := by
  unfold Num.align
  simp only [List.length_pos_iff, ne_eq, List.filter_eq_nil_iff, not_forall, List.mem_map]
  constructor
  · rintro ⟨v, ⟨u, hu, rfl⟩, h⟩
    cases u with
    | none => simp at h
    | some x => exact ⟨x, hu, by simpa using h⟩
  · rintro ⟨x, hx, h⟩
    exact ⟨_, ⟨some x, hx, rfl⟩, by simpa using h⟩

theorem nearest_align (x : Num.Fl) (e : ℤ) : Nearest (|flNum x| / (2 : ℚ) ^ e) (Num.rneAt x.m (x.e - e)) := by
  rw [abs_flNum, mul_div_assoc, ← zpow_sub₀ two_ne_zero]
  exact nearest_rneAt _ _

/-- A group is aligned (R41). -/
theorem align_alignsTo (vs : List (Option Num.Fl)) (W : ℕ) :
    AlignsTo W (vs.map fun v => v.map flNum) (Num.align vs W).e ((Num.align vs W).els.map fun v => v.map elInt) (decide (0 < (Num.align vs W).nsat)) := by
  obtain ⟨hle, hat⟩ := alignMax_spec vs
  have hval : ∀ q, some q ∈ (vs.map fun v => v.map flNum) ↔ ∃ x, some x ∈ vs ∧ flNum x = q := fun q => by
    simp only [List.mem_map, Option.map_eq_some_iff]
    exact ⟨fun ⟨_, hv, x, hx, hq⟩ => ⟨x, hx ▸ hv, hq⟩, fun ⟨x, hx, hq⟩ => ⟨_, hx, x, rfl, hq⟩⟩
  have htop : ((2 ^ W - 1 : ℕ) : ℤ) = 2 ^ W - 1 := by have := Nat.one_le_two_pow (n := W); push_cast [Nat.cast_sub this]; rfl
  refine ⟨fun h => ?_, fun m hm hm0 hmax => ?_, by rw [align_els]; simp, fun k hk => ?_, ?_⟩
  · have hz : (alignMax vs).m = 0 := hat.elim id fun ⟨x, hx, he⟩ => by
      rw [he]; exact (flNum_eq_zero_iff x).mp (h _ ((hval _).mpr ⟨x, hx, rfl⟩))
    rw [align_e, if_pos hz]; rfl
  · obtain ⟨x, hx, rfl⟩ := (hval m).mp hm
    have hpos : 0 < flNum (alignMax vs) := lt_of_lt_of_le (abs_pos.mpr hm0) (hle x hx)
    have hne : (alignMax vs).m ≠ 0 := ((flNum_pos_iff _).mp hpos).2
    have heq : |flNum x| = ((alignMax vs).m : ℚ) * 2 ^ (alignMax vs).e := by
      obtain h0 | ⟨y, hy, he⟩ := hat
      · exact absurd h0 hne
      · rw [← abs_flNum (alignMax vs), he, flNum_abs, abs_abs]
        exact le_antisymm (by simpa [he, flNum_abs] using hle x hx) (hmax _ ((hval _).mpr ⟨y, hy, rfl⟩))
    rw [align_e, if_neg hne, heq, intLog_mul_zpow hne]
  · rw [List.length_map] at hk
    rw [nthD_of_lt (by simpa using hk), nthD_of_lt (by rw [align_els]; simpa using hk)]
    simp only [align_els, List.getElem_map]
    cases vs[k] with
    | none => trivial
    | some x =>
      refine ⟨_, nearest_align x _, ?_⟩
      generalize (Num.align vs W).e = e
      simp only [elInt, ← htop]
      by_cases hn : flNum x < 0
      · rw [if_pos ((flNum_neg_iff x).mp hn).1, if_pos hn]; push_cast; ring
      · rw [if_neg hn, one_mul]
        by_cases hneg : x.neg = true
        · have hm0 : x.m = 0 := by by_contra h0; exact hn ((flNum_neg_iff x).mpr ⟨hneg, h0⟩)
          have hr : Num.rneAt 0 (x.e - e) = 0 := by
            unfold Num.rneAt Num.rne
            split <;> simp
          rw [if_pos hneg, hm0, hr, Nat.zero_min, min_eq_left (show ((0 : ℕ) : ℤ) ≤ ((2 ^ W - 1 : ℕ) : ℤ) from Int.natCast_nonneg _)]; rfl
        · rw [if_neg hneg]; push_cast; rfl
  · rw [decide_eq_true_eq, align_nsat_pos]
    constructor
    · rintro ⟨x, hx, h⟩
      exact ⟨flNum x, (hval _).mpr ⟨x, hx, rfl⟩, _, nearest_align x _, by rw [← htop]; exact_mod_cast h⟩
    · rintro ⟨q, hq, y, hy, h⟩
      obtain ⟨x, hx, rfl⟩ := (hval q).mp hq
      rw [hy.unique (nearest_align x _), ← htop] at h
      exact ⟨x, hx, by exact_mod_cast h⟩

/-! ## A cell released in a packed format -/

theorem relBytes_eq_esOf {k : ℕ} (h : k < 11) : relBytes k = esOf k := by
  interval_cases k <;> rfl

theorem satS_eq (y : ℤ) {n : ℕ} : Num.satS y n = (max (-2 ^ (n - 1)) (min (2 ^ (n - 1) - 1) y), decide (y < -2 ^ (n - 1) ∨ 2 ^ (n - 1) - 1 < y)) := by
  have hp : (1 : ℤ) ≤ 2 ^ (n - 1) := by exact_mod_cast Nat.one_le_two_pow
  unfold Num.satS
  push_cast
  split_ifs with h1 h2
  · rw [decide_eq_true (.inl h1), max_eq_left (by omega)]
  · rw [decide_eq_true (.inr h2), min_eq_left (by omega), max_eq_right (by omega)]
  · rw [decide_eq_false (by omega), min_eq_right (by omega), max_eq_right (by omega)]
theorem satN_eq (y : ℤ) (n : ℕ) : Num.satN y n = (max 0 (min (2 ^ n - 1) y), decide (y < 0 ∨ 2 ^ n - 1 < y)) := by
  have hp : (1 : ℤ) ≤ 2 ^ n := by exact_mod_cast Nat.one_le_two_pow
  unfold Num.satN
  push_cast
  split_ifs with h1 h2
  · rw [decide_eq_true (.inl h1), max_eq_left (by omega)]
  · rw [decide_eq_true (.inr h2), min_eq_left (by omega), max_eq_right (by omega)]
  · rw [decide_eq_false (by omega), min_eq_right (by omega), max_eq_right (by omega)]

/-- The formats of a packed release that are floats. -/
def relFmt (ofmt : ℕ) : Num.Fmt := nthD [Num.f32, Num.bf16, Num.e4m3, Num.e5m2] (ofmt - 7) Num.f32

theorem relPattern_float {nd : Node} {a : ACell} (he : a.err = false) (hlo : 7 ≤ nd.ofmt) (hhi : nd.ofmt < 11) :
    relPattern nd a = (((relFmt nd.ofmt).write (cellVal nd a)).1, false, ((relFmt nd.ofmt).write (cellVal nd a)).2) := by
  unfold relPattern
  simp only [he, Bool.false_eq_true, if_false]
  generalize nd.ofmt = k at hlo hhi
  interval_cases k <;> rfl
theorem relPattern_int {nd : Node} {a : ACell} (he : a.err = false) (hhi : nd.ofmt ≤ 6) :
    relPattern nd a = (let o := if nd.ofmt ≤ 3 then Num.satS (cellVal nd a).round (8 * relBytes nd.ofmt) else Num.satN (cellVal nd a).round (8 * relBytes nd.ofmt)
      (Num.wrap o.1 (8 * relBytes nd.ofmt), false, o.2)) := by
  unfold relPattern
  simp only [he, Bool.false_eq_true, if_false]
  generalize nd.ofmt = k at hhi
  interval_cases k <;> rfl
theorem relPattern_err {nd : Node} {a : ACell} (he : a.err = true) (hhi : nd.ofmt < 11) :
    relPattern nd a = (nthD [0, 0, 0, 0, 0, 0, 0, 0x7FC00000, 0x7FC0, 0x7F, 0x7F] nd.ofmt 0, true, false) := by
  unfold relPattern
  simp only [he, if_true]
  generalize nd.ofmt = k at hhi
  interval_cases k <;> rfl

theorem relFmt_wf {k : ℕ} (hlo : 7 ≤ k) (hhi : k < 11) : FmtWf (relFmt k) := by
  interval_cases k
  · exact f32_wf
  · exact bf16_wf
  · exact e4m3_wf
  · exact e5m2_wf
theorem relFmt_bits {k : ℕ} (hlo : 7 ≤ k) (hhi : k < 11) : 1 + (relFmt k).ew + (relFmt k).mw = 8 * relBytes k := by
  interval_cases k <;> rfl

/-- A cell's pattern (R53). -/
theorem relPattern_releasedAs (nd : Node) (a : ACell) (h : nd.ofmt < 11) : ReleasedAs nd.ofmt nd.f a (relPattern nd a) := by
  unfold ReleasedAs
  dsimp only
  by_cases he : a.err = true
  · rw [if_pos he]; exact relPattern_err he h
  · rw [if_neg he]
    have he : a.err = false := by simpa using he
    have hval : flNum (cellVal nd a) = accNum a * (2 : ℚ) ^ nd.f := flNum_value a nd.f
    split
    · next hint =>
      refine ⟨(cellVal nd a).round, hval ▸ nearest_round _, ?_⟩
      rw [relPattern_int he hint, relBytes_eq_esOf h]
      dsimp only
      split
      · rw [satS_eq]; rfl
      · rw [satN_eq]; rfl
    · next hint =>
      have hr := write_rounds (relFmt_wf (by omega) h) (stands_flNum _ (cellVal nd a))
      rw [hval] at hr
      exact ⟨_, _, hr, relPattern_float he (by omega) h⟩

theorem relPattern_lt (nd : Node) (a : ACell) (h : nd.ofmt < 11) : (relPattern nd a).1 < 2 ^ (8 * relBytes nd.ofmt) := by
  by_cases he : a.err = true
  · rw [relPattern_err he h]
    generalize nd.ofmt = k at h
    interval_cases k <;> decide
  · have he : a.err = false := by simpa using he
    by_cases hint : nd.ofmt ≤ 6
    · rw [relPattern_int he hint]; dsimp only; rw [wrap_eq_toNat]; exact BitVec.isLt _
    · rw [relPattern_float he (by omega) h, ← relFmt_bits (by omega) h]
      exact (write_isNum (relFmt_wf (by omega) h) _).1

theorem relPattern_bad (nd : Node) (a : ACell) (h : nd.ofmt < 11) : (relPattern nd a).2.1 = a.err := by
  by_cases he : a.err = true
  · rw [relPattern_err he h, he]
  · have he : a.err = false := by simpa using he
    by_cases hint : nd.ofmt ≤ 6
    · rw [relPattern_int he hint, he]
    · rw [relPattern_float he (by omega) h, he]

end Sys2Proof.Safety
end

section
/-! PROOFS. The plane-set release of an accumulator node: elements laid in sign and magnitude, row by row (R41, R53, R265). -/

namespace Sys2Proof.Safety

open Sys2Proof.Machine

/-! ## Elements in sign and magnitude read back -/

theorem natSum_bits (m n : ℕ) : natSum ((List.range n).map fun k => bnat (bit m k) * 2 ^ k) = m % 2 ^ n := by
  induction n with
  | zero => simp [natSum, Nat.mod_one]
  | succ n ih =>
    rw [List.range_succ, List.map_append, List.map_singleton, natSum_append_singleton, ih, Nat.mod_pow_succ, Nat.mul_comm]
    congr 2
    unfold bit bnat
    rcases Nat.mod_two_eq_zero_or_one (m / 2 ^ n) with h | h <;> simp [h]

section
variable {p : Machine.PSet} {b : ℕ} {els : List (ℕ × El)} {gs : List (ℕ × ℤ)}

/-- Magnitudes that fit the planes. -/
def Fits (w : ℕ) (els : List (ℕ × El)) : Prop := ∀ e ∈ els, ∀ x, e.2 = some x → x.2 < 2 ^ w

theorem parts_of_sm (hc : p.code = 1) : p.parts = p.w + 2 := by simp [PSet.parts, hc, isSM, bnat]

theorem partBit_err (e : El) : p.partBit (p.parts - 1) e = e.isNone := by
  unfold PSet.partBit
  rw [if_pos (by unfold PSet.parts; omega)]
theorem partBit_sign (hc : p.code = 1) (x : Bool × ℕ) : p.partBit p.w (some x) = x.1 := by
  unfold PSet.partBit
  rw [if_neg (by rw [parts_of_sm hc]; omega)]
  simp
theorem partBit_magnitude (hc : p.code = 1) (x : Bool × ℕ) {k : ℕ} (hk : k < p.w) : p.partBit k (some x) = bit x.2 k := by
  unfold PSet.partBit
  rw [if_neg (by rw [parts_of_sm hc]; omega)]
  have hne : k ≠ p.w := by omega
  simp [hc, hne, isTC]

/-- An element that is written lies there. -/
theorem laid_of_mem {s t : State} (hs : Safe s) (hp : InPad p b) (h : Written els gs) (hc : p.code = 1) (hf : Fits p.w els)
    (ht : t.mem = writeAll s.mem (setWrites p b els gs)) {e : ℕ × El} (he : e ∈ els) : Laid s t p b e.1 e.2 := by
  have hparts := parts_of_sm hc
  have hbit : ∀ part < p.parts, p.bitAt t.mem b part e.1 = p.partBit part e.2 := fun part hpart => by rw [ht]; exact bitAt_of_mem hs hp h hpart he
  refine ⟨?_, fun hx => spoilt_of_spoilt hs hp h (h.lane e he) (ht ▸ hx), fun part hpart => by rw [ht]; exact keyF_of_mem hs hp h hpart he⟩
  unfold PSet.el
  cases hx : p.spoilt t.mem b e.1
  · rw [hbit _ (by omega), partBit_err]
    cases hval : e.2 with
    | none => simp
    | some x =>
      have hpat : p.pattern t.mem b e.1 = x.2 := by
        have hmap : (List.range p.w).map (fun k => bnat (p.bitAt t.mem b k e.1) * 2 ^ k) = (List.range p.w).map fun k => bnat (bit x.2 k) * 2 ^ k :=
          List.map_congr_left fun k hk => by
            have hk := List.mem_range.mp hk
            rw [hbit k (by omega), hval, partBit_magnitude hc x hk]
        rw [PSet.pattern, hmap, natSum_bits, Nat.mod_eq_of_lt (hf e he x hval)]
      have hsign : p.bitAt t.mem b p.w e.1 = x.1 := by rw [hbit _ (by omega), hval, partBit_sign hc]
      simp [hc, isTC, isSM, hpat, hsign]
  · simp

/-- The element that is written to a lane. -/
def laneEl (els : List (ℕ × El)) (l : ℕ) : Option El := (els.find? fun e => e.1 == l).map (·.2)

theorem laneEl_of_mem (h : Written els gs) {e : ℕ × El} (he : e ∈ els) : laneEl els e.1 = some e.2 := by
  unfold laneEl
  cases hfind : els.find? fun e' => e'.1 == e.1 with
  | none => exact absurd (List.find?_eq_none.mp hfind e he) (by simp)
  | some e' =>
    have hmem := List.mem_of_find?_eq_some hfind
    have hkey : e'.1 = e.1 := by simpa using List.find?_some hfind
    rw [List.inj_on_of_nodup_map h.lanes hmem he hkey]; rfl
theorem laneEl_of_not_mem {l : ℕ} (hl : l ∉ els.map (·.1)) : laneEl els l = none := by
  unfold laneEl
  rw [List.find?_eq_none.mpr fun e he => by simpa using fun heq => hl (List.mem_map.mpr ⟨e, he, heq⟩)]; rfl
theorem mem_of_laneEl {l : ℕ} {e : El} (h : laneEl els l = some e) : (l, e) ∈ els := by
  obtain ⟨e', he', rfl⟩ := Option.map_eq_some_iff.mp h
  have hkey : e'.1 = l := by simpa using List.find?_some he'
  exact hkey ▸ List.mem_of_find?_eq_some he'
theorem not_mem_of_laneEl {l : ℕ} (h : laneEl els l = none) : l ∉ els.map (·.1) := by
  intro hl
  obtain ⟨e, he, heq⟩ := List.mem_map.mp hl
  rw [laneEl, Option.map_eq_none_iff, List.find?_eq_none] at h
  exact h e he (by simpa using heq)

/-- The lanes of a set behind the writes (R220). -/
theorem lanes_of_writes {s t : State} (hs : Safe s) (hp : InPad p b) (h : Written els gs) (hc : p.code = 1) (hf : Fits p.w els)
    (ht : t.mem = writeAll s.mem (setWrites p b els gs)) : Lanes s t p b (laneEl els) := by
  intro l hl
  rw [hp.unit] at hl
  cases hel : laneEl els l with
  | some e => exact laid_of_mem hs hp h hc hf ht (mem_of_laneEl hel)
  | none =>
    intro part hpart
    have := bitAt_of_not_mem hs hp h hpart hl (not_mem_of_laneEl hel)
    rwa [← ht] at this

/-! ## The other sets -/

/-- Two memories hold the same words of a set. -/
def AgreeOn (p : Machine.PSet) (b : ℕ) (m m' : List Host.Cell) : Prop :=
  ∀ part ≤ p.parts, ∀ j < 32, (part = p.parts → j < 8) → getWord m (p.key b part j) = getWord m' (p.key b part j)

theorem AgreeOn.bitAt {m m' : List Host.Cell} (h : AgreeOn p b m m') {part l : ℕ} (hpart : part < p.parts) (hl : l < 2048) :
    p.bitAt m b part l = p.bitAt m' b part l := by
  unfold PSet.bitAt
  rw [h part hpart.le (l / 64) (by omega) (by omega)]
theorem AgreeOn.keyX {m m' : List Host.Cell} (h : AgreeOn p b m m') {part j : ℕ} (hpart : part < p.parts) (hj : j < 32) :
    keyX m (p.key b part j) = keyX m' (p.key b part j) := by
  rw [keyX_eq, keyX_eq, h part hpart.le j hj (by omega)]
theorem AgreeOn.keyF {m m' : List Host.Cell} (h : AgreeOn p b m m') {part j : ℕ} (hpart : part < p.parts) (hj : j < 32) :
    keyF m (p.key b part j) = keyF m' (p.key b part j) := by
  rw [keyF_eq, keyF_eq, h part hpart.le j hj (by omega)]
theorem AgreeOn.spoilt {m m' : List Host.Cell} (h : AgreeOn p b m m') {l : ℕ} (hl : l < 2048) : p.spoilt m b l = p.spoilt m' b l := by
  unfold PSet.spoilt
  rw [keyX_eq m, keyX_eq m', h p.parts le_rfl (l / 256) (by omega) (by omega)]
  congr 1
  rw [Bool.eq_iff_iff, List.any_eq_true, List.any_eq_true]
  refine exists_congr fun k => and_congr_right fun hk => ?_
  rw [h.keyX (List.mem_range.mp hk) (by omega)]
theorem AgreeOn.pattern {m m' : List Host.Cell} (h : AgreeOn p b m m') {l : ℕ} (hl : l < 2048) : p.pattern m b l = p.pattern m' b l := by
  unfold PSet.pattern
  refine congrArg natSum (List.map_congr_left fun k hk => ?_)
  have := List.mem_range.mp hk
  rw [h.bitAt (by unfold PSet.parts; omega) hl]
theorem AgreeOn.el (hc : p.code = 1) {m m' : List Host.Cell} (h : AgreeOn p b m m') {l : ℕ} (hl : l < 2048) : p.el m b l = p.el m' b l := by
  have hparts := parts_of_sm hc
  unfold PSet.el
  rw [h.spoilt hl, h.bitAt (part := p.parts - 1) (by omega) hl, h.bitAt (part := p.w) (by omega) hl, h.pattern hl]
theorem AgreeOn.exp {m m' : List Host.Cell} (h : AgreeOn p b m m') {l : ℕ} (hl : l < 2048) : p.exp m b l = p.exp m' b l := by
  unfold PSet.exp
  rw [h p.parts le_rfl (l / 256) (by omega) (by omega)]

theorem AgreeOn.lanes (hu : p.unit = 32) (hc : p.code = 1) {s t s' t' : State} (hs : AgreeOn p b s.mem s'.mem) (ht : AgreeOn p b t.mem t'.mem)
    {f : ℕ → Option El} (h : Lanes s t p b f) : Lanes s' t' p b f := by
  intro l hl
  have hl' : l < 2048 := by rw [hu] at hl; exact hl
  have := h l hl
  cases hf : f l with
  | some e =>
    simp only [hf] at this
    obtain ⟨holds, kept, full⟩ := this
    refine ⟨?_, ?_, fun part hpart => ?_⟩
    · rw [← ht.el hc hl', ← ht.spoilt hl']; exact holds
    · rw [← ht.spoilt hl', ← hs.spoilt hl']; exact kept
    · rw [← ht.keyF hpart (by omega)]; exact full part hpart
  | none =>
    simp only [hf] at this
    intro part hpart
    rw [← ht.bitAt hpart hl', ← hs.bitAt hpart hl', ← ht.keyX hpart (by omega), ← hs.keyX hpart (by omega)]
    exact this part hpart

/-- Words of different sets are different words. -/
theorem key_ne_of_set_ne {b b' part part' j j' : ℕ} (hu : p.unit = 32) (hg : p.g = true) (hb : b ≠ b') (h1 : part ≤ p.parts) (h1' : part' ≤ p.parts)
    (h2 : j < 32) (h2' : j' < 32) (h3 : part = p.parts → j < 8) (h3' : part' = p.parts → j' < 8) : p.key b part j ≠ p.key b' part' j' := by
  have hlt : ∀ {part j : ℕ}, part ≤ p.parts → j < 32 → (part = p.parts → j < 8) → part * p.unit + j < p.size := by
    intro part j h1 h2 h3
    have hsize : p.size = p.parts * p.unit + 16 := by simp [PSet.size, hg, bnat]
    rw [hsize, hu]
    rcases h1.eq_or_lt with rfl | h
    · have := h3 rfl; omega
    · omega
  have ha := hlt h1 h2 h3
  have ha' := hlt h1' h2' h3'
  unfold PSet.key
  rw [Ne, wordKey_inj]
  intro heq
  apply hb
  have hsum : part * p.unit + j + p.size * b = part' * p.unit + j' + p.size * b' := by rw [Nat.mul_comm p.size, Nat.mul_comm p.size]; omega
  have := congrArg (· / p.size) hsum
  simpa [Nat.add_mul_div_left _ _ (by omega : 0 < p.size), Nat.div_eq_of_lt ha, Nat.div_eq_of_lt ha'] using this

theorem agreeOn_setWrites {m : List Host.Cell} (hm : Memory.wf m = true) (hp : InPad p b) (h : Written els gs) {b' : ℕ} (hp' : InPad p b') (hb : b' ≠ b) :
    AgreeOn p b' (writeAll m (setWrites p b els gs)) m := by
  intro part hpart j hj hexp
  refine getWord_writeAll_of_not_mem hm (setWrites_isWord hp h) (hp'.isWord hpart hj) fun e he => ?_
  rcases List.mem_append.mp he with he | he
  · obtain ⟨part', hpart', j', hj', rfl⟩ := mem_putWrites.mp he
    exact key_ne_of_set_ne hp.unit hp.scaled hb.symm hpart'.le hpart (h.word_lt hj') hj (by omega) hexp
  · obtain ⟨j', hj', rfl⟩ := mem_expWrites.mp he
    have h8 := h.expWord_lt hj'
    exact key_ne_of_set_ne hp.unit hp.scaled hb.symm le_rfl hpart (by omega) hj (fun _ => h8) hexp

end

/-! ## The rows of a slab -/

/-- The places of row i in slab t that are not masked. -/
def rowJs (nd : Node) (t i : ℕ) : List ℕ := (List.range 32).filter fun k => !maskedCell nd i (32 * t + k)
def rowVal (nd : Node) (t i k : ℕ) : Option Num.Fl :=
  if (cellOf nd i (32 * t + k)).err then none else some (cellVal nd (cellOf nd i (32 * t + k)))
def rowAlign (nd : Node) (t i : ℕ) : Num.Aligned := Num.align ((rowJs nd t i).map (rowVal nd t i)) nd.wd
/-- What row i lays. -/
def rowEls (nd : Node) (t i : ℕ) : List (ℕ × El) := ((rowJs nd t i).map (· + 32 * i)).zip (rowAlign nd t i).els
def slabLaid (nd : Node) (t : ℕ) : List (ℕ × El) := (List.range 64).flatMap (rowEls nd t)
def slabExps (nd : Node) (t : ℕ) : List (ℕ × ℤ) := ((List.range 64).filter fun i => rowJs nd t i ≠ []).map fun i => (i, (rowAlign nd t i).e)
/-- How many of its cells are limited. -/
def slabLim (nd : Node) (t : ℕ) : ℕ := natSum ((List.range 64).map fun i => (rowAlign nd t i).nsat)

theorem releaseRow_eq (nd : Node) (t i : ℕ) : releaseRow nd t i =
    if rowJs nd t i = [] then none else some (rowEls nd t i, (i, (rowAlign nd t i).e), (rowAlign nd t i).nsat) := by
  unfold releaseRow rowEls rowAlign rowVal
  simp only [List.map_map]
  rfl

theorem natSum_cons (a : ℕ) (l : List ℕ) : natSum (a :: l) = a + natSum l := by
  have h : ∀ (l : List ℕ) (a : ℕ), l.foldl (· + ·) a = a + l.foldl (· + ·) 0 := by
    intro l
    induction l with
    | nil => intro a; rfl
    | cons b l ih => intro a; rw [List.foldl_cons, List.foldl_cons, ih, ih (0 + b)]; omega
  rw [natSum, List.foldl_cons, h, natSum]; omega

theorem natSum_append (l l' : List ℕ) : natSum (l ++ l') = natSum l + natSum l' := by
  induction l with
  | nil => simp [natSum]
  | cons a l ih => rw [List.cons_append, natSum_cons, natSum_cons, ih, Nat.add_assoc]

theorem rows_eq (nd : Node) (t : ℕ) (l : List ℕ) : let rows := l.filterMap (releaseRow nd t)
    rows.flatMap (·.1) = l.flatMap (rowEls nd t) ∧ rows.map (·.2.1) = (l.filter fun i => rowJs nd t i ≠ []).map (fun i => (i, (rowAlign nd t i).e)) ∧
      natSum (rows.map (·.2.2)) = natSum (l.map fun i => (rowAlign nd t i).nsat) := by
  induction l with
  | nil => exact ⟨rfl, rfl, rfl⟩
  | cons i l ih =>
    obtain ⟨h1, h2, h3⟩ := ih
    dsimp only at h1 h2 h3 ⊢
    by_cases hi : rowJs nd t i = []
    · have hnone : releaseRow nd t i = none := by rw [releaseRow_eq, if_pos hi]
      have hels : rowEls nd t i = [] := by rw [rowEls, hi]; rfl
      have hsat : (rowAlign nd t i).nsat = 0 := by rw [rowAlign, hi]; rfl
      rw [List.filterMap_cons_none hnone, h1, h2, h3, List.flatMap_cons, hels, List.filter_cons_of_neg (by simpa using hi), List.map_cons, natSum_cons, hsat]
      simp
    · have hsome : releaseRow nd t i = some (rowEls nd t i, (i, (rowAlign nd t i).e), (rowAlign nd t i).nsat) := by rw [releaseRow_eq, if_neg hi]
      rw [List.filterMap_cons_some hsome, List.flatMap_cons, List.map_cons, List.map_cons, natSum_cons, h1, h2, h3, List.flatMap_cons,
        List.filter_cons_of_pos (by simpa using hi), List.map_cons, List.map_cons, natSum_cons]
      exact ⟨rfl, rfl, rfl⟩

theorem mem_rowJs {nd : Node} {t i k : ℕ} : k ∈ rowJs nd t i ↔ k < 32 ∧ maskedCell nd i (32 * t + k) = false := by
  simp [rowJs]
theorem rowJs_nodup (nd : Node) (t i : ℕ) : (rowJs nd t i).Nodup := List.nodup_range.filter _

theorem rowAlign_length (nd : Node) (t i : ℕ) : (rowAlign nd t i).els.length = (rowJs nd t i).length := by
  rw [rowAlign, align_els]; simp

theorem rowEls_lanes (nd : Node) (t i : ℕ) : (rowEls nd t i).map (·.1) = (rowJs nd t i).map (· + 32 * i) := by
  rw [rowEls]
  exact List.map_fst_zip (by rw [List.length_map, rowAlign_length])

theorem slabLaid_lanes (nd : Node) (t : ℕ) : (slabLaid nd t).map (·.1) = (List.range 64).flatMap fun i => (rowJs nd t i).map (· + 32 * i) := by
  rw [slabLaid, List.map_flatMap]
  simp only [rowEls_lanes]

theorem slab_written (nd : Node) (t : ℕ) : Written (slabLaid nd t) (slabExps nd t) := by
  refine ⟨fun e he => ?_, fun e he => ?_, ?_, ?_⟩
  · have hmem : e.1 ∈ (slabLaid nd t).map (·.1) := List.mem_map_of_mem he
    rw [slabLaid_lanes, List.mem_flatMap] at hmem
    obtain ⟨i, hi, hk⟩ := hmem
    obtain ⟨k, hk, heq⟩ := List.mem_map.mp hk
    have h1 := List.mem_range.mp hi
    have h2 := (mem_rowJs.mp hk).1
    omega
  · obtain ⟨i, hi, rfl⟩ := List.mem_map.mp he
    exact List.mem_range.mp (List.mem_filter.mp hi).1
  · rw [slabLaid_lanes, List.nodup_flatMap]
    refine ⟨fun i _ => (rowJs_nodup nd t i).map (add_left_injective _), List.nodup_range.imp fun {i i'} hne => ?_⟩
    intro l hl hl'
    obtain ⟨k, hk, rfl⟩ := List.mem_map.mp hl
    obtain ⟨k', hk', heq⟩ := List.mem_map.mp hl'
    have h1 := (mem_rowJs.mp hk).1
    have h2 := (mem_rowJs.mp hk').1
    exact hne (by omega)
  · rw [slabExps, List.map_map]
    exact (List.nodup_range.filter _).map_on fun i _ i' _ heq => heq

theorem slab_fits (nd : Node) (t : ℕ) : Fits nd.wd (slabLaid nd t) := by
  intro e he x hx
  obtain ⟨i, -, he⟩ := List.mem_flatMap.mp he
  have hmem := (List.of_mem_zip he).2
  rw [rowAlign, align_els] at hmem
  obtain ⟨v, -, hv⟩ := List.mem_map.mp hmem
  rw [hx] at hv
  obtain ⟨y, -, rfl⟩ := Option.map_eq_some_iff.mp hv
  have := Nat.two_pow_pos nd.wd
  exact lt_of_le_of_lt (min_le_right _ _) (by omega)

/-- The k-th element of a row. -/
theorem rowEls_mem (nd : Node) {t i k : ℕ} (hi : i < 64) (hk : k < (rowJs nd t i).length) :
    ((rowJs nd t i)[k] + 32 * i, (rowAlign nd t i).els[k]'(by rw [rowAlign_length]; exact hk)) ∈ slabLaid nd t := by
  refine List.mem_flatMap.mpr ⟨i, List.mem_range.mpr hi, ?_⟩
  refine List.mem_iff_getElem.mpr ⟨k, by rw [rowEls, List.length_zip, List.length_map, rowAlign_length]; omega, ?_⟩
  simp [rowEls]

/-! ## The release -/

theorem setAstat_calm (s : State) (c fl : ℕ) : Calm s (setAstat s c fl) c fl ∧ (setAstat s c fl).mem = s.mem := by
  refine ⟨⟨⟨_, core_setAstat s c fl⟩, fun j => ?_, fun d => ?_⟩, ?_⟩
  · by_cases hj : j = c
    · rw [hj, core_setAstat]
    · rw [core_setAstat_ne s fl hj]
  · rw [setAstat_rest]; rfl
  · rw [setAstat_rest]

/-- A slab is laid. -/
theorem slab_calm {s : State} (ha : Awake s) (c : ℕ) (nd : Node) (t fl : ℕ) : let p := plSet c nd.base nd.wd
    let u := setAstat (p.putExps (p.put s t (slabLaid nd t)) t (slabExps nd t)) c fl
    Calm s u c fl ∧ u.mem = writeAll s.mem (setWrites p t (slabLaid nd t) (slabExps nd t)) := by
  intro p u
  have hfold : p.putExps (p.put s t (slabLaid nd t)) t (slabExps nd t) = (setWrites p t (slabLaid nd t) (slabExps nd t)).foldl WordWrite.run s := by
    rw [putExps_eq, put_eq, setWrites, List.foldl_append]
  obtain ⟨hcalm, hmem⟩ := runAll_calm (setWrites p t (slabLaid nd t) (slabExps nd t)) ha c
  obtain ⟨hcalm', hmem'⟩ := setAstat_calm (p.putExps (p.put s t (slabLaid nd t)) t (slabExps nd t)) c fl
  rw [hfold] at hcalm' hmem'
  have h := hcalm.trans hcalm'
  rw [Nat.zero_or] at h
  have hu : u = setAstat ((setWrites p t (slabLaid nd t) (slabExps nd t)).foldl WordWrite.run s) c fl := by rw [← hfold]
  exact ⟨hu ▸ h, by rw [hu, hmem', hmem]⟩

def satFlag (n : ℕ) : ℕ := if n > 0 then flSat else 0

theorem releasePlanes_eq (s : State) (c : ℕ) (nd : Node) : releasePlanes s c nd =
    let p := plSet c nd.base nd.wd
    let u := setAstat (p.putExps (p.put s 0 (slabLaid nd 0)) 0 (slabExps nd 0)) c (satFlag (slabLim nd 0))
    (setAstat (p.putExps (p.put u 1 (slabLaid nd 1)) 1 (slabExps nd 1)) c (satFlag (slabLim nd 1)),
      errCount (slabLaid nd 0) + errCount (slabLaid nd 1), slabLim nd 0 + slabLim nd 1) := by
  obtain ⟨a1, a2, a3⟩ := rows_eq nd 0 (List.range 64)
  obtain ⟨b1, b2, b3⟩ := rows_eq nd 1 (List.range 64)
  unfold releasePlanes
  rw [show List.range 2 = [0, 1] from rfl]
  simp only [List.foldl_cons, List.foldl_nil, a1, a2, a3, b1, b2, b3, Nat.zero_add]
  rfl

end Sys2Proof.Safety
end

section
/-! PROOFS. What the plane-set release lays and counts (R53, R265). -/

namespace Sys2Proof.Safety

open Sys2Proof.Machine

/-! ## Masked cells -/

/-- Cell k of a node is masked (R260). -/
def outOf (nd : Node) (k : ℕ) : Bool := nd.mrow.getLsbD (k / 64) || nd.mcol.getLsbD (k % 64)

theorem maskedCell_eq (nd : Node) (i j : ℕ) : maskedCell nd i j = (nd.mrow.getLsbD i || nd.mcol.getLsbD j) := by
  rw [maskedCell, bit_eq_testBit, bit_eq_testBit, BitVec.testBit_toNat, BitVec.testBit_toNat]
theorem maskedCell_div_mod (nd : Node) (k : ℕ) : maskedCell nd (k / 64) (k % 64) = outOf nd k := maskedCell_eq nd _ _

section
variable (nd : Node)

theorem outOf_row {t i j : ℕ} (ht : t < 2) (hj : j < 32) : outOf nd (64 * i + 32 * t + j) = maskedCell nd i (32 * t + j) := by
  have h1 : (64 * i + 32 * t + j) / 64 = i := by omega
  have h2 : (64 * i + 32 * t + j) % 64 = 32 * t + j := by omega
  rw [outOf, h1, h2, maskedCell_eq]

theorem rowJs_eq {t i : ℕ} (ht : t < 2) : (List.range 32).filter (fun j => !outOf nd (64 * i + 32 * t + j)) = rowJs nd t i :=
  List.filter_congr fun j hj => by rw [outOf_row nd ht (List.mem_range.mp hj)]

theorem rowVal_eq (t i j : ℕ) : (let a := nd.cells.get (64 * i + 32 * t + j) {}; if a.err then none else some (accNum a * (2 : ℚ) ^ nd.f)) =
    (rowVal nd t i j).map flNum := by
  have hcell : cellOf nd i (32 * t + j) = nd.cells.get (64 * i + 32 * t + j) {} := by rw [cellOf, Nat.add_assoc]
  unfold rowVal
  rw [hcell]
  cases h : (nd.cells.get (64 * i + 32 * t + j) {} : ACell).err
  · simp only [Bool.false_eq_true, if_false, h, Option.map_some]
    rw [cellVal, flNum_value]
  · simp [h]

/-! ## Counts -/

theorem countP_range_mul (P : ℕ → Bool) (a b : ℕ) :
    (List.range (a * b)).countP P = ((List.range a).map fun i => (List.range b).countP fun j => P (b * i + j)).sum := by
  induction a with
  | zero => simp
  | succ a ih =>
    rw [Nat.succ_mul, List.range_add, List.countP_append, ih, List.range_succ, List.map_append, List.sum_append, List.countP_map, Nat.mul_comm a b]
    simp [Function.comp_def]

theorem errCount_row {t i : ℕ} : errCount (rowEls nd t i) =
    (List.range 32).countP fun j => !maskedCell nd i (32 * t + j) && (cellOf nd i (32 * t + j)).err := by
  have hzip : (rowEls nd t i).countP (fun e => e.2.isNone) = (rowAlign nd t i).els.countP (·.isNone) := by
    have hsnd : (rowEls nd t i).map (·.2) = (rowAlign nd t i).els := List.map_snd_zip (by rw [List.length_map, rowAlign_length])
    rw [← hsnd, List.countP_map]
    rfl
  rw [errCount, ← List.countP_eq_length_filter, hzip, rowAlign, align_els, List.countP_map, List.countP_map, rowJs, List.countP_filter]
  refine List.countP_congr fun j _ => ?_
  unfold rowVal
  cases h : (cellOf nd i (32 * t + j)).err <;> simp [h]

theorem errCount_slab (t : ℕ) : errCount (slabLaid nd t) =
    ((List.range 64).map fun i => (List.range 32).countP fun j => !maskedCell nd i (32 * t + j) && (cellOf nd i (32 * t + j)).err).sum := by
  rw [errCount, ← List.countP_eq_length_filter, slabLaid, List.countP_flatMap]
  congr 1
  refine List.map_congr_left fun i _ => ?_
  rw [Function.comp_apply, ← errCount_row, errCount, ← List.countP_eq_length_filter]

/-- Cells released in error. -/
def badCells : ℕ := (List.range 4096).countP fun k => !outOf nd k && (nd.cells.get k {} : ACell).err

theorem errCount_slabs : errCount (slabLaid nd 0) + errCount (slabLaid nd 1) = badCells nd := by
  rw [badCells, show 4096 = 64 * 64 from rfl, countP_range_mul, errCount_slab, errCount_slab, ← List.sum_map_add]
  refine congrArg List.sum (List.map_congr_left fun i _ => ?_)
  rw [show List.range 64 = List.range 32 ++ (List.range 32).map (32 + ·) from rfl, List.countP_append, List.countP_map]
  congr 1
  · refine List.countP_congr fun j hj => ?_
    have hout := outOf_row nd (t := 0) (i := i) (j := j) (by omega) (List.mem_range.mp hj)
    simp only [Nat.mul_zero, Nat.add_zero, Nat.zero_add] at hout ⊢
    rw [hout, cellOf]
  · refine List.countP_congr fun j hj => ?_
    have hout := outOf_row nd (t := 1) (i := i) (j := j) (by omega) (List.mem_range.mp hj)
    simp only [Nat.mul_one, Nat.add_assoc] at hout
    rw [Function.comp_apply, hout, cellOf, Nat.mul_one]

theorem natSum_eq_zero {l : List ℕ} : natSum l = 0 ↔ ∀ a ∈ l, a = 0 := by
  induction l with
  | nil => simp [natSum]
  | cons a l ih => rw [natSum_cons, Nat.add_eq_zero_iff, ih, List.forall_mem_cons]

theorem slabLim_eq_zero (t : ℕ) : slabLim nd t = 0 ↔ ∀ i < 64, decide (0 < (rowAlign nd t i).nsat) = false := by
  rw [slabLim, natSum_eq_zero]
  simp

end

/-! ## The memory behind a release -/

theorem asS_wrap {x : ℤ} (hlo : -128 ≤ x) (hhi : x ≤ 127) : Num.asS (Num.wrap x 8) 8 = x := by
  unfold Num.asS Num.wrap
  norm_num
  split <;> omega

theorem rowAlign_e (nd : Node) (t i : ℕ) : -128 ≤ (rowAlign nd t i).e ∧ (rowAlign nd t i).e ≤ 127 := by
  rw [rowAlign, align_e]
  exact ⟨le_max_left _ _, max_le (by omega) (min_le_left _ _)⟩

theorem satFlag_or (a b : ℕ) : satFlag a ||| satFlag b = satFlag (a + b) := by
  unfold satFlag
  rcases Nat.eq_zero_or_pos a with rfl | ha
  · simp
  · rcases Nat.eq_zero_or_pos b with rfl | hb
    · simp
    · rw [if_pos ha, if_pos hb, if_pos (by omega), Nat.or_self]

theorem plSet_inPad {c base wd b : ℕ} (hc : c < 3072) (hroom : base + 2 * (32 * (wd + 2) + 16) ≤ 2 ^ 17) (hb : b < 2) : InPad (plSet c base wd) b := by
  have hsize : (plSet c base wd).size = 32 * (wd + 2) + 16 := by
    simp [PSet.size, PSet.parts, plSet, isSM, bnat]; ring
  refine ⟨hc, rfl, ?_, rfl⟩
  rw [hsize]
  have : (b + 1) * (32 * (wd + 2) + 16) ≤ 2 * (32 * (wd + 2) + 16) := Nat.mul_le_mul_right _ (by omega)
  simp only [plSet]
  omega

/-- The plane-set release (R265). -/
theorem releasePlanes_lays {s : State} {c : ℕ} {nd : Node} (hs : Safe s) (ha : Awake s) (hc : c < 3072)
    (hroom : nd.base + 2 * (32 * (nd.wd + 2) + 16) ≤ 2 ^ 17) : let o := releasePlanes s c nd; let p := plSet c nd.base nd.wd
    Calm s o.1 c (satFlag o.2.2) ∧ o.2.1 = badCells nd ∧ o.2.2 = slabLim nd 0 + slabLim nd 1 ∧
      ∀ h < 2, Lanes s o.1 p h (laneEl (slabLaid nd h)) ∧ ∀ i < 64, rowJs nd h i ≠ [] → p.exp o.1.mem h (32 * i) = (rowAlign nd h i).e := by
  intro o p
  have hp0 : InPad p 0 := plSet_inPad hc hroom (by omega)
  have hp1 : InPad p 1 := plSet_inPad hc hroom (by omega)
  have hexps : ∀ {h i}, i < 64 → rowJs nd h i ≠ [] → (i, (rowAlign nd h i).e) ∈ slabExps nd h := fun {h i} hi hne =>
    List.mem_map.mpr ⟨i, List.mem_filter.mpr ⟨List.mem_range.mpr hi, by simpa using hne⟩, rfl⟩
  obtain ⟨hcalm0, hmem0⟩ := slab_calm ha c nd 0 (satFlag (slabLim nd 0))
  set u := setAstat (p.putExps (p.put s 0 (slabLaid nd 0)) 0 (slabExps nd 0)) c (satFlag (slabLim nd 0))
  obtain ⟨hcalm1, hmem1⟩ := slab_calm (hcalm0.awake ha) c nd 1 (satFlag (slabLim nd 1))
  set t := setAstat (p.putExps (p.put u 1 (slabLaid nd 1)) 1 (slabExps nd 1)) c (satFlag (slabLim nd 1))
  have ho : o = (t, errCount (slabLaid nd 0) + errCount (slabLaid nd 1), slabLim nd 0 + slabLim nd 1) := releasePlanes_eq s c nd
  have hu : Safe u := by unfold Safe; rw [hmem0]; exact writeAll_wf hs _
  have hagree0 : AgreeOn p 0 t.mem u.mem := by rw [hmem1]; exact agreeOn_setWrites hu hp1 (slab_written nd 1) hp0 (by decide)
  have hagree1 : AgreeOn p 1 u.mem s.mem := by rw [hmem0]; exact agreeOn_setWrites hs hp0 (slab_written nd 0) hp1 (by decide)
  have hrefl : ∀ {b m}, AgreeOn p b m m := fun _ _ _ _ _ => rfl
  have hsymm : ∀ {b m m'}, AgreeOn p b m m' → AgreeOn p b m' m := fun h part a j b d => (h part a j b d).symm
  have hread : ∀ h i, p.exp (writeAll s.mem (setWrites p 0 (slabLaid nd 0) (slabExps nd 0))) h (32 * i) = p.exp u.mem h (32 * i) := fun _ _ => by rw [hmem0]
  rw [ho]
  refine ⟨satFlag_or _ _ ▸ hcalm0.trans hcalm1, errCount_slabs nd, rfl, fun h hh => ?_⟩
  obtain rfl | rfl : h = 0 ∨ h = 1 := by omega
  · refine ⟨AgreeOn.lanes rfl rfl hrefl (hsymm hagree0) (lanes_of_writes (t := u) hs hp0 (slab_written nd 0) rfl (slab_fits nd 0) hmem0), fun i hi hne => ?_⟩
    rw [hagree0.exp (by omega), ← hread, exp_of_mem hs hp0 (slab_written nd 0) (hexps hi hne)]
    exact asS_wrap (rowAlign_e nd 0 i).1 (rowAlign_e nd 0 i).2
  · refine ⟨AgreeOn.lanes rfl rfl hagree1 hrefl (lanes_of_writes (t := t) hu hp1 (slab_written nd 1) rfl (slab_fits nd 1) hmem1), fun i hi hne => ?_⟩
    rw [hmem1, exp_of_mem hu hp1 (slab_written nd 1) (hexps hi hne)]
    exact asS_wrap (rowAlign_e nd 1 i).1 (rowAlign_e nd 1 i).2

end Sys2Proof.Safety
end

section
/-! PROOFS. The packed release of an accumulator node: cell by cell into the words of its destination (R53, R265). -/

namespace Sys2Proof.Safety

open Sys2Proof.Machine

/-! ## Fields of a word -/

theorem packFields_lt {n K : ℕ} (hn : 0 < n) {l : List (ℕ × ℕ)} (h : ∀ e ∈ l, e.1 < K) : packFields n l < 2 ^ (n * K) := by
  refine Nat.lt_pow_two_of_testBit _ fun i hi => ?_
  have hdiv : K ≤ i / n := (Nat.le_div_iff_mul_le hn).mpr (by rw [Nat.mul_comm]; exact hi)
  have := testBit_packFields_of_not_mem (Nat.mod_lt i hn) (l := l) (k := i / n) fun e he heq => by have := h e he; omega
  rwa [Nat.div_add_mod] at this

/-- A field of a word. -/
def fieldOf (n k x : ℕ) : ℕ := x / 2 ^ (n * k) % 2 ^ n

theorem testBit_fieldOf (n k x i : ℕ) : (fieldOf n k x).testBit i = (decide (i < n) && x.testBit (n * k + i)) := by
  rw [fieldOf, Nat.testBit_mod_two_pow, Nat.testBit_div_two_pow, Nat.add_comm i]

/-! ## A word of the destination -/

section
variable (nd : Node)

def relBits : ℕ := 8 * relBytes nd.ofmt
/-- Elements in a word. -/
def relPer : ℕ := 8 / relBytes nd.ofmt
/-- Cell k of a node. -/
def relCell (k : ℕ) : ACell := nd.cells.get k {}
/-- The cells of word w that are not masked. -/
def relCells (w : ℕ) : List ℕ := ((List.range (relPer nd)).map (· + w * relPer nd)).filter fun k => !outOf nd k
def relBad (w : ℕ) : ℕ := (relCells nd w).countP fun k => (relPattern nd (relCell nd k)).2.1
def relLim (w : ℕ) : ℕ := (relCells nd w).countP fun k => (relPattern nd (relCell nd k)).2.2
/-- What is written to word w. -/
def relWrite (c w : ℕ) : WordWrite :=
  { key := wordKey c (nd.base + w)
    mask := packFields (relBits nd) ((relCells nd w).map fun k => (k % relPer nd, 2 ^ relBits nd - 1))
    v := packFields (relBits nd) ((relCells nd w).map fun k => (k % relPer nd, (relPattern nd (relCell nd k)).1))
    bad := relInt nd.ofmt && decide (0 < relBad nd w) }
/-- The status bits of a release that has limited n cells. -/
def limFlag (n : ℕ) : ℕ := if n > 0 then (if relInt nd.ofmt then flIsat else flSat) else 0

variable {nd}

theorem relBytes_cases (h : nd.ofmt < 11) : relBytes nd.ofmt = 1 ∨ relBytes nd.ofmt = 2 ∨ relBytes nd.ofmt = 4 ∨ relBytes nd.ofmt = 8 := by
  generalize nd.ofmt = k at h
  interval_cases k <;> decide

theorem relPer_pos (h : nd.ofmt < 11) : 0 < relPer nd ∧ relBits nd * relPer nd = 64 ∧ 0 < relBits nd ∧ 4096 / relPer nd * relPer nd = 4096 := by
  unfold relPer relBits
  rcases relBytes_cases h with h | h | h | h <;> rw [h] <;> decide

theorem mem_relCells {w k : ℕ} (h : nd.ofmt < 11) : k ∈ relCells nd w ↔ k / relPer nd = w ∧ outOf nd k = false := by
  have hpos := (relPer_pos h).1
  simp only [relCells, List.mem_filter, List.mem_map, List.mem_range, Bool.not_eq_true']
  refine and_congr_left fun _ => ?_
  constructor
  · rintro ⟨i, hi, rfl⟩
    rw [Nat.add_mul_div_right _ _ hpos, Nat.div_eq_of_lt hi, Nat.zero_add]
  · rintro rfl
    exact ⟨k % relPer nd, Nat.mod_lt _ hpos, by rw [Nat.mul_comm]; exact Nat.mod_add_div k _⟩

theorem relCells_nodup (h : nd.ofmt < 11) (w : ℕ) : ((relCells nd w).map (· % relPer nd)).Nodup := by
  have hnd : (relCells nd w).Nodup := (List.nodup_range.map (add_left_injective _)).filter _
  refine hnd.map_on fun a ha b hb heq => ?_
  rw [← Nat.div_add_mod a (relPer nd), ← Nat.div_add_mod b (relPer nd), ((mem_relCells h).mp ha).1, ((mem_relCells h).mp hb).1, heq]

theorem relFields_nodup (h : nd.ofmt < 11) (w : ℕ) (f : ℕ → ℕ) : (((relCells nd w).map fun k => (k % relPer nd, f k)).map (·.1)).Nodup := by
  rw [List.map_map]; exact relCells_nodup h w

theorem natSum_fields (h : nd.ofmt < 11) (w : ℕ) (f : ℕ → ℕ) (hf : ∀ k, f k < 2 ^ relBits nd) :
    natSum ((relCells nd w).map fun k => f k * 2 ^ (relBits nd * (k % relPer nd))) =
      packFields (relBits nd) ((relCells nd w).map fun k => (k % relPer nd, f k)) := by
  rw [← natSum_eq_packFields (relFields_nodup h w f) fun e he => by obtain ⟨k, -, rfl⟩ := List.mem_map.mp he; exact hf k, List.map_map]
  rfl

/-! ## The words one behind the other -/

/-- One word of the release. -/
def relStep (c : ℕ) (nd : Node) (st : State × ℕ × ℕ) (w : ℕ) : State × ℕ × ℕ :=
  (setAstat ((relWrite nd c w).run st.1) c (limFlag nd (relLim nd w)), st.2.1 + relBad nd w, st.2.2 + relLim nd w)

theorem releasePacked_eq (h : nd.ofmt < 11) (s : State) (c : ℕ) :
    releasePacked s c nd = (List.range (4096 / relPer nd)).foldl (relStep c nd) (s, 0, 0) := by
  unfold releasePacked
  dsimp only
  refine congrArg (fun f => List.foldl f _ _) ?_
  funext st w
  have hcells : (((List.range (8 / relBytes nd.ofmt)).map (· + w * (8 / relBytes nd.ofmt))).filter fun k => !maskedCell nd (k / 64) (k % 64)) = relCells nd w := by
    simp only [maskedCell_div_mod]; rfl
  have hone : ∀ k : ℕ, 2 ^ relBits nd - 1 < 2 ^ relBits nd := fun _ => by have := Nat.two_pow_pos (relBits nd); omega
  have hmask := natSum_fields h w (fun _ => 2 ^ relBits nd - 1) hone
  have hv := natSum_fields h w (fun k => (relPattern nd (relCell nd k)).1) fun k => relPattern_lt nd _ h
  have hbad : (((relCells nd w).map fun k => (k, relPattern nd (nd.cells.get k {}))).filter (·.2.2.1)).length = relBad nd w := by
    rw [← List.countP_eq_length_filter, List.countP_map]; rfl
  have hlim : (((relCells nd w).map fun k => (k, relPattern nd (nd.cells.get k {}))).filter (·.2.2.2)).length = relLim nd w := by
    rw [← List.countP_eq_length_filter, List.countP_map]; rfl
  rw [hcells, hbad, hlim, List.map_map]
  unfold relStep WordWrite.run relWrite
  rw [← hmask, ← hv]
  rfl

theorem limFlag_or (a b : ℕ) : limFlag nd a ||| limFlag nd b = limFlag nd (a + b) := by
  unfold limFlag
  generalize (if relInt nd.ofmt = true then flIsat else flSat) = fl
  rcases Nat.eq_zero_or_pos a with rfl | ha
  · simp
  · rcases Nat.eq_zero_or_pos b with rfl | hb
    · simp
    · rw [if_pos ha, if_pos hb, if_pos (by omega), Nat.or_self]

theorem relFold_calm (c : ℕ) (l : List ℕ) {s : State} (ha : Awake s) (a b : ℕ) : let o := l.foldl (relStep c nd) (s, a, b)
    Calm s o.1 c (limFlag nd (l.map (relLim nd)).sum) ∧ o.1.mem = writeAll s.mem (l.map (relWrite nd c)) ∧
      o.2.1 = a + (l.map (relBad nd)).sum ∧ o.2.2 = b + (l.map (relLim nd)).sum := by
  induction l generalizing s a b with
  | nil => exact ⟨Calm.refl s c, rfl, rfl, rfl⟩
  | cons w l ih =>
    obtain ⟨hcalm, hmem⟩ := run_calm ha (relWrite nd c w) c
    obtain ⟨hcalm', hmem'⟩ := setAstat_calm ((relWrite nd c w).run s) c (limFlag nd (relLim nd w))
    have hboth := hcalm.trans hcalm'
    rw [Nat.zero_or] at hboth
    obtain ⟨h1, h2, h3, h4⟩ := ih (hboth.awake ha) (a + relBad nd w) (b + relLim nd w)
    refine ⟨?_, ?_, ?_, ?_⟩
    · rw [List.map_cons, List.sum_cons, ← limFlag_or]
      exact hboth.trans h1
    · rw [List.foldl_cons]
      exact h2.trans (by rw [hmem', hmem]; rfl)
    · rw [List.foldl_cons, List.map_cons, List.sum_cons, ← Nat.add_assoc]; exact h3
    · rw [List.foldl_cons, List.map_cons, List.sum_cons, ← Nat.add_assoc]; exact h4

theorem sum_countP_relCells (h : nd.ofmt < 11) (P : ℕ → Bool) :
    ((List.range (4096 / relPer nd)).map fun w => (relCells nd w).countP P).sum = (List.range 4096).countP fun k => !outOf nd k && P k := by
  conv_rhs => rw [← (relPer_pos h).2.2.2, countP_range_mul]
  refine congrArg List.sum (List.map_congr_left fun w _ => ?_)
  rw [relCells, List.countP_filter, List.countP_map]
  refine List.countP_congr fun j _ => ?_
  rw [Function.comp_apply, Nat.add_comm j, Nat.mul_comm w, Bool.and_comm]

/-! ## The fields behind a release -/

variable {c : ℕ} {m : List Host.Cell}

theorem relWrite_isWord (hc : c < 3072) (hroom : nd.base + 512 * relBytes nd.ofmt ≤ 2 ^ 17) :
    ∀ e ∈ (List.range (4096 / relPer nd)).map (relWrite nd c), IsWord e.key := by
  intro e he
  obtain ⟨w, hw, rfl⟩ := List.mem_map.mp he
  have hw := List.mem_range.mp hw
  have hle : 4096 / relPer nd ≤ 4096 := Nat.div_le_self _ _
  exact isWord_wordKey hc (by omega)

theorem relWrite_nodup (c : ℕ) (n : ℕ) : (((List.range n).map (relWrite nd c)).map (·.key)).Nodup := by
  rw [List.map_map]
  exact List.nodup_range.map_on fun a _ b _ heq => by
    have := wordKey_inj.mp heq
    omega

theorem getWord_release (hm : Memory.wf m = true) (hc : c < 3072) (hroom : nd.base + 512 * relBytes nd.ofmt ≤ 2 ^ 17) {w : ℕ}
    (hw : w < 4096 / relPer nd) : getWord (writeAll m ((List.range (4096 / relPer nd)).map (relWrite nd c))) (wordKey c (nd.base + w)) =
      (relWrite nd c w).on (getWord m (wordKey c (nd.base + w))) := by
  have hkey : (relWrite nd c w).key = wordKey c (nd.base + w) := rfl
  rw [← hkey]
  exact getWord_writeAll_of_mem hm (relWrite_isWord hc hroom) (relWrite_nodup c _) (List.mem_map_of_mem (List.mem_range.mpr hw))

theorem relMask_lt (h : nd.ofmt < 11) (w : ℕ) : (relWrite nd c w).mask < 2 ^ 64 := by
  obtain ⟨hper, hbits, hpos, -⟩ := relPer_pos h
  rw [← hbits]
  refine packFields_lt hpos fun e he => ?_
  obtain ⟨k, -, rfl⟩ := List.mem_map.mp he
  exact Nat.mod_lt _ hper

/-- The mask holds a whole field of each cell that is written. -/
theorem testBit_relMask (h : nd.ofmt < 11) (k : ℕ) {i : ℕ} (hi : i < relBits nd) :
    (relWrite nd c (k / relPer nd)).mask.testBit (relBits nd * (k % relPer nd) + i) = !outOf nd k := by
  cases hout : outOf nd k
  · have := testBit_packFields_of_mem hi (relFields_nodup h (k / relPer nd) fun _ => 2 ^ relBits nd - 1)
      (List.mem_map_of_mem (f := fun k => (k % relPer nd, 2 ^ relBits nd - 1)) ((mem_relCells h).mpr ⟨rfl, hout⟩))
    exact this.trans (by rw [Nat.testBit_two_pow_sub_one, decide_eq_true hi]; rfl)
  · refine testBit_packFields_of_not_mem hi fun e he heq => ?_
    obtain ⟨k', hk', rfl⟩ := List.mem_map.mp he
    obtain ⟨hdiv, hout'⟩ := (mem_relCells h).mp hk'
    have hmod : k' % relPer nd = k % relPer nd := heq
    have hk : k' = k := by rw [← Nat.div_add_mod k' (relPer nd), ← Nat.div_add_mod k (relPer nd), hdiv, hmod]
    rw [hk, hout] at hout'
    exact absurd hout' (by decide)

theorem testBit_relVal (h : nd.ofmt < 11) {k : ℕ} (hout : outOf nd k = false) {i : ℕ} (hi : i < relBits nd) :
    (relWrite nd c (k / relPer nd)).v.testBit (relBits nd * (k % relPer nd) + i) = (relPattern nd (relCell nd k)).1.testBit i :=
  testBit_packFields_of_mem hi (relFields_nodup h (k / relPer nd) fun k => (relPattern nd (relCell nd k)).1)
    (List.mem_map_of_mem (f := fun k => (k % relPer nd, (relPattern nd (relCell nd k)).1)) ((mem_relCells h).mpr ⟨rfl, hout⟩))

theorem fieldBit_lt (h : nd.ofmt < 11) (k : ℕ) {i : ℕ} (hi : i < relBits nd) : relBits nd * (k % relPer nd) + i < 64 := by
  obtain ⟨hper, hbits, -, -⟩ := relPer_pos h
  have hk : k % relPer nd + 1 ≤ relPer nd := Nat.mod_lt _ hper
  have := Nat.mul_le_mul_left (relBits nd) hk
  rw [Nat.mul_succ] at this
  omega

/-- A cell's field behind the release. -/
theorem field_relWrite (h : nd.ofmt < 11) (k : ℕ) (w : TWord) :
    fieldOf (relBits nd) (k % relPer nd) ((relWrite nd c (k / relPer nd)).on w).d.toNat =
      if outOf nd k then fieldOf (relBits nd) (k % relPer nd) w.d.toNat else (relPattern nd (relCell nd k)).1 := by
  have hbit : ∀ i < relBits nd, ((relWrite nd c (k / relPer nd)).on w).d.toNat.testBit (relBits nd * (k % relPer nd) + i) =
      if outOf nd k then w.d.toNat.testBit (relBits nd * (k % relPer nd) + i) else (relPattern nd (relCell nd k)).1.testBit i := fun i hi => by
    rw [← bit_eq_testBit, bit_on _ _ (relMask_lt h _) (fieldBit_lt h k hi), testBit_relMask h k hi, bit_eq_testBit]
    cases hout : outOf nd k
    · exact testBit_relVal h hout hi
    · rfl
  apply Nat.eq_of_testBit_eq
  intro i
  rw [testBit_fieldOf]
  by_cases hi : i < relBits nd
  · rw [hbit i hi, decide_eq_true hi, Bool.true_and]
    split
    · rw [testBit_fieldOf, decide_eq_true hi, Bool.true_and]
    · rfl
  · rw [decide_eq_false hi, Bool.false_and]
    split
    · rw [testBit_fieldOf, decide_eq_false hi, Bool.false_and]
    · have hlt := relPattern_lt nd (relCell nd k) h
      exact (Nat.testBit_lt_two_pow (lt_of_lt_of_le hlt (Nat.pow_le_pow_right (by omega) (Nat.le_of_not_lt hi)))).symm

/-- The cells of a cell's word. -/
def wordCells (nd : Node) (k : ℕ) : List ℕ := (List.range (relPer nd)).map (· + k / relPer nd * relPer nd)

theorem mem_wordCells (h : nd.ofmt < 11) {k j : ℕ} : j ∈ wordCells nd k ↔ j / relPer nd = k / relPer nd := by
  have hpos := (relPer_pos h).1
  simp only [wordCells, List.mem_map, List.mem_range]
  constructor
  · rintro ⟨i, hi, rfl⟩
    rw [Nat.add_mul_div_right _ _ hpos, Nat.div_eq_of_lt hi, Nat.zero_add]
  · intro hj
    exact ⟨j % relPer nd, Nat.mod_lt _ hpos, by rw [← hj, Nat.mul_comm]; exact Nat.mod_add_div j _⟩

theorem relMask_eq_zero (h : nd.ofmt < 11) (k : ℕ) : (relWrite nd c (k / relPer nd)).mask = 0 ↔ ∀ j ∈ wordCells nd k, outOf nd j = true := by
  constructor
  · intro h0 j hj
    have := testBit_relMask (c := c) h j (relPer_pos h).2.2.1
    rw [(mem_wordCells h).mp hj, h0, Nat.zero_testBit] at this
    simpa using this.symm
  · intro hall
    have hnil : relCells nd (k / relPer nd) = [] := List.eq_nil_iff_forall_not_mem.mpr fun j hj => by
      obtain ⟨hdiv, hout⟩ := (mem_relCells h).mp hj
      rw [hall j ((mem_wordCells h).mpr hdiv)] at hout
      exact absurd hout (by decide)
    rw [relWrite, hnil]; rfl

theorem relMask_full (h : nd.ofmt < 11) (k : ℕ) : (relWrite nd c (k / relPer nd)).mask = 2 ^ 64 - 1 ↔ ∀ j ∈ wordCells nd k, outOf nd j = false := by
  obtain ⟨hper, hbits, hpos, -⟩ := relPer_pos h
  constructor
  · intro hfull j hj
    have := testBit_relMask (c := c) h j hpos
    rw [(mem_wordCells h).mp hj, hfull, Nat.testBit_two_pow_sub_one, decide_eq_true (fieldBit_lt h j hpos)] at this
    simpa using this.symm
  · intro hall
    apply Nat.eq_of_testBit_eq
    intro i
    rw [Nat.testBit_two_pow_sub_one]
    by_cases hi : i < 64
    · have hdiv : i / relBits nd < relPer nd := (Nat.div_lt_iff_lt_mul hpos).mpr (by rw [Nat.mul_comm, hbits]; exact hi)
      have hj : i / relBits nd + k / relPer nd * relPer nd ∈ wordCells nd k := List.mem_map.mpr ⟨_, List.mem_range.mpr hdiv, rfl⟩
      have := testBit_relMask (c := c) h (i / relBits nd + k / relPer nd * relPer nd) (Nat.mod_lt i hpos)
      rw [(mem_wordCells h).mp hj, hall _ hj, Nat.add_mul_mod_self_right, Nat.mod_eq_of_lt hdiv, Nat.div_add_mod] at this
      rw [this, decide_eq_true hi]; rfl
    · rw [decide_eq_false hi]
      exact Nat.testBit_lt_two_pow (lt_of_lt_of_le (relMask_lt h _) (Nat.pow_le_pow_right (by omega) (Nat.le_of_not_lt hi)))

/-- A word in error behind the release. -/
theorem x_relWrite (h : nd.ofmt < 11) (k : ℕ) (w : TWord) : ((relWrite nd c (k / relPer nd)).on w).x =
    ((decide (nd.ofmt ≤ 6) && (wordCells nd k).any fun j => !outOf nd j && (relPattern nd (relCell nd j)).2.1) ||
      ((wordCells nd k).any (outOf nd) && w.x)) := by
  have hbad : decide (0 < relBad nd (k / relPer nd)) = (wordCells nd k).any fun j => !outOf nd j && (relPattern nd (relCell nd j)).2.1 := by
    rw [Bool.eq_iff_iff, decide_eq_true_eq, relBad, List.countP_pos_iff, List.any_eq_true]
    refine exists_congr fun j => ?_
    rw [mem_relCells h, mem_wordCells h, Bool.and_eq_true, Bool.not_eq_true', and_assoc]
  have hany : (wordCells nd k).any (outOf nd) = ((relWrite nd c (k / relPer nd)).mask != 2 ^ 64 - 1) := by
    rw [Bool.eq_iff_iff, bne_iff_ne, Ne, relMask_full h, List.any_eq_true]
    simp
  by_cases h0 : (relWrite nd c (k / relPer nd)).mask = 0
  · have hall := (relMask_eq_zero h k).mp h0
    have hnone : ((wordCells nd k).any fun j => !outOf nd j && (relPattern nd (relCell nd j)).2.1) = false := by
      rw [List.any_eq_false]; intro j hj; simp [hall j hj]
    have hone : (2 : ℕ) ^ 64 - 1 ≠ 0 := by decide
    rw [WordWrite.on, if_pos h0, hnone, hany, h0, bne_iff_ne.mpr hone.symm]
    simp
  · rw [WordWrite.on, if_neg h0, hany, ← hbad]
    rfl

theorem f_relWrite (h : nd.ofmt < 11) {k : ℕ} (hout : outOf nd k = false) (w : TWord) : ((relWrite nd c (k / relPer nd)).on w).f = true := by
  have h0 : (relWrite nd c (k / relPer nd)).mask ≠ 0 := fun h0 => by
    have := (relMask_eq_zero h k).mp h0 k ((mem_wordCells h).mpr rfl)
    rw [hout] at this
    exact absurd this (by decide)
  rw [WordWrite.on, if_neg h0]

/-- The packed release (R265). -/
theorem releasePacked_lays {s : State} (hs : Safe s) (ha : Awake s) (hc : c < 3072) (h : nd.ofmt < 11)
    (hroom : nd.base + 512 * relBytes nd.ofmt ≤ 2 ^ 17) : let o := releasePacked s c nd
    Calm s o.1 c (limFlag nd o.2.2) ∧ o.2.1 = badCells nd ∧
      o.2.2 = (List.range 4096).countP (fun k => !outOf nd k && (relPattern nd (relCell nd k)).2.2) ∧
      ∀ k < 4096, getWord o.1.mem (wordKey c (nd.base + k / relPer nd)) =
        (relWrite nd c (k / relPer nd)).on (getWord s.mem (wordKey c (nd.base + k / relPer nd))) := by
  intro o
  have ho : o = _ := releasePacked_eq h s c
  obtain ⟨hcalm, hmem, hbad, hlim⟩ := relFold_calm (nd := nd) c (List.range (4096 / relPer nd)) ha 0 0
  rw [← ho, Nat.zero_add] at hbad hlim
  rw [← ho] at hcalm hmem
  refine ⟨hlim ▸ hcalm, ?_, hlim.trans (sum_countP_relCells h _), fun k hk => ?_⟩
  · rw [hbad, badCells]
    refine (sum_countP_relCells h fun k => (relPattern nd (relCell nd k)).2.1).trans (List.countP_congr fun k _ => ?_)
    rw [relPattern_bad nd _ h]; rfl
  · rw [hmem]
    exact getWord_release hs hc hroom ((Nat.div_lt_iff_lt_mul (relPer_pos h).1).mpr (by rw [(relPer_pos h).2.2.2]; exact hk))

end

end Sys2Proof.Safety
end

section
/-! PROOFS. A slab of a product: cells changed, leading planes that the detector skips, and the dot products (R46 to R51, R257). -/

namespace Sys2Proof.Safety

open Sys2Proof.Machine

/-! ## Cells listed by their number -/

theorem get_listed (l : List ℕ) (g : ℕ → ACell) (k : ℕ) :
    Sp.get ((l.map fun k => (k, g k)).filter fun e => e.2 != {}) k {} = if k ∈ l then g k else {} := by
  induction l with
  | nil => rfl
  | cons a l ih =>
    rw [List.map_cons, List.filter_cons]
    by_cases hk : k = a
    · subst hk
      rw [if_pos List.mem_cons_self]
      split
      · simp [Sp.get, Sp.find?]
      · next h =>
        have hg : g k = {} := by simpa using h
        rw [ih, hg]; simp
    · have hmem : k ∈ a :: l ↔ k ∈ l := by simp [hk]
      simp only [hmem]
      split
      · rw [← ih]; simp [Sp.get, Sp.find?, hk]
      · exact ih

theorem filterMap_listed (l : List ℕ) (f : ℕ → ACell × ℕ) :
    (l.map fun k => (k, f k)).filterMap (fun e => if e.2.1 = {} then none else some (e.1, e.2.1)) =
      (l.map fun k => (k, (f k).1)).filter fun e => e.2 != {} := by
  induction l with
  | nil => rfl
  | cons a l ih =>
    rw [List.map_cons, List.map_cons, List.filter_cons]
    by_cases h : (f a).1 = {}
    · rw [List.filterMap_cons_none (by simp [h]), ih, if_neg (by simp [h])]
    · rw [List.filterMap_cons_some (b := (a, (f a).1)) (by simp [h]), ih, if_pos (by simp [h])]

section
variable (nd : Node) (f : ℕ → ℕ → ACell → ACell × ℕ)

theorem mapCells_eq : mapCells nd f =
    ({ nd with cells := ((List.range 4096).map fun k => (k, (f (k / 64) (k % 64) (relCell nd k)).1)).filter fun e => e.2 != {} },
      flagsOf ((List.range 4096).map fun k => (f (k / 64) (k % 64) (relCell nd k)).2)) := by
  rw [← filterMap_listed (List.range 4096) fun k => f (k / 64) (k % 64) (relCell nd k)]
  unfold mapCells
  dsimp only
  rw [List.map_map]
  congr 1
theorem relCell_mapCells {k : ℕ} (hk : k < 4096) : relCell (mapCells nd f).1 k = (f (k / 64) (k % 64) (relCell nd k)).1 := by
  rw [mapCells_eq, relCell, get_listed, if_pos (List.mem_range.mpr hk)]
theorem mapCells_node : (mapCells nd f).1 = { nd with cells := (mapCells nd f).1.cells } := by
  rw [mapCells_eq]
theorem mapCells_flags : (mapCells nd f).2 = flagsOf ((List.range 4096).map fun k => (f (k / 64) (k % 64) (relCell nd k)).2) := by
  rw [mapCells_eq]

end

/-! ## Patterns of elements -/

/-- The planes of an element as the detector sees them (R48). -/
def patOf (p : Machine.PSet) (e : El) : ℕ := match e with | some x => if isTC p.code then Num.wrap (elInt x) p.w else x.2 | none => 0

theorem elInt_intEl (x : ℤ) : elInt (decide (x < 0), x.natAbs) = x := by
  unfold elInt
  rcases lt_or_ge x 0 with h | h
  · rw [decide_eq_true h, if_pos rfl]; omega
  · rw [decide_eq_false (not_lt.mpr h), if_neg Bool.false_ne_true]; omega

theorem wrap_asS {v n : ℕ} (hn : 0 < n) (hv : v < 2 ^ n) : Num.wrap (Num.asS v n) n = v := by
  rw [asS_eq_toInt v n hn, wrap_eq_toNat, BitVec.ofInt_toInt, BitVec.toNat_ofNat, Nat.mod_eq_of_lt hv]

section
variable {p : Machine.PSet} {m : List Host.Cell} {k l : ℕ}

theorem el_value {x : Bool × ℕ} (h : p.el m k l = some x) : elInt x = (if isTC p.code then Num.asS (p.pattern m k l) p.w else elInt x) ∧
    (isTC p.code = false → x.2 = p.pattern m k l) := by
  unfold PSet.el at h
  split at h
  · cases h
  · dsimp only at h
    split at h
    · next hc => cases h; simp only [hc, if_true]; exact ⟨elInt_intEl _, fun h => absurd h (by simp)⟩
    · next hc =>
      simp only [hc]
      split at h <;> (cases h; exact ⟨rfl, fun _ => rfl⟩)

theorem patOf_el (hw : 0 < p.w) {x : Bool × ℕ} (h : p.el m k l = some x) : patOf p (some x) = p.pattern m k l := by
  obtain ⟨h1, h2⟩ := el_value h
  unfold patOf
  cases hc : isTC p.code
  · simpa using h2 hc
  · simp only [hc, if_true] at h1 ⊢
    rw [h1, wrap_asS hw (pattern_lt _ _ _ _)]

/-! ## The detector -/

/-- All patterns of some rows laid over each other. -/
def orRows (p : Machine.PSet) (rows : List (ℕ × List El)) : ℕ := rows.foldl (fun a e => e.2.foldl (fun a x => a ||| patOf p x) a) 0

theorem testBit_foldl_or {α : Type} (g : α → ℕ) (l : List α) (a n : ℕ) :
    (l.foldl (fun a x => a ||| g x) a).testBit n = true ↔ a.testBit n = true ∨ ∃ x ∈ l, (g x).testBit n = true := by
  induction l generalizing a with
  | nil => simp
  | cons x l ih => rw [List.foldl_cons, ih, Nat.testBit_or, Bool.or_eq_true, List.exists_mem_cons_iff, or_assoc]

theorem testBit_orRows (p : Machine.PSet) (rows : List (ℕ × List El)) (n : ℕ) :
    (orRows p rows).testBit n = true ↔ ∃ e ∈ rows, ∃ x ∈ e.2, (patOf p x).testBit n = true := by
  have h : ∀ (rows : List (ℕ × List El)) (a : ℕ), (rows.foldl (fun a e => e.2.foldl (fun a x => a ||| patOf p x) a) a).testBit n = true ↔
      a.testBit n = true ∨ ∃ e ∈ rows, ∃ x ∈ e.2, (patOf p x).testBit n = true := by
    intro rows
    induction rows with
    | nil => simp
    | cons e rows ih => intro a; rw [List.foldl_cons, ih, testBit_foldl_or, List.exists_mem_cons_iff, or_assoc]
  rw [orRows, h]
  simp

/-- An element counts: its row is not masked, and it is no error. -/
def Counts (m : List Host.Cell) (p : Machine.PSet) (k : ℕ) (masked : BitVec 64) (l : ℕ) : Prop :=
  l < 2048 ∧ masked.getLsbD (l / 32) = false ∧ (p.el m k l).isSome

def countedRows (m : List Host.Cell) (p : Machine.PSet) (k : ℕ) (masked : BitVec 64) : List (ℕ × List El) :=
  ((List.range 64).zip (slabEls m p k)).filter fun e => !bit masked.toNat e.1

theorem mem_countedRows {masked : BitVec 64} {e : ℕ × List El} : e ∈ countedRows m p k masked ↔
    e.1 < 64 ∧ masked.getLsbD e.1 = false ∧ e.2 = (List.range 32).map fun j => p.el m k (32 * e.1 + j) := by
  have hzip : (List.range 64).zip (slabEls m p k) = (List.range 64).map fun i => (i, (List.range 32).map fun j => p.el m k (32 * i + j)) := by
    have := List.zip_map' (f := id) (g := fun i => (List.range 32).map fun j => p.el m k (32 * i + j)) (l := List.range 64)
    rwa [List.map_id] at this
  rw [countedRows, hzip, List.mem_filter, List.mem_map, bit_eq_testBit, BitVec.testBit_toNat, Bool.not_eq_true']
  constructor
  · rintro ⟨⟨i, hi, rfl⟩, h⟩
    exact ⟨List.mem_range.mp hi, h, rfl⟩
  · rintro ⟨hi, h, he⟩
    exact ⟨⟨e.1, List.mem_range.mpr hi, Prod.ext rfl he.symm⟩, h⟩

/-- A bit of the patterns laid over each other is one of an element that counts. -/
theorem testBit_counted (hw : 0 < p.w) (masked : BitVec 64) (n : ℕ) :
    (orRows p (countedRows m p k masked)).testBit n = true ↔ ∃ l, Counts m p k masked l ∧ (p.pattern m k l).testBit n = true := by
  rw [testBit_orRows]
  constructor
  · rintro ⟨e, he, x, hx, hbit⟩
    obtain ⟨hi, hmask, hrow⟩ := mem_countedRows.mp he
    rw [hrow] at hx
    obtain ⟨j, hj, rfl⟩ := List.mem_map.mp hx
    have hj := List.mem_range.mp hj
    cases hel : p.el m k (32 * e.1 + j) with
    | none => rw [hel] at hbit; simp [patOf] at hbit
    | some y =>
      rw [hel, patOf_el hw hel] at hbit
      exact ⟨32 * e.1 + j, ⟨by omega, by rwa [show (32 * e.1 + j) / 32 = e.1 by omega], by rw [hel]; rfl⟩, hbit⟩
  · rintro ⟨l, ⟨hl, hmask, hsome⟩, hbit⟩
    obtain ⟨y, hel⟩ := Option.isSome_iff_exists.mp hsome
    refine ⟨(l / 32, (List.range 32).map fun j => p.el m k (32 * (l / 32) + j)), mem_countedRows.mpr ⟨by dsimp only; omega, hmask, rfl⟩,
      some y, List.mem_map.mpr ⟨l % 32, List.mem_range.mpr (Nat.mod_lt _ (by omega)), by rw [Nat.div_add_mod, hel]⟩, by rwa [patOf_el hw hel]⟩

theorem lt_two_pow_bitLen (n : ℕ) : n < 2 ^ bitLen n := by
  unfold bitLen
  split
  · next h => rw [h]; decide
  · exact Nat.lt_log2_self
theorem testBit_bitLen {n : ℕ} (h : 0 < bitLen n) : n.testBit (bitLen n - 1) = true := by
  unfold bitLen at h ⊢
  split at h
  · omega
  · next h0 =>
    rw [if_neg h0, Nat.add_sub_cancel]
    exact Nat.testBit_log2 h0

theorem slabTrim_eq (masked : BitVec 64) : slabTrim p masked.toNat (slabEls m p k) = p.w - bitLen (orRows p (countedRows m p k masked)) := rfl

/-- What the detector skips (R48). -/
theorem slabTrim_trimsBy (hw : 0 < p.w) (masked : BitVec 64) (on : Bool) (cap : ℕ) :
    TrimsBy m p k masked on cap (if on then min cap (slabTrim p masked.toNat (slabEls m p k)) else 0) := by
  refine ⟨fun h => by rw [h]; rfl, fun h => ?_⟩
  have hbits := testBit_counted (m := m) (k := k) hw masked
  rw [h, if_pos rfl, slabTrim_eq]
  set V := orRows p (countedRows m p k masked)
  have hV : bitLen V ≤ p.w := by
    by_contra hlt
    obtain ⟨l, -, hbit⟩ := (hbits _).mp (testBit_bitLen (n := V) (by omega))
    have hle := Nat.ge_two_pow_of_testBit hbit
    have hpat : p.pattern m k l < 2 ^ p.w := pattern_lt _ _ _ _
    have hmono : 2 ^ p.w ≤ 2 ^ (bitLen V - 1) := Nat.pow_le_pow_right (by omega) (by omega)
    omega
  refine ⟨by omega, fun l hl => ?_, fun hlt => ?_⟩
  · refine Nat.lt_pow_two_of_testBit _ fun i hi => ?_
    by_contra hbit
    have hset := (hbits i).mpr ⟨l, hl, by simpa using hbit⟩
    have hge := Nat.ge_two_pow_of_testBit hset
    have hmono : 2 ^ bitLen V ≤ 2 ^ i := Nat.pow_le_pow_right (by omega) (by omega)
    have := lt_two_pow_bitLen V
    omega
  · obtain ⟨l, hl, hbit⟩ := (hbits _).mp (testBit_bitLen (n := V) (by omega))
    have hexp : p.w - min cap (p.w - bitLen V) - 1 = bitLen V - 1 := by omega
    exact ⟨l, hl, hexp ▸ Nat.ge_two_pow_of_testBit hbit⟩

/-- An element's value, an error being 0. -/
def elVal (e : El) : ℤ := match e with | some y => elInt y | none => 0

/-- An element whose skipped planes are zero keeps its value (R46, R48). -/
theorem trimmed_eq (hw : 0 < p.w) {masked : BitVec 64} {on : Bool} {cap t : ℕ} (h : TrimsBy m p k masked on cap t) (hl : l < 2048)
    (hmask : masked.getLsbD (l / 32) = false) : trimmed p t (p.el m k l) = elVal (p.el m k l) := by
  cases hel : p.el m k l with
  | none => rfl
  | some x =>
    obtain ⟨h1, h2⟩ := el_value hel
    unfold trimmed elVal
    dsimp only
    by_cases ht : t = 0
    · rw [if_pos ht]
    · have hon : on = true := by cases on; exacts [absurd (h.1 rfl) ht, rfl]
      obtain ⟨hle, hpat, -⟩ := h.2 hon
      have hpat := hpat l ⟨hl, hmask, by rw [hel]; rfl⟩
      rw [if_neg ht]
      cases hc : isTC p.code
      · rw [if_neg (by simp), h2 hc, Nat.mod_eq_of_lt hpat, ← h2 hc]
      · rw [hc, if_pos rfl] at h1
        have hlt : p.pattern m k l < 2 ^ p.w := pattern_lt _ _ _ _
        obtain ⟨w, hwe⟩ := Nat.exists_eq_succ_of_ne_zero hw.ne'
        have hhalf : p.pattern m k l < 2 ^ p.w / 2 := by
          refine lt_of_lt_of_le hpat ?_
          rw [hwe, Nat.pow_succ, Nat.mul_div_cancel _ (by omega)]
          exact Nat.pow_le_pow_right (by omega) (by omega)
        rw [if_pos rfl, h1, wrap_asS hw hlt, Nat.mod_eq_of_lt hpat, Num.asS, Nat.mod_eq_of_lt hlt, if_pos hhalf]

end

/-! ## The slab -/

theorem dot_map (f g : ℕ → ℤ) (l : List ℕ) : dot (l.map f) (l.map g) = (l.map fun j => f j * g j).sum := by
  induction l with
  | nil => rfl
  | cons a l ih => rw [List.map_cons, List.map_cons, dot, ih, List.map_cons, List.sum_cons]

/-- The rows of a slab as values. -/
theorem nthD_slab {α : Type} (m : List Host.Cell) (p : Machine.PSet) (k : ℕ) (g : List El → α) {i : ℕ} (hi : i < 64) (d : α) :
    nthD ((slabEls m p k).map g) i d = g ((List.range 32).map fun j => p.el m k (32 * i + j)) := by
  rw [slabEls, List.map_map, nthD_map_range _ hi]; rfl

/-- Whether a row of A or a column of B has an element in error. -/
def rowErr (m : List Host.Cell) (p : Machine.PSet) (k i : ℕ) : Bool := (List.range 32).any fun l => (p.el m k (32 * i + l)).isNone

section
variable (s : State) (c : ℕ) (nd : Node) (pp : BitVec 64) (a b : Machine.PSet) (k : ℕ) (values : Bool)

/-- Whether the detector looks at an operand. -/
def trimOn (n : ℕ) : Bool := values && (s.core c).lbdCtl.getLsbD 0 && pp.getLsbD n
def trimA : ℕ := if trimOn s c pp values 12 then min (bits (s.core c).lbdCtl.toNat 8 4) (slabTrim a nd.mrow.toNat (slabEls s.mem a k)) else 0
def trimB : ℕ := if trimOn s c pp values 13 then min (bits (s.core c).lbdCtl.toNat 16 12) (slabTrim b nd.mcol.toNat (slabEls s.mem b k)) else 0
/-- What the product of a row and a column adds to a cell. -/
def slabCell (i j : ℕ) (x : ACell) : ACell × ℕ :=
  let x := { x with err := x.err || rowErr s.mem a k i || rowErr s.mem b k j }
  if values then cellAdd x ((List.range 32).map fun l => trimmed a (trimA s c nd pp a k values) (a.el s.mem k (32 * i + l)) *
      trimmed b (trimB s c nd pp b k values) (b.el s.mem k (32 * j + l))).sum (a.exp s.mem k (32 * i) + b.exp s.mem k (32 * j))
  else (x, 0)

theorem mapCells_congr {nd : Node} {f g : ℕ → ℕ → ACell → ACell × ℕ} (h : ∀ i < 64, ∀ j < 64, f i j = g i j) : mapCells nd f = mapCells nd g := by
  unfold mapCells
  have : (List.range 4096).map (fun k => (k, f (k / 64) (k % 64) (nd.cells.get k {}))) =
      (List.range 4096).map fun k => (k, g (k / 64) (k % 64) (nd.cells.get k {})) :=
    List.map_congr_left fun k hk => by
      have hk := List.mem_range.mp hk
      rw [h (k / 64) (by omega) (k % 64) (by omega)]
  rw [this]

theorem slabWork_eq : slabWork s c nd pp a b k values =
    ((mapCells nd (slabCell s c nd pp a b k values)).1, (mapCells nd (slabCell s c nd pp a b k values)).2,
      max 1 ((a.w - trimA s c nd pp a k values) * (b.w - trimB s c nd pp b k values))) := by
  unfold slabWork
  have hon : ∀ n, (values && bit (s.core c).lbdCtl.toNat 0 && bit pp.toNat n) = trimOn s c pp values n := fun n => by
    rw [bit_eq_testBit, bit_eq_testBit, BitVec.testBit_toNat, BitVec.testBit_toNat]; rfl
  simp only [hon]
  have hcells := mapCells_congr (nd := nd) (f := fun i j x =>
      let x : ACell := { x with err := (x.err || nthD ((slabEls s.mem a k).map fun l => l.any (·.isNone)) i false || nthD ((slabEls s.mem b k).map fun l => l.any (·.isNone)) j false) }
      if values then cellAdd x (dot (nthD ((slabEls s.mem a k).map fun l => l.map (trimmed a (trimA s c nd pp a k values))) i [])
        (nthD ((slabEls s.mem b k).map fun l => l.map (trimmed b (trimB s c nd pp b k values))) j []))
        (nthD ((List.range 64).map fun i => a.exp s.mem k (32 * i)) i 0 + nthD ((List.range 64).map fun j => b.exp s.mem k (32 * j)) j 0)
      else (x, 0)) (g := slabCell s c nd pp a b k values) fun i hi j hj => by
    funext x
    unfold slabCell rowErr
    rw [nthD_slab _ _ _ _ hi, nthD_slab _ _ _ _ hj, nthD_slab _ _ _ _ hi, nthD_slab _ _ _ _ hj, nthD_map_range _ hi, nthD_map_range _ hj,
      List.map_map, List.map_map, dot_map, List.any_map, List.any_map]
    rfl
  rw [← hcells]
  rfl

/-- A slab of an MMP, or of the error pass alone (R46 to R51, R262, R263). -/
theorem slabWork_spec (ha : 0 < a.w) (hb : 0 < b.w) : let o := slabWork s c nd pp a b k values
    ∃ ta tb, TrimsBy s.mem a k nd.mrow (trimOn s c pp values 12) (bits (s.core c).lbdCtl.toNat 8 4) ta ∧
      TrimsBy s.mem b k nd.mcol (trimOn s c pp values 13) (bits (s.core c).lbdCtl.toNat 16 12) tb ∧
      o.2.2 = max 1 ((a.w - ta) * (b.w - tb)) ∧ o.1 = { nd with cells := o.1.cells } ∧
      ∃ (S : ℕ → ℚ) (sat flush : ℕ → Bool),
        o.2.1 = flagsOf ((List.range 4096).map fun j => (if sat j then flAccSat else 0) + if flush j then flAccFlush else 0) ∧
        ∀ i < 64, ∀ j < 64, let z := 64 * i + j
          (relCell o.1 z).err = ((relCell nd z).err || rowErr s.mem a k i || rowErr s.mem b k j) ∧
          (values = false → (relCell o.1 z).m = (relCell nd z).m ∧ (relCell o.1 z).x = (relCell nd z).x ∧ sat z = false ∧ flush z = false) ∧
          (values = true → Acc48 (S z) (relCell o.1 z) (sat z) (flush z) ∧ (nd.mrow.getLsbD i = false → nd.mcol.getLsbD j = false →
            S z = accNum (relCell nd z) + (((List.range 32).map fun l => elVal (a.el s.mem k (32 * i + l)) * elVal (b.el s.mem k (32 * j + l))).sum : ℤ) *
              (2 : ℚ) ^ (a.exp s.mem k (32 * i) + b.exp s.mem k (32 * j)))) := by
  intro o
  have ho : o = _ := slabWork_eq s c nd pp a b k values
  have hta : TrimsBy s.mem a k nd.mrow (trimOn s c pp values 12) (bits (s.core c).lbdCtl.toNat 8 4) (trimA s c nd pp a k values) :=
    slabTrim_trimsBy ha _ _ _
  have htb : TrimsBy s.mem b k nd.mcol (trimOn s c pp values 13) (bits (s.core c).lbdCtl.toNat 16 12) (trimB s c nd pp b k values) :=
    slabTrim_trimsBy hb _ _ _
  have hcell : ∀ z, ∃ (S : ℚ) (sat flush : Bool), let i := z / 64; let j := z % 64; let y := slabCell s c nd pp a b k values i j (relCell nd z)
      y.2 = ((if sat then flAccSat else 0) + if flush then flAccFlush else 0) ∧
      y.1.err = ((relCell nd z).err || rowErr s.mem a k i || rowErr s.mem b k j) ∧
      (values = false → y.1.m = (relCell nd z).m ∧ y.1.x = (relCell nd z).x ∧ sat = false ∧ flush = false) ∧
      (values = true → Acc48 S y.1 sat flush ∧ (i < 64 → nd.mrow.getLsbD i = false → nd.mcol.getLsbD j = false →
        S = accNum (relCell nd z) + (((List.range 32).map fun l => elVal (a.el s.mem k (32 * i + l)) * elVal (b.el s.mem k (32 * j + l))).sum : ℤ) *
          (2 : ℚ) ^ (a.exp s.mem k (32 * i) + b.exp s.mem k (32 * j)))) := fun z => by
    unfold slabCell
    cases values
    · exact ⟨0, false, false, rfl, rfl, fun _ => ⟨rfl, rfl, rfl, rfl⟩, fun h => absurd h (by decide)⟩
    · obtain ⟨sat, flush, hacc, herr, hfl⟩ := acc48_cellAdd
        { relCell nd z with err := (relCell nd z).err || rowErr s.mem a k (z / 64) || rowErr s.mem b k (z % 64) }
        ((List.range 32).map fun l => trimmed a (trimA s c nd pp a k true) (a.el s.mem k (32 * (z / 64) + l)) *
          trimmed b (trimB s c nd pp b k true) (b.el s.mem k (32 * (z % 64) + l))).sum (a.exp s.mem k (32 * (z / 64)) + b.exp s.mem k (32 * (z % 64)))
      refine ⟨_, sat, flush, hfl, herr, fun h => absurd h (by decide), fun _ => ⟨hacc, fun hi hrow hcol => ?_⟩⟩
      have hsum : ((List.range 32).map fun l => trimmed a (trimA s c nd pp a k true) (a.el s.mem k (32 * (z / 64) + l)) *
          trimmed b (trimB s c nd pp b k true) (b.el s.mem k (32 * (z % 64) + l))) =
          (List.range 32).map fun l => elVal (a.el s.mem k (32 * (z / 64) + l)) * elVal (b.el s.mem k (32 * (z % 64) + l)) :=
        List.map_congr_left fun l hl => by
          have hl := List.mem_range.mp hl
          rw [trimmed_eq ha hta (by omega) (by rwa [show (32 * (z / 64) + l) / 32 = z / 64 by omega]),
            trimmed_eq hb htb (by omega) (by rwa [show (32 * (z % 64) + l) / 32 = z % 64 by omega])]
      rw [hsum]
      rfl
  choose S sat flush hcell using hcell
  refine ⟨trimA s c nd pp a k values, trimB s c nd pp b k values, hta, htb, by rw [ho], ?_, S, sat, flush, ?_, ?_⟩
  · rw [ho]
    dsimp only
    exact mapCells_node nd _
  · rw [ho]
    dsimp only
    rw [mapCells_flags]
    exact congrArg flagsOf (List.map_congr_left fun z _ => (hcell z).1)
  · intro i hi j hj z
    have hdiv : z / 64 = i := by omega
    have hmod : z % 64 = j := by omega
    have hrel : relCell o.1 z = (slabCell s c nd pp a b k values i j (relCell nd z)).1 := by
      rw [ho]
      dsimp only
      rw [relCell_mapCells _ _ (by omega), hdiv, hmod]
    have hz := hcell z
    simp only [hdiv, hmod] at hz
    obtain ⟨-, herr, hf, ht⟩ := hz
    rw [hrel]
    exact ⟨herr, hf, fun h => ⟨(ht h).1, (ht h).2 hi⟩⟩

end

end Sys2Proof.Safety
end

section
/-! PROOFS. The matrix engine's acts: how a command begins, ends, waits, meets a condition, works a slab, writes and loads an image (R252, R257,
R262 to R268, R271). -/

namespace Sys2Proof.Safety

open Sys2Proof.Machine

/-! ## What the engine is asked to do -/

section
variable {s : State} {c : ℕ} {w : MatRun} {i : Instr} {run : State → ℕ → MatRun → State}

theorem matExec_run (hf : s.focus = .engine c .mat) (hm : (s.core c).mat = some w) (hi : w.cmd.i = i) (ht : ∃ t, w.till = some t ∧ t ≤ coreCclk s c)
    (hr : w.rel = none) : matExec s i run = .next (run s c w) := by
  obtain ⟨t, ht, hle⟩ := ht
  unfold matExec
  simp [hf, hm, hi, hr, ht, MatRun.free, hle]
theorem matExec_release {n : ℕ} (hf : s.focus = .engine c .mat) (hm : (s.core c).mat = some w) (hi : w.cmd.i = i)
    (ht : ∃ t, w.till = some t ∧ t ≤ coreCclk s c) (hr : w.rel = some n) : matExec s i run = .next (matRelease s c n) := by
  obtain ⟨t, ht, hle⟩ := ht
  unfold matExec
  simp [hf, hm, hi, hr, ht, MatRun.free, hle]
theorem matExec_begin (hf : s.focus = .engine c .mat) (hm : (s.core c).mat = some w) (hi : w.cmd.i = i) (ht : w.till = none) :
    matExec s i run = .next (matBegin s c w) := by
  unfold matExec
  simp [hf, hm, hi, ht, MatRun.free]
theorem matExec_start {r : Released} {q : List Released} (hf : s.focus = .engine c .mat) (hm : (s.core c).mat = none) (hq : (s.core c).matQ = r :: q)
    (hi : r.i = i) : matExec s i run = .next (matBegin (secStart (s.setCore c { s.core c with matQ := q }) c r.sec) c { cmd := r }) := by
  unfold matExec
  simp [hf, hm, hq, hi]

/-- Every command of the matrix engine has a work of its own in one frame. -/
theorem exec_of_mat (h : engOf i = some .mat) : ∃ run, ∀ s, exec i s = matExec s i run := by
  cases i
  case ppSet | sclSet | sclDerive | lbdCfg | accArm | mmp | mmpE | accRel | accClr | accSave | accLoad | accStat => exact ⟨_, fun _ => rfl⟩
  all_goals cases h

end

/-! ## A command begins -/

theorem matFixed_congr {co co' : Core} (h : co.pp = co'.pp) (i : Instr) : matFixed co i = matFixed co' i := by
  unfold matFixed matCost
  rw [h]

section
variable (s : State) (c : ℕ)

/-- A core with a command begun. -/
def begunRun (w : MatRun) : MatRun :=
  { w with started := true, pp := startPp (s.core c) w, cycles := 14, skipped := 0, waitW := none, till := some (coreCclk s c + matFixed (s.core c) w.cmd.i) }

theorem matBegin_core (w : MatRun) : (matBegin s c w).core c = { s.core c with mat := some (begunRun s c w) } := by
  unfold matBegin matPut begunRun
  rw [State.core_modCore_self]
theorem matBegin_mem (w : MatRun) : (matBegin s c w).mem = s.mem := rfl
theorem matBegin_net (w : MatRun) : (matBegin s c w).net = s.net := rfl

theorem secStart_rest (sec : Option ℕ) : (secStart s c sec).mem = s.mem ∧ (secStart s c sec).net = s.net ∧ (secStart s c sec).dies = s.dies ∧
    ∃ l, (secStart s c sec).core c = { s.core c with secs := l } := by
  cases sec with
  | none => exact ⟨rfl, rfl, rfl, _, rfl⟩
  | some n => exact ⟨rfl, rfl, rfl, _, State.core_modCore_self _ _ _⟩

/-! ## A command ends -/

variable {s c}

theorem sent_sendDone (s : State) (r : Released) (v : Val) : Sent (sendDone s r v) r v := by
  intro slot hslot
  unfold sendDone
  rw [hslot]
  simp
theorem sendDone_core (s : State) (r : Released) (v : Val) (j : ℕ) : (sendDone s r v).core j = s.core j := by
  rw [sendDone_rest]; rfl
theorem sendDone_die (s : State) (r : Released) (v : Val) (d : ℕ) : (sendDone s r v).die d = s.die d := by
  rw [sendDone_rest]; rfl
theorem sendDone_mem (s : State) (r : Released) (v : Val) : (sendDone s r v).mem = s.mem := by
  rw [sendDone_rest]

theorem matDone_spec (s : State) (c : ℕ) (w : MatRun) (v : Val) : (matDone s c w v).mem = s.mem ∧
    (matDone s c w v).core c = { s.core c with mat := none } ∧ Sent (matDone s c w v) w.cmd v := by
  unfold matDone
  exact ⟨sendDone_mem _ _ _, by rw [sendDone_core, State.core_modCore_self], sent_sendDone _ _ _⟩

theorem node_eq (s : State) (c n : ℕ) : s.node c n = (s.core c).nodes.get n {} := rfl
theorem core_setNode (s : State) (c n : ℕ) (x : Node) : (s.setNode c n x).core c = { s.core c with nodes := (s.core c).nodes.put n x } := by
  rw [State.setNode, State.core_modCore_self]
theorem node_setNode (s : State) (c n : ℕ) (x : Node) : (s.setNode c n x).node c n = x := by
  rw [node_eq, core_setNode, Sp.get_put_self]

/-- A condition ends a command (R252). -/
theorem matFault_spec (s : State) (c : ℕ) (w : MatRun) (n reason : ℕ) : let t := matFault s c w n reason
    t.mem = s.mem ∧ (t.core c).matQ = (s.core c).matQ ∧ (t.core c).mat = none ∧ Sent t w.cmd ⟨BitVec.ofNat 64 reason, true⟩ ∧
      t.node c n = { s.node c n with nfault := min ((s.node c n).nfault + 1) 0xFFFF, lastf := reason } := by
  obtain ⟨hmem, hcore, hsent⟩ := matDone_spec (noteFault s c n reason) c w ⟨BitVec.ofNat 64 reason, true⟩
  have hnote : (noteFault s c n reason).core c = _ := core_setNode s c n _
  exact ⟨hmem, by rw [matFault, hcore, hnote], by rw [matFault, hcore], hsent, by rw [matFault, node_eq, hcore]; exact node_setNode s c n _⟩

/-- A release that has become due begins behind a command, unless a checkpoint is to save its node. -/
def releaseDue (s : State) (c n : ℕ) (nd : Node) (w : MatRun) (now : ℕ) : Option MatRun :=
  if nd.due && !(s.core c).secs.any (fun y => y.saveTo.isSome && nd.sec == some y.ser) then
    some { w with rel := some n, started := true, waitW := none, till := some (now + 96) } else none

theorem matEnd_spec (s : State) (c n : ℕ) (w : MatRun) (v : Val) : let t := matEnd s c n w v
    t.mem = s.mem ∧ t.core c = { s.core c with mat := releaseDue s c n (s.node c n) w (coreCclk s c) } ∧ Sent t w.cmd v := by
  unfold matEnd
  refine ⟨sendDone_mem _ _ _, ?_, sent_sendDone s w.cmd v⟩
  have hnow : coreCclk (sendDone s w.cmd v) c = coreCclk s c := by rw [coreCclk, sendDone_die, coreCclk]
  rw [State.core_modCore_self, sendDone_core, hnow]
  rfl

/-- One expected product has come (R262). -/
def countedDown (M : Node) : Node := if M.count = 0 then M else { M with count := M.count - 1, due := decide (M.count = 1) }

theorem countDown_spec (s : State) (c n : ℕ) : (countDown s c n).mem = s.mem ∧ (∃ l, (countDown s c n).core c = { s.core c with nodes := l }) ∧
    (countDown s c n).node c n = countedDown (s.node c n) ∧ coreCclk (countDown s c n) c = coreCclk s c := by
  unfold countDown countedDown
  dsimp only
  split
  · exact ⟨rfl, ⟨_, rfl⟩, rfl, rfl⟩
  · exact ⟨rfl, ⟨_, core_setNode _ _ _ _⟩, node_setNode _ _ _ _, rfl⟩

/-- The end of a product: its count, its token, the release that is due. -/
theorem matEnd_countDown (s : State) (c n : ℕ) (w : MatRun) (v : Val) : let t := matEnd (countDown s c n) c n w v
    t.mem = s.mem ∧ (t.core c).matQ = (s.core c).matQ ∧ Sent t w.cmd v ∧ t.node c n = countedDown (s.node c n) ∧
      (t.core c).mat = releaseDue s c n (t.node c n) w (coreCclk s c) := by
  obtain ⟨hmem, ⟨l, hl⟩, hnode, hnow⟩ := countDown_spec s c n
  obtain ⟨hmem', hcore, hsent⟩ := matEnd_spec (countDown s c n) c n w v
  have htnode : (matEnd (countDown s c n) c n w v).node c n = countedDown (s.node c n) := by rw [← hnode, node_eq, hcore]; rfl
  refine ⟨hmem'.trans hmem, by rw [hcore, hl], hsent, htnode, ?_⟩
  rw [htnode, hcore, hnode, hnow, releaseDue, hl]
  rfl

/-- The engine waits on an empty word (R219). -/
theorem matWait_spec {s : State} (ha : Awake s) (c : ℕ) (w : MatRun) (key : ℕ) : let t := matWait s c w key
    t.mem = s.mem ∧ t.core c = { s.core c with mat := some { w with waitW := some key } } := by
  have haw : Awake (s.modCore c fun co => { co with mat := some { w with waitW := some key } }) := by
    intro k
    have := ha k
    unfold isGated at this ⊢
    split at this <;> simp_all [core_modCore]
    split <;> simp_all
  rw [matWait, awake_eq haw]
  exact ⟨rfl, State.core_modCore_self _ _ _⟩

/-! ## A slab -/

/-- A slab is worked: its node, status bits and counts, and the cycles that it takes. -/
def slabDone (s : State) (c n : ℕ) (nd : Node) (fl skip p : ℕ) (values : Bool) (w : MatRun) : State :=
  let s := setAstat (s.setNode c n nd) c fl
  let s := s.modCore c fun co => { co with lbdSaved := wrap48 (co.lbdSaved + skip) }
  let s := if values then countEv (countEv s c 0x20 p) c 0x21 skip else s
  matPut s c w p

theorem slabDone_spec (s : State) (c n : ℕ) (nd : Node) (fl skip p : ℕ) (values : Bool) (w : MatRun) : let t := slabDone s c n nd fl skip p values w
    t.mem = s.mem ∧ (t.core c).matQ = (s.core c).matQ ∧ (t.core c).mat = some { w with waitW := none, till := some (coreCclk s c + p) } ∧
      (t.core c).lbdSaved = ((s.core c).lbdSaved + skip) % 2 ^ 48 ∧ t.node c n = nd ∧ Raised s t c fl := by
  unfold slabDone
  dsimp only
  set u := (setAstat (s.setNode c n nd) c fl).modCore c fun co => { co with lbdSaved := wrap48 (co.lbdSaved + skip) } with hu
  have hcore : u.core c = { s.core c with
      nodes := (s.core c).nodes.put n nd, astat := (s.core c).astat ||| BitVec.ofNat 64 fl
      lbdSaved := wrap48 ((s.core c).lbdSaved + skip) } := by
    rw [hu, State.core_modCore_self, core_setAstat, core_setNode]
  have hmem : u.mem = s.mem := by rw [hu, State.modCore_mem, setAstat_rest]; rfl
  have hdies : u.dies = s.dies := by rw [hu, State.modCore_dies, setAstat_rest]; rfl
  have hcount : Counted u (if values then countEv (countEv u c 0x20 p) c 0x21 skip else u) c := by
    cases values
    · exact Counted.refl u c
    · exact (countEv_counted u c 0x20 p).trans (countEv_counted _ c 0x21 skip)
  set v := if values then countEv (countEv u c 0x20 p) c 0x21 skip else u
  obtain ⟨m, hm⟩ := hcount.own
  have hvm : v.mem = u.mem := by rw [hcount.rest]
  have hvd : v.dies = u.dies := by rw [hcount.rest]
  have hnow : coreCclk v c = coreCclk s c := by unfold coreCclk State.die; rw [hvd, hdies]
  have hput : (matPut v c w p).core c = { v.core c with mat := some { w with waitW := none, till := some (coreCclk s c + p) } } := by
    rw [matPut, State.core_modCore_self, hnow]
  refine ⟨hvm.trans hmem, ?_, ?_, ?_, ?_, ?_⟩
  · rw [hput, hm, hcore]
  · rw [hput]
  · rw [hput, hm, hcore]; rfl
  · rw [node_eq, hput, hm, hcore, Sp.get_put_self]
  · rw [Raised, hput, hm, hcore]

theorem mmpWork_slab {values : Bool} {n : ℕ} {ga gb : Bool} {ns : ℕ} {s : State} {c : ℕ} {w : MatRun} (hk : w.slab < ns)
    (h0 : w.slab = 0 → (s.node c n).armed = true ∧ slabRange s c (slabA c w ga) ns = false ∧ slabRange s c (slabB c w gb) ns = false) :
    mmpWork values n ga gb ns s c w =
      match firstEmpty s.mem ((slabA c w ga).needs w.slab (List.range 2048) ++ (slabB c w gb).needs w.slab (List.range 2048)) with
      | some key => matWait s c w key
      | none =>
        let o := slabWork s c (s.node c n) w.pp (slabA c w ga) (slabB c w gb) w.slab values
        let skip := if values then (slabA c w ga).w * (slabB c w gb).w - o.2.2 else 0
        let p := if values then o.2.2 else 1
        slabDone s c n o.1 o.2.1 skip p values { w with slab := w.slab + 1, cycles := w.cycles + p, skipped := w.skipped + skip } := by
  have h1 : ¬ w.slab ≥ ns := by omega
  have h2 : (decide (w.slab = 0) && !(s.node c n).armed) = false := by
    by_cases h : w.slab = 0
    · simp [(h0 h).1]
    · simp [h]
  have h3 : (decide (w.slab = 0) && (slabRange s c (slabA c w ga) ns || slabRange s c (slabB c w gb) ns)) = false := by
    by_cases h : w.slab = 0
    · simp [(h0 h).2.1, (h0 h).2.2]
    · simp [h]
  unfold mmpWork
  dsimp only
  rw [if_neg h1, if_neg (by rw [h2]; decide), if_neg (by rw [h3]; decide)]
  rfl

theorem mmpWork_idle {values : Bool} {n : ℕ} {ga gb : Bool} {ns : ℕ} {s : State} {c : ℕ} {w : MatRun} (hns : 0 < ns) (h0 : w.slab = 0)
    (h : (s.node c n).armed = false) : mmpWork values n ga gb ns s c w = matFault s c w n 2 := by
  unfold mmpWork
  dsimp only
  rw [if_neg (by omega), if_pos (by simp [h0, h])]
  rfl

theorem mmpWork_range {values : Bool} {n : ℕ} {ga gb : Bool} {ns : ℕ} {s : State} {c : ℕ} {w : MatRun} (hns : 0 < ns) (h0 : w.slab = 0)
    (h : (s.node c n).armed = true) (hoff : slabRange s c (slabA c w ga) ns = true ∨ slabRange s c (slabB c w gb) ns = true) :
    mmpWork values n ga gb ns s c w = matEnd (countDown ((noteFault s c n 3).setNode c n
      (mapCells ((noteFault s c n 3).node c n) fun _ _ x => ({ x with err := true }, 0)).1) c n) c n w ⟨3, true⟩ := by
  unfold mmpWork
  dsimp only
  rw [if_neg (by omega), if_neg (by simp [h]), if_pos (by simpa [h0] using hoff)]
  rfl

theorem mmpWork_end {values : Bool} {n : ℕ} {ga gb : Bool} {ns : ℕ} {s : State} {c : ℕ} {w : MatRun} (h : ns ≤ w.slab) :
    mmpWork values n ga gb ns s c w = matEnd (countDown s c n) c n w (natVal (w.cycles + w.skipped * 2 ^ 32)) := by
  unfold mmpWork
  dsimp only
  rw [if_pos h]
  rfl

end

end Sys2Proof.Safety
end

section
/-! PROOFS. The images of accumulator nodes: the words that ACC.SAVE writes, and what ACC.LOAD makes of them (R267, R268). -/

namespace Sys2Proof.Safety

open Sys2Proof.Machine

/-! ## A row of whole words is written -/

/-- The accesses that write whole words from word b on. -/
def wholeWrites (c b : ℕ) (vs : List ℕ) : List WordWrite :=
  ((List.range vs.length).zip vs).map fun e => { key := wordKey c (b + e.1), mask := 2 ^ 64 - 1, v := e.2 }

theorem putWords_eq (s : State) (c b : ℕ) (vs : List ℕ) : putWords s c b vs = (wholeWrites c b vs).foldl WordWrite.run s := by
  rw [wholeWrites, List.foldl_map]
  rfl

theorem wholeWrites_keys (c b : ℕ) (vs : List ℕ) : (wholeWrites c b vs).map (·.key) = (List.range vs.length).map fun k => wordKey c (b + k) := by
  have hfst : ((List.range vs.length).zip vs).map Prod.fst = List.range vs.length := List.map_fst_zip (by simp)
  rw [wholeWrites, List.map_map, ← hfst, List.map_map, hfst]
  rfl
theorem wholeWrites_nodup (c b : ℕ) (vs : List ℕ) : ((wholeWrites c b vs).map (·.key)).Nodup := by
  rw [wholeWrites_keys]
  refine List.Nodup.map (fun i j h => ?_) List.nodup_range
  have := wordKey_inj.mp h
  omega
theorem wholeWrites_isWord {c b : ℕ} {vs : List ℕ} (hc : c < 3072) (hb : b + vs.length ≤ 2 ^ 17) : ∀ e ∈ wholeWrites c b vs, IsWord e.key := by
  intro e he
  have hkey : e.key ∈ (wholeWrites c b vs).map (·.key) := List.mem_map_of_mem he
  rw [wholeWrites_keys] at hkey
  obtain ⟨k, hk, hkey⟩ := List.mem_map.mp hkey
  have := List.mem_range.mp hk
  rw [← hkey]
  exact isWord_wordKey hc (by omega)

theorem wholeWrite_on (key v : ℕ) (w : TWord) : WordWrite.on { key, mask := 2 ^ 64 - 1, v } w = ⟨BitVec.ofNat 64 v, true, false⟩ := by
  unfold WordWrite.on
  rw [if_neg (by norm_num)]
  simp only [Nat.sub_self, Nat.and_zero, Nat.zero_or, Nat.and_two_pow_sub_one_eq_mod, bne_self_eq_false, Bool.false_and, Bool.or_self]
  rw [show BitVec.ofNat 64 (v % 2 ^ 64) = BitVec.ofNat 64 v from BitVec.eq_of_toNat_eq (by simp)]

theorem putWords_lays {s : State} (hs : Safe s) (ha : Awake s) {c b : ℕ} {vs : List ℕ} (hc : c < 3072) (hb : b + vs.length ≤ 2 ^ 17) :
    let t := putWords s c b vs
    Calm s t c 0 ∧ ∀ j < vs.length, getWord t.mem (wordKey c (b + j)) = ⟨BitVec.ofNat 64 (nthD vs j 0), true, false⟩ := by
  intro t
  obtain ⟨hcalm, hmem⟩ := runAll_calm (wholeWrites c b vs) ha c
  rw [← putWords_eq] at hcalm hmem
  refine ⟨hcalm, fun j hj => ?_⟩
  have hzip : (j, vs[j]) ∈ (List.range vs.length).zip vs := List.mem_iff_getElem.mpr ⟨j, by simp [hj], by simp⟩
  have hmemb : (⟨wordKey c (b + j), 2 ^ 64 - 1, vs[j], false⟩ : WordWrite) ∈ wholeWrites c b vs := List.mem_map.mpr ⟨_, hzip, rfl⟩
  rw [show t.mem = _ from hmem, getWord_writeAll_of_mem hs (wholeWrites_isWord hc hb) (wholeWrites_nodup c b vs) hmemb, wholeWrite_on, nthD_of_lt hj]

/-! ## ACC.SAVE -/

theorem length_nodeImage (N : Node) : (nodeImage N).length = 4104 := by
  unfold nodeImage
  dsimp only
  split <;> simp only [List.length_append, List.length_map, List.length_range, List.length_cons, List.length_nil]
theorem nodeImage_cell {N : Node} (h : N.armed = true) {j : ℕ} (hj : j < 4096) : nthD (nodeImage N) (8 + j) 0 = cellWord (relCell N j) := by
  unfold nodeImage
  dsimp only
  rw [if_pos h, nthD_eq, List.getElem?_append_right (by simp)]
  simp [hj, h, relCell]

/-- ACC.SAVE's work. -/
def saveWork (n : ℕ) (clr : Bool) (s : State) (c : ℕ) (w : MatRun) : State :=
  let N := s.node c n
  let s := putWords s c (opNat w.cmd 0 % 2 ^ 17) (nodeImage N)
  matDone (if clr then s.setNode c n (clearedNode N) else s) c w (natVal 0)

theorem saveWork_spec {s : State} (hs : Safe s) (ha : Awake s) {c : ℕ} (hc : c < 3072) (n : ℕ) (clr : Bool) (w : MatRun)
    (hb : opNat w.cmd 0 + 4104 ≤ 2 ^ 17) : let t := saveWork n clr s c w
    let N := s.node c n
    (t.core c).mat = none ∧ (t.core c).matQ = (s.core c).matQ ∧
      (∀ j < 4104, getWord t.mem (wordKey c (opNat w.cmd 0 + j)) = ⟨BitVec.ofNat 64 (nthD (nodeImage N) j 0), true, false⟩) ∧
      t.node c n = (if clr then clearedNode N else N) ∧ Sent t w.cmd (natVal 0) := by
  intro t N
  have hbase : opNat w.cmd 0 % 2 ^ 17 = opNat w.cmd 0 := Nat.mod_eq_of_lt (by omega)
  have hlen := length_nodeImage N
  obtain ⟨hcalm, hword⟩ := putWords_lays hs ha hc (by omega : opNat w.cmd 0 + (nodeImage N).length ≤ 2 ^ 17)
  have ht : t = matDone (if clr then (putWords s c (opNat w.cmd 0) (nodeImage N)).setNode c n (clearedNode N)
      else putWords s c (opNat w.cmd 0) (nodeImage N)) c w (natVal 0) := by rw [← hbase]; rfl
  obtain ⟨l, hl⟩ := hcalm.own
  rw [or_zero_astat] at hl
  rw [hlen] at hword
  set u := putWords s c (opNat w.cmd 0) (nodeImage N)
  have hsaved : ∃ m, (if clr then u.setNode c n (clearedNode N) else u).mem = u.mem ∧
      (if clr then u.setNode c n (clearedNode N) else u).core c = { s.core c with waiters := l, nodes := m } ∧
      m.get n {} = if clr then clearedNode N else N := by
    cases clr
    · exact ⟨(s.core c).nodes, rfl, by rw [if_neg (by decide)]; exact hl, by rw [if_neg (by decide)]; rfl⟩
    · exact ⟨_, rfl, by rw [if_pos rfl, core_setNode, hl]; rfl, Sp.get_put_self _ _ _ _⟩
  obtain ⟨m, hsm, hsc, hsn⟩ := hsaved
  obtain ⟨hmem, hcore, hsent⟩ := matDone_spec (if clr then u.setNode c n (clearedNode N) else u) c w (natVal 0)
  rw [← ht, hsc] at hcore
  rw [← ht, hsm] at hmem
  rw [← ht] at hsent
  refine ⟨by rw [hcore], by rw [hcore], fun j hj => ?_, by rw [node_eq, hcore]; exact hsn, hsent⟩
  rw [hmem]
  exact hword j hj

/-! ## ACC.LOAD -/

theorem bit_toNat (v : BitVec 64) (i : ℕ) : bit v.toNat i = v.getLsbD i := by rw [bit_eq_testBit, BitVec.testBit_toNat]

theorem asS_bits (v : BitVec 64) (lo n : ℕ) (hn : 0 < n) : Num.asS (v.toNat / 2 ^ lo % 2 ^ n) n = (v.extractLsb' lo n).toInt := by
  rw [asS_eq_toInt _ _ hn]
  congr 1
  refine BitVec.eq_of_toNat_eq ?_
  rw [BitVec.toNat_ofNat, Nat.mod_mod, BitVec.extractLsb'_toNat, Nat.shiftRight_eq_div_pow]
theorem asS_low (v : BitVec 64) (n : ℕ) (hn : 0 < n) : Num.asS v.toNat n = (v.setWidth n).toInt := by
  rw [asS_eq_toInt _ _ hn, BitVec.ofNat_toNat]

theorem loadCell_spec (v : TWord) : ∃ sat flush, (loadCell v).2 = ((if sat then flAccSat else 0) + if flush then flAccFlush else 0) ∧
    (loadCell v).1.err = (v.x || v.d.getLsbD 63 || decide (bits v.d.toNat 62 58 ≠ 0)) ∧
    Acc48 (((v.d.setWidth 48).toInt : ℚ) * (2 : ℚ) ^ (v.d.extractLsb' 48 10).toInt) (loadCell v).1 sat flush := by
  obtain ⟨hacc, herr⟩ := acc48_norm (bit v.d.toNat 63 || bits v.d.toNat 62 58 != 0 || v.x) (Num.asS v.d.toNat 48)
    (Num.asS (bits v.d.toNat 57 48) 10)
  refine ⟨_, _, rfl, herr.trans ?_, ?_⟩
  · rw [bit_toNat, Bool.or_comm _ v.x, Bool.or_assoc]
    simp [bne, beq_eq_decide]
  · rw [← asS_low _ 48 (by norm_num), ← asS_bits _ 48 10 (by norm_num)]
    exact hacc

section
variable (old : Node) (h cells : List TWord) (sec : Option ℕ)

theorem loadNode_head : (loadNode old h cells sec).1 =
    { nfault := old.nfault, lastf := old.lastf, armed := true, base := (nthD h 1 {}).d.toNat, ofmt := bits (nthD h 0 {}).d.toNat 4 1,
      wd := bits (nthD h 0 {}).d.toNat 8 5 + 1, f := Num.asS (bits (nthD h 0 {}).d.toNat 18 9) 10, mrow := BitVec.ofNat 64 (nthD h 2 {}).d.toNat,
      mcol := BitVec.ofNat 64 (nthD h 3 {}).d.toNat, count := bits (nthD h 0 {}).d.toNat 47 32, fp := (nthD h 4 {}).d.toNat % 2 ^ 32,
      slot := bits (nthD h 4 {}).d.toNat 38 32, cv := bit (nthD h 4 {}).d.toNat 39, due := bit (nthD h 0 {}).d.toNat 19, sec,
      cells := (loadNode old h cells sec).1.cells } := by rw [loadNode]; dsimp only [clearedNode]
theorem loadNode_list : (loadNode old h cells sec).1.cells = ((List.range 4096).zip ((cells.map loadCell).map (·.1))).filter fun e => e.2 != {} := by
  rw [loadNode]
theorem loadNode_flags : (loadNode old h cells sec).2 = flagsOf ((cells.map loadCell).map (·.2)) := by
  rw [loadNode]

theorem zip_map_self {α β : Type} (f : α → β) (l : List α) : l.zip (l.map f) = l.map fun x => (x, f x) := by
  have h := List.zip_map' (f := id) (g := f) (l := l)
  rwa [List.map_id] at h

end

section
variable (s : State) (c : ℕ) (w : MatRun) (n : ℕ)

/-- A word of the image that ACC.LOAD reads. -/
def imageWord (j : ℕ) : TWord := getWord s.mem (wordKey c (opNat w.cmd 0 % 2 ^ 17 + j))
def imageHead : List TWord := (List.range 8).map (imageWord s c w)
def imageCells : List TWord := (List.range 4096).map fun k => getWord s.mem (wordKey c (opNat w.cmd 0 % 2 ^ 17 + 8 + k))
def imageKeys : List ℕ := (List.range imageWords).map fun k => wordKey c (opNat w.cmd 0 % 2 ^ 17 + k)

/-- ACC.LOAD's work. -/
def loadWork : State :=
  match firstEmpty s.mem (imageKeys c w) with
  | some key => matWait s c w key
  | none =>
    if (s.node c n).armed then matFault s c w n 1
    else if imageBad s c (imageHead s c w) then matFault s c w n 4
    else if !bit (nthD (imageHead s c w) 0 {}).d.toNat 0 then matDone s c w (natVal 0)
    else
      let o := loadNode (s.node c n) (imageHead s c w) (imageCells s c w) w.cmd.sec
      matEnd (setAstat (s.setNode c n o.1) c o.2) c n w (natVal 0)

theorem nthD_imageHead {k : ℕ} (hk : k < 8) : nthD (imageHead s c w) k {} = imageWord s c w k := nthD_map_range _ hk _

/-- The words of a release destination by the fields of an image (R254). -/
theorem relGeom_eq (form f : ℕ) (h : form < 12) : relGeom form (f + 1) =
    (if form = 11 then 32 else 16, if form = 11 then 2 * (32 * (f + 3) + 16) else 512 * esOf form) := by
  unfold relGeom ofPL
  split
  · next h11 => simp [plSet, PSet.size, PSet.parts, isSM, bnat]; ring
  · next h11 => rw [relBytes_eq_esOf (by omega)]

/-- The defects of an image's header, as the statement lists them (log 50). -/
def ImageDefect : Prop :=
  let W := imageWord s c w
  let h := fun j => (W j).d.toNat
  let armed := (W 0).d.getLsbD 0
  let due := (W 0).d.getLsbD 19
  let form := bits (h 0) 4 1
  let size := if form = 11 then 2 * (32 * (bits (h 0) 8 5 + 3) + 16) else 512 * esOf form
  (∃ j < 8, (W j).x = true) ∨ bits (h 0) 31 20 ≠ 0 ∨ bits (h 0) 63 48 ≠ 0 ∨ 2 ^ 17 ≤ h 1 ∨ 2 ^ 40 ≤ h 4 ∨ h 5 ≠ 0 ∨
    h 6 ≠ 0 ∨ h 7 ≠ 0 ∨ 12 ≤ form ∨ (due = true ∧ (armed = false ∨ bits (h 0) 47 32 ≠ 0)) ∨
    (armed = true ∧ (h 1 % (if form = 11 then 32 else 16) ≠ 0 ∨ 2 ^ 17 < h 1 + size ∨
      bits (s.core c).frameBase.toNat 16 0 < h 1 + size ∨ fpBad s (h 4 % 2 ^ 32) = true ∨ fpCore (h 4 % 2 ^ 32) ≠ c))

theorem imageBad_iff : imageBad s c (imageHead s c w) = true ↔ ImageDefect s c w := by
  have hx : (imageHead s c w).any (·.x) = true ↔ ∃ j < 8, (imageWord s c w j).x = true := by
    simp [imageHead]
  unfold imageBad ImageDefect
  simp only [nthD_imageHead s c w (show 0 < 8 by norm_num), nthD_imageHead s c w (show 1 < 8 by norm_num), nthD_imageHead s c w (show 4 < 8 by norm_num),
    nthD_imageHead s c w (show 5 < 8 by norm_num), nthD_imageHead s c w (show 6 < 8 by norm_num), nthD_imageHead s c w (show 7 < 8 by norm_num),
    bit_toNat]
  by_cases hform : bits (imageWord s c w 0).d.toNat 4 1 < 12
  · rw [relGeom_eq _ _ hform]
    simp only [Bool.or_eq_true, Bool.and_eq_true, hx, decide_eq_true_eq, bne_iff_ne, ne_eq, Bool.not_eq_true', or_assoc, ge_iff_le, gt_iff_lt]
    rfl
  · have h12 : 12 ≤ bits (imageWord s c w 0).d.toNat 4 1 := by omega
    simp [h12]

/-- The node that an image describes, but for its cells. -/
theorem loadNode_node : let W := imageWord s c w
    let h := fun j => (W j).d.toNat
    let N := s.node c n
    let M := (loadNode N (imageHead s c w) (imageCells s c w) w.cmd.sec).1
    M = { nfault := N.nfault, lastf := N.lastf, armed := true, base := h 1, ofmt := bits (h 0) 4 1, wd := bits (h 0) 8 5 + 1,
          f := ((W 0).d.extractLsb' 9 10).toInt, mrow := (W 2).d, mcol := (W 3).d, count := bits (h 0) 47 32, fp := h 4 % 2 ^ 32,
          slot := bits (h 4) 38 32, cv := (W 4).d.getLsbD 39, due := (W 0).d.getLsbD 19, sec := w.cmd.sec, cells := M.cells } := by
  intro W h N M
  have hf : Num.asS (bits (h 0) 18 9) 10 = ((W 0).d.extractLsb' 9 10).toInt := asS_bits _ 9 10 (by norm_num)
  have hM := loadNode_head N (imageHead s c w) (imageCells s c w) w.cmd.sec
  simp only [nthD_imageHead s c w (show 0 < 8 by norm_num), nthD_imageHead s c w (show 1 < 8 by norm_num), nthD_imageHead s c w (show 4 < 8 by norm_num),
    nthD_imageHead s c w (show 2 < 8 by norm_num), nthD_imageHead s c w (show 3 < 8 by norm_num), bit_toNat, BitVec.ofNat_toNat, BitVec.setWidth_eq] at hM
  rw [← hf]
  exact hM

theorem imageCells_eq : imageCells s c w = (List.range 4096).map fun k => imageWord s c w (8 + k) :=
  List.map_congr_left fun k _ => by rw [imageWord, Nat.add_assoc]

theorem loadNode_cells : let o := loadNode (s.node c n) (imageHead s c w) (imageCells s c w) w.cmd.sec
    (∀ j < 4096, relCell o.1 j = (loadCell (imageWord s c w (8 + j))).1) ∧
      o.2 = flagsOf ((List.range 4096).map fun j => (loadCell (imageWord s c w (8 + j))).2) := by
  intro o
  have hcells : o.1.cells = ((List.range 4096).map fun k => (k, (loadCell (imageWord s c w (8 + k))).1)).filter fun e => e.2 != {} := by
    rw [show o.1.cells = _ from loadNode_list _ _ _ _, imageCells_eq, List.map_map, List.map_map, zip_map_self]
    rfl
  refine ⟨fun j hj => ?_, ?_⟩
  · rw [relCell, hcells, get_listed, if_pos (List.mem_range.mpr hj)]
  · rw [show o.2 = _ from loadNode_flags _ _ _ _, imageCells_eq, List.map_map, List.map_map]
    rfl

section
variable {s c w n}

theorem loadWork_empty {key : ℕ} (he : firstEmpty s.mem (imageKeys c w) = some key) : loadWork s c w n = matWait s c w key := by
  unfold loadWork
  rw [he]

variable (he : firstEmpty s.mem (imageKeys c w) = none)
include he

theorem loadWork_busy (hN : (s.node c n).armed = true) : loadWork s c w n = matFault s c w n 1 := by
  unfold loadWork
  rw [he]
  dsimp only
  rw [if_pos hN]

variable (hN : (s.node c n).armed = false)
include hN

theorem loadWork_defect (hd : ImageDefect s c w) : loadWork s c w n = matFault s c w n 4 := by
  unfold loadWork
  rw [he]
  dsimp only
  rw [if_neg (by rw [hN]; decide), if_pos ((imageBad_iff s c w).mpr hd)]

variable (hd : ¬ ImageDefect s c w)
include hd

theorem loadWork_unarmed (harm : (imageWord s c w 0).d.getLsbD 0 = false) : loadWork s c w n = matDone s c w (natVal 0) := by
  unfold loadWork
  rw [he]
  dsimp only
  rw [if_neg (by rw [hN]; decide), if_neg (fun hb => hd ((imageBad_iff s c w).mp hb)), if_pos (by rw [nthD_imageHead _ _ _ (by norm_num), bit_toNat, harm]; rfl)]

theorem loadWork_armed (harm : (imageWord s c w 0).d.getLsbD 0 = true) : loadWork s c w n =
    let o := loadNode (s.node c n) (imageHead s c w) (imageCells s c w) w.cmd.sec
    matEnd (setAstat (s.setNode c n o.1) c o.2) c n w (natVal 0) := by
  unfold loadWork
  rw [he]
  dsimp only
  rw [if_neg (by rw [hN]; decide), if_neg (fun hb => hd ((imageBad_iff s c w).mp hb)), if_neg (by rw [nthD_imageHead _ _ _ (by norm_num), bit_toNat, harm]; decide)]

end

/-- An image loaded: its node, then the release that is due. -/
theorem loadWork_loaded (he : firstEmpty s.mem (imageKeys c w) = none) (hN : (s.node c n).armed = false) (hd : ¬ ImageDefect s c w)
    (harm : (imageWord s c w 0).d.getLsbD 0 = true) : let t := loadWork s c w n
    let o := loadNode (s.node c n) (imageHead s c w) (imageCells s c w) w.cmd.sec
    t.mem = s.mem ∧ (t.core c).matQ = (s.core c).matQ ∧ (t.core c).mat = releaseDue s c n (t.node c n) w (coreCclk s c) ∧
      Sent t w.cmd (natVal 0) ∧ t.node c n = o.1 ∧ Raised s t c o.2 := by
  intro t o
  have ht : t = matEnd (setAstat (s.setNode c n o.1) c o.2) c n w (natVal 0) := loadWork_armed he hN hd harm
  have hu : (setAstat (s.setNode c n o.1) c o.2).core c = { s.core c with
      nodes := (s.core c).nodes.put n o.1, astat := (s.core c).astat ||| BitVec.ofNat 64 o.2 } := by rw [core_setAstat, core_setNode]
  have hmem : (setAstat (s.setNode c n o.1) c o.2).mem = s.mem := by rw [setAstat_rest]; rfl
  have hnode : (setAstat (s.setNode c n o.1) c o.2).node c n = o.1 := by rw [node_eq, hu]; exact Sp.get_put_self _ _ _ _
  have hnow : coreCclk (setAstat (s.setNode c n o.1) c o.2) c = coreCclk s c := by unfold coreCclk State.die; rw [setAstat_rest]; rfl
  obtain ⟨htmem, hcore, hsent⟩ := matEnd_spec (setAstat (s.setNode c n o.1) c o.2) c n w (natVal 0)
  rw [← ht] at htmem hcore hsent
  have htnode : t.node c n = o.1 := by rw [node_eq, hcore, ← node_eq]; exact hnode
  refine ⟨htmem.trans hmem, by rw [hcore, hu], ?_, hsent, htnode, by rw [Raised, hcore, hu]⟩
  rw [htnode, hcore, hnode, hnow, releaseDue, hu]
  rfl

end

end Sys2Proof.Safety
end

section
/-! PROOFS. A release as its statement puts it: the packed words, the planes by row, the node cleared, the token (R53, R265). -/

namespace Sys2Proof.Safety

open Sys2Proof.Machine

section
variable {s : State} {c m : ℕ} {q : List Released} {w : MatRun}

/-- A release, from what its destination got. -/
theorem matRelease_spec {o : State × ℕ × ℕ} {fl : ℕ} (harm : (s.node c m).armed = true) (hdue : (s.node c m).due = true)
    (ho : (if (s.node c m).ofmt = ofPL then releasePlanes s c (s.node c m) else releasePacked s c (s.node c m)) = o) (hcalm : Calm s o.1 c fl) :
    let t := matRelease s c m
    let N := s.node c m
    t.mem = o.1.mem ∧ (t.core c).mat = none ∧ (t.core c).matQ = (s.core c).matQ ∧ t.node c m = clearedNode N ∧ Raised s t c fl ∧ (N.cv = true →
      Packet.token { fp := N.fp, slot := N.slot, v := natVal (o.2.1 + o.2.2 * 2 ^ 32), src := some c, eng := some .mat } ∈ t.net) := by
  intro t N
  obtain ⟨l, hl⟩ := hcalm.own
  have ht : t = (releaseNode s c m).modCore c fun co => { co with mat := none } := by
    change matRelease s c m = _
    unfold matRelease
    rw [if_pos (by rw [harm, hdue]; rfl)]
  have hnode : releaseNode s c m = if N.cv then (o.1.setNode c m (clearedNode N)).send
      (.token { fp := N.fp, slot := N.slot, v := natVal (o.2.1 + o.2.2 * 2 ^ 32), src := some c, eng := some .mat }) else o.1.setNode c m (clearedNode N) := by
    unfold releaseNode
    dsimp only
    rw [ho]
    rfl
  have hrel : (releaseNode s c m).mem = o.1.mem ∧ (releaseNode s c m).core c = { o.1.core c with nodes := (o.1.core c).nodes.put m (clearedNode N) } := by
    rw [hnode]
    split <;> exact ⟨rfl, core_setNode _ _ _ _⟩
  obtain ⟨hmem, hcore⟩ := hrel
  have htcore : t.core c = { (releaseNode s c m).core c with mat := none } := by rw [ht, State.core_modCore_self]
  rw [hcore] at htcore
  refine ⟨by rw [ht]; exact hmem, by rw [htcore], by rw [htcore, hl], ?_, by rw [Raised, htcore, hl], fun hcv => ?_⟩
  · rw [node_eq, htcore]
    exact Sp.get_put_self _ _ _ _
  · rw [ht, hnode, if_pos hcv]
    exact List.mem_append_right _ List.mem_cons_self

/-- A packed field by its bytes. -/
theorem field_eq_fieldOf {N : Node} (h : N.ofmt < 11) (k x : ℕ) :
    x / 256 ^ (esOf N.ofmt * (k % (8 / esOf N.ofmt))) % 256 ^ esOf N.ofmt = fieldOf (relBits N) (k % relPer N) x := by
  rw [fieldOf, relBits, relPer, relBytes_eq_esOf h, show (256 : ℕ) = 2 ^ 8 from rfl, ← pow_mul, ← pow_mul, Nat.mul_assoc]

/-- What the clauses of a release say of its end. -/
def ReleaseDone (s : State) (c m : ℕ) (q : List Released) (w : MatRun) (t : State) (lim : ℕ) : Prop :=
  let N := s.node c m
  exec w.cmd.i s = .next t ∧ (t.core c).mat = none ∧ (t.core c).matQ = q ∧ t.node c m = { nfault := N.nfault, lastf := N.lastf } ∧ (N.cv = true →
    Packet.token { fp := N.fp, slot := N.slot, v := natVal (badCells N + lim * 2 ^ 32), src := some c, eng := some .mat } ∈ t.net)

theorem exec_release (h : MatRel s c m q w) : exec w.cmd.i s = .next (matRelease s c m) := by
  obtain ⟨hf, hm, hr, ht, -, hi⟩ := h
  obtain ⟨run, hrun⟩ := exec_of_mat hi
  rw [hrun, matExec_release hf hm rfl ht hr]

theorem releaseDone {o : State × ℕ × ℕ} {fl : ℕ} (h : MatRel s c m q w) (harm : (s.node c m).armed = true) (hdue : (s.node c m).due = true)
    (ho : (if (s.node c m).ofmt = ofPL then releasePlanes s c (s.node c m) else releasePacked s c (s.node c m)) = o) (hcalm : Calm s o.1 c fl)
    (hbad : o.2.1 = badCells (s.node c m)) : ∃ t, ReleaseDone s c m q w t o.2.2 ∧ Raised s t c fl ∧ t.mem = o.1.mem := by
  obtain ⟨hmem, hmat, hq, hnode, hraised, hsent⟩ := matRelease_spec harm hdue ho hcalm
  rw [hbad] at hsent
  obtain ⟨-, -, -, -, hmatQ, -⟩ := id h
  exact ⟨_, ⟨exec_release h, hmat, hq.trans hmatQ, hnode, hsent⟩, hraised, hmem⟩

theorem packed_released (hs : Safe s) (ha : Awake s) (hc : c < 3072) (h : MatRel s c m q w) : let N := s.node c m
    N.armed = true → N.due = true → N.ofmt < 11 → N.base + 512 * esOf N.ofmt ≤ 2 ^ 17 → ∃ (t : State) (o : ℕ → ℕ × Bool × Bool),
      let es := esOf N.ofmt
      let word := fun (s : State) k => getWord s.mem (wordKey c (N.base + k / (8 / es)))
      let field := fun (s : State) k => (word s k).d.toNat / 256 ^ (es * (k % (8 / es))) % 256 ^ es
      let here := fun k => (List.range (8 / es)).map (· + k / (8 / es) * (8 / es))
      let lim := (List.range 4096).countP fun k => !outOf N k && (o k).2.2
      ReleaseDone s c m q w t lim ∧ Raised s t c (if lim = 0 then 0 else if N.ofmt ≤ 6 then flIsat else flSat) ∧
      ∀ k < 4096, (outOf N k = true → field t k = field s k) ∧
        (outOf N k = false → ReleasedAs N.ofmt N.f (N.cells.get k {}) (o k) ∧ field t k = (o k).1 ∧ (word t k).f = true) ∧
        (word t k).x = ((decide (N.ofmt ≤ 6) && (here k).any fun j => !outOf N j && (o j).2.1) || ((here k).any (outOf N) && (word s k).x)) := by
  intro N harm hdue hofmt hroom
  have hes := relBytes_eq_esOf hofmt
  rw [← hes] at hroom
  obtain ⟨hcalm, hbad, hlim, hword⟩ := releasePacked_lays hs ha hc hofmt hroom
  obtain ⟨t, hdone, hraised, hmem⟩ := releaseDone h harm hdue (if_neg (show ¬ N.ofmt = 11 by omega)) hcalm hbad
  refine ⟨t, fun k => relPattern N (relCell N k), ?_⟩
  intro es word field here lim
  have hl : (releasePacked s c N).2.2 = lim := hlim
  rw [hl] at hdone hraised
  have hflag : limFlag N lim = if lim = 0 then 0 else if N.ofmt ≤ 6 then flIsat else flSat := by
    unfold limFlag relInt
    rcases Nat.eq_zero_or_pos lim with h0 | h0
    · rw [h0]; rfl
    · rw [if_pos h0, if_neg h0.ne']
      simp
  rw [hflag] at hraised
  have hper : 8 / es = relPer N := by rw [relPer, hes]
  have hfield : ∀ u k, field u k = fieldOf (relBits N) (k % relPer N) (word u k).d.toNat := fun u k => field_eq_fieldOf hofmt k _
  have hw : ∀ k < 4096, word t k = (relWrite N c (k / relPer N)).on (word s k) := fun k hk => by
    have := hword k hk
    rw [← hmem, ← hper] at this
    rw [← hper]
    exact this
  have hhere : here = wordCells N := by
    funext k
    change (List.range (8 / es)).map (· + k / (8 / es) * (8 / es)) = _
    rw [hper, wordCells]
  refine ⟨hdone, hraised, fun k hk => ⟨fun hout => ?_, fun hout => ⟨relPattern_releasedAs N _ hofmt, ?_, ?_⟩, ?_⟩⟩
  · rw [hfield, hw k hk, field_relWrite hofmt, if_pos hout, ← hfield]
  · rw [hfield, hw k hk, field_relWrite hofmt, hout]
    rfl
  · rw [hw k hk, f_relWrite hofmt hout]
  · rw [hw k hk, x_relWrite hofmt, hhere]

/-- The elements that a row lays are its aligned magnitudes. -/
theorem rowEls_aligned (N : Node) {t i : ℕ} (hi : i < 64) {k : ℕ} (hk : k < (rowJs N t i).length) :
    ∃ e, laneEl (slabLaid N t) (32 * i + nthD (rowJs N t i) k 0) = some e ∧ e.map elInt = nthD ((rowAlign N t i).els.map fun v => v.map elInt) k none := by
  have hmem := rowEls_mem N hi hk
  refine ⟨(rowAlign N t i).els[k]'(by rw [rowAlign_length]; exact hk), ?_, ?_⟩
  · rw [nthD_of_lt hk, Nat.add_comm]
    exact laneEl_of_mem (slab_written N t) hmem
  · rw [nthD_of_lt (by rw [List.length_map, rowAlign_length]; exact hk), List.getElem_map]

theorem laneEl_of_masked (N : Node) {t i j : ℕ} (hi : i < 64) (hj : j < 32) (hnot : j ∉ rowJs N t i) : laneEl (slabLaid N t) (32 * i + j) = none := by
  refine laneEl_of_not_mem fun hmem => hnot ?_
  rw [slabLaid_lanes, List.mem_flatMap] at hmem
  obtain ⟨i', -, hmem⟩ := hmem
  obtain ⟨j', hj', heq⟩ := List.mem_map.mp hmem
  have hlt := (mem_rowJs.mp hj').1
  obtain ⟨rfl, rfl⟩ : i' = i ∧ j' = j := by omega
  exact hj'

theorem planes_released (hs : Safe s) (ha : Awake s) (hc : c < 3072) (h : MatRel s c m q w) : let N := s.node c m
    N.armed = true → N.due = true → N.ofmt = 11 → N.base + 2 * (32 * (N.wd + 2) + 16) ≤ 2 ^ 17 →
    ∃ (t : State) (lim : ℕ) (els : ℕ → ℕ → Option El) (sat : ℕ → ℕ → Bool),
      let p : Machine.PSet := ⟨c, N.base, N.wd, 1, true, 32⟩
      ReleaseDone s c m q w t lim ∧ (lim = 0 ↔ ∀ h < 2, ∀ i < 64, sat h i = false) ∧ Raised s t c (if lim = 0 then 0 else flSat) ∧
      ∀ h < 2, Lanes s t p h (els h) ∧ ∀ i < 64,
        let js := (List.range 32).filter fun j => !outOf N (64 * i + 32 * h + j)
        let v := fun j => let a := N.cells.get (64 * i + 32 * h + j) {}; if a.err then none else some (accNum a * (2 : ℚ) ^ N.f)
        (∀ j < 32, j ∉ js → els h (32 * i + j) = none) ∧ (js = [] → sat h i = false) ∧
        (js ≠ [] → ∃ ms, AlignsTo N.wd (js.map v) (p.exp t.mem h (32 * i)) ms (sat h i) ∧
          ∀ k < js.length, ∃ e, els h (32 * i + nthD js k 0) = some e ∧ e.map elInt = nthD ms k none) := by
  intro N harm hdue hofmt hroom
  obtain ⟨hcalm, hbad, hlim, hlanes⟩ := releasePlanes_lays hs ha hc hroom
  obtain ⟨t, hdone, hraised, hmem⟩ := releaseDone h harm hdue (if_pos hofmt) hcalm hbad
  refine ⟨t, (releasePlanes s c N).2.2, fun h => laneEl (slabLaid N h), fun h i => decide (0 < (rowAlign N h i).nsat), hdone, ?_, ?_, fun h hh => ?_⟩
  · rw [hlim, Nat.add_eq_zero_iff, slabLim_eq_zero, slabLim_eq_zero]
    constructor
    · rintro ⟨h0, h1⟩ h hh
      obtain rfl | rfl : h = 0 ∨ h = 1 := by omega
      · exact h0
      · exact h1
    · exact fun hall => ⟨hall 0 (by norm_num), hall 1 (by norm_num)⟩
  · have hflag : satFlag (releasePlanes s c N).2.2 = if (releasePlanes s c N).2.2 = 0 then 0 else flSat := by
      unfold satFlag
      rcases Nat.eq_zero_or_pos (releasePlanes s c N).2.2 with h0 | h0
      · rw [h0]; rfl
      · rw [if_pos h0, if_neg h0.ne']
    rwa [hflag] at hraised
  · obtain ⟨hlay, hexp⟩ := hlanes h hh
    refine ⟨AgreeOn.lanes rfl rfl (fun _ _ _ _ _ => rfl) (fun _ _ _ _ _ => by rw [hmem]) hlay, fun i hi => ?_⟩
    intro js v
    have hjs : js = rowJs N h i := rowJs_eq N hh
    rw [hjs]
    refine ⟨fun j hj hnot => laneEl_of_masked N hi hj hnot, fun hnil => ?_, fun hne => ?_⟩
    · change decide (0 < (rowAlign N h i).nsat) = false
      rw [rowAlign, hnil]; rfl
    · refine ⟨_, ?_, fun k hk => rowEls_aligned N hi hk⟩
      have hv : (rowJs N h i).map v = ((rowJs N h i).map (rowVal N h i)).map fun v => v.map flNum := by
        rw [List.map_map]
        exact List.map_congr_left fun j _ => rowVal_eq N h i j
      have he : (plSet c N.base N.wd).exp t.mem h (32 * i) = (rowAlign N h i).e := by rw [hmem]; exact hexp i hi hne
      rw [hv]
      change AlignsTo N.wd _ ((plSet c N.base N.wd).exp t.mem h (32 * i)) _ _
      rw [he]
      exact align_alignsTo _ _

end

end Sys2Proof.Safety
end

section
/-! PROOFS. O50: a matrix command begins, its products by slab, its images, its releases (R257, R262 to R268, R271). -/

namespace Sys2Proof.Safety

open Sys2Proof.Machine

section
variable {s : State} {c n : ℕ} {r : Released} {q : List Released} {w : MatRun}

/-! ## A command begins and goes on -/

/-- The precision pair that a product names. -/
def pairOf (co : Core) (i : Instr) : BitVec 64 := match i with | .mmp _ k .. | .mmpE _ k .. => co.pp.get k.toNat 0 | _ => 0

theorem startPp_new (co : Core) (r : Released) : startPp co { cmd := r } = pairOf co r.i := by
  unfold startPp pairOf
  exact (if_neg (show ¬ false = true by decide)).trans rfl
theorem pairOf_congr {co co' : Core} (h : co.pp = co'.pp) (i : Instr) : pairOf co i = pairOf co' i := by
  unfold pairOf
  rw [h]

theorem mat_starts (h : MatHead s c r q) (hi : engOf r.i = some .mat) : ∃ t, exec r.i s = .next t ∧ t.mem = s.mem ∧ t.net = s.net ∧
    (t.core c).matQ = q ∧ (t.core c).mat = some {
      cmd := r, started := true, pp := pairOf (s.core c) r.i, cycles := 14, skipped := 0, waitW := none
      till := some (coreCclk s c + matFixed (s.core c) r.i) } := by
  obtain ⟨hf, hm, hq, -⟩ := h
  obtain ⟨run, hrun⟩ := exec_of_mat hi
  obtain ⟨hmem, hnet, hdies, l, hl⟩ := secStart_rest (s.setCore c { s.core c with matQ := q }) c r.sec
  rw [State.core_setCore_self] at hl
  set u := secStart (s.setCore c { s.core c with matQ := q }) c r.sec
  have hnow : coreCclk u c = coreCclk s c := by unfold coreCclk State.die; rw [hdies]; rfl
  refine ⟨_, by rw [hrun, matExec_start hf hm hq rfl], by rw [matBegin_mem, hmem]; rfl, by rw [matBegin_net, hnet]; rfl,
    by rw [matBegin_core, hl], ?_⟩
  rw [matBegin_core, begunRun, startPp_new, hnow, pairOf_congr (co' := s.core c) (by rw [hl]), matFixed_congr (co' := s.core c) (by rw [hl])]

theorem mat_resumes (hf : s.focus = .engine c .mat) (hm : (s.core c).mat = some w) (ht : w.till = none) (hstarted : w.started = true)
    (hi : engOf w.cmd.i = some .mat) : ∃ t, exec w.cmd.i s = .next t ∧ t.mem = s.mem ∧ (t.core c).mat = some { w with
      started := true, pp := w.pp, cycles := 14, skipped := 0, waitW := none, till := some (coreCclk s c + matFixed (s.core c) w.cmd.i) } := by
  obtain ⟨run, hrun⟩ := exec_of_mat hi
  refine ⟨_, by rw [hrun, matExec_begin hf hm rfl ht], matBegin_mem s c w, ?_⟩
  rw [matBegin_core, begunRun, startPp, if_pos hstarted]

theorem exec_of_run {run : State → ℕ → MatRun → State} (h : MatOn s c r q w) (hx : ∀ s, exec r.i s = matExec s r.i run) :
    exec r.i s = .next (run s c w) := by
  obtain ⟨hf, hm, hcmd, hrel, ht, -, -⟩ := h
  rw [hx, matExec_run hf hm (by rw [hcmd]) ht hrel]

/-! ## What the clauses of a started command say -/

def Runs (s : State) (c : ℕ) (r : Released) (q : List Released) (t : State) : Prop := exec r.i s = .next t ∧ (t.core c).matQ = q ∧ t.mem = s.mem
def Faults (s : State) (c n : ℕ) (r : Released) (q : List Released) (reason : ℕ) : Prop :=
  ∃ t, Runs s c r q t ∧ (t.core c).mat = none ∧ Sent t r ⟨BitVec.ofNat 64 reason, true⟩ ∧
    t.node c n = { s.node c n with nfault := min ((s.node c n).nfault + 1) 0xFFFF, lastf := reason }
def Waits (s : State) (c n : ℕ) (r : Released) (q : List Released) (w : MatRun) (key : ℕ) : Prop :=
  ∃ t, Runs s c r q t ∧ (t.core c).mat = some { w with waitW := some key } ∧ t.node c n = s.node c n
def GoesOn (s : State) (c n : ℕ) (w : MatRun) (t : State) : Prop := (t.core c).mat = releaseDue s c n (t.node c n) w (coreCclk s c)

theorem faults_of {reason : ℕ} (h : MatOn s c r q w) (hx : exec r.i s = .next (matFault s c w n reason)) : Faults s c n r q reason := by
  obtain ⟨-, -, rfl, -, -, hq, -⟩ := h
  obtain ⟨hmem, hmatQ, hmat, hsent, hnode⟩ := matFault_spec s c w n reason
  exact ⟨_, ⟨hx, hmatQ.trans hq, hmem⟩, hmat, hsent, hnode⟩

theorem waits_of {key : ℕ} (ha : Awake s) (h : MatOn s c r q w) (hx : exec r.i s = .next (matWait s c w key)) : Waits s c n r q w key := by
  obtain ⟨-, -, -, -, -, hq, -⟩ := h
  obtain ⟨hmem, hcore⟩ := matWait_spec ha c w key
  exact ⟨_, ⟨hx, by rw [hcore]; exact hq, hmem⟩, by rw [hcore], by rw [node_eq, hcore]; rfl⟩

/-! ## Products -/

section
variable {values ga gb : Bool} {NS : ℕ}

/-- A range that fails (Table 10.2). -/
def OffRange (s : State) (c NS : ℕ) (p : Machine.PSet) : Prop :=
  2 ^ 17 < p.base + NS * p.size ∨ bits (s.core c).frameBase.toNat 16 0 < p.base + NS * p.size

theorem slabRange_iff (s : State) (c NS : ℕ) (p : Machine.PSet) : slabRange s c p NS = true ↔ OffRange s c NS p := by
  unfold slabRange OffRange
  rw [Bool.or_eq_true, decide_eq_true_eq, decide_eq_true_eq]
  rfl
theorem slabRange_eq_false {p : Machine.PSet} (h : ¬ OffRange s c NS p) : slabRange s c p NS = false :=
  Bool.eq_false_iff.mpr fun h' => h ((slabRange_iff s c NS p).mp h')

variable (h : MatOn s c r q w) (hx : ∀ s, exec r.i s = matExec s r.i (mmpWork values n ga gb NS)) (hns : 0 < NS)
include h hx

include hns in
theorem product_idle (h0 : w.slab = 0) (harm : (s.node c n).armed = false) : Faults s c n r q 2 :=
  faults_of h (by rw [exec_of_run h hx, mmpWork_idle hns h0 harm])

include hns in
theorem product_range (h0 : w.slab = 0) (harm : (s.node c n).armed = true)
    (hoff : OffRange s c NS (slabA c w ga) ∨ OffRange s c NS (slabB c w gb)) :
    ∃ t M, Runs s c r q t ∧ GoesOn s c n w t ∧ Sent t r ⟨3, true⟩ ∧ t.node c n = countedDown M ∧
      M = { s.node c n with nfault := min ((s.node c n).nfault + 1) 0xFFFF, lastf := 3, cells := M.cells } ∧
      ∀ j < 4096, relCell M j = { relCell (s.node c n) j with err := true } := by
  have hrun := exec_of_run h hx
  rw [mmpWork_range hns h0 harm (by rwa [slabRange_iff, slabRange_iff])] at hrun
  have hnoted : (noteFault s c n 3).node c n = { s.node c n with nfault := min ((s.node c n).nfault + 1) 0xFFFF, lastf := 3 } := node_setNode _ _ _ _
  set flag := fun (_ _ : ℕ) (x : ACell) => (({ x with err := true } : ACell), 0)
  have hM := mapCells_node ((noteFault s c n 3).node c n) flag
  have hcells : ∀ j < 4096, relCell (mapCells ((noteFault s c n 3).node c n) flag).1 j = _ := fun j hj => relCell_mapCells _ flag hj
  rw [hnoted] at hM hcells hrun
  set M := (mapCells { s.node c n with nfault := min ((s.node c n).nfault + 1) 0xFFFF, lastf := 3 } flag).1
  obtain ⟨hmem, hmatQ, hsent, hnode, hmat⟩ := matEnd_countDown ((noteFault s c n 3).setNode c n M) c n w ⟨3, true⟩
  have hcore : ((noteFault s c n 3).setNode c n M).core c = { s.core c with nodes := ((noteFault s c n 3).core c).nodes.put n M } := by
    rw [core_setNode, noteFault, core_setNode]
  obtain ⟨-, -, rfl, -, -, hq, -⟩ := h
  rw [node_setNode] at hnode
  refine ⟨_, M, ⟨hrun, by rw [hmatQ, hcore]; exact hq, hmem⟩, ?_, hsent, hnode, hM, hcells⟩
  rw [GoesOn, hmat, releaseDue, hcore]
  rfl

theorem product_ends (hk : NS ≤ w.slab) : ∃ t, Runs s c r q t ∧ GoesOn s c n w t ∧ t.node c n = countedDown (s.node c n) ∧
    Sent t r (natVal (w.cycles + w.skipped * 2 ^ 32)) := by
  have hrun := exec_of_run h hx
  rw [mmpWork_end hk] at hrun
  obtain ⟨hmem, hmatQ, hsent, hnode, hmat⟩ := matEnd_countDown s c n w (natVal (w.cycles + w.skipped * 2 ^ 32))
  obtain ⟨-, -, rfl, -, -, hq, -⟩ := h
  exact ⟨_, ⟨hrun, hmatQ.trans hq, hmem⟩, hmat, hnode, hsent⟩

variable (h0 : w.slab = 0 → (s.node c n).armed = true ∧ ¬ OffRange s c NS (slabA c w ga) ∧ ¬ OffRange s c NS (slabB c w gb)) (hk : w.slab < NS)
include h0 hk

theorem product_waits (ha : Awake s) {key : ℕ}
    (he : firstEmpty s.mem ((slabA c w ga).needs w.slab (List.range 2048) ++ (slabB c w gb).needs w.slab (List.range 2048)) = some key) :
    Waits s c n r q w key := by
  have hrun := exec_of_run h hx
  rw [mmpWork_slab hk fun hz => ⟨(h0 hz).1, slabRange_eq_false (h0 hz).2.1, slabRange_eq_false (h0 hz).2.2⟩, he] at hrun
  exact waits_of ha h hrun

theorem product_slab (he : firstEmpty s.mem ((slabA c w ga).needs w.slab (List.range 2048) ++ (slabB c w gb).needs w.slab (List.range 2048)) = none) :
    let A := slabA c w ga
    let B := slabB c w gb
    let N := s.node c n
    let k := w.slab
    ∃ t ta tb, Runs s c r q t ∧ TrimsBy s.mem A k N.mrow (trimOn s c w.pp values 12) (bits (s.core c).lbdCtl.toNat 8 4) ta ∧
      TrimsBy s.mem B k N.mcol (trimOn s c w.pp values 13) (bits (s.core c).lbdCtl.toNat 16 12) tb ∧
      let p := if values then max 1 ((A.w - ta) * (B.w - tb)) else 1
      let skip := if values then A.w * B.w - p else 0
      (t.core c).mat = some { w with
        slab := k + 1, cycles := w.cycles + p, skipped := w.skipped + skip, waitW := none, till := some (coreCclk s c + p) } ∧
      (t.core c).lbdSaved = ((s.core c).lbdSaved + skip) % 2 ^ 48 ∧
      let M := t.node c n
      M = { N with cells := M.cells } ∧ ∃ (S : ℕ → ℚ) (sat flush : ℕ → Bool),
        Raised s t c (flagsOf ((List.range 4096).map fun j => (if sat j then flAccSat else 0) + if flush j then flAccFlush else 0)) ∧
        ∀ i < 64, ∀ j < 64, let z := 64 * i + j
          (relCell M z).err = ((relCell N z).err || rowErr s.mem A k i || rowErr s.mem B k j) ∧
          (values = false → (relCell M z).m = (relCell N z).m ∧ (relCell M z).x = (relCell N z).x ∧ sat z = false ∧ flush z = false) ∧
          (values = true → Acc48 (S z) (relCell M z) (sat z) (flush z) ∧ (N.mrow.getLsbD i = false → N.mcol.getLsbD j = false →
            S z = accNum (relCell N z) + (((List.range 32).map fun l => elVal (A.el s.mem k (32 * i + l)) * elVal (B.el s.mem k (32 * j + l))).sum : ℤ) *
              (2 : ℚ) ^ (A.exp s.mem k (32 * i) + B.exp s.mem k (32 * j)))) := by
  intro A B N k
  have hrun := exec_of_run h hx
  rw [mmpWork_slab hk fun hz => ⟨(h0 hz).1, slabRange_eq_false (h0 hz).2.1, slabRange_eq_false (h0 hz).2.2⟩, he] at hrun
  obtain ⟨ta, tb, hta, htb, hp, hnode, S, sat, flush, hfl, hcells⟩ :=
    slabWork_spec s c N w.pp A B k values (Nat.succ_pos _ : 0 < A.w) (Nat.succ_pos _ : 0 < B.w)
  dsimp only at hrun
  rw [hp] at hrun
  set o := slabWork s c N w.pp A B k values
  have hskip : (if values then A.w * B.w - max 1 ((A.w - ta) * (B.w - tb)) else 0) =
      if values then A.w * B.w - (if values then max 1 ((A.w - ta) * (B.w - tb)) else 1) else 0 := by cases values <;> rfl
  rw [hskip] at hrun
  set p := if values then max 1 ((A.w - ta) * (B.w - tb)) else 1
  set skip := if values then A.w * B.w - p else 0
  obtain ⟨hmem, hmatQ, hmat, hsaved, htnode, hraised⟩ := slabDone_spec s c n o.1 o.2.1 skip p values
    { w with slab := w.slab + 1, cycles := w.cycles + p, skipped := w.skipped + skip }
  obtain ⟨-, -, -, -, -, hq, -⟩ := h
  refine ⟨_, ta, tb, ⟨hrun, hmatQ.trans hq, hmem⟩, hta, htb, hmat, hsaved, ?_⟩
  rw [htnode]
  exact ⟨hnode, S, sat, flush, hfl ▸ hraised, hcells⟩

end

end

end Sys2Proof.Safety
end

section
/-! PROOFS. O50 put together. -/

namespace Sys2Proof.Safety

open Sys2Proof.Machine

section
variable {s : State} {c n : ℕ} {r : Released} {q : List Released} {w : MatRun}

/-! ## ACC.LOAD's clauses -/

section
variable (h : MatOn s c r q w) (hx : exec r.i s = .next (loadWork s c w n))
include h hx

theorem load_waits (ha : Awake s) {key : ℕ} (he : firstEmpty s.mem (imageKeys c w) = some key) : Waits s c n r q w key :=
  waits_of ha h (by rw [hx, loadWork_empty he])

variable (he : firstEmpty s.mem (imageKeys c w) = none)
include he

theorem load_busy (harm : (s.node c n).armed = true) : Faults s c n r q 1 := by
  exact faults_of h (by rw [hx, loadWork_busy he harm])

variable (hidle : (s.node c n).armed = false)
include hidle

theorem load_defect (hd : ImageDefect s c w) : Faults s c n r q 4 := by
  exact faults_of h (by rw [hx, loadWork_defect he hidle hd])

variable (hd : ¬ ImageDefect s c w)
include hd

theorem load_unarmed (harm : (imageWord s c w 0).d.getLsbD 0 = false) :
    ∃ t, Runs s c r q t ∧ (t.core c).mat = none ∧ t.node c n = s.node c n ∧ Sent t r (natVal 0) := by
  rw [loadWork_unarmed he hidle hd harm] at hx
  obtain ⟨-, -, rfl, -, -, hq, -⟩ := h
  obtain ⟨hmem, hcore, hsent⟩ := matDone_spec s c w (natVal 0)
  exact ⟨_, ⟨hx, by rw [hcore]; exact hq, hmem⟩, by rw [hcore], by rw [node_eq, hcore]; rfl, hsent⟩

theorem load_armed (harm : (imageWord s c w 0).d.getLsbD 0 = true) : ∃ t, Runs s c r q t ∧ GoesOn s c n w t ∧ Sent t r (natVal 0) ∧
    t.node c n = (loadNode (s.node c n) (imageHead s c w) (imageCells s c w) w.cmd.sec).1 ∧ ∃ sat flush : ℕ → Bool,
      Raised s t c (flagsOf ((List.range 4096).map fun j => (if sat j then flAccSat else 0) + if flush j then flAccFlush else 0)) ∧
      ∀ j < 4096, let v := imageWord s c w (8 + j)
        (relCell (t.node c n) j).err = (v.x || v.d.getLsbD 63 || decide (bits v.d.toNat 62 58 ≠ 0)) ∧
        Acc48 (((v.d.setWidth 48).toInt : ℚ) * (2 : ℚ) ^ (v.d.extractLsb' 48 10).toInt) (relCell (t.node c n) j) (sat j) (flush j) := by
  obtain ⟨hmem, hmatQ, hmat, hsent, hnode, hraised⟩ := loadWork_loaded s c w n he hidle hd harm
  obtain ⟨-, -, rfl, -, -, hq, -⟩ := h
  obtain ⟨hcells, hflags⟩ := loadNode_cells s c w n
  choose sat flush hsf herr hacc using loadCell_spec
  generalize loadWork s c w n = t at hx hmem hmatQ hmat hsent hnode hraised
  refine ⟨t, ⟨hx, hmatQ.trans hq, hmem⟩, hmat, hsent, hnode, fun j => sat (imageWord s c w (8 + j)), fun j => flush (imageWord s c w (8 + j)), ?_,
    fun j hj => ?_⟩
  · have hmap : (List.range 4096).map (fun j => (loadCell (imageWord s c w (8 + j))).2) = _ := List.map_congr_left fun j _ => hsf _
    rw [hmap] at hflags
    exact hflags ▸ hraised
  · have hcell := And.intro (herr (imageWord s c w (8 + j))) (hacc (imageWord s c w (8 + j)))
    rw [← hcells j hj, ← hnode] at hcell
    exact hcell

end

/-- ACC.LOAD in the engine is its work. -/
theorem exec_accLoad (x : XF) (nd : BitVec 2) (s : State) :
    exec (.accLoad x nd) s = matExec s (.accLoad x nd) fun s c w => loadWork s c w nd.toNat := by
  change execAccLoad x nd s = _
  unfold execAccLoad
  refine congrArg (matExec s (.accLoad x nd)) ?_
  funext s c w
  unfold loadWork imageKeys imageHead imageCells imageWord natVal
  dsimp only [mNodeBusy, mImage, Val.ofNat] <;> cases firstEmpty s.mem _ <;> rfl

theorem rowErr_or (m : List Host.Cell) (p p' : Machine.PSet) (k i j : ℕ) : (rowErr m p k i || rowErr m p' k j) =
    (List.range 32).any fun l => (p.el m k (32 * i + l)).isNone || (p'.el m k (32 * j + l)).isNone := by
  rw [Bool.eq_iff_iff]
  simp only [rowErr, Bool.or_eq_true, List.any_eq_true]
  constructor
  · rintro (⟨l, hl, h⟩ | ⟨l, hl, h⟩)
    · exact ⟨l, hl, Or.inl h⟩
    · exact ⟨l, hl, Or.inr h⟩
  · rintro ⟨l, hl, h | h⟩
    · exact Or.inl ⟨l, hl, h⟩
    · exact Or.inr ⟨l, hl, h⟩

end

/-- Settles O50: each command's clause is a lemma about what the engine's act makes of the state. -/
theorem matrixProductsReleasesAndImages : Obligations.MatrixProductsReleasesAndImages := by
  unfold Obligations.MatrixProductsReleasesAndImages
  intro x pk nd ga gb clr ns s c r q w hc ha hs n N now begun pair
  refine ⟨fun hhead hi => mat_starts hhead hi, fun hf hm ht hstarted hi => mat_resumes hf hm ht hstarted hi, ?_, fun m _ hrel => ?_⟩
  · intro runs fault waits after counted cell hon
    refine ⟨?_, ?_, ?_⟩
    · intro e he hi A B k NS off keys bad val dot on ctl
      have hns : 0 < ns.toNat + 1 := Nat.succ_pos _
      have hx : ∀ s, exec r.i s = matExec s r.i (mmpWork e.2 n ga gb (ns.toNat + 1)) := by
        intro s
        rw [hi]
        simp only [List.mem_cons, List.not_mem_nil, or_false] at he
        obtain rfl | rfl := he
        · rfl
        · rfl
      refine ⟨product_idle hon hx hns, product_range hon hx hns, fun hk h0 => ⟨fun key => product_waits hon hx h0 hk ha, fun hfull => ?_⟩,
        product_ends hon hx⟩
      obtain ⟨t, ta, tb, hruns, hta, htb, hmat, hsaved, hnode, S, sat, flush, hraised, hcells⟩ := product_slab hon hx h0 hk hfull
      refine ⟨t, ta, tb, hruns, hta, htb, hmat, hsaved, hnode, S, sat, flush, hraised, fun i hi j hj => ?_⟩
      obtain ⟨herr, hfalse, htrue⟩ := hcells i hi j hj
      rw [Bool.or_assoc, rowErr_or] at herr
      exact ⟨herr, hfalse, htrue⟩
    · intro hi hroom
      obtain ⟨-, -, hcmd, -, -, hq, -⟩ := id hon
      have hx : exec r.i s = .next (saveWork n clr s c w) := exec_of_run hon fun s => by rw [hi]; rfl
      subst hcmd
      obtain ⟨hmat, hmatQ, hwords, hnode, hsent⟩ := saveWork_spec hs ha hc n clr w hroom
      exact ⟨_, hx, hmat, hmatQ.trans hq, hwords, fun harm j hj => nodeImage_cell harm hj, hnode, hsent⟩
    · intro hi W h keys armed due form size defect
      obtain ⟨-, -, hcmd, -, -, hq, -⟩ := id hon
      have hx : exec r.i s = .next (loadWork s c w n) :=
        exec_of_run (run := fun s c w => loadWork s c w n) hon fun s => by rw [hi, exec_accLoad]
      subst hcmd
      refine ⟨fun key he => load_waits hon hx ha he, fun he => ⟨load_busy hon hx he, fun hidle => ⟨load_defect hon hx he hidle,
        load_unarmed hon hx he hidle, fun hd harm => ?_⟩⟩⟩
      obtain ⟨t, hruns, hafter, hsent, hnode, hcells⟩ := load_armed hon hx he hidle hd harm
      refine ⟨t, hruns, hafter, hsent, ?_, hcells⟩
      rw [hnode]
      exact loadNode_node s c w n
  · intro N out cell bad done harm hdue
    exact ⟨packed_released hs ha hc hrel harm hdue, planes_released hs ha hc hrel harm hdue⟩

end Sys2Proof.Safety
end

section
/-! PROOFS. Words written out from the encoding tables. -/

namespace Sys2Proof.Safety

/-- Settles O1: each word by running the decoder on it. -/
theorem specWordsDecode : Obligations.SpecWordsDecode := by
  unfold Obligations.SpecWordsDecode
  decide

end Sys2Proof.Safety
end

section
/-! PROOFS. Fields of instruction words: each code and each field read back is the value encoded (Tables 3.4 to 3.8, R64, R65, R73). -/

namespace Sys2Proof

/-! ## Codes -/

theorem Pred.ofCode_eq_some {n : Nat} {p : Pred} : Pred.ofCode n = some p ↔ n = p.code := by
  constructor
  · intro h
    unfold Pred.ofCode at h
    split at h <;> cases h <;> rfl
  · rintro rfl
    cases p <;> rfl
theorem Space.ofCode_eq_some {n : Nat} {sp : Space} : Space.ofCode n = some sp ↔ n = sp.code := by
  constructor
  · intro h
    unfold Space.ofCode at h
    split at h <;> cases h <;> rfl
  · rintro rfl
    cases sp <;> rfl
theorem Scope.ofCode_eq_some {n : Nat} {sc : Scope} : Scope.ofCode n = some sc ↔ n = sc.code := by
  constructor
  · intro h
    unfold Scope.ofCode at h
    split at h <;> cases h <;> rfl
  · rintro rfl
    cases sc <;> rfl
theorem IWidth.ofCode_eq {n : Nat} {w : IWidth} : IWidth.ofCode n = w ↔ n % 4 = w.code := by
  unfold IWidth.ofCode
  split <;> cases w <;> simp_all [IWidth.code] <;> omega
theorem Pred.code_lt (p : Pred) : p.code < 3 := by cases p <;> decide
theorem Space.code_lt (sp : Space) : sp.code < 3 := by cases sp <;> decide
theorem Scope.code_lt (sc : Scope) : sc.code < 5 := by cases sc <;> decide
theorem IWidth.code_lt (w : IWidth) : w.code < 4 := by cases w <;> decide
theorem ITy.code_lt (t : ITy) : t.code < 8 := by
  rcases t with w | w <;> have := w.code_lt <;> simp only [ITy.code] <;> omega
theorem ITy.ofCode_eq {n : Nat} {t : ITy} : ITy.ofCode n = t ↔ n % 8 = t.code := by
  unfold ITy.ofCode
  rcases t with w | w
  · have := w.code_lt
    split <;> simp only [ITy.s.injEq, reduceCtorEq, IWidth.ofCode_eq, ITy.code, false_iff] <;> omega
  · have := w.code_lt
    split <;> simp only [ITy.n.injEq, reduceCtorEq, IWidth.ofCode_eq, ITy.code, false_iff] <;> omega
theorem FTy.code_lt (t : FTy) : t.code < 12 := by
  rcases t with t | _ | _ | _ | _
  case int => have := t.code_lt; simp only [FTy.code]; omega
  all_goals decide
theorem FTy.ofCode_eq_some {n : Nat} {t : FTy} : FTy.ofCode n = some t ↔ n = t.code := by
  unfold FTy.ofCode
  split
  · next hn =>
    cases t with
    | int t => simp only [Option.some.injEq, FTy.int.injEq, ITy.ofCode_eq, FTy.code, Nat.mod_eq_of_lt hn]
    | f32 | bf16 | e4m3 | e5m2 => simp only [Option.some.injEq, reduceCtorEq, FTy.code, false_iff]; omega
  · next hn =>
    constructor
    · intro h
      split at h <;> cases h <;> rfl
    · rintro rfl
      cases t with
      | int t => exact absurd t.code_lt hn
      | f32 | bf16 | e4m3 | e5m2 => rfl

theorem Target.code_lt (t : Target) : t.code < 512 := by
  cases t <;> simp only [Target.code] <;> omega
theorem Target.ofCode_eq {c : Nat} {t : Target} : Target.ofCode c = t ↔ c % 512 = t.code := by
  unfold Target.ofCode
  split
  · next h =>
    split <;> cases t <;> simp only [Target.code, reduceCtorEq, Target.write.injEq, Fin.ext_iff, false_iff, true_iff] <;> omega
  · cases t <;> simp only [Target.code, reduceCtorEq, Target.pred.injEq, Fin.ext_iff, false_iff] <;> omega
  · cases t <;> simp only [Target.code, reduceCtorEq, Target.opA.injEq, Fin.ext_iff, false_iff] <;> omega
  · next h0 h1 h2 =>
    have h3 : c / 128 % 4 = 3 := by
      have : c / 128 % 4 ≠ 0 ∧ c / 128 % 4 ≠ 1 ∧ c / 128 % 4 ≠ 2 := ⟨h0, h1, h2⟩
      omega
    cases t <;> simp only [Target.code, reduceCtorEq, Target.opB.injEq, Fin.ext_iff, false_iff] <;> omega

/-! ## Bits of a word -/

theorem bnat_lt (b : Bool) : bnat b < 2 := by cases b <;> decide
theorem fld_eq {n w lo : Nat} {x : BitVec n} : fld n w lo = x ↔ w / 2 ^ lo % 2 ^ n = x.toNat := by
  rw [← BitVec.toNat_inj, fld, BitVec.toNat_ofNat]
theorem fbit_eq {w lo : Nat} {b : Bool} : fbit w lo = b ↔ w / 2 ^ lo % 2 = bnat b := by
  cases b <;> simp [fbit, bnat]
@[simp] theorem toNat_fld (n w lo : Nat) : (fld n w lo).toNat = w / 2 ^ lo % 2 ^ n := by simp [fld]
@[simp] theorem bnat_fbit (w lo : Nat) : bnat (fbit w lo) = w / 2 ^ lo % 2 := (fbit_eq.mp rfl).symm
@[simp] theorem code_targetOfCode (c : Nat) : (Target.ofCode c).code = c % 512 := (Target.ofCode_eq.mp rfl).symm
@[simp] theorem code_ityOfCode (n : Nat) : (ITy.ofCode n).code = n % 8 := (ITy.ofCode_eq.mp rfl).symm

/-- The fields of a word with one number each (Table 3.4). -/
theorem eq_wordG_iff {w opc p x a b : Nat} (hp : p < 4) (hx : x < 32) (ha : a < 512) (hb : b < 512) :
    w = wordG opc p x a b ↔ w / 2 ^ 25 = opc ∧ w / 2 ^ 23 % 4 = p ∧ w / 2 ^ 18 % 32 = x ∧ w / 2 ^ 9 % 512 = a ∧ w % 512 = b := by
  unfold wordG
  omega

end Sys2Proof
end

section
/-! PROOFS. When each format of a word decodes (Table 3.4, R64, R65, R83, R84): exactly the words that the encoder lays out for the fields. -/

namespace Sys2Proof

/-! ## Checks in a row -/

theorem bind_eq_ok_iff {ε α β : Type} {x : Except ε α} {f : α → Except ε β} {b : β} :
    (x >>= f) = .ok b ↔ ∃ a, x = .ok a ∧ f a = .ok b := by
  cases x with
  | error e => exact ⟨(nomatch ·), fun ⟨_, h, _⟩ => (nomatch h)⟩
  | ok a => exact ⟨fun h => ⟨a, rfl, h⟩, fun ⟨_, h, hb⟩ => by cases h; exact hb⟩
theorem chk_eq_ok {b : Bool} {c : Check} {u : Unit} : chk b c = .ok u ↔ b = true := by cases b <;> simp [chk]
theorem opt_eq_ok {α : Type} {o : Option α} {c : Check} {a : α} : opt o c = .ok a ↔ o = some a := by cases o <;> simp [opt]
theorem dField_eq_ok {i j : Instr} : dField i = .ok j ↔ i = j ∧ i.fieldOk = true := by
  unfold dField
  split <;> simp [*]
theorem dPred_eq_ok {w : Nat} {p : Pred} : dPred w = .ok p ↔ w / 2 ^ 23 % 4 = p.code := by
  rw [dPred, opt_eq_ok, Pred.ofCode_eq_some]

/-! ## One word -/

theorem dP_eq_ok {w : Nat} {res : Bool} {k : Pred → Instr} {i : Instr} :
    dP w res k = .ok i ↔ res = true ∧ ∃ p : Pred, w / 2 ^ 23 % 4 = p.code ∧ k p = i ∧ i.fieldOk = true := by
  simp only [dP, bind_eq_ok_iff, dPred_eq_ok, chk_eq_ok, dField_eq_ok]
  constructor
  · rintro ⟨p, hp, _, hr, rfl, hf⟩
    exact ⟨hr, p, hp, rfl, hf⟩
  · rintro ⟨hr, p, hp, rfl, hf⟩
    exact ⟨p, hp, (), hr, rfl, hf⟩
theorem dG_eq_ok {w opc x : Nat} {k : GF → Instr} {i : Instr} (ho : w / 2 ^ 25 = opc) (hx : w / 2 ^ 18 % 32 = x) :
    dG w k = .ok i ↔ ∃ g, k g = i ∧ i.fieldOk = true ∧ encG opc x g = [w] := by
  simp only [dG, bind_eq_ok_iff, dPred_eq_ok, dField_eq_ok, encG, List.cons.injEq, and_true]
  have field (g : GF) : wordG opc g.pred.code x g.t1.code g.t2.code = w ↔
      w / 2 ^ 23 % 4 = g.pred.code ∧ tgt1Of w = g.t1 ∧ tgt2Of w = g.t2 := by
    have := g.pred.code_lt
    rw [eq_comm, eq_wordG_iff (by omega) (by omega) g.t1.code_lt g.t2.code_lt, tgt1Of, tgt2Of, Target.ofCode_eq, Target.ofCode_eq]
    omega
  constructor
  · rintro ⟨p, hp, rfl, hf⟩
    exact ⟨_, rfl, hf, (field _).mpr ⟨hp, rfl, rfl⟩⟩
  · rintro ⟨g, rfl, hf, hw⟩
    obtain ⟨hp, h1, h2⟩ := (field g).mp hw
    exact ⟨g.pred, hp, by rw [h1, h2], by rw [h1, h2]; exact hf⟩
theorem dI_eq_ok {w opc x : Nat} {res : Bool} {k : TF → Option Instr} {i : Instr} (ho : w / 2 ^ 25 = opc) (hx : w / 2 ^ 18 % 32 = x) :
    dI w res k = .ok i ↔ res = true ∧ ∃ f, k f = some i ∧ i.fieldOk = true ∧ encI opc x (w / 2 ^ 9 % 512) f = [w] := by
  simp only [dI, bind_eq_ok_iff, dPred_eq_ok, chk_eq_ok, opt_eq_ok, dField_eq_ok, encI, List.cons.injEq, and_true]
  have field (f : TF) : wordG opc f.pred.code x (w / 2 ^ 9 % 512) f.tgt.code = w ↔ w / 2 ^ 23 % 4 = f.pred.code ∧ tgt2Of w = f.tgt := by
    have := f.pred.code_lt
    rw [eq_comm, eq_wordG_iff (by omega) (by omega) (by omega) f.tgt.code_lt, tgt2Of, Target.ofCode_eq]
    omega
  constructor
  · rintro ⟨p, hp, _, hr, j, hk, rfl, hf⟩
    exact ⟨hr, _, hk, hf, (field _).mpr ⟨hp, rfl⟩⟩
  · rintro ⟨hr, f, hk, hf, hw⟩
    obtain ⟨hp, h2⟩ := (field f).mp hw
    exact ⟨f.pred, hp, (), hr, i, by rw [h2]; exact hk, rfl, hf⟩
theorem dL_eq_ok {w opc : Nat} {k : LF → Instr} {i : Instr} (ho : w / 2 ^ 25 = opc) :
    dL w k = .ok i ↔ ∃ f, k f = i ∧ i.fieldOk = true ∧ encL opc f = [w] := by
  simp only [dL, bind_eq_ok_iff, dPred_eq_ok, opt_eq_ok, Space.ofCode_eq_some, dField_eq_ok, encL, List.cons.injEq, and_true]
  have field (f : LF) : wordG opc f.pred.code f.lsid.toNat (f.space.code * 2 ^ 7 + f.off.toNat) f.tgt.code = w ↔
      w / 2 ^ 23 % 4 = f.pred.code ∧ fld 5 w 18 = f.lsid ∧ w / 2 ^ 16 % 4 = f.space.code ∧ fld 7 w 9 = f.off ∧ tgt2Of w = f.tgt := by
    have := f.pred.code_lt
    have := f.space.code_lt
    rw [eq_comm, eq_wordG_iff (by omega) (by omega) (by omega) f.tgt.code_lt, tgt2Of, Target.ofCode_eq, fld_eq, fld_eq]
    omega
  constructor
  · rintro ⟨p, hp, sp, hsp, rfl, hf⟩
    exact ⟨_, rfl, hf, (field _).mpr ⟨hp, rfl, hsp, rfl, rfl⟩⟩
  · rintro ⟨f, rfl, hf, hw⟩
    obtain ⟨hp, hl, hsp, hoff, h2⟩ := (field f).mp hw
    exact ⟨f.pred, hp, f.space, hsp, by rw [hl, hoff, h2], by rw [hl, hoff, h2]; exact hf⟩
theorem dS_eq_ok {w sop : Nat} {res : Bool} {k : SF → Option Instr} {i : Instr} (ho : w / 2 ^ 25 = 0x58) (hs : w % 16 = sop) :
    dS w res k = .ok i ↔ res = true ∧ ∃ f, k f = some i ∧ i.fieldOk = true ∧ encS sop f = [w] := by
  simp only [dS, bind_eq_ok_iff, dPred_eq_ok, chk_eq_ok, opt_eq_ok, Space.ofCode_eq_some, dField_eq_ok, encS, List.cons.injEq, and_true, beq_iff_eq]
  have field (f : SF) : wordG 0x58 f.pred.code f.lsid.toNat f.off.toNat (f.space.code * 2 ^ 7 + sop) = w ↔
      w / 2 ^ 23 % 4 = f.pred.code ∧ w / 2 ^ 4 % 8 = 0 ∧ fld 5 w 18 = f.lsid ∧ w / 2 ^ 7 % 4 = f.space.code ∧ fld 9 w 9 = f.off := by
    have := f.pred.code_lt
    have := f.space.code_lt
    rw [eq_comm, eq_wordG_iff (by omega) (by omega) (by omega) (by omega), fld_eq, fld_eq]
    omega
  constructor
  · rintro ⟨p, hp, _, hr, _, hz, sp, hsp, j, hk, rfl, hf⟩
    exact ⟨hr, _, hk, hf, (field _).mpr ⟨hp, hz, rfl, hsp, rfl⟩⟩
  · rintro ⟨hr, f, hk, hf, hw⟩
    obtain ⟨hp, hz, hl, hsp, hoff⟩ := (field f).mp hw
    exact ⟨f.pred, hp, (), hr, (), hz, f.space, hsp, i, by rw [hl, hoff]; exact hk, rfl, hf⟩
theorem dA_eq_ok {w sop : Nat} {k : AF → Instr} {i : Instr} (ho : w / 2 ^ 25 = 0x60) (hs : w % 16 = sop) :
    dA w k = .ok i ↔ ∃ f, k f = i ∧ i.fieldOk = true ∧ encA sop f = [w] := by
  simp only [dA, bind_eq_ok_iff, dPred_eq_ok, opt_eq_ok, Space.ofCode_eq_some, Scope.ofCode_eq_some, dField_eq_ok, encA, List.cons.injEq, and_true]
  have field (f : AF) : wordG 0x60 f.pred.code f.lsid.toNat (bnat f.w32 * 2 ^ 8 + bnat f.nat * 2 ^ 7 + f.slot.toNat)
        (f.space.code * 2 ^ 7 + f.scope.code * 2 ^ 4 + sop) = w ↔
      w / 2 ^ 23 % 4 = f.pred.code ∧ fld 5 w 18 = f.lsid ∧ fbit w 17 = f.w32 ∧ fbit w 16 = f.nat ∧ fld 7 w 9 = f.slot ∧
        w / 2 ^ 7 % 4 = f.space.code ∧ w / 2 ^ 4 % 8 = f.scope.code := by
    have := f.pred.code_lt
    have := f.space.code_lt
    have := f.scope.code_lt
    have := bnat_lt f.w32
    have := bnat_lt f.nat
    rw [eq_comm, eq_wordG_iff (by omega) (by omega) (by omega) (by omega), fld_eq, fld_eq, fbit_eq, fbit_eq]
    omega
  constructor
  · rintro ⟨p, hp, sp, hsp, sc, hsc, rfl, hf⟩
    exact ⟨_, rfl, hf, (field _).mpr ⟨hp, rfl, rfl, rfl, rfl, hsp, hsc⟩⟩
  · rintro ⟨f, rfl, hf, hw⟩
    obtain ⟨hp, hl, hw32, hn, hsl, hsp, hsc⟩ := (field f).mp hw
    exact ⟨f.pred, hp, f.space, hsp, f.scope, hsc, by rw [hl, hw32, hn, hsl], by rw [hl, hw32, hn, hsl]; exact hf⟩
theorem dR_eq_ok {w sop : Nat} {k : RF → Instr} {i : Instr} (ho : w / 2 ^ 25 = 0x61) (hs : w % 16 = sop) :
    dR w k = .ok i ↔ ∃ f, k f = i ∧ i.fieldOk = true ∧ encR sop f = [w] := by
  simp only [dR, bind_eq_ok_iff, dPred_eq_ok, chk_eq_ok, opt_eq_ok, Space.ofCode_eq_some, Scope.ofCode_eq_some, dField_eq_ok, encR, List.cons.injEq,
    and_true, beq_iff_eq]
  have field (f : RF) : wordG 0x61 f.pred.code f.lsid.toNat (bnat f.w32 * 2 ^ 8 + bnat f.nat * 2 ^ 7 + bnat f.relaxed)
        (f.space.code * 2 ^ 7 + f.scope.code * 2 ^ 4 + sop) = w ↔
      w / 2 ^ 23 % 4 = f.pred.code ∧ w / 2 ^ 10 % 64 = 0 ∧ fld 5 w 18 = f.lsid ∧ fbit w 17 = f.w32 ∧ fbit w 16 = f.nat ∧ fbit w 9 = f.relaxed ∧
        w / 2 ^ 7 % 4 = f.space.code ∧ w / 2 ^ 4 % 8 = f.scope.code := by
    have := f.pred.code_lt
    have := f.space.code_lt
    have := f.scope.code_lt
    have := bnat_lt f.w32
    have := bnat_lt f.nat
    have := bnat_lt f.relaxed
    rw [eq_comm, eq_wordG_iff (by omega) (by omega) (by omega) (by omega), fld_eq, fbit_eq, fbit_eq, fbit_eq]
    omega
  constructor
  · rintro ⟨p, hp, _, hz, sp, hsp, sc, hsc, rfl, hf⟩
    exact ⟨_, rfl, hf, (field _).mpr ⟨hp, hz, rfl, rfl, rfl, rfl, hsp, hsc⟩⟩
  · rintro ⟨f, rfl, hf, hw⟩
    obtain ⟨hp, hz, hl, hw32, hn, hrel, hsp, hsc⟩ := (field f).mp hw
    exact ⟨f.pred, hp, (), hz, f.space, hsp, f.scope, hsc, by rw [hl, hw32, hn, hrel], by rw [hl, hw32, hn, hrel]; exact hf⟩

/-! ## Two words -/

theorem eq_encX_iff {w st opc p sub nops dest flags st' : Nat} (hp : p < 4) (hs : sub < 32) (hn : nops < 4) (hd : dest < 512) (hf : flags < 128) :
    encX opc p sub nops dest flags st' = [w, st] ↔ w / 2 ^ 25 = opc ∧ w / 2 ^ 23 % 4 = p ∧ w / 2 ^ 18 % 32 = sub ∧ w / 2 ^ 16 % 4 = nops ∧
      w / 2 ^ 7 % 512 = dest ∧ w % 128 = flags ∧ st' = st := by
  simp only [encX, List.cons.injEq, and_true]
  omega

/-- A command's DEST field, and the bits in it that are zero (R65). -/
theorem destCode_eq_iff {w : Nat} {d : Option (BitVec 7)} : w / 2 ^ 7 % 512 = destCode d ↔ destOk w = true ∧ destOf w = d := by
  simp only [destOk, Bool.and_eq_true, Bool.or_eq_true, beq_iff_eq]
  unfold destOf
  cases d with
  | none =>
    simp only [destCode]
    split <;> simp only [reduceCtorEq, and_false, and_true, iff_false] <;> omega
  | some s =>
    simp only [destCode]
    split
    · simp only [Option.some.injEq, fld_eq]; omega
    · simp only [reduceCtorEq, and_false, iff_false]; omega

theorem destCode_lt (d : Option (BitVec 7)) : destCode d < 512 := by
  cases d <;> simp only [destCode] <;> omega
theorem Instr.nops_lt (i : Instr) : i.nops < 4 := by
  cases i
  case vred _ v | vscan _ v | vtopk _ v => have := bnat_lt v.msk; simp only [Instr.nops, Instr.vspec]; omega
  all_goals exact Nat.lt_of_le_of_lt (by simp only [Instr.nops, Instr.vspec]; decide) (by decide : 3 < 4)

theorem dXT_eq_ok {w nops sbits opc sub : Nat} {w2 : Option Nat} {k : TF → Nat → Option Instr} {i : Instr} (hn : nops < 4)
    (ho : w / 2 ^ 25 = opc) (hx : w / 2 ^ 18 % 32 = sub) :
    dXT w w2 nops sbits k = .ok i ↔ ∃ f st, w2 = some st ∧ st / 2 ^ sbits = 0 ∧ k f st = some i ∧ i.fieldOk = true ∧ encXT opc sub nops f st = [w, st] := by
  simp only [dXT, bind_eq_ok_iff, dPred_eq_ok, chk_eq_ok, opt_eq_ok, dField_eq_ok, encXT, Bool.and_eq_true, beq_iff_eq]
  have field (f : TF) (st : Nat) : encX opc f.pred.code sub nops f.tgt.code 0 st = [w, st] ↔
      w / 2 ^ 23 % 4 = f.pred.code ∧ w % 128 = 0 ∧ w / 2 ^ 16 % 4 = nops ∧ Target.ofCode (w / 2 ^ 7 % 512) = f.tgt := by
    have := f.pred.code_lt
    rw [eq_encX_iff (by omega) (by omega) hn f.tgt.code_lt (by omega), Target.ofCode_eq]
    omega
  constructor
  · rintro ⟨st, h2, p, hp, _, ⟨hz, hst⟩, _, hno, j, hk, rfl, hf⟩
    exact ⟨_, st, h2, hst, hk, hf, (field _ _).mpr ⟨hp, hz, hno, rfl⟩⟩
  · rintro ⟨f, st, h2, hst, hk, hf, hw⟩
    obtain ⟨hp, hz, hno, ht⟩ := (field f st).mp hw
    exact ⟨st, h2, f.pred, hp, (), ⟨hz, hst⟩, (), hno, i, by rw [ht]; exact hk, rfl, hf⟩

theorem dX_eq_ok {w fmask sbits opc sub : Nat} {w2 : Option Nat} {k : XF → Nat → Nat → Option Instr} {i : Instr}
    (ho : w / 2 ^ 25 = opc) (hx : w / 2 ^ 18 % 32 = sub) :
    dX w w2 fmask sbits k = .ok i ↔ ∃ x fl st, w2 = some st ∧ fl < 128 ∧ fl &&& (127 - fmask) = 0 ∧ st / 2 ^ sbits = 0 ∧ k x fl st = some i ∧
      i.resOk = true ∧ (x.dest.isSome || !i.mandatory) = true ∧ i.fieldOk = true ∧ encC opc sub i.nops x fl st = [w, st] := by
  have field (x : XF) (fl st : Nat) (hfl : fl < 128) : encC opc sub i.nops x fl st = [w, st] ↔
      w / 2 ^ 23 % 4 = x.pred.code ∧ w / 2 ^ 16 % 4 = i.nops ∧ (destOk w = true ∧ destOf w = x.dest) ∧ w % 128 = fl := by
    have := x.pred.code_lt
    rw [encC, eq_encX_iff (by omega) (by omega) i.nops_lt (destCode_lt _) hfl, destCode_eq_iff]
    simp only [ho, hx, true_and, and_true]
  simp only [dX, bind_eq_ok_iff, dPred_eq_ok, chk_eq_ok, opt_eq_ok, Bool.and_eq_true, beq_iff_eq]
  constructor
  · rintro ⟨st, h2, p, hp, _, ⟨⟨hd, hm⟩, hst⟩, h⟩
    split at h
    · next j hk =>
      simp only [bind_eq_ok_iff, chk_eq_ok, dField_eq_ok, Bool.and_eq_true, beq_iff_eq] at h
      obtain ⟨_, hr, _, ⟨hno, hc⟩, rfl, hf⟩ := h
      exact ⟨_, _, st, h2, by omega, hm, hst, hk, hr, hc, hf, (field _ _ _ (by omega)).mpr ⟨hp, hno, ⟨hd, rfl⟩, rfl⟩⟩
    · simp [bind_eq_ok_iff] at h
  · rintro ⟨x, fl, st, h2, hfl, hm, hst, hk, hr, hc, hf, hw⟩
    obtain ⟨hp, hno, ⟨hd, hdest⟩, rfl⟩ := (field x fl st hfl).mp hw
    refine ⟨st, h2, x.pred, hp, (), ⟨⟨hd, hm⟩, hst⟩, ?_⟩
    simp only [hdest, hk, bind_eq_ok_iff, chk_eq_ok, dField_eq_ok, Bool.and_eq_true, beq_iff_eq]
    exact ⟨(), hr, (), ⟨hno, hc⟩, trivial, hf⟩

end Sys2Proof
end

section
/-! PROOFS. What a word decodes to, by its format: the decoder's answer for the words of an instruction, and the words of an answer. -/

namespace Sys2Proof

/-! ## The words of an instruction -/

/-- The instruction's encoding is the word `w`, or `w` and the word behind it. -/
def Instr.Words (i : Instr) (w : Nat) (w2 : Option Nat) : Prop :=
  encodeNat i = [w] ∨ ∃ st, w2 = some st ∧ st < 2 ^ 32 ∧ encodeNat i = [w, st]

/-- The instruction is well formed and stands at these words. -/
def Instr.At (i : Instr) (w : Nat) (w2 : Option Nat) : Prop := i.wf = true ∧ i.Words w w2

/-- No command, no vector command's static word, not MOV2: well formed if its fields are. -/
def Instr.plain (i : Instr) : Bool := i.resOk && i.destSlot.isNone && (match i with | .mov2 .. => false | _ => true)

section
variable {i : Instr} {w : Nat} {w2 : Option Nat}

theorem Instr.Words.coded (h : i.Words w w2) : i.coded = true := by
  obtain h | ⟨st, _, _, h⟩ := h <;> simp [Instr.coded, h]
theorem Instr.Words.one (h : i.Words w w2) {v : Nat} (he : encodeNat i = [v]) : v = w := by
  obtain h | ⟨st, _, _, h⟩ := h <;> rw [he] at h <;> simp_all
theorem Instr.Words.two (h : i.Words w w2) {v v2 : Nat} (he : encodeNat i = [v, v2]) : v = w ∧ w2 = some v2 ∧ v2 < 2 ^ 32 := by
  obtain h | ⟨st, h2, hst, h⟩ := h <;> rw [he] at h <;> simp_all
theorem Instr.at_of_plain (hp : i.plain = true) (hf : i.fieldOk = true) (hw : i.Words w w2) : i.At w w2 := by
  refine ⟨?_, hw⟩
  simp only [Instr.plain, Bool.and_eq_true, Option.isNone_iff_eq_none] at hp
  obtain ⟨⟨hr, hd⟩, hm⟩ := hp
  simp only [Instr.wf, hw.coded, hr, hf, hd, Bool.and_self, Bool.true_and]
  split
  · exact absurd hm (by simp)
  · rfl
theorem Instr.at_of_command {d : Option (BitVec 7)} (hd : i.destSlot = some d) (hr : i.resOk = true) (hm : (d.isSome || !i.mandatory) = true)
    (hf : i.fieldOk = true) (hw : i.Words w w2) : i.At w w2 := by
  refine ⟨?_, hw⟩
  simp only [Instr.wf, hw.coded, hr, hf, hd, hm, Bool.and_self, Bool.true_and]
  split
  · exact nomatch hd
  · rfl
theorem Instr.fieldOk_of_wf (h : i.wf = true) : i.fieldOk = true := by
  simp only [Instr.wf, Bool.and_eq_true] at h
  exact h.1.1.2
theorem Instr.resOk_of_wf (h : i.wf = true) : i.resOk = true := by
  simp only [Instr.wf, Bool.and_eq_true] at h
  exact h.1.1.1.2
theorem Instr.dest_of_wf (h : i.wf = true) {d : Option (BitVec 7)} (hd : i.destSlot = some d) : (d.isSome || !i.mandatory) = true := by
  simp only [Instr.wf, Bool.and_eq_true, hd] at h
  exact h.1.2

/-! ## From a format's answer to its words, and back -/

variable {opc x : Nat}

theorem at_of_dG (ho : w / 2 ^ 25 = opc) (hx : w / 2 ^ 18 % 32 = x) {k : GF → Instr}
    (hk : ∀ g, encodeNat (k g) = encG opc x g ∧ (k g).plain = true) (h : dG w k = .ok i) : i.At w w2 := by
  obtain ⟨g, rfl, hf, hw⟩ := (dG_eq_ok ho hx).mp h
  exact Instr.at_of_plain (hk g).2 hf (.inl ((hk g).1.trans hw))
theorem at_of_dL (ho : w / 2 ^ 25 = opc) {k : LF → Instr}
    (hk : ∀ f, encodeNat (k f) = encL opc f ∧ (k f).plain = true) (h : dL w k = .ok i) : i.At w w2 := by
  obtain ⟨f, rfl, hf, hw⟩ := (dL_eq_ok ho).mp h
  exact Instr.at_of_plain (hk f).2 hf (.inl ((hk f).1.trans hw))
theorem at_of_dS (ho : w / 2 ^ 25 = 0x58) (hs : w % 16 = x) {res : Bool} {k : SF → Option Instr}
    (hk : ∀ f i, res = true → encS x f = [w] → k f = some i → encodeNat i = encS x f ∧ i.plain = true) (h : dS w res k = .ok i) : i.At w w2 := by
  obtain ⟨hr, f, hi, hf, hw⟩ := (dS_eq_ok ho hs).mp h
  obtain ⟨he, hp⟩ := hk f i hr hw hi
  exact Instr.at_of_plain hp hf (.inl (he.trans hw))
theorem at_of_dA (ho : w / 2 ^ 25 = 0x60) (hs : w % 16 = x) {k : AF → Instr}
    (hk : ∀ f, encodeNat (k f) = encA x f ∧ (k f).plain = true) (h : dA w k = .ok i) : i.At w w2 := by
  obtain ⟨f, rfl, hf, hw⟩ := (dA_eq_ok ho hs).mp h
  exact Instr.at_of_plain (hk f).2 hf (.inl ((hk f).1.trans hw))
theorem at_of_dR (ho : w / 2 ^ 25 = 0x61) (hs : w % 16 = x) {k : RF → Instr}
    (hk : ∀ f, encodeNat (k f) = encR x f ∧ (k f).plain = true) (h : dR w k = .ok i) : i.At w w2 := by
  obtain ⟨f, rfl, hf, hw⟩ := (dR_eq_ok ho hs).mp h
  exact Instr.at_of_plain (hk f).2 hf (.inl ((hk f).1.trans hw))
theorem at_of_dI (ho : w / 2 ^ 25 = opc) (hx : w / 2 ^ 18 % 32 = x) {res : Bool} {k : TF → Option Instr}
    (hk : ∀ f i, res = true → k f = some i → encodeNat i = encI opc x (w / 2 ^ 9 % 512) f ∧ i.plain = true) (h : dI w res k = .ok i) :
    i.At w w2 := by
  obtain ⟨hr, f, hi, hf, hw⟩ := (dI_eq_ok ho hx).mp h
  obtain ⟨he, hp⟩ := hk f i hr hi
  exact Instr.at_of_plain hp hf (.inl (he.trans hw))
theorem at_of_dXT {nops sbits : Nat} (hn : nops < 4) (ho : w / 2 ^ 25 = opc) (hx : w / 2 ^ 18 % 32 = x) {k : TF → Nat → Option Instr}
    (hs : sbits ≤ 32)
    (hk : ∀ f st i, st / 2 ^ sbits = 0 → k f st = some i → encodeNat i = encXT opc x nops f st ∧ i.plain = true)
    (h : dXT w w2 nops sbits k = .ok i) : i.At w w2 := by
  obtain ⟨f, st, h2, hst, hi, hf, hw⟩ := (dXT_eq_ok hn ho hx).mp h
  obtain ⟨he, hp⟩ := hk f st i hst hi
  have : st < 2 ^ 32 := Nat.lt_of_lt_of_le ((Nat.div_eq_zero_iff_lt (by positivity)).mp hst) (Nat.pow_le_pow_right (by omega) hs)
  exact Instr.at_of_plain hp hf (.inr ⟨st, h2, this, he.trans hw⟩)
theorem at_of_dX {fmask sbits : Nat} (ho : w / 2 ^ 25 = opc) (hx : w / 2 ^ 18 % 32 = x) {k : XF → Nat → Nat → Option Instr} (hs : sbits ≤ 32)
    (hk : ∀ y fl st i, fl < 128 → fl &&& (127 - fmask) = 0 → st / 2 ^ sbits = 0 → k y fl st = some i →
      encodeNat i = encC opc x i.nops y fl st ∧ i.destSlot = some y.dest)
    (h : dX w w2 fmask sbits k = .ok i) : i.At w w2 := by
  obtain ⟨y, fl, st, h2, hfl, hmask, hst, hi, hr, hm, hf, hw⟩ := (dX_eq_ok ho hx).mp h
  obtain ⟨he, hd⟩ := hk y fl st i hfl hmask hst hi
  have : st < 2 ^ 32 := Nat.lt_of_lt_of_le ((Nat.div_eq_zero_iff_lt (by positivity)).mp hst) (Nat.pow_le_pow_right (by omega) hs)
  exact Instr.at_of_command hd hr hm hf (.inr ⟨st, h2, this, he.trans hw⟩)

end

end Sys2Proof
end

section
/-! PROOFS. What decodes is well formed and stands at its words, group by group of the opcode table (Tables 3.10 to 3.18, R64 to R66, R79 to R84). -/

namespace Sys2Proof

section
variable {i : Instr} {w : Nat} {w2 : Option Nat}

theorem at_of_dP {res : Bool} {k : Pred → Instr} (hk : ∀ p, res = true → w / 2 ^ 23 % 4 = p.code → k p = i → encodeNat i = [w] ∧ i.plain = true)
    (h : dP w res k = .ok i) : i.At w w2 := by
  obtain ⟨hr, p, hp, hi, hf⟩ := dP_eq_ok.mp h
  obtain ⟨he, hpl⟩ := hk p hr hp hi
  exact Instr.at_of_plain hpl hf (.inl he)

theorem at_of_decBro (ho : w / 2 ^ 25 = 1) (h : decBro w = .ok i) : i.At w w2 := by
  unfold decBro at h
  split at h
  case h_5 => cases h
  all_goals
    refine at_of_dP (fun p hr hp hk => ?_) h
    subst hk
    refine ⟨?_, rfl⟩
    rw [beq_iff_eq] at hr
    simp only [encodeNat, wordG, toNat_fld]
    congr 1
    omega

theorem at_of_decInt {t : ITy} (ho : w / 2 ^ 25 = 0x10 + t.code) (h : decInt t w = .ok i) : i.At w w2 := by
  unfold decInt at h
  split at h
  case h_28 hx =>
    obtain ⟨g, rfl, hf, hw⟩ := (dG_eq_ok ho hx).mp h
    split
    · next h2 =>
      refine Instr.at_of_plain rfl rfl (.inl ?_)
      rw [encG, h2] at hw
      exact hw
    · next h2 =>
      refine ⟨?_, .inl hw⟩
      simpa [Instr.wf, Instr.coded, Instr.resOk, Instr.fieldOk, Instr.destSlot, encodeNat, encG] using h2
  case h_31 => cases h
  case h_4 | h_5 | h_6 | h_7 | h_8 | h_20 | h_21 =>
    cases t with
    | s x => exact at_of_dG ho ‹_› (fun _ => ⟨rfl, rfl⟩) h
    | n x =>
      rw [ITy.code, ← Nat.add_assoc] at ho
      exact at_of_dG ho ‹_› (fun _ => ⟨rfl, rfl⟩) h
  all_goals exact at_of_dG ho ‹_› (fun _ => ⟨rfl, rfl⟩) h

theorem at_of_decF32 (ho : w / 2 ^ 25 = 0x30) (h : decF32 w = .ok i) : i.At w w2 := by
  unfold decF32 at h
  split at h
  case h_17 => cases h
  all_goals exact at_of_dG ho ‹_› (fun _ => ⟨rfl, rfl⟩) h

theorem at_of_decImm {t : ITy} (ho : w / 2 ^ 25 = 0x18 + t.code) (h : decImm t w = .ok i) : i.At w w2 := by
  unfold decImm at h
  split at h
  case h_8 => cases h
  case h_4 | h_5 =>
    cases t with
    | s x => exact at_of_dI ho ‹_› (fun f i _ hk => by cases hk; exact ⟨by simp only [encodeNat, toNat_fld]; rfl, rfl⟩) h
    | n x =>
      rw [ITy.code, ← Nat.add_assoc] at ho
      exact at_of_dI ho ‹_› (fun f i _ hk => by cases hk; exact ⟨by simp only [encodeNat, toNat_fld]; rfl, rfl⟩) h
  all_goals exact at_of_dI ho ‹_› (fun f i _ hk => by cases hk; exact ⟨by simp only [encodeNat, toNat_fld]; rfl, rfl⟩) h

theorem at_of_decInt3 (ho : w / 2 ^ 25 = 0x22) (h : decInt3 w w2 = .ok i) : i.At w w2 := by
  unfold decInt3 at h
  split at h
  case h_5 => cases h
  case h_1 | h_2 =>
    refine at_of_dXT (by decide) ho ‹_› (by decide) (fun f st i _ hk => ?_) h
    split at hk
    · cases hk
      refine ⟨?_, rfl⟩
      simp only [encodeNat, code_ityOfCode]
      congr 1
      omega
    · cases hk
  all_goals
    refine at_of_dXT (by decide) ho ‹_› (by decide) (fun f st i hst hk => ?_) h
    cases hk
    refine ⟨?_, rfl⟩
    simp only [encodeNat, code_ityOfCode, toNat_fld]
    congr 1
    omega

theorem at_of_decFrame (ho : 0x40 ≤ w / 2 ^ 25 ∧ w / 2 ^ 25 ≤ 0x44) (h : decFrame w w2 = .ok i) (hn : noneOk i w = true) : i.At w w2 := by
  unfold decFrame at h
  split at h
  case h_14 => cases h
  case h_5 h8 hx =>
    refine at_of_dP (fun p _ hp hk => ?_) h
    subst hk
    refine ⟨?_, rfl⟩
    simp only [noneOk, beq_iff_eq] at hn
    simp only [encodeNat, encP, wordG]
    congr 1
    omega
  case h_9 | h_10 =>
    refine at_of_dP (fun p hr hp hk => ?_) h
    subst hk
    refine ⟨?_, rfl⟩
    simp only [noneOk, beq_iff_eq] at hn hr
    simp only [encodeNat, encP, wordG, toNat_fld]
    congr 1
    omega
  case h_11 h8 hx =>
    obtain ⟨f, st, h2, hst, hk, hf, hw⟩ := (dXT_eq_ok (opc := 0x43) (by decide) (by omega) hx).mp h
    cases hk
    simp only [noneOk, beq_iff_eq] at hn
    refine Instr.at_of_plain rfl hf (.inr ⟨st, h2, by omega, ?_⟩)
    have := f.pred.code_lt
    rw [encXT, eq_encX_iff (by omega) (by omega) (by omega) f.tgt.code_lt (by omega)] at hw
    rw [encodeNat, eq_encX_iff (by omega) (by omega) (by omega) (by omega) (by omega)]
    omega
  case h_1 | h_2 | h_3 | h_4 => exact at_of_dG (opc := 0x40) (by omega) ‹_› (fun _ => ⟨rfl, rfl⟩) h
  case h_6 | h_7 | h_8 => exact at_of_dG (opc := 0x41) (by omega) ‹_› (fun _ => ⟨rfl, rfl⟩) h
  case h_12 | h_13 => exact at_of_dG (opc := 0x44) (by omega) ‹_› (fun _ => ⟨rfl, rfl⟩) h

theorem at_of_decStore (ho : w / 2 ^ 25 = 0x58) (h : decStore w = .ok i) : i.At w w2 := by
  unfold decStore at h
  split at h
  case h_12 => cases h
  case h_6 =>
    refine at_of_dS ho ‹_› (fun f i hr hw hk => ?_) h
    cases hk
    refine ⟨?_, rfl⟩
    have := f.space.code_lt
    have := f.pred.code_lt
    simp only [encS, List.cons.injEq, and_true, eq_comm (b := w)] at hw
    rw [eq_wordG_iff (by omega) (by omega) (by omega) (by omega)] at hw
    simp only [encodeNat, encS, toNat_fld, beq_iff_eq] at hr ⊢
    congr 2
    omega
  case h_9 | h_10 =>
    refine at_of_dS ho ‹_› (fun f i hr hw hk => ?_) h
    split at hk
    · next hsp =>
      cases hk
      refine ⟨?_, rfl⟩
      have := f.pred.code_lt
      simp only [encS, List.cons.injEq, and_true, eq_comm (b := w), hsp, Space.code] at hw
      rw [eq_wordG_iff (by omega) (by omega) (by omega) (by omega)] at hw
      simp only [encodeNat, encS, hsp, Space.code, beq_iff_eq] at hr ⊢
      congr 2
      omega
    · cases hk
  all_goals exact at_of_dS ho ‹_› (fun f i _ _ hk => by cases hk; exact ⟨rfl, rfl⟩) h

theorem at_of_decFence (ho : w / 2 ^ 25 = 0x59) (h : decFence w = .ok i) : i.At w w2 := by
  unfold decFence at h
  split at h
  · simp only [bind_eq_ok_iff, dPred_eq_ok, chk_eq_ok, opt_eq_ok, Scope.ofCode_eq_some, beq_iff_eq] at h
    obtain ⟨p, hp, _, hz, _, hz', sc, hsc, hi⟩ := h
    cases hi
    refine Instr.at_of_plain rfl rfl (.inl ?_)
    simp only [encodeNat, wordG, toNat_fld]
    congr 1
    omega
  · cases h

theorem at_of_decAmo (ho : w / 2 ^ 25 = 0x60) (h : decAmo w = .ok i) : i.At w w2 := by
  unfold decAmo at h
  split at h
  case h_10 => cases h
  all_goals exact at_of_dA ho ‹_› (fun _ => ⟨rfl, rfl⟩) h

theorem at_of_decAmoR (ho : w / 2 ^ 25 = 0x61) (h : decAmoR w = .ok i) : i.At w w2 := by
  unfold decAmoR at h
  split at h
  case h_10 => cases h
  all_goals exact at_of_dR ho ‹_› (fun _ => ⟨rfl, rfl⟩) h

theorem at_of_decCas (ho : w / 2 ^ 25 = 0x62) (h : decCas w w2 = .ok i) : i.At w w2 := by
  unfold decCas at h
  split at h
  · next hx =>
    simp only [bind_eq_ok_iff, dPred_eq_ok, chk_eq_ok, opt_eq_ok, Scope.ofCode_eq_some, Space.ofCode_eq_some, Bool.and_eq_true, beq_iff_eq] at h
    obtain ⟨st, h2, p, hp, _, ⟨⟨hd, hfl⟩, hst⟩, _, hno, sp, hsp, sc, hsc, hi⟩ := h
    cases hi
    refine Instr.at_of_command (d := destOf w) rfl rfl (Bool.or_true _) rfl (.inr ⟨st, h2, by omega, ?_⟩)
    have hdest := destCode_eq_iff.mpr ⟨hd, rfl⟩
    rw [encodeNat, encC, eq_encX_iff (Nat.lt_succ_of_lt p.code_lt) (by omega) (by omega) (destCode_lt _) (by omega)]
    simp only [toNat_fld, bnat_fbit]
    omega
  · cases h

/-- A word of a C-format system instruction: its targets are NONE (R79). -/
theorem encP_eq {opc x imm : Nat} {p : Pred} (ho : w / 2 ^ 25 = opc) (hp : w / 2 ^ 23 % 4 = p.code) (hx : w / 2 ^ 18 % 32 = x)
    (ha : w / 2 ^ 9 % 512 = imm) (hb : w % 512 = 0x7F) : encP opc x imm p = [w] := by
  simp only [encP, wordG]
  congr 1
  omega

theorem at_of_decSys (ho : 0x68 ≤ w / 2 ^ 25 ∧ w / 2 ^ 25 ≤ 0x6B) (h : decSys w = .ok i) (hn : noneOk i w = true) : i.At w w2 := by
  unfold decSys at h
  dsimp only at h
  split at h
  case h_14 => cases h
  case h_1 h8 hx | h_2 h8 hx | h_3 h8 hx =>
    obtain ⟨_, f, hk, hf, hw⟩ := (dI_eq_ok (opc := 0x68) (by omega) hx).mp h
    obtain ⟨sc, hsc, rfl⟩ := Option.map_eq_some_iff.mp hk
    rw [Scope.ofCode_eq_some] at hsc
    simp only [encI, List.cons.injEq, and_true, eq_comm (b := w)] at hw
    have := f.pred.code_lt
    rw [eq_wordG_iff (by omega) (by omega) (by omega) f.tgt.code_lt] at hw
    simp only [noneOk, beq_iff_eq] at hn
    refine Instr.at_of_plain rfl hf (.inl (encP_eq (by omega) hw.2.1 hx ?_ hn))
    rw [toNat_fld]
    omega
  case h_4 h8 hx => exact at_of_dG (opc := 0x69) (by omega) hx (fun _ => ⟨rfl, rfl⟩) h
  case h_5 h8 hx =>
    refine at_of_dP (fun p _ hp hk => ?_) h
    subst hk
    simp only [noneOk, beq_iff_eq] at hn
    exact ⟨encP_eq (by omega) hp hx (by omega) (by omega), rfl⟩
  case h_6 h8 hx | h_8 h8 hx =>
    exact at_of_dI (opc := 0x6A) (by omega) hx (fun f i _ hk => by cases hk; exact ⟨by simp only [encodeNat, toNat_fld]; rfl, rfl⟩) h
  case h_7 h8 hx =>
    obtain ⟨_, f, hk, hf, hw⟩ := (dI_eq_ok (opc := 0x6A) (by omega) hx).mp h
    cases hk
    simp only [encI, List.cons.injEq, and_true, eq_comm (b := w)] at hw
    have := f.pred.code_lt
    rw [eq_wordG_iff (by omega) (by omega) (by omega) f.tgt.code_lt] at hw
    simp only [noneOk, beq_iff_eq] at hn
    exact Instr.at_of_plain rfl hf (.inl (encP_eq (by omega) hw.2.1 hx (by rw [toNat_fld]; rfl) hn))
  case h_9 h8 hx =>
    obtain ⟨hr, f, hk, hf, hw⟩ := (dI_eq_ok (opc := 0x6A) (by omega) hx).mp h
    obtain ⟨sc, hsc, rfl⟩ := Option.map_eq_some_iff.mp hk
    rw [Scope.ofCode_eq_some] at hsc
    simp only [encI, List.cons.injEq, and_true, eq_comm (b := w)] at hw
    have := f.pred.code_lt
    rw [eq_wordG_iff (by omega) (by omega) (by omega) f.tgt.code_lt] at hw
    simp only [noneOk, beq_iff_eq] at hn hr
    refine Instr.at_of_plain rfl hf (.inl (encP_eq (by omega) hw.2.1 hx ?_ hn))
    omega
  case h_10 h8 hx =>
    obtain ⟨hr, f, hk, hf, hw⟩ := (dI_eq_ok (opc := 0x6A) (by omega) hx).mp h
    cases hk
    simp only [encI, List.cons.injEq, and_true, eq_comm (b := w)] at hw
    have := f.pred.code_lt
    rw [eq_wordG_iff (by omega) (by omega) (by omega) f.tgt.code_lt] at hw
    simp only [noneOk, beq_iff_eq] at hn hr
    exact Instr.at_of_plain rfl hf (.inl (encP_eq (by omega) hw.2.1 hx hr hn))
  case h_11 h8 hx | h_12 h8 hx | h_13 h8 hx =>
    refine at_of_dP (fun p _ hp hk => ?_) h
    subst hk
    simp only [noneOk, beq_iff_eq] at hn
    exact ⟨encP_eq (by omega) hp hx (by omega) (by omega), rfl⟩

/-! ## Commands -/

/-- FLAGS and the static word of a vector command hold its fields and nothing else (Table 9.3). -/
theorem flags_ofNat {fl st : Nat} (hfl : fl < 8) : (VF.ofNat fl st).flags = fl := by
  simp only [VF.flags, VF.ofNat, bnat_fbit]
  omega
theorem static_ofNat {fl st : Nat} (hst : st < 2 ^ 32) : (VF.ofNat fl st).static = st := by
  have part (lo n : Nat) : st / 2 ^ lo = st / 2 ^ lo % 2 ^ n + 2 ^ n * (st / 2 ^ (lo + n)) := by
    rw [Nat.pow_add, ← Nat.div_div_eq_div_mul, Nat.mod_add_div]
  have top : st / 2 ^ 21 = st / 2 ^ 21 % 2 ^ 11 := by omega
  have := part 0 4
  have := part 4 2
  have := part 6 4
  have := part 10 2
  have := part 12 4
  have := part 16 2
  have := part 18 1
  have := part 19 1
  have := part 20 1
  simp only [VF.static, VF.ofNat, bnat_fbit, toNat_fld]
  norm_num at *
  linarith

/-- The flags that a mask leaves, as a sum of its bits. -/
theorem masked_0 : ∀ fl < 128, fl &&& (127 - 0) = 0 → fl = 0 := by decide
theorem masked_1 : ∀ fl < 128, fl &&& (127 - 1) = 0 → fl = fl % 2 := by decide
theorem masked_3 : ∀ fl < 128, fl &&& (127 - 3) = 0 → fl < 4 := by decide
theorem masked_4 : ∀ fl < 128, fl &&& (127 - 4) = 0 → fl = 4 * (fl / 4 % 2) := by decide
theorem masked_5 : ∀ fl < 128, fl &&& (127 - 5) = 0 → fl = fl % 2 + 4 * (fl / 4 % 2) := by decide
theorem masked_7 : ∀ fl < 128, fl &&& (127 - 7) = 0 → fl < 8 := by decide
theorem masked_8 : ∀ fl < 128, fl &&& (127 - 8) = 0 → fl = 8 * (fl / 8 % 2) := by decide
theorem masked_16 : ∀ fl < 128, fl &&& (127 - 16) = 0 → fl = 16 * (fl / 16 % 2) := by decide

theorem at_of_dV {opc x : Nat} (ho : w / 2 ^ 25 = opc) (hx : w / 2 ^ 18 % 32 = x) {k : XF → VF → Instr}
    (hk : ∀ y v, encodeNat (k y v) = encV opc x (k y v).nops y v ∧ (k y v).destSlot = some y.dest) (h : dV w w2 k = .ok i) : i.At w w2 := by
  refine at_of_dX ho hx (by decide) (fun y fl st i hfl hm hst hi => ?_) h
  cases hi
  refine ⟨?_, (hk _ _).2⟩
  rw [(hk _ _).1, encV, encC, flags_ofNat (masked_7 fl hfl hm), static_ofNat (by omega)]

theorem at_of_decVec1 (ho : w / 2 ^ 25 = 0x70) (h : decVec1 w w2 = .ok i) : i.At w w2 := by
  unfold decVec1 at h
  split at h
  case h_21 => cases h
  all_goals exact at_of_dV ho ‹_› (fun _ _ => ⟨rfl, rfl⟩) h

theorem at_of_decVec2 (ho : w / 2 ^ 25 = 0x71) (h : decVec2 w w2 = .ok i) : i.At w w2 := by
  unfold decVec2 at h
  split at h
  case h_14 => cases h
  all_goals exact at_of_dV ho ‹_› (fun _ _ => ⟨rfl, rfl⟩) h

/-- A command without flags. -/
theorem at_of_dX_zero {sbits opc x : Nat} (ho : w / 2 ^ 25 = opc) (hx : w / 2 ^ 18 % 32 = x) {k : XF → Nat → Nat → Option Instr} (hs : sbits ≤ 32)
    (hk : ∀ y st i, st / 2 ^ sbits = 0 → k y 0 st = some i → encodeNat i = encC opc x i.nops y 0 st ∧ i.destSlot = some y.dest)
    (h : dX w w2 0 sbits k = .ok i) : i.At w w2 := by
  refine at_of_dX ho hx hs (fun y fl st i hfl hm hst hi => ?_) h
  obtain rfl := masked_0 fl hfl hm
  exact hk y st i hst hi

theorem at_of_decMat (ho : w / 2 ^ 25 = 0x72) (h : decMat w w2 = .ok i) : i.At w w2 := by
  unfold decMat at h
  dsimp only at h
  split at h
  case h_13 => cases h
  case h_10 =>
    refine at_of_dX ho ‹_› (by decide) (fun y fl st i hfl hm hst hi => ?_) h
    cases hi
    have := masked_1 fl hfl hm
    refine ⟨?_, rfl⟩
    simp only [encodeNat, toNat_fld, bnat_fbit]
    congr 1 <;> omega
  all_goals
    refine at_of_dX_zero ho ‹_› (by decide) (fun y st i hst hi => ?_) h
    cases hi
    refine ⟨?_, rfl⟩
    simp only [encodeNat, toNat_fld, bnat_fbit]
    congr 1
    omega

theorem at_of_decDda (ho : w / 2 ^ 25 = 0x74) (h : decDda w w2 = .ok i) : i.At w w2 := by
  unfold decDda at h
  split at h
  case h_12 => cases h
  all_goals
    refine at_of_dX_zero ho ‹_› (by decide) (fun y st i hst hi => ?_) h
    cases hi
    refine ⟨?_, rfl⟩
    simp only [encodeNat, toNat_fld, bnat_fbit]
    congr 1
    omega

theorem at_of_decCpy (ho : w / 2 ^ 25 = 0x73) (h : decCpy w w2 = .ok i) : i.At w w2 := by
  unfold decCpy at h
  split at h
  case h_8 => cases h
  case h_1 =>
    refine at_of_dX ho ‹_› (by decide) (fun y fl st i hfl hm hst hi => ?_) h
    simp only [Option.bind_eq_bind, Option.pure_def, Option.bind_eq_some_iff, Space.ofCode_eq_some, Option.some.injEq] at hi
    obtain ⟨sps, hsps, spd, hspd, rfl⟩ := hi
    have := masked_3 fl hfl hm
    refine ⟨?_, rfl⟩
    simp only [encodeNat, toNat_fld, bnat_fbit]
    congr 1 <;> omega
  case h_2 | h_3 =>
    refine at_of_dX ho ‹_› (by decide) (fun y fl st i hfl hm hst hi => ?_) h
    simp only [Option.bind_eq_bind, Option.pure_def, Option.bind_eq_some_iff, Space.ofCode_eq_some, Option.some.injEq] at hi
    obtain ⟨spm, hspm, rfl⟩ := hi
    have := masked_3 fl hfl hm
    refine ⟨?_, rfl⟩
    simp only [encodeNat, toNat_fld, bnat_fbit]
    congr 1 <;> omega
  case h_7 =>
    exact at_of_dX_zero ho ‹_› (by decide) (fun y st i hst hi => by cases hi; exact ⟨by simp only [encodeNat, toNat_fld]; congr 1; omega, rfl⟩) h
  all_goals
    refine at_of_dX ho ‹_› (by decide) (fun y fl st i hfl hm hst hi => ?_) h
    cases hi
    refine ⟨?_, rfl⟩
    simp only [encodeNat, toNat_fld, bnat_fbit]
  case h_4 => have := masked_4 fl hfl hm; congr 1 <;> omega
  case h_5 => have := masked_16 fl hfl hm; congr 1 <;> omega
  case h_6 => have := masked_8 fl hfl hm; congr 1 <;> omega

theorem at_of_decSeq (ho : 0x75 ≤ w / 2 ^ 25 ∧ w / 2 ^ 25 ≤ 0x76) (h : decSeq w w2 = .ok i) : i.At w w2 := by
  unfold decSeq at h
  split at h
  case h_17 => cases h
  case h_1 | h_4 =>
    refine at_of_dX (opc := 0x75) (by omega) ‹_› (by decide) (fun y fl st i hfl hm hst hi => ?_) h
    cases hi
    have := masked_1 fl hfl hm
    refine ⟨?_, rfl⟩
    simp only [encodeNat, bnat_fbit]
    congr 1 <;> omega
  case h_2 | h_3 | h_5 =>
    refine at_of_dX_zero (opc := 0x75) (by omega) ‹_› (by decide) (fun y st i hst hi => ?_) h
    cases hi
    refine ⟨?_, rfl⟩
    simp only [encodeNat, toNat_fld, bnat_fbit]
    congr 1
    omega
  case h_9 =>
    refine at_of_dX (opc := 0x76) (by omega) ‹_› (by decide) (fun y fl st i hfl hm hst hi => ?_) h
    cases hi
    have := masked_1 fl hfl hm
    refine ⟨?_, rfl⟩
    simp only [encodeNat, bnat_fbit]
    congr 1 <;> omega
  all_goals
    refine at_of_dX_zero (opc := 0x76) (by omega) ‹_› (by decide) (fun y st i hst hi => ?_) h
    cases hi
    refine ⟨?_, rfl⟩
    simp only [encodeNat, toNat_fld, bnat_fbit]
    congr 1
    omega

theorem at_of_decPod (ho : w / 2 ^ 25 = 0x77) (h : decPod w w2 = .ok i) : i.At w w2 := by
  unfold decPod at h
  split at h
  case h_9 => cases h
  case h_1 =>
    refine at_of_dX ho ‹_› (by decide) (fun y fl st i hfl hm hst hi => ?_) h
    simp only [Option.bind_eq_bind, Option.pure_def, Option.bind_eq_some_iff, Space.ofCode_eq_some, Option.some.injEq] at hi
    obtain ⟨sp, hsp, rfl⟩ := hi
    have := masked_1 fl hfl hm
    refine ⟨?_, rfl⟩
    simp only [encodeNat, bnat_fbit]
    congr 1 <;> omega
  case h_2 =>
    refine at_of_dX ho ‹_› (by decide) (fun y fl st i hfl hm hst hi => ?_) h
    simp only [Option.bind_eq_bind, Option.pure_def, Option.bind_eq_some_iff, Space.ofCode_eq_some, Option.some.injEq] at hi
    obtain ⟨sp, hsp, rfl⟩ := hi
    have := masked_3 fl hfl hm
    refine ⟨?_, rfl⟩
    simp only [encodeNat, bnat_fbit]
    congr 1 <;> omega
  case h_3 =>
    refine at_of_dX ho ‹_› (by decide) (fun y fl st i hfl hm hst hi => ?_) h
    cases hi
    have := masked_5 fl hfl hm
    refine ⟨?_, rfl⟩
    simp only [encodeNat, toNat_fld, bnat_fbit]
    congr 1 <;> omega
  all_goals
    refine at_of_dX_zero ho ‹_› (by decide) (fun y st i hst hi => ?_) h
    cases hi
    refine ⟨?_, rfl⟩
    simp only [encodeNat, toNat_fld]
    congr 1
    omega

/-! ## All opcodes -/

theorem at_of_decodeCore (h : decodeCore w w2 = .ok i) (hn : noneOk i w = true) : i.At w w2 := by
  unfold decodeCore at h
  split at h
  case h_1 ho => exact at_of_decBro ho h
  case h_3 =>
    split at h
    case h_4 => cases h
    all_goals exact at_of_dG ‹_› ‹_› (fun _ => ⟨rfl, rfl⟩) h
  case h_2 | h_4 =>
    split at h
    · exact at_of_dG ‹_› ‹_› (fun _ => ⟨rfl, rfl⟩) h
    · cases h
  case h_5 | h_6 | h_7 | h_8 | h_9 | h_10 | h_11 | h_12 => exact at_of_decInt ‹_› h
  case h_13 | h_14 | h_15 | h_16 | h_17 | h_18 | h_19 | h_20 => exact at_of_decImm ‹_› h
  case h_21 | h_22 =>
    cases h
    refine Instr.at_of_plain rfl rfl (.inl ?_)
    simp only [encodeNat, tgt2Of, code_targetOfCode, toNat_fld]
    congr 1
    omega
  case h_23 ho => exact at_of_decInt3 ho h
  case h_24 ho => exact at_of_decF32 ho h
  case h_25 ho =>
    split at h
    · next hx =>
      refine at_of_dXT (by decide) ho hx (by decide) (fun f st i hst hi => ?_) h
      cases hi
      refine ⟨?_, rfl⟩
      rw [encodeNat, show st = 0 by omega]
    · cases h
  case h_26 ho =>
    split at h
    · next hx =>
      refine at_of_dI ho hx (fun f i hr hi => ?_) h
      simp only [Option.bind_eq_bind, Option.pure_def, Option.bind_eq_some_iff, FTy.ofCode_eq_some, Option.some.injEq] at hi
      obtain ⟨s, hs, d, hd, rfl⟩ := hi
      refine ⟨?_, rfl⟩
      rw [beq_iff_eq] at hr
      rw [encodeNat]
      congr 1
      omega
    · cases h
  case h_27 | h_28 | h_29 | h_30 | h_31 => exact at_of_decFrame (by omega) h hn
  case h_32 | h_33 | h_34 | h_35 | h_36 | h_37 | h_38 | h_39 => exact at_of_dL ‹_› (fun _ => ⟨rfl, rfl⟩) h
  case h_40 ho => exact at_of_decStore ho h
  case h_41 ho => exact at_of_decFence ho h
  case h_42 ho => exact at_of_decAmo ho h
  case h_43 ho => exact at_of_decAmoR ho h
  case h_44 ho => exact at_of_decCas ho h
  case h_45 | h_46 | h_47 | h_48 => exact at_of_decSys (by omega) h hn
  case h_49 ho => exact at_of_decVec1 ho h
  case h_50 ho => exact at_of_decVec2 ho h
  case h_51 ho => exact at_of_decMat ho h
  case h_52 ho => exact at_of_decCpy ho h
  case h_53 ho => exact at_of_decDda ho h
  case h_54 | h_55 => exact at_of_decSeq (by omega) h
  case h_56 ho => exact at_of_decPod ho h
  case h_57 => cases h

theorem decode_eq_ok : decode w w2 = .ok i ↔ decodeCore w w2 = .ok i ∧ noneOk i w = true := by
  simp only [decode, bind_eq_ok_iff, chk_eq_ok, Except.ok.injEq]
  constructor
  · rintro ⟨j, h, _, hn, rfl⟩
    exact ⟨h, hn⟩
  · rintro ⟨h, hn⟩
    exact ⟨i, h, (), hn, rfl⟩

end

end Sys2Proof

namespace Sys2Proof.Safety

/-- Settles O3: by the formats of Table 3.4, group by group of the opcode table, an answer of the decoder has the words it was read from. -/
theorem decodeThenEncode : Obligations.DecodeThenEncode := by
  intro ws i h
  cases ws with
  | nil => cases h
  | cons u rest =>
    obtain ⟨hc, hn⟩ := decode_eq_ok.mp h
    obtain ⟨hwf, hw⟩ := at_of_decodeCore hc hn
    refine ⟨hwf, ?_⟩
    obtain he | ⟨st, h2, _, he⟩ := hw
    · simp [encode, he]
    · obtain ⟨v, hv, rfl⟩ := Option.map_eq_some_iff.mp h2
      obtain ⟨tail, rfl⟩ := List.head?_eq_some_iff.mp hv
      simp [encode, he]

end Sys2Proof.Safety
end

section
/-! PROOFS. A well-formed instruction decodes from its words: its opcode and selector name the row, and the row's format reads its fields back. -/

namespace Sys2Proof

section
variable {i : Instr} {w : Nat} {w2 : Option Nat} {opc x : Nat}

/-! ## Opcode and selector of an instruction's first word -/

theorem Instr.Words.wordG (hw : i.Words w w2) {p a b : Nat} (he : encodeNat i = [wordG opc p x a b]) (hp : p < 3) (hx : x < 32) (ha : a < 512)
    (hb : b < 512) : w / 2 ^ 25 = opc ∧ w / 2 ^ 23 % 4 = p ∧ w / 2 ^ 18 % 32 = x ∧ w / 2 ^ 9 % 512 = a ∧ w % 512 = b :=
  (eq_wordG_iff (by omega) hx ha hb).mp (hw.one he).symm
theorem Instr.Words.encG (hw : i.Words w w2) {g : GF} (he : encodeNat i = encG opc x g) (hx : x < 32) :
    w / 2 ^ 25 = opc ∧ w / 2 ^ 18 % 32 = x ∧ encG opc x g = [w] := by
  have h := hw.wordG he g.pred.code_lt hx g.t1.code_lt g.t2.code_lt
  exact ⟨h.1, h.2.2.1, by rw [Sys2Proof.encG, hw.one he]⟩
theorem Instr.Words.encI (hw : i.Words w w2) {f : TF} {imm : Nat} (he : encodeNat i = encI opc x imm f) (hx : x < 32) (hi : imm < 512) :
    w / 2 ^ 25 = opc ∧ w / 2 ^ 18 % 32 = x ∧ w / 2 ^ 9 % 512 = imm ∧ encI opc x (w / 2 ^ 9 % 512) f = [w] := by
  have h := hw.wordG he f.pred.code_lt hx hi f.tgt.code_lt
  exact ⟨h.1, h.2.2.1, h.2.2.2.1, by rw [h.2.2.2.1, Sys2Proof.encI, hw.one he]⟩
theorem Instr.Words.encX (hw : i.Words w w2) {p n d fl st : Nat} (he : encodeNat i = encX opc p x n d fl st) (hp : p < 3) (hx : x < 32) (hn : n < 4)
    (hd : d < 512) (hfl : fl < 128) : w / 2 ^ 25 = opc ∧ w / 2 ^ 18 % 32 = x ∧ w2 = some st ∧ encX opc p x n d fl st = [w, st] := by
  obtain ⟨h1, h2, _⟩ := hw.two he
  have h := (eq_encX_iff (w := w) (p := p) (st := st) (opc := opc) (st' := st) (by omega) hx hn hd hfl).mp (by rw [Sys2Proof.encX, h1])
  exact ⟨h.1, h.2.2.1, h2, by rw [Sys2Proof.encX, h1]⟩
theorem Instr.Words.command (hw : i.Words w w2) {y : XF} {fl st : Nat} (he : encodeNat i = encC opc x i.nops y fl st) (hx : x < 32) (hfl : fl < 128) :
    w / 2 ^ 25 = opc ∧ w / 2 ^ 18 % 32 = x :=
  have h := hw.encX he y.pred.code_lt hx i.nops_lt (destCode_lt _) hfl
  ⟨h.1, h.2.1⟩

/-- A command reads back from its flags and its static word. -/
theorem dX_of_words (hwf : i.wf = true) (hw : i.Words w w2) {y : XF} {fl st fmask sbits : Nat} (he : encodeNat i = encC opc x i.nops y fl st)
    (hd : i.destSlot = some y.dest) (hx : x < 32) (hfl : fl < 128) {k : XF → Nat → Nat → Option Instr} (hm : fl &&& (127 - fmask) = 0)
    (hst : st < 2 ^ sbits) (hk : k y fl st = some i) : dX w w2 fmask sbits k = .ok i := by
  obtain ⟨ho, hs, h2, hl⟩ := hw.encX he y.pred.code_lt hx i.nops_lt (destCode_lt _) hfl
  exact (dX_eq_ok ho hs).mpr ⟨y, fl, st, h2, hfl, hm, Nat.div_eq_of_lt hst, hk, Instr.resOk_of_wf hwf, Instr.dest_of_wf hwf hd,
    Instr.fieldOk_of_wf hwf, hl⟩

theorem Instr.Words.encL (hw : i.Words w w2) {f : LF} (he : encodeNat i = encL opc f) : w / 2 ^ 25 = opc ∧ encL opc f = [w] := by
  have := f.space.code_lt
  have h := hw.wordG he f.pred.code_lt f.lsid.isLt (by omega) f.tgt.code_lt
  exact ⟨h.1, by rw [Sys2Proof.encL, hw.one he]⟩
theorem Instr.Words.encS (hw : i.Words w w2) {f : SF} (he : encodeNat i = encS x f) (hx : x < 16) :
    w / 2 ^ 25 = 0x58 ∧ w % 16 = x ∧ encS x f = [w] := by
  have := f.space.code_lt
  have h := hw.wordG he f.pred.code_lt f.lsid.isLt f.off.isLt (by omega)
  exact ⟨h.1, by omega, by rw [Sys2Proof.encS, hw.one he]⟩
theorem Instr.Words.encA (hw : i.Words w w2) {f : AF} (he : encodeNat i = encA x f) (hx : x < 16) :
    w / 2 ^ 25 = 0x60 ∧ w % 16 = x ∧ encA x f = [w] := by
  have := f.space.code_lt
  have := f.scope.code_lt
  have := bnat_lt f.w32
  have := bnat_lt f.nat
  have h := hw.wordG he f.pred.code_lt f.lsid.isLt (by omega) (by omega)
  exact ⟨h.1, by omega, by rw [Sys2Proof.encA, hw.one he]⟩
theorem Instr.Words.encR (hw : i.Words w w2) {f : RF} (he : encodeNat i = encR x f) (hx : x < 16) :
    w / 2 ^ 25 = 0x61 ∧ w % 16 = x ∧ encR x f = [w] := by
  have := f.space.code_lt
  have := f.scope.code_lt
  have := bnat_lt f.w32
  have := bnat_lt f.nat
  have := bnat_lt f.relaxed
  have h := hw.wordG he f.pred.code_lt f.lsid.isLt (by omega) (by omega)
  exact ⟨h.1, by omega, by rw [Sys2Proof.encR, hw.one he]⟩

/-! ## Vector commands -/

theorem VF.flags_lt (v : VF) : v.flags < 8 := by
  have := bnat_lt v.sat
  have := bnat_lt v.opt
  have := bnat_lt v.msk
  simp only [VF.flags]
  omega
theorem VF.static_lt (v : VF) : v.static < 2 ^ 32 := by
  have := bnat_lt v.gd
  have := bnat_lt v.gb
  have := bnat_lt v.ga
  simp only [VF.static]
  omega
theorem masked_of_lt : ∀ fl < 8, fl &&& (127 - 7) = 0 := by decide
theorem VF.ofNat_flags_static (v : VF) : VF.ofNat v.flags v.static = v := by
  obtain ⟨sat, opt, msk, cmd, gd, gb, ga, cd, wd, cb, wb, ca, wa⟩ := v
  have := bnat_lt sat
  have := bnat_lt opt
  have := bnat_lt msk
  have := bnat_lt gd
  have := bnat_lt gb
  have := bnat_lt ga
  simp only [VF.ofNat, VF.flags, VF.static, VF.mk.injEq, fld_eq, fbit_eq]
  refine ⟨?_, ?_, ?_, ?_, ?_, ?_, ?_, ?_, ?_, ?_, ?_, ?_, ?_⟩ <;> omega
theorem dV_of_words (hwf : i.wf = true) (hw : i.Words w w2) {y : XF} {v : VF} {k : XF → VF → Instr} (hk : k y v = i)
    (he : encodeNat i = encV opc x i.nops y v) (hd : i.destSlot = some y.dest) (hx : x < 32) : dV w w2 k = .ok i :=
  dX_of_words hwf hw he hd hx (Nat.lt_of_lt_of_le v.flags_lt (by decide)) (masked_of_lt _ v.flags_lt) v.static_lt
    (by rw [VF.ofNat_flags_static, hk])

/-! ## Rows of the opcode table -/


theorem decodeCore_int {t : ITy} (h : w / 2 ^ 25 = 0x10 + t.code) : decodeCore w w2 = decInt t w := by
  rcases t with y | y <;> cases y <;> simp only [decodeCore, h, ITy.code, IWidth.code]
theorem decodeCore_imm {t : ITy} (h : w / 2 ^ 25 = 0x18 + t.code) : decodeCore w w2 = decImm t w := by
  rcases t with y | y <;> cases y <;> simp only [decodeCore, h, ITy.code, IWidth.code]
theorem decodeCore_int_n {y : IWidth} (h : w / 2 ^ 25 = 0x14 + y.code) : decodeCore w w2 = decInt (.n y) w :=
  decodeCore_int (by rw [h, ITy.code, ← Nat.add_assoc])
theorem decodeCore_imm_n {y : IWidth} (h : w / 2 ^ 25 = 0x1C + y.code) : decodeCore w w2 = decImm (.n y) w :=
  decodeCore_imm (by rw [h, ITy.code, ← Nat.add_assoc])
theorem decodeCore_f32 (h : w / 2 ^ 25 = 0x30) : decodeCore w w2 = decF32 w := by simp only [decodeCore, h]
theorem decodeCore_frame (h : w / 2 ^ 25 = opc) (ho : opc ∈ [0x40, 0x41, 0x42, 0x43, 0x44]) : decodeCore w w2 = decFrame w w2 := by
  simp only [List.mem_cons, List.not_mem_nil, or_false] at ho
  rcases ho with rfl | rfl | rfl | rfl | rfl <;> simp only [decodeCore, h]
theorem decodeCore_store (h : w / 2 ^ 25 = 0x58) : decodeCore w w2 = decStore w := by simp only [decodeCore, h]
theorem decodeCore_amo (h : w / 2 ^ 25 = 0x60) : decodeCore w w2 = decAmo w := by simp only [decodeCore, h]
theorem decodeCore_amoR (h : w / 2 ^ 25 = 0x61) : decodeCore w w2 = decAmoR w := by simp only [decodeCore, h]
theorem decodeCore_sys (h : w / 2 ^ 25 = opc) (ho : opc ∈ [0x68, 0x69, 0x6A, 0x6B]) : decodeCore w w2 = decSys w := by
  simp only [List.mem_cons, List.not_mem_nil, or_false] at ho
  rcases ho with rfl | rfl | rfl | rfl <;> simp only [decodeCore, h]
theorem decodeCore_vec1 (h : w / 2 ^ 25 = 0x70) : decodeCore w w2 = decVec1 w w2 := by simp only [decodeCore, h]
theorem decodeCore_vec2 (h : w / 2 ^ 25 = 0x71) : decodeCore w w2 = decVec2 w w2 := by simp only [decodeCore, h]
theorem decodeCore_mat (h : w / 2 ^ 25 = 0x72) : decodeCore w w2 = decMat w w2 := by simp only [decodeCore, h]
theorem decodeCore_cpy (h : w / 2 ^ 25 = 0x73) : decodeCore w w2 = decCpy w w2 := by simp only [decodeCore, h]
theorem decodeCore_dda (h : w / 2 ^ 25 = 0x74) : decodeCore w w2 = decDda w w2 := by simp only [decodeCore, h]
theorem decodeCore_seq (h : w / 2 ^ 25 = opc) (ho : opc ∈ [0x75, 0x76]) : decodeCore w w2 = decSeq w w2 := by
  simp only [List.mem_cons, List.not_mem_nil, or_false] at ho
  rcases ho with rfl | rfl <;> simp only [decodeCore, h]
theorem decodeCore_pod (h : w / 2 ^ 25 = 0x77) : decodeCore w w2 = decPod w w2 := by simp only [decodeCore, h]

/-! ## Each instruction from its words -/

/-- Instructions that produce a value. -/
theorem decodeCore_of_val (h : i.At w w2) (hv : i.shape.val = true) : decodeCore w w2 = .ok i := by
  obtain ⟨hwf, hw⟩ := h
  have hf := Instr.fieldOk_of_wf hwf
  cases i
  case null g | testX g =>
    obtain ⟨ho, hx, he⟩ := hw.encG rfl (by decide)
    simp only [decodeCore, ho, hx, if_true]
    exact (dG_eq_ok ho hx).mpr ⟨g, rfl, hf, he⟩
  case pand g | por g | pnot g =>
    obtain ⟨ho, hx, he⟩ := hw.encG rfl (by decide)
    simp only [decodeCore, ho, hx]
    exact (dG_eq_ok ho hx).mpr ⟨g, rfl, hf, he⟩
  case add t g | sub t g | mul t g | and t g | or t g | xor t g | andn t g | orn t g | shl t g | shr t g | sar t g | rot t g | teq t g | tne t g |
      neg t g | abs t g | clz t g | ctz t g | popc t g | bswap t g | mkx t g | clrx t g =>
    obtain ⟨ho, hx, he⟩ := hw.encG rfl (by decide)
    simp only [decodeCore_int ho, decInt, hx]
    exact (dG_eq_ok ho hx).mpr ⟨g, rfl, hf, he⟩
  case mulh y g | div y g | rem y g | min y g | max y g | tlt y g | tle y g =>
    obtain ⟨ho, hx, he⟩ := hw.encG rfl (by decide)
    simp only [decodeCore_int (t := .s y) ho, decInt, hx]
    exact (dG_eq_ok ho hx).mpr ⟨g, rfl, hf, he⟩
  case mulhn y g | divn y g | remn y g | minn y g | maxn y g | tltn y g | tlen y g =>
    obtain ⟨ho, hx, he⟩ := hw.encG rfl (by decide)
    simp only [decodeCore_int_n ho, decInt, hx]
    exact (dG_eq_ok ho hx).mpr ⟨g, rfl, hf, he⟩
  case mov t p d =>
    obtain ⟨ho, hx, he⟩ := hw.encG (g := ⟨p, d, .none⟩) rfl (by decide)
    simp only [decodeCore_int ho, decInt, hx]
    exact (dG_eq_ok ho hx).mpr ⟨⟨p, d, .none⟩, if_pos rfl, hf, he⟩
  case mov2 t g =>
    obtain ⟨ho, hx, he⟩ := hw.encG rfl (by decide)
    simp only [decodeCore_int ho, decInt, hx]
    simp only [Instr.wf, Bool.and_eq_true, bne_iff_ne] at hwf
    exact (dG_eq_ok ho hx).mpr ⟨g, if_neg hwf.2, hf, he⟩
  case addi t f k | teqi t f k | tnei t f k | sext t f k | zext t f k =>
    obtain ⟨ho, hx, hi, he⟩ := hw.encI rfl (by decide) k.isLt
    simp only [decodeCore_imm ho, decImm, hx]
    exact (dI_eq_ok ho hx).mpr ⟨rfl, f, congrArg (some ∘ _) (fld_eq.mpr hi), hf, he⟩
  case tlti y f k | tlei y f k =>
    obtain ⟨ho, hx, hi, he⟩ := hw.encI rfl (by decide) k.isLt
    simp only [decodeCore_imm (t := .s y) ho, decImm, hx]
    exact (dI_eq_ok ho hx).mpr ⟨rfl, f, congrArg (some ∘ _) (fld_eq.mpr hi), hf, he⟩
  case tltni y f k | tleni y f k =>
    obtain ⟨ho, hx, hi, he⟩ := hw.encI rfl (by decide) k.isLt
    simp only [decodeCore_imm_n ho, decImm, hx]
    exact (dI_eq_ok ho hx).mpr ⟨rfl, f, congrArg (some ∘ _) (fld_eq.mpr hi), hf, he⟩
  case genc k t =>
    have h := hw.one rfl
    have := t.code_lt
    have ho : w / 2 ^ 25 = 0x20 := by omega
    simp only [decodeCore, ho, fld_eq.mpr (show w / 2 ^ 9 % 2 ^ 16 = k.toNat by omega), tgt2Of, Target.ofCode_eq.mpr (show w % 512 % 512 = t.code by omega)]
  case appc k t =>
    have h := hw.one rfl
    have := t.code_lt
    have ho : w / 2 ^ 25 = 0x21 := by omega
    simp only [decodeCore, ho, fld_eq.mpr (show w / 2 ^ 9 % 2 ^ 16 = k.toNat by omega), tgt2Of, Target.ofCode_eq.mpr (show w % 512 % 512 = t.code by omega)]
  case madd f t | sel f t =>
    have ht := t.code_lt
    obtain ⟨ho, hx, h2, hl⟩ := hw.encX rfl f.pred.code_lt (by decide) (by decide) f.tgt.code_lt (by decide)
    simp only [decodeCore, ho, decInt3, hx]
    refine (dXT_eq_ok (by decide) ho hx).mpr ⟨f, _, h2, by omega, ?_, hf, hl⟩
    rw [if_pos (by omega), ITy.ofCode_eq.mpr (Nat.mod_eq_of_lt ht)]
  case bfx f t pos len1 | bfi f t pos len1 =>
    have ht := t.code_lt
    obtain ⟨ho, hx, h2, hl⟩ := hw.encX rfl f.pred.code_lt (by decide) (by decide) f.tgt.code_lt (by decide)
    simp only [decodeCore, ho, decInt3, hx]
    refine (dXT_eq_ok (by decide) ho hx).mpr ⟨f, _, h2, by omega, ?_, hf, hl⟩
    rw [(ITy.ofCode_eq (t := t)).mpr (by omega), (fld_eq (x := pos)).mpr (by omega), (fld_eq (x := len1)).mpr (by omega)]
  case fadd g | fsub g | fmul g | fdiv g | fmin g | fmax g | feq g | flt g | fle g | fsqrt g | fabs g | fneg g | fexp2 g | flog2 g | frcp g | frsq g =>
    obtain ⟨ho, hx, he⟩ := hw.encG rfl (by decide)
    simp only [decodeCore_f32 ho, decF32, hx]
    exact (dG_eq_ok ho hx).mpr ⟨g, rfl, hf, he⟩
  case fma f =>
    obtain ⟨ho, hx, h2, hl⟩ := hw.encX rfl f.pred.code_lt (by decide) (by decide) f.tgt.code_lt (by decide)
    simp only [decodeCore, ho, hx, if_true]
    exact (dXT_eq_ok (by decide) ho hx).mpr ⟨f, 0, h2, by decide, rfl, hf, hl⟩
  case fcvt f s d =>
    have := s.code_lt
    have := d.code_lt
    obtain ⟨ho, hx, hi, he⟩ := hw.encI rfl (by decide) (by omega)
    simp only [decodeCore, ho, hx, if_true]
    refine (dI_eq_ok ho hx).mpr ⟨by rw [beq_iff_eq]; omega, f, ?_, hf, he⟩
    rw [(FTy.ofCode_eq_some (t := s)).mpr (by omega), (FTy.ofCode_eq_some (t := d)).mpr (by omega)]
    rfl
  case falloc sc g =>
    obtain ⟨ho, hx, he⟩ := hw.encG rfl (Nat.lt_trans sc.code_lt (by decide))
    cases sc
    case pod => exact nomatch hf
    all_goals
      simp only [decodeCore_frame ho (by decide), decFrame, ho, hx, Scope.code]
      exact (dG_eq_ok ho hx).mpr ⟨g, rfl, hf, he⟩
  case self g | taskid g | fstat g | ldfx g | stfx g =>
    obtain ⟨ho, hx, he⟩ := hw.encG rfl (by decide)
    simp only [decodeCore_frame ho (by decide), decFrame, ho, hx]
    exact (dG_eq_ok ho hx).mpr ⟨g, rfl, hf, he⟩
  case ldB f | ldH f | ldW f | ldD f | ldw f | ldt f | ldrc f | feTest f =>
    obtain ⟨ho, he⟩ := hw.encL rfl
    simp only [decodeCore, ho]
    exact (dL_eq_ok ho).mpr ⟨f, rfl, hf, he⟩
  case tick g =>
    obtain ⟨ho, hx, he⟩ := hw.encG rfl (by decide)
    simp only [decodeCore_sys ho (by decide), decSys, ho, hx]
    exact (dG_eq_ok ho hx).mpr ⟨g, rfl, hf, he⟩
  case sysRd f r | perfRd f r =>
    obtain ⟨ho, hx, hi, he⟩ := hw.encI rfl (by decide) r.isLt
    simp only [decodeCore_sys ho (by decide), decSys, ho, hx]
    exact (dI_eq_ok ho hx).mpr ⟨rfl, f, congrArg (some ∘ _) (fld_eq.mpr hi), hf, he⟩
  all_goals exact nomatch hv

/-- Exits, sends, stores and what else neither produces a value nor is a command. -/
theorem decodeCore_of_effect (h : i.At w w2) (hv : i.shape.val = false) (hd : i.destSlot = none) : decodeCore w w2 = .ok i := by
  obtain ⟨hwf, hw⟩ := h
  have hf := Instr.fieldOk_of_wf hwf
  cases i
  case broEnd p | broKeep p | broRearm p =>
    obtain ⟨ho, hp, hx, ha, hb⟩ := hw.wordG rfl p.code_lt (by decide) (by decide) (by decide)
    have h20 : w / 2 ^ 20 % 8 = w / 2 ^ 18 % 32 / 4 := by omega
    simp only [decodeCore, ho, decBro, h20, hx]
    exact dP_eq_ok.mpr ⟨by rw [beq_iff_eq]; omega, p, hp, rfl, hf⟩
  case broCont p t =>
    have h := hw.one rfl
    have := p.code_lt
    simp only [wordG] at h
    have ho : w / 2 ^ 25 = 1 := by omega
    have hx : w / 2 ^ 20 % 8 = 3 := by omega
    simp only [decodeCore, ho, decBro, hx]
    refine dP_eq_ok.mpr ⟨by rw [beq_iff_eq]; omega, p, by omega, congrArg _ (fld_eq.mpr (by omega)), rfl⟩
  case ffree p =>
    obtain ⟨ho, hp, hx, _⟩ := hw.wordG rfl p.code_lt (by decide) (by decide) (by decide)
    simp only [decodeCore_frame ho (by decide), decFrame, ho, hx]
    exact dP_eq_ok.mpr ⟨rfl, p, hp, rfl, hf⟩
  case send p sl | sendx p sl =>
    obtain ⟨ho, hp, hx, ha, _⟩ := hw.wordG rfl p.code_lt (by decide) (by omega) (by decide)
    simp only [decodeCore_frame ho (by decide), decFrame, ho, hx]
    exact dP_eq_ok.mpr ⟨by rw [beq_iff_eq]; omega, p, hp, congrArg _ (fld_eq.mpr (by omega)), hf⟩
  case sendi p =>
    obtain ⟨ho, hx, h2, hl⟩ := hw.encX rfl p.code_lt (by decide) (by decide) (by decide) (by decide)
    simp only [decodeCore_frame ho (by decide), decFrame, ho, hx]
    exact (dXT_eq_ok (by decide) ho hx).mpr ⟨⟨p, .none⟩, 0, h2, by decide, rfl, hf, hl⟩
  case stB f | stH f | stW f | stD f | stf f | feSet f | feClr f | pref f =>
    obtain ⟨ho, hs, he⟩ := hw.encS rfl (by decide)
    simp only [decodeCore_store ho, decStore, hs]
    exact (dS_eq_ok ho hs).mpr ⟨rfl, f, rfl, hf, he⟩
  case ste p l sp sl =>
    have hoff : (sl.setWidth 9).toNat = sl.toNat := by rw [BitVec.toNat_setWidth]; omega
    obtain ⟨ho, hp, hx, ha, hb⟩ := hw.wordG rfl p.code_lt l.isLt (by omega) (by have := sp.code_lt; omega)
    have hs : w % 16 = 5 := by omega
    have he : encS 5 ⟨p, l, sp, sl.setWidth 9⟩ = [w] := by rw [encS, hoff, ← hw.one rfl]
    simp only [decodeCore_store ho, decStore, hs]
    refine (dS_eq_ok ho hs).mpr ⟨by rw [beq_iff_eq]; omega, _, ?_, hf, he⟩
    rw [(fld_eq (x := sl)).mpr (by omega)]
  case clean p l | inval p l =>
    obtain ⟨ho, hs, he⟩ := hw.encS (f := ⟨p, l, .global, 0⟩) rfl (by decide)
    have h := hw.one rfl
    have := p.code_lt
    rw [eq_comm, eq_wordG_iff (by omega) (by omega) (by omega) (by omega)] at h
    simp only [decodeCore_store ho, decStore, hs]
    exact (dS_eq_ok ho hs).mpr ⟨by rw [beq_iff_eq]; omega, _, if_pos rfl, hf, he⟩
  case fence p l sc =>
    have := sc.code_lt
    obtain ⟨ho, hp, hx, ha, hb⟩ := hw.wordG rfl p.code_lt (by omega) (by decide) (by omega)
    have hs : w % 16 = 0 := by omega
    simp only [decodeCore, ho, decFence, hs, if_true, bind_eq_ok_iff, dPred_eq_ok, chk_eq_ok, opt_eq_ok, Scope.ofCode_eq_some, beq_iff_eq]
    exact ⟨p, hp, (), ha, (), by omega, sc, by omega, by rw [fld_eq.mpr hx]⟩
  case amoAdd f | amoMin f | amoMax f | amoAnd f | amoOr f | amoXor f | amoSwap f | amoFadd f | amoIncw f =>
    obtain ⟨ho, hs, he⟩ := hw.encA rfl (by decide)
    simp only [decodeCore_amo ho, decAmo, hs]
    exact (dA_eq_ok ho hs).mpr ⟨f, rfl, hf, he⟩
  case amoAddReduce f | amoMinReduce f | amoMaxReduce f | amoAndReduce f | amoOrReduce f | amoXorReduce f | amoSwapReduce f | amoFaddReduce f |
      amoIncwReduce f =>
    obtain ⟨ho, hs, he⟩ := hw.encR rfl (by decide)
    simp only [decodeCore_amoR ho, decAmoR, hs]
    exact (dR_eq_ok ho hs).mpr ⟨f, rfl, hf, he⟩
  case barArrive p sc id | barWait p sc id | barCfg p sc id =>
    have := sc.code_lt
    obtain ⟨ho, hx, hi, he⟩ := hw.encI (f := ⟨p, .none⟩) rfl (by decide) (by omega)
    simp only [decodeCore_sys ho (by decide), decSys, ho, hx]
    exact (dI_eq_ok ho hx).mpr ⟨rfl, ⟨p, .none⟩, Option.map_eq_some_iff.mpr ⟨sc, Scope.ofCode_eq_some.mpr (by omega),
      congrArg _ (fld_eq.mpr (by omega))⟩, hf, he⟩
  case waittick p | trap p | brk p | halt p =>
    obtain ⟨ho, hp, hx, _⟩ := hw.wordG rfl p.code_lt (by decide) (by decide) (by decide)
    simp only [decodeCore_sys ho (by decide), decSys, ho, hx]
    exact dP_eq_ok.mpr ⟨rfl, p, hp, rfl, hf⟩
  case sysWr p r =>
    obtain ⟨ho, hx, hi, he⟩ := hw.encI (f := ⟨p, .none⟩) rfl (by decide) r.isLt
    simp only [decodeCore_sys ho (by decide), decSys, ho, hx]
    exact (dI_eq_ok ho hx).mpr ⟨rfl, ⟨p, .none⟩, congrArg (some ∘ _) (fld_eq.mpr hi), hf, he⟩
  case tlbInv p sc =>
    have := sc.code_lt
    obtain ⟨ho, hx, hi, he⟩ := hw.encI (f := ⟨p, .none⟩) rfl (by decide) (by omega)
    simp only [decodeCore_sys ho (by decide), decSys, ho, hx]
    exact (dI_eq_ok ho hx).mpr ⟨by rw [beq_iff_eq]; omega, ⟨p, .none⟩, Option.map_eq_some_iff.mpr ⟨sc, Scope.ofCode_eq_some.mpr (by omega), rfl⟩, hf, he⟩
  case gangSync p =>
    obtain ⟨ho, hx, hi, he⟩ := hw.encI (f := ⟨p, .none⟩) rfl (by decide) (by decide)
    simp only [decodeCore_sys ho (by decide), decSys, ho, hx]
    exact (dI_eq_ok ho hx).mpr ⟨by rw [beq_iff_eq]; exact hi, ⟨p, .none⟩, rfl, hf, he⟩
  all_goals first | exact absurd hw.coded (by decide) | exact absurd hd (Option.some_ne_none _) | exact Bool.noConfusion hv

/-- One flag, and two flags, of a command. -/
theorem flags_one (a : Bool) : bnat a < 128 ∧ bnat a &&& (127 - 1) = 0 ∧ fbit (bnat a) 0 = a := by cases a <;> decide
theorem flags_two (a b : Bool) : bnat a + 2 * bnat b < 128 ∧ bnat a + 2 * bnat b &&& (127 - 3) = 0 ∧
    fbit (bnat a + 2 * bnat b) 0 = a ∧ fbit (bnat a + 2 * bnat b) 1 = b := by cases a <;> cases b <;> decide

/-- Commands. -/
theorem decodeCore_of_command (h : i.At w w2) (hd : i.destSlot ≠ none) : decodeCore w w2 = .ok i := by
  obtain ⟨hwf, hw⟩ := h
  cases i
  case amoCas y l sp sc w32 =>
    have := sp.code_lt
    have := sc.code_lt
    have := bnat_lt w32
    have := y.pred.code_lt
    obtain ⟨ho, hx, h2, hl⟩ := hw.encX rfl y.pred.code_lt (by decide) (by decide) (destCode_lt _) (by decide)
    obtain ⟨_, hp, _, hno, hd, hfl, _⟩ := (eq_encX_iff (by omega) (by decide) (by decide) (destCode_lt _) (by decide)).mp hl
    obtain ⟨hok, hdest⟩ := destCode_eq_iff.mp hd
    simp only [decodeCore, ho, decCas, hx, if_true, bind_eq_ok_iff, dPred_eq_ok, chk_eq_ok, opt_eq_ok, Scope.ofCode_eq_some, Space.ofCode_eq_some,
      Bool.and_eq_true, beq_iff_eq]
    refine ⟨_, h2, y.pred, hp, (), ⟨⟨hok, hfl⟩, by omega⟩, (), hno, sp, by omega, sc, by omega, ?_⟩
    rw [hdest, (fld_eq (x := l)).mpr (by omega), (fbit_eq (b := w32)).mpr (by omega)]
  case vadd y v | vsub y v | vmul y v | vfma y v | vmin y v | vmax y v | vabs y v | vneg y v | vand y v | vor y v | vxor y v | vshl y v | vshr y v |
      vcmp y v | vselect y v | vexp2 y v | vlog2 y v | vrcp y v | vrsq y v | vcvt y v =>
    obtain ⟨ho, hx⟩ := hw.command (fl := v.flags) rfl (by decide) (Nat.lt_trans v.flags_lt (by decide))
    simp only [decodeCore_vec1 ho, decVec1, hx]
    exact dV_of_words hwf hw rfl rfl rfl (by decide)
  case vred y v | vscan y v | vtopk y v | vcompact y v | vexpand y v | vgather y v | vscatter y v | vfill y v | vcopy y v | vrand y v | vamaxh y v |
      unpackT5 y v | vplane y v =>
    obtain ⟨ho, hx⟩ := hw.command (fl := v.flags) rfl (by decide) (Nat.lt_trans v.flags_lt (by decide))
    simp only [decodeCore_vec2 ho, decVec2, hx]
    exact dV_of_words hwf hw rfl rfl rfl (by decide)
  case ppSet y k | sclSet y k | accRel y k | accClr y k | accLoad y k | accStat y k =>
    obtain ⟨ho, hx⟩ := hw.command rfl (by decide) (by decide)
    simp only [decodeCore_mat ho, decMat, hx]
    exact dX_of_words hwf hw rfl rfl (by decide) (by decide) (by decide) (by omega) (congrArg (some ∘ _) (fld_eq.mpr (by omega)))
  case lbdCfg y =>
    obtain ⟨ho, hx⟩ := hw.command rfl (by decide) (by decide)
    simp only [decodeCore_mat ho, decMat, hx]
    exact dX_of_words hwf hw rfl rfl (by decide) (by decide) (by decide) (by decide) rfl
  case sclDerive y sc ent tgt m =>
    obtain ⟨ho, hx⟩ := hw.command rfl (by decide) (by decide)
    simp only [decodeCore_mat ho, decMat, hx]
    refine dX_of_words hwf hw rfl rfl (by decide) (by decide) (by decide) (by omega) ?_
    congr 2 <;> rw [fld_eq] <;> omega
  case accArm y nd o wd so sa sb =>
    obtain ⟨ho, hx⟩ := hw.command rfl (by decide) (by decide)
    simp only [decodeCore_mat ho, decMat, hx]
    refine dX_of_words hwf hw rfl rfl (by decide) (by decide) (by decide) (by omega) ?_
    congr 2 <;> rw [fld_eq] <;> omega
  case mmp y pp nd ga gb ns | mmpE y pp nd ga gb ns =>
    have := bnat_lt ga
    have := bnat_lt gb
    obtain ⟨ho, hx⟩ := hw.command rfl (by decide) (by decide)
    simp only [decodeCore_mat ho, decMat, hx]
    refine dX_of_words hwf hw rfl rfl (by decide) (by decide) (by decide) (by omega) ?_
    congr 2 <;> simp only [fld_eq, fbit_eq] <;> omega
  case accSave y nd clr =>
    have hfl := flags_one clr
    obtain ⟨ho, hx⟩ := hw.command rfl (by decide) hfl.1
    simp only [decodeCore_mat ho, decMat, hx]
    refine dX_of_words hwf hw rfl rfl (by decide) hfl.1 hfl.2.1 nd.isLt ?_
    rw [hfl.2.2, (fld_eq (x := nd)).mpr (by omega)]
  case cpyStream y sync full k sps spd esz =>
    have := sps.code_lt
    have := spd.code_lt
    have hfl := flags_two sync full
    obtain ⟨ho, hx⟩ := hw.command rfl (by decide) hfl.1
    simp only [decodeCore_cpy ho, decCpy, hx]
    refine dX_of_words hwf hw rfl rfl (by decide) hfl.1 hfl.2.1 (by omega) ?_
    rw [Space.ofCode_eq_some.mpr (show _ = sps.code by omega), Space.ofCode_eq_some.mpr (show _ = spd.code by omega), hfl.2.2.1, hfl.2.2.2]
    refine congrArg some ?_
    congr 1 <;> rw [fld_eq] <;> omega
  case cpyPlanes y sync full k spm dir mat ws wd low code g e =>
    have := spm.code_lt
    have := bnat_lt dir
    have := bnat_lt mat
    have := bnat_lt g
    have := bnat_lt e
    have hfl := flags_two sync full
    obtain ⟨ho, hx⟩ := hw.command rfl (by decide) hfl.1
    simp only [decodeCore_cpy ho, decCpy, hx]
    refine dX_of_words hwf hw rfl rfl (by decide) hfl.1 hfl.2.1 (by omega) ?_
    rw [Space.ofCode_eq_some.mpr (show _ = spm.code by omega), hfl.2.2.1, hfl.2.2.2]
    refine congrArg some ?_
    congr 1 <;> simp only [fld_eq, fbit_eq] <;> omega
  case cpyConv y sync full k spm dir fmt wd code g sat lay =>
    have := spm.code_lt
    have := bnat_lt dir
    have := bnat_lt g
    have := bnat_lt sat
    have hfl := flags_two sync full
    obtain ⟨ho, hx⟩ := hw.command rfl (by decide) hfl.1
    simp only [decodeCore_cpy ho, decCpy, hx]
    refine dX_of_words hwf hw rfl rfl (by decide) hfl.1 hfl.2.1 (by omega) ?_
    rw [Space.ofCode_eq_some.mpr (show _ = spm.code by omega), hfl.2.2.1, hfl.2.2.2]
    refine congrArg some ?_
    congr 1 <;> simp only [fld_eq, fbit_eq] <;> omega
  case cpyCancel y a k =>
    have hfl : 4 * bnat a < 128 ∧ 4 * bnat a &&& (127 - 4) = 0 ∧ fbit (4 * bnat a) 2 = a := by cases a <;> decide
    obtain ⟨ho, hx⟩ := hw.command rfl (by decide) hfl.1
    simp only [decodeCore_cpy ho, decCpy, hx]
    exact dX_of_words hwf hw rfl rfl (by decide) hfl.1 hfl.2.1 k.isLt (by rw [hfl.2.2, (fld_eq (x := k)).mpr (by omega)])
  case cpySave y a k =>
    have hfl : 16 * bnat a < 128 ∧ 16 * bnat a &&& (127 - 16) = 0 ∧ fbit (16 * bnat a) 4 = a := by cases a <;> decide
    obtain ⟨ho, hx⟩ := hw.command rfl (by decide) hfl.1
    simp only [decodeCore_cpy ho, decCpy, hx]
    exact dX_of_words hwf hw rfl rfl (by decide) hfl.1 hfl.2.1 k.isLt (by rw [hfl.2.2, (fld_eq (x := k)).mpr (by omega)])
  case cpyResume y a k =>
    have hfl : 8 * bnat a < 128 ∧ 8 * bnat a &&& (127 - 8) = 0 ∧ fbit (8 * bnat a) 3 = a := by cases a <;> decide
    obtain ⟨ho, hx⟩ := hw.command rfl (by decide) hfl.1
    simp only [decodeCore_cpy ho, decCpy, hx]
    exact dX_of_words hwf hw rfl rfl (by decide) hfl.1 hfl.2.1 k.isLt (by rw [hfl.2.2, (fld_eq (x := k)).mpr (by omega)])
  case cpyStat y k =>
    obtain ⟨ho, hx⟩ := hw.command rfl (by decide) (by decide)
    simp only [decodeCore_cpy ho, decCpy, hx]
    exact dX_of_words hwf hw rfl rfl (by decide) (by decide) (by decide) (by omega) (congrArg (some ∘ _) (fld_eq.mpr (by omega)))
  case ddaPatch y a c l =>
    have := bnat_lt l
    obtain ⟨ho, hx⟩ := hw.command rfl (by decide) (by decide)
    simp only [decodeCore_dda ho, decDda, hx]
    refine dX_of_words hwf hw rfl rfl (by decide) (by decide) (by decide) (by omega) (congrArg some ?_)
    congr 1 <;> simp only [fld_eq, fbit_eq] <;> omega
  case ddaLdy y a c | ddaLdr y a c | ddaRead y a c =>
    obtain ⟨ho, hx⟩ := hw.command rfl (by decide) (by decide)
    simp only [decodeCore_dda ho, decDda, hx]
    refine dX_of_words hwf hw rfl rfl (by decide) (by decide) (by decide) (by omega) (congrArg some ?_)
    congr 1 <;> rw [fld_eq] <;> omega
  case ddaClk y k | ddaRun y k | ddaStop y k | ddaSave y k | ddaRestore y k | ddaStat y k =>
    obtain ⟨ho, hx⟩ := hw.command rfl (by decide) (by decide)
    simp only [decodeCore_dda ho, decDda, hx]
    exact dX_of_words hwf hw rfl rfl (by decide) (by decide) (by decide) (by omega) (congrArg (some ∘ _) (fld_eq.mpr (by omega)))
  case ddaTap y t m r =>
    obtain ⟨ho, hx⟩ := hw.command rfl (by decide) (by decide)
    simp only [decodeCore_dda ho, decDda, hx]
    refine dX_of_words hwf hw rfl rfl (by decide) (by decide) (by decide) (by omega) (congrArg some ?_)
    congr 1 <;> rw [fld_eq] <;> omega
  case kvbAlloc y a | kvbFree y a | seqConfirm y a =>
    have hfl := flags_one a
    obtain ⟨ho, hx⟩ := hw.command rfl (by decide) hfl.1
    simp only [decodeCore_seq ho (by decide), decSeq, ho, hx]
    exact dX_of_words hwf hw rfl rfl (by decide) hfl.1 hfl.2.1 (by decide) (by rw [hfl.2.2])
  case kvbMap y | seqEmit y | seqDraft y | seqReject y | seqResume y | seqClose y | wchStat y =>
    obtain ⟨ho, hx⟩ := hw.command rfl (by decide) (by decide)
    simp only [decodeCore_seq ho (by decide), decSeq, ho, hx]
    exact dX_of_words hwf hw rfl rfl (by decide) (by decide) (by decide) (by decide) rfl
  case kvbShare y k =>
    obtain ⟨ho, hx⟩ := hw.command rfl (by decide) (by decide)
    simp only [decodeCore_seq ho (by decide), decSeq, ho, hx]
    exact dX_of_words hwf hw rfl rfl (by decide) (by decide) (by decide) (by omega) (congrArg (some ∘ _) (fld_eq.mpr (by omega)))
  case kvbStat y d o | seqOpen y d o =>
    have := bnat_lt o
    obtain ⟨ho, hx⟩ := hw.command rfl (by decide) (by decide)
    simp only [decodeCore_seq ho (by decide), decSeq, ho, hx]
    refine dX_of_words hwf hw rfl rfl (by decide) (by decide) (by decide) (by omega) (congrArg some ?_)
    congr 1 <;> simp only [fld_eq, fbit_eq] <;> omega
  case wchSet y p l a j =>
    obtain ⟨ho, hx⟩ := hw.command rfl (by decide) (by decide)
    simp only [decodeCore_seq ho (by decide), decSeq, ho, hx]
    refine dX_of_words hwf hw rfl rfl (by decide) (by decide) (by decide) (by omega) (congrArg some ?_)
    congr 1 <;> rw [fld_eq] <;> omega
  case wchBudget y b a =>
    obtain ⟨ho, hx⟩ := hw.command rfl (by decide) (by decide)
    simp only [decodeCore_seq ho (by decide), decSeq, ho, hx]
    refine dX_of_words hwf hw rfl rfl (by decide) (by decide) (by decide) (by omega) (congrArg some ?_)
    congr 1 <;> rw [fld_eq] <;> omega
  case wchClr y p b n =>
    have := bnat_lt n
    obtain ⟨ho, hx⟩ := hw.command rfl (by decide) (by decide)
    simp only [decodeCore_seq ho (by decide), decSeq, ho, hx]
    refine dX_of_words hwf hw rfl rfl (by decide) (by decide) (by decide) (by omega) (congrArg some ?_)
    congr 1 <;> simp only [fld_eq, fbit_eq] <;> omega
  case podPut y o sp =>
    have := sp.code_lt
    have hfl := flags_one o
    obtain ⟨ho, hx⟩ := hw.command rfl (by decide) hfl.1
    simp only [decodeCore_pod ho, decPod, hx]
    exact dX_of_words hwf hw rfl rfl (by decide) hfl.1 hfl.2.1 (by omega)
      (by rw [Space.ofCode_eq_some.mpr (show _ = sp.code by omega), hfl.2.2]; rfl)
  case podGet y o f sp =>
    have := sp.code_lt
    have hfl := flags_two o f
    obtain ⟨ho, hx⟩ := hw.command rfl (by decide) hfl.1
    simp only [decodeCore_pod ho, decPod, hx]
    exact dX_of_words hwf hw rfl rfl (by decide) hfl.1 hfl.2.1 (by omega)
      (by rw [Space.ofCode_eq_some.mpr (show _ = sp.code by omega), hfl.2.2.1, hfl.2.2.2]; rfl)
  case podAmo y o r op w32 n =>
    have := bnat_lt w32
    have := bnat_lt n
    have hfl : bnat o + 4 * bnat r < 128 ∧ bnat o + 4 * bnat r &&& (127 - 5) = 0 ∧ fbit (bnat o + 4 * bnat r) 0 = o ∧
        fbit (bnat o + 4 * bnat r) 2 = r := by cases o <;> cases r <;> decide
    obtain ⟨ho, hx⟩ := hw.command rfl (by decide) hfl.1
    simp only [decodeCore_pod ho, decPod, hx]
    refine dX_of_words hwf hw rfl rfl (by decide) hfl.1 hfl.2.1 (by omega) ?_
    rw [hfl.2.2.1, hfl.2.2.2]
    refine congrArg some ?_
    congr 1 <;> simp only [fld_eq, fbit_eq] <;> omega
  case colAllred y t r | colRedscat y t r =>
    obtain ⟨ho, hx⟩ := hw.command rfl (by decide) (by decide)
    simp only [decodeCore_pod ho, decPod, hx]
    refine dX_of_words hwf hw rfl rfl (by decide) (by decide) (by decide) (by omega) (congrArg some ?_)
    congr 1 <;> rw [fld_eq] <;> omega
  case colAllgath y t | colBcast y t =>
    obtain ⟨ho, hx⟩ := hw.command rfl (by decide) (by decide)
    simp only [decodeCore_pod ho, decPod, hx]
    exact dX_of_words hwf hw rfl rfl (by decide) (by decide) (by decide) (by omega) (congrArg (some ∘ _) (fld_eq.mpr (by omega)))
  case colStat y =>
    obtain ⟨ho, hx⟩ := hw.command rfl (by decide) (by decide)
    simp only [decodeCore_pod ho, decPod, hx]
    exact dX_of_words hwf hw rfl rfl (by decide) (by decide) (by decide) (by decide) rfl
  all_goals exact absurd rfl hd

/-! ## The words themselves -/

/-- Fields of an instruction that produces no value are NONE in its words (R79). -/
theorem noneOk_of_words (hw : i.Words w w2) : noneOk i w = true := by
  cases i
  case ffree p | waittick p | trap p | brk p | halt p =>
    obtain ⟨_, _, _, ha, hb⟩ := hw.wordG rfl p.code_lt (by decide) (by decide) (by decide)
    simp only [noneOk, beq_iff_eq]
    omega
  case send p sl | sendx p sl =>
    obtain ⟨_, _, _, _, hb⟩ := hw.wordG rfl p.code_lt (by decide) (by omega) (by decide)
    exact beq_iff_eq.mpr hb
  case barArrive p sc id | barWait p sc id | barCfg p sc id =>
    have := sc.code_lt
    obtain ⟨_, _, _, _, hb⟩ := hw.wordG rfl p.code_lt (by decide) (by omega) (by decide)
    exact beq_iff_eq.mpr hb
  case sysWr p r =>
    obtain ⟨_, _, _, _, hb⟩ := hw.wordG rfl p.code_lt (by decide) r.isLt (by decide)
    exact beq_iff_eq.mpr hb
  case tlbInv p sc =>
    have := sc.code_lt
    obtain ⟨_, _, _, _, hb⟩ := hw.wordG rfl p.code_lt (by decide) (by omega) (by decide)
    exact beq_iff_eq.mpr hb
  case gangSync p =>
    obtain ⟨_, _, _, _, hb⟩ := hw.wordG rfl p.code_lt (by decide) (by decide) (by decide)
    exact beq_iff_eq.mpr hb
  case sendi p =>
    obtain ⟨_, _, _, hl⟩ := hw.encX rfl p.code_lt (by decide) (by decide) (by decide) (by decide)
    have := p.code_lt
    exact beq_iff_eq.mpr ((eq_encX_iff (by omega) (by decide) (by decide) (by decide) (by decide)).mp hl).2.2.2.2.1
  all_goals rfl

theorem Instr.words_of_one {v : Nat} (h : encodeNat i = [v]) : ∃ w w2, i.Words w w2 := ⟨v, none, .inl h⟩
theorem Instr.words_of_two {v st : Nat} (h : encodeNat i = [v, st]) (hst : st < 2 ^ 32) : ∃ w w2, i.Words w w2 :=
  ⟨v, some st, .inr ⟨st, rfl, hst, h⟩⟩

/-- An instruction with an encoding has one word or two. -/
theorem Instr.exists_words (hc : i.coded = true) : ∃ w w2, i.Words w w2 := by
  cases i
  case vadd y v | vsub y v | vmul y v | vfma y v | vmin y v | vmax y v | vabs y v | vneg y v | vand y v | vor y v | vxor y v | vshl y v | vshr y v |
      vcmp y v | vselect y v | vexp2 y v | vlog2 y v | vrcp y v | vrsq y v | vcvt y v | vred y v | vscan y v | vtopk y v | vcompact y v | vexpand y v |
      vgather y v | vscatter y v | vfill y v | vcopy y v | vrand y v | vamaxh y v | unpackT5 y v | vplane y v =>
    exact words_of_two rfl v.static_lt
  case sendi | fma | lbdCfg | kvbAlloc | kvbMap | kvbFree | seqEmit | seqDraft | seqConfirm | seqReject | seqResume | seqClose | wchStat | colStat =>
    exact words_of_two rfl (by decide)
  case madd f t | sel f t | bfx f t _ _ | bfi f t _ _ => have := t.code_lt; exact words_of_two rfl (by omega)
  case amoCas _ _ sp sc w32 => have := sp.code_lt; have := sc.code_lt; have := bnat_lt w32; exact words_of_two rfl (by omega)
  case mmp _ _ _ ga gb _ | mmpE _ _ _ ga gb _ => have := bnat_lt ga; have := bnat_lt gb; exact words_of_two rfl (by omega)
  case cpyStream _ _ _ _ sps spd _ => have := sps.code_lt; have := spd.code_lt; exact words_of_two rfl (by omega)
  case cpyPlanes _ _ _ _ spm dir mat _ _ _ _ g e =>
    have := spm.code_lt; have := bnat_lt dir; have := bnat_lt mat; have := bnat_lt g; have := bnat_lt e; exact words_of_two rfl (by omega)
  case cpyConv _ _ _ _ spm dir _ _ _ g sat _ =>
    have := spm.code_lt; have := bnat_lt dir; have := bnat_lt g; have := bnat_lt sat; exact words_of_two rfl (by omega)
  case ddaPatch _ _ _ b | kvbStat _ _ b | seqOpen _ _ b | wchClr _ _ _ b => have := bnat_lt b; exact words_of_two rfl (by omega)
  case podPut _ _ sp | podGet _ _ _ sp => have := sp.code_lt; exact words_of_two rfl (by omega)
  case podAmo _ _ _ _ b c => have := bnat_lt b; have := bnat_lt c; exact words_of_two rfl (by omega)
  case ppSet | sclSet | sclDerive | accArm | accRel | accClr | accSave | accLoad | accStat | cpyCancel | cpySave | cpyResume | cpyStat | ddaLdy | ddaLdr |
      ddaClk | ddaRun | ddaStop | ddaTap | ddaRead | ddaSave | ddaRestore | ddaStat | kvbShare | wchSet | wchBudget | colAllred | colRedscat |
      colAllgath | colBcast =>
    exact words_of_two rfl (by omega)
  all_goals first | exact words_of_one rfl | exact absurd hc (by decide)

theorem decodeCore_of_at (h : i.At w w2) : decodeCore w w2 = .ok i := by
  by_cases hd : i.destSlot = none
  · by_cases hv : i.shape.val = true
    · exact decodeCore_of_val h hv
    · exact decodeCore_of_effect h (Bool.eq_false_iff.mpr hv) hd
  · exact decodeCore_of_command h hd

theorem lt_of_decodeCore (h : decodeCore w w2 = .ok i) : w < 2 ^ 32 := by
  unfold decodeCore at h
  split at h
  case h_57 => cases h
  all_goals omega

theorem decode_of_at (h : i.At w w2) : decode w w2 = .ok i ∧ w < 2 ^ 32 :=
  have hd := decodeCore_of_at h
  ⟨decode_eq_ok.mpr ⟨hd, noneOk_of_words h.2⟩, lt_of_decodeCore hd⟩

end

end Sys2Proof

namespace Sys2Proof.Safety

/-- Settles O2: an instruction has one word or two, its row of the opcode table reads its fields back, and no field is lost at 32 bits. -/
theorem encodeThenDecode : Obligations.EncodeThenDecode := by
  intro i hwf
  have hc : i.coded = true := by
    simp only [Instr.wf, Bool.and_eq_true] at hwf
    exact hwf.1.1.1.1
  obtain ⟨w, w2, he | ⟨st, -, hst, he⟩⟩ := Instr.exists_words hc
  · obtain ⟨hd, hlt⟩ := decode_of_at (w2 := none) ⟨hwf, .inl he⟩
    simp only [encode, he, decodeWords, List.map_cons, List.map_nil, List.head?_nil, Option.map_none, BitVec.toNat_ofNat, Nat.mod_eq_of_lt hlt]
    exact hd
  · obtain ⟨hd, hlt⟩ := decode_of_at ⟨hwf, .inr ⟨st, rfl, hst, he⟩⟩
    simp only [encode, he, decodeWords, List.map_cons, List.map_nil, List.head?_cons, Option.map_some, BitVec.toNat_ofNat, Nat.mod_eq_of_lt hlt,
      Nat.mod_eq_of_lt hst]
    exact hd

end Sys2Proof.Safety
end

section
/-! PROOFS. Null tokens and predicates in a firing (R69, R70, R113), and a delivery to a target that has had one (R112). -/

namespace Sys2Proof.Safety

open Sys2Proof.Machine

/-! ## A second delivery is noted -/

section
variable {at_ n : Nat} {v : Option Val}

theorem named_cons {t : Target} (ht : t ≠ .none) (ts : List Target) : named (t :: ts) = t :: named ts := by simp [named, ht]
theorem named_none_cons (ts : List Target) : named (.none :: ts) = named ts := by simp [named]

theorem deliverOne_new {f : Firing} {t : Target} (ht : t ≠ .none) (hd : f.dels.any (fun d => d.1 == t) = false) :
    deliverOne at_ n v f t = { f with dels := f.dels ++ [(t, v)] } := by
  cases t <;> first | exact absurd rfl ht | simp only [deliverOne, hd]; rfl
/-- A delivery to a target that has had one. -/
theorem deliverOne_again {f : Firing} {t : Target} (ht : t ≠ .none) (hd : f.dels.any (fun d => d.1 == t) = true) :
    ∃ dels, deliverOne at_ n v f t = { f with twice := f.twice ++ [t], dels } := by
  cases t <;> first | exact absurd rfl ht | (simp only [deliverOne, hd, if_true]; exact ⟨_, rfl⟩)

/-- What deliveries leave: the frame and the block, and what has been noted. -/
structure Delivering (f g : Firing) : Prop where
  fp : g.fp = f.fp
  addr : g.addr = f.addr
  twice : ∀ t ∈ f.twice, t ∈ g.twice

theorem Delivering.refl (f : Firing) : Delivering f f := ⟨rfl, rfl, fun _ h => h⟩
theorem Delivering.trans {f g h : Firing} (a : Delivering f g) (b : Delivering g h) : Delivering f h :=
  ⟨b.fp.trans a.fp, b.addr.trans a.addr, fun t ht => b.twice t (a.twice t ht)⟩
theorem delivering_deliverOne (f : Firing) (t : Target) : Delivering f (deliverOne at_ n v f t) := by
  by_cases ht : t = .none
  · subst ht; exact .refl f
  · cases hd : f.dels.any (fun d => d.1 == t) with
    | false => rw [deliverOne_new ht hd]; exact ⟨rfl, rfl, fun _ h => h⟩
    | true =>
      obtain ⟨dels, h⟩ := deliverOne_again (at_ := at_) (n := n) (v := v) ht hd
      rw [h]
      exact ⟨rfl, rfl, fun u hu => List.mem_append_left _ hu⟩
theorem delivering_foldl (ts : List Target) (f : Firing) : Delivering f (ts.foldl (deliverOne at_ n v) f) := by
  induction ts generalizing f with
  | nil => exact .refl f
  | cons t ts ih => exact (delivering_deliverOne f t).trans (ih _)

theorem exists_twice_of_not_free {ts : List Target} {f : Firing} (h : ¬ Free f ts) :
    ∃ t ∈ named ts, t ∈ (ts.foldl (deliverOne at_ n v) f).twice := by
  induction ts generalizing f with
  | nil => exact absurd ⟨List.nodup_nil, nofun⟩ h
  | cons t ts ih =>
    rw [List.foldl_cons]
    by_cases ht : t = .none
    · subst ht
      rw [named_none_cons]
      exact ih fun hf => h (by rw [Free, named_none_cons]; exact hf)
    rw [named_cons ht]
    cases hd : f.dels.any (fun d => d.1 == t) with
    | true =>
      obtain ⟨dels, he⟩ := deliverOne_again (at_ := at_) (n := n) (v := v) ht hd
      exact ⟨t, List.mem_cons_self, (delivering_foldl ts _).twice t (by rw [he]; simp)⟩
    | false =>
      rw [deliverOne_new ht hd]
      obtain ⟨u, hu, hg⟩ := ih (f := { f with dels := f.dels ++ [(t, v)] }) fun hf => h (by
        obtain ⟨hnd, hfree⟩ := hf
        simp only [List.any_append, List.any_cons, List.any_nil, Bool.or_false, Bool.or_eq_false_iff, beq_eq_false_iff_ne] at hfree
        rw [Free, named_cons ht, List.nodup_cons]
        refine ⟨⟨fun hm => (hfree t hm).2 rfl, hnd⟩, fun u hu => ?_⟩
        rcases List.mem_cons.mp hu with rfl | hu
        · exact hd
        · exact (hfree u hu).1)
      exact ⟨u, List.mem_cons_of_mem _ hu, hg⟩

end

/-! ## Words of a firing that do not execute -/

section
variable {s : State} {c k n : Nat} {f : Firing} {i : Instr} {body : State → Nat → Firing → Nat → List Val → FRes}

/-- What is passed on in place of a value: a null token, or an error token. -/
theorem passes_on {v : Option Val} (he : exec i s = .next (deliverFrom s c k n (f.did n) i.shape.tgts v)) :
    (Free f i.shape.tgts → exec i s = .next (setFiring s c k (some { f with
      done := n :: f.done, lsids := n :: f.lsids, dels := delivered f i.shape.tgts v }))) ∧
    (¬ Free f i.shape.tgts → DeliversTwice s s c k f i) := by
  rw [DeliversTwice, he]
  refine ⟨fun hf => ?_, fun hf => ?_⟩
  · rw [deliverFrom_free _ _ _ _ (f.did n) _ _ hf]
    rfl
  · obtain ⟨t, ht, hg⟩ := exists_twice_of_not_free (at_ := arrival s c n (f.did n)) (n := n) (v := v) (f := f.did n) hf
    have hd := delivering_foldl (at_ := arrival s c n (f.did n)) (n := n) (v := v) i.shape.tgts (f.did n)
    exact ⟨_, t, hd.fp, hd.addr, ht, hg, rfl⟩

theorem fireWord_ready (hfoc : s.focus = .firing c k n) (hslot : firingAt s c k = some f) (hr : ready f n i = true) :
    fireWord s i body = .next (fire s c k n f i body) := by
  simp only [fireWord, hfoc, hslot, hr, if_true]
theorem fire_null (h : anyNull f (allPositions i.shape n) = true) :
    fire s c k n f i body = deliverFrom s c k n (f.did n) i.shape.tgts none := if_pos h

/-- A predicate by the value that it has received (R69). -/
theorem predRes_of_value {v : Val} (hp : i.shape.pred ≠ .always) (hv : delAt f (posP n) = some (some v)) :
    predRes f i.shape n = if v.x then .err else if v.d.getLsbD 0 = (i.shape.pred == .ifTrue) then .pass else .fail := by
  have hbit : bit v.d.toNat 0 = v.d.getLsbD 0 := by rw [bit_eq_testBit, BitVec.testBit_toNat]
  unfold predRes
  split
  · next h => exact absurd h hp
  · simp only [hv, hbit]
theorem fire_fail (hn : anyNull f (allPositions i.shape n) = false) (hp : predRes f i.shape n = .fail) :
    fire s c k n f i body = setFiring s c k (some { f with done := n :: f.done }) := by
  simp only [fire, hn, hp, Bool.false_eq_true, if_false]
theorem fire_err (hn : anyNull f (allPositions i.shape n) = false) (hp : predRes f i.shape n = .err) :
    fire s c k n f i body = if isHeld i then takeTrap s c k { cause := 0x04, pos := n }
      else deliverFrom s c k n (f.did n) i.shape.tgts (some Val.err) := by
  simp only [fire, hn, hp, Bool.false_eq_true, if_false]

end

/-- Settles O8: every instruction word runs through `fire`; its answer by what the operands and the predicate have received. -/
theorem nullTokensAndPredicates : Obligations.NullTokensAndPredicates := by
  refine ⟨fun s c k n f i hi hfoc hslot hr hnull => ?_, fun s c k n f i v hi hfoc hslot hr hnull hp hv => ?_⟩
  · obtain ⟨body, hb⟩ := coded_fire i hi
    refine passes_on (v := none) ?_
    rw [hb s c k n hfoc, fireWord_ready hfoc hslot hr, fire_null hnull]
  · obtain ⟨body, hb⟩ := coded_fire i hi
    have he : exec i s = .next (fire s c k n f i body) := (hb s c k n hfoc).trans (fireWord_ready hfoc hslot hr)
    have hpred := predRes_of_value (i := i) hp hv
    have herr (hx : v.x = true) : predRes f i.shape n = .err := by rw [hpred, hx, if_pos rfl]
    have hpass (hx : v.x = true) (hh : isHeld i = false) := passes_on (v := some Val.err) (s := s) (c := c) (k := k) (n := n) (f := f) (i := i)
      (by rw [he, fire_err hnull (herr hx), hh]; rfl)
    refine ⟨fun hx hbit => ?_, fun hx hh => ?_, fun hx hh => (hpass hx hh).1, fun hx hh => (hpass hx hh).2⟩
    · rw [he, fire_fail hnull (by rw [hpred, hx, if_neg Bool.false_ne_true, if_neg hbit])]
    · rw [he, fire_err hnull (herr hx), if_pos hh]

end Sys2Proof.Safety
end

section
/-! PROOFS. The block check (R61, R66, R67, R72, R76, R77): its parts in their order, each of Table 3.20's checks in its place. -/

namespace Sys2Proof

open Sys2Proof.Machine

/-! ## Checks in a row -/

@[simp] theorem firstFail_failIf_cons (b : Bool) (e : Check) (l : List (Option Check)) :
    firstFail (failIf b e :: l) = if b then some e else firstFail l := by cases b <;> rfl
theorem failIf_or (b : Bool) (e : Check) (o : Option Check) : (failIf b e).or o = if b then some e else o := by cases b <;> rfl
theorem firstFail_cons (o : Option Check) (l : List (Option Check)) : firstFail (o :: l) = o.or (firstFail l) := by cases o <;> rfl
theorem firstFail_eq_findSome? (l : List (Option Check)) : firstFail l = l.findSome? id := by
  induction l with
  | nil => rfl
  | cons o l ih => rw [firstFail_cons, ih, List.findSome?_cons]; cases o <;> rfl

theorem firstAt_of_fail {g : Nat → Option Check} {e : Check} (l : List Nat) (p j w : Nat) (hj : l[j]? = some w) (hw : g w = some e)
    (hb : ∀ i < j, ∀ u, l[i]? = some u → g u = none) : firstAt g p l = some (p + j, e) := by
  induction l generalizing p j with
  | nil => simp at hj
  | cons x l ih =>
    cases j with
    | zero =>
      obtain rfl : x = w := by simpa using hj
      simp only [firstAt, hw, Nat.add_zero]
    | succ j =>
      have hx : g x = none := hb 0 (Nat.succ_pos j) x rfl
      rw [firstAt, hx]
      refine (ih (p + 1) j (by simpa using hj) fun i hi u hu => hb (i + 1) (by omega) u (by simpa using hu)).trans ?_
      rw [Nat.add_right_comm, Nat.add_assoc]
theorem firstAt_of_none {g : Nat → Option Check} (l : List Nat) (p : Nat) (h : ∀ w ∈ l, g w = none) : firstAt g p l = none := by
  induction l generalizing p with
  | nil => rfl
  | cons x l ih => rw [firstAt, h x List.mem_cons_self]; exact ih (p + 1) fun w hw => h w (List.mem_cons_of_mem x hw)

/-! ## The instruction words in their order -/

section
variable {co : Core} {H : Header} {ps : List (Nat × Pos)}

/-- The counts of Table 3.7 behind instruction words. -/
def countsAfter (co : Core) (H : Header) (ps : List (Nat × Pos)) (k : Counts) (l : List (Nat × List IWord)) : Counts :=
  l.foldl (fun k e => (checkInsn co H ps k e).2) k
/-- Every instruction word passes its checks, by the counts before it. -/
def InsnsPass (co : Core) (H : Header) (ps : List (Nat × Pos)) (k : Counts) (l : List (Nat × List IWord)) : Prop :=
  ∀ l1 d l2, l = l1 ++ d :: l2 → (checkInsn co H ps (countsAfter co H ps k l1) d).1 = none

theorem checkInsns_cons (k : Counts) (d : Nat × List IWord) (l : List (Nat × List IWord)) : checkInsns co H ps k (d :: l) =
    match (checkInsn co H ps k d).1 with
    | some e => some (d.1, e)
    | none => checkInsns co H ps (checkInsn co H ps k d).2 l := by
  rw [checkInsns]
  obtain ⟨_ | _, _⟩ := checkInsn co H ps k d <;> rfl
theorem checkInsns_fail {k : Counts} {d : Nat × List IWord} {e : Check} (h : (checkInsn co H ps k d).1 = some e) (l : List (Nat × List IWord)) :
    checkInsns co H ps k (d :: l) = some (d.1, e) := by rw [checkInsns_cons, h]
theorem checkInsns_append {k : Counts} {l : List (Nat × List IWord)} (h : InsnsPass co H ps k l) (l' : List (Nat × List IWord)) :
    checkInsns co H ps k (l ++ l') = checkInsns co H ps (countsAfter co H ps k l) l' := by
  induction l generalizing k with
  | nil => rfl
  | cons d l ih =>
    have hd : (checkInsn co H ps k d).1 = none := h [] d l rfl
    rw [List.cons_append, checkInsns_cons, hd]
    exact ih fun l1 d' l2 hl => h (d :: l1) d' l2 (by rw [hl, List.cons_append])
theorem checkInsns_pass {k : Counts} {l : List (Nat × List IWord)} (h : InsnsPass co H ps k l) : checkInsns co H ps k l =
    if (H.take = true ∧ (countsAfter co H ps k l).takes = 0) ∨ (countsAfter co H ps k l).exits < H.nexit + 1 then some (0x300, .limit)
    else none := by
  have := checkInsns_append h []
  rw [List.append_nil] at this
  rw [this, checkInsns]
  simp only [Bool.or_eq_true, Bool.and_eq_true, beq_iff_eq, decide_eq_true_eq]

/-! ## One instruction word -/

/-- The counts with an instruction of a class. -/
def Machine.Counts.with (k : Counts) (c : LimitClass) : Counts :=
  ⟨k.sends + bnat (c == .send), k.engs + bnat (c == .engine), k.takes + bnat (c == .take), k.exits + bnat (c == .exit)⟩

theorem with_cls (k : Counts) (c : LimitClass) : (match c with
    | .plain => k
    | .send => { k with sends := k.sends + 1 }
    | .engine => { k with engs := k.engs + 1 }
    | .take => { k with takes := k.takes + 1 }
    | .exit => { k with exits := k.exits + 1 }) = k.with c := by cases c <;> rfl

theorem checkInsn_of_error {k : Counts} {n : Nat} {w : IWord} {ws : List IWord} {e : Check}
    (h : decodeCore w.toNat (ws.head?.map BitVec.toNat) = .error e) : (checkInsn co H ps k (n, w :: ws)).1 = some e := by
  cases ws <;> (simp only [List.head?, Option.map] at h; simp only [checkInsn, h])
/-- Does an instruction hand its frame to a task that the image does not list? -/
def NamesNoTask (co : Core) (i : Instr) : Prop := ∃ p t, i = .broCont p t ∧ taskOf co t.toNat = none

/-- A word that decodes: the rows of Table 3.20 behind the decoder's, in their order. -/
theorem checkInsn_of_ok {k : Counts} {n : Nat} {w : IWord} {ws : List IWord} {i : Instr}
    (h : decodeCore w.toNat (ws.head?.map BitVec.toNat) = .ok i) :
    ∃ lsid away : Bool, (lsid = true ↔ ∃ l, i.shape.lsid = some l ∧ H.lsidCnt ≤ l.toNat) ∧ (away = true ↔ NamesNoTask co i) ∧
      let k' := k.with i.shape.cls
      checkInsn co H ps k (n, w :: ws) = (firstFail ([failIf lsid .lsid, failIf (i.shape.slots.any fun t => decide (t.toNat ≥ H.nslot)) .slot,
        failIf away .noTask,
        failIf (decide (k'.sends > 16 ∨ k'.engs > 8 ∨ k'.takes > bnat H.take ∨ k'.exits > H.nexit + 1)) .limit,
        failIf (!noneOk i w.toNat) .tgtOperand] ++ i.shape.tgts.map (checkTarget H.nwr H.nins ps (n + 1))), k') := by
  cases ws <;> (
    simp only [List.head?, Option.map] at h
    refine ⟨?l, ?a, ?lsid, ?away, ?word⟩
    case word => simp only [checkInsn, h, ← with_cls] <;> rfl
    case lsid => cases i.shape.lsid <;> simp
    case away =>
      split
      · simp [NamesNoTask]
      · next hi => simpa [NamesNoTask] using fun p t hp => absurd hp (hi p t))

/-- The counts pass a limit of Table 3.7 with an instruction of its class when they stood at it. -/
theorem with_over_iff {k : Counts} (c : LimitClass) (hs : k.sends ≤ 16) (he : k.engs ≤ 8) (ht : k.takes ≤ bnat H.take) (hx : k.exits ≤ H.nexit + 1) :
    ((k.with c).sends > 16 ∨ (k.with c).engs > 8 ∨ (k.with c).takes > bnat H.take ∨ (k.with c).exits > H.nexit + 1) ↔
      (c = .send ∧ k.sends = 16) ∨ (c = .engine ∧ k.engs = 8) ∨ (c = .take ∧ k.takes = bnat H.take) ∨ (c = .exit ∧ k.exits = H.nexit + 1) := by
  cases c <;> simp [Machine.Counts.with, bnat] at * <;> omega

/-! ## Targets and entries -/

section
variable {nwr nins p : Nat} {n : Fin 128}

theorem checkTarget_write (n : Fin 127) : checkTarget nwr nins ps p (.write n) = if nwr ≤ n.val then some .tgtRange else none := rfl
theorem checkTarget_of_range {t : Target} (ht : t ∈ [Target.pred n, .opA n, .opB n]) (h : nins ≤ n.val) :
    checkTarget nwr nins ps p t = some .tgtRange := by
  simp only [List.mem_cons, List.not_mem_nil, or_false] at ht
  rcases ht with rfl | rfl | rfl <;> exact if_pos h
theorem checkTarget_of_backward {t : Target} (ht : t ∈ [Target.pred n, .opA n, .opB n]) (hn : n.val < nins) (h : n.val < p) :
    checkTarget nwr nins ps p t = some .tgtBackward := by
  simp only [List.mem_cons, List.not_mem_nil, or_false] at ht
  rcases ht with rfl | rfl | rfl <;> exact (if_neg (Nat.not_le.mpr hn)).trans (if_pos h)
/-- A target at an instruction's first word. -/
theorem checkTarget_first {a b pr : Bool} (hn : n.val < nins) (hp : p ≤ n.val)
    (h : (ps.find? fun e => e.1 == n.val).map (·.2) = some (.first a b pr)) :
    checkTarget nwr nins ps p (.pred n) = (if pr then none else some .tgtUnpred) ∧
    checkTarget nwr nins ps p (.opA n) = (if a then none else some .tgtOperand) ∧
    checkTarget nwr nins ps p (.opB n) = (if b then none else some .tgtOperand) := by
  simp only [checkTarget, ge_iff_le, Nat.not_le.mpr hn, Nat.not_lt.mpr hp, if_false, h, and_self]
/-- A target at an instruction's second word. -/
theorem checkTarget_second {c : Bool} (hn : n.val < nins) (hp : p ≤ n.val)
    (h : (ps.find? fun e => e.1 == n.val).map (·.2) = some (.second c)) :
    checkTarget nwr nins ps p (.pred n) = some .tgtOperand ∧
    checkTarget nwr nins ps p (.opA n) = (if c then none else some .tgtOperand) ∧
    checkTarget nwr nins ps p (.opB n) = some .tgtOperand := by
  simp only [checkTarget, ge_iff_le, Nat.not_le.mpr hn, Nat.not_lt.mpr hp, if_false, h, and_self]

end

theorem checkRd_eq (w : Nat) : checkRd H ps w = if bits w 4 0 ≠ 0 then some .reserved else if H.nslot ≤ (parseRd w).slot then some .slot
    else (checkTarget H.nwr H.nins ps 0 (parseRd w).t1).or (checkTarget H.nwr H.nins ps 0 (parseRd w).t2) := by
  simp only [checkRd, firstFail_cons, failIf_or, firstFail, Option.or_none, bne_iff_ne, decide_eq_true_eq, ge_iff_le]
theorem checkWr_eq (w : Nat) :
    checkWr H w = if bits w 23 0 ≠ 0 then some .reserved else if H.nslot ≤ bits w 31 25 then some .slot else none := by
  simp only [checkWr, firstFail_failIf_cons, firstFail, bne_iff_ne, decide_eq_true_eq, ge_iff_le]
theorem checkHeader_eq (raw task : Nat) : checkHeader H raw task =
    if ¬ (bits raw 31 28 = 1 ∧ bits raw 27 24 = 0) then some .fmtVer
    else if H.nins = 0 ∨ 128 < H.nins ∨ 128 < H.nrd ∨ 32 < H.nwr ∨ 128 < H.nslot ∨ 32 < H.lsidCnt ∨ H.taskid ≠ task then some .counts
    else if ¬ (bits raw 111 96 = 0 ∧ bits raw 67 64 = 0 ∧ bits raw 50 48 = 0) then some .reserved else none := by
  simp only [checkHeader, firstFail_failIf_cons, firstFail, Bool.or_eq_true, bne_iff_ne, decide_eq_true_eq, ne_eq, not_and_or, gt_iff_lt, or_assoc]

/-! ## The parts of a block in their order -/

section
variable {b : Blk} {task : Nat}

theorem blockCheck_header {e : Check} (hb : b.bad = []) (h : checkHeader b.hdr b.raw task = some e) : blockCheck co b task = some (0x300, e) := by
  simp only [blockCheck, hb, firstFail_cons, h]; rfl
theorem blockCheck_of_header (hb : b.bad = []) (h : checkHeader b.hdr b.raw task = none) : blockCheck co b task =
    (firstAt (checkRd b.hdr (positions b.code)) 0x100 b.reads).or ((firstAt (checkWr b.hdr) 0x200 b.writes).or
      (checkInsns co b.hdr (positions b.code) {} (insns b.code))) := by
  simp only [blockCheck, hb, firstFail_cons, h, firstFail]
  cases firstAt (checkRd b.hdr (positions b.code)) 0x100 b.reads with
  | some e => rfl
  | none => cases firstAt (checkWr b.hdr) 0x200 b.writes <;> rfl

end

/-- The check of an instruction word that decodes, with the counts of Table 3.7 no higher than they may be before it. -/
theorem checkInsn_of_ok_cases {k : Counts} {n : Nat} {w : IWord} {ws : List IWord} {i : Instr}
    (h : decodeCore w.toNat (ws.head?.map BitVec.toNat) = .ok i)
    (hs : k.sends ≤ 16) (he : k.engs ≤ 8) (ht : k.takes ≤ bnat H.take) (hx : k.exits ≤ H.nexit + 1) :
    let got := (checkInsn co H ps k (n, w :: ws)).1
    let cls := i.shape.cls
    let lsid := ∃ l, i.shape.lsid = some l ∧ H.lsidCnt ≤ l.toNat
    let slot := ∃ t ∈ i.shape.slots, H.nslot ≤ t.toNat
    let away := NamesNoTask co i
    let full := (cls = .send ∧ k.sends = 16) ∨ (cls = .engine ∧ k.engs = 8) ∨ (cls = .take ∧ k.takes = bnat H.take) ∨
      (cls = .exit ∧ k.exits = H.nexit + 1)
    (lsid → got = some .lsid) ∧ (¬ lsid → slot → got = some .slot) ∧ (¬ lsid → ¬ slot → away → got = some .noTask) ∧
    (¬ lsid → ¬ slot → ¬ away → full → got = some .limit) ∧
    (¬ lsid → ¬ slot → ¬ away → ¬ full →
      (noneOk i w.toNat = false → got = some .tgtOperand) ∧
      (noneOk i w.toNat = true → got = (i.shape.tgts.map (checkTarget H.nwr H.nins ps (n + 1))).findSome? id)) := by
  intro got cls lsid slot away full
  obtain ⟨l, a, hl, ha, hgot⟩ := checkInsn_of_ok (co := co) (H := H) (ps := ps) (k := k) (n := n) h
  have hslot : (i.shape.slots.any fun t => decide (t.toNat ≥ H.nslot)) = true ↔ slot := by
    simp only [List.any_eq_true, decide_eq_true_eq, ge_iff_le, slot]
  have e : got = if l = true then some .lsid else if (i.shape.slots.any fun t => decide (t.toNat ≥ H.nslot)) = true then some .slot
      else if a = true then some .noTask else if full then some .limit
      else if noneOk i w.toNat = false then some .tgtOperand else (i.shape.tgts.map (checkTarget H.nwr H.nins ps (n + 1))).findSome? id := by
    simp only [got, hgot, List.cons_append, List.nil_append, firstFail_failIf_cons, ← firstFail_eq_findSome?, decide_eq_true_eq,
      with_over_iff _ hs he ht hx, Bool.not_eq_true', full, cls]
  refine ⟨fun h1 => ?_, fun h1 h2 => ?_, fun h1 h2 h3 => ?_, fun h1 h2 h3 h4 => ?_, fun h1 h2 h3 h4 => ⟨fun h5 => ?_, fun h5 => ?_⟩⟩
  · rw [e, if_pos (hl.mpr h1)]
  · rw [e, if_neg (mt hl.mp h1), if_pos (hslot.mpr h2)]
  · rw [e, if_neg (mt hl.mp h1), if_neg (mt hslot.mp h2), if_pos (ha.mpr h3)]
  · rw [e, if_neg (mt hl.mp h1), if_neg (mt hslot.mp h2), if_neg (mt ha.mp h3), if_pos h4]
  · rw [e, if_neg (mt hl.mp h1), if_neg (mt hslot.mp h2), if_neg (mt ha.mp h3), if_neg h4, if_pos h5]
  · rw [e, if_neg (mt hl.mp h1), if_neg (mt hslot.mp h2), if_neg (mt ha.mp h3), if_neg h4, if_neg (by rw [h5]; exact Bool.noConfusion)]
theorem checkInsn_of_ok_counts {k : Counts} {n : Nat} {w : IWord} {ws : List IWord} {i : Instr}
    (h : decodeCore w.toNat (ws.head?.map BitVec.toNat) = .ok i) : (checkInsn co H ps k (n, w :: ws)).2 = k.with i.shape.cls := by
  obtain ⟨l, a, -, -, hgot⟩ := checkInsn_of_ok (co := co) (H := H) (ps := ps) (k := k) (n := n) h
  rw [hgot]

end

end Sys2Proof
end

section
/-! PROOFS. A frame in its scratchpad (R103 to R105): the header words and the slots as tagged words, and what a header write leaves. -/

namespace Sys2Proof.Safety

open Sys2Proof.Machine

/-! ## Fields of a number -/

theorem testBit_bits (v hi lo i : ℕ) : (bits v hi lo).testBit i = (decide (i < hi - lo + 1) && v.testBit (lo + i)) := by
  rw [bits, Nat.testBit_mod_two_pow, Nat.testBit_div_two_pow, Nat.add_comm i lo]
theorem bits_mod_two_pow {hi n : ℕ} (h : hi < n) (v : ℕ) {lo : ℕ} (hl : lo ≤ hi) : bits (v % 2 ^ n) hi lo = bits v hi lo := by
  refine Nat.eq_of_testBit_eq fun i => ?_
  rw [testBit_bits, testBit_bits, Nat.testBit_mod_two_pow]
  by_cases hi' : i < hi - lo + 1
  · have : lo + i < n := by omega
    simp [this]
  · simp [hi']
/-- A field that has been replaced. -/
theorem bits_setBits_self (v x lo hi : ℕ) : bits (setBits v lo (hi - lo + 1) x) hi lo = x % 2 ^ (hi - lo + 1) := by
  refine Nat.eq_of_testBit_eq fun i => ?_
  rw [testBit_bits, testBit_setBits, Nat.testBit_mod_two_pow]
  by_cases hi' : i < hi - lo + 1
  · simp [hi']
  · simp [hi']
/-- A field beside one that has been replaced. -/
theorem bits_setBits_of_disjoint (v x : ℕ) {lo n hi' lo' : ℕ} (hl : lo' ≤ hi') (h : hi' < lo ∨ lo + n ≤ lo') :
    bits (setBits v lo n x) hi' lo' = bits v hi' lo' := by
  refine Nat.eq_of_testBit_eq fun i => ?_
  rw [testBit_bits, testBit_bits, testBit_setBits]
  by_cases hi : i < hi' - lo' + 1
  · rw [if_neg (by omega)]
  · simp [hi]

/-! ## The keys of a frame -/

section
variable {fp : ℕ}

theorem isWord_frame {i : ℕ} (hi : i < 2 ^ 30) : IsWord (wordKey (fpCore fp) (fpWord fp + i)) := by
  unfold IsWord wordKey localKey fpCore fpWord
  omega
theorem isWord_hdrKey {k : ℕ} (hk : k < 4) : IsWord (hdrKey fp k) := isWord_frame (by omega)
theorem isWord_slotKey {n : ℕ} (hn : n < 2 ^ 20) : IsWord (slotKey fp n) := by
  rw [slotKey, Nat.add_assoc]
  exact isWord_frame (by omega)
theorem hdrKey_inj {j k : ℕ} : hdrKey fp j = hdrKey fp k ↔ j = k := wordKey_inj.trans (by omega)
theorem slotKey_inj {j k : ℕ} : slotKey fp j = slotKey fp k ↔ j = k := wordKey_inj.trans (by omega)
theorem slotKey_ne_hdrKey {n k : ℕ} (hk : k < 4) : slotKey fp n ≠ hdrKey fp k := fun h => by
  have := wordKey_inj.mp h
  omega

end

/-! ## Header words and slots -/

section
variable {s : State} {fp k : ℕ}

theorem memNat_lt (m : List Host.Cell) (a n : ℕ) : memNat m a n < 256 ^ n := by
  induction n generalizing a with
  | zero => exact Nat.one_pos
  | succ n ih =>
    have h1 := ih (a + 1)
    have h2 := (memGet m a).isLt
    rw [memNat, pow_succ]
    omega
theorem hdr_lt (s : State) (fp k : ℕ) : hdr s fp k < 2 ^ 64 := memNat_lt _ _ 8
theorem hdr_eq (s : State) (fp k : ℕ) : hdr s fp k = (getWord s.mem (hdrKey fp k)).d.toNat :=
  (Nat.mod_eq_of_lt (hdr_lt s fp k)).symm.trans (BitVec.toNat_ofNat _ _).symm

theorem setHdr_safe (hs : Safe s) (v : ℕ) : Safe (setHdr s fp k v) := putWord_wf hs _ _
theorem hdr_setHdr_self (hs : Safe s) (hk : k < 4) (v : ℕ) : hdr (setHdr s fp k v) fp k = v % 2 ^ 64 := by
  rw [hdr_eq, setHdr, State.setMem_mem, getWord_putWord_self hs (isWord_hdrKey hk), BitVec.toNat_ofNat]
theorem hdr_setHdr_ne (hs : Safe s) (hk : k < 4) {j : ℕ} (hj : j < 4) (hne : j ≠ k) (v : ℕ) : hdr (setHdr s fp k v) fp j = hdr s fp j := by
  rw [hdr_eq, hdr_eq, setHdr, State.setMem_mem, getWord_putWord_ne hs (isWord_hdrKey hk) (isWord_hdrKey hj) (mt hdrKey_inj.mp hne)]
theorem slotWord_setHdr (hs : Safe s) (hk : k < 4) {n : ℕ} (hn : n < 2 ^ 20) (v : ℕ) : slotWord (setHdr s fp k v) fp n = slotWord s fp n :=
  getWord_putWord_ne hs (isWord_hdrKey hk) (isWord_slotKey hn) (slotKey_ne_hdrKey hk) _
theorem memGet_setHdr (hs : Safe s) (v : ℕ) {a : ℕ} (ha : outside (hdrKey fp k) 8 a) : memGet (setHdr s fp k v).mem a = memGet s.mem a := by
  obtain ⟨hout, htag⟩ := ha
  rw [setHdr, State.setMem_mem, putWord, memGet_setTags_data (memPut_wf hs _ _ _) _ _ _ _ htag, memGet_memPut_of_not_mem hs _ _ _ _ hout]

end

/-! ## Operations on frames touch nothing else -/

/-- The states differ in memory and in the order in which frames began to wait alone. -/
structure FrameWrites (s t : State) : Prop where
  net : t.net = s.net
  dies : t.dies = s.dies
  core : ∀ c, ∃ w, t.core c = { s.core c with waitOrder := w }

theorem FrameWrites.refl (s : State) : FrameWrites s s := ⟨rfl, rfl, fun _ => ⟨_, rfl⟩⟩
theorem FrameWrites.trans {s t u : State} (h : FrameWrites s t) (g : FrameWrites t u) : FrameWrites s u := by
  refine ⟨g.net.trans h.net, g.dies.trans h.dies, fun c => ?_⟩
  obtain ⟨_, hw⟩ := h.core c
  obtain ⟨w, gw⟩ := g.core c
  exact ⟨w, by rw [gw, hw]⟩
theorem frameWrites_setMem (s : State) (m : List Host.Cell) : FrameWrites s (s.setMem m) := ⟨rfl, rfl, fun _ => ⟨_, rfl⟩⟩
theorem frameWrites_setHdr (s : State) (fp k v : ℕ) : FrameWrites s (setHdr s fp k v) := frameWrites_setMem s _
theorem frameWrites_noteWait (s : State) (fp : ℕ) : FrameWrites s (noteWait s fp) := by
  refine ⟨rfl, rfl, fun c => ?_⟩
  by_cases h : c = fpCore fp
  · subst h
    rw [noteWait, State.core_modCore_self]
    split_ifs <;> exact ⟨_, rfl⟩
  · rw [noteWait, State.core_modCore_ne _ _ h]
    exact ⟨_, rfl⟩
theorem frameWrites_setFrameState (s : State) (fp st : ℕ) : FrameWrites s (setFrameState s fp st) :=
  (frameWrites_setHdr s fp 0 _).trans (frameWrites_noteWait _ fp)

@[simp] theorem hdr_noteWait (s : State) (g fp k : ℕ) : hdr (noteWait s g) fp k = hdr s fp k := rfl

theorem frameState_setFrameState {s : State} (hs : Safe s) (fp st : ℕ) : frameState (setFrameState s fp st) fp = st % 8 := by
  rw [frameState, setFrameState, hdr_noteWait, hdr_setHdr_self hs (by decide), bits_mod_two_pow (by decide) _ (by decide)]
  exact bits_setBits_self _ _ 16 18

end Sys2Proof.Safety
end

section
/-! PROOFS. The start of a firing (R66, R76, R111, R112, R124): the block check's answer, and the delivery of the read entries. -/

namespace Sys2Proof.Safety

open Sys2Proof.Machine

/-! ## The read entries deliver -/

section
variable {dels : List (Target × Option Val)} {t : Target} {v : Option Val}

theorem deliverTo_again (ht : t ≠ .none) (h : t ∈ dels.map (·.1)) : deliverTo dels t v = none := by
  have hany : dels.any (·.1 == t) = true := by simpa using h
  cases t <;> first | exact absurd rfl ht | exact if_pos hany
theorem deliverTo_new (h : ∀ u ∈ named [t], u ∉ dels.map (·.1)) :
    deliverTo dels t v = some (dels ++ (named [t]).map fun u => (u, v)) := by
  by_cases ht : t = .none
  · subst ht; exact (congrArg some (List.append_nil dels)).symm
  · have hn : named [t] = [t] := named_cons ht []
    have hnew : t ∉ dels.map (·.1) := h t (by rw [hn]; exact List.mem_singleton_self t)
    have hany : dels.any (·.1 == t) = false := List.any_eq_false.mpr fun d hd e => hnew (List.mem_map.mpr ⟨d, hd, beq_iff_eq.mp e⟩)
    rw [hn]
    cases t <;> first | exact absurd rfl ht | exact if_neg (by rw [hany]; exact Bool.false_ne_true)

end

/-- What a read entry delivers: its slot's value, or with ETEST its X bit (R111). -/
def readVal (s : State) (fp : Nat) (r : RdEntry) : Val :=
  if r.etest then natVal (bnat (slotWord s fp r.slot).x) else ⟨(slotWord s fp r.slot).d, (slotWord s fp r.slot).x⟩
/-- The deliveries of read entries, in their order. -/
def readGives (s : State) (fp : Nat) (l : List RdEntry) : List (Target × Option Val) :=
  l.flatMap fun r => (named [r.t1, r.t2]).map fun t => (t, some (readVal s fp r))

section
variable {s : State} {fp n : Nat} {dels : List (Target × Option Val)} {r : RdEntry} {l : List RdEntry}

theorem readGives_cons : readGives s fp (r :: l) = (named [r.t1, r.t2]).map (fun t => (t, some (readVal s fp r))) ++ readGives s fp l := rfl
theorem map_fst_readGives : (readGives s fp (r :: l)).map (·.1) = named [r.t1, r.t2] ++ (readGives s fp l).map (·.1) := by
  rw [readGives_cons, List.map_append, List.map_map]
  exact congrArg (· ++ _) (List.map_id _)

theorem deliverReads_cons : deliverReads s fp dels n (r :: l) = match deliverTo dels r.t1 (some (readVal s fp r)) with
    | none => .error (0x100 + n, r.t1.code)
    | some d => match deliverTo d r.t2 (some (readVal s fp r)) with
      | none => .error (0x100 + n, r.t2.code + 512)
      | some d => deliverReads s fp d (n + 1) l := rfl
theorem named_pair (t u : Target) : named [t, u] = named [t] ++ named [u] := List.filter_append [t] [u]

/-- Read entries whose targets are all new deliver. -/
theorem deliverReads_append (l' : List RdEntry) (h : (dels.map (·.1) ++ (readGives s fp l).map (·.1)).Nodup) :
    deliverReads s fp dels n (l ++ l') = deliverReads s fp (dels ++ readGives s fp l) (n + l.length) l' := by
  induction l generalizing dels n with
  | nil => exact congrArg (deliverReads s fp · n l') (List.append_nil dels).symm
  | cons r l ih =>
    rw [map_fst_readGives, named_pair] at h
    have h1 : ∀ u ∈ named [r.t1], u ∉ dels.map (·.1) := fun u hu hd => by
      have := List.disjoint_of_nodup_append h hd
      simp [hu] at this
    have h2 : ∀ u ∈ named [r.t2], u ∉ (dels ++ (named [r.t1]).map fun u => (u, some (readVal s fp r))).map (·.1) := fun u hu hd => by
      rw [List.map_append, List.map_map, Function.comp_def, List.map_id', List.mem_append] at hd
      rcases hd with hd | hd
      · have := List.disjoint_of_nodup_append h hd
        simp [hu] at this
      · rw [List.append_assoc] at h
        have := List.disjoint_of_nodup_append h.of_append_right hd
        simp [hu] at this
    rw [List.cons_append, deliverReads_cons, deliverTo_new h1]
    dsimp only
    rw [deliverTo_new h2]
    dsimp only
    rw [List.append_assoc, ← List.map_append, ← named_pair, ih]
    · rw [List.append_assoc, ← readGives_cons, List.length_cons, Nat.add_assoc, Nat.add_comm 1]
    · rw [List.map_append, List.map_map, Function.comp_def, List.map_id', List.append_assoc, named_pair]
      exact h

theorem deliverReads_nil_append (l' : List RdEntry) (h : ((readGives s fp l).map (·.1)).Nodup) :
    deliverReads s fp [] 0 (l ++ l') = deliverReads s fp (readGives s fp l) l.length l' := by
  rw [deliverReads_append (dels := []) l' h, List.nil_append, Nat.zero_add]
theorem deliverReads_ok (h : ((readGives s fp l).map (·.1)).Nodup) : deliverReads s fp [] 0 l = .ok (readGives s fp l) := by
  exact (congrArg _ (List.append_nil l).symm).trans (deliverReads_nil_append [] h)
/-- A second delivery by TGT1 of a read entry. -/
theorem deliverReads_again_t1 (h : ((readGives s fp l).map (·.1)).Nodup) (l' : List RdEntry) (ht : r.t1 ≠ .none)
    (hr : r.t1 ∈ (readGives s fp l).map (·.1)) : deliverReads s fp [] 0 (l ++ r :: l') = .error (0x100 + l.length, r.t1.code) := by
  rw [deliverReads_nil_append _ h, deliverReads_cons, deliverTo_again ht hr]
/-- A second delivery by TGT2 of a read entry. -/
theorem deliverReads_again_t2 (h : ((readGives s fp l).map (·.1)).Nodup) (l' : List RdEntry) (h1 : r.t1 ∉ (readGives s fp l).map (·.1))
    (ht : r.t2 ≠ .none) (hr : r.t2 ∈ r.t1 :: (readGives s fp l).map (·.1)) :
    deliverReads s fp [] 0 (l ++ r :: l') = .error (0x100 + l.length, r.t2.code + 2 ^ 9) := by
  have hnew : ∀ u ∈ named [r.t1], u ∉ (readGives s fp l).map (·.1) := fun u hu => by
    obtain rfl : u = r.t1 := List.mem_singleton.mp (List.mem_filter.mp hu).1
    exact h1
  have hmem : r.t2 ∈ (readGives s fp l ++ (named [r.t1]).map fun u => (u, some (readVal s fp r))).map (·.1) := by
    rw [List.map_append, List.map_map, Function.comp_def, List.map_id', List.mem_append]
    rcases List.mem_cons.mp hr with e | hd
    · exact .inr (by rw [named_cons (e ▸ ht), e]; exact List.mem_cons_self)
    · exact .inl hd
  rw [deliverReads_nil_append _ h, deliverReads_cons, deliverTo_new hnew]
  dsimp only
  rw [deliverTo_again ht hmem]
  rfl

/-- The read entries' deliveries depend on the slots that they name alone. -/
theorem deliverReads_congr {s' : State} (h : ∀ r ∈ l, slotWord s' fp r.slot = slotWord s fp r.slot) :
    deliverReads s' fp dels n l = deliverReads s fp dels n l := by
  induction l generalizing dels n with
  | nil => rfl
  | cons r l ih =>
    have hr : readVal s' fp r = readVal s fp r := by rw [readVal, readVal, h r List.mem_cons_self]
    rw [deliverReads_cons, deliverReads_cons, hr]
    cases deliverTo dels r.t1 (some (readVal s fp r)) with
    | none => rfl
    | some d =>
      dsimp only
      cases deliverTo d r.t2 (some (readVal s fp r)) with
      | none => rfl
      | some d => exact ih fun r hr => h r (List.mem_cons_of_mem _ hr)

end

/-! ## A firing starts -/

/-- A state in which a frame runs in a block slot of core c: the core's serial number is used up, the frame is RUNNING. -/
def started (s : State) (c fp : Nat) : State :=
  let base := bits (s.core c).frameBase.toNat 16 0
  setFrameState (s.modCore c fun co => { co with
    ser := (s.core c).ser + 1, busy := co.busy ||| 4, tfresh := co.tfresh.filter fun k => base + 32 * k != fpWord fp }) fp stRunning
/-- The firing of a frame as it starts. -/
def newFiring (s : State) (c fp arr addr : Nat) (b : Blk) : Firing :=
  let t := started s c fp
  { fp, task := frameTask s fp, ser := (s.core c).ser, addr, hdr := b.hdr, reads := b.reads.map parseRd, writes := b.writes.map parseWr
    code := b.code, size := frameSize t fp, cls := frameClass t fp, arr
    start := coreCclk t c + 2 + (16 + 4 * (b.reads.length + b.writes.length + b.code.length) + 63) / 64 }

section
variable {s : State} {c k fp arr : Nat} {t : Task} {b : Blk}

theorem length_slots_started : ((started s c fp).core c).slots.length = (s.core c).slots.length := by
  obtain ⟨w, hw⟩ := (frameWrites_setFrameState _ fp stRunning).core c (s := s.modCore c fun co => { co with
    ser := (s.core c).ser + 1, busy := co.busy ||| 4, tfresh := co.tfresh.filter fun k => bits (s.core c).frameBase.toNat 16 0 + 32 * k != fpWord fp })
  rw [started, hw, State.core_modCore_self]
theorem slotWord_started (hs : Safe s) {n : Nat} (hn : n < 2 ^ 20) : slotWord (started s c fp) fp n = slotWord s fp n :=
  slotWord_setHdr (s := s.modCore c _) hs (by decide) hn _
theorem slot_parseRd_lt (w : Nat) : (parseRd w).slot < 128 := Nat.mod_lt _ (by decide)

theorem deliverReads_started (hs : Safe s) :
    deliverReads (started s c fp) fp [] 0 (b.reads.map parseRd) = deliverReads s fp [] 0 (b.reads.map parseRd) :=
  deliverReads_congr fun r hr => slotWord_started hs (by
    obtain ⟨w, -, rfl⟩ := List.mem_map.mp hr
    exact (slot_parseRd_lt w).trans (by decide))

section
variable (ht : taskOf (s.core c) (frameTask s fp) = some t) (hf : isFresh s fp = false) (hb : fetchBlock s c t.addr = b) (hbad : b.bad = [])
include ht hf hb hbad

theorem startFiring_eq : startFiring s c k fp arr =
      let f := newFiring s c fp arr t.addr b
      match blockCheck (s.core c) b (frameTask s fp) with
      | some (p, e) => takeTrap (setFiring (started s c fp) c k (some f)) c k { cause := if e = .opcode then 0x01 else 0x02, pos := p, w5 := e.code }
      | none => match deliverReads (started s c fp) fp [] 0 f.reads with
        | .error (p, w5) => takeTrap (setFiring (started s c fp) c k (some f)) c k { cause := 0x07, pos := p, w5 }
        | .ok dels => setFiring (started s c fp) c k (some { f with dels }) := by
  simp only [startFiring, ht, hf, hb, hbad, Option.isNone_some, Bool.false_eq_true, if_false, List.foldl_nil]
  rfl

theorem startFiring_of_illegal {p : Nat} {e : Check} (hchk : blockCheck (s.core c) b (frameTask s fp) = some (p, e)) :
    startFiring s c k fp arr = takeTrap (setFiring (started s c fp) c k (some (newFiring s c fp arr t.addr b))) c k
      { cause := if e = .opcode then 0x01 else 0x02, pos := p, w5 := e.code } := by
  rw [startFiring_eq ht hf hb hbad, hchk]
theorem startFiring_of_second (hs : Safe s) (hchk : blockCheck (s.core c) b (frameTask s fp) = none) {p w5 : Nat}
    (hr : deliverReads s fp [] 0 (b.reads.map parseRd) = .error (p, w5)) : startFiring s c k fp arr =
      takeTrap (setFiring (started s c fp) c k (some (newFiring s c fp arr t.addr b))) c k { cause := 0x07, pos := p, w5 } := by
  rw [startFiring_eq ht hf hb hbad, hchk]
  dsimp only [newFiring]
  rw [deliverReads_started hs, hr]
theorem startFiring_of_ok (hs : Safe s) (hchk : blockCheck (s.core c) b (frameTask s fp) = none) {dels : List (Target × Option Val)}
    (hr : deliverReads s fp [] 0 (b.reads.map parseRd) = .ok dels) : startFiring s c k fp arr =
      setFiring (started s c fp) c k (some { newFiring s c fp arr t.addr b with dels }) := by
  rw [startFiring_eq ht hf hb hbad, hchk]
  dsimp only [newFiring]
  rw [deliverReads_started hs, hr]

end

theorem setNth_eq_set {α : Type} (l : List α) (n : Nat) (a : α) : setNth l n a = l.set n a := by
  induction l generalizing n with
  | nil => rfl
  | cons b l ih => cases n <;> simp [setNth, ih]
theorem firingAt_setFiring (hk : k < (s.core c).slots.length) (o : Option Firing) : firingAt (setFiring s c k o) c k = o := by
  simp only [firingAt, setFiring, State.core_modCore_self, setNth_eq_set, nthD_eq, List.getElem?_set_self hk, Option.getD_some]

/-- The frame fp runs in block slot k of core c, its firing not yet executed or held anything, and P says what else holds. -/
def Starts (s : State) (c k fp : Nat) (b : Blk) (P : State → Firing → Prop) : Prop :=
  ∃ u g, firingAt u c k = some g ∧ frameState u fp = 3 ∧ (∀ a, outside (hdrKey fp 0) 8 a → memGet u.mem a = memGet s.mem a) ∧ u.net = s.net ∧
    g.fp = fp ∧ g.task = frameTask s fp ∧ g.code = b.code ∧ g.reads = b.reads.map parseRd ∧ g.writes = b.writes.map parseWr ∧ g.done = [] ∧
    g.outs = [] ∧ g.phase = .running ∧ g.exit = none ∧ g.take = none ∧ P u g
theorem frameState_started (hs : Safe s) : frameState (started s c fp) fp = 3 := frameState_setFrameState (s := s.modCore c _) hs fp _
theorem memGet_started (hs : Safe s) {a : Nat} (ha : outside (hdrKey fp 0) 8 a) : memGet (started s c fp).mem a = memGet s.mem a :=
  memGet_setHdr (s := s.modCore c _) hs _ ha
theorem starts_of {addr : Nat} {P : State → Firing → Prop} (hs : Safe s) (hk : k < (s.core c).slots.length) (dels : List (Target × Option Val))
    (hP : P (setFiring (started s c fp) c k (some { newFiring s c fp arr addr b with dels })) { newFiring s c fp arr addr b with dels }) :
    Starts s c k fp b P :=
  ⟨setFiring (started s c fp) c k (some { newFiring s c fp arr addr b with dels }), { newFiring s c fp arr addr b with dels },
    firingAt_setFiring (by rw [length_slots_started]; exact hk) _, frameState_started hs, fun _ ha => memGet_started hs ha,
    rfl, rfl, rfl, rfl, rfl, rfl, rfl, rfl, rfl, rfl, rfl, hP⟩

end

/-- Settles O38: the block check part by part, then the start of a firing by the check's answer and by its read entries. -/
theorem blockCheckAndReadEntries : Obligations.BlockCheckAndReadEntries := by
  refine ⟨fun co b task hb => ?_, fun s c k fp arr t b hs hc hk ht hf hfetch hbad => ?_⟩
  · refine ⟨fun h => ?_, fun h1 h2 => ?_, fun h1 h2 h3 => ?_, fun h1 h2 h3 => ?_, fun w => ?_, fun k n w ws hws => ?_, fun k => ?_⟩
    · exact blockCheck_header hb (by rw [checkHeader_eq, if_pos h])
    · exact blockCheck_header hb (by rw [checkHeader_eq, if_neg (not_not.mpr h1), if_pos h2])
    · exact blockCheck_header hb (by rw [checkHeader_eq, if_neg (not_not.mpr h1), if_neg h2, if_pos h3])
    · have hH : checkHeader b.hdr b.raw task = none := by
        rw [checkHeader_eq, if_neg (not_not.mpr h1), if_neg h2, if_neg (not_not.mpr h3)]
      have heq := blockCheck_of_header (co := co) hb hH
      refine ⟨fun j w e hj hw hbefore => ?_, fun hr => ⟨fun j w e hj hw hbefore => ?_, fun hw => ⟨fun pre d post e hl hpre hd => ?_, fun hpass => ?_⟩⟩⟩
      · rw [heq, firstAt_of_fail _ _ j w hj hw hbefore]; rfl
      · rw [heq, firstAt_of_none _ _ hr, firstAt_of_fail _ _ j w hj hw hbefore]; rfl
      · rw [heq, firstAt_of_none _ _ hr, firstAt_of_none _ _ hw, hl, checkInsns_append hpre]
        exact checkInsns_fail hd post
      · rw [heq, firstAt_of_none _ _ hr, firstAt_of_none _ _ hw]
        exact checkInsns_pass hpass
    · refine ⟨fun h => ?_, fun h1 h2 => ?_, fun h1 h2 => ⟨fun e he => ?_, fun hn => ?_⟩, fun h => ?_, fun h => ?_⟩
      · rw [checkRd_eq, if_pos h]
      · rw [checkRd_eq, if_neg (not_not.mpr h1), if_pos h2]
      · rw [checkRd_eq, if_neg (not_not.mpr h1), if_neg (Nat.not_le.mpr h2), he]; rfl
      · rw [checkRd_eq, if_neg (not_not.mpr h1), if_neg (Nat.not_le.mpr h2), hn]; rfl
      · rw [checkWr_eq, if_pos h]
      · rw [checkWr_eq, if_neg (not_not.mpr h)]
    · refine ⟨fun e he => checkInsn_of_error he, fun i hi hsends hengs htakes hexits => ?_⟩
      obtain ⟨h1, h2, h3, h4, h5⟩ := checkInsn_of_ok_cases (co := co) (ps := positions b.code) (n := n) hi hsends hengs htakes hexits
      exact ⟨h1, h2, h3, h4, h5, checkInsn_of_ok_counts hi⟩
    · exact ⟨rfl, checkTarget_write, fun n t' ht' => ⟨checkTarget_of_range ht', checkTarget_of_backward ht',
        fun hn hk => ⟨fun x y p => checkTarget_first hn hk, fun x => checkTarget_second hn hk⟩⟩⟩
  · refine ⟨fun p e hchk => starts_of hs hk [] (startFiring_of_illegal ht hf hfetch hbad hchk), fun hchk => ?_⟩
    refine ⟨fun hnd => starts_of hs hk _ ⟨startFiring_of_ok ht hf hfetch hbad hs hchk (deliverReads_ok hnd), rfl⟩,
      fun pre r post hl hnd => ⟨fun h1 h2 => starts_of hs hk [] (startFiring_of_second ht hf hfetch hbad hs hchk ?_),
        fun h1 h2 h3 => starts_of hs hk [] (startFiring_of_second ht hf hfetch hbad hs hchk ?_)⟩⟩
    · rw [hl]; exact deliverReads_again_t1 hnd post h1 h2
    · rw [hl]; exact deliverReads_again_t2 hnd post h1 h2 h3

end Sys2Proof.Safety
end

section
/-! PROOFS. Outputs in their order: what sorting by a key leaves, and steps 3 to 5 of a commit (R63, R106, R117). -/

namespace Sys2Proof.Safety

open Sys2Proof.Machine

/-! ## Sorting by a key -/

section
variable {α : Type} (key : α → Nat)

theorem insertBy_perm (a : α) (l : List α) : (insertBy key a l).Perm (a :: l) := by
  induction l with
  | nil => exact .refl _
  | cons b l ih =>
    rw [insertBy]
    split
    · exact .refl _
    · exact (ih.cons b).trans (.swap a b l)
theorem insertBy_sorted (a : α) {l : List α} (h : l.Pairwise fun x y => key x ≤ key y) :
    (insertBy key a l).Pairwise fun x y => key x ≤ key y := by
  induction l with
  | nil => exact List.pairwise_singleton _ a
  | cons b l ih =>
    obtain ⟨hb, hl⟩ := List.pairwise_cons.mp h
    rw [insertBy]
    split
    · next hab => exact List.pairwise_cons.mpr ⟨fun x hx => (List.mem_cons.mp hx).elim (fun e => e ▸ hab.le) fun hx => hab.le.trans (hb x hx), h⟩
    · next hab =>
      refine List.pairwise_cons.mpr ⟨fun x hx => ?_, ih hl⟩
      rcases List.mem_cons.mp ((insertBy_perm key a l).mem_iff.mp hx) with rfl | hx
      · exact Nat.le_of_not_lt hab
      · exact hb x hx
theorem sortBy_append (l : List α) (a : α) : sortBy key (l ++ [a]) = insertBy key a (sortBy key l) := List.foldl_append
theorem sortBy_perm (l : List α) : (sortBy key l).Perm l := by
  induction l using List.reverseRecOn with
  | nil => exact .refl _
  | append_singleton l a ih =>
    rw [sortBy_append]
    exact (insertBy_perm key a _).trans ((ih.cons a).trans (List.perm_append_singleton a l).symm)
theorem sortBy_sorted (l : List α) : (sortBy key l).Pairwise fun x y => key x ≤ key y := by
  induction l using List.reverseRecOn with
  | nil => exact .nil
  | append_singleton l a ih =>
    rw [sortBy_append]
    exact insertBy_sorted key a ih

end

/-! ## Step 3 -/

/-- The place of a memory operation or a fence in its commit: LSID and index. -/
def memPlace : Out → Option (Nat × Nat)
  | .mem l i _ => some (l, i)
  | .fence l i _ => some (l, i)
  | _ => none
/-- The key by which step 3 takes its outputs. -/
def memKey (o : Out) : Nat := ((memPlace o).map fun p => p.1 * 256 + p.2).getD 0

section
variable {s : State} {c k : Nat} {f : Firing}

theorem memOuts_eq (f : Firing) : memOuts f = sortBy memKey (f.outs.filter fun o => (memPlace o).isSome) := by
  have hkey : (fun o => match o with | .mem l i _ => l * 256 + i | .fence l i _ => l * 256 + i | _ => 0) = memKey :=
    funext fun o => by cases o <;> rfl
  have hsel : (fun o => match o with | Out.mem .. => true | .fence .. => true | _ => false) = fun o => (memPlace o).isSome :=
    funext fun o => by cases o <;> rfl
  exact congrArg₂ sortBy hkey (congrArg (List.filter · f.outs) hsel)
theorem memOuts_perm (f : Firing) : (memOuts f).Perm (f.outs.filter fun o => (memPlace o).isSome) := by
  rw [memOuts_eq]
  exact sortBy_perm _ _
theorem memOuts_sorted (h : ∀ o ∈ f.outs, ∀ p, memPlace o = some p → p.2 < 256) : (memOuts f).Pairwise fun a b =>
    ∀ p q, memPlace a = some p → memPlace b = some q → p.1 < q.1 ∨ (p.1 = q.1 ∧ p.2 ≤ q.2) := by
  have hmem (o : Out) (ho : o ∈ memOuts f) : o ∈ f.outs := (List.mem_filter.mp ((memOuts_perm f).mem_iff.mp ho)).1
  have hsort : (memOuts f).Pairwise fun a b => memKey a ≤ memKey b := by rw [memOuts_eq]; exact sortBy_sorted _ _
  refine hsort.imp_of_mem fun {a b} ha hb hab p q hp hq => ?_
  have h1 := h a (hmem a ha) p hp
  have h2 := h b (hmem b hb) q hq
  simp only [memKey, hp, hq, Option.map_some, Option.getD_some] at hab
  omega

theorem issueMem_cases (s : State) {a : Access} (ha : a.op ≠ .pref) :
    issueMem s a = s.send (.access a) ∨ (ownNow s a = true ∧ issueMem s a = homeAccess s a) := by
  unfold issueMem
  split
  · next h => exact absurd h ha
  · cases ownNow s a
    · exact .inl rfl
    · cases Config.slow s.draws
      · exact .inr ⟨rfl, rfl⟩
      · exact .inl rfl

theorem commitFrom3_done {n : Nat} {e : Instr} {outs : List Out} {u : State} (he : f.exit = some (n, e))
    (h : step3 s c f.ser outs = (u, none)) : commitFrom3 s c k f outs = commitRest u c k f e := by
  simp only [commitFrom3, he, h]
theorem commitFrom3_fencing {n : Nat} {e : Instr} {outs : List Out} {u : State} {sc : Scope} {rest : List Out} (he : f.exit = some (n, e))
    (h : step3 s c f.ser outs = (u, some (sc, rest))) :
    commitFrom3 s c k f outs = setFiring u c k (some { f with phase := .fencing sc rest }) := by
  simp only [commitFrom3, he, h]

/-! ## Step 4 -/

theorem commitToken_away {t : Token} (h : fpCore t.fp ≠ c) : commitToken s c t = s.send (.token t) := if_neg h

/-- A SEND to another core leaves as a token. -/
theorem step4One_send {p : Pred} {sl : BitVec 7} {n : Nat} {r : Released} {sec : Option Nat} (hr : r.i = .send p sl)
    (hc : fpCore (opn r.ops 0).nat ≠ c) : step4One s c f sec (.rel n r) = (s.modCore c fun co => { co with rels := (s.core c).rels + 1 }).send
      (.token { fp := (opn r.ops 0).nat, slot := sl.toNat, v := (opn r.ops 1).norm, src := some c }) := by
  simp only [step4One, releaseOne, hr]
  exact commitToken_away hc
theorem step4One_sendx {p : Pred} {sl : BitVec 7} {n : Nat} {r : Released} {sec : Option Nat} (hr : r.i = .sendx p sl)
    (hc : fpCore (opn r.ops 0).nat ≠ c) : step4One s c f sec (.rel n r) = (s.modCore c fun co => { co with rels := (s.core c).rels + 1 }).send
      (.token { fp := (opn r.ops 0).nat, slot := sl.toNat, v := ⟨(opn r.ops 1).norm.d, true⟩, src := some c }) := by
  simp only [step4One, releaseOne, hr]
  exact commitToken_away hc
theorem step4One_sendi {p : Pred} {n : Nat} {r : Released} {sec : Option Nat} (hr : r.i = .sendi p) (hs : (opn r.ops 2).nat < 128)
    (hc : fpCore (opn r.ops 0).nat ≠ c) : step4One s c f sec (.rel n r) = (s.modCore c fun co => { co with rels := (s.core c).rels + 1 }).send
      (.token { fp := (opn r.ops 0).nat, slot := (opn r.ops 2).nat, v := (opn r.ops 1).norm, src := some c }) := by
  simp only [step4One, releaseOne, hr]
  exact (if_neg (Nat.not_le.mpr hs)).trans (commitToken_away hc)

/-! ## Step 5 -/

/-- The place of an STFX in its commit: index, slot and value. -/
def stfxPlace : Out → Option (Nat × Nat × Val)
  | .stfx i n v => some (i, n, v)
  | _ => none
/-- A slot written in FILL mode on its own core (R63): the slots written so far beside the state. -/
def fillOwn (c : Nat) (f : Firing) (u : State × List Nat) (n : Nat) (v : Val) : State × List Nat :=
  if (slotWord u.1 f.fp n).f = false ∨ (n ∈ consumed f ∧ n ∉ u.2) then (setSlot u.1 f.fp n v, n :: u.2)
  else (ownToken u.1 c { fp := f.fp, slot := n, v, src := some c }, u.2)

theorem fillSlot_eq (hc : fpCore f.fp = c) (u : State × List Nat) (n : Nat) (v : Val) : fillSlot f.fp (consumed f) u n v = fillOwn c f u n v := by
  simp only [fillSlot, fillOwn, hc, Bool.or_eq_true, Bool.and_eq_true, Bool.not_eq_true',
    List.elem_eq_mem, decide_eq_true_eq, decide_eq_false_iff_not]

/-- What step 5 does for one write entry. -/
def writeEntry (f : Firing) (a : (State × List Nat) × Nat) (w : WrEntry) : (State × List Nat) × Nat :=
  match delAt f (entryTarget a.2) with
  | some (some v) => (if w.ovr then (setSlot a.1.1 f.fp w.slot v, w.slot :: a.1.2) else fillSlot f.fp (consumed f) a.1 w.slot v, a.2 + 1)
  | _ => (a.1, a.2 + 1)
theorem step5_eq (s : State) (f : Firing) : step5 s f =
    (stfxOuts f).foldl (fun st e => fillSlot f.fp (consumed f) st e.1 e.2) (f.writes.foldl (writeEntry f) ((s, []), 0)).1 := rfl

theorem writeEntry_snd (a : (State × List Nat) × Nat) (w : WrEntry) : (writeEntry f a w).2 = a.2 + 1 := by
  unfold writeEntry
  split <;> rfl
theorem foldl_writeEntry_snd (ws : List WrEntry) (a : (State × List Nat) × Nat) : (ws.foldl (writeEntry f) a).2 = a.2 + ws.length := by
  induction ws generalizing a with
  | nil => rfl
  | cons w ws ih => rw [List.foldl_cons, ih, writeEntry_snd, List.length_cons, Nat.add_assoc, Nat.add_comm 1]

theorem stfxOuts_eq (f : Firing) : ∃ key : Out → Nat, (∀ o p, stfxPlace o = some p → key o = p.1) ∧
    stfxOuts f = (sortBy key f.outs).filterMap fun o => (stfxPlace o).map (·.2) := by
  refine ⟨fun o => ((stfxPlace o).map (·.1)).getD 0, fun o p h => by simp [h], ?_⟩
  have hkey : (fun o => match o with | .stfx i _ _ => i | _ => 0) = fun o => ((stfxPlace o).map (·.1)).getD 0 :=
    funext fun o => by cases o <;> rfl
  have hsel : (fun o => match o with | .stfx _ n v => some (n, v) | _ => none) = fun o => (stfxPlace o).map (·.2) :=
    funext fun o => by cases o <;> rfl
  exact congrArg₂ List.filterMap hsel (congrArg (sortBy · f.outs) hkey)
theorem stfxOuts_nil (h : ∀ o ∈ f.outs, stfxPlace o = none) : stfxOuts f = [] := by
  obtain ⟨key, -, hk⟩ := stfxOuts_eq f
  rw [hk, List.filterMap_eq_nil_iff]
  exact fun o ho => by rw [h o ((sortBy_perm key _).mem_iff.mp ho)]; rfl
/-- The STFX outputs by index. -/
theorem stfxOuts_sorted (f : Firing) : ∃ os : List Out, os.Perm (f.outs.filter fun o => (stfxPlace o).isSome) ∧
    (os.Pairwise fun a b => ∀ p q, stfxPlace a = some p → stfxPlace b = some q → p.1 ≤ q.1) ∧
    stfxOuts f = os.filterMap fun o => (stfxPlace o).map (·.2) := by
  obtain ⟨key, hkey, hk⟩ := stfxOuts_eq f
  refine ⟨(sortBy key f.outs).filter fun o => (stfxPlace o).isSome, (sortBy_perm key _).filter _, ?_, ?_⟩
  · refine ((sortBy_sorted key f.outs).filter _).imp fun {a b} hab p q hp hq => ?_
    rw [← hkey a p hp, ← hkey b q hq]
    exact hab
  · rw [hk, List.filterMap_filter]
    refine congrArg (List.filterMap · _) (funext fun o => ?_)
    cases stfxPlace o <;> rfl

/-- Step 5 with one more write entry, when no STFX follows. -/
theorem step5_append_write (hc : fpCore f.fp = c) {ws : List WrEntry} {w : WrEntry} (hw : f.writes = ws ++ [w]) (h : ∀ o ∈ f.outs, stfxPlace o = none) :
    let u := step5 s { f with writes := ws }
    (∀ v, delAt f (entryTarget ws.length) = some (some v) →
      step5 s f = if w.ovr then (setSlot u.1 f.fp w.slot v, w.slot :: u.2) else fillOwn c f u w.slot v) ∧
    ((delAt f (entryTarget ws.length)).getD none = none → step5 s f = u) := by
  have hu : step5 s { f with writes := ws } = (ws.foldl (writeEntry f) ((s, []), 0)).1 := by
    rw [step5_eq, stfxOuts_nil (f := { f with writes := ws }) h]; rfl
  have hs : step5 s f = (writeEntry f (ws.foldl (writeEntry f) ((s, []), 0)) w).1 := by
    rw [step5_eq, stfxOuts_nil h, hw, List.foldl_append]; rfl
  have hn : (ws.foldl (writeEntry f) ((s, []), 0)).2 = ws.length := (foldl_writeEntry_snd ws _).trans (Nat.zero_add _)
  refine ⟨fun v hv => ?_, fun hv => ?_⟩
  · rw [hs, hu, writeEntry, hn, hv, ← fillSlot_eq hc]
  · rw [hs, hu, writeEntry, hn]
    cases hd : delAt f (entryTarget ws.length) with
    | none => rfl
    | some o => rw [hd, Option.getD_some] at hv; rw [hv]
theorem step5_nil (hw : f.writes = []) (h : ∀ o ∈ f.outs, stfxPlace o = none) : step5 s f = (s, []) := by
  rw [step5_eq, stfxOuts_nil h, hw]; rfl
/-- Step 5 with one more STFX. -/
theorem step5_append_stfx {g : Firing} (hc : fpCore f.fp = c) {l : List (Nat × Val)} {n : Nat} {v : Val} (hf : stfxOuts f = l ++ [(n, v)])
    (hg : stfxOuts g = l) (hw : g.writes = f.writes) (hr : g.reads = f.reads) (hd : g.dels = f.dels) (hp : g.fp = f.fp) :
    step5 s f = fillOwn c f (step5 s g) n v := by
  have hcon : consumed g = consumed f := by rw [consumed, hr]; rfl
  have hone : writeEntry g = writeEntry f := by funext a w; simp only [writeEntry, delAt, hd, hp, hcon]
  rw [step5_eq, step5_eq, hf, hg, List.foldl_append, hw, hone, hcon, hp]
  exact fillSlot_eq hc _ n v

theorem ownToken_deliver {t : Token} (hroom : tbufRoom (s.core c) 1 = true) (hport : portBusy s c = false) : ownToken s c t = deliver s t := by
  simp only [ownToken, hroom, hport, Bool.not_false, Bool.and_self, if_true]

end

end Sys2Proof.Safety
end

section
/-! PROOFS. Steps 6 and 7 of a commit for a frame that stays (R62, R121): slots that go empty, the frame's task and its LOOP. -/

namespace Sys2Proof.Safety

open Sys2Proof.Machine

/-! ## Slots written and emptied -/

section
variable {s : State} {fp n m : ℕ}

theorem setSlot_safe (hs : Safe s) (v : Val) : Safe (setSlot s fp n v) := putWord_wf hs _ _
theorem clearSlot_safe (hs : Safe s) : Safe (clearSlot s fp n) := setTags_wf hs _ _ _
theorem frameWrites_clearSlot (s : State) (fp n : ℕ) : FrameWrites s (clearSlot s fp n) := frameWrites_setMem s _

theorem slotWord_setSlot (hs : Safe s) (hn : n < 2 ^ 20) (hm : m < 2 ^ 20) (v : Val) :
    slotWord (setSlot s fp n v) fp m = if m = n then ⟨v.d, true, v.x⟩ else slotWord s fp m := by
  unfold slotWord setSlot
  split
  · next h => subst h; exact getWord_putWord_self hs (isWord_slotKey hm) _
  · next h => exact getWord_putWord_ne hs (isWord_slotKey hn) (isWord_slotKey hm) (mt slotKey_inj.mp h) _
theorem hdr_setSlot (hs : Safe s) (hn : n < 2 ^ 20) {k : ℕ} (hk : k < 4) (v : Val) : hdr (setSlot s fp n v) fp k = hdr s fp k := by
  rw [hdr_eq, hdr_eq, setSlot, State.setMem_mem, getWord_putWord_ne hs (isWord_slotKey hn) (isWord_hdrKey hk) (slotKey_ne_hdrKey hk).symm]

theorem slotWord_clearSlot (hs : Safe s) (hn : n < 2 ^ 20) (hm : m < 2 ^ 20) :
    slotWord (clearSlot s fp n) fp m = if m = n then { slotWord s fp m with f := false } else slotWord s fp m := by
  obtain ⟨hn8, hnlt⟩ := isWord_slotKey (fp := fp) hn
  obtain ⟨hm8, hmlt⟩ := isWord_slotKey (fp := fp) hm
  have hd : memNat (clearSlot s fp n).mem (slotKey fp m) 8 = memNat s.mem (slotKey fp m) 8 :=
    memNat_congr _ _ fun b _ hb => memGet_setTags_data hs _ _ _ _ (by unfold tagKey; omega)
  unfold slotWord getWord
  rw [hd, clearSlot, State.setMem_mem, keyF_setTags hs, keyX_setTags hs]
  by_cases h : m = n
  · subst h; simp only [if_true]
  · have hne : slotKey fp m ≠ slotKey fp n := mt slotKey_inj.mp h
    have hdiv : ¬ slotKey fp m / 8 = slotKey fp n / 8 := by omega
    rw [if_neg hdiv, if_neg hdiv, if_neg h]

theorem consumeSlots_cons (s : State) (fp n : ℕ) (l : List ℕ) : consumeSlots s fp (n :: l) = consumeSlots (clearSlot s fp n) fp l := rfl
theorem frameWrites_consumeSlots (s : State) (fp : ℕ) (l : List ℕ) : FrameWrites s (consumeSlots s fp l) := by
  induction l generalizing s with
  | nil => exact .refl s
  | cons n l ih => exact (frameWrites_clearSlot s fp n).trans (ih _)
theorem slotWord_consumeSlots (hs : Safe s) {l : List ℕ} (hl : ∀ m ∈ l, m < 2 ^ 20) (hn : n < 2 ^ 20) :
    slotWord (consumeSlots s fp l) fp n = if n ∈ l then { slotWord s fp n with f := false } else slotWord s fp n := by
  induction l generalizing s with
  | nil => exact (if_neg List.not_mem_nil).symm
  | cons m l ih =>
    rw [consumeSlots_cons, ih (clearSlot_safe hs) fun k hk => hl k (List.mem_cons_of_mem m hk), slotWord_clearSlot hs (hl m List.mem_cons_self) hn]
    by_cases hnm : n = m <;> by_cases hnl : n ∈ l <;> simp [hnm, hnl]

end

/-! ## Step 7 for a frame that stays -/

section
variable {s : State} {fp : ℕ}

/-- LOOP stands above NODE in the last header word (R104). -/
theorem hdr_bumpLoop (hs : Safe s) : hdr (bumpLoop s fp) fp 3 = (hdr s fp 3 / 2 ^ 20 + 1) % 2 ^ 44 * 2 ^ 20 + hdr s fp 3 % 2 ^ 20 := by
  rw [bumpLoop, hdr_setHdr_self hs (by decide)]
  exact Nat.mod_eq_of_lt (by omega)
theorem hdr_bumpLoop_ne (hs : Safe s) {k : ℕ} (hk : k < 3) : hdr (bumpLoop s fp) fp k = hdr s fp k :=
  hdr_setHdr_ne hs (by decide) (by omega) (by omega) _

theorem frameWrites_bumpLoop (s : State) (fp : ℕ) : FrameWrites s (bumpLoop s fp) := frameWrites_setHdr s fp 3 _
theorem bumpLoop_safe (hs : Safe s) : Safe (bumpLoop s fp) := setHdr_safe hs _

theorem hdr_setFrameState_ne (hs : Safe s) {k : ℕ} (hk : k < 4) (h0 : k ≠ 0) (st : ℕ) : hdr (setFrameState s fp st) fp k = hdr s fp k :=
  hdr_setHdr_ne hs (by decide) hk h0 _
theorem frameTask_setFrameState (hs : Safe s) (st : ℕ) : frameTask (setFrameState s fp st) fp = frameTask s fp := by
  rw [frameTask, setFrameState, hdr_noteWait, hdr_setHdr_self hs (by decide), bits_mod_two_pow (by decide) _ (by decide),
    bits_setBits_of_disjoint _ _ (by decide) (.inl (by decide)), frameTask]
theorem frameSize_setFrameState (hs : Safe s) (st : ℕ) : frameSize (setFrameState s fp st) fp = frameSize s fp := by
  rw [frameSize, setFrameState, hdr_noteWait, hdr_setHdr_self hs (by decide), bits_mod_two_pow (by decide) _ (by decide),
    bits_setBits_of_disjoint _ _ (by decide) (.inr (by decide)), frameSize]

/-- What a frame that stays goes on with. -/
structure StaysWith (s u : State) (fp task loop node : ℕ) : Prop where
  state : frameState u fp = 1
  task : frameTask u fp = task
  loop : hdr u fp 3 = loop * 2 ^ 20 + node
  size : frameSize u fp = frameSize s fp

theorem staysWith_waiting {t : State} (ht : Safe t) {task loop node : ℕ} (htask : frameTask t fp = task) (hloop : hdr t fp 3 = loop * 2 ^ 20 + node)
    (hsize : frameSize t fp = frameSize s fp) : StaysWith s (setFrameState t fp stWaiting) fp task loop node :=
  ⟨frameState_setFrameState ht fp 1, (frameTask_setFrameState ht _).trans htask, (hdr_setFrameState_ne ht (by decide) (by decide) _).trans hloop,
    (frameSize_setFrameState ht _).trans hsize⟩

theorem exitFrame_keep (hs : Safe s) (p : Pred) :
    StaysWith s (exitFrame s fp (.broKeep p)) fp (frameTask s fp) (hdr s fp 3 / 2 ^ 20) (hdr s fp 3 % 2 ^ 20) :=
  staysWith_waiting hs rfl (by omega) rfl
theorem exitFrame_rearm (hs : Safe s) (p : Pred) :
    StaysWith s (exitFrame s fp (.broRearm p)) fp (frameTask s fp) ((hdr s fp 3 / 2 ^ 20 + 1) % 2 ^ 44) (hdr s fp 3 % 2 ^ 20) := by
  refine staysWith_waiting (t := bumpLoop s fp) (bumpLoop_safe hs) ?_ (hdr_bumpLoop hs) ?_
  · rw [frameTask, hdr_bumpLoop_ne hs (by decide), frameTask]
  · rw [frameSize, hdr_bumpLoop_ne hs (by decide), frameSize]

theorem taskBlk_node_lt {c task : ℕ} {b : Blk} (h : taskBlk s c task = some b) : b.hdr.node < 2 ^ 20 := by
  obtain ⟨t, -, rfl⟩ := Option.map_eq_some_iff.mp h
  exact Nat.mod_lt _ (by decide)

/-- The NODE of a task's block, zero for a task that the image does not list. -/
def taskNode (s : State) (c task : ℕ) : ℕ := match taskBlk s c task with | some b => b.hdr.node | none => 0
theorem taskNode_lt (s : State) (c task : ℕ) : taskNode s c task < 2 ^ 20 := by
  unfold taskNode
  split
  · next h => exact taskBlk_node_lt h
  · decide

theorem exitFrame_cont (hs : Safe s) (p : Pred) (t : BitVec 16) : StaysWith s (exitFrame s fp (.broCont p t)) fp t.toNat
    (if t.toNat = frameTask s fp then (hdr s fp 3 / 2 ^ 20 + 1) % 2 ^ 44 else 0) (taskNode s (fpCore fp) t.toNat) := by
  have hnode := taskNode_lt s (fpCore fp) t.toNat
  -- LOOP is counted or cleared first, NODE is the new task's then, and the task is written last
  let s1 := if frameTask s fp == t.toNat then bumpLoop s fp else setHdr s fp 3 0
  let s2 := setHdr s1 fp 3 (hdr s1 fp 3 / 2 ^ 20 * 2 ^ 20 + taskNode s (fpCore fp) t.toNat)
  have h1 : Safe s1 := by dsimp only [s1]; split; exacts [bumpLoop_safe hs, setHdr_safe hs _]
  have h2 : Safe s2 := setHdr_safe h1 _
  have hloop : hdr s1 fp 3 / 2 ^ 20 = if t.toNat = frameTask s fp then (hdr s fp 3 / 2 ^ 20 + 1) % 2 ^ 44 else 0 := by
    dsimp only [s1]
    by_cases h : frameTask s fp = t.toNat
    · rw [if_pos (beq_iff_eq.mpr h), if_pos h.symm, hdr_bumpLoop hs]; omega
    · rw [if_neg (mt beq_iff_eq.mp h), if_neg (Ne.symm h), hdr_setHdr_self hs (by decide)]; rfl
  have h0 : hdr s2 fp 0 = hdr s fp 0 := by
    rw [hdr_setHdr_ne h1 (by decide) (by decide) (by decide)]
    dsimp only [s1]
    split
    · exact hdr_bumpLoop_ne hs (by decide)
    · exact hdr_setHdr_ne hs (by decide) (by decide) (by decide) _
  refine staysWith_waiting (t := setHdr s2 fp 0 (setBits (hdr s2 fp 0) 0 16 t.toNat)) (setHdr_safe h2 _) ?_ ?_ ?_
  · rw [frameTask, hdr_setHdr_self h2 (by decide), bits_mod_two_pow (by decide) _ (by decide)]
    exact (bits_setBits_self _ _ 0 15).trans (Nat.mod_eq_of_lt t.isLt)
  · rw [hdr_setHdr_ne h2 (by decide) (by decide) (by decide), hdr_setHdr_self h1 (by decide), hloop]
    exact Nat.mod_eq_of_lt (by split <;> omega)
  · rw [frameSize, hdr_setHdr_self h2 (by decide), bits_mod_two_pow (by decide) _ (by decide),
      bits_setBits_of_disjoint _ _ (by decide) (.inr (by decide)), h0, frameSize]

theorem frameWrites_exitFrame (s : State) (fp : ℕ) (e : Instr) : FrameWrites s (exitFrame s fp e) := by
  unfold exitFrame
  refine FrameWrites.trans ?_ (frameWrites_setFrameState _ fp _)
  split
  · exact frameWrites_bumpLoop s fp
  · refine FrameWrites.trans ?_ (frameWrites_setHdr _ fp 0 _)
    refine FrameWrites.trans ?_ (frameWrites_setHdr _ fp 3 _)
    split
    · exact frameWrites_bumpLoop s fp
    · exact frameWrites_setHdr s fp 3 _
  · exact .refl s

end

end Sys2Proof.Safety
end

section
/-! PROOFS. Step 7 of a commit for a frame that ends (R105, R108, R121), and what steps 6 to 8 come to by the exit. -/

namespace Sys2Proof.Safety

open Sys2Proof.Machine

/-! ## A frame ends -/

/-- Core c has the same frames and the same token buffer. -/
structure SameFrames (s t : State) (c : ℕ) : Prop where
  frames : (t.core c).frames = (s.core c).frames
  tbuf : (t.core c).tbuf = (s.core c).tbuf

section
variable {s t : State} {c : ℕ}

theorem SameFrames.refl (s : State) (c : ℕ) : SameFrames s s c := ⟨rfl, rfl⟩
theorem SameFrames.trans {u : State} (h : SameFrames s t c) (g : SameFrames t u c) : SameFrames s u c :=
  ⟨g.frames.trans h.frames, g.tbuf.trans h.tbuf⟩
theorem FrameWrites.sameFrames (h : FrameWrites s t) (c : ℕ) : SameFrames s t c := by
  obtain ⟨w, hw⟩ := h.core c
  exact ⟨by rw [hw], by rw [hw]⟩
theorem Calm.sameFrames {fl : ℕ} (h : Calm s t c fl) : SameFrames s t c := by
  obtain ⟨w, hw⟩ := h.own
  exact ⟨by rw [hw], by rw [hw]⟩
theorem sameFrames_foldl {α : Type} {f : State → α → State} (hf : ∀ s a, SameFrames s (f s a) c) (l : List α) (s : State) :
    SameFrames s (l.foldl f s) c := by
  induction l generalizing s with
  | nil => exact .refl s c
  | cons a l ih => exact (hf s a).trans (ih _)
theorem sameFrames_stray (s : State) (fp slot : ℕ) : SameFrames s (stray s c fp slot) c := by
  obtain ⟨m, hm⟩ := stray_core s c fp slot
  exact ⟨by rw [hm], by rw [hm]⟩
theorem sameFrames_endReservesBut (s : State) (fp c : ℕ) (but : Option ℕ) : SameFrames s (endReservesBut s fp but) c := by
  unfold endReservesBut
  refine sameFrames_foldl (fun s key => ?_) _ s
  have h := calm_setHomeWaiters s key ((homeWaiters s key).filter fun w => !(w.key == key && w.reserved && w.fp == fp)) c
  dsimp only
  split
  · exact h.sameFrames.trans (calm_becameFull _ key c).1.sameFrames
  · exact h.sameFrames

theorem zeroWords_cores (s : State) (c h n : ℕ) : (zeroWords s c h n).cores = s.cores := by
  induction n generalizing s h with
  | zero => rfl
  | succ n ih => rw [zeroWords, ih]; rfl
theorem core_zeroWords (s : State) (c h n j : ℕ) : (zeroWords s c h n).core j = s.core j := by
  rw [State.core, zeroWords_cores, State.core]

/-- A frame's words go to zero, and it leaves its core, with what stood for it in the token buffer and on the net. -/
def withoutFrame (s : State) (fp : ℕ) : State :=
  let z := zeroWords s (fpCore fp) (fpWord fp) (4 + frameSize s fp)
  { z with net := z.net.filter fun p => (waitOf fp p).isNone }.modCore (fpCore fp) fun co =>
    let base := bits co.frameBase.toNat 16 0
    { co with
      frames := co.frames.filter (· != fpWord fp), tbuf := co.tbuf.filter fun b => (entryFor fp b.e).isNone
      loopHeld := co.loopHeld.filter (· != fp), waitOrder := co.waitOrder.filter (· != fp)
      tframes := co.tframes.filter fun k => base + 32 * k != fpWord fp, tfresh := co.tfresh.filter fun k => base + 32 * k != fpWord fp }
theorem freeFrame_eq (s : State) (fp : ℕ) : ∃ (gone : List ℕ) (late : ℕ), freeFrame s fp = endReservations
    ((List.range late).foldl (fun s _ => stray s (fpCore fp) fp 0)
      ((gone.foldl (fun s slot => stray s (fpCore fp) fp slot) (withoutFrame s fp)).modCore (fpCore fp) fun co =>
        { co with freeAfter := co.freeAfter.filter (· != fp) })) fp := ⟨_, _, rfl⟩
/-- What else is done as a frame is freed leaves the frames and the token buffer. -/
theorem sameFrames_freeFrame (s : State) (fp : ℕ) : SameFrames (withoutFrame s fp) (freeFrame s fp) (fpCore fp) := by
  obtain ⟨gone, late, h⟩ := freeFrame_eq s fp
  have h1 := sameFrames_foldl (fun s slot => sameFrames_stray (c := fpCore fp) s fp slot) gone (withoutFrame s fp)
  have h2 (t : State) : SameFrames t (t.modCore (fpCore fp) fun co => { co with freeAfter := co.freeAfter.filter (· != fp) }) (fpCore fp) :=
    ⟨by rw [State.core_modCore_self], by rw [State.core_modCore_self]⟩
  have h3 (t : State) := sameFrames_foldl (fun s _ => sameFrames_stray (c := fpCore fp) s fp 0) (List.range late) t
  rw [h]
  exact ((h1.trans (h2 _)).trans (h3 _)).trans (sameFrames_endReservesBut _ fp (fpCore fp) none)
theorem core_withoutFrame (s : State) (fp : ℕ) :
    ((withoutFrame s fp).core (fpCore fp)).frames = (s.core (fpCore fp)).frames.filter (· != fpWord fp) ∧
    ((withoutFrame s fp).core (fpCore fp)).tbuf = (s.core (fpCore fp)).tbuf.filter fun b => (entryFor fp b.e).isNone := by
  rw [← core_zeroWords s (fpCore fp) (fpWord fp) (4 + frameSize s fp), withoutFrame, State.core_modCore_self]
  exact ⟨rfl, rfl⟩

theorem frameAlloc_freeFrame (s : State) (fp : ℕ) : frameAlloc (freeFrame s fp) fp = false := by
  rw [frameAlloc, (sameFrames_freeFrame s fp).frames, (core_withoutFrame s fp).1]
  simp
theorem tbuf_freeFrame (s : State) (fp : ℕ) : ∀ x ∈ ((freeFrame s fp).core (fpCore fp)).tbuf, entryFor fp x.e = none := by
  rw [(sameFrames_freeFrame s fp).tbuf, (core_withoutFrame s fp).2]
  exact fun x hx => Option.isNone_iff_eq_none.mp (List.mem_filter.mp hx).2

/-- Steps 6 to 8 of a commit that ends its frame. -/
theorem steps678_end (s : State) (c : ℕ) (k : Option ℕ) (fp arr : ℕ) (con : List ℕ) (p : Pred) :
    steps678 s c k fp arr con (.broEnd p) false = freeFrame (consumeSlots s fp con) fp := by
  simp only [steps678, frameAlloc_freeFrame, Bool.false_eq_true, if_false]
/-- Steps 6 to 8 of a commit that keeps its frame and its task. -/
theorem steps678_stays {s : State} {fp : ℕ} {e : Instr} {p : Pred} (he : e ∈ [Instr.broKeep p, .broRearm p]) (k : Option ℕ) (arr : ℕ) (con : List ℕ)
    (hf : ((refillFrame (exitFrame (consumeSlots s fp con) fp e) fp).core (fpCore fp)).freeAfter.contains fp = false) :
    let u := checkReady (refillFrame (exitFrame (consumeSlots s fp con) fp e) fp) fp
    steps678 s (fpCore fp) k fp arr con e false = if frameAlloc u fp then endReservations u fp else u := by
  simp only [List.mem_cons, List.not_mem_nil, or_false] at he
  rcases he with rfl | rfl <;> simp only [steps678, hf, Bool.false_eq_true, if_false]

end

end Sys2Proof.Safety
end

section
/-! PROOFS. Step 8 of a commit (R106, R109, R121): each empty slot takes the head of its queue, and MISSING is counted again. -/

namespace Sys2Proof.Safety

open Sys2Proof.Machine

/-! ## The head of a queue -/

theorem find?_dropFirst {α : Type} {p q : α → Bool} (h : ∀ a, p a = true → q a = false) (l : List α) : (dropFirst p l).find? q = l.find? q := by
  induction l with
  | nil => rfl
  | cons a l ih =>
    rw [dropFirst]
    by_cases hp : p a = true
    · rw [if_pos hp, List.find?_cons, h a hp]
    · rw [if_neg hp, List.find?_cons, List.find?_cons, ih]

/-- An entry at the head of a slot's queue is a token. -/
theorem token_of_slotHead {l : List TBuf} {fp n : ℕ} {b : TBuf} (h : slotHead l fp n = some b) : ∃ t, b.e = .token t := by
  have hb := List.find?_some h
  simp only [Bool.and_eq_true] at hb
  obtain ⟨-, hb⟩ := hb
  split at hb
  · next t ht => exact ⟨t, ht⟩
  · exact absurd hb Bool.false_ne_true

/-! ## One slot -/

/-- What step 8 leaves in a slot: what it holds, or where it is empty the head of its queue, if that stands in the pool or the
walker table. -/
def refilledWord (s : State) (fp n : ℕ) : TWord :=
  if (slotWord s fp n).f then slotWord s fp n else
    match slotHead (s.core (fpCore fp)).tbuf fp n with
    | some b => (match b.e with
        | .token t => if b.place = .pool ∨ b.place = .walk then ⟨t.v.d, true, t.v.x⟩ else slotWord s fp n
        | _ => slotWord s fp n)
    | none => slotWord s fp n

section
variable {s t : State} {fp n : ℕ}

/-- A slot takes the head of its queue, which leaves the queues of the others; or nothing changes. -/
theorem refillSlot_cases (s : State) (fp n : ℕ) :
    (refillSlot s fp n = s ∧ refilledWord s fp n = slotWord s fp n) ∨
    ∃ (v : Val) (l : List TBuf), refilledWord s fp n = ⟨v.d, true, v.x⟩ ∧
      refillSlot s fp n = setSlot (s.setCore (fpCore fp) { s.core (fpCore fp) with tbuf := l }) fp n v ∧
      ∀ m, m ≠ n → slotHead l fp m = slotHead (s.core (fpCore fp)).tbuf fp m := by
  unfold refillSlot refilledWord
  cases hf : (slotWord s fp n).f with
  | true => exact .inl ⟨rfl, rfl⟩
  | false =>
    simp only [Bool.false_eq_true, if_false]
    cases hh : slotHead (s.core (fpCore fp)).tbuf fp n with
    | none => exact .inl ⟨rfl, rfl⟩
    | some b =>
      obtain ⟨t, ht⟩ := token_of_slotHead hh
      obtain ⟨e, place, vas, spill, ans⟩ := b
      obtain rfl : e = .token t := ht
      have hother (m : ℕ) (hm : m ≠ n) : slotHead (dropFirst (fun b => entryFor fp b.e == some n && (match b.e with | .token _ => true | _ => false))
          (s.core (fpCore fp)).tbuf) fp m = slotHead (s.core (fpCore fp)).tbuf fp m := by
        refine find?_dropFirst (fun b hb => ?_) _
        simp only [Bool.and_eq_true, beq_iff_eq] at hb
        simp [hb.1, Ne.symm hm]
      cases place with
      | pool => exact .inr ⟨t.v, _, rfl, rfl, hother⟩
      | walk => exact .inr ⟨t.v, _, rfl, rfl, hother⟩
      | ovf => exact .inl ⟨rfl, rfl⟩
      | port => exact .inl ⟨rfl, rfl⟩

theorem core_refillSlot (s : State) (fp n : ℕ) : ∃ l, (refillSlot s fp n).core (fpCore fp) = { s.core (fpCore fp) with tbuf := l } := by
  obtain ⟨h, -⟩ | ⟨v, l, -, h, -⟩ := refillSlot_cases s fp n
  · exact ⟨_, by rw [h]⟩
  · exact ⟨l, by rw [h]; exact State.core_setCore_self s _ _⟩

/-! ## All slots -/

/-- The slots that p holds of have been refilled, and nothing else of the frame or of the instruction store has changed. -/
structure Refilled (s t : State) (fp : ℕ) (p : ℕ → Prop) : Prop where
  safe : Safe t
  hdr : ∀ k < 4, hdr t fp k = hdr s fp k
  code : ∀ a, 2 ^ 50 ≤ a → a < 2 ^ 51 → memGet t.mem a = memGet s.mem a
  done : ∀ m < 2 ^ 20, p m → slotWord t fp m = refilledWord s fp m
  rest : ∀ m < 2 ^ 20, ¬ p m → slotWord t fp m = slotWord s fp m
  head : ∀ m, ¬ p m → slotHead (t.core (fpCore fp)).tbuf fp m = slotHead (s.core (fpCore fp)).tbuf fp m

theorem refilledWord_congr {m : ℕ} (hw : slotWord t fp m = slotWord s fp m)
    (hh : slotHead (t.core (fpCore fp)).tbuf fp m = slotHead (s.core (fpCore fp)).tbuf fp m) : refilledWord t fp m = refilledWord s fp m := by
  rw [refilledWord, refilledWord, hw, hh]
theorem Refilled.refl (hs : Safe s) (fp : ℕ) : Refilled s s fp fun _ => False :=
  ⟨hs, fun _ _ => rfl, fun _ _ _ => rfl, fun _ _ h => h.elim, fun _ _ _ => rfl, fun _ _ => rfl⟩

/-- A word of a frame lies below the instruction store, its tags above. -/
theorem memGet_putWord_code (hs : Safe s) {i : ℕ} (hi : i < 2 ^ 30) (w : TWord) {a : ℕ} (h1 : 2 ^ 50 ≤ a) (h2 : a < 2 ^ 51) :
    memGet (putWord s.mem (wordKey (fpCore fp) (fpWord fp + i)) w) a = memGet s.mem a := by
  rw [putWord, memGet_setTags_data (memPut_wf hs _ _ _) _ _ _ _ (by unfold tagKey; omega), memGet_memPut_of_not_mem hs]
  unfold wordKey localKey fpCore fpWord
  omega

/-- One more slot is refilled. -/
theorem Refilled.step {p : ℕ → Prop} (h : Refilled s t fp p) (hn : n < 2 ^ 20) (hp : ¬ p n) :
    Refilled s (refillSlot t fp n) fp fun m => p m ∨ m = n := by
  have hword : refilledWord t fp n = refilledWord s fp n := refilledWord_congr (h.rest n hn hp) (h.head n hp)
  obtain ⟨he, hsame⟩ | ⟨v, l, hv, he, hother⟩ := refillSlot_cases t fp n
  · rw [he]
    refine ⟨h.safe, h.hdr, h.code, fun m hm hpm => ?_, fun m hm hpm => h.rest m hm (mt .inl hpm), fun m hpm => h.head m (mt .inl hpm)⟩
    rcases hpm with hpm | rfl
    · exact h.done m hm hpm
    · rw [← hword, hsame]
  · have ht' : Safe (t.setCore (fpCore fp) { t.core (fpCore fp) with tbuf := l }) := h.safe
    have hslot (m : ℕ) (hm : m < 2 ^ 20) : slotWord (refillSlot t fp n) fp m = if m = n then ⟨v.d, true, v.x⟩ else slotWord t fp m := by
      rw [he, slotWord_setSlot ht' hn hm]; rfl
    refine ⟨by rw [he]; exact setSlot_safe ht' v, fun k hk => ?_, fun a h1 h2 => ?_, fun m hm hpm => ?_, fun m hm hpm => ?_, fun m hpm => ?_⟩
    · rw [he, hdr_setSlot ht' hn hk]; exact h.hdr k hk
    · rw [he, setSlot, slotKey, Nat.add_assoc]
      exact (memGet_putWord_code ht' (by omega) _ h1 h2).trans (h.code a h1 h2)
    · rw [hslot m hm]
      by_cases hmn : m = n
      · rw [if_pos hmn, hmn, ← hword, hv]
      · rw [if_neg hmn]; exact h.done m hm (hpm.resolve_right hmn)
    · rw [hslot m hm, if_neg (mt .inr hpm)]; exact h.rest m hm (mt .inl hpm)
    · rw [he, setSlot]
      refine (congrArg (fun co => slotHead co.tbuf fp m) (State.core_setCore_self t _ _)).trans ?_
      exact (hother m (mt .inr hpm)).trans (h.head m (mt .inl hpm))

/-- The first n slots of a frame refilled in order. -/
def refillTo (s : State) (fp n : ℕ) : State := (List.range n).foldl (fun s m => refillSlot s fp m) s

theorem refillTo_succ (s : State) (fp n : ℕ) : refillTo s fp (n + 1) = refillSlot (refillTo s fp n) fp n := by
  rw [refillTo, List.range_succ, List.foldl_append]; rfl
theorem refilled_refillTo (hs : Safe s) (hn : n ≤ 2 ^ 20) : Refilled s (refillTo s fp n) fp (· < n) := by
  induction n with
  | zero => simpa [refillTo] using Refilled.refl hs fp
  | succ n ih =>
    rw [refillTo_succ]
    simpa only [Nat.lt_succ_iff_lt_or_eq] using (ih (by omega)).step hn (Nat.lt_irrefl n)
theorem core_refillTo (s : State) (fp n : ℕ) : ∃ l, (refillTo s fp n).core (fpCore fp) = { s.core (fpCore fp) with tbuf := l } := by
  induction n with
  | zero => exact ⟨_, rfl⟩
  | succ n ih =>
    obtain ⟨l, hl⟩ := ih
    obtain ⟨l', hl'⟩ := core_refillSlot (refillTo s fp n) fp n
    exact ⟨l', by rw [refillTo_succ, hl', hl]⟩

/-! ## MISSING -/

theorem frameWrites_recount (s : State) (fp : ℕ) : FrameWrites s (recount s fp) := (frameWrites_setHdr s fp 1 _).trans (frameWrites_noteWait _ fp)
theorem slotWord_recount (hs : Safe s) (hn : n < 2 ^ 20) : slotWord (recount s fp) fp n = slotWord s fp n := slotWord_setHdr hs (by decide) hn _
theorem frameTask_recount (hs : Safe s) : frameTask (recount s fp) fp = frameTask s fp :=
  congrArg (bits · 15 0) (hdr_setHdr_ne hs (by decide) (by decide) (by decide) _)
theorem memGet_recount_code (hs : Safe s) {a : ℕ} (h1 : 2 ^ 50 ≤ a) (h2 : a < 2 ^ 51) : memGet (recount s fp).mem a = memGet s.mem a :=
  memGet_putWord_code hs (by decide) _ h1 h2

/-- The input mask names slots below 128, none twice. -/
theorem inputMask_lt {c task : ℕ} : ∀ n ∈ inputMask s c task, n < 128 := by
  have h (l : List ℕ) : ∀ n ∈ (l.map fun w => (parseRd w).slot).foldr (fun x l => if l.contains x then l else x :: l) [], n < 128 := by
    induction l with
    | nil => exact fun n hn => absurd hn List.not_mem_nil
    | cons w l ih =>
      simp only [List.map_cons, List.foldr_cons]
      split
      · exact ih
      · exact List.forall_mem_cons.mpr ⟨slot_parseRd_lt w, ih⟩
  unfold inputMask
  split
  · exact h _
  · exact fun n hn => absurd hn List.not_mem_nil
theorem inputMask_nodup {c task : ℕ} : (inputMask s c task).Nodup := by
  have h (l : List ℕ) : (l.foldr (fun x l => if l.contains x then l else x :: l) []).Nodup := by
    induction l with
    | nil => exact .nil
    | cons x l ih =>
      rw [List.foldr_cons]
      split
      · exact ih
      · next hx => exact List.nodup_cons.mpr ⟨by simpa using hx, ih⟩
  unfold inputMask
  split
  · exact h _
  · exact .nil
theorem length_inputMask_filter_le {c task : ℕ} (p : ℕ → Bool) : ((inputMask s c task).filter p).length ≤ 128 := by
  have hsub : (inputMask s c task).filter p ⊆ List.range 128 := fun n hn => List.mem_range.mpr (inputMask_lt n (List.mem_filter.mp hn).1)
  have hnd : ((inputMask s c task).filter p).Nodup := inputMask_nodup.filter p
  simpa using (hnd.subperm hsub).length_le
theorem frameMissing_recount (hs : Safe s) : frameMissing (recount s fp) fp =
    ((inputMask s (fpCore fp) (frameTask s fp)).filter fun n => !(slotWord s fp n).f).length := by
  have hle := length_inputMask_filter_le (s := s) (c := fpCore fp) (task := frameTask s fp) fun n => !(slotWord s fp n).f
  rw [frameMissing, recount, hdr_noteWait, hdr_setHdr_self hs (by decide), bits_mod_two_pow (by decide) _ (by decide)]
  exact (bits_setBits_self _ _ 0 7).trans (Nat.mod_eq_of_lt (Nat.lt_of_le_of_lt hle (by decide)))

/-- A block's read entries depend on its place in the instruction store alone. -/
theorem fetchBlock_reads_congr {c addr : ℕ} (hc : c < 4096) (ha : addr < 2 ^ 16) (hh : (t.core c).half = (s.core c).half) (hh2 : (s.core c).half < 2)
    (hmem : ∀ a, 2 ^ 50 ≤ a → a < 2 ^ 51 → memGet t.mem a = memGet s.mem a) : (fetchBlock t c addr).reads = (fetchBlock s c addr).reads := by
  have hnum (b n : ℕ) (hb : b + n ≤ 2 ^ 18) : memNat t.mem (codeKey c (s.core c).half 0 + b) n = memNat s.mem (codeKey c (s.core c).half 0 + b) n :=
    memNat_congr _ _ fun a h1 h2 => hmem a (by unfold codeKey at h1; omega) (by unfold codeKey at h2; omega)
  have hkey : codeKey c (s.core c).half addr = codeKey c (s.core c).half 0 + addr := by unfold codeKey; omega
  unfold fetchBlock
  simp only [hh, hkey]
  rw [hnum addr 16 (by omega)]
  refine List.map_congr_left fun n _ => ?_
  split
  · rw [Nat.add_assoc, Nat.add_assoc, hnum _ 4 (by omega)]
  · rfl
theorem inputMask_congr {c : ℕ} (hc : c < 4096) (htasks : (t.core c).tasks = (s.core c).tasks) (ha : ∀ x ∈ (s.core c).tasks, x.addr < 2 ^ 16)
    (hh : (t.core c).half = (s.core c).half) (hh2 : (s.core c).half < 2)
    (hmem : ∀ a, 2 ^ 50 ≤ a → a < 2 ^ 51 → memGet t.mem a = memGet s.mem a) (task : ℕ) : inputMask t c task = inputMask s c task := by
  unfold inputMask taskBlk taskOf
  rw [htasks]
  cases hx : (s.core c).tasks.find? (·.id == task) with
  | none => rfl
  | some x =>
    simp only [Option.map_some]
    rw [fetchBlock_reads_congr hc (ha x (List.mem_of_find?_eq_some hx)) hh hh2 hmem]

/-! ## The frame after step 8 -/

theorem frameSize_lt (s : State) (fp : ℕ) : frameSize s fp < 256 := Nat.mod_lt _ (by decide)
theorem fpCore_lt (fp : ℕ) : fpCore fp < 4096 := Nat.mod_lt _ (by decide)

theorem core_refillFrame (s : State) (fp : ℕ) :
    ∃ l w, (refillFrame s fp).core (fpCore fp) = { s.core (fpCore fp) with tbuf := l, waitOrder := w } := by
  obtain ⟨l, hl⟩ := core_refillTo s fp (frameSize s fp)
  obtain ⟨w, hw⟩ := (frameWrites_recount (refillTo s fp (frameSize s fp)) fp).core (fpCore fp)
  exact ⟨l, w, hw.trans (by rw [hl])⟩
theorem slotWord_refillFrame (hs : Safe s) (hn : n < frameSize s fp) : slotWord (refillFrame s fp) fp n = refilledWord s fp n := by
  have hsize := frameSize_lt s fp
  have h := refilled_refillTo (fp := fp) hs (n := frameSize s fp) (by omega)
  exact (slotWord_recount h.safe (by omega)).trans (h.done n (by omega) hn)
/-- MISSING counts the empty slots of the input mask as the refill leaves them. -/
theorem frameMissing_refillFrame (hs : Safe s) (ha : ∀ x ∈ (s.core (fpCore fp)).tasks, x.addr < 2 ^ 16) (hh : (s.core (fpCore fp)).half < 2) :
    let u := refillFrame s fp
    frameMissing u fp = ((inputMask u (fpCore fp) (frameTask u fp)).filter fun n => !(slotWord u fp n).f).length := by
  have hsize := frameSize_lt s fp
  have h := refilled_refillTo (fp := fp) hs (n := frameSize s fp) (by omega)
  obtain ⟨l, hl⟩ := core_refillTo s fp (frameSize s fp)
  obtain ⟨w, hw⟩ := (frameWrites_recount (refillTo s fp (frameSize s fp)) fp).core (fpCore fp)
  have hmask := inputMask_congr (s := refillTo s fp (frameSize s fp)) (t := refillFrame s fp) (fpCore_lt fp) (by rw [refillFrame, ← refillTo, hw])
    (by rw [hl]; exact ha) (by rw [refillFrame, ← refillTo, hw]) (by rw [hl]; exact hh)
    (fun a h1 h2 => memGet_recount_code h.safe h1 h2) (frameTask (refillTo s fp (frameSize s fp)) fp)
  have htask : frameTask (refillFrame s fp) fp = frameTask (refillTo s fp (frameSize s fp)) fp := frameTask_recount h.safe
  refine (frameMissing_recount h.safe).trans ?_
  rw [htask, hmask]
  refine congrArg List.length (List.filter_congr fun n hn => ?_)
  rw [← slotWord_recount h.safe (n := n) ((inputMask_lt n hn).trans (by decide))]
  rfl

end

end Sys2Proof.Safety
end

section
/-! PROOFS. A commit from step 3 to its end (R117, R121). -/

namespace Sys2Proof.Safety

open Sys2Proof.Machine

section
variable {s : State} {c k : Nat} {f : Firing} {e : Instr}

/-! ## Step 4 without outputs -/

theorem traceRec_off {d : Nat} (h : (s.die d).trace.ctl.getLsbD 63 = false) (core kind a b : Nat) : traceRec s d core kind a b = s := by
  have hbit : bit (s.die d).trace.ctl.toNat 63 = false := by rw [bit_eq_testBit, BitVec.testBit_toNat, h]
  unfold traceRec
  simp only [hbit, Bool.not_false, if_true]

theorem not_rel_of_relOuts_nil (h : relOuts f = []) {o : Out} (ho : o ∈ f.outs) : ∀ i r, o ≠ .rel i r := by
  rintro i r rfl
  have hp : (relOuts f).Perm (_ ++ _) := sortBy_perm _ _
  rw [h] at hp
  exact List.filter_eq_nil_iff.mp (List.append_eq_nil_iff.mp hp.nil_eq.symm).1 _ ho rfl
theorem any_outs_of_relOuts_nil (h : relOuts f = []) {p : Out → Bool} (hp : ∀ o, p o = true → ∃ i r, o = .rel i r) : f.outs.any p = false :=
  List.any_eq_false.mpr fun o ho hpo => by
    obtain ⟨i, r, hr⟩ := hp o hpo
    exact not_rel_of_relOuts_nil h ho i r hr

/-- The steps behind step 3 of a commit without step-4 outputs: the core notes what later loads may pass, and that is all before step 5. -/
theorem commitRest_eq_of_none (hsec : hasSection f = false) (hrel : relOuts f = []) (htr : (s.die (coreDie c)).trace.ctl.getLsbD 63 = false) :
    ∃ q : Core → List Nat,
      let u := step5 ((setAstat s c f.astat).modCore c fun co => { co with quiet := q co }) f
      let con := (consumed f).filter fun n => !u.2.contains n
      commitRest s c k f e = steps678 (u.1.modCore c fun co => { co with
        slots := setNth co.slots k none, commits := (co.commits + 1) % 2 ^ 48, busy := co.busy ||| 1 }) c (some k) f.fp f.arr con e false := by
  refine ⟨?q, ?_⟩
  rotate_left
  · unfold commitRest
    simp only [traceRec_off htr, hsec, hrel, waitsLast, List.foldl_nil, Bool.false_eq_true, if_false, Bool.false_and]
    rw [any_outs_of_relOuts_nil hrel fun o ho => ?halt]
    · rfl
    · cases o with
      | rel i r => exact ⟨i, r, rfl⟩
      | _ => exact absurd ho Bool.false_ne_true
/-- The state in which step 5 of such a commit begins. -/
theorem commitRest_of_none (hsec : hasSection f = false) (hrel : relOuts f = []) (htr : (s.die (coreDie c)).trace.ctl.getLsbD 63 = false) :
    ∃ s4, s4.mem = s.mem ∧ s4.net = s.net ∧ (∀ c', (s4.core c').tbuf = (s.core c').tbuf ∧ (s4.core c').frames = (s.core c').frames) ∧
      let u := step5 s4 f
      let con := (consumed f).filter fun n => !u.2.contains n
      commitRest s c k f e = steps678 (u.1.modCore c fun co => { co with
        slots := setNth co.slots k none, commits := (co.commits + 1) % 2 ^ 48, busy := co.busy ||| 1 }) c (some k) f.fp f.arr con e false := by
  obtain ⟨q, hq⟩ := commitRest_eq_of_none (k := k) (e := e) hsec hrel htr
  have hset := setAstat_rest s c f.astat
  refine ⟨_, ?_, ?_, fun c' => ?_, hq⟩
  · rw [State.modCore_mem, hset]
  · rw [State.modCore_net, hset]
  · rw [core_modCore]
    by_cases hc : c' = c
    · subst hc
      rw [if_pos rfl, core_setAstat]
      exact ⟨rfl, rfl⟩
    · rw [if_neg hc, core_setAstat_ne s _ hc]
      exact ⟨rfl, rfl⟩

theorem norm_d (v : Val) : v.norm.d = if v.x then 0 else v.d := apply_ite Val.d _ _ _

/-- Keeping or rearming a frame leaves the frees that wait for it. -/
theorem freeAfter_stays (s : State) (fp : Nat) (con : List Nat) (e : Instr) :
    ((refillFrame (exitFrame (consumeSlots s fp con) fp e) fp).core (fpCore fp)).freeAfter = (s.core (fpCore fp)).freeAfter := by
  obtain ⟨l, w, h⟩ := core_refillFrame (exitFrame (consumeSlots s fp con) fp e) fp
  obtain ⟨w', h'⟩ := ((frameWrites_consumeSlots s fp con).trans (frameWrites_exitFrame _ fp e)).core (fpCore fp)
  rw [h, h']

end

/-- Settles O39: steps 3 to 5 by their outputs in order, then steps 6 to 8 by the exit. -/
theorem commitSteps : Obligations.CommitSteps := by
  intro s c k f e hs hc mem stfx fill
  have hmem : mem = memPlace := funext fun o => by cases o <;> rfl
  have hstfx : stfx = stfxPlace := funext fun o => by cases o <;> rfl
  have hfill : fill = fillOwn c f := rfl
  clear_value mem stfx fill
  subst hmem hstfx hfill
  refine ⟨fun h => ⟨memOuts_perm f, memOuts_sorted h⟩,
    fun ser l => ⟨rfl, fun n i a => ⟨rfl, issueMem_cases s⟩, fun n i sc => rfl⟩,
    fun n outs u he => ⟨commitFrom3_done he, fun sc rest => commitFrom3_fencing he⟩,
    fun p slot n r sec hcr => ⟨fun sl hsl => ⟨fun hr => ?_, fun hr => ?_⟩, fun hr hslot hlt => ?_⟩,
    fun ws w hw h _ => step5_append_write hc hw h, step5_nil, fun g l n v hf hg hw hr hd hp => step5_append_stfx hc hf hg hw hr hd hp,
    stfxOuts_sorted f, fun t => ownToken_deliver, commitRest_of_none,
    fun l n hl hn => slotWord_consumeSlots hs (fun m hm => (hl m hm).trans (by decide)) (hn.trans (by decide)), fun p t => ?_, fun ha hh => ?_,
    fun p con arr x hx hfree => ?_⟩
  · rw [step4One_send hr hcr, hsl]; exact ⟨rfl, rfl⟩
  · rw [step4One_sendx hr hcr, hsl, norm_d]; exact ⟨rfl, rfl⟩
  · rw [step4One_sendi hr (by omega) hcr, hslot]; exact ⟨rfl, rfl⟩
  · subst hc
    obtain ⟨k1, k2, k3, k4⟩ := exitFrame_keep (fp := f.fp) hs p
    obtain ⟨r1, r2, r3, r4⟩ := exitFrame_rearm (fp := f.fp) hs p
    obtain ⟨c1, c2, c3, c4⟩ := exitFrame_cont (fp := f.fp) hs p t
    refine ⟨⟨k1, k2, k3, k4⟩, ⟨r1, r2, r3, r4⟩, ⟨c1, c2, c3, c4⟩, fun con arr => ?_⟩
    rw [steps678_end]
    exact ⟨frameAlloc_freeFrame _ _, tbuf_freeFrame _ _⟩
  · subst hc
    exact ⟨fun n hn => slotWord_refillFrame hs hn, frameMissing_refillFrame hs ha hh⟩
  · subst hc
    exact steps678_stays hx _ arr con (by rw [freeAfter_stays]; exact hfree)

end Sys2Proof.Safety
end

section
/-! PROOFS. Words of a firing that execute: what their effects leave, exits and software traps, frame pointers, what is held to the
commit, addresses that fail (R114 to R116, R133, R149 to R157, R162 to R184, R191, R192). -/

namespace Sys2Proof.Safety

open Sys2Proof.Machine

/-! ## The effects of a word -/

/-- The firing once instruction n has had its effects. -/
def effected (f : Firing) (n : Nat) (i : Instr) (o : FOut) : Firing :=
  { ran f n with
    waits := if o.pkts = [] then f.waits else n :: f.waits
    lsids := if lateLoad i && o.pkts != [] then f.lsids else n :: f.lsids
    astat := f.astat ||| o.astat
    outs := f.outs ++ o.outs
    exit := match o.exit with | some e => some (n, e) | none => f.exit
    take := match o.take with | some t => some t | none => f.take
    dels := match o.v with | some v => delivered f i.shape.tgts v | none => f.dels }
/-- The state in which a word's translation has been used and its requests are on their way. -/
def requested (s : State) (c : Nat) (o : FOut) : State := { noteTlb s c o.tlb with net := (noteTlb s c o.tlb).net ++ o.pkts }

theorem requested_nil (s : State) (c : Nat) {o : FOut} (h : o.pkts = []) : requested s c o = noteTlb s c o.tlb := by
  simp only [requested, h, List.append_nil]

section
variable {s : State} {c k n : Nat} {f : Firing} {i : Instr} {vs : List Val} {body : State → Nat → Firing → Nat → List Val → FRes}

/-- A word whose body answers effects has them, its targets free where it delivers. -/
theorem does_effected (h : Executes s c k n f i vs) (he : exec i s = fireWord s i body) {o : FOut} (hb : body s c f n vs = .ok o)
    (hf : o.v ≠ none → Free f i.shape.tgts) : Does s (requested s c o) c k i (effected f n i o) := by
  rw [Does, he, fireWord_eq h, hb]
  obtain ⟨v, as, outs, ex, take, pkts, tlb⟩ := o
  cases v with
  | none => rfl
  | some v =>
    refine congrArg Host.Outcome.next ((deliverFrom_free _ c k n _ i.shape.tgts v ?_).trans rfl)
    exact hf nofun

/-- Outputs of a word that delivers nothing, behind the translation it used. -/
theorem does_outs (h : Executes s c k n f i vs) (he : exec i s = fireWord s i body) {outs : List Out} {tl : Option Tlb}
    (hb : body s c f n vs = .ok { outs, tlb := tl }) : Does s (noteTlb s c tl) c k i { ran f n with outs := f.outs ++ outs } := by
  have hd := does_effected h he hb (absurd rfl)
  rw [requested_nil _ _ rfl] at hd
  simpa [effected, ran] using hd

/-- A request of a word whose answer it awaits. -/
theorem does_request (h : Executes s c k n f i vs) (he : exec i s = fireWord s i body) {p : Packet}
    (hb : body s c f n vs = .ok { pkts := [p] }) (hl : lateLoad i = false) :
    Does s (s.send p) c k i { ran f n with waits := n :: f.waits } := by
  have hd := does_effected h he hb (absurd rfl)
  simp only [effected, hl, Bool.false_and, Bool.false_eq_true, if_false, reduceCtorEq, Nat.or_zero, List.append_nil] at hd
  exact hd
/-- The same of LDW and LDT, whose LSID stays unresolved until the value returns. -/
theorem does_request_late (h : Executes s c k n f i vs) (he : exec i s = fireWord s i body) {p : Packet}
    (hb : body s c f n vs = .ok { pkts := [p] }) (hl : lateLoad i = true) :
    Does s (s.send p) c k i { ran f n with waits := n :: f.waits, lsids := f.lsids } := by
  have hd := does_effected h he hb (absurd rfl)
  have hp : ([p] != ([] : List Packet)) = true := rfl
  simp only [effected, hl, hp, Bool.and_self, if_true, if_false, reduceCtorEq, Nat.or_zero, List.append_nil] at hd
  exact hd

end

/-! ## Exits and software traps -/

section
variable {s : State} {c k n : Nat} {f : Firing} {i : Instr}

/-- An exit is recorded once. -/
theorem exit_does (h : Executes s c k n f i []) (he : exec i s = fireWord s i fun _ _ f _ _ => exitBody i f) :
    (f.exit = none → Does s s c k i { ran f n with exit := some (n, i) }) ∧ (f.exit ≠ none → Traps s c k n i 0x08 0 0) := by
  refine ⟨fun hx => ?_, fun hx => traps_of h he ?_⟩
  · have hd := does_effected h he (o := { exit := some i }) (by simp [exitBody, hx]) (absurd rfl)
    rw [requested_nil _ _ rfl] at hd
    simpa [effected, ran, noteTlb] using hd
  · simp only [exitBody, Option.isSome_iff_ne_none.mpr hx, if_true]
    rfl

end

/-- Settles O17: an exit by what the firing has recorded, TRAP and BRK by their bodies. -/
theorem exitsAndSoftwareTraps : Obligations.ExitsAndSoftwareTraps := by
  intro p task a s c k n f
  refine ⟨fun i hi hex => ?_, fun hex => ⟨fun hx => ?_, fun hx => ?_⟩, fun hex => traps_of hex rfl rfl⟩
  · simp only [List.mem_cons, List.not_mem_nil, or_false] at hi
    rcases hi with rfl | rfl | rfl | rfl <;> exact exit_does hex rfl
  · exact traps_of hex rfl (by simp [opn, nthD, nth?, hx])
  · exact traps_of hex rfl (by simp [opn, nthD, nth?, hx])

/-! ## Frame pointers -/

theorem fpBad_iff (s : State) (v : Val) : fpBad s v.nat = false ↔ goodFp s v := by
  simp only [fpBad, goodFp, Bool.or_eq_false_iff, decide_eq_false_iff_not, bne_eq_false_iff_eq, Bool.not_eq_false', not_le, not_lt, ge_iff_le,
    gt_iff_lt, and_assoc]
theorem fpCheck_good {s : State} {v : Val} (hx : v.x = false) (h : goodFp s v) (k : Nat → FRes) : fpCheck s v k = k v.nat := by
  simp [fpCheck, hx, (fpBad_iff s v).mpr h]
theorem fpCheck_bad {s : State} {v : Val} (hx : v.x = false) (h : ¬ goodFp s v) (k : Nat → FRes) : fpCheck s v k = .trap 0x06 0 0 := by
  have hb : fpBad s v.nat = true := by rwa [← fpBad_iff, Bool.not_eq_false] at h
  simp [fpCheck, hx, hb, cBadFp]
theorem fpCheck_x {s : State} {v : Val} (hx : v.x = true) (k : Nat → FRes) : fpCheck s v k = .trap 0x05 0 0 := by
  simp [fpCheck, hx, cOpndX]

section
variable {s : State} {c k n : Nat} {f : Firing} {i : Instr} {a : Val} {vs : List Val}

/-- A word whose body checks a frame pointer traps OPND_X or BAD_FP. -/
theorem fp_traps (h : Executes s c k n f i vs) {body : State → Nat → Firing → Nat → List Val → FRes} (he : exec i s = fireWord s i body)
    {g : Nat → FRes} (hb : body s c f n vs = fpCheck s a g) :
    (a.x = true → Traps s c k n i 0x05 0 0) ∧ (a.x = false → ¬ goodFp s a → Traps s c k n i 0x06 0 0) :=
  ⟨fun hx => traps_of h he (hb.trans (fpCheck_x hx g)), fun hx hg => traps_of h he (hb.trans (fpCheck_bad hx hg g))⟩
/-- A word that holds its operands to commit step 4. -/
theorem holds_item (h : Executes s c k n f i vs) {body : State → Nat → Firing → Nat → List Val → FRes} (he : exec i s = fireWord s i body)
    (hl : lateLoad i = false) (hb : body s c f n vs = relOut i c f n vs) : Holds s c k n f i [item i c f n vs] := holds_of h he hl hb

end

/-- An index that names no slot of the own frame (R156). -/
theorem badIndex_iff (a : Val) (size : Nat) : (a.x || decide (a.nat ≥ 128 ∨ a.nat ≥ size)) = true ↔ a.x = true ∨ 128 ≤ a.nat ∨ size ≤ a.nat := by
  simp

theorem stfx_does {s : State} {c k n : Nat} {f : Firing} {g : GF} {a b : Val} (h : Executes s c k n f (.stfx g) [a, b])
    (hf : Free f [g.t1, g.t2]) (hi : ¬ (a.x = true ∨ 128 ≤ a.nat ∨ f.size ≤ a.nat)) :
    Does s s c k (.stfx g) { ran f n with
      dels := delivered f [g.t1, g.t2] (some ⟨0, false⟩), outs := f.outs ++ [.stfx n a.nat (if b.x then ⟨0, true⟩ else b)] } := by
  have hd := does_effected h rfl (o := { v := some (some (Val.ofNat 0)), outs := [.stfx n a.nat b.norm] })
    (if_neg ((badIndex_iff a f.size).not.mpr hi)) (fun _ => hf)
  rw [requested_nil _ _ rfl] at hd
  simp only [effected, ran, noteTlb, lateLoad, Bool.false_and, Bool.false_eq_true, if_false, if_true, Nat.or_zero] at hd
  exact hd

/-- Settles O24: each word by what its body checks of the frame pointer or the index. -/
theorem sendsFreesAndSlots : Obligations.SendsFreesAndSlots := by
  refine ⟨fun p slot a b d s c k n f => ⟨fun i hi hex => ?_, fun hex => ⟨fun ha hd hg => ?_, fun hx => ?_, fun ha hd hg => ?_⟩, fun hex => ?_⟩,
    fun g a b s c k n f hf => ⟨fun hex => ⟨fun ha h1 h2 => ?_, fun hx => ?_⟩, fun hex => ⟨fun ha h1 h2 => ?_, fun hx => ?_⟩⟩⟩
  · simp only [List.mem_cons, List.not_mem_nil, or_false] at hi
    rcases hi with rfl | rfl <;>
    · obtain ⟨hx, hbad⟩ := fp_traps (a := a) hex rfl rfl
      exact ⟨fun ha hg => holds_item hex rfl rfl (fpCheck_good ha hg _), hx, hbad⟩
  · refine holds_item hex rfl rfl ?_
    have hor : ((opn [a, b, d] 0).x || (opn [a, b, d] 2).x) = false := by simp [opn, nthD, nth?, ha, hd]
    rw [hor]
    exact (if_neg Bool.false_ne_true).trans (fpCheck_good ha hg _)
  · refine traps_of hex rfl ?_
    have hor : ((opn [a, b, d] 0).x || (opn [a, b, d] 2).x) = true := by simpa [opn, nthD, nth?] using hx
    rw [hor]
    rfl
  · refine traps_of hex rfl ?_
    have hor : ((opn [a, b, d] 0).x || (opn [a, b, d] 2).x) = false := by simp [opn, nthD, nth?, ha, hd]
    rw [hor]
    exact (if_neg Bool.false_ne_true).trans (fpCheck_bad ha hg _)
  · have he : exec (.ffree p) s = fireWord s (.ffree p) fun s c f n vs => fpCheck s (opn vs 0) fun fp =>
        if fp = f.fp then .trap cSelfFree fp 0 else relOut (.ffree p) c f n vs := by
      simp only [exec, execFfree, hex.focus]
    obtain ⟨hx, hbad⟩ := fp_traps (a := a) hex he rfl
    refine ⟨fun ha hg hne => holds_item hex he rfl ?_, hx, hbad, fun ha hg heq => traps_of hex he ?_⟩
    · exact (fpCheck_good ha hg _).trans (if_neg hne)
    · exact (fpCheck_good ha hg _).trans ((if_pos heq).trans (by rw [heq]; rfl))
  · exact gives_of_val hex hf rfl (if_neg ((badIndex_iff a f.size).not.mpr (by simp [ha, h1, h2])))
  · exact gives_of_val hex hf rfl (if_pos ((badIndex_iff a f.size).mpr hx))
  · exact stfx_does hex hf (by simp [ha, h1, h2])
  · exact gives_of_val hex hf rfl (if_pos ((badIndex_iff a f.size).mpr hx))

/-- Settles O25: FALLOC by its operands, the image's task and the placement, FSTAT by the pointer and the frame's core. -/
theorem frameRequests : Obligations.FrameRequests := by
  intro sc g a b s c k n f hf
  have hnum : 2 ^ 16 = 65536 := rfl
  refine ⟨fun hex => ⟨fun hx => ?_, fun ha hb hlt t ht => ⟨fun hbad => ?_, fun hgood => ?_⟩, fun ha hb htask => ?_⟩, fun hex => ?_⟩
  · refine traps_of hex rfl ?_
    have hor : ((opn [a, b] 0).x || (opn [a, b] 1).x) = true := by simpa [opn, nthD, nth?] using hx
    simp only [hor, if_true, cOpndX]
  · refine traps_of hex rfl ?_
    simp [opn, nthD, nth?, ha, hb, hnum ▸ hlt, ht, hbad, cBadFp]
  · refine does_request hex rfl ?_ rfl
    simp [opn, nthD, nth?, ha, hb, hnum ▸ hlt, ht, hgood]
  · refine traps_of hex rfl ?_
    rcases htask with h | h
    · simp [opn, nthD, nth?, ha, hb, show ¬ a.nat < 65536 by omega, cBadTask]
    · simp [opn, nthD, nth?, ha, hb, h, cBadTask]
  · obtain ⟨hx, hbad⟩ := fp_traps (a := a) hex rfl rfl
    refine ⟨hx, hbad, fun ha hg hown hcom => gives_of_val hex hf rfl ?_, fun ha hg hor => does_request hex rfl ?_ rfl⟩
    · refine (fpCheck_good ha hg _).trans (if_pos ⟨hown, ?_⟩)
      rw [hcom]
      rfl
    · refine (fpCheck_good ha hg _).trans (if_neg ?_)
      rw [Bool.not_eq_true', not_and_or, Bool.not_eq_false]
      exact hor
/-! ## What is held to the commit -/

theorem opn_of_head {vs : List Val} {a : Val} (h : vs.head? = some a) : opn vs 0 = a := by
  cases vs with
  | nil => cases h
  | cons v vs => exact Option.some.inj h

section
variable {s : State} {c k n : Nat} {f : Firing} {i : Instr} {vs : List Val} {a : Val}

/-- A word whose address passes the checks has, held to the commit, what its body makes of the place. -/
theorem holds_at {body : State → Nat → Firing → Nat → List Val → FRes} (h : Executes s c k n f i vs) (he : exec i s = fireWord s i body)
    {q : Ask} {addr : Nat} {loc : Loc} {tl : Option Tlb} {o : Loc → Out} (hx : a.x = false) (hc : checkAddr s q addr = .ok loc tl)
    (hb : body s c f n vs = atAddr s q a addr fun loc t => .ok { outs := [o loc], tlb := t }) :
    Does s (noteTlb s c tl) c k i { ran f n with outs := f.outs ++ [o loc] } :=
  does_outs h he (hb.trans (atAddr_ok hx hc _))

/-- Every word of the store family. -/
theorem store_held {p : BitVec 5} {sp : Space} {off : BitVec 9} {op : MemOp} {size : Nat} {noReg : Bool} {slot : Option Nat} {loc : Loc}
    {tl : Option Tlb} (h : Executes s c k n f i vs) (he : exec i s = fireWord s i (storeBody p sp off op size noReg slot))
    (hv : vs.head? = some a) (hx : a.x = false)
    (hc : checkAddr s { core := c, space := sp, size, write := true, frame := true, noReg } (sAddr a off size) = .ok loc tl) :
    Does s (noteTlb s c tl) c k i
      { ran f n with outs := f.outs ++ [.mem p.toNat n (accessOf s c f n op loc size (opn vs 1) ⟨0, true⟩ slot)] } :=
  holds_at h he hx hc (by rw [storeBody, opn_of_head hv])

end

theorem sAddr_zero (a : Val) (size : Nat) : sAddr a 0 size = a.nat := by
  have hlt := a.d.isLt
  have h0 : (0 : BitVec 9).toInt = 0 := rfl
  simp only [sAddr, offsetAddr, Val.nat, Num.wrap, h0, zero_mul, add_zero]
  omega

/-- Settles O32: each word by its body behind the checks; PREF and FENCE check nothing. -/
theorem writesAreHeldToCommit : Obligations.WritesAreHeldToCommit := by
  intro p ls sp slot sc w32 x st af rf a b d s c k n f loc tl hx holds
  refine ⟨fun e he i sz op nr vs hE hv hex hc => ?_, fun hex hc => ?_, fun e he i op hE hex hc => ?_, fun e he i op hE hex hc => ?_,
    fun hex hc => holds_at hex rfl hx hc rfl, fun e he i op hE hex hc => ?_, fun hex => holds_of hex rfl rfl rfl, fun hex => holds_of hex rfl rfl rfl⟩
  · simp only [List.mem_cons, List.not_mem_nil, or_false] at he
    rcases he with rfl | rfl | rfl | rfl | rfl | rfl | rfl <;> cases hE <;> exact store_held hex rfl hv hx hc
  · exact store_held hex rfl rfl hx (by rwa [sAddr_zero])
  · simp only [List.mem_cons, List.not_mem_nil, or_false] at he
    rcases he with rfl | rfl | rfl | rfl | rfl | rfl | rfl | rfl | rfl <;> cases hE <;> exact holds_at hex rfl hx hc rfl
  · simp only [List.mem_cons, List.not_mem_nil, or_false] at he
    rcases he with rfl | rfl | rfl | rfl | rfl | rfl | rfl | rfl | rfl <;> cases hE <;> exact holds_at hex rfl hx hc rfl
  · simp only [List.mem_cons, List.not_mem_nil, or_false] at he
    rcases he with rfl | rfl <;> cases hE <;> exact holds_at hex rfl hx hc rfl

/-! ## Addresses that fail -/

section
variable {s : State} {c k n : Nat} {f : Firing} {i : Instr} {vs : List Val} {a : Val} {q : Ask} {addr : Nat}

/-- How a word ends whose address does not pass the checks of R162, whatever it would do at the place. -/
theorem addr_fails {body : State → Nat → Firing → Nat → List Val → FRes} (h : Executes s c k n f i vs) (he : exec i s = fireWord s i body)
    {g : Loc → Option Tlb → FRes} (hb : body s c f n vs = atAddr s q a addr g) :
    (a.x = true → Traps s c k n i 0x05 addr 0) ∧
    (∀ cause reason, a.x = false → checkAddr s q addr = .trap cause reason →
      Traps s c k n i cause addr (reason * 2 ^ 8 + 4 * bnat q.write + q.space.code)) ∧
    (a.x = false → checkAddr s q addr = .miss →
      exec i s = .next (startWalk (setFiring s c k (some { f with walks := n :: f.walks })) c addr (.insn c f.ser n addr q.write q.space.code))) := by
  refine ⟨fun hx => traps_of h he (hb.trans (if_pos hx)), fun cause reason hx hc => traps_of h he (hb.trans ?_), fun hx hc => ?_⟩
  · simp [atAddr, hx, hc, Machine.memW5, word5]
  · have hw : body s c f n vs = .walk addr q.write q.space.code := hb.trans (by simp [atAddr, hx, hc])
    rw [he, fireWord_eq h, hw]

end

/-- Settles O33: every word but PREF checks its address in one place, before it does anything. -/
theorem addressFailuresTrap : Obligations.AddressFailuresTrap := by
  intro l st af rf x p ls sp slot sc w32 a b d s c k n f fails atomic
  refine ⟨fun e he i sz wr hE hex => ?_, fun hex => addr_fails hex rfl rfl, fun e he i sz nr vs hE hv hex => ?_, fun hex => ?_,
    fun i hi hex => ?_, fun i hi hex => ?_, fun hex => addr_fails hex rfl rfl, fun i hi hex => ?_, fun hex => ⟨_, holds_of hex rfl rfl rfl⟩⟩
  · simp only [List.mem_cons, List.not_mem_nil, or_false] at he
    rcases he with rfl | rfl | rfl | rfl | rfl | rfl | rfl <;> cases hE <;> exact addr_fails hex rfl rfl
  · simp only [List.mem_cons, List.not_mem_nil, or_false] at he
    obtain rfl : opn vs 0 = a := opn_of_head hv
    rcases he with rfl | rfl | rfl | rfl | rfl | rfl | rfl <;> cases hE <;> exact addr_fails hex rfl rfl
  · exact addr_fails hex rfl (by simp only [storeBody, sAddr_zero]; rfl)
  · simp only [List.mem_cons, List.not_mem_nil, or_false] at hi
    rcases hi with rfl | rfl | rfl | rfl | rfl | rfl | rfl | rfl | rfl <;> exact addr_fails hex rfl rfl
  · simp only [List.mem_cons, List.not_mem_nil, or_false] at hi
    rcases hi with rfl | rfl | rfl | rfl | rfl | rfl | rfl | rfl | rfl <;> exact addr_fails hex rfl rfl
  · simp only [List.mem_cons, List.not_mem_nil, or_false] at hi
    rcases hi with rfl | rfl <;> exact addr_fails hex rfl rfl

end Sys2Proof.Safety
end

section
/-! PROOFS. Words whose one effect is a value, and second deliveries (R112, R116, R129). -/

namespace Sys2Proof.Safety

open Sys2Proof.Machine

/-! ## Words that answer a value -/

/-- A body's answer that is one value with its status bits. -/
def IsVal (r : FRes) : Prop := ∃ v fl, r = .val v fl

@[simp] theorem isVal_val (v : Val) (fl : Nat) : IsVal (.val v fl) := ⟨v, fl, rfl⟩
theorem isVal_ite {p : Prop} [Decidable p] {a b : FRes} (ha : IsVal a) (hb : IsVal b) : IsVal (if p then a else b) := by
  split
  · exact ha
  · exact hb
/-- The shapes of the bodies of arithmetic: an error token, or the result. -/
@[simp] theorem isVal_predOp (k : List Bool → Bool) (vs : List Val) : IsVal (predOp k vs) := isVal_ite (isVal_val ..) (isVal_val ..)
@[simp] theorem isVal_int2 (t : ITy) (k : Int → Int → Val) (vs : List Val) : IsVal (int2 t k vs) := isVal_ite (isVal_val ..) (isVal_val ..)
@[simp] theorem isVal_int1 (t : ITy) (k : Int → Val) (vs : List Val) : IsVal (int1 t k vs) := isVal_ite (isVal_val ..) (isVal_val ..)
@[simp] theorem isVal_pat2 (t : ITy) (k : Nat → Nat → Nat) (vs : List Val) : IsVal (pat2 t k vs) := isVal_ite (isVal_val ..) (isVal_val ..)
@[simp] theorem isVal_pat1 (t : ITy) (k : Nat → Val) (vs : List Val) : IsVal (pat1 t k vs) := isVal_ite (isVal_val ..) (isVal_val ..)
@[simp] theorem isVal_extBody (vs : List Val) (k : Nat → Val) : IsVal (extBody vs k) := isVal_ite (isVal_val ..) (isVal_val ..)
@[simp] theorem isVal_errAny (vs : List Val) (k : Val) : IsVal (errAny vs k) := isVal_ite (isVal_val ..) (isVal_val ..)
@[simp] theorem isVal_f32Op (vs : List Val) (k : List Nat → Num.FRes) : IsVal (f32Op vs k) := isVal_ite (isVal_val ..) (isVal_val ..)
@[simp] theorem isVal_divOp (t : ITy) (vs : List Val) : IsVal (divOp t vs) :=
  isVal_ite (isVal_val ..) (isVal_ite (isVal_val ..) (isVal_val ..))
@[simp] theorem isVal_remOp (t : ITy) (vs : List Val) : IsVal (remOp t vs) :=
  isVal_ite (isVal_val ..) (isVal_ite (isVal_val ..) (isVal_val ..))
@[simp] theorem isVal_cvtWrite (dst : FTy) (x : Num.Fl) : IsVal (cvtWrite dst x) := by
  cases dst with
  | int t => exact isVal_ite (isVal_val ..) (isVal_val ..)
  | _ => exact isVal_val ..

theorem isVal_fcvt (src dst : FTy) (a : Val) : IsVal (if a.x then .val Val.err else match cvtRead src a.nat with
    | none => .val Val.err flPcode
    | some x => cvtWrite dst x) :=
  isVal_ite (isVal_val ..) (by cases cvtRead src a.nat <;> simp)

/-- Whatever its operands are, a word whose one effect is a value answers one. -/
theorem valueOnly_body (i : Instr) (h : valueOnly i = true) :
    ∃ body, (∀ s, exec i s = fireWord s i body) ∧ ∀ s c f n vs, IsVal (body s c f n vs) := by
  cases i
  case fcvt g src dst => exact ⟨_, fun _ => rfl, fun _ _ _ _ vs => isVal_fcvt src dst (opn vs 0)⟩
  case ldfx g => exact ⟨_, fun _ => rfl, fun _ _ _ _ _ => isVal_ite (isVal_val ..) (isVal_val ..)⟩
  all_goals first
    | exact absurd h Bool.false_ne_true
    | exact ⟨_, fun _ => rfl, fun _ _ _ _ _ => by simp only [isVal_val, isVal_predOp, isVal_int2, isVal_int1, isVal_pat2, isVal_pat1,
        isVal_extBody, isVal_errAny, isVal_f32Op, isVal_divOp, isVal_remOp]⟩

/-- A value that meets a target that has had its delivery is a second one. -/
theorem twice_of_val {s : State} {c k n : Nat} {f : Firing} {i : Instr} {vs : List Val} {body : State → Nat → Firing → Nat → List Val → FRes}
    (h : Executes s c k n f i vs) (he : exec i s = fireWord s i body) {v : Val} {fl : Nat} (hb : body s c f n vs = .val v fl)
    (hf : ¬ Free f i.shape.tgts) : DeliversTwice s (counted s c) c k f i := by
  let g : Firing := { ran f n with astat := f.astat ||| fl, outs := f.outs ++ [] }
  have hx : exec i s = .next (deliverFrom { counted s c with net := (counted s c).net ++ [] } c k n g i.shape.tgts (some v)) := by
    rw [he, fireWord_eq h, hb]
    simp only [FRes.val, applyOut, bne_self_eq_false, Bool.and_false, Bool.false_eq_true, if_false, if_true]
    rfl
  have hnet : { counted s c with net := (counted s c).net ++ [] } = counted s c := by rw [List.append_nil]
  rw [hnet] at hx
  obtain ⟨t, ht, hg⟩ := exists_twice_of_not_free (at_ := arrival (counted s c) c n g) (n := n) (v := some v) (f := g) hf
  have hd := delivering_foldl (at_ := arrival (counted s c) c n g) (n := n) (v := some v) i.shape.tgts g
  exact ⟨_, t, hd.fp, hd.addr, ht, hg, hx⟩

/-! ## The first and the second of some deliveries -/

section
variable {α : Type} {g : Option α → α → Option α}

/-- A fold that keeps what it has or takes the next element ends at an element. -/
theorem foldl_keep_mem (hg : ∀ m a, g m a = m ∨ g m a = some a) {l : List α} {m : Option α} {x : α} (h : l.foldl g m = some x) :
    m = some x ∨ x ∈ l := by
  induction l generalizing m with
  | nil => exact .inl h
  | cons a l ih =>
    rcases ih (m := g m a) h with h1 | h1
    · rcases hg m a with h2 | h2
      · exact .inl (h2.symm.trans h1)
      · obtain rfl : a = x := Option.some.inj (h2.symm.trans h1)
        exact .inr List.mem_cons_self
    · exact .inr (List.mem_cons_of_mem _ h1)

/-- Where each step ends at or before what it has and the next element, the fold ends at or before all. -/
theorem foldl_least {le : α → α → Prop} (trans : ∀ a b c, le a b → le b c → le a c)
    (hg : ∀ m a, ∃ y, g m a = some y ∧ le y a ∧ ∀ b, m = some b → le y b) {l : List α} {m : Option α} {x : α}
    (h : l.foldl g m = some x) (hr : le x x) : (∀ b, m = some b → le x b) ∧ ∀ e ∈ l, le x e := by
  induction l generalizing m with
  | nil => exact ⟨fun b hb => Option.some.inj (h.symm.trans hb) ▸ hr, nofun⟩
  | cons a l ih =>
    obtain ⟨y, hy, hya, hyb⟩ := hg m a
    obtain ⟨h1, h2⟩ := ih (m := g m a) h
    have hxy := h1 y hy
    exact ⟨fun b hb => trans _ _ _ hxy (hyb b hb), fun e he => (List.mem_cons.mp he).elim (fun h => h ▸ trans _ _ _ hxy hya) (h2 e)⟩

end

theorem earlier_refl (a : Nat × Nat) : earlier a a = true := by simp [earlier]
theorem earlier_trans (a b c : Nat × Nat) (h : earlier a b = true) (h' : earlier b c = true) : earlier a c = true := by
  simp only [earlier, decide_eq_true_eq] at *
  omega
theorem earlier_of_not {a b : Nat × Nat} (h : ¬ earlier a b = true) : earlier b a = true := by
  simp only [earlier, decide_eq_true_eq] at *
  omega

theorem firstDel_mem {l : List (Nat × Nat)} {a : Nat × Nat} (h : firstDel l = some a) : a ∈ l := by
  refine (foldl_keep_mem (fun m b => ?_) h).resolve_left nofun
  cases m with
  | none => exact .inr rfl
  | some b' =>
    dsimp only
    split
    · exact .inl rfl
    · exact .inr rfl
theorem firstDel_earliest {l : List (Nat × Nat)} {a e : Nat × Nat} (h : firstDel l = some a) (he : e ∈ l) : earlier a e = true := by
  refine (foldl_least (le := fun a b => earlier a b = true) earlier_trans (fun m b => ?_) h (earlier_refl a)).2 e he
  cases m with
  | none => exact ⟨b, rfl, earlier_refl b, nofun⟩
  | some b' =>
    dsimp only
    split
    next hle => exact ⟨b', rfl, hle, fun _ h => Option.some.inj h ▸ earlier_refl b'⟩
    next hle => exact ⟨b, rfl, earlier_refl b, fun _ h => Option.some.inj h ▸ earlier_of_not hle⟩

/-- The second of some deliveries is one of them, with another no later. -/
theorem secondDel_spec {l : List (Nat × Nat)} {d : Nat × Nat} (h : secondDel l = some d) : d ∈ l ∧ ∃ e ∈ l.erase d, earlier e d = true := by
  unfold secondDel at h
  split at h
  next a ha =>
    have hd := firstDel_mem h
    refine ⟨List.mem_of_mem_erase hd, a, ?_, firstDel_earliest ha (List.mem_of_mem_erase hd)⟩
    by_cases hda : a = d
    · exact hda ▸ hda.symm ▸ hd
    · exact (List.mem_erase_of_ne hda).mpr (firstDel_mem ha)
  next => cases h

theorem doubleNow_mem {f : Firing} {now : Nat} {d : Nat × Nat × Target} (h : doubleNow f now = some d) : d ∈ doubles f ∧ d.1 ≤ now := by
  have hm := (foldl_keep_mem (fun m b => ?_) h).resolve_left nofun
  · simpa using hm
  · cases m with
    | none => exact .inr rfl
    | some b' =>
      dsimp only
      split
      · exact .inl rfl
      · exact .inr rfl
/-- What traps a firing is a second delivery that has arrived. -/
theorem secondAt_of_doubleNow {f : Firing} {now d p : Nat} {t : Target} (h : doubleNow f now = some (d, p, t)) : SecondAt f now d p t := by
  obtain ⟨hm, harr⟩ := doubleNow_mem h
  simp only [doubles, List.mem_filterMap, Option.map_eq_some_iff, Prod.mk.injEq] at hm
  obtain ⟨t', ht, e, he, rfl, rfl, rfl⟩ := hm
  split at he
  next hr => exact ⟨ht, harr, firstDel_mem he, .inl (by simpa using hr)⟩
  next => exact ⟨ht, harr, (secondDel_spec he).1, .inr (secondDel_spec he).2⟩

theorem doubles_nil {f : Firing} (h : f.twice = []) : doubles f = [] := by
  rw [doubles, h, List.filterMap_nil]
theorem trapDouble_of_some {s : State} {c k d p : Nat} {f : Firing} {t : Target} (h : firingAt s c k = some f)
    (hd : doubleNow f (coreCclk s c) = some (d, p, t)) : trapDouble s c k = takeTrap s c k { cause := 0x07, pos := p, w5 := t.code } := by
  have ht : f.twice ≠ [] := fun ht => by
    rw [doubleNow, doubles_nil ht] at hd
    cases hd
  simp [trapDouble, h, ht, hd]
theorem trapDouble_of_none {s : State} {c k : Nat} {f : Firing} (h : firingAt s c k = some f) (hd : doubleNow f (coreCclk s c) = none) :
    trapDouble s c k = s := by
  simp [trapDouble, h, hd]

/-- Settles O9: a value by its word's body, a second delivery by what is noted, its trap by the order of deliveries. -/
theorem secondDeliveryTraps : Obligations.SecondDeliveryTraps := by
  intro s c k n f i vs hv hex
  obtain ⟨body, he, hb⟩ := valueOnly_body i hv
  obtain ⟨v, fl, hval⟩ := hb s c f n vs
  exact ⟨fun hf => ⟨v, fl, gives_of_val hex hf (he s) hval⟩, twice_of_val hex (he s) hval, fun u g hg =>
    ⟨fun d p t hd => ⟨secondAt_of_doubleNow hd, trapDouble_of_some hg hd⟩, trapDouble_of_none hg⟩⟩

end Sys2Proof.Safety
end

section
/-! PROOFS. What a core keeps while a firing of it ends: its block slots, its mode, its pending traps (R115, R120, R124). -/

namespace Sys2Proof.Safety

open Sys2Proof.Machine

/-! ## Tables rewritten entry by entry -/

theorem find?_map_entries {α : Type} {h : Nat × α → Nat × α} (hk : ∀ e, (h e).1 = e.1) (m : Sp α) (i : Nat) :
    Sp.find? (List.map h m) i = (Sp.find? m i).map fun v => (h (i, v)).2 := by
  induction m with
  | nil => rfl
  | cons e m ih =>
    obtain ⟨k, v⟩ := e
    rcases hh : h (k, v) with ⟨k', v'⟩
    obtain rfl : k' = k := by simpa [hh] using hk (k, v)
    by_cases hi : i = k'
    · subst hi
      simp [hh, Sp.find?]
    · simp [hh, Sp.find?, hi, ih]
theorem get_map_entries {α : Type} {h : Nat × α → Nat × α} (hk : ∀ e, (h e).1 = e.1) (m : Sp α) (i : Nat) (d : α) :
    Sp.get (List.map h m) i d = match Sp.find? m i with | some v => (h (i, v)).2 | none => d := by
  rw [Sp.get, find?_map_entries hk]
  cases Sp.find? m i <;> rfl
theorem ite_keeps {α β : Type} {φ : α → β} {p : Prop} [Decidable p] {a b : α} {x : β} (h : φ a = x) (hb : φ b = x := by rfl) :
    φ (if p then a else b) = x := by
  split
  · exact h
  · exact hb
/-- What every entry keeps is kept. -/
theorem get_map_keeps {α β : Type} {φ : α → β} {h : Nat × α → Nat × α} (hk : ∀ e, (h e).1 = e.1) (hφ : ∀ e, φ (h e).2 = φ e.2) (m : Sp α)
    (i : Nat) (d : α) : φ (Sp.get (List.map h m) i d) = φ (m.get i d) := by
  rw [Sp.get, Sp.get, find?_map_entries hk]
  cases Sp.find? m i with
  | none => rfl
  | some v => exact hφ (i, v)

/-! ## The running part of a core -/

/-- What of a core only its own firings and traps change: block slots, UNDONE, mode, TRAPV, pending traps. -/
def runPart (co : Core) : List (Option Firing) × Nat × Nat × BitVec 64 × List Pend := (co.slots, co.undone, co.mode, co.trapv, co.pend)
/-- The same of every core. -/
def runParts (s : State) (c : Nat) : List (Option Firing) × Nat × Nat × BitVec 64 × List Pend := runPart (s.core c)

section
variable (s : State)

theorem runParts_modCore {c : Nat} {f : Core → Core} (h : ∀ co, runPart (f co) = runPart co := by intro; rfl) : runParts (s.modCore c f) = runParts s := by
  funext j
  rw [runParts, core_modCore]
  split
  next hj => rw [hj, h, runParts]
  next => rfl
@[simp] theorem runParts_modDie (d : Nat) (f : Die → Die) : runParts (s.modDie d f) = runParts s := rfl
@[simp] theorem runParts_setDie (d : Nat) (x : Die) : runParts (s.setDie d x) = runParts s := rfl
@[simp] theorem runParts_modPkg (f : Pkg → Pkg) : runParts (s.modPkg f) = runParts s := rfl
@[simp] theorem runParts_setMem (m : List Host.Cell) : runParts (s.setMem m) = runParts s := rfl
@[simp] theorem runParts_raise (e : Event) : runParts (s.raise e) = runParts s := rfl
theorem runParts_foldl {α : Type} {f : State → α → State} (hf : ∀ s a, runParts (f s a) = runParts s) (l : List α) :
    runParts (l.foldl f s) = runParts s := by
  induction l generalizing s with
  | nil => rfl
  | cons a l ih => exact (ih _).trans (hf s a)

/-! ### Counts, waiters, frames -/

theorem runParts_of_counted {t : State} {c : Nat} (h : Counted s t c) : runParts t = runParts s := by
  funext j
  by_cases hj : j = c
  · subst hj
    obtain ⟨m, hm⟩ := h.own
    rw [runParts, hm]
    rfl
  · rw [runParts, h.other j hj, runParts]
@[simp] theorem runParts_countEv (c code n : Nat) : runParts (countEv s c code n) = runParts s := runParts_of_counted s (countEv_counted s c code n)
@[simp] theorem runParts_stray (c fp slot : Nat) : runParts (stray s c fp slot) = runParts s :=
  (runParts_countEv ..).trans (runParts_modCore s)
theorem runParts_of_frameWrites {t : State} (h : FrameWrites s t) : runParts t = runParts s := by
  funext j
  obtain ⟨w, hw⟩ := h.core j
  rw [runParts, hw]
  rfl
@[simp] theorem runParts_setFrameState (fp st : Nat) : runParts (setFrameState s fp st) = runParts s :=
  runParts_of_frameWrites s (frameWrites_setFrameState s fp st)
theorem runParts_of_calm {t : State} (h : ∀ c, Calm s t c 0) : runParts t = runParts s := by
  funext j
  obtain ⟨w, hw⟩ := (h j).own
  rw [runParts, hw]
  rfl
@[simp] theorem runParts_setHomeWaiters (key : Nat) (l : List Waiter) : runParts (setHomeWaiters s key l) = runParts s :=
  runParts_of_calm s (calm_setHomeWaiters s key l)
@[simp] theorem runParts_becameFull (key : Nat) : runParts (becameFull s key) = runParts s :=
  runParts_of_calm s fun c => (calm_becameFull s key c).1
@[simp] theorem runParts_dropWaiters (fp : Nat) : runParts (dropWaiters s fp) = runParts s := by
  funext j
  refine get_map_keeps (φ := runPart) ?_ ?_ s.cores j {} <;> exact fun _ => rfl
@[simp] theorem runParts_endReservesBut (fp : Nat) (but : Option Nat) : runParts (endReservesBut s fp but) = runParts s := by
  refine runParts_foldl s (fun s key => ?_) _
  dsimp only
  split <;> simp
@[simp] theorem runParts_zeroWords (c h n : Nat) : runParts (zeroWords s c h n) = runParts s := by
  funext j
  rw [runParts, core_zeroWords, runParts]
@[simp] theorem runParts_withoutFrame (fp : Nat) : runParts (withoutFrame s fp) = runParts s := by
  refine (runParts_modCore _).trans ?_
  exact runParts_zeroWords s _ _ _
@[simp] theorem runParts_freeFrame (fp : Nat) : runParts (freeFrame s fp) = runParts s := by
  obtain ⟨gone, late, h⟩ := freeFrame_eq s fp
  rw [h, endReservations, runParts_endReservesBut, runParts_foldl _ fun s _ => runParts_stray s ..]
  refine (runParts_modCore _).trans ?_
  rw [runParts_foldl _ fun s slot => runParts_stray s .., runParts_withoutFrame]
@[simp] theorem runParts_lateFree (fp : Nat) : runParts (lateFree s fp) = runParts s := by
  rw [lateFree]
  split
  · rw [freeDeferred, runParts_freeFrame]
    exact (runParts_modCore _).trans (runParts_dropWaiters s fp)
  · rfl
@[simp] theorem runParts_dropReserved (f : Firing) : runParts (dropReserved s f) = runParts s :=
  runParts_foldl s (fun s _ => runParts_modCore s) _

/-! ### The fault log, the block store, the trace -/

@[simp] theorem runParts_logRec (d kind core cls part : Nat) (detail : List (BitVec 64)) :
    runParts (logRec s d kind core cls part detail).1 = runParts s := rfl
@[simp] theorem runParts_ringRecord (evt : BitVec 64) (w : List Nat) : runParts (ringRecord s evt w) = runParts s := by
  simp only [ringRecord]
  split
  · split
    · rfl
    · split <;> exact runParts_setMem s _
  · rfl
@[simp] theorem runParts_dieEvent (d core kind w3 idx : Nat) : runParts (dieEvent s d core kind w3 idx) = runParts s := by
  rw [dieEvent]
  split
  · exact runParts_ringRecord s _ _
  · rfl
@[simp] theorem runParts_trapLogged (c kind w3 : Nat) (words : List (BitVec 64)) : runParts (trapLogged s c kind w3 words) = runParts s :=
  runParts_dieEvent ..
@[simp] theorem runParts_tlbInv (sc : Scope) (c : Nat) (part : Option Nat) (va : Nat) : runParts (tlbInv s sc c part va) = runParts s := by
  funext j
  refine get_map_keeps (φ := runPart) (fun e => ?_) (fun e => ?_) s.cores j {}
  · exact ite_keeps (φ := Prod.fst) rfl
  · exact ite_keeps (φ := fun e : Nat × Core => runPart e.2) rfl
@[simp] theorem runParts_llcWrite (part : Option Nat) (p : Nat) : runParts (llcWrite s part p) = runParts s := by
  rw [llcWrite]
  split <;> rfl
@[simp] theorem runParts_llcRead (part : Option Nat) (p b : Nat) : runParts (llcRead s part p b).1 = runParts s := by
  rw [llcRead]
  split
  · dsimp only
    split <;> rfl
  · rfl
@[simp] theorem runParts_llcRange (part : Option Nat) (p n : Nat) (w : Bool) : runParts (llcRange s part p n w) = runParts s := by
  rw [llcRange]
  split <;> rfl
@[simp] theorem runParts_walkCache (part : Option Nat) (root : BitVec 64) (va : Nat) : runParts (walkCache s part root va) = runParts s := by
  rw [walkCache]
  split
  · rfl
  · exact runParts_foldl s (fun s _ => runParts_llcRead s ..) _
@[simp] theorem runParts_kvSetPte (d slot : Nat) (b : Option Nat) : runParts (kvSetPte s d slot b) = runParts s := by
  simp only [kvSetPte, runParts_llcWrite, runParts_setMem]
@[simp] theorem runParts_kvCow (d slot b b' : Nat) : runParts (kvCow s d slot b b') = runParts s := by
  simp only [kvCow, runParts_tlbInv, runParts_llcRange, runParts_kvSetPte, runParts_setDie, runParts_setMem]
theorem runParts_choose {α : Type} {l : List α} {r : State × α} (h : choose s l = some r) : runParts r.1 = runParts s := by
  unfold choose at h
  split at h
  · cases h
    rfl
  · cases h
theorem runParts_kvMap {loc : Loc} {w : Bool} {r : State × Loc} (h : kvMap s loc w = some r) : runParts r.1 = runParts s := by
  unfold kvMap at h
  split at h
  · cases h
    rfl
  dsimp only at h
  split at h
  · cases h
    rfl
  split at h
  · split at h
    · cases h
    next hc =>
      cases h
      exact (runParts_kvCow ..).trans (runParts_choose s hc)
  · cases h
    rfl
@[simp] theorem runParts_raiseOnce (e : Event) : runParts (raiseOnce s e) = runParts s := by
  rw [raiseOnce]
  split <;> rfl
@[simp] theorem runParts_kvLeave (d : Nat) (h : KvHeld) : runParts (kvLeave s d h) = runParts s := runParts_raiseOnce ..
theorem runParts_kvRoute {loc : Loc} {w : Bool} {me : Option HeldBy} {r : State × Loc} (h : kvRoute s loc w me = some r) :
    runParts r.1 = runParts s := by
  unfold kvRoute at h
  split at h
  · cases h
    rfl
  split at h
  · exact runParts_kvMap s h
  split at h
  · obtain ⟨q, hq, rfl⟩ := Option.map_eq_some_iff.mp h
    exact (runParts_kvLeave ..).trans (runParts_kvMap s hq)
  · cases h
@[simp] theorem runParts_kvHold (d slot : Nat) (w : Bool) (who : HeldBy) : runParts (kvHold s d slot w who) = runParts s := by
  simp only [kvHold]
  split
  · rfl
  split
  · rfl
  · exact runParts_dieEvent ..
@[simp] theorem runParts_kvDamageWord (p : Nat) : runParts (kvDamageWord s p) = runParts s := by
  rw [kvDamageWord]
  split
  · refine (runParts_foldl _ (fun s q => ?_) _).trans (runParts_modDie ..)
    exact (runParts_dieEvent ..).trans (runParts_logRec ..)
  · rfl
@[simp] theorem runParts_physWrite (p v n : Nat) (x : Bool) : runParts (physWrite s p v n x) = runParts s :=
  runParts_foldl s (fun s _ => runParts_kvDamageWord s _) _
@[simp] theorem runParts_traceGo (d n : Nat) : runParts (traceGo s d n) = runParts s := by
  induction n generalizing s with
  | zero => rfl
  | succ n ih =>
    rw [traceGo]
    split
    · rfl
    split
    next h => rw [ih, runParts_modDie, runParts_llcWrite, runParts_physWrite, runParts_physWrite, runParts_kvRoute s h]
    · exact runParts_kvHold ..
    · rfl
@[simp] theorem runParts_tracePut (d w0 w1 : Nat) : runParts (tracePut s d w0 w1) = runParts s := by
  simp only [tracePut, xlateAt]
  split
  · rfl
  · cases xlateNow s (diePart s d) (bits (s.die d).trace.base.toNat 47 12 * 4096 + 16 * (s.die d).trace.head) true with
    | error e => exact runParts_walkCache ..
    | ok loc => exact (runParts_traceGo ..).trans (runParts_walkCache ..)
@[simp] theorem runParts_traceAbs (d cause : Nat) : runParts (traceAbs s d cause) = runParts s := by
  simp only [traceAbs, runParts_modDie, runParts_tracePut]
@[simp] theorem runParts_traceLost (d : Nat) : runParts (traceLost s d) = runParts s := by
  simp only [traceLost, runParts_traceAbs, runParts_modDie, runParts_tracePut]
@[simp] theorem runParts_traceRec (d core kind a b : Nat) : runParts (traceRec s d core kind a b) = runParts s := by
  simp only [traceRec]
  split
  · rfl
  split
  · rfl
  rw [runParts_modDie, runParts_tracePut]
  have hlost : runParts (if (s.die d).trace.lost = 0 then s else traceLost s d) = runParts s :=
    ite_keeps rfl (runParts_traceLost s d)
  split
  · rw [runParts_traceAbs, hlost]
  · exact ite_keeps ((runParts_traceAbs ..).trans hlost) hlost

end

end Sys2Proof.Safety
end

section
/-! PROOFS. A firing that ends leaves its block slot, and the frame of a word in one that goes on (R112, R115, R117, R203). -/

namespace Sys2Proof.Safety

open Sys2Proof.Machine

/-! ## Block slots -/

section
variable {s t : State} {c k : Nat} {f : Firing}

theorem firingAt_of_runParts (h : runParts t = runParts s) (c k : Nat) : firingAt t c k = firingAt s c k := by
  have hslots : (t.core c).slots = (s.core c).slots := congrArg Prod.fst (congrFun h c)
  rw [firingAt, hslots, firingAt]
theorem slot_lt (h : firingAt s c k = some f) : k < (s.core c).slots.length := by
  rw [firingAt, nthD_eq] at h
  by_contra hk
  rw [List.getElem?_eq_none (by omega)] at h
  cases h
theorem firingAt_setFiring_ne {j : Nat} (h : j ≠ k) (o : Option Firing) : firingAt (setFiring s c k o) c j = firingAt s c j := by
  simp only [firingAt, setFiring, State.core_modCore_self, setNth_eq_set, nthD_eq, List.getElem?_set_ne h.symm]
/-- Once a firing is undone its block slot is empty. -/
theorem firingAt_undo (s : State) (c k : Nat) (f : Firing) : firingAt (undo s c k f) c k = none := by
  simp only [firingAt, undo, State.core_modCore_self, setNth_eq_set, nthD_eq, List.getElem?_set, if_true]
  split_ifs <;> rfl
theorem firingAt_routeTrap (s : State) (c cause cls : Nat) (inH : Bool) (words : List (BitVec 64)) (j k : Nat) :
    firingAt (routeTrap s c cause cls inH words) j k = firingAt s j k := by
  have hset (x : Core) (hx : x.slots = (s.core c).slots) : firingAt (s.setCore c x) j k = firingAt s j k := by
    by_cases hj : j = c
    · subst hj
      rw [firingAt, State.core_setCore_self, hx, firingAt]
    · rw [firingAt, State.core_setCore_ne _ _ hj, firingAt]
  simp only [routeTrap]
  split
  · exact (firingAt_of_runParts (runParts_trapLogged ..) j k).trans (hset _ rfl)
  · split
    · exact firingAt_of_runParts (runParts_trapLogged ..) j k
    · exact hset _ rfl

/-- A trap taken empties the block slot. -/
theorem firingAt_takeTrap (s : State) (c k : Nat) (r : Trap) : firingAt (takeTrap s c k r) c k = none := by
  simp only [takeTrap]
  split
  next h => exact h
  next f h =>
    rw [firingAt_of_runParts (runParts_lateFree ..), firingAt_routeTrap, firingAt_of_runParts (runParts_traceRec ..),
      firingAt_of_runParts (runParts_countEv ..), endReservations, firingAt_of_runParts (runParts_endReservesBut ..),
      firingAt_of_runParts (runParts_dropWaiters ..), firingAt_of_runParts (runParts_setFrameState ..), firingAt_undo]
/-- So does a firing that parks its frame. -/
theorem firingAt_parkFiring (s : State) (c k : Nat) (key : Option Nat) : firingAt (parkFiring s c k key) c k = none := by
  simp only [parkFiring]
  split
  next h => exact h
  next f h =>
    rw [firingAt_of_runParts (runParts_lateFree ..), firingAt_of_runParts (runParts_countEv ..),
      firingAt_of_runParts (runParts_endReservesBut ..), firingAt_of_runParts (runParts_setFrameState ..), firingAt_undo]

end

/-! ## What a word in a firing leaves unchanged -/

theorem sameButSlots_iff {a b : Core} : SameButSlots a b ↔ ∃ sl n bz tl, a = { b with slots := sl, insns := n, busy := bz, tlb := tl } := by
  refine ⟨fun h => ⟨_, _, _, _, h⟩, ?_⟩
  rintro ⟨sl, n, bz, tl, rfl⟩
  rfl

/-- State t is s but for the firing in block slot k of core c, its instruction counter, activity bits and TLB, and packets added. -/
structure FireFrame (s t : State) (c k : Nat) : Prop where
  rest : t = { s with cores := t.cores, net := t.net }
  net : ∃ ps, t.net = s.net ++ ps
  others : ∀ j, j ≠ c → t.core j = s.core j
  slots : ∀ j, j ≠ k → firingAt t c j = firingAt s c j
  own : SameButSlots (t.core c) (s.core c)

section
variable {s t u : State} {c k : Nat}

theorem FireFrame.trans (h : FireFrame s t c k) (g : FireFrame t u c k) : FireFrame s u c k where
  rest := by rw [g.rest, h.rest]
  net := by
    obtain ⟨ps, hp⟩ := h.net
    obtain ⟨qs, hq⟩ := g.net
    exact ⟨ps ++ qs, by rw [hq, hp, List.append_assoc]⟩
  others j hj := (g.others j hj).trans (h.others j hj)
  slots j hj := (g.slots j hj).trans (h.slots j hj)
  own := by
    obtain ⟨_, _, _, _, h'⟩ := sameButSlots_iff.mp h.own
    obtain ⟨_, _, _, _, g'⟩ := sameButSlots_iff.mp g.own
    exact sameButSlots_iff.mpr ⟨_, _, _, _, by rw [g', h']⟩
theorem FireFrame.refl (s : State) (c k : Nat) : FireFrame s s c k :=
  ⟨rfl, ⟨[], by rw [List.append_nil]⟩, fun _ _ => rfl, fun _ _ => rfl, rfl⟩
/-- A change of the core that leaves its block slots. -/
theorem fireFrame_modCore {g : Core → Core} (h : ∀ co, SameButSlots (g co) co) (hs : ∀ co, (g co).slots = co.slots) :
    FireFrame s (s.modCore c g) c k where
  rest := rfl
  net := ⟨[], by rw [List.append_nil]; rfl⟩
  others _ hj := State.core_modCore_ne s g hj
  slots j _ := by rw [firingAt, State.core_modCore_self, hs, firingAt]
  own := by
    rw [State.core_modCore_self]
    exact h _
theorem fireFrame_noteTlb (tl : Option Tlb) : FireFrame s (noteTlb s c tl) c k := by
  cases tl with
  | none => exact .refl s c k
  | some t =>
    rw [noteTlb, tlbCore]
    refine fireFrame_modCore (fun co => ?_) (fun co => ?_) <;> split <;> rfl
theorem fireFrame_counted : FireFrame s (counted s c) c k := fireFrame_modCore (fun _ => rfl) (fun _ => rfl)
theorem fireFrame_setFiring (o : Option Firing) : FireFrame s (setFiring s c k o) c k where
  rest := rfl
  net := ⟨[], by rw [List.append_nil]; rfl⟩
  others _ hj := State.core_modCore_ne s _ hj
  slots _ hj := firingAt_setFiring_ne hj o
  own := by
    rw [setFiring, State.core_modCore_self]
    rfl
theorem fireFrame_deliverFrom (n : Nat) (f : Firing) (ts : List Target) (v : Option Val) :
    FireFrame s (deliverFrom s c k n f ts v) c k := fireFrame_setFiring _
theorem fireFrame_send (ps : List Packet) : FireFrame s { s with net := s.net ++ ps } c k :=
  ⟨rfl, ⟨ps, rfl⟩, fun _ _ => rfl, fun _ _ => rfl, rfl⟩
theorem fireFrame_applyOut (n : Nat) (f : Firing) (i : Instr) (o : FOut) : FireFrame s (applyOut s c k n f i o) c k := by
  have hsent := ((fireFrame_noteTlb (s := s) (c := c) (k := k) o.tlb).trans fireFrame_counted).trans (fireFrame_send o.pkts)
  simp only [applyOut]
  split
  · exact hsent.trans (fireFrame_deliverFrom ..)
  · exact hsent.trans (fireFrame_setFiring _)

/-- A firing in which a word executes ends, or awaits a translation, or all else is kept. -/
theorem fire_frame {n : Nat} {f : Firing} (i : Instr) (body : State → Nat → Firing → Nat → List Val → FRes) (hf : firingAt s c k = some f) :
    let t := fire s c k n f i body
    firingAt t c k = none ∨ (∃ g, firingAt t c k = some g ∧ g.walks = n :: f.walks) ∨ FireFrame s t c k := by
  simp only [fire]
  split
  · exact .inr (.inr (fireFrame_deliverFrom ..))
  split
  · exact .inr (.inr (fireFrame_setFiring _))
  · split
    · exact .inl (firingAt_takeTrap ..)
    · exact .inr (.inr (fireFrame_deliverFrom ..))
  · split
    · exact .inr (.inr (fireFrame_applyOut ..))
    · exact .inl (firingAt_takeTrap ..)
    · exact .inr (.inl ⟨_, firingAt_setFiring (slot_lt hf) _, rfl⟩)
    · exact .inl (firingAt_parkFiring ..)

theorem exec_coded_eq {n : Nat} {f : Firing} {i : Instr} (hi : i.coded = true) (hfoc : s.focus = .firing c k n)
    (hf : firingAt s c k = some f) (h : exec i s = .next t) : ∃ body, t = fire s c k n f i body := by
  obtain ⟨body, he⟩ := coded_fire i hi
  refine ⟨body, ?_⟩
  rw [he s c k n hfoc, fireWord, hfoc] at h
  simp only [hf] at h
  split at h
  · exact (Host.Outcome.next.inj h).symm
  · cases h

end

/-- Settles O10: a firing that goes on has neither ended nor begun to await a translation. -/
theorem firingInstructionFrame : Obligations.FiringInstructionFrame := by
  intro s t c k n f g i hi hfoc hf he hg hw
  obtain ⟨body, rfl⟩ := exec_coded_eq hi hfoc hf he
  rcases fire_frame (n := n) i body hf with h | ⟨g', hg', hw'⟩ | ⟨hrest, hnet, hothers, hslots, hown⟩
  · cases h.symm.trans hg
  · obtain rfl : g = g' := Option.some.inj (hg.symm.trans hg')
    exact absurd (hw'.symm.trans hw) (List.cons_ne_self n f.walks)
  · exact ⟨fun a => by rw [hrest], by rw [hrest], by rw [hrest], by rw [hrest], by rw [hrest], by rw [hrest], by rw [hrest], hnet, hothers,
      hslots, hown⟩

end Sys2Proof.Safety
end

section
/-! PROOFS. The return from a trap (R105, R109, R214). -/

namespace Sys2Proof.Safety

open Sys2Proof.Machine

theorem trappedHere_iff (s : State) (c fp : Nat) :
    trappedHere s c fp = true ↔ fpCore fp = c ∧ bits fp 19 17 = 0 ∧ frameAlloc s fp = true ∧ frameState s fp = 5 := by
  simp [trappedHere, stTrapped, and_assoc]

section
variable {s : State} {c fp : Nat}

theorem trapRerun_here (h : trappedHere s c fp = true) : trapRerun s c fp = checkReady (setFrameState s fp 1) fp := if_pos h
theorem trapResume_here (h : trappedHere s c fp = true) {b : Blk} (hb : taskBlk s c (frameTask s fp) = some b) :
    trapResume s c fp = step8 (setFrameState (consumeSlots s fp
      ((b.reads.map parseRd).filterMap fun r => if r.consume then some r.slot else none)) fp 1) fp := by
  simp only [trapResume, h, if_true, hb]
  rfl
theorem trapFree_here (h : trappedHere s c fp = true) : frameAlloc (trapFree s c fp) fp = false := by
  rw [trapFree, if_pos h, frameAlloc_freeFrame]
/-- What names no trapped frame is a stray. -/
theorem trap_return_stray (h : ¬ trappedHere s c fp = true) :
    trapRerun s c fp = stray s c fp 0 ∧ trapResume s c fp = stray s c fp 0 ∧ trapFree s c fp = stray s c fp 0 :=
  ⟨if_neg h, if_neg h, if_neg h⟩

end

/-- Settles O42: the pointer names a trapped frame of the core, or does not. -/
theorem trappedFramesAreDisposedOf : Obligations.TrappedFramesAreDisposedOf := by
  intro s0 c fp at_ names
  have hiff (e : Event) : trappedHere (at_ e) c fp = true ↔ names := trappedHere_iff (at_ e) c fp
  refine ⟨fun hn => ⟨congrArg Host.Outcome.next (trapRerun_here ((hiff _).mpr hn)), fun b hb slots hs => ?_,
    _, rfl, trapFree_here ((hiff (.frameCtlFree c fp)).mpr hn)⟩, fun hn => ?_⟩
  · subst hs
    exact congrArg Host.Outcome.next (trapResume_here ((hiff _).mpr hn) hb)
  · have hs (e : Event) := trap_return_stray (s := at_ e) (mt (hiff e).mp hn)
    exact ⟨congrArg Host.Outcome.next (hs _).1, congrArg Host.Outcome.next (hs _).2.1, congrArg Host.Outcome.next (hs _).2.2⟩

end Sys2Proof.Safety
end

section
/-! PROOFS. Tokens that arrive (R106, R108, R206). -/

namespace Sys2Proof.Safety

open Sys2Proof.Machine

/-- A word written leaves every other byte, but for the word's tag. -/
theorem memGet_putWord_outside {m : List Host.Cell} (hm : Memory.wf m = true) {key a : Nat} (ha : outside key 8 a) (w : TWord) :
    memGet (putWord m key w) a = memGet m a := by
  obtain ⟨hout, htag⟩ := ha
  rw [putWord, memGet_setTags_data (memPut_wf hm _ _ _) _ _ _ _ htag, memGet_memPut_of_not_mem hm _ _ _ _ hout]

/-! ## Where a token goes -/

section
variable {s : State} {t : Token}

theorem deliver_absent (h : corePresent s (fpCore t.fp) = false) :
    (∀ m, t.src = some m → deliver s t = stray s m t.fp t.slot) ∧ (t.src = none → deliver s t = s) := by
  simp +contextual [deliver, h]
theorem deliver_stray (hc : corePresent s (fpCore t.fp) = true) (h : frameAlloc s t.fp = false ∨ frameSize s t.fp ≤ t.slot) :
    deliver s t = stray s (fpCore t.fp) t.fp t.slot := by
  have hbad : (!frameAlloc s t.fp || decide (t.slot ≥ frameSize s t.fp)) = true := by simpa using h
  simp only [deliver, hc, hbad, Bool.not_true, Bool.false_eq_true, if_false, if_true]
/-- A token of a slot that exists. -/
theorem deliver_slot (hc : corePresent s (fpCore t.fp) = true) (ha : frameAlloc s t.fp = true) (hn : t.slot < frameSize s t.fp) :
    deliver s t = if (slotWord s t.fp t.slot).f = false ∧ slotHead (s.core (fpCore t.fp)).tbuf t.fp t.slot = none
      then checkReady (recount (setSlot s t.fp t.slot t.v) t.fp) t.fp else tbufAdd s (fpCore t.fp) (.token t) := by
  have hgood : (!frameAlloc s t.fp || decide (t.slot ≥ frameSize s t.fp)) = false := by simp [ha, hn]
  simp only [deliver, hc, hgood, Bool.not_true, Bool.false_eq_true, if_false, Bool.and_eq_true, Bool.not_eq_true', Option.isNone_iff_eq_none]

theorem strayTok_stray (s : State) (c fp slot : Nat) :
    ((stray s c fp slot).core c).strayTok.toNat = ((s.core c).strayTok.toNat + 1) % 2 ^ 48 := by
  obtain ⟨m, hm⟩ := stray_core s c fp slot
  rw [hm, BitVec.toNat_ofNat, wrap48]
  omega

end

/-! ## The token buffer -/

section
variable {s : State} {c : Nat}

/-- While the pool has room and nothing waits at the port, an item joins the pool. -/
theorem tbuf_tbufAdd_pool {e : TEntry} (hport : ∀ b ∈ (s.core c).tbuf, b.place ≠ .port) (hroom : poolUsed (s.core c).tbuf + e.cost ≤ 256) :
    ((tbufAdd s c e).core c).tbuf = (s.core c).tbuf ++ [{ e := e }] := by
  have hany : (s.core c).tbuf.any (·.place == .port) = false := by simpa using hport
  have hroom' : poolUsed (s.core c).tbuf + e.cost ≤ Config.poolMax := hroom
  simp only [tbufAdd, tbufPut, tbufRoom, itemRoom, hany, hroom', decide_true, Bool.true_or, Bool.not_false, Bool.and_self, if_true, tbufPlace,
    Bool.false_eq_true, if_false, State.core_modCore_self]
/-- Behind what waits at the port it waits there. -/
theorem tbuf_tbufAdd_port {e : TEntry} (hport : ∃ b ∈ (s.core c).tbuf, b.place = .port) :
    ((tbufAdd s c e).core c).tbuf = (s.core c).tbuf ++ [{ e := e, place := .port }] := by
  have hany : (s.core c).tbuf.any (·.place == .port) = true := by simpa using hport
  simp only [tbufAdd, tbufPut, tbufRoom, hany, Bool.not_true, Bool.and_false, Bool.false_eq_true, if_false, State.core_modCore_self]

end

/-- Settles O26: by the core, the frame and the slot that the token names, then by the slot and its queue. -/
theorem tokenFillsOrQueuesOrStrays : Obligations.TokenFillsOrQueuesOrStrays := by
  intro s0 t hs s c
  have he : exec .tokenDelivery s = .next (deliver s t) := rfl
  refine ⟨fun hc ha hn => ⟨fun hf hq => ⟨?_, ?_, fun a hout => memGet_putWord_outside hs hout _⟩, fun hor => ⟨?_, fun hport hroom => ?_, fun hport => ?_⟩⟩,
    fun hc hbad => ⟨?_, strayTok_stray ..⟩, fun m hc hm => ?_, fun hc hm => ?_, _, he⟩
  · rw [he, deliver_slot hc ha hn, if_pos ⟨hf, hq⟩]
  · have hslot : t.slot < 2 ^ 20 := hn.trans ((frameSize_lt s t.fp).trans (by decide))
    rw [slotWord_setSlot (s := s) hs hslot hslot, if_pos rfl]
  · rw [he, deliver_slot hc ha hn, if_neg]
    rintro ⟨hf, hq⟩
    exact hor.elim (fun h => absurd (h.symm.trans hf) nofun) (fun h => h hq)
  · exact tbuf_tbufAdd_pool hport hroom
  · exact tbuf_tbufAdd_port hport
  · rw [he, deliver_stray hc hbad]
  · rw [he, (deliver_absent hc).1 m hm]
  · rw [he, (deliver_absent hc).2 hm]

end Sys2Proof.Safety
end

section
/-! PROOFS. The arrival orders that the net keeps (R107, R118, R174, R431, R440). -/

namespace Sys2Proof.Safety

open Sys2Proof.Machine

/-! ## A packet behind another on its way -/

section
variable {s : State}

theorem le_of_mem_deliverable {j : Nat} : ∀ (l earlier : List Packet) (n : Nat), j ∈ deliverable s earlier n l → n ≤ j
  | [], _, _, h => absurd h List.not_mem_nil
  | p :: l, earlier, n, h => by
    rw [deliverable, List.mem_append] at h
    rcases h with h | h
    · split at h
      · exact absurd h List.not_mem_nil
      · exact (List.mem_singleton.mp h).ge
    · exact (Nat.le_succ n).trans (le_of_mem_deliverable l _ _ h)

/-- A packet with one before it that comes first is not delivered. -/
theorem not_deliverable_behind {q : Packet} {after : List Packet} : ∀ (before earlier : List Packet) (n : Nat),
    (∃ p ∈ before ++ earlier, comesFirst s p q = true) → n + before.length ∉ deliverable s earlier n (before ++ q :: after)
  | [], earlier, n, h => by
    have hany : (blocked s q || earlier.any (comesFirst s · q)) = true := by simpa using .inr h
    rw [List.nil_append, deliverable, if_pos hany]
    exact fun hm => absurd (le_of_mem_deliverable _ _ _ hm) (Nat.not_succ_le_self n)
  | p :: before, earlier, n, h => by
    rw [List.cons_append, deliverable, List.mem_append, List.length_cons]
    rintro (hm | hm)
    · split at hm
      · exact absurd hm List.not_mem_nil
      · have := List.mem_singleton.mp hm
        omega
    · refine not_deliverable_behind before (p :: earlier) (n + 1) ?_ (by rwa [Nat.add_right_comm, Nat.add_assoc])
      obtain ⟨x, hx, hc⟩ := h
      exact ⟨x, by simp only [List.cons_append, List.mem_cons, List.mem_append] at hx ⊢; tauto, hc⟩

/-! ## The orders promised -/

theorem comesFirst_of_holdsBack {p q : Packet} {c : Nat} (hq : isRead q = false) (hp : c ∈ holdsBack p) (hc : c ∈ packetSrcs q) :
    comesFirst s p q = true := by
  have hany : (holdsBack p).any (packetSrcs q).contains = true := List.any_eq_true.mpr ⟨c, hp, by simpa using hc⟩
  simp [comesFirst, hq, hany]
theorem comesFirst_of_sameHome {p q : Packet} (h : sameHome s p q = true) : comesFirst s p q = true := by
  simp only [comesFirst, h, Bool.or_true, Bool.true_or]
theorem comesFirst_of_crossing {p q : Packet} {d e : Nat} (hp : ends p = some (d, e)) (hq : ends q = some (d, e)) (hne : d ≠ e)
    (hb : blocked s p = false) : comesFirst s p q = true := by
  have hx {x : Packet} (h : ends x = some (d, e)) : crossing x = some (d, e) := by simp [crossing, h, hne]
  simp [comesFirst, hx hp, hx hq, hb]
theorem comesFirst_tokens {t u : Token} (hs : t.src = u.src) (hf : t.fp = u.fp) (hn : t.slot = u.slot) :
    comesFirst s (.token t) (.token u) = true := by
  simp [comesFirst, hs, hf, hn]

/-- Keys of one word have one home. -/
theorem homeNo_eq {a b : Nat} (h : a / 8 = b / 8) : homeNo a = homeNo b := by
  have hlocal : keyLocal a = keyLocal b := decide_eq_decide.mpr (by omega)
  have hcommons : keyCommons a = keyCommons b := decide_eq_decide.mpr (by omega)
  have hcore : keyCore a = keyCore b := by unfold keyCore; omega
  have hdie : keyCommonsDie a = keyCommonsDie b := by unfold keyCommonsDie; omega
  have hbank : keyBank a = keyBank b := by unfold keyBank; omega
  have hglobal : a / 2 ^ 37 = b / 2 ^ 37 := by omega
  simp only [homeNo, hlocal, hcommons, hcore, hdie, hbank, hglobal]
/-- An access of a core follows another to its word, but for a load of another firing. -/
theorem sameHome_of_word {a b : Access} (hc : a.core = b.core) (hk : a.loc.key / 8 = b.loc.key / 8) (h : b.op.isLoad = false ∨ a.ser = b.ser) :
    sameHome s (.access a) (.access b) = true := by
  have hpass : mayPass s b a = false := by
    rcases h with h | h <;> simp [mayPass, h]
  simp [sameHome, hpass, homesOf, hc, homeNo_eq hk, hk]

end

/-- Settles O27: what stands before a packet and comes first keeps it back, and each promised order is a reason to come first. -/
theorem arrivalKeepsPromisedOrders : Obligations.ArrivalKeepsPromisedOrders := by
  intro s before between after p q
  refine ⟨fun hnet hc => ?_, fun t u => comesFirst_tokens, fun a hl hs hr => comesFirst_of_holdsBack hr ?_ hs,
    fun a b hc hk h => comesFirst_of_sameHome (sameHome_of_word hc hk h), fun d e hp hq hne hb => comesFirst_of_crossing hp hq hne hb⟩
  · have h := not_deliverable_behind (s := s) (q := q) (after := after) (before ++ p :: between) [] 0
      ⟨p, by simp, hc⟩
    rw [List.length_append, List.length_cons, Nat.zero_add] at h
    rwa [hnet, Nat.add_right_comm, Nat.add_assoc]
  · simp [holdsBack, hl]

end Sys2Proof.Safety
end

section
/-! PROOFS. Loads that wait for a full word (R122, R123, R168, R169, R206). -/

namespace Sys2Proof.Safety

open Sys2Proof.Machine

/-! ## A word that parks its frame -/

section
variable {s : State} {c k n : Nat} {f : Firing} {i : Instr} {vs : List Val} {body : State → Nat → Firing → Nat → List Val → FRes}

/-- A body that meets an empty word registers the frame there and ends the firing. -/
theorem parks_of (h : Executes s c k n f i vs) (he : exec i s = fireWord s i body) {key : Nat} {take : Bool}
    (hb : body s c f n vs = .park key take) : exec i s = .next (parkFiring (registerWaiter s key f.fp take) c k (some key)) := by
  rw [he, fireWord_eq h, hb]
  rfl

/-- A take delivers the merged word and records it as the home holds it. -/
theorem does_take (h : Executes s c k n f i vs) (he : exec i s = fireWord s i body) {v : Val} {t : Loc × Val} (hf : Free f i.shape.tgts)
    (hb : body s c f n vs = .ok { v := some (some v), take := some t }) :
    Does s s c k i { ran f n with dels := delivered f i.shape.tgts (some v), take := some t } := by
  have hd := does_effected h he hb fun _ => hf
  rw [requested_nil _ _ rfl] at hd
  simpa [effected, ran, noteTlb] using hd

/-- How a word meets an empty word of the own scratchpad: its frame waits there, or while no waiter entry is free the access is held. -/
def MeetsEmpty (s : State) (c k n : Nat) (f : Firing) (i : Instr) (op : MemOp) (loc : Loc) (take : Bool) : Prop :=
  (waiterRoom (s.core c) = true → exec i s = .next (parkFiring (registerWaiter s loc.key f.fp take) c k (some loc.key))) ∧
  (waiterRoom (s.core c) = false → Does s (s.send (.access (accessOf s c f n op loc 8 ⟨0, true⟩ ⟨0, true⟩ none))) c k i
    { ran f n with waits := n :: f.waits, lsids := f.lsids })

theorem meetsEmpty_of (h : Executes s c k n f i vs) (he : exec i s = fireWord s i body) (hl : lateLoad i = true) {op : MemOp} {loc : Loc}
    {take : Bool} (hb : body s c f n vs = if waiterRoom (s.core c) then .park loc.key take
      else .ok { pkts := [.access (accessOf s c f n op loc 8 ⟨0, true⟩ ⟨0, true⟩ none)] }) : MeetsEmpty s c k n f i op loc take :=
  ⟨fun hr => parks_of h he (hb.trans (if_pos hr)), fun hr => does_request_late h he (hb.trans (if_neg (by rw [hr]; nofun))) hl⟩

end

theorem takeSees_iff (s : State) (key fp : Nat) :
    takeSees s key fp = true ↔ keyF s.mem key = true ∧ (reservedFor s key = none ∨ reservedFor s key = some fp) := by
  unfold takeSees
  cases reservedFor s key <;> simp

/-! ## LDW and LDT at the own scratchpad -/

section
variable {l : LF} {a : Val} {s : State} {c k n : Nat} {f : Firing}

/-- The access of such a load is performed at once. -/
theorem now_of_own (op : MemOp) {addr : Nat} (hg : isGated s (ownLoc c addr).key = false) (hp : pendingOf s c = []) :
    (ownNow s (mkAccess s c f n op (ownLoc c addr) 8 Val.err Val.err none) && !isGated s (ownLoc c addr).key) = true := by
  have hnow : ownNow s (mkAccess s c f n op (ownLoc c addr) 8 Val.err Val.err none) = true := ownNow_of_not_pending rfl hp
  rw [hnow, hg]
  rfl

/-- LDW delivers a full word, and meets an empty one. -/
theorem ldw_own (hex : Executes s c k n f (.ldw l) [a]) (hsp : l.space = .loc) (hx : a.x = false)
    (hown : OwnLocal s c (lAddr a l.off 8) 8 false) (hg : isGated s (ownLoc c (lAddr a l.off 8)).key = false) (hp : pendingOf s c = []) :
    let loc := ownLoc c (lAddr a l.off 8)
    (keyF s.mem loc.key = true → Free f [l.tgt] → Gives s c k n f (.ldw l) (some (forwardVal f.outs loc 8 l.lsid.toNat (getWord s.mem loc.key).val)) 0) ∧
    (keyF s.mem loc.key = false → MeetsEmpty s c k n f (.ldw l) .ldw loc false) := by
  have hchk : checkAddr s { core := c, space := l.space, size := 8, write := false } (lAddr a l.off 8) = .ok (ownLoc c (lAddr a l.off 8)) none :=
    checkAddr_ownLocal hown rfl hsp rfl rfl
  refine ⟨fun hF hf => gives_of_val hex hf rfl ?_, fun hF => meetsEmpty_of hex rfl rfl ?_⟩
  · exact (atAddr_ok hx hchk _).trans ((if_pos (now_of_own .ldw hg hp)).trans (if_pos hF))
  · exact (atAddr_ok hx hchk _).trans ((if_pos (now_of_own .ldw hg hp)).trans (if_neg (by rw [hF]; nofun)))

/-- LDT delivers a word that it may take and records it, and meets another. -/
theorem ldt_own (hex : Executes s c k n f (.ldt l) [a]) (hsp : l.space = .loc) (hx : a.x = false)
    (hown : OwnLocal s c (lAddr a l.off 8) 8 true) (hg : isGated s (ownLoc c (lAddr a l.off 8)).key = false) (hp : pendingOf s c = []) :
    let loc := ownLoc c (lAddr a l.off 8)
    (takeSees s loc.key f.fp = true → Free f [l.tgt] → Does s s c k (.ldt l) { ran f n with
      dels := delivered f [l.tgt] (some (forwardVal f.outs loc 8 l.lsid.toNat (getWord s.mem loc.key).val))
      take := some (loc, (getWord s.mem loc.key).val) }) ∧
    (takeSees s loc.key f.fp = false → MeetsEmpty s c k n f (.ldt l) .ldt loc true) := by
  have hchk : checkAddr s { core := c, space := l.space, size := 8, write := true, frame := true } (lAddr a l.off 8)
      = .ok (ownLoc c (lAddr a l.off 8)) none := checkAddr_ownLocal hown rfl hsp rfl rfl
  refine ⟨fun hF hf => does_take hex rfl hf ?_, fun hF => meetsEmpty_of hex rfl rfl ?_⟩
  · exact (atAddr_ok hx hchk _).trans ((if_pos (now_of_own .ldt hg hp)).trans (if_pos hF))
  · exact (atAddr_ok hx hchk _).trans ((if_pos (now_of_own .ldt hg hp)).trans (if_neg (by rw [hF]; nofun)))

end

/-! ## A waiter's place in its word's order -/

section
variable {s : State} {key : Nat}

theorem homeWaiters_local (h : keyLocal key = true) : homeWaiters s key = (s.core (keyCore key)).waiters := if_pos h
theorem homeWaiters_setHomeWaiters (h : keyLocal key = true) (l : List Waiter) : homeWaiters (setHomeWaiters s key l) key = l := by
  rw [homeWaiters_local h, setHomeWaiters, if_pos h, State.core_modCore_self]

/-- While the pool has room a waiter enters it first or last. -/
theorem homeWaiters_addWaiter (h : keyLocal key = true) (hroom : ((homeWaiters s key).filter (·.place == .pool)).length < 256) (fp : Nat)
    (take first : Bool) : homeWaiters (addWaiter s key fp take first) key =
      if first then { key := key, fp := fp, take := take } :: homeWaiters s key
      else homeWaiters s key ++ [{ key := key, fp := fp, take := take }] := by
  have hroom' : decide (((homeWaiters s key).filter (·.place == .pool)).length < Config.poolMax) = true := decide_eq_true hroom
  simp only [addWaiter, h, hroom', if_true]
  simp only [homeWaiters_local h, State.core_modCore_self]

theorem homeWaiters_registerWaiter (h : keyLocal key = true) (hroom : ((homeWaiters s key).filter (·.place == .pool)).length < 256) (fp : Nat)
    (take : Bool) :
    let w : Waiter := { key, fp, take }
    let rest := if reservedFor s key = some fp then (homeWaiters s key).filter fun x => !(x.key == key && x.reserved && x.fp == fp)
      else homeWaiters s key
    homeWaiters (registerWaiter s key fp take) key = if reservedFor s key = some fp ∧ take = true then w :: rest else rest ++ [w] := by
  dsimp only [registerWaiter]
  by_cases hown : reservedFor s key = some fp
  · have hbeq : (reservedFor s key == some fp) = true := by simpa using hown
    rw [hbeq, if_pos rfl, if_pos hown, homeWaiters_addWaiter h, homeWaiters_setHomeWaiters h]
    · simp [hown]
    · rw [homeWaiters_setHomeWaiters h]
      exact lt_of_le_of_lt ((List.filter_sublist.filter _).length_le) hroom
  · have hbeq : (reservedFor s key == some fp) = false := by simpa using hown
    rw [hbeq, if_neg nofun, if_neg hown, homeWaiters_addWaiter h hroom]
    simp [hown]

theorem OwnLocal.keyLocal {c addr size : Nat} {frame : Bool} (h : OwnLocal s c addr size frame) : keyLocal (ownLoc c addr).key = true := by
  have hlt : c < 2 ^ 12 := by
    have h1 : bits addr 31 27 < 2 ^ 5 := Nat.mod_lt _ (by decide)
    have h2 : bits addr 26 20 < 2 ^ 7 := Nat.mod_lt _ (by decide)
    have h3 := h.own
    unfold coreId at h3
    omega
  have hoff : addr % 2 ^ 20 < 2 ^ 20 := Nat.mod_lt _ (by decide)
  exact decide_eq_true (by simp only [ownLoc, localKey]; omega)

end

/-- Settles O30: LDW and LDT by what the word is, the waiter's place by the reservation. -/
theorem fullEmptyLoads : Obligations.FullEmptyLoads := by
  intro l a s c k n f hsp hx addr loc word own empty hg hp
  refine ⟨fun hex hown => ?_, fun hex hown => ?_, fun hown hroom take => ?_⟩
  · obtain ⟨hfull, hempty⟩ := ldw_own hex hsp hx hown hg hp
    exact ⟨fun hF hf => ⟨_, forwardVal_merged f _ _ _ (le_refl 8), hfull hF hf⟩, hempty⟩
  · obtain ⟨hfull, hempty⟩ := ldt_own hex hsp hx hown hg hp
    refine ⟨fun hF hres hf => ⟨_, forwardVal_merged f _ _ _ (le_refl 8), hfull ((takeSees_iff ..).mpr ⟨hF, hres⟩) hf⟩, fun h => hempty ?_⟩
    rw [← Bool.not_eq_true, takeSees_iff]
    rintro ⟨hF, hres⟩
    rcases h with h | ⟨g, hg, hne⟩
    · exact absurd (hF.symm.trans h) nofun
    · rcases hres with hres | hres
      · exact absurd (hres.symm.trans hg) nofun
      · exact hne (Option.some.inj (hg.symm.trans hres))
  · have hcore : keyCore loc.key = c := keyCore_localKey (Nat.mod_lt _ (by decide))
    refine homeWaiters_registerWaiter hown.keyLocal ?_ f.fp take
    rw [homeWaiters_local hown.keyLocal, hcore]
    exact hroom

end Sys2Proof.Safety
end

section
/-! PROOFS. Answers from a home: the value of an awaited load, the take of commit step 2 (R115, R117, R122, R123, R168, R169, R428). -/

namespace Sys2Proof.Safety

open Sys2Proof.Machine

/-! ## A load's value returns -/

section
variable {s : State} {a : Access} {v raw : Val} {k : Nat} {f : Firing} {i : Instr}

/-- The firing that a returned value meets, before the value is delivered. -/
def returned (s : State) (a : Access) (raw : Val) (f : Firing) : Firing :=
  { f with
    waits := f.waits.filter (· != a.idx), lsids := a.idx :: f.lsids, take := if a.op = .ldt then some (a.loc, raw) else f.take
    due := f.due.map fun d => if d.1 = a.idx then (a.idx, max d.2 (coreCclk s a.core)) else d }
/-- The value that reaches the targets: with forwarded bytes, but for FE.TEST. -/
def returnedVal (a : Access) (i : Instr) (f : Firing) (v : Val) : Val :=
  if a.op = .feTest then v else forwardVal f.outs a.loc a.size ((lsidOf i).getD 0) v

theorem loadReturn_value (hr : resident s a.core a.ser = some (k, f)) (hw : f.waits.contains a.idx = true)
    (hd : decodeWords (wordsAt f.code a.idx) = .ok i) :
    loadReturn s ⟨a, .value v raw⟩ =
      deliverFrom s a.core k a.idx (returned s a raw f) i.shape.tgts (some (returnedVal a i f v)) := by
  obtain ⟨core, fp, ser, idx, op, loc, size, v', w, slot, tick⟩ := a
  simp only at hr hw hd
  simp only [loadReturn, hr, hw, hd, Bool.not_true, Bool.false_eq_true, if_false, returnedVal]
  cases lsidOf i <;> cases op <;> rfl

end

/-- Settles O36: the answer meets its firing, or the firing is gone. -/
theorem loadValueReturns : Obligations.LoadValueReturns := by
  intro s0 a v raw k f i s
  refine ⟨fun hr => ?_, fun hr hw hd hf hs => ⟨returnedVal a i f v, fun hop => if_pos hop, fun hop => ?_, ?_⟩⟩
  · refine congrArg Host.Outcome.next ?_
    simp only [loadReturn, hr]
  · rw [returnedVal, if_neg hop]
    exact forwardVal_merged f _ _ _ hs
  · refine congrArg Host.Outcome.next ((loadReturn_value hr hw hd).trans ?_)
    exact deliverFrom_free s a.core k a.idx (returned s a raw f) i.shape.tgts _ hf

/-! ## The take of commit step 2 -/

section
variable {s : State} {r : TakeReq}

/-- The home's answer to a take. -/
def answerTake (s : State) (r : TakeReq) (res : TakeRes) : State := s.send (.takeAns ⟨r.core, r.ser, res, (homeDie r.loc.key).getD 0⟩)

theorem takeHome_parked (hg : isGated s r.loc.key = false) (h : takeSees s r.loc.key r.fp = false) :
    takeHome s r = answerTake (registerWaiter s r.loc.key r.fp true) r .parked := by
  simp only [takeHome, awake, hg, Bool.false_eq_true, if_false, h, Bool.not_false, if_true, answerTake]
theorem takeHome_full (hg : isGated s r.loc.key = false) (h : takeSees s r.loc.key r.fp = true) :
    takeHome s r = if getWord s.mem r.loc.key = ⟨r.v.d, true, r.v.x⟩
      then answerTake (s.setMem (setTags s.mem r.loc.key false r.v.x)) r .taken else answerTake s r .differs := by
  have hF : keyF s.mem r.loc.key = true := ((takeSees_iff ..).mp h).1
  have hword : (getWord s.mem r.loc.key = ⟨r.v.d, true, r.v.x⟩) ↔
      ((getWord s.mem r.loc.key).d = r.v.d ∧ (getWord s.mem r.loc.key).x = r.v.x) := by
    simp [getWord, hF]
  simp only [takeHome, awake, hg, Bool.false_eq_true, if_false, h, Bool.not_true, answerTake, hword]
  split
  next hw => rw [hw.2]
  next => rfl

/-- A word whose F goes reads as before but for it. -/
theorem taken_word {m : List Host.Cell} (hm : Memory.wf m = true) {key : Nat} (hk : IsWord key) {w : TWord} (hw : getWord m key = w) :
    getWord (setTags m key false w.x) key = { w with f := false } ∧ ∀ b, b ≠ tagKey key → memGet (setTags m key false w.x) b = memGet m b := by
  obtain ⟨-, hlt⟩ := hk
  have hdata : memNat (setTags m key false w.x) key 8 = memNat m key 8 :=
    memNat_congr _ _ fun b _ hb => memGet_setTags_data hm _ _ _ _ (by unfold tagKey; omega)
  refine ⟨?_, memGet_setTags_data hm key false w.x⟩
  subst hw
  rw [getWord, hdata, keyF_setTags hm, keyX_setTags hm, if_pos rfl, if_pos rfl, getWord]

end

/-- Settles O37: the take by what the home sees, its answer by whether the firing is still there. -/
theorem takeOfCommitStepTwo : Obligations.TakeOfCommitStepTwo := by
  refine ⟨?_, ?_⟩
  · intro s0 r hs hlo hhi h8 s key say mine hg
    refine ⟨fun hF hmine hw => ?_, fun hF hmine hw => ?_, fun h => ?_⟩
    · obtain ⟨hword, hrest⟩ := taken_word hs (key := key) ⟨h8, by omega⟩ hw
      exact ⟨s.setMem (setTags s.mem key false r.v.x), congrArg Host.Outcome.next
        ((takeHome_full hg ((takeSees_iff ..).mpr ⟨hF, hmine⟩)).trans (if_pos hw)), hword, hrest, rfl, rfl⟩
    · exact congrArg Host.Outcome.next ((takeHome_full hg ((takeSees_iff ..).mpr ⟨hF, hmine⟩)).trans (if_neg hw))
    · refine congrArg Host.Outcome.next (takeHome_parked hg ?_)
      rw [← Bool.not_eq_true, takeSees_iff]
      rintro ⟨hF, hmine⟩
      exact h.elim (fun h => absurd (hF.symm.trans h) nofun) (fun h => h hmine)
  · intro s0 t k f s
    refine ⟨fun hr => congrArg Host.Outcome.next ?_, fun hr => ⟨fun h => congrArg Host.Outcome.next ?_,
      fun h => congrArg Host.Outcome.next ?_, fun h => congrArg Host.Outcome.next ?_⟩⟩
    · simp only [takeDone, hr]
    all_goals simp only [takeDone, hr, h]

end Sys2Proof.Safety
end

section
/-! PROOFS. The next act: an instruction that the issue rules give is one of the acts that the mover chooses among (R112, R203). -/

namespace Sys2Proof.Safety

open Sys2Proof.Machine

/-! ## What may come next does not turn on what was chosen -/

section
variable (s : State) (m : Nat)

theorem blocked_mover : blocked { s with mover := m } = blocked s := rfl
theorem comesFirst_mover : comesFirst { s with mover := m } = comesFirst s := rfl
theorem deliverable_mover : ∀ (l e : List Packet) (n : Nat), deliverable { s with mover := m } e n l = deliverable s e n l
  | [], _, _ => rfl
  | _ :: l, _, _ => by rw [deliverable, deliverable, deliverable_mover l, blocked_mover, comesFirst_mover]
theorem coreActs_mover : coreActs { s with mover := m } = coreActs s := rfl
theorem pkgActs_mover : pkgActs { s with mover := m } = pkgActs s := rfl
theorem noTransit_mover : noTransit { s with mover := m } = noTransit s := rfl
theorem inboxHead_mover : inboxHead { s with mover := m } = inboxHead s := rfl
theorem acts_mover : acts { s with mover := m } = acts s := by
  rw [acts, acts, deliverable_mover, coreActs_mover, pkgActs_mover, noTransit_mover, inboxHead_mover]

/-- Every act is the mover's choice at some number. -/
theorem exists_chosen {a : Act} (h : a ∈ acts s) : ∃ m, chosen { s with mover := m } = a := by
  obtain ⟨m, hm, rfl⟩ := List.getElem_of_mem h
  refine ⟨m, ?_⟩
  rw [chosen, acts_mover, nthD_eq, Nat.mod_eq_of_lt hm, List.getElem?_eq_getElem hm, Option.getD_some]

end

/-! ## The instruction that a core issues next -/

section
variable {s : State} {c k n : Nat} {f : Firing} {i : Instr}

theorem mem_runningFirings {co : Core} {e : Nat × Firing} (h : e ∈ runningFirings co) :
    nthD co.slots e.1 none = some e.2 ∧ e.2.phase = .running := by
  have hm := (sortBy_perm _ _).mem_iff.mp h
  simp only [List.mem_filterMap] at hm
  obtain ⟨k, -, hk⟩ := hm
  split at hk
  next f hf =>
    split at hk
    next hr =>
      obtain rfl := Option.some.inj hk
      exact ⟨hf, eq_of_beq (Bool.and_elim_left hr)⟩
    next => cases hk
  next => cases hk
theorem mem_firingInsns (h : (n, i) ∈ firingInsns f) : ∃ ws, (n, ws) ∈ insns f.code ∧ decodeWords ws = .ok i := by
  obtain ⟨⟨m, ws⟩, he, hd⟩ := List.mem_filterMap.mp h
  dsimp only at hd
  split at hd
  next j hj =>
    obtain ⟨rfl, rfl⟩ := Prod.mk.inj (Option.some.inj hd)
    exact ⟨ws, he, hj⟩
  next => cases hd
theorem mem_eligible {now : Nat} (h : (n, i) ∈ eligible f now) : (n, i) ∈ firingInsns f := by
  unfold eligible at h
  split at h
  · exact absurd h List.not_mem_nil
  · exact List.mem_of_mem_filter h

/-- It is a word of a running firing, in its block slot. -/
theorem issueNext_some (h : issueNext s c = some (k, n, i)) :
    ∃ f, firingAt s c k = some f ∧ f.phase = .running ∧ (n, i) ∈ firingInsns f := by
  unfold issueNext at h
  dsimp only at h
  obtain ⟨-, h⟩ := Option.ite_none_left_eq_some.mp h
  have hm := List.mem_of_head? h
  simp only [List.mem_flatMap, List.mem_map, List.mem_filter, Prod.mk.injEq] at hm
  obtain ⟨e, he, x, ⟨hx, -⟩, rfl, rfl, rfl⟩ := hm
  obtain ⟨hslot, hrun⟩ := mem_runningFirings he
  exact ⟨e.2, hslot, hrun, mem_eligible hx⟩
theorem mem_acts_of_issueNext (hc : c ∈ s.cores.map (·.1)) (h : issueNext s c = some (k, n, i)) : Act.run (.firing c k n) i ∈ acts s := by
  obtain ⟨⟨c', co⟩, hco, rfl⟩ := List.mem_map.mp hc
  have hcore : Act.run (.firing c' k n) i ∈ coreActs s (c', co) := by
    simp only [coreActs, h, Option.toList_some, List.map_cons, List.map_nil, List.mem_append, List.mem_singleton, true_or]
  have hl : Act.run (.firing c' k n) i ∈ s.cores.flatMap (coreActs s) := List.mem_flatMap.mpr ⟨_, hco, hcore⟩
  simp only [acts, List.mem_append, hl, true_or]

end

theorem stepAct_chosen {s : State} (h : s.due = []) : stepAct s = doAct s (chosen s) := by
  rw [stepAct]
  split
  next hd => cases h.symm.trans hd
  next => rfl

/-- Settles O6: the chosen act by the mover's number, a due event before any choice. -/
theorem stepRunsTheDecodedWord : Obligations.StepRunsTheDecodedWord := by
  refine fun s c k n f i => ⟨fun hdue hc hf hnext => ?_, fun e l hdue => ?_⟩
  · obtain ⟨g, hg, hrun, hin⟩ := issueNext_some hnext
    obtain rfl : g = f := Option.some.inj (hg.symm.trans hf)
    obtain ⟨m, hm⟩ := exists_chosen s (mem_acts_of_issueNext hc hnext)
    have hact : stepAct { s with mover := m } = exec i { s with mover := m, focus := .firing c k n } := by
      rw [stepAct_chosen (s := { s with mover := m }) hdue, hm]
      rfl
    refine ⟨hrun, mem_firingInsns hin, m, ?_⟩
    rw [step, hact]
    rfl
  · have hact : stepAct s = exec (eventInstr e) { s with due := l, focus := .event e } := by
      simp only [stepAct, hdue, runEvent, runIn]
    rw [step, hact]
    rfl

end Sys2Proof.Safety
end

section
/-! PROOFS. Taking a trap: what ends with the firing, and where its record goes (R120, R124, R210, R212, R215). -/

namespace Sys2Proof.Safety

open Sys2Proof.Machine

/-! ## What a frame's waits leave as they go -/

/-- State t is s but for what waits in it, counts, and packets that wake frames: a core's running part and its deferred frees, a die's
fault log and trace are the same. -/
structure Unwaited (s t : State) : Prop where
  run : runParts t = runParts s
  late : ∀ c, (t.core c).freeAfter = (s.core c).freeAfter
  dies : ∀ d, (t.die d).log = (s.die d).log ∧ (t.die d).logN = (s.die d).logN ∧ (t.die d).trace = (s.die d).trace
  wakes : ∃ ps, t.net = s.net ++ ps ∧ ∀ p ∈ ps, ∃ d fp, p = .wake d fp

section
variable {s t u : State}

theorem Unwaited.refl (s : State) : Unwaited s s :=
  ⟨rfl, fun _ => rfl, fun _ => ⟨rfl, rfl, rfl⟩, [], (List.append_nil _).symm, by simp⟩
theorem Unwaited.trans (h : Unwaited s t) (g : Unwaited t u) : Unwaited s u where
  run := g.run.trans h.run
  late c := (g.late c).trans (h.late c)
  dies d := by
    obtain ⟨h1, h2, h3⟩ := h.dies d
    obtain ⟨g1, g2, g3⟩ := g.dies d
    exact ⟨g1.trans h1, g2.trans h2, g3.trans h3⟩
  wakes := by
    obtain ⟨ps, hp, hw⟩ := h.wakes
    obtain ⟨qs, hq, hv⟩ := g.wakes
    exact ⟨ps ++ qs, by rw [hq, hp, List.append_assoc], fun p hp => (List.mem_append.mp hp).elim (hw p) (hv p)⟩
theorem unwaited_foldl {α : Type} {f : State → α → State} (hf : ∀ s a, Unwaited s (f s a)) (l : List α) (s : State) : Unwaited s (l.foldl f s) := by
  induction l generalizing s with
  | nil => exact .refl s
  | cons a l ih => exact (hf s a).trans (ih _)
theorem unwaited_modCore (s : State) (c : Nat) {f : Core → Core} (h : ∀ co, runPart (f co) = runPart co := by intro; rfl)
    (hl : ∀ co, (f co).freeAfter = co.freeAfter := by intro; rfl) : Unwaited s (s.modCore c f) where
  run := runParts_modCore s h
  late j := by
    rw [core_modCore]
    split
    next hj => rw [hj, hl]
    next => rfl
  dies _ := ⟨rfl, rfl, rfl⟩
  wakes := ⟨[], (List.append_nil _).symm, by simp⟩
theorem unwaited_dropReserved (s : State) (f : Firing) : Unwaited s (dropReserved s f) :=
  unwaited_foldl (fun s _ => unwaited_modCore s _) _ s
theorem unwaited_of_frameWrites (h : FrameWrites s t) : Unwaited s t where
  run := runParts_of_frameWrites s h
  late c := by
    obtain ⟨w, hw⟩ := h.core c
    rw [hw]
  dies d := by
    rw [State.die, h.dies]
    exact ⟨rfl, rfl, rfl⟩
  wakes := ⟨[], by rw [h.net, List.append_nil], by simp⟩
theorem unwaited_countEv (s : State) (c code n : Nat) : Unwaited s (countEv s c code n) := by
  have h := countEv_counted s c code n
  refine ⟨runParts_countEv .., fun j => ?_, fun d => ?_, [], ?_, by simp⟩
  · by_cases hj : j = c
    · obtain ⟨m, hm⟩ := h.own
      rw [hj, hm]
    · rw [h.other j hj]
  · rw [h.rest]
    exact ⟨rfl, rfl, rfl⟩
  · rw [h.rest, List.append_nil]
theorem unwaited_dropWaiters (s : State) (fp : Nat) : Unwaited s (dropWaiters s fp) := by
  refine ⟨runParts_dropWaiters .., fun c => ?_, fun d => ⟨?_, ?_, ?_⟩, [], (List.append_nil _).symm, by simp⟩
  · refine get_map_keeps (φ := Core.freeAfter) ?_ ?_ s.cores c {} <;> exact fun _ => rfl
  · refine get_map_keeps (φ := Die.log) ?_ ?_ s.dies d {} <;> exact fun _ => rfl
  · refine get_map_keeps (φ := Die.logN) ?_ ?_ s.dies d {} <;> exact fun _ => rfl
  · refine get_map_keeps (φ := Die.trace) ?_ ?_ s.dies d {} <;> exact fun _ => rfl
theorem unwaited_setHomeWaiters (s : State) (key : Nat) (l : List Waiter) : Unwaited s (setHomeWaiters s key l) := by
  unfold setHomeWaiters
  split
  · exact unwaited_modCore s _
  · refine ⟨rfl, fun _ => rfl, fun d => ?_, [], (List.append_nil _).symm, by simp⟩
    rw [die_modDie]
    split
    next h =>
      rw [h]
      exact ⟨rfl, rfl, rfl⟩
    next => exact ⟨rfl, rfl, rfl⟩
theorem unwaited_becameFull (s : State) (key : Nat) : Unwaited s (becameFull s key) := by
  simp only [becameFull]
  split
  · exact .refl s
  · refine (unwaited_setHomeWaiters s key _).trans (unwaited_foldl (fun s w => ?_) _ _)
    exact ⟨rfl, fun _ => rfl, fun _ => ⟨rfl, rfl, rfl⟩, [_], rfl, fun p hp => ⟨_, _, List.mem_singleton.mp hp⟩⟩
theorem unwaited_endReservations (s : State) (fp : Nat) : Unwaited s (endReservations s fp) := by
  refine unwaited_foldl (fun s key => ?_) _ s
  dsimp only
  split
  · exact (unwaited_setHomeWaiters ..).trans (unwaited_becameFull ..)
  · exact unwaited_setHomeWaiters ..

/-! ### Memory -/

theorem mem_foldl {α : Type} {f : State → α → State} (hf : ∀ s a, (f s a).mem = s.mem) (l : List α) (s : State) : (l.foldl f s).mem = s.mem := by
  induction l generalizing s with
  | nil => rfl
  | cons a l ih => exact (ih _).trans (hf s a)
theorem mem_setHomeWaiters (s : State) (key : Nat) (l : List Waiter) : (setHomeWaiters s key l).mem = s.mem := by
  unfold setHomeWaiters
  split <;> rfl
theorem mem_endReservations (s : State) (fp : Nat) : (endReservations s fp).mem = s.mem := by
  refine mem_foldl (fun s key => ?_) _ s
  dsimp only
  split
  · exact (calm_becameFull _ key 0).2.trans (mem_setHomeWaiters ..)
  · exact mem_setHomeWaiters ..
theorem mem_countEv (s : State) (c code n : Nat) : (countEv s c code n).mem = s.mem := by rw [(countEv_counted s c code n).rest]
theorem dropReserved_rest (s : State) (f : Firing) : dropReserved s f = { s with cores := (dropReserved s f).cores } := by
  have h (l : List (Nat × Nat × Nat)) (s : State) : l.foldl (fun s e =>
      s.modCore (fpCore e.2.1) fun co => { co with reserved := co.reserved.filter fun r => r.1 != fpWord e.2.1 }) s =
      { s with cores := (l.foldl (fun s e =>
        s.modCore (fpCore e.2.1) fun co => { co with reserved := co.reserved.filter fun r => r.1 != fpWord e.2.1 }) s).cores } := by
    induction l generalizing s with
    | nil => rfl
    | cons a l ih => exact ih _
  exact h _ s
theorem undo_rest (s : State) (c k : Nat) (f : Firing) : undo s c k f = { s with cores := (undo s c k f).cores } := by
  rw [undo, dropReserved_rest]
  rfl

/-! ## The state in which a trap's record is routed -/

/-- The firing is undone, its frame trapped, its waits and reservations gone. -/
def trapped (s : State) (c k : Nat) (f : Firing) : State :=
  countEv (endReservations (dropWaiters (setFrameState (undo s c k f) f.fp stTrapped) f.fp) f.fp) c 0x07 1

section
variable {c k : Nat} {f : Firing}

theorem unwaited_trapped (s : State) (c k : Nat) (f : Firing) : Unwaited (undo s c k f) (trapped s c k f) :=
  (((unwaited_of_frameWrites (frameWrites_setFrameState ..)).trans (unwaited_dropWaiters ..)).trans (unwaited_endReservations ..)).trans
    (unwaited_countEv ..)
theorem mem_trapped (s : State) (c k : Nat) (f : Firing) :
    (trapped s c k f).mem = (setHdr s f.fp 0 (setBits (hdr s f.fp 0) 16 3 stTrapped)).mem := by
  rw [trapped, mem_countEv, mem_endReservations, undo_rest]
  rfl
/-- Of the core, undoing a firing changes its block slot and UNDONE alone. -/
theorem runPart_undo (s : State) (c k : Nat) (f : Firing) : runPart ((undo s c k f).core c) =
    (setNth (s.core c).slots k none, wrap48 ((s.core c).undone + 1), (s.core c).mode, (s.core c).trapv, (s.core c).pend) := by
  have h : runPart ((dropReserved s f).core c) = runPart (s.core c) := congrFun (runParts_dropReserved s f) c
  simp only [runPart, Prod.mk.injEq] at h
  obtain ⟨h1, h2, h3, h4, h5⟩ := h
  simp only [undo, State.core_modCore_self, runPart, h1, h2, h3, h4, h5]
theorem freeAfter_undo (s : State) (c k : Nat) (f : Firing) (j : Nat) : ((undo s c k f).core j).freeAfter = (s.core j).freeAfter := by
  refine Eq.trans ?_ ((unwaited_dropReserved s f).late j)
  rw [undo, core_modCore]
  split
  next h => rw [h]
  next => rfl
theorem slot_trapped (s : State) (c k : Nat) (f : Firing) : firingAt (trapped s c k f) c k = none := by
  rw [firingAt_of_runParts (unwaited_trapped s c k f).run, firingAt_undo]
theorem runPart_trapped (s : State) (c k : Nat) (f : Firing) : runPart ((trapped s c k f).core c) =
    (setNth (s.core c).slots k none, wrap48 ((s.core c).undone + 1), (s.core c).mode, (s.core c).trapv, (s.core c).pend) :=
  (congrFun (unwaited_trapped s c k f).run c).trans (runPart_undo s c k f)
theorem dies_trapped (s : State) (c k : Nat) (f : Firing) (d : Nat) : ((trapped s c k f).die d).log = (s.die d).log ∧
    ((trapped s c k f).die d).logN = (s.die d).logN ∧ ((trapped s c k f).die d).trace = (s.die d).trace := by
  have h := (unwaited_trapped s c k f).dies d
  rwa [undo_rest] at h
theorem net_trapped (s : State) (c k : Nat) (f : Firing) :
    ∃ ps, (trapped s c k f).net = s.net ++ ps ∧ ∀ p ∈ ps, ∃ d fp, p = .wake d fp := by
  have h := (unwaited_trapped s c k f).wakes
  rwa [undo_rest] at h
theorem freeAfter_trapped (s : State) (c k : Nat) (f : Firing) (j : Nat) : ((trapped s c k f).core j).freeAfter = (s.core j).freeAfter :=
  ((unwaited_trapped s c k f).late j).trans (freeAfter_undo s c k f j)
theorem frameState_trapped (hs : Safe s) (c k : Nat) (f : Firing) : frameState (trapped s c k f) f.fp = 5 := by
  rw [frameState, hdr, mem_trapped]
  exact frameState_setFrameState hs f.fp stTrapped
theorem memGet_trapped (hs : Safe s) (c k : Nat) (f : Firing) {a : Nat} (ha : outside (hdrKey f.fp 0) 8 a) :
    memGet (trapped s c k f).mem a = memGet s.mem a := by
  rw [mem_trapped, memGet_setHdr hs _ ha]
theorem trapped_safe (hs : Safe s) (c k : Nat) (f : Firing) : Safe (trapped s c k f) := by
  rw [Safe, mem_trapped]
  exact setHdr_safe hs _

end

/-! ## Routes -/

theorem lateFree_of_none {fp : Nat} (h : (s.core (fpCore fp)).freeAfter.contains fp = false) : lateFree s fp = s := by
  rw [lateFree, h]
  rfl

/-- Memory m' is m but for host memory. -/
structure HostWrites (m m' : List Host.Cell) : Prop where
  wf : Memory.wf m' = true
  same : ∀ a, a < 2 ^ 46 ∨ 2 ^ 48 ≤ a → memGet m' a = memGet m a

theorem HostWrites.refl {m : List Host.Cell} (h : Memory.wf m = true) : HostWrites m m := ⟨h, fun _ _ => rfl⟩
theorem HostWrites.put {m m' : List Host.Cell} (h : HostWrites m m') (b v n : Nat) (hlo : 2 ^ 46 ≤ b) (hhi : b + n ≤ 2 ^ 48) :
    HostWrites m (memPut m' b v n) :=
  ⟨memPut_wf h.wf _ _ _, fun a ha => (memGet_memPut_of_not_mem h.wf _ _ _ _ (by omega)).trans (h.same a ha)⟩
theorem HostWrites.foldl {m m' : List Host.Cell} {f : List Host.Cell → Nat → List Host.Cell} (l : List Nat)
    (hf : ∀ m', ∀ k ∈ l, HostWrites m m' → HostWrites m (f m' k)) (h : HostWrites m m') : HostWrites m (l.foldl f m') := by
  induction l generalizing m' with
  | nil => exact h
  | cons k l ih => exact ih (fun m' j hj => hf m' j (List.mem_cons_of_mem _ hj)) (hf _ k List.mem_cons_self h)

theorem host_range {p : Nat} (h : physKind s p = .host) : 2 ^ 46 ≤ p ∧ p < 2 ^ 47 := by
  unfold physKind at h
  split at h
  · dsimp only at h
    split at h <;> cases h
  split at h
  · dsimp only at h
    split at h <;> cases h
  split at h
  next hp => exact hp
  next => cases h

/-- An event ring is host memory. -/
theorem ringRecord_writes (hs : Safe s) (evt : BitVec 64) (w : List Nat) :
    ∃ m, ringRecord s evt w = s.setMem m ∧ HostWrites s.mem m := by
  have hsame : ∃ m, s = s.setMem m ∧ HostWrites s.mem m := ⟨s.mem, rfl, .refl hs⟩
  simp only [ringRecord]
  split
  next =>
    split
    next => exact hsame
    next hhost =>
      have hbase := host_range (s := s) (by simpa using hhost)
      have hcap : 2 ^ (bits evt.toNat 51 48 + 6) ≤ 2 ^ 21 :=
        Nat.pow_le_pow_right (by decide) (by have : bits evt.toNat 51 48 < 2 ^ 4 := Nat.mod_lt _ (by decide); omega)
      generalize bits evt.toNat 47 7 * 128 = base at *
      generalize bits evt.toNat 51 48 + 6 = e at *
      have hslot : memNat s.mem base 8 % 2 ^ e < 2 ^ 21 := lt_of_lt_of_le (Nat.mod_lt _ (by positivity)) hcap
      split
      · exact ⟨_, rfl, (HostWrites.refl hs).put _ _ _ (by omega) (by omega)⟩
      · refine ⟨_, rfl, (HostWrites.foldl _ (fun m' k hk h => h.put _ _ _ (by omega) ?_) (.refl hs)).put _ _ _ (by omega) (by omega)⟩
        have := List.mem_range.mp hk
        omega
  next => exact hsame
theorem dieEvent_writes (hs : Safe s) (d core kind w3 idx : Nat) :
    ∃ m, dieEvent s d core kind w3 idx = s.setMem m ∧ HostWrites s.mem m := by
  unfold dieEvent
  split
  · exact ringRecord_writes hs _ _
  · exact ⟨s.mem, rfl, .refl hs⟩

/-- A die with one more record in its fault log. -/
def withRecord (ws : List (BitVec 64)) (di : Die) : Die := { di with log := di.log.put (di.logN % Config.faultLog) ws, logN := di.logN + 1 }

/-- A record in the fault log: the state but for the log, its copy in the package, and host memory. -/
theorem trapLogged_eq (hs : Safe s) (c kind w3 : Nat) (words : List (BitVec 64)) :
    ∃ m w0 rest p, HostWrites s.mem m ∧ w0.toNat % 2 ^ 8 = kind % 2 ^ 8 ∧
      trapLogged s c kind w3 words = ((s.modDie (coreDie c)
        (withRecord (([w0, BitVec.ofNat 64 s.tick] ++ words ++ rest).take 16))).modPkg p).setMem m := by
  obtain ⟨m, hm, hw⟩ := dieEvent_writes (s := (logRec s (coreDie c) kind (c % 128) 3 0 words).1) hs (coreDie c) (c % 128) kind w3
    (logRec s (coreDie c) kind (c % 128) 3 0 words).2
  refine ⟨m, _, _, _, hw, ?_, hm⟩
  rw [BitVec.toNat_ofNat]
  omega

/-- What a record in the fault log of a core's die leaves, and where it stands. -/
structure Logged (s t : State) (c kind : Nat) (words : List (BitVec 64)) : Prop where
  cores : t.cores = s.cores
  net : t.net = s.net
  mem : HostWrites s.mem t.mem
  count : (t.die (coreDie c)).logN = (s.die (coreDie c)).logN + 1
  entry : ∃ w0 w1 rest, ((t.die (coreDie c)).log.get ((s.die (coreDie c)).logN % Config.faultLog) []) = w0 :: w1 :: (words ++ rest) ∧
    w0.toNat % 2 ^ 8 = kind % 2 ^ 8

theorem Logged.core {t : State} {c kind : Nat} {words : List (BitVec 64)} (h : Logged s t c kind words) (j : Nat) : t.core j = s.core j := by
  rw [State.core, h.cores, State.core]
theorem trapLogged_logged (hs : Safe s) (c kind w3 : Nat) {words : List (BitVec 64)} (hl : words.length = 8) :
    Logged s (trapLogged s c kind w3 words) c kind words := by
  obtain ⟨m, w0, rest, p, hm, hw0, ht⟩ := trapLogged_eq hs c kind w3 words
  have hdie : (trapLogged s c kind w3 words).die (coreDie c) =
      withRecord (([w0, BitVec.ofNat 64 s.tick] ++ words ++ rest).take 16) (s.die (coreDie c)) := by
    rw [ht]
    exact State.die_modDie_self s _ _
  refine ⟨by rw [ht]; rfl, by rw [ht]; rfl, by rw [ht]; exact hm, by rw [hdie]; rfl, w0, BitVec.ofNat 64 s.tick, rest.take 6, ?_, hw0⟩
  rw [hdie, withRecord, Sp.get_put_self, List.append_assoc, List.cons_append, List.cons_append, List.nil_append, List.take_succ_cons, List.take_succ_cons,
    List.take_append, hl, List.take_of_length_le (by omega)]

/-- The core enters DEBUG. -/
def debugged (s : State) (c : Nat) : State := s.setCore c { s.core c with mode := 3 }
theorem core_debugged (s : State) (c : Nat) : (debugged s c).core c = { s.core c with mode := 3 } := State.core_setCore_self ..
/-- The branches of a trap's route: to the debugger, to the fault log, or to the pending list. -/
def toDebugger (co : Core) (cause : Nat) : Prop := cause = 0x0E ∧ co.trapv.getLsbD 17 = true ∧ co.mode ≠ 2
def unhandled (co : Core) (inH : Bool) : Prop := co.trapv.getLsbD 16 = false ∨ inH = true ∨ co.mode = 2

section
variable {c cause cls : Nat} {inH : Bool} {words : List (BitVec 64)}

theorem routeTrap_debug (h : toDebugger (s.core c) cause) :
    routeTrap s c cause cls inH words = trapLogged (debugged s c) c 0x05 0 words := by
  obtain ⟨h1, h2, h3⟩ := h
  have hbit : bit (s.core c).trapv.toNat 17 = true := by rw [bit_eq_testBit, BitVec.testBit_toNat, h2]
  exact if_pos ⟨h1, hbit, h3⟩
theorem routeTrap_rest (h : ¬ toDebugger (s.core c) cause) : (unhandled (s.core c) inH →
      routeTrap s c cause cls inH words = trapLogged s c 0x04 cause words) ∧
    (¬ unhandled (s.core c) inH →
      routeTrap s c cause cls inH words = s.setCore c { s.core c with pend := (s.core c).pend ++ [⟨words, cls⟩] }) := by
  have hb (n : Nat) : bit (s.core c).trapv.toNat n = (s.core c).trapv.getLsbD n := by rw [bit_eq_testBit, BitVec.testBit_toNat]
  have hnot : ¬ (cause = 0x0E ∧ bit (s.core c).trapv.toNat 17 = true ∧ (s.core c).mode ≠ 2) := by rwa [hb]
  have hun : unhandled (s.core c) inH ↔ ((!bit (s.core c).trapv.toNat 16) = true ∨ inH = true ∨ (s.core c).mode = 2) := by
    rw [hb, unhandled, Bool.not_eq_true']
  refine ⟨fun hu => ?_, fun hu => ?_⟩
  · exact (if_neg hnot).trans (if_pos (hun.mp hu))
  · exact (if_neg hnot).trans (if_neg (mt hun.mpr hu))

/-- No route lets a deferred free go. -/
theorem freeAfter_routeTrap (hs : Safe s) (hl : words.length = 8) (j : Nat) :
    ((routeTrap s c cause cls inH words).core j).freeAfter = (s.core j).freeAfter := by
  have hset (x : Core) (hx : x.freeAfter = (s.core c).freeAfter) : ((s.setCore c x).core j).freeAfter = (s.core j).freeAfter := by
    by_cases hj : j = c
    · rw [hj, State.core_setCore_self, hx]
    · rw [State.core_setCore_ne _ _ hj]
  by_cases hd : toDebugger (s.core c) cause
  · rw [routeTrap_debug hd, (trapLogged_logged (s := debugged s c) hs c _ _ hl).core]
    exact hset _ rfl
  · by_cases hu : unhandled (s.core c) inH
    · rw [(routeTrap_rest hd).1 hu, (trapLogged_logged hs c _ _ hl).core]
    · rw [(routeTrap_rest hd).2 hu]
      exact hset _ rfl

/-- Every route writes host memory alone, sends nothing, and leaves UNDONE. -/
theorem routeTrap_writes (hs : Safe s) (hl : words.length = 8) : let t := routeTrap s c cause cls inH words
    t.net = s.net ∧ HostWrites s.mem t.mem ∧ (t.core c).undone = (s.core c).undone := by
  dsimp only
  by_cases hd : toDebugger (s.core c) cause
  · have h := trapLogged_logged (s := debugged s c) hs c 0x05 0 hl
    rw [routeTrap_debug hd]
    exact ⟨h.net, h.mem, by rw [h.core, core_debugged]⟩
  · by_cases hu : unhandled (s.core c) inH
    · have h := trapLogged_logged hs c 0x04 cause hl
      rw [(routeTrap_rest hd).1 hu]
      exact ⟨h.net, h.mem, by rw [h.core]⟩
    · rw [(routeTrap_rest hd).2 hu]
      exact ⟨rfl, .refl hs, by rw [State.core_setCore_self]⟩

end

end

theorem frameState_of_hostWrites {s t : State} (h : HostWrites s.mem t.mem) (fp : Nat) : frameState t fp = frameState s fp := by
  have hword : memNat t.mem (hdrKey fp 0) 8 = memNat s.mem (hdrKey fp 0) 8 :=
    memNat_congr _ _ fun b hb _ => h.same b (.inr (by unfold hdrKey wordKey localKey at hb; omega))
  rw [frameState, hdr, hword, frameState, hdr]

theorem takeTrap_eq {s : State} {c k : Nat} {f : Firing} (r : Trap) (hs : Safe s) (hf : firingAt s c k = some f) (hc : fpCore f.fp = c)
    (hfree : (s.core c).freeAfter.contains f.fp = false) (htr : (s.die (coreDie c)).trace.ctl.getLsbD 63 = false) :
    takeTrap s c k r = routeTrap (trapped s c k f) c r.cause (frameClass s f.fp) (isTrapFrame s f.fp) (trapWords s f r) := by
  have hoff : ((trapped s c k f).die (coreDie c)).trace.ctl.getLsbD 63 = false := by rwa [(dies_trapped s c k f _).2.2]
  simp only [takeTrap, hf]
  refine (congrArg (fun x => lateFree (routeTrap x c r.cause (frameClass s f.fp) (isTrapFrame s f.fp) (trapWords s f r)) f.fp)
    (traceRec_off hoff c 2 _ _)).trans (lateFree_of_none ?_)
  rw [freeAfter_routeTrap (trapped_safe hs c k f) rfl, freeAfter_trapped, hc, hfree]

/-- Settles O41: the firing is undone and its frame trapped, then the record goes one of three routes. -/
theorem trapEntryDeliversTheRecord : Obligations.TrapEntryDeliversTheRecord := by
  intro s c k f r hs hc3 hf hc hfree htr t words debug quiet logged
  obtain ⟨x, hx⟩ : ∃ x, trapped s c k f = x := ⟨_, rfl⟩
  have ht : t = routeTrap x c r.cause (frameClass s f.fp) (isTrapFrame s f.fp) words := hx ▸ takeTrap_eq r hs hf hc hfree htr
  have hsafe : Safe x := hx ▸ trapped_safe hs c k f
  have hrun : runPart (x.core c) = _ := hx ▸ runPart_trapped s c k f
  simp only [runPart, Prod.mk.injEq] at hrun
  obtain ⟨-, hundone, hmode, htrapv, hpend⟩ := hrun
  obtain ⟨hlog, hlogN, -⟩ : _ ∧ _ ∧ _ := hx ▸ dies_trapped s c k f (coreDie c)
  have hmem {a : Nat} (ha : outside (hdrKey f.fp 0) 8 a) : memGet x.mem a = memGet s.mem a := hx ▸ memGet_trapped hs c k f ha
  have hDbg : debug ↔ toDebugger (x.core c) r.cause := by rw [toDebugger, htrapv, hmode]
  have hquiet : quiet ↔ unhandled (x.core c) (isTrapFrame s f.fp) := by rw [unhandled, htrapv, hmode]
  obtain ⟨hnet, hwrites, hun⟩ := routeTrap_writes (c := c) (cause := r.cause) (cls := frameClass s f.fp) (inH := isTrapFrame s f.fp)
    (words := words) hsafe rfl
  rw [← ht] at hnet hwrites hun
  refine ⟨firingAt_takeTrap s c k r, by rw [hun, hundone]; rfl, ?_, ?_, fun a ha hout => (hwrites.same a hout).trans (hmem ha), fun hd => ?_,
    fun hd hq => ?_, fun hd hq => ?_⟩
  · rw [frameState_of_hostWrites hwrites, ← hx, frameState_trapped hs]
  · rw [hnet, ← hx]
    exact net_trapped s c k f
  · have h := trapLogged_logged (s := debugged x c) hsafe c 0x05 0 (words := words) rfl
    rw [← routeTrap_debug (hDbg.mp hd), ← ht] at h
    have hcore := h.core c
    rw [core_debugged] at hcore
    exact ⟨by rw [hcore], h.count.trans (by rw [← hlogN]; rfl), by rw [hcore, ← hpend], by rw [← hlogN]; exact h.entry⟩
  · have h := trapLogged_logged hsafe c 0x04 r.cause (words := words) rfl
    rw [← (routeTrap_rest (mt hDbg.mpr hd)).1 (hquiet.mp hq), ← ht] at h
    have hcore := h.core c
    exact ⟨by rw [hcore, hmode], h.count.trans (by rw [hlogN]), by rw [hcore, hpend], by rw [← hlogN]; exact h.entry⟩
  · rw [(routeTrap_rest (mt hDbg.mpr hd)).2 (mt hquiet.mpr hq)] at ht
    rw [ht, State.core_setCore_self, hpend, hmode]
    exact ⟨rfl, rfl, hlog, fun a ha => hmem ha⟩

end Sys2Proof.Safety
end

section
/-! PROOFS. An event that can come in any state, by its condition, and that is refused (R463). -/

namespace Sys2Proof.Safety

open Sys2Proof.Machine

/-- A time message on a port beyond the 32 of the package: `Enabled` asks nothing of it. -/
def strayTimeMessage : Event := .ptpMessageReceive 32 true 0 0 0

theorem enabled_strayTimeMessage (s : State) : Enabled s strayTimeMessage := trivial
theorem exec_strayTimeMessage (s : State) : exec (eventInstr strayTimeMessage) (onEvent s strayTimeMessage) = .refused .notEnabled := rfl

/-- Refutes O57: a PTP_MESSAGE_RECEIVE that names port 32 is enabled in every state, the one after reset too, and is refused there. -/
theorem not_firingAndSchedulerEvents : ¬ Obligations.FiringAndSchedulerEvents := by
  intro h
  obtain ⟨t, ht⟩ := (h State.reset 0 0 (by decide)).1 strayTimeMessage (enabled_strayTimeMessage State.reset)
  cases (exec_strayTimeMessage State.reset).symm.trans ht

end Sys2Proof.Safety
end

section
/-! PROOFS. Memory stays in canonical form: the rules for a state that is put together (R112, R117, R203). -/

namespace Sys2Proof.Safety

open Sys2Proof.Machine

/-! ## Only the memory of a state counts -/

section
variable (s : State)

@[simp] theorem safe_mk (m : List Host.Cell) (co : Sp Core) (di : Sp Die) (pk : Pkg) (ti : Nat) (im : List (Nat × Nat)) (ne : List Packet)
    (du inb : List Event) (re : Option (BitVec 64)) (rx : Bool) (fo : Focus) (mo dr : Nat) :
    Safe ⟨m, co, di, pk, ti, im, ne, du, inb, re, rx, fo, mo, dr⟩ ↔ Memory.wf m = true := Iff.rfl
@[simp] theorem wf_mem : Memory.wf s.mem = true ↔ Safe s := Iff.rfl
@[simp] theorem safe_setMem (m : List Host.Cell) : Safe (s.setMem m) ↔ Memory.wf m = true := Iff.rfl
@[simp] theorem safe_setCore (c : Nat) (x : Core) : Safe (s.setCore c x) ↔ Safe s := Iff.rfl
@[simp] theorem safe_modCore (c : Nat) (f : Core → Core) : Safe (s.modCore c f) ↔ Safe s := Iff.rfl
@[simp] theorem safe_setDie (d : Nat) (x : Die) : Safe (s.setDie d x) ↔ Safe s := Iff.rfl
@[simp] theorem safe_modDie (d : Nat) (f : Die → Die) : Safe (s.modDie d f) ↔ Safe s := Iff.rfl
@[simp] theorem safe_modPkg (f : Pkg → Pkg) : Safe (s.modPkg f) ↔ Safe s := Iff.rfl
@[simp] theorem safe_modPod (f : Pod → Pod) : Safe (s.modPod f) ↔ Safe s := Iff.rfl
@[simp] theorem safe_send (p : Packet) : Safe (s.send p) ↔ Safe s := Iff.rfl
@[simp] theorem safe_raise (e : Event) : Safe (s.raise e) ↔ Safe s := Iff.rfl

end

/-- States of the same memory are in canonical form together. -/
theorem safe_congr {s t : State} (h : t.mem = s.mem) : Safe t ↔ Safe s := by rw [Safe, h, Safe]

/-! ## Choices, pairs and folds -/

@[simp] theorem safe_ite {p : Prop} [Decidable p] (a b : State) : Safe (if p then a else b) ↔ if p then Safe a else Safe b := by split <;> rfl
@[simp] theorem wf_ite {p : Prop} [Decidable p] {m n : List Host.Cell} :
    Memory.wf (if p then m else n) = true ↔ if p then Memory.wf m = true else Memory.wf n = true := by split <;> rfl
@[simp] theorem fst_ite {α β : Type} {p : Prop} [Decidable p] (a b : α × β) : (if p then a else b).1 = if p then a.1 else b.1 := apply_ite ..

/-- What a match takes out of a pair has the form when the pair's state has it. -/
theorem safe_of_eq_mk {α : Type} {x : State × α} {t : State} {a : α} (h : x = (t, a)) (hx : Safe x.1) : Safe t := by
  subst h
  exact hx

section
variable {α β : Type}

/-- Where no step of a fold changes memory, the fold does not. -/
@[simp] theorem safe_foldl_iff {f : State → α → State} (hf : ∀ s a, Safe (f s a) ↔ Safe s) (l : List α) (s : State) :
    Safe (l.foldl f s) ↔ Safe s := by
  induction l generalizing s with
  | nil => rfl
  | cons a l ih => exact (ih _).trans (hf s a)

/-- What every step of a fold keeps, the fold keeps. -/
theorem foldl_induct {f : β → α → β} {p : β → Prop} (hf : ∀ x a, p x → p (f x a)) (l : List α) {x : β} (hx : p x) : p (l.foldl f x) := by
  induction l generalizing x with
  | nil => exact hx
  | cons a l ih => exact ih (hf x a hx)

/-- Where every step of a fold keeps the form, the fold does. -/
theorem safe_foldl {f : State → α → State} (hf : ∀ s a, Safe s → Safe (f s a)) (l : List α) {s : State} (hs : Safe s) : Safe (l.foldl f s) :=
  foldl_induct hf l hs
theorem safe_foldl_fst {f : State × β → α → State × β} (hf : ∀ x a, Safe x.1 → Safe (f x a).1) (l : List α) {x : State × β} (hx : Safe x.1) :
    Safe (l.foldl f x).1 :=
  foldl_induct (p := fun x : State × β => Safe x.1) hf l hx

end

/-! ## Outcomes -/

/-- What an outcome goes on with, if it goes on, is in canonical form. -/
def OutSafe : Host.Outcome State Fault Refusal → Prop
  | .next t => Safe t
  | _ => True

@[simp] theorem outSafe_next (t : State) : OutSafe (.next t) ↔ Safe t := Iff.rfl
@[simp] theorem outSafe_refused (r : Refusal) : OutSafe (.refused r) := trivial
@[simp] theorem outSafe_ite {p : Prop} [Decidable p] {a b : Host.Outcome State Fault Refusal} :
    OutSafe (if p then a else b) ↔ if p then OutSafe a else OutSafe b := by split <;> rfl

/-- What a computation that may fail answers, if it answers, is in canonical form; `st` is the state in its answer. -/
def Kept {ε α : Type} (st : α → State) : Except ε α → Prop
  | .ok a => Safe (st a)
  | .error _ => True

section
variable {ε α β : Type} {st : α → State} {st' : β → State}

@[simp] theorem kept_ok (a : α) : Kept st (Except.ok a : Except ε α) ↔ Safe (st a) := Iff.rfl
theorem safe_of_eq_ok {x : Except ε α} {a : α} (h : x = .ok a) (hx : Kept st x) : Safe (st a) := by
  subst h
  exact hx
theorem kept_bind (x : Except ε α) {f : α → Except ε β} (hf : ∀ a, Kept st' (f a)) : Kept st' (x >>= f) := by
  cases x with
  | error e => trivial
  | ok a => exact hf a
theorem kept_bind_of {x : Except ε α} (hx : Kept st x) {f : α → Except ε β} (hf : ∀ a, Safe (st a) → Kept st' (f a)) : Kept st' (x >>= f) := by
  cases x with
  | error e => trivial
  | ok a => exact hf a hx
theorem kept_map {x : Except ε α} (hx : Kept st x) {f : α → β} (hf : ∀ a, st' (f a) = st a) : Kept st' (x.map f) := by
  cases x with
  | error e => trivial
  | ok a =>
    rw [Except.map, kept_ok, hf a]
    exact hx

end

end Sys2Proof.Safety
end

section
/-! PROOFS. Memory stays in canonical form: physical memory, its caches, translation and the lines of block slots. -/

namespace Sys2Proof.Safety

open Sys2Proof.Machine

variable {s : State}

/-! ## Parts of the state; presence and partitions; event counters and strays; last-level cache bookkeeping: lines never change a value -/

@[simp] theorem safe_raiseOnce (e : Event) : Safe (raiseOnce s e) ↔ Safe s := by simp [raiseOnce]
@[simp] theorem safe_setPort (n : Nat) (x : Port) : Safe (setPort s n x) ↔ Safe s := by simp [setPort]
@[simp] theorem safe_countEv (c code n : Nat) : Safe (countEv s c code n) ↔ Safe s := by simp [countEv]
@[simp] theorem safe_countFabric (part : Option Nat) (code : Nat) : Safe (countFabric s part code) ↔ Safe s := by simp [countFabric]
@[simp] theorem safe_stray (c fp slot : Nat) : Safe (stray s c fp slot) ↔ Safe s := by simp [stray]
@[simp] theorem safe_llcRead (part : Option Nat) (p b : Nat) : Safe (llcRead s part p b).1 ↔ Safe s := by
  simp only [llcRead]
  repeat' split
  all_goals simp
@[simp] theorem safe_llcWrite (part : Option Nat) (p : Nat) : Safe (llcWrite s part p) ↔ Safe s := by
  unfold llcWrite
  split <;> simp
@[simp] theorem safe_llcRange (part : Option Nat) (p n : Nat) (write : Bool) : Safe (llcRange s part p n write) ↔ Safe s := by
  unfold llcRange
  split <;> simp
@[simp] theorem safe_llcClean (p : Nat) : Safe (llcClean s p) ↔ Safe s := by
  unfold llcClean
  split <;> simp
@[simp] theorem safe_llcInval (p : Nat) : Safe (llcInval s p) ↔ Safe s := by
  unfold llcInval
  split <;> simp
@[simp] theorem safe_llcFill (part : Option Nat) (p : Nat) : Safe (llcFill s part p) ↔ Safe s := by
  unfold llcFill
  split <;> simp
@[simp] theorem safe_llcCoreRead (c p b : Nat) : Safe (llcCoreRead s c p b) ↔ Safe s := by
  unfold llcCoreRead
  split <;> simp
@[simp] theorem safe_llcCoreWrite (c p : Nat) : Safe (llcCoreWrite s c p) ↔ Safe s := by
  unfold llcCoreWrite
  split <;> simp

/-! ## Pewter, poison, physical reads and writes -/

@[simp] theorem safe_addImage (p n : Nat) : Safe (addImage s p n) ↔ Safe s := by simp [addImage]
@[simp] theorem safe_logRec (d kind core cls part : Nat) (detail : List (BitVec 64)) : Safe (logRec s d kind core cls part detail).1 ↔ Safe s := by
  simp [logRec]
@[simp] theorem safe_ringRecord (hs : Safe s) (evt : BitVec 64) (w : List Nat) : Safe (ringRecord s evt w) := by
  simp only [ringRecord]
  split
  · split
    · exact hs
    · split
      · simp [memPut_wf, hs]
      · rw [safe_setMem]
        refine memPut_wf ?_ ..
        exact foldl_wf _ (fun _ _ h => memPut_wf h ..) _ hs
  · exact hs
@[simp] theorem safe_dieEvent (hs : Safe s) (d core kind w3 idx : Nat) : Safe (dieEvent s d core kind w3 idx) := by
  simp only [dieEvent]
  split <;> simp [hs]
@[simp] theorem safe_pkgEvent (hs : Safe s) (kind d w3 : Nat) : Safe (pkgEvent s kind d w3) :=
  safe_ringRecord (safe_foldl (fun _ _ h => safe_ringRecord h ..) _ hs) ..
@[simp] theorem safe_lastingRec (hs : Safe s) (d core part : Nat) (detail : List (BitVec 64)) : Safe (lastingRec s d core part detail) := by
  simp [lastingRec, hs]
@[simp] theorem safe_kvDamageWord (hs : Safe s) (p : Nat) : Safe (kvDamageWord s p) := by
  unfold kvDamageWord
  split
  · exact safe_foldl (fun s q h => by simp [h]) _ hs
  · exact hs
@[simp] theorem safe_kvDamage (hs : Safe s) (p n : Nat) : Safe (kvDamage s p n) := by
  unfold kvDamage
  exact safe_foldl (fun s a h => by simp [h]) _ hs
@[simp] theorem safe_keepError (hs : Safe s) (key : Nat) : Safe (keepError s key) := by simp [keepError, hs, putWord_wf, setPoison_wf]
@[simp] theorem safe_lastingError (hs : Safe s) (d key : Nat) (spare : Bool) : Safe (lastingError s d key spare) := by simp [lastingError, hs]
@[simp] theorem safe_physWrite (hs : Safe s) (p v n : Nat) (x : Bool) : Safe (physWrite s p v n x) := by
  have hput (v : Nat) : Memory.wf (memPut (kvDamage s p n).mem p v n) = true := memPut_wf (safe_kvDamage hs ..) ..
  simp only [physWrite, safe_setMem]
  split
  · exact poisonRange_wf (hput _) ..
  · exact foldl_wf _ (fun m w h => by simp [setPoison_wf, h]) _ (hput _)

/-! ## Bits of integers; the walk; TLBs; checking an address -/

@[simp] theorem safe_setAstat (c fl : Nat) : Safe (setAstat s c fl) ↔ Safe s := by simp [setAstat]
@[simp] theorem safe_walkCache (part : Option Nat) (root : BitVec 64) (va : Nat) : Safe (walkCache s part root va) ↔ Safe s := by simp [walkCache]
@[simp] theorem safe_tlbCore (c : Nat) (t : Tlb) : Safe (tlbCore s c t) ↔ Safe s := by simp [tlbCore]
@[simp] theorem safe_tlbBoth (c : Nat) (t : Tlb) : Safe (tlbBoth s c t) ↔ Safe s := by simp [tlbBoth]
@[simp] theorem safe_tlbInv (scope : Scope) (c : Nat) (part : Option Nat) (va : Nat) : Safe (tlbInv s scope c part va) ↔ Safe s := by simp [tlbInv]
@[simp] theorem safe_noteTlb (c : Nat) (x : Option Tlb) : Safe (noteTlb s c x) ↔ Safe s := by
  unfold noteTlb
  split <;> simp
@[simp] theorem safe_startWalk (c va : Nat) (r : WalkReq) : Safe (startWalk s c va r) ↔ Safe s := by simp [startWalk]
@[simp] theorem safe_xlateAt (part : Option Nat) (va : Nat) (write : Bool) : Safe (xlateAt s part va write).1 ↔ Safe s := by simp [xlateAt]
theorem safe_choose {α : Type} {l : List α} {t : State × α} (ht : choose s l = some t) : Safe t.1 ↔ Safe s := by
  unfold choose at ht
  split at ht <;> cases ht
  rfl
theorem safe_kvFreeBlock {k : Kvb} {t : State × Nat} (ht : kvFreeBlock s k = some t) : Safe t.1 ↔ Safe s := safe_choose ht
@[simp] theorem safe_kvSetPte (hs : Safe s) (d slot : Nat) (b : Option Nat) : Safe (kvSetPte s d slot b) := by simp [kvSetPte, hs, memPut_wf]
@[simp] theorem safe_kvCow (hs : Safe s) (d slot b b' : Nat) : Safe (kvCow s d slot b b') := by
  simp [kvCow, memMove_wf (memMove_wf hs _ _ _)]
theorem safe_kvMap (hs : Safe s) {loc : Loc} {write : Bool} {t : State × Loc} (ht : kvMap s loc write = some t) :
    Safe t.1 := by
  simp only [kvMap] at ht
  split at ht
  · cases ht; exact hs
  · split at ht
    · cases ht; exact hs
    · split at ht
      · split at ht
        · cases ht
        case h_2 hb => cases ht; exact safe_kvCow ((safe_kvFreeBlock hb).mpr hs) ..
      · cases ht; exact hs

/-! ## The line of a slot (R372) -/

@[simp] theorem safe_kvLeave (d : Nat) (h : KvHeld) : Safe (kvLeave s d h) ↔ Safe s := by simp [kvLeave]
theorem safe_kvRoute (hs : Safe s) {loc : Loc} {write : Bool} {me : Option HeldBy} {t : State × Loc}
    (ht : kvRoute s loc write me = some t) : Safe t.1 := by
  unfold kvRoute at ht
  split at ht
  · cases ht; exact hs
  · split at ht
    · exact safe_kvMap hs ht
    · split at ht
      · obtain ⟨r, hr, rfl⟩ := Option.map_eq_some_iff.mp ht
        simp [safe_kvMap hs hr]
      · cases ht
@[simp] theorem safe_kvHold (hs : Safe s) (d slot : Nat) (write : Bool) (who : HeldBy) : Safe (kvHold s d slot write who) := by simp [kvHold, hs]
@[simp] theorem safe_kvLeaveAll (who : HeldBy) : Safe (kvLeaveAll s who) ↔ Safe s := by simp [kvLeaveAll]

end Sys2Proof.Safety
end

section
/-! PROOFS. Memory stays in canonical form: frames, task records, the pools of entries, and the integrator's steps. -/

namespace Sys2Proof.Safety

open Sys2Proof.Machine

variable {s : State}

/-! ## Frames and their headers -/

@[simp] theorem safe_setHdr (hs : Safe s) (fp k v : Nat) : Safe (setHdr s fp k v) := by simp [setHdr, hs, putWord_wf]
@[simp] theorem safe_noteWait (fp : Nat) : Safe (noteWait s fp) ↔ Safe s := by simp [noteWait]
@[simp] theorem safe_setFrameState (hs : Safe s) (fp st : Nat) : Safe (setFrameState s fp st) := by simp [setFrameState, hs]
@[simp] theorem safe_setFrameClass (hs : Safe s) (fp cl : Nat) : Safe (setFrameClass s fp cl) := by simp [setFrameClass, hs]
@[simp] theorem safe_setSlot (hs : Safe s) (fp n : Nat) (v : Val) : Safe (setSlot s fp n v) := by simp [setSlot, hs, putWord_wf]
@[simp] theorem safe_clearSlot (hs : Safe s) (fp n : Nat) : Safe (clearSlot s fp n) := by simp [clearSlot, hs, setTags_wf]
@[simp] theorem safe_recount (hs : Safe s) (fp : Nat) : Safe (recount s fp) := by simp [recount, hs]
@[simp] theorem safe_zeroWords (hs : Safe s) (c h n : Nat) : Safe (zeroWords s c h n) := by
  induction n generalizing s h with
  | zero => exact hs
  | succ n ih =>
    rw [zeroWords]
    exact ih (by simp [putWord_wf, hs]) _
@[simp] theorem safe_allocFrame (hs : Safe s) (fp size task cls parent node : Nat) :
    Safe (allocFrame s fp size task cls parent node) := by
  simp only [allocFrame]
  exact safe_recount (setHdr_safe (setHdr_safe (setHdr_safe (setHdr_safe (by simp [hs]) _) _) _) _) _

/-! ## Task records (R109, R199, R200) -/

@[simp] theorem safe_holdAccess (hs : Safe s) (c va reason : Nat) : Safe (holdAccess s c va reason) := by simp [holdAccess, hs]
@[simp] theorem safe_devAddr (hs : Safe s) (c va : Nat) (write : Bool) : Safe (devAddr s c va write).1 := by
  simp only [devAddr]
  split
  · exact hs
  · split
    · split
      · simp [hs]
      · split
        · simp [hs]
        · split
          case h_1 hr => exact safe_kvRoute (by simpa using hs) hr
          · simp [hs]
          · simp [hs]
    · split <;> simp [hs]
@[simp] theorem safe_devGo (hs : Safe s) (c n : Nat) : Safe (devGo s c n) := by
  induction n generalizing s with
  | zero => exact hs
  | succ n ih =>
    unfold devGo
    split
    · exact hs
    · have ha (va : Nat) := safe_devAddr hs c va true
      split
      case h_1 he => exact safe_of_eq_mk he (ha _)
      case h_2 he =>
        refine ih (safe_foldl_fst (fun a w h => ?_) _ ?_)
        · simp [h]
        · exact safe_of_eq_mk he (ha _)
@[simp] theorem safe_devWrite (hs : Safe s) (c va : Nat) (ws : List Nat) : Safe (devWrite s c va ws) := by simp [devWrite, hs]
@[simp] theorem safe_devRead (hs : Safe s) (c va n : Nat) : Safe (devRead s c va n).1 := by
  have ha := safe_devAddr hs c va false
  unfold devRead
  split
  · exact hs
  · split <;> simp_all
@[simp] theorem safe_ringStore (hs : Safe s) (c cls n : Nat) : Safe (ringStore s c cls n) :=
  safe_foldl_fst (fun _ _ h => safe_devWrite h ..) _ hs
@[simp] theorem safe_ringFromWalk (hs : Safe s) (c cls : Nat) : Safe (ringFromWalk s c cls) := by
  simp only [ringFromWalk]
  split
  · exact hs
  · simp [hs]
@[simp] theorem safe_ringAppend (hs : Safe s) (c : Nat) (r : TRec) : Safe (ringAppend s c r) := by simp [ringAppend, hs]
@[simp] theorem safe_moveRings (hs : Safe s) (c : Nat) (base : BitVec 64) : Safe (moveRings s c base) := by
  unfold moveRings
  exact safe_foldl (fun s a h => by simp [h]) _ hs
@[simp] theorem safe_rawAppend (hs : Safe s) (c : Nat) (r : TRec) : Safe (rawAppend s c r) := by simp [rawAppend, hs]
@[simp] theorem safe_rawReturn (hs : Safe s) (c : Nat) (r : TRec) : Safe (rawReturn s c r) := by simp [rawReturn, hs]

/-- The equation of `ringRefill` is too large for Lean to derive, so its recursion is taken apart by hand. -/
@[simp] theorem safe_ringRefill (hs : Safe s) (c n : Nat) : Safe (ringRefill s c n) := by
  induction n generalizing s with
  | zero => exact hs
  | succ n ih =>
    revert ih
    delta ringRefill Nat.brecOn Nat.brecOn.go
    dsimp only
    generalize Nat.rec (motive := fun _ => _) _ _ n = rec
    intro ih
    have hw : Safe ((List.range 4).foldl (fun s k => ringFromWalk s c k) s) := by
      refine safe_foldl (fun s k h => ?_) _ hs
      exact safe_ringFromWalk h c k
    delta ringRefill._f
    dsimp only
    generalize (List.range 4).foldl (fun s k => ringFromWalk s c k) s = s' at hw ⊢
    have hr (va : Nat) := safe_devRead hw c va 8
    split
    · exact hw
    · split
      · exact hw
      · split
        · exact hw
        · split
          case h_1 he => exact safe_of_eq_mk he (hr _)
          case h_2 he => exact ih (by simpa using safe_of_eq_mk he (hr _))
@[simp] theorem safe_dropRec (hs : Safe s) (fp : Nat) : Safe (dropRec s fp) := by
  unfold dropRec
  exact safe_foldl (fun s a h => by simp [h]) _ hs

/-! ## Entry pools (R205 to R207) -/

@[simp] theorem safe_ovfWrite (hs : Safe s) (c : Nat) (ws : List Nat) : Safe (ovfWrite s c ws).1 := by
  unfold ovfWrite
  exact safe_foldl (fun s a h => by simp [h]) _ hs
@[simp] theorem safe_tbufPlace (hs : Safe s) (c : Nat) (e : TEntry) : Safe (tbufPlace s c e).1 := by simp [tbufPlace, hs]
@[simp] theorem safe_tbufPut (hs : Safe s) (c : Nat) (first : Bool) (e : TEntry) : Safe (tbufPut s c first e) := by simp [tbufPut, hs]
@[simp] theorem safe_tbufAdd (hs : Safe s) (c : Nat) (e : TEntry) : Safe (tbufAdd s c e) := by simp [tbufAdd, hs]
@[simp] theorem safe_tbufIn (hs : Safe s) (c n : Nat) : Safe (tbufIn s c n) := by
  induction n generalizing s with
  | zero => exact hs
  | succ n ih =>
    unfold tbufIn
    split
    · exact hs
    · split
      · exact ih (safe_tbufPlace hs ..)
      · exact hs
@[simp] theorem safe_tbufBack (hs : Safe s) (c n : Nat) : Safe (tbufBack s c n) := by
  induction n generalizing s with
  | zero => exact hs
  | succ n ih =>
    have hr (va : Nat) := safe_devRead hs c va 2
    simp only [tbufBack]
    split
    · exact hs
    · split
      · exact hs
      · split
        · exact ih hs
        · split
          case h_1 he => exact safe_of_eq_mk he (hr _)
          case h_2 he => exact ih (by simpa using safe_of_eq_mk he (hr _))

/-! ## Waiters and reservations (R122, R123) -/

@[simp] theorem safe_setHomeWaiters (key : Nat) (l : List Waiter) : Safe (setHomeWaiters s key l) ↔ Safe s := by simp [setHomeWaiters]
@[simp] theorem safe_addWaiter (hs : Safe s) (key fp : Nat) (take first : Bool) : Safe (addWaiter s key fp take first) := by simp [addWaiter, hs]
@[simp] theorem safe_becameFull (key : Nat) : Safe (becameFull s key) ↔ Safe s := safe_congr (calm_becameFull s key 0).2
@[simp] theorem safe_waitersBack (hs : Safe s) (c n : Nat) : Safe (waitersBack s c n) := by
  induction n generalizing s with
  | zero => exact hs
  | succ n ih =>
    have hr (va : Nat) := safe_devRead hs c va 2
    simp only [waitersBack]
    split
    · exact hs
    · split
      · exact hs
      · split
        · exact ih hs
        · split
          case h_1 he => exact safe_of_eq_mk he (hr _)
          case h_2 he => exact ih (by simp [safe_of_eq_mk he (hr _)])
@[simp] theorem safe_endReservesBut (fp : Nat) (but : Option Nat) : Safe (endReservesBut s fp but) ↔ Safe s := by
  simp [endReservesBut]
@[simp] theorem safe_endReservations (fp : Nat) : Safe (endReservations s fp) ↔ Safe s := by simp [endReservations]
@[simp] theorem safe_dropWaiters (fp : Nat) : Safe (dropWaiters s fp) ↔ Safe s := by simp [dropWaiters]

/-! ## Freeing a frame; gated banks -/

@[simp] theorem safe_freeFrame (hs : Safe s) (fp : Nat) : Safe (freeFrame s fp) := by
  simp [freeFrame, hs]
@[simp] theorem safe_freeDeferred (hs : Safe s) (fp : Nat) : Safe (freeDeferred s fp) := by simp [freeDeferred, hs]
@[simp] theorem safe_openBank (c : Option Nat) (d b : Nat) : Safe (openBank s c d b) ↔ Safe s := by
  unfold openBank
  split <;> simp
@[simp] theorem safe_wakeBank (c : Option Nat) (d b : Nat) : Safe (wakeBank s c d b) ↔ Safe s := by simp [wakeBank]
@[simp] theorem safe_keepFrames (c : Nat) : Safe (keepFrames s c) ↔ Safe s := by simp [keepFrames]
@[simp] theorem safe_awake (key : Nat) : Safe (awake s key) ↔ Safe s := by
  simp only [awake]
  repeat' split
  all_goals simp

/-! ## Writing -/

@[simp] theorem safe_planeWriteX (hs : Safe s) (key mask v : Nat) (bad : Bool) : Safe (planeWriteX s key mask v bad) := by
  simp only [planeWriteX]
  split
  · exact hs
  · split <;> simp [putWord_wf, hs]
@[simp] theorem safe_planeWrite (hs : Safe s) (key mask v : Nat) : Safe (planeWrite s key mask v) := by simp [planeWrite, hs]
@[simp] theorem safe_PSet_put (hs : Safe s) (p : Machine.PSet) (b : Nat) (els : List (Nat × El)) :
    Safe (p.put s b els) := by
  refine safe_foldl (fun s part h => ?_) _ hs
  refine safe_foldl (fun s j h => ?_) _ h
  simp [h]
@[simp] theorem safe_PSet_putExps (hs : Safe s) (p : Machine.PSet) (b : Nat) (gs : List (Nat × ℤ)) : Safe (p.putExps s b gs) := by
  unfold PSet.putExps
  exact safe_foldl (fun s a h => by simp [h]) _ hs
@[simp] theorem safe_PSet_putAll (hs : Safe s) (p : Machine.PSet) (els : List (Nat × El)) : Safe (p.putAll s els) := by
  unfold PSet.putAll
  exact safe_foldl (fun s a h => by simp [h]) _ hs
@[simp] theorem safe_putWords (hs : Safe s) (c w : Nat) (vs : List Nat) : Safe (putWords s c w vs) := by
  unfold putWords
  refine safe_foldl (fun s e h => ?_) _ hs
  exact safe_planeWrite h ..
@[simp] theorem safe_sendDone (r : Released) (v : Val) : Safe (sendDone s r v) ↔ Safe s := safe_congr (sendDone_mem s r v)

/-! ## Configuration words; taps; stops -/

@[simp] theorem safe_modDda (c : Nat) (f : Dda → Dda) : Safe (modDda s c f) ↔ Safe s := by simp [modDda]
@[simp] theorem safe_setTap (c k : Nat) (t : Tap) : Safe (setTap s c k t) ↔ Safe s := by simp [setTap]
@[simp] theorem safe_tapFlush (hs : Safe s) (c : Nat) (t : Tap) : Safe (tapFlush s c t) := by simp [tapFlush, hs]
@[simp] theorem safe_tapEnd (hs : Safe s) (c k : Nat) (quiet : Bool) : Safe (tapEnd s c k quiet) := by simp [tapEnd, hs]
@[simp] theorem safe_tapSample (hs : Safe s) (c k : Nat) (t : Tap) : Safe (tapSample s c k t) := by simp [tapSample, hs]
@[simp] theorem safe_tapCount (hs : Safe s) (c d k : Nat) : Safe (tapCount s c d k) := by simp [tapCount, hs]
@[simp] theorem safe_feedTake (hs : Safe s) (c ch : Nat) : Safe (feedTake s c ch) := by
  simp only [feedTake]
  split <;> simp [hs]
@[simp] theorem safe_flushStops (c : Nat) : Safe (flushStops s c) ↔ Safe s := by
  simp only [flushStops]
  split
  · rfl
  · rw [safe_foldl_iff fun _ _ => safe_send .., safe_modDda]
@[simp] theorem safe_domStop (c d reason cell : Nat) : Safe (domStop s c d reason cell) ↔ Safe s := by simp [domStop]

/-! ## One cclk of steps (R302, R304, R306) -/

@[simp] theorem safe_domResults (c d : Nat) (res : List (Nat × ℤ × ℤ × ℤ)) : Safe (domResults s c d res) ↔ Safe s := by simp [domResults]
@[simp] theorem safe_domSettle (hs : Safe s) (c d : Nat) (res : List (Nat × ℤ × ℤ × ℤ)) :
    Safe (domSettle s c d res) := by
  have ht : Safe ((List.range 16).foldl (fun s k => tapCount s c d k) (domResults s c d res)) := by
    refine safe_foldl (fun s k h => ?_) _ (by simp [hs])
    exact safe_tapCount h c d k
  simp only [domSettle]
  generalize (List.range 16).foldl (fun s k => tapCount s c d k) (domResults s c d res) = s' at ht ⊢
  split <;> simp [ht]
@[simp] theorem safe_domQuiet (hs : Safe s) (c d : Nat) : Safe (domQuiet s c d) := by
  simp only [domQuiet, safe_modDda]
  refine safe_foldl (fun s e h => ?_) _ ?_
  · exact safe_tapEnd h c e.1 true
  · split <;> simp [hs]
@[simp] theorem safe_domAnswer (hs : Safe s) (c d : Nat) : Safe (domAnswer s c d) := by
  simp only [domAnswer]
  split <;> simp [hs]
@[simp] theorem safe_domApply (hs : Safe s) (c t : Nat) (x : DomStep) : Safe (domApply s c t x) := by
  have hf : Safe ((domFeeds (s.core c).dda x.d).foldl (fun s ch => feedTake s c ch) s) := by
    refine safe_foldl (fun s ch h => ?_) _ hs
    exact safe_feedTake h c ch
  simp only [domApply]
  generalize (domFeeds (s.core c).dda x.d).foldl (fun s ch => feedTake s c ch) s = s' at hf ⊢
  split
  · refine safe_domSettle ?_ ..
    simpa using hf
  · simpa using hf
@[simp] theorem safe_domFails (c t d : Nat) (f : Nat × Nat × Bool) : Safe (domFails s c t d f) ↔ Safe s := by simp [domFails]
@[simp] theorem safe_ddaCclk (hs : Safe s) (c t : Nat) : Safe (ddaCclk s c t) := by
  simp only [ddaCclk]
  refine safe_foldl (fun s e h => ?_) _ ?_
  · split <;> simp [h]
  · rw [safe_modDda]
    refine safe_foldl (fun s d h => ?_) _ hs
    rw [safe_modDda]
    refine safe_foldl (fun s ch h => ?_) _ h
    split
    · exact (safe_awake _).mpr h
    · exact h
@[simp] theorem safe_linkArrive (c t : Nat) : Safe (linkArrive s c t) ↔ Safe s := by simp [linkArrive]

end Sys2Proof.Safety
end

section
/-! PROOFS. Memory stays in canonical form: engines and sections, tokens, traps, and the execution of one word. -/

namespace Sys2Proof.Safety

open Sys2Proof.Machine

variable {s : State}

/-! ## Engine queues; sections -/

@[simp] theorem safe_enqCmd (hs : Safe s) (c : Nat) (e : Eng) (cmd : EngCmd) : Safe (enqCmd s c e cmd) := by simp [enqCmd, hs]
@[simp] theorem safe_secKill (hs : Safe s) (c : Nat) (x : Section) : Safe (secKill s c x).1 := by
  have hq : Safe ((secDoms (s.core c) x.ser).foldl (fun s d => domQuiet s c d.1) s) := by
    refine safe_foldl (fun s d h => ?_) _ hs
    exact safe_domQuiet h ..
  simp only [secKill]
  generalize (secDoms (s.core c) x.ser).foldl (fun s d => domQuiet s c d.1) s = s' at hq ⊢
  split
  · simpa using hq
  · split <;> simp [hq]
@[simp] theorem safe_ckptPage (hs : Safe s) (c : Nat) (write : Bool) (va : Nat) : Safe (ckptPage c write s va) := by
  have hx := (safe_xlateAt (corePart s c) va true).mpr hs
  unfold ckptPage
  split
  case h_1 he =>
    have hl := safe_of_eq_mk he hx
    simp only
    split <;> simp [hl, poisonRange_wf]
  case h_2 he => exact safe_of_eq_mk he hx
@[simp] theorem safe_secCkpt (hs : Safe s) (c : Nat) (x : Section) (r : Nat) : Safe (secCkpt s c x r) := by
  simp only [secCkpt, safe_setCore]
  refine safe_foldl (fun s va h => ?_) _ ?_
  · exact safe_ckptPage h ..
  · have ha : Safe ((secDoms (s.core c) x.ser).foldl (fun s d => domAnswer s c d.1) s) := by
      refine safe_foldl (fun s d h => ?_) _ hs
      exact safe_domAnswer h ..
    split
    · rw [safe_foldl_iff fun _ _ => safe_send .., safe_flushStops]
      exact ha
    · exact (safe_flushStops _).mpr ha
@[simp] theorem safe_secSave (hs : Safe s) (c : Nat) (x : Section) (r : Nat) : Safe (secSave s c x r) := by
  simp only [secSave]
  split <;> simp [hs]
@[simp] theorem safe_settleCkpts (hs : Safe s) (c : Nat) : Safe (settleCkpts s c) := by
  refine safe_foldl (fun s x h => ?_) _ hs
  split
  · simp [h]
  · exact h
@[simp] theorem safe_ckptFree (hs : Safe s) (c : Nat) : Safe (ckptFree s c).1 := by
  simp only [ckptFree]
  split
  · exact hs
  · split
    · exact hs
    · generalize hx : List.foldl _ (s, none) _ = x
      have hsx : Safe x.1 := by
        rw [← hx]
        refine safe_foldl_fst (fun a va h => ?_) _ hs
        split
        · exact h
        · split
          case h_1 he => exact safe_of_eq_mk he ((safe_xlateAt ..).mpr h)
          case h_2 he => exact safe_of_eq_mk he ((safe_xlateAt ..).mpr h)
      split
      · exact hsx
      · split <;> simpa using hsx
@[simp] theorem safe_secDrain (c : Nat) (x : Section) (cls : Nat) : Safe (secDrain s c x cls) ↔ Safe s := by simp [secDrain]
@[simp] theorem safe_secDecide (hs : Safe s) (c : Nat) (x : Section) (cls : Nat) : Safe (secDecide s c x cls).1 := by
  have hf := safe_ckptFree hs c
  simp only [secDecide]
  split_ifs
  · simpa using hs
  · exact safe_secKill hs ..
  · split
    case h_1 he => exact safe_secSave (safe_of_eq_mk he hf) ..
    case h_2 he => exact (safe_secDrain ..).mpr (safe_of_eq_mk he hf)
@[simp] theorem safe_decideFor (hs : Safe s) (c : Nat) (r : TRec) : Safe (decideFor s c r).1 := by
  unfold decideFor
  split
  · exact hs
  · refine safe_foldl_fst (fun a x h => ?_) _ hs
    split
    · exact safe_secDecide h ..
    · exact h
@[simp] theorem safe_preemptAll (hs : Safe s) (n c : Nat) (l : List TRec) : Safe (preemptAll n s c l) := by
  induction n generalizing s l with
  | zero => exact hs
  | succ n ih =>
    cases l with
    | nil => exact hs
    | cons r l => exact ih (safe_decideFor hs c r) _
@[simp] theorem safe_preempt (hs : Safe s) (c : Nat) (r : TRec) : Safe (preempt s c r) := by simp [preempt, hs]
@[simp] theorem safe_returnRec (hs : Safe s) (c : Nat) (r : TRec) : Safe (returnRec s c r) := by simp [returnRec, hs]
@[simp] theorem safe_appendRec (hs : Safe s) (c : Nat) (r : TRec) : Safe (appendRec s c r) := by simp [appendRec, hs]
@[simp] theorem safe_secStart (c : Nat) (sec : Option Nat) : Safe (secStart s c sec) ↔ Safe s := by
  unfold secStart
  split <;> simp

/-! ## The trace ring (R449, R450) -/

@[simp] theorem safe_traceGo (hs : Safe s) (d n : Nat) : Safe (traceGo s d n) := by
  induction n generalizing s with
  | zero => exact hs
  | succ n ih =>
    unfold traceGo
    split
    · exact hs
    · split
      case h_1 hr => exact ih (by simp [safe_kvRoute hs hr])
      · exact safe_kvHold hs ..
      · exact hs
@[simp] theorem safe_tracePut (hs : Safe s) (d w0 w1 : Nat) : Safe (tracePut s d w0 w1) := by
  simp only [tracePut]
  split
  · simpa using hs
  · split
    case h_1 he => simpa using safe_of_eq_mk he ((safe_xlateAt ..).mpr hs)
    case h_2 he => exact safe_traceGo (by simpa using safe_of_eq_mk he ((safe_xlateAt ..).mpr hs)) ..
@[simp] theorem safe_traceAbs (hs : Safe s) (d cause : Nat) : Safe (traceAbs s d cause) := by simp [traceAbs, hs]
@[simp] theorem safe_traceLost (hs : Safe s) (d : Nat) : Safe (traceLost s d) := by simp [traceLost, hs]
@[simp] theorem safe_traceRec (hs : Safe s) (d core kind a b : Nat) : Safe (traceRec s d core kind a b) := by
  simp only [traceRec]
  split
  · exact hs
  · split
    · exact (safe_modDie ..).mpr hs
    · generalize hl : (if (s.die d).trace.lost = 0 then s else traceLost s d) = s'
      have hs' : Safe s' := by
        rw [← hl]
        split
        · exact hs
        · exact safe_traceLost hs d
      rw [safe_modDie]
      refine safe_tracePut ?_ ..
      split
      · exact safe_traceAbs hs' ..
      · split
        · exact safe_traceAbs hs' ..
        · exact hs'

/-! ## Readiness; tokens -/

@[simp] theorem safe_makeReady (hs : Safe s) (fp : Nat) : Safe (makeReady s fp) := by simp [makeReady, hs]
@[simp] theorem safe_checkReady (hs : Safe s) (fp : Nat) : Safe (checkReady s fp) := by simp [checkReady, hs]
@[simp] theorem safe_deliver (hs : Safe s) (t : Token) : Safe (deliver s t) := by
  simp only [deliver]
  split
  · split <;> simp [hs]
  · split
    · simp [hs]
    · split
      · exact safe_checkReady (safe_recount (setSlot_safe hs _) _) _
      · exact safe_tbufAdd hs ..
@[simp] theorem safe_refillSlot (hs : Safe s) (fp n : Nat) : Safe (refillSlot s fp n) := by
  simp only [refillSlot]
  repeat' split
  all_goals simp [hs]
@[simp] theorem safe_refillFrame (hs : Safe s) (fp : Nat) : Safe (refillFrame s fp) := by
  refine safe_recount (safe_foldl (fun s n h => ?_) _ hs) _
  exact safe_refillSlot h ..
@[simp] theorem safe_wakeFrame (hs : Safe s) (fp : Nat) : Safe (wakeFrame s fp) := by simp [wakeFrame, hs]
@[simp] theorem safe_activate (hs : Safe s) (fp task cls parent : Nat) : Safe (activate s fp task cls parent) := by
  simp only [activate]
  split <;> simp [hs]

/-! ## Between two acts -/

@[simp] theorem safe_lateAnswers (hs : Safe s) (c : Nat) : Safe (lateAnswers s c) := by
  refine safe_foldl (fun s b h => ?_) _ ?_
  · split <;> simpa using h
  · split <;> simpa using hs
@[simp] theorem safe_settleSpills (hs : Safe s) (c : Nat) : Safe (settleSpills s c) :=
  safe_lateAnswers (safe_waitersBack (safe_tbufIn (safe_tbufBack (safe_devGo hs ..) ..) ..) ..) _
@[simp] theorem safe_settleCore (hs : Safe s) (c : Nat) : Safe (settleCore s c) := by
  unfold settleCore
  extract_lets s1 s2 co2 s3 s4 s5 s6 co6 s7 s8 co8 s9 co9 s10
  have h1 : Safe s1 := safe_settleSpills hs c
  have h2 : Safe s2 := by
    refine safe_foldl (fun s fp h => ?_) _ h1
    exact safe_checkReady (safe_refillFrame h fp) fp
  have h3 : Safe s3 := by
    simp only [s3]
    split
    · exact safe_foldl (fun _ fp h => safe_makeReady h fp) _ ((safe_setCore ..).mpr h2)
    · exact h2
  have h4 : Safe s4 := safe_ringRefill h3 c Config.queueMax
  have h5 : Safe s5 := (safe_modCore s4 c _).mpr h4
  have h6 : Safe s6 := by
    simp only [s6]
    split
    · exact safe_settleCkpts h5 c
    · exact h5
  have h8 : Safe s8 := by
    simp only [s8, s7]
    rw [safe_foldl_iff]
    · simp [h6]
    · intro s x
      split_ifs <;> simp
  have h9 : Safe s9 := by simpa [s9] using h8
  split
  · exact safe_dieEvent ((safe_setCore ..).mpr h9) ..
  · exact h9
@[simp] theorem safe_settleDie (d : Nat) : Safe (settleDie s d) ↔ Safe s := by simp [settleDie]
@[simp] theorem safe_settleGates (c : Nat) : Safe (settleGates s c) ↔ Safe s := by simp [settleGates]
@[simp] theorem safe_settle (hs : Safe s) : Safe (settle s) := by
  refine (safe_foldl_iff (fun _ _ => safe_settleDie ..) _ _).mpr (safe_foldl (fun s c h => ?_) _ hs)
  exact (safe_settleGates _).mpr (safe_settleCore h c)

/-! ## Block slots; ends of a firing without a commit; taking a trap -/

@[simp] theorem safe_setFiring (c k : Nat) (o : Option Firing) : Safe (setFiring s c k o) ↔ Safe s := by simp [setFiring]
@[simp] theorem safe_dropReserved (f : Firing) : Safe (dropReserved s f) ↔ Safe s := by simp [dropReserved]
@[simp] theorem safe_undo (c k : Nat) (f : Firing) : Safe (undo s c k f) ↔ Safe s := by simp [undo]
@[simp] theorem safe_lateFree (hs : Safe s) (fp : Nat) : Safe (lateFree s fp) := by simp [lateFree, hs]
@[simp] theorem safe_trapLogged (hs : Safe s) (c kind w3 : Nat) (words : List (BitVec 64)) : Safe (trapLogged s c kind w3 words) := by
  simp [trapLogged, hs]
@[simp] theorem safe_routeTrap (hs : Safe s) (c cause cls : Nat) (inHandler : Bool) (words : List (BitVec 64)) :
    Safe (routeTrap s c cause cls inHandler words) := by
  simp [routeTrap, hs]
@[simp] theorem safe_takeTrap (hs : Safe s) (c k : Nat) (t : Trap) : Safe (takeTrap s c k t) := by
  simp only [takeTrap]
  split
  · exact hs
  case h_2 f _ =>
    have hf : Safe (setFrameState (undo s c k f) f.fp stTrapped) := safe_setFrameState ((safe_undo ..).mpr hs) ..
    exact safe_lateFree (safe_routeTrap (safe_traceRec (by simp [hf]) ..) ..) _
@[simp] theorem safe_parkFiring (hs : Safe s) (c k : Nat) (key : Option Nat) : Safe (parkFiring s c k key) := by
  simp only [parkFiring]
  split <;> simp [hs]

/-! ## The return from a trap (R214) -/

@[simp] theorem safe_consumeSlots (hs : Safe s) (fp : Nat) (slots : List Nat) : Safe (consumeSlots s fp slots) := by
  unfold consumeSlots
  exact safe_foldl (fun s a h => by simp [h]) _ hs
@[simp] theorem safe_step8 (hs : Safe s) (fp : Nat) : Safe (step8 s fp) := by simp [step8, hs]
@[simp] theorem safe_trapRerun (hs : Safe s) (c fp : Nat) : Safe (trapRerun s c fp) := by simp [trapRerun, hs]
@[simp] theorem safe_trapResume (hs : Safe s) (c fp : Nat) : Safe (trapResume s c fp) := by
  simp only [trapResume]
  split
  · exact safe_step8 (safe_setFrameState (safe_consumeSlots hs ..) ..) _
  · simp [hs]
@[simp] theorem safe_trapFree (hs : Safe s) (c fp : Nat) : Safe (trapFree s c fp) := by simp [trapFree, hs]

/-! ## Execution of one instruction of a firing -/

@[simp] theorem safe_deliverFrom (c k n : Nat) (f : Firing) (tgts : List Target) (v : Option Val) : Safe (deliverFrom s c k n f tgts v) ↔ Safe s := by
  simp [deliverFrom]
@[simp] theorem safe_trapDouble (hs : Safe s) (c k : Nat) : Safe (trapDouble s c k) := by
  simp only [trapDouble]
  repeat' split
  all_goals simp [hs]
@[simp] theorem safe_applyOut (c k n : Nat) (f : Firing) (i : Instr) (o : FOut) : Safe (applyOut s c k n f i o) ↔ Safe s := by
  simp only [applyOut]
  split <;> simp
@[simp] theorem safe_fire (hs : Safe s) (c k n : Nat) (f : Firing) (i : Instr) (body : State → Nat → Firing → Nat → List Val → FRes) :
    Safe (fire s c k n f i body) := by
  simp only [fire]
  repeat' split
  all_goals simp [hs]
@[simp] theorem outSafe_fireWord (hs : Safe s) (i : Instr) (body : State → Nat → Firing → Nat → List Val → FRes) : OutSafe (fireWord s i body) := by
  simp only [fireWord]
  repeat' split
  all_goals simp [hs]

end Sys2Proof.Safety
end

section
/-! PROOFS. Memory stays in canonical form: accesses at their home, and the copy engine. -/

namespace Sys2Proof.Safety

open Sys2Proof.Machine

variable {s : State}

/-! ## Die registers; gated banks; reads and writes of a place -/

@[simp] theorem safe_dieRegClear (d n : Nat) : Safe (dieRegClear s d n) ↔ Safe s := by simp [dieRegClear]
@[simp] theorem safe_dieReject (d : Nat) : Safe (dieReject s d) ↔ Safe s := by simp [dieReject]
@[simp] theorem safe_dieRegWrite (d n : Nat) (v : BitVec 64) : Safe (dieRegWrite s d n v) ↔ Safe s := by simp [dieRegWrite]
@[simp] theorem safe_holdAtBank (a : Access) : Safe (holdAtBank s a) ↔ Safe s := by
  unfold holdAtBank
  split <;> simp
@[simp] theorem safe_locRead (c : Nat) (loc : Loc) (n tick rc : Nat) : Safe (locRead s c loc n tick rc).1 ↔ Safe s := by
  simp only [locRead]
  repeat' split
  all_goals simp
@[simp] theorem safe_locWrite (hs : Safe s) (c : Nat) (loc : Loc) (n : Nat) (v : Val) : Safe (locWrite s c loc n v) := by
  simp only [locWrite]
  repeat' split
  all_goals simp [hs, memPut_wf, setTags_wf]
@[simp] theorem safe_writeFull (hs : Safe s) (key : Nat) (v : Val) : Safe (writeFull s key v) := by simp [writeFull, hs, putWord_wf]
@[simp] theorem safe_setFull (hs : Safe s) (key : Nat) : Safe (setFull s key) := by simp [setFull, hs, setTags_wf]

/-! ## Atomics; the operation of an access at its home -/

@[simp] theorem safe_amoAt (hs : Safe s) (c : Nat) (loc : Loc) (op : Nat) (w32 nat : Bool) (b cv : Val) : Safe (amoAt s c loc op w32 nat b cv).1 := by
  simp only [amoAt]
  split <;> simp [hs, memPut_wf, setTags_wf, setPoison_wf]
@[simp] theorem safe_answer (a : Access) (ans : LoadAns) : Safe (answer s a ans) ↔ Safe s := by simp [answer]
@[simp] theorem safe_result (a : Access) (v : Val) : Safe (result s a v) ↔ Safe s := by
  unfold result
  split <;> simp
@[simp] theorem safe_registerWaiter (hs : Safe s) (key fp : Nat) (take : Bool) : Safe (registerWaiter s key fp take) := by simp [registerWaiter, hs]
@[simp] theorem safe_perform (hs : Safe s) (a : Access) : Safe (perform s a) := by
  simp only [perform]
  repeat' split
  all_goals simp [hs, setTags_wf]
@[simp] theorem safe_homeAccess (hs : Safe s) (a : Access) : Safe (homeAccess s a) := by
  unfold homeAccess
  split
  · split <;> simp [hs]
  · split
    case h_1 hr => exact safe_perform (safe_kvRoute hs hr) _
    · split
      · exact hs
      · split
        · split <;> simp [hs]
        · simp [hs]
@[simp] theorem safe_takeHome (hs : Safe s) (t : TakeReq) : Safe (takeHome s t) := by simp [takeHome, hs, setTags_wf]

/-! ## Combined groups (R350 to R352) -/

@[simp] theorem safe_groupHome (hs : Safe s) (g : Machine.Group) : Safe (groupHome s g) := by
  have hall {t : State} (ht : Safe t) : Safe (g.foldl homeAccess t) := safe_foldl (fun _ a h => safe_homeAccess h a) _ ht
  unfold groupHome
  split
  · exact hs
  · split
    · split
      · simp only
        split
        · exact hall hs
        case h_2 hr =>
          have ht := safe_kvRoute ((safe_awake _).mpr (by simpa using hs)) hr
          split
          · simp [ht]
          · simp [ht]
      · exact hall (by simp [hs])
    · exact hs

/-! ## Reads; writes -/

@[simp] theorem safe_rcClear (c n : Nat) (v : BitVec 64) : Safe (rcClear s c n v) ↔ Safe s := by simp [rcClear]
@[simp] theorem safe_writeTqBase (c : Nat) (v : BitVec 64) : Safe (writeTqBase s c v) ↔ Safe s := by simp [writeTqBase]
@[simp] theorem safe_applyTqBase (c : Nat) : Safe (applyTqBase s c) ↔ Safe s := by
  unfold applyTqBase
  split <;> simp
@[simp] theorem safe_writeEvsel (c : Nat) (v : BitVec 64) : Safe (writeEvsel s c v) ↔ Safe s := by simp [writeEvsel]
@[simp] theorem safe_coreRegWrite (hs : Safe s) (c n : Nat) (v : BitVec 64) : Safe (coreRegWrite s c n v) := by
  simp only [coreRegWrite]
  repeat' split
  all_goals simp [hs]

/-! ## Memory-side addresses (R279, R288) -/

@[simp] theorem safe_slotGo (hs : Safe s) (loc : Loc) (write : Bool) : Safe (slotGo s loc write).1 := by
  unfold slotGo
  split
  case h_1 hr => exact safe_kvMap hs hr
  · exact hs
@[simp] theorem safe_readPiece (hs : Safe s) (c : Nat) (cnt : Bool) (p : Piece) : Safe (readPiece s c cnt p).1 := by
  simp only [readPiece]
  split <;> simp [hs]
@[simp] theorem safe_readPieces (hs : Safe s) (c : Nat) (sec : Option Nat) (l : List Piece) : Safe (readPieces s c sec l).1 := by
  induction l generalizing s sec with
  | nil => exact hs
  | cons p l ih => exact ih (safe_readPiece hs ..) _
@[simp] theorem safe_writePiece (hs : Safe s) (c : Nat) (full : Bool) (p : Piece) (v : Nat) (x : Bool) : Safe (writePiece s c full p v x) := by
  have hg := safe_slotGo (s := noteTlb (awake s p.loc.key) c p.tlb) (by simp [hs]) p.loc true
  simp only [writePiece]
  generalize slotGo (noteTlb (awake s p.loc.key) c p.tlb) p.loc true = g at hg ⊢
  split
  · exact safe_locWrite hg ..
  · exact (safe_llcCoreWrite ..).mpr (safe_physWrite hg ..)
  · split
    · exact safe_writeFull hg ..
    · have hm := setTags_wf (memPut_wf hg g.2.key v p.n) g.2.key
      split
      · exact safe_setFull (by simpa using hm _ _) _
      · exact hm ..
@[simp] theorem safe_writePieces (hs : Safe s) (c : Nat) (full : Bool) (bs : List Nat) (x poison : Bool) (l : List Piece) :
    Safe (writePieces s c full bs x poison l) := by
  induction l generalizing s bs with
  | nil => exact hs
  | cons p l ih => exact ih (safe_writePiece hs ..) _

/-! ## A step of each work command -/

theorem safe_streamAhead {issue : State → Nat → Except CStop (State × List EByte × List Piece)}
    (hi : ∀ s u, Safe s → Kept Prod.fst (issue s u)) (next n : Nat) {a : State × List (List EByte × List Piece)} (ha : Safe a.1) :
    Safe (streamAhead issue next n a).1 := by
  induction n generalizing a with
  | zero => exact ha
  | succ n ih =>
    have h := hi a.1 (next + a.2.length) ha
    rw [streamAhead]
    split
    case h_1 he => rw [he] at h; exact ih h
    case h_2 => exact ha
@[simp] theorem safe_streamPut (hs : Safe s) (c : Nat) (full : Bool) (u : List EByte × List Piece) : Safe (streamPut s c full u).1 :=
  safe_writePieces hs ..
@[simp] theorem safe_clearShared (hs : Safe s) (r : CpyRun) (off len : Nat) (ps : List Piece) : Safe (clearShared s r off len ps) := by
  refine safe_foldl (fun s p h => ?_) _ hs
  split
  · exact h
  · split
    · exact setTags_wf h ..
    · exact h

/-! ## A stream -/

@[simp] theorem safe_setStream (c k : Nat) (x : Machine.Stream) : Safe (setStream s c k x) ↔ Safe s := by simp [setStream]
@[simp] theorem safe_cpyBad (c k : Nat) (r : Released) (reason data : Nat) : Safe (cpyBad s c k r reason data) ↔ Safe s := by simp [cpyBad]
@[simp] theorem safe_cpyPause (c k : Nat) (r : CpyRun) (reason : Nat) (side : Bool) (va : Nat) : Safe (cpyPause s c k r reason side va) ↔ Safe s := by
  simp [cpyPause]
theorem kept_streamIssue (hs : Safe s) (r : CpyRun) (sync : Bool) (sps spd : Space) (esz u : Nat) :
    Kept Prod.fst (streamIssue s r sync sps spd esz u) := by
  refine kept_bind _ fun src => kept_bind _ fun dst => ?_
  split
  · trivial
  · exact kept_bind _ fun _ => safe_readPieces hs ..
theorem kept_streamStep (hs : Safe s) (r : CpyRun) (sync full : Bool) (sps spd : Space) (esz : Nat) :
    Kept CDone.s (streamStep s r sync full sps spd esz) := by
  have hi (s : State) (u : Nat) (h : Safe s) := kept_streamIssue h r sync sps spd esz u
  unfold streamStep
  extract_lets c issue b put
  have hput (x : State × List (List EByte × List Piece)) (hx : Safe x.1) : Kept CDone.s (put x) := by
    have ha (n m : Nat) : Safe (if n = 0 then (x.1, x.2) else streamAhead issue r.step m ({ x.1 with draws := x.1.draws + 1 }, x.2)).1 := by
      split
      · exact hx
      · exact safe_streamAhead hi _ _ hx
    simp only [put]
    generalize hy : @ite (State × List (List EByte × List Piece)) (_ = 0) (instDecidableEqNat _ 0) _ _ = y
    have hsy : Safe y.1 := by
      rw [← hy]
      exact ha ..
    split
    · exact hsy
    · split <;> split
      all_goals
        refine kept_bind _ fun dst => kept_bind _ fun _ => ?_
        exact safe_streamPut (by simpa using hsy) ..
  split
  · exact kept_bind_of (kept_map (st' := Prod.fst) (f := fun x => (x.1, [x.2])) (hi s r.step hs) fun _ => rfl) hput
  · exact hput (s, _) hs
theorem kept_planesStep (hs : Safe s) (r : CpyRun) (sync full : Bool) (spm : Space) (dir mat : Bool) (ws wd low : BitVec 4) (code : BitVec 2)
    (g expadj : Bool) : Kept CDone.s (planesStep s r sync full spm dir mat ws wd low code g expadj) := by
  refine kept_bind _ fun s1 => ?_
  extract_lets keys n words bs w copy
  have hcopy (s2 : List Piece) : Kept CDone.s (copy s2) := by
    simp only [copy]
    split
    · split
      · trivial
      · exact kept_bind _ fun _ => safe_clearShared (safe_writePieces hs ..) ..
    · split
      · trivial
      · refine kept_bind _ fun _ => ?_
        simp only [kept_ok, safe_setAstat]
        exact safe_foldl (fun _ _ h => safe_planeWrite h ..) _ (safe_readPieces hs ..)
  split
  · exact hcopy _
  · exact kept_bind _ hcopy
theorem kept_convIn (hs : Safe s) (r : CpyRun) (sync : Bool) (spm : Space) (fmt : Nat) (code : BitVec 2) (g : Bool) (lay : Nat) :
    Kept CDone.s (convIn s r sync spm fmt code g lay) := by
  refine kept_bind _ fun ps => ?_
  split
  · trivial
  · refine kept_bind _ fun _ => ?_
    simp only [kept_ok, safe_setAstat]
    split
    · exact safe_PSet_putExps (safe_PSet_put (safe_readPieces hs ..) ..) ..
    · exact safe_PSet_put (safe_readPieces hs ..) ..
theorem kept_convOut (hs : Safe s) (r : CpyRun) (full : Bool) (spm : Space) (fmt : Nat) (code : BitVec 2) (sat : Bool) (lay : Nat) :
    Kept CDone.s (convOut s r full spm fmt code sat lay) := by
  unfold convOut
  generalize fmtUnit fmt = u
  refine kept_bind _ fun ps => ?_
  extract_lets pos read one
  split
  · trivial
  · refine kept_bind _ fun _ => ?_
    refine foldl_induct (p := fun d : CDone => Safe d.s) (fun d e h => ?_) _ hs
    simp [one, h]
theorem kept_cpyStep (hs : Safe s) (r : CpyRun) : Kept CDone.s (cpyStep s r) := by
  unfold cpyStep
  split
  · exact kept_streamStep hs ..
  · exact kept_planesStep hs ..
  · split
    · exact kept_convOut hs ..
    · exact kept_convIn hs ..
  · exact hs
@[simp] theorem safe_cpyRunStep (hs : Safe s) (c k : Nat) (r : CpyRun) : Safe (cpyRunStep s c k r) := by
  have hd := kept_cpyStep hs r
  simp only [cpyRunStep]
  split
  · simp [hs]
  · simp [hs]
  · simp [hs]
  · simp [hs]
  case h_5 he =>
    rw [he] at hd
    split <;> split <;> simpa using hd
@[simp] theorem safe_streamLand (hs : Safe s) (c k : Nat) : Safe (streamLand s c k) := by
  simp only [streamLand]
  split
  · exact hs
  · generalize hx : List.foldl _ (s, _) _ = x
    have hsx : Safe x.1 := by
      rw [← hx]
      exact safe_foldl_fst (fun a u h => by simp [h]) _ hs
    split
    · exact hsx
    · split <;> simp [hsx]
@[simp] theorem safe_cpyStart (c k : Nat) (r : CpyRun) : Safe (cpyStart s c k r) ↔ Safe s := by
  simp only [cpyStart]
  split <;> simp
@[simp] theorem safe_cpyGo (hs : Safe s) (c k : Nat) (r : CpyRun) : Safe (cpyGo s c k r) := by simp [cpyGo, hs]

/-! ## Stream images; control commands -/

@[simp] theorem safe_cpyLoad (c k : Nat) (r : Released) : Safe (cpyLoad s c k r) ↔ Safe s := by
  simp only [cpyLoad]
  repeat' split
  all_goals simp
@[simp] theorem safe_cpyCancel (c k : Nat) (all : Bool) (by_ : Released) : Safe (cpyCancel s c k all by_) ↔ Safe s := by
  simp only [cpyCancel]
  repeat' split
  all_goals simp
@[simp] theorem safe_cpyAct (hs : Safe s) (c : Nat) (r : Released) : Safe (cpyAct s c r) := by
  simp only [cpyAct]
  repeat' split
  all_goals simp [hs]
@[simp] theorem safe_cpyControl (hs : Safe s) (c : Nat) (r : Released) : Safe (cpyControl s c r) := by
  simp only [cpyControl]
  split <;> simp [hs]
@[simp] theorem safe_cpyParked (hs : Safe s) (c k : Nat) : Safe (cpyParked s c k) := by
  simp only [cpyParked]
  split <;> simp [hs]

/-! ## Start -/

@[simp] theorem safe_doubleFault (hs : Safe s) (c fp pos code : Nat) : Safe (doubleFault s c fp pos code) := by simp [doubleFault, hs]
@[simp] theorem safe_startFiring (hs : Safe s) (c k fp arr : Nat) : Safe (startFiring s c k fp arr) := by
  simp only [startFiring]
  generalize hx : List.foldl _ s _ = x
  have hsx : Safe x := by
    rw [← hx]
    exact safe_foldl (fun _ _ h => safe_lastingRec h ..) _ hs
  split
  · exact safe_doubleFault hsx ..
  · split
    · simp [hsx]
    · split <;> simp [hsx]

end Sys2Proof.Safety
end

section
/-! PROOFS. Memory stays in canonical form: commit, the end of a firing and barriers. -/

namespace Sys2Proof.Safety

open Sys2Proof.Machine

variable {s : State}

/-! ## Completion; step 3 -/

@[simp] theorem safe_complete (hs : Safe s) (c k : Nat) (f : Firing) : Safe (complete s c k f) := by
  simp only [complete]
  split <;> simp [hs]
@[simp] theorem safe_hintDrop (c : Nat) : Safe (hintDrop s c) ↔ Safe s := by simp [hintDrop]
@[simp] theorem safe_issuePref (a : Access) : Safe (issuePref s a) ↔ Safe s := by
  simp only [issuePref]
  repeat' split
  all_goals simp
@[simp] theorem safe_issueMem (hs : Safe s) (a : Access) : Safe (issueMem s a) := by
  simp only [issueMem]
  split <;> simp [hs]
@[simp] theorem safe_step3 (hs : Safe s) (c ser : Nat) (l : List Out) : Safe (step3 s c ser l).1 := by
  induction l generalizing s with
  | nil => exact hs
  | cons o l ih =>
    unfold step3
    split
    · exact hs
    case h_2 he => cases he; exact ih (safe_issueMem hs _)
    case h_3 he =>
      cases he
      split
      · exact ih hs
      · exact hs
    case h_4 =>
      rename_i he
      cases he
      exact ih hs

/-! ## Step 4 -/

@[simp] theorem safe_ownToken (hs : Safe s) (c : Nat) (t : Token) : Safe (ownToken s c t) := by simp [ownToken, hs]
@[simp] theorem safe_commitToken (hs : Safe s) (c : Nat) (t : Token) : Safe (commitToken s c t) := by simp [commitToken, hs]
@[simp] theorem safe_freeAtCore (hs : Safe s) (fp : Nat) : Safe (freeAtCore s fp) := by simp [freeAtCore, hs]
@[simp] theorem safe_commitFree (hs : Safe s) (c : Nat) (r : Released) : Safe (commitFree s c r) := by simp [commitFree, hs]
@[simp] theorem safe_releaseOne (hs : Safe s) (c : Nat) (f : Firing) (r : Released) : Safe (releaseOne s c f r) := by
  simp only [releaseOne]
  repeat' split
  all_goals simp [hs]
@[simp] theorem safe_step4One (hs : Safe s) (c : Nat) (f : Firing) (sec : Option Nat) (o : Out) : Safe (step4One s c f sec o) := by
  simp only [step4One]
  split <;> simp [hs]

/-! ## Steps 5 to 8 -/

@[simp] theorem safe_fillSlot {a : State × List Nat} (ha : Safe a.1) (fp : Nat) (consume : List Nat) (n : Nat) (v : Val) :
    Safe (fillSlot fp consume a n v).1 := by
  simp only [fillSlot]
  split
  · exact setSlot_safe ha v
  · exact safe_ownToken ha ..
@[simp] theorem safe_step5 (hs : Safe s) (f : Firing) : Safe (step5 s f).1 := by
  refine safe_foldl_fst (fun st e h => safe_fillSlot h ..) _ ?_
  refine foldl_induct (p := fun x : (State × List Nat) × Nat => Safe x.1.1) (fun a w h => ?_) _ hs
  simp only
  split
  · split
    · exact setSlot_safe h _
    · exact safe_fillSlot h ..
  · exact h
@[simp] theorem safe_exitFrame (hs : Safe s) (fp : Nat) (e : Instr) : Safe (exitFrame s fp e) := by
  refine safe_setFrameState ?_ ..
  split
  · exact bumpLoop_safe hs
  · refine setHdr_safe (setHdr_safe ?_ _) _
    split
    · exact bumpLoop_safe hs
    · exact setHdr_safe hs _
  · exact hs
@[simp] theorem safe_steps678 (hs : Safe s) (c : Nat) (k : Option Nat) (fp arr : Nat) (con : List Nat) (e : Instr) (halts : Bool) :
    Safe (steps678 s c k fp arr con e halts) := by
  unfold steps678
  extract_lets s1 s2 s3
  have h1 : Safe s1 := safe_consumeSlots hs fp con
  have h2 : Safe s2 := by
    simp only [s2]
    split
    · exact safe_freeFrame h1 fp
    · have hr := safe_refillFrame (safe_exitFrame h1 fp e) fp
      generalize refillFrame (exitFrame s1 fp e) fp = r at hr ⊢
      split
      · exact safe_freeDeferred hr fp
      · split
        · exact safe_startFiring ((safe_endReservations _).mpr hr) ..
        · exact safe_checkReady hr fp
  have h3 : Safe s3 := by
    simp only [s3]
    split
    · exact (safe_endReservations _).mpr h2
    · exact h2
  split
  · exact (safe_modCore ..).mpr h3
  · exact h3
@[simp] theorem safe_commitRest (hs : Safe s) (c k : Nat) (f : Firing) (e : Instr) : Safe (commitRest s c k f e) := by
  unfold commitRest
  extract_lets h3 s1 s2 sec n restart halts s3 s4 s5
  have h1 : Safe s1 := safe_traceRec hs ..
  have h2 : Safe s2 := (safe_setAstat ..).mpr h1
  have h3 : Safe s3 := by
    simp only [s3]
    split
    · exact (safe_modCore ..).mpr h2
    · exact h2
  have h4 : Safe s4 := (safe_modCore ..).mpr h3
  have h5 : Safe s5 := by
    refine safe_foldl (fun s o h => ?_) _ h4
    exact safe_step4One h ..
  split
  rename_i s6 written he
  have h6 : Safe s6 := safe_of_eq_mk he (safe_step5 h5 f)
  extract_lets con s7 s8 upd
  have h7 : Safe s7 := (safe_modCore ..).mpr h6
  split
  · simp [s8, h7]
  · exact safe_steps678 h7 ..
@[simp] theorem safe_commitFrom3 (hs : Safe s) (c k : Nat) (f : Firing) (outs : List Out) : Safe (commitFrom3 s c k f outs) := by
  have h3 := safe_step3 hs c f.ser outs
  unfold commitFrom3
  split
  · exact hs
  · split
    case h_1 he => exact safe_commitRest (safe_of_eq_mk he h3) ..
    case h_2 he => exact (safe_setFiring ..).mpr (safe_of_eq_mk he h3)
@[simp] theorem safe_commitStart (hs : Safe s) (c k : Nat) (f : Firing) : Safe (commitStart s c k f) := by
  simp only [commitStart]
  repeat' split
  all_goals simp [hs]

/-! ## A firing that is discarded; sections -/

@[simp] theorem safe_discardAgain (hs : Safe s) (c k : Nat) (f : Firing) : Safe (discardAgain s c k f) := by simp [discardAgain, hs]
@[simp] theorem safe_discardBack (hs : Safe s) (c k : Nat) : Safe (discardBack s c k) := by
  simp only [discardBack]
  split <;> simp [hs]
@[simp] theorem safe_takeDone (hs : Safe s) (t : TakeAns) : Safe (takeDone s t) := by
  simp only [takeDone]
  repeat' split
  all_goals simp [hs]
@[simp] theorem safe_sectionDone (hs : Safe s) (c : Nat) (x : Section) : Safe (sectionDone s c x) := by
  simp only [sectionDone]
  split <;> simp [hs]
@[simp] theorem outSafe_execFfree (hs : Safe s) (pred : Pred) : OutSafe (execFfree pred s) := by
  simp only [execFfree]
  split <;> simp [hs]

/-! ## Where a barrier is held; waiters: entries of the issuing cores' token buffers -/

@[simp] theorem safe_barSet (scope : Scope) (c id : Nat) (b : Barrier) : Safe (barSet s scope c id b) ↔ Safe s := by
  unfold barSet
  split <;> simp
@[simp] theorem safe_barRelease (scope : Scope) (c id : Nat) (pick : Nat → Bool) (v : Val) : Safe (barRelease s scope c id pick v) ↔ Safe s := by
  simp [barRelease]
@[simp] theorem safe_peerCache (p no : Nat) : Safe (peerCache s p no) ↔ Safe s := by simp [peerCache]
@[simp] theorem safe_podLeave (part : Option Nat) (dst : Nat) (p : PodPkt) : Safe (podLeave s part dst p) ↔ Safe s := by
  unfold podLeave
  split <;> simp
@[simp] theorem safe_podSend (part : Option Nat) (dst : Nat) (p : PodPkt) : Safe (podSend s part dst p) ↔ Safe s := by simp [podSend]
@[simp] theorem safe_settlePorts : Safe (settlePorts s) ↔ Safe s := by simp [settlePorts]
@[simp] theorem safe_podWaitDone (tag : Nat) (v : Val) : Safe (podWaitDone s tag v) ↔ Safe s := by simp [podWaitDone]
@[simp] theorem safe_podBarAnswer (id : Nat) (pick : Nat → Bool) (v : Val) : Safe (podBarAnswer s id pick v) ↔ Safe s := by simp [podBarAnswer]
@[simp] theorem safe_barAnswer (scope : Scope) (c id : Nat) (pick : Nat → Bool) (v : Val) : Safe (barAnswer s scope c id pick v) ↔ Safe s := by
  unfold barAnswer
  split <;> simp
@[simp] theorem safe_barAdvance (scope : Scope) (c id : Nat) : Safe (barAdvance s scope c id) ↔ Safe s := by simp [barAdvance]
@[simp] theorem safe_barArriveAt (scope : Scope) (c id : Nat) : Safe (barArriveAt s scope c id).1 ↔ Safe s := by simp [barArriveAt]
@[simp] theorem safe_barCfgAt (scope : Scope) (c id n : Nat) : Safe (barCfgAt s scope c id n) ↔ Safe s := by simp [barCfgAt]
@[simp] theorem safe_markWaits (r : Released) (g : Nat) : Safe (markWaits s r g) ↔ Safe s := by simp [markWaits]

/-! ## Pod barriers: at their home, and on the way there (R476) -/

@[simp] theorem safe_podArrive (hs : Safe s) (part : Option Nat) (src id com fp : Nat) : Safe (podArrive s part src id com fp) := by
  have hb := (safe_barArriveAt .pod 0 id).mpr hs
  unfold podArrive
  split
  case h_1 he => simpa using safe_of_eq_mk he hb
  case h_2 he =>
    have ht := safe_of_eq_mk he hb
    split <;> simp [ht]
@[simp] theorem safe_podWait (part : Option Nat) (src id com tag : Nat) : Safe (podWait s part src id com tag) ↔ Safe s := by simp [podWait]
@[simp] theorem safe_podBar (hs : Safe s) (r : Released) (id : Nat) : Safe (podBar s r id) := by
  simp only [podBar]
  split <;> simp [hs]

end Sys2Proof.Safety
end

section
/-! PROOFS. Memory stays in canonical form: vector and matrix commands. -/

namespace Sys2Proof.Safety

open Sys2Proof.Machine

variable {s : State}

/-! ## Meanings -/

theorem outSafe_execBarArrive (hs : Safe s) (pred : Pred) (scope : Scope) (id : BitVec 6) : OutSafe (execBarArrive pred scope id s) := by
  unfold execBarArrive
  split
  · rw [outSafe_next]
    split
    · simp [hs]
    · have hb (c : Nat) := (safe_barArriveAt scope c id.toNat).mpr hs
      split
      case h_1 he => simpa using safe_of_eq_mk he (hb _)
      case h_2 he => simp [safe_of_eq_mk he (hb _)]
  · exact outSafe_fireWord hs _ _
@[simp] theorem outSafe_execBarWait (hs : Safe s) (pred : Pred) (scope : Scope) (id : BitVec 6) : OutSafe (execBarWait pred scope id s) := by
  simp only [execBarWait]
  repeat' split
  all_goals simp [hs]
@[simp] theorem outSafe_execBarCfg (hs : Safe s) (pred : Pred) (scope : Scope) (id : BitVec 6) : OutSafe (execBarCfg pred scope id s) := by
  simp only [execBarCfg]
  repeat' split
  all_goals simp [hs]

/-! ## A started command -/

@[simp] theorem safe_vecPut (c : Nat) (r : VecRun) (n : Nat) : Safe (vecPut s c r n) ↔ Safe s := by simp [vecPut]
@[simp] theorem safe_vecBegin (c : Nat) (r : Released) : Safe (vecBegin s c r) ↔ Safe s := by simp [vecBegin]

/-- A block of a vector command leaves memory in canonical form. -/
def VecKept : VStep → Prop
  | .wait _ => True
  | .next s _ => Safe s

/-- So do all blocks of a command, and its end. -/
def BlkKept (blk : State → Released → Nat → EngAcc → VStep) : Prop := ∀ s r b a, Safe s → VecKept (blk s r b a)
def FinKept (fin : State → Released → EngAcc → State × Val) : Prop := ∀ s r a, Safe s → Safe (fin s r a).1
theorem safe_vecWork (hs : Safe s) (c : Nat) (r : VecRun) {blk : State → Released → Nat → EngAcc → VStep} (hb : BlkKept blk)
    {fin : State → Released → EngAcc → State × Val} (hf : FinKept fin) : Safe (vecWork s c r blk fin) := by
  have h1 := hb s r.cmd r.blk r.acc hs
  have h2 := hf s r.cmd r.acc hs
  unfold vecWork
  split
  · split
    · simp [hs]
    case h_2 he =>
      rw [he] at h1
      exact (safe_vecPut ..).mpr h1
  · simpa using h2
theorem outSafe_vecExec (hs : Safe s) (i : Instr) (v : VF) {blk : State → Released → Nat → EngAcc → VStep} (hb : BlkKept blk)
    {fin : State → Released → EngAcc → State × Val} (hf : FinKept fin) : OutSafe (vecExec s i v blk fin) := by
  unfold vecExec
  split
  · simp only
    split
    · split
      · exact safe_vecWork hs _ _ hb hf
      · trivial
    · split
      · exact (safe_vecBegin ..).mpr ((safe_setCore ..).mpr hs)
      · trivial
    · trivial
  · exact outSafe_fireWord hs _ _
section
variable {x : XF} {v : VF} {p : Machine.PSet} {r : Released} {b : Nat} {a : EngAcc}
theorem reading_kept {keys : List Nat} {k : Unit → VStep} (hk : VecKept (k ())) : VecKept (reading s keys k) := by
  unfold reading
  split
  · trivial
  · exact hk
theorem wrote_kept (hs : Safe s) (els : List (Nat × El)) (fl : Nat) : VecKept (wrote s p b a els fl) :=
  (safe_setAstat ..).mpr (safe_PSet_put hs ..)
theorem masked_kept {n : Nat} {k : List (Nat × El × Option Bool) → VStep} (hk : ∀ l, VecKept (k l)) : VecKept (masked v s r n b k) := by
  unfold masked
  refine reading_kept ?_
  exact hk _
theorem putAligned_kept (hs : Safe s) (vs : List (Option Num.Fl)) (fl : Nat) : VecKept (putAligned s p b a vs fl) :=
  wrote_kept (safe_PSet_putExps hs ..) ..
theorem eachBlk_kept (v : VF) (grps : List Nat) (f : List El → Option El × Nat) : BlkKept (eachBlk v grps f) := by
  intro s r b a h
  unfold eachBlk
  refine reading_kept ?_
  exact wrote_kept h ..
theorem vcvtBlk_kept (v : VF) : BlkKept (vcvtBlk v) := by
  intro s r b a h
  unfold vcvtBlk
  refine reading_kept ?_
  dsimp only
  split
  · exact putAligned_kept h ..
  · exact wrote_kept h ..
theorem vredBlk_kept (v : VF) : BlkKept (vredBlk v) := by
  intro s r b a h
  unfold vredBlk
  refine masked_kept fun l => ?_
  have hp (c : Prop) [Decidable c] : Safe (if c then setAstat s r.core flPcode else s) := by simp [h]
  dsimp only
  split
  · exact hp _
  · split <;> exact hp _
theorem vscanBlk_kept (v : VF) : BlkKept (vscanBlk v) := by
  intro s r b a h
  unfold vscanBlk
  refine masked_kept fun l => ?_
  dsimp only
  split
  · exact wrote_kept h ..
  · exact wrote_kept h ..
theorem vtopkBlk_kept (v : VF) : BlkKept (vtopkBlk v) := by
  intro s r b a h
  unfold vtopkBlk
  refine masked_kept fun l => ?_
  have hp (c : Prop) [Decidable c] : Safe (if c then setAstat s r.core flPcode else s) := by simp [h]
  exact hp _
theorem vcompactBlk_kept (v : VF) : BlkKept (vcompactBlk v) := by
  intro s r b a h
  unfold vcompactBlk
  refine reading_kept ?_
  exact (safe_setAstat ..).mpr (safe_PSet_putAll h ..)
theorem vexpandBlk_kept (v : VF) : BlkKept (vexpandBlk v) := by
  intro s r b a h
  unfold vexpandBlk
  refine reading_kept (reading_kept ?_)
  exact wrote_kept h ..
theorem vgatherBlk_kept (v : VF) : BlkKept (vgatherBlk v) := by
  intro s r b a h
  unfold vgatherBlk
  refine reading_kept (reading_kept ?_)
  exact wrote_kept h ..
theorem vscatterBlk_kept (v : VF) : BlkKept (vscatterBlk v) := by
  intro s r b a h
  unfold vscatterBlk
  refine reading_kept ?_
  exact (safe_setAstat ..).mpr (safe_PSet_putAll h ..)
theorem vfillBlk_kept (v : VF) : BlkKept (vfillBlk v) := by
  intro s r b a h
  simp only [vfillBlk]
  split
  · exact putAligned_kept h ..
  · exact wrote_kept h ..
theorem vcopyBlk_kept (v : VF) : BlkKept (vcopyBlk v) := by
  intro s r b a h
  unfold vcopyBlk
  refine reading_kept ?_
  refine safe_PSet_putExps (safe_foldl (fun s part h => ?_) _ h) ..
  refine safe_foldl (fun s j h => ?_) _ h
  exact safe_planeWrite h ..
theorem vplaneBlk_kept (v : VF) : BlkKept (vplaneBlk v) := by
  intro s r b a h
  unfold vplaneBlk
  refine reading_kept ?_
  exact wrote_kept (safe_PSet_putExps h ..) ..
theorem vrandBlk_kept (v : VF) : BlkKept (vrandBlk v) := by
  intro s r b a h
  unfold vrandBlk
  exact wrote_kept h ..
theorem vamaxhBlk_kept (v : VF) : BlkKept (vamaxhBlk v) := by
  intro s r b a h
  unfold vamaxhBlk
  refine reading_kept ?_
  exact (safe_setAstat ..).mpr h
theorem t5Blk_kept (v : VF) : BlkKept (t5Blk v) := by
  intro s r b a h
  unfold t5Blk
  generalize t5Slots b = sl
  dsimp only
  split
  · refine reading_kept ?_
    exact wrote_kept h ..
  · refine reading_kept ?_
    exact wrote_kept h ..
theorem errFin_kept : FinKept errFin := fun _ _ _ h => h
theorem vredFin_kept (v : VF) : FinKept (vredFin v) := by
  intro s r a h
  unfold vredFin
  split_ifs <;> simp [h]
theorem vscanFin_kept (v : VF) : FinKept (vscanFin v) := by
  intro s r a h
  unfold vscanFin
  split <;> exact h
theorem vtopkFin_kept (v : VF) : FinKept (vtopkFin v) := fun _ _ _ h => safe_PSet_put h ..
theorem vcompactFin_kept : FinKept vcompactFin := fun _ _ _ h => h
theorem vrandFin_kept : FinKept vrandFin := fun _ _ _ h => h
theorem vamaxhFin_kept (v : VF) : FinKept (vamaxhFin v) := by
  intro s r a h
  simpa [vamaxhFin] using h
end

/-! ## Opcode 0x70; reductions and scans; selection and movement; fill, copy, re-planing -/

theorem outSafe_execVcvt (hs : Safe s) (x : XF) (v : VF) : OutSafe (execVcvt x v s) := outSafe_vecExec hs _ _ (vcvtBlk_kept v) errFin_kept
theorem outSafe_execVred (hs : Safe s) (x : XF) (v : VF) : OutSafe (execVred x v s) := outSafe_vecExec hs _ _ (vredBlk_kept v) (vredFin_kept v)
theorem outSafe_execVscan (hs : Safe s) (x : XF) (v : VF) : OutSafe (execVscan x v s) := outSafe_vecExec hs _ _ (vscanBlk_kept v) (vscanFin_kept v)
theorem outSafe_execVtopk (hs : Safe s) (x : XF) (v : VF) : OutSafe (execVtopk x v s) := outSafe_vecExec hs _ _ (vtopkBlk_kept v) (vtopkFin_kept v)
theorem outSafe_execVcompact (hs : Safe s) (x : XF) (v : VF) :
    OutSafe (execVcompact x v s) :=
  outSafe_vecExec hs _ _ (vcompactBlk_kept v) vcompactFin_kept
theorem outSafe_execVexpand (hs : Safe s) (x : XF) (v : VF) :
    OutSafe (execVexpand x v s) :=
  outSafe_vecExec hs _ _ (vexpandBlk_kept v) fun _ _ _ h => h
theorem outSafe_execVgather (hs : Safe s) (x : XF) (v : VF) : OutSafe (execVgather x v s) := outSafe_vecExec hs _ _ (vgatherBlk_kept v) errFin_kept
theorem outSafe_execVscatter (hs : Safe s) (x : XF) (v : VF) :
    OutSafe (execVscatter x v s) :=
  outSafe_vecExec hs _ _ (vscatterBlk_kept v) fun _ _ _ h => h
theorem outSafe_execVfill (hs : Safe s) (x : XF) (v : VF) : OutSafe (execVfill x v s) := outSafe_vecExec hs _ _ (vfillBlk_kept v) errFin_kept
theorem outSafe_execVcopy (hs : Safe s) (x : XF) (v : VF) : OutSafe (execVcopy x v s) := outSafe_vecExec hs _ _ (vcopyBlk_kept v) errFin_kept
theorem outSafe_execVplane (hs : Safe s) (x : XF) (v : VF) : OutSafe (execVplane x v s) := outSafe_vecExec hs _ _ (vplaneBlk_kept v) errFin_kept

/-! ## Random numbers, scale history, ternary weights; a started command -/

theorem outSafe_execVrand (hs : Safe s) (x : XF) (v : VF) : OutSafe (execVrand x v s) := outSafe_vecExec hs _ _ (vrandBlk_kept v) vrandFin_kept
theorem outSafe_execVamaxh (hs : Safe s) (x : XF) (v : VF) :
    OutSafe (execVamaxh x v s) :=
  outSafe_vecExec hs _ _ (vamaxhBlk_kept v) (vamaxhFin_kept v)
theorem outSafe_execUnpackT5 (hs : Safe s) (x : XF) (v : VF) : OutSafe (execUnpackT5 x v s) := outSafe_vecExec hs _ _ (t5Blk_kept v) errFin_kept
@[simp] theorem safe_matDone (c : Nat) (r : MatRun) (v : Val) : Safe (matDone s c r v) ↔ Safe s := by simp [matDone]
@[simp] theorem safe_matWait (c : Nat) (r : MatRun) (key : Nat) : Safe (matWait s c r key) ↔ Safe s := by simp [matWait]
@[simp] theorem safe_State_setNode (c n : Nat) (x : Node) : Safe (s.setNode c n x) ↔ Safe s := by simp [State.setNode]
@[simp] theorem safe_noteFault (c n reason : Nat) : Safe (noteFault s c n reason) ↔ Safe s := by simp [noteFault]
@[simp] theorem safe_matFault (c : Nat) (r : MatRun) (n reason : Nat) : Safe (matFault s c r n reason) ↔ Safe s := by simp [matFault]
@[simp] theorem safe_releasePacked (hs : Safe s) (c : Nat) (nd : Node) : Safe (releasePacked s c nd).1 := by
  refine safe_foldl_fst (fun st w h => ?_) _ hs
  exact (safe_setAstat ..).mpr (safe_planeWriteX h ..)
@[simp] theorem safe_releasePlanes (hs : Safe s) (c : Nat) (nd : Node) : Safe (releasePlanes s c nd).1 := by
  refine safe_foldl_fst (fun st t h => ?_) _ hs
  exact (safe_setAstat ..).mpr (safe_PSet_putExps (safe_PSet_put h ..) ..)
@[simp] theorem safe_releaseNode (hs : Safe s) (c n : Nat) : Safe (releaseNode s c n) := by simp [releaseNode, hs]
@[simp] theorem safe_matRelease (hs : Safe s) (c n : Nat) : Safe (matRelease s c n) := by simp [matRelease, hs]
@[simp] theorem safe_matEnd (c n : Nat) (r : MatRun) (v : Val) : Safe (matEnd s c n r v) ↔ Safe s := by simp [matEnd]
@[simp] theorem safe_matPut (c : Nat) (r : MatRun) (n : Nat) : Safe (matPut s c r n) ↔ Safe s := by simp [matPut]
@[simp] theorem safe_matBegin (c : Nat) (r : MatRun) : Safe (matBegin s c r) ↔ Safe s := by simp [matBegin]

/-- The work of a matrix command leaves memory in canonical form. -/
def RunKept (run : State → Nat → MatRun → State) : Prop := ∀ s c r, Safe s → Safe (run s c r)
theorem outSafe_matExec (hs : Safe s) (i : Instr) {run : State → Nat → MatRun → State} (hr : RunKept run) : OutSafe (matExec s i run) := by
  unfold matExec
  split
  · dsimp only
    split
    · split
      · rw [outSafe_next]
        split
        · simp [hs]
        · exact safe_matRelease hs ..
        · exact hr _ _ _ hs
      · trivial
    · split
      · simp [hs]
      · trivial
    · trivial
  · exact outSafe_fireWord hs _ _

/-! ## Registers; nodes: arming and release -/

theorem outSafe_execPpSet (hs : Safe s) (x : XF) (k : BitVec 4) : OutSafe (execPpSet x k s) :=
  outSafe_matExec hs _ fun s c r h => by simpa using h
theorem outSafe_execSclSet (hs : Safe s) (x : XF) (k : BitVec 4) : OutSafe (execSclSet x k s) :=
  outSafe_matExec hs _ fun s c r h => by simpa using h
theorem outSafe_execSclDerive (hs : Safe s) (x : XF) (sc : BitVec 4) (ent : BitVec 8) (tgt : BitVec 3) (margin : BitVec 4) :
    OutSafe (execSclDerive x sc ent tgt margin s) :=
  outSafe_matExec hs _ fun s c r h => by simpa using h
theorem outSafe_execLbdCfg (hs : Safe s) (x : XF) : OutSafe (execLbdCfg x s) :=
  outSafe_matExec hs _ fun s c r h => by simpa using h
theorem outSafe_execAccArm (hs : Safe s) (x : XF) (node : BitVec 2) (ofmt wd so sa sb : BitVec 4) :
    OutSafe (execAccArm x node ofmt wd so sa sb s) := by
  refine outSafe_matExec hs _ fun s c r h => ?_
  dsimp only
  split
  · simpa using h
  · simpa using h
@[simp] theorem safe_countDown (c n : Nat) : Safe (countDown s c n) ↔ Safe s := by simp [countDown]

/-! ## Products; release, clear, images, status -/

@[simp] theorem safe_mmpWork (values : Bool) (n : Nat) (ga gb : Bool) (ns c : Nat) (r : MatRun) :
    Safe (mmpWork values n ga gb ns s c r) ↔ Safe s := by
  simp only [mmpWork]
  repeat' split
  all_goals simp
theorem outSafe_execMmp (hs : Safe s) (x : XF) (pp : BitVec 4) (node : BitVec 2) (ga gb : Bool) (ns : BitVec 10) :
    OutSafe (execMmp x pp node ga gb ns s) := outSafe_matExec hs _ fun _ _ _ h => (safe_mmpWork ..).mpr h
theorem outSafe_execMmpE (hs : Safe s) (x : XF) (pp : BitVec 4) (node : BitVec 2) (ga gb : Bool) (ns : BitVec 10) :
    OutSafe (execMmpE x pp node ga gb ns s) := outSafe_matExec hs _ fun _ _ _ h => (safe_mmpWork ..).mpr h
theorem outSafe_execAccRel (hs : Safe s) (x : XF) (node : BitVec 2) : OutSafe (execAccRel x node s) := by
  refine outSafe_matExec hs _ fun s c r h => ?_
  dsimp only
  split <;> simp [h]
theorem outSafe_execAccClr (hs : Safe s) (x : XF) (node : BitVec 2) : OutSafe (execAccClr x node s) :=
  outSafe_matExec hs _ fun s c r h => by simpa using h
theorem outSafe_execAccSave (hs : Safe s) (x : XF) (node : BitVec 2) (clr : Bool) : OutSafe (execAccSave x node clr s) := by
  refine outSafe_matExec hs _ fun s c r h => ?_
  have hp (w : Nat) (l : List Nat) := safe_putWords h c w l
  simp [hp]
theorem outSafe_execAccLoad (hs : Safe s) (x : XF) (node : BitVec 2) : OutSafe (execAccLoad x node s) := by
  unfold execAccLoad
  generalize imageWords = w
  apply outSafe_matExec hs
  intro s c r h
  dsimp only
  generalize List.range 4096 = l
  split
  · exact (safe_matWait ..).mpr h
  · split_ifs <;> simpa using h
theorem outSafe_execAccStat (hs : Safe s) (x : XF) (node : BitVec 2) : OutSafe (execAccStat x node s) :=
  outSafe_matExec hs _ fun s c r h => by simpa using h

end Sys2Proof.Safety
end

section
/-! PROOFS. Memory stays in canonical form: events of firings, memory and partitions. -/

namespace Sys2Proof.Safety

open Sys2Proof.Machine

variable {s : State}

/-! ## Firings -/

@[simp] theorem outSafe_execFiringStart (hs : Safe s) : OutSafe (execFiringStart s) := by
  simp only [execFiringStart]
  repeat' split
  all_goals simp [hs]
@[simp] theorem outSafe_execFiringCompletion (hs : Safe s) : OutSafe (execFiringCompletion s) := by
  simp only [execFiringCompletion]
  repeat' split
  all_goals simp [hs]
@[simp] theorem outSafe_execCommit (hs : Safe s) : OutSafe (execCommit s) := by
  simp only [execCommit]
  repeat' split
  all_goals simp [hs]
@[simp] theorem outSafe_execTakeAtHome (hs : Safe s) : OutSafe (execTakeAtHome s) := by
  simp only [execTakeAtHome]
  split <;> simp [hs]
@[simp] theorem outSafe_execTakeAnswer (hs : Safe s) : OutSafe (execTakeAnswer s) := by
  simp only [execTakeAnswer]
  split <;> simp [hs]
@[simp] theorem outSafe_execFenceComplete (hs : Safe s) : OutSafe (execFenceComplete s) := by
  simp only [execFenceComplete]
  repeat' split
  all_goals simp [hs]
@[simp] theorem outSafe_execTokenDelivery (hs : Safe s) : OutSafe (execTokenDelivery s) := by
  simp only [execTokenDelivery]
  split <;> simp [hs]

/-! ## Sections -/

@[simp] theorem safe_spillBack (hs : Safe s) (c : Nat) (e : Eng) : Safe (spillBack s c e) := by
  unfold spillBack
  exact safe_foldl (fun s a h => by simp [h]) _ hs
@[simp] theorem safe_secRestore (hs : Safe s) (c : Nat) (k : Ckpt) : Safe (secRestore s c k) := by
  simp only [secRestore]
  refine safe_foldl (fun s e h => safe_spillBack h ..) _ ?_
  rw [safe_setCore]
  exact safe_foldl (fun s va h => safe_ckptPage h ..) _ hs
@[simp] theorem outSafe_execSectionRestore (hs : Safe s) : OutSafe (execSectionRestore s) := by
  simp only [execSectionRestore]
  repeat' split
  all_goals simp [hs]
@[simp] theorem outSafe_execSectionEnd (hs : Safe s) : OutSafe (execSectionEnd s) := by
  simp only [execSectionEnd]
  repeat' split
  all_goals simp [hs]

/-! ## Queue, traps, registers -/

@[simp] theorem safe_ageRecords (hs : Safe s) (c : Nat) : Safe (ageRecords s c) := by
  unfold ageRecords
  exact safe_foldl (fun s a h => by simp [h]) _ hs
@[simp] theorem outSafe_execRecordAging (hs : Safe s) : OutSafe (execRecordAging s) := by
  simp only [execRecordAging]
  split <;> simp [hs]
theorem safe_activateHandler (hs : Safe s) {c : Nat} {t : State} (ht : activateHandler s c = some t) : Safe t := by
  simp only [activateHandler] at ht
  split at ht
  · cases ht
    refine safe_checkReady (safe_recount ?_ _) _
    refine safe_foldl (fun s n h => setSlot_safe h _) _ ?_
    exact safe_allocFrame ((safe_setCore ..).mpr hs) ..
  · cases ht
theorem outSafe_execHandlerActivation (hs : Safe s) : OutSafe (execHandlerActivation s) := by
  unfold execHandlerActivation
  split
  · split
    case h_1 he => exact safe_activateHandler hs he
    · trivial
  · trivial
@[simp] theorem outSafe_execFrameCtlRerun (hs : Safe s) : OutSafe (execFrameCtlRerun s) := by
  simp only [execFrameCtlRerun]
  split <;> simp [hs]
@[simp] theorem outSafe_execFrameCtlResume (hs : Safe s) : OutSafe (execFrameCtlResume s) := by
  simp only [execFrameCtlResume]
  split <;> simp [hs]
@[simp] theorem outSafe_execFrameCtlFree (hs : Safe s) : OutSafe (execFrameCtlFree s) := by
  simp only [execFrameCtlFree]
  split <;> simp [hs]
@[simp] theorem outSafe_execTqBaseWrite (hs : Safe s) : OutSafe (execTqBaseWrite s) := by
  simp only [execTqBaseWrite]
  split <;> simp [hs]
@[simp] theorem outSafe_execTqBaseApply (hs : Safe s) : OutSafe (execTqBaseApply s) := by
  simp only [execTqBaseApply]
  split <;> simp [hs]
@[simp] theorem outSafe_execEvselWrite (hs : Safe s) : OutSafe (execEvselWrite s) := by
  simp only [execEvselWrite]
  split <;> simp [hs]
theorem safe_fireTimer (hs : Safe s) (c : Nat) {t : State} (ht : fireTimer s c = some t) : Safe t := by
  simp only [fireTimer] at ht
  repeat' split at ht
  all_goals cases ht
  all_goals simp [hs]
theorem outSafe_execWaittickTimerFire (hs : Safe s) : OutSafe (execWaittickTimerFire s) := by
  unfold execWaittickTimerFire
  split
  · split
    case h_1 he => exact safe_fireTimer hs _ he
    · exact hs
  · trivial

/-! ## The frame allocator; memory -/

@[simp] theorem safe_serveFalloc (hs : Safe s) (r : FallocReq) : Safe (serveFalloc s r) := by
  simp only [serveFalloc]
  repeat' split
  all_goals simp [hs]
@[simp] theorem outSafe_execFrameAllocation (hs : Safe s) : OutSafe (execFrameAllocation s) := by
  simp only [execFrameAllocation]
  split <;> simp [hs]
@[simp] theorem safe_expireHolds (d : Nat) : Safe (expireHolds s d) ↔ Safe s := by simp [expireHolds]
@[simp] theorem outSafe_execRouterHoldExpiry (hs : Safe s) : OutSafe (execRouterHoldExpiry s) := by
  simp only [execRouterHoldExpiry]
  split <;> simp [hs]
@[simp] theorem outSafe_execCombinedGroupAtHome (hs : Safe s) : OutSafe (execCombinedGroupAtHome s) := by
  simp only [execCombinedGroupAtHome]
  split <;> simp [hs]
@[simp] theorem outSafe_execAccessAtHome (hs : Safe s) : OutSafe (execAccessAtHome s) := by
  simp only [execAccessAtHome]
  split <;> simp [hs]
@[simp] theorem safe_loadReturn (hs : Safe s) (r : LoadRet) : Safe (loadReturn s r) := by
  simp only [loadReturn]
  repeat' split
  all_goals simp [hs]
@[simp] theorem outSafe_execLoadValueReturn (hs : Safe s) : OutSafe (execLoadValueReturn s) := by
  simp only [execLoadValueReturn]
  split <;> simp [hs]
@[simp] theorem safe_counterWrap (hs : Safe s) (c k : Nat) : Safe (counterWrap s c k) := by simp [counterWrap, hs]
@[simp] theorem outSafe_execEventCounterWrap (hs : Safe s) : OutSafe (execEventCounterWrap s) := by
  simp only [execEventCounterWrap]
  split <;> simp [hs]
@[simp] theorem safe_dieRegStore (d n : Nat) (v : BitVec 64) : Safe (dieRegStore s d n v) ↔ Safe s := by simp [dieRegStore]

/-! ## Translation faults of rings; refresh and scrubbing -/

@[simp] theorem safe_retryWalks (d : Nat) : Safe (retryWalks s d) ↔ Safe s := by simp [retryWalks]
@[simp] theorem outSafe_execWalkRetry (hs : Safe s) : OutSafe (execWalkRetry s) := by
  simp only [execWalkRetry]
  split <;> simp [hs]
@[simp] theorem safe_modLayer (d l : Nat) (f : Layer → Layer) : Safe (modLayer s d l f) ↔ Safe s := by simp [modLayer]
@[simp] theorem outSafe_execDramRefresh (hs : Safe s) : OutSafe (execDramRefresh s) := by
  simp only [execDramRefresh]
  split <;> simp [hs]
@[simp] theorem safe_scrubOne (hs : Safe s) (d l : Nat) : Safe (scrubOne s d l) := by
  simp only [scrubOne]
  repeat' split
  all_goals simp [hs]
@[simp] theorem outSafe_execScrubVisit (hs : Safe s) : OutSafe (execScrubVisit s) := by
  simp only [execScrubVisit]
  split <;> simp [hs]
@[simp] theorem safe_passEnd (d l : Nat) : Safe (passEnd s d l) ↔ Safe s := by simp [passEnd]
@[simp] theorem outSafe_execScrubPassEnd (hs : Safe s) : OutSafe (execScrubPassEnd s) := by
  simp only [execScrubPassEnd]
  split <;> simp [hs]
@[simp] theorem outSafe_execScrubCtlWrite (hs : Safe s) : OutSafe (execScrubCtlWrite s) := by
  simp only [execScrubCtlWrite]
  split <;> simp [hs]

/-! ## Pewter; gated banks -/

@[simp] theorem safe_modPew (d k : Nat) (f : Pew → Pew) : Safe (modPew s d k f) ↔ Safe s := by simp [modPew]
@[simp] theorem safe_poisonPew (hs : Safe s) (d ctl : Nat) : Safe (poisonPew s d ctl) := by simp [poisonPew, hs, poisonRange_wf]
@[simp] theorem safe_pewStore (hs : Safe s) (d n : Nat) (v : BitVec 64) : Safe (pewStore s d n v) := by simp [pewStore, hs]
@[simp] theorem outSafe_execPewCtlWrite (hs : Safe s) : OutSafe (execPewCtlWrite s) := by
  simp only [execPewCtlWrite]
  split <;> simp [hs]
@[simp] theorem outSafe_execPewterExpiry (hs : Safe s) : OutSafe (execPewterExpiry s) := by
  simp only [execPewterExpiry]
  split <;> simp [hs]
@[simp] theorem outSafe_execBankGateRequest (hs : Safe s) : OutSafe (execBankGateRequest s) := by
  simp only [execBankGateRequest]
  split <;> simp [hs]
@[simp] theorem outSafe_execSpgateRequest (hs : Safe s) : OutSafe (execSpgateRequest s) := by
  simp only [execSpgateRequest]
  split <;> simp [hs]
@[simp] theorem safe_gateBank (hs : Safe s) (c : Option Nat) (d b : Nat) : Safe (gateBank s c d b) := by
  simp only [gateBank]
  split <;> simp [hs, memWithout_wf]
@[simp] theorem outSafe_execBankGated (hs : Safe s) : OutSafe (execBankGated s) := by
  simp only [execBankGated]
  split <;> simp [hs]
theorem outSafe_execBankWakeComplete (hs : Safe s) : OutSafe (execBankWakeComplete s) := by
  unfold execBankWakeComplete
  split
  · rw [outSafe_next]
    exact safe_foldl (fun _ a h => safe_homeAccess h a) _ ((safe_openBank ..).mpr hs)
  · trivial

/-! ## The block store's control and held accesses (R368, R372) -/

@[simp] theorem safe_kvStart (hs : Safe s) (d : Nat) (ctl : BitVec 64) : Safe (kvStart s d ctl) := by simp [kvStart, hs, memWithout_wf]
@[simp] theorem safe_kvCtlStore (hs : Safe s) (d : Nat) (v : BitVec 64) : Safe (kvCtlStore s d v) := by simp [kvCtlStore, hs]
@[simp] theorem outSafe_execKvbCtlWrite (hs : Safe s) : OutSafe (execKvbCtlWrite s) := by
  simp only [execKvbCtlWrite]
  split <;> simp [hs]
theorem safe_kvReady (hs : Safe s) {d : Nat} {seen : List Nat} {l : List KvHeld} {h : KvHeld} {r : State × Loc}
    (hr : kvReady s d seen l = some (h, some r)) : Safe r.1 := by
  induction l generalizing seen with
  | nil => cases hr
  | cons h' l ih =>
    simp only [kvReady] at hr
    split at hr
    · split at hr
      · cases hr
      · exact ih hr
    · split at hr
      · exact ih hr
      · split at hr
        case h_1 hm => cases hr; exact safe_kvMap hs hm
        · exact ih hr
    · exact ih hr
@[simp] theorem safe_kvReleaseHeld (hs : Safe s) (d n : Nat) : Safe (kvReleaseHeld s d n) := by
  induction n generalizing s with
  | zero => exact hs
  | succ n ih =>
    simp only [kvReleaseHeld]
    split
    · split
      · exact (safe_modDie ..).mpr hs
      · refine safe_foldl (fun s h hs => ?_) _ hs
        split
        · split
          · exact (safe_raiseOnce _).mpr hs
          · exact hs
        · exact hs
    case h_2 hk =>
      split
      · exact ih (safe_perform ((safe_modDie ..).mpr (safe_kvReady hs hk)) _)
      · exact hs
    · refine ih ?_
      split <;> simpa using hs
@[simp] theorem outSafe_execKvbHeldRelease (hs : Safe s) : OutSafe (execKvbHeldRelease s) := by
  simp only [execKvbHeldRelease]
  split <;> simp [hs]

/-! ## The trace's control; launch lines -/

@[simp] theorem safe_traceStore (hs : Safe s) (d : Nat) (v : BitVec 64) : Safe (traceStore s d v) := by simp [traceStore, hs]
@[simp] theorem outSafe_execTraceCtlWrite (hs : Safe s) : OutSafe (execTraceCtlWrite s) := by
  simp only [execTraceCtlWrite]
  split <;> simp [hs]
@[simp] theorem safe_setLaunch (p : Nat) (l : Launch) : Safe (setLaunch s p l) ↔ Safe s := by simp [setLaunch]
@[simp] theorem safe_hostPut (hs : Safe s) (a v : Nat) : Safe (hostPut s a v) := by simp [hostPut, hs, memPut_wf]
@[simp] theorem safe_linePut (hs : Safe s) (p w v : Nat) : Safe (linePut s p w v) := by simp [linePut, hs, putWord_wf]
@[simp] theorem safe_launchEnd (hs : Safe s) (p seq event status detail ioff : Nat) : Safe (launchEnd s p seq event status detail ioff) := by
  simp only [launchEnd]
  exact safe_ringRecord (safe_hostPut (safe_hostPut (safe_hostPut (safe_linePut (safe_linePut hs ..) ..) ..) ..) ..) ..

/-! ## The record; phase 1 -/

@[simp] theorem safe_setWorldCore (p c : Nat) (co : Core) : Safe (setWorldCore s p c co) ↔ Safe s := by simp [setWorldCore]
@[simp] theorem safe_putCode (hs : Safe s) (c half : Nat) (m : Img) : Safe (putCode s c half m) := by
  simp only [putCode, safe_modCore, safe_setMem]
  exact foldl_induct (p := fun a : List Host.Cell × Nat => Memory.wf a.1 = true) (fun a x h => memSet_wf h ..) _ hs
@[simp] theorem safe_closeLaunch (hs : Safe s) (p status detail : Nat) : Safe (closeLaunch s p status detail) := by simp [closeLaunch, hs]
@[simp] theorem safe_phase1 (hs : Safe s) (p : Nat) : Safe (phase1 s p) := by
  unfold phase1
  exact safe_foldl (fun s a h => by simp [h]) _ hs
@[simp] theorem safe_tryPhase1 (hs : Safe s) (p : Nat) : Safe (tryPhase1 s p) := by simp [tryPhase1, hs]
@[simp] theorem safe_againPhase1 (hs : Safe s) (p : Nat) : Safe (againPhase1 s p) := by
  simp only [againPhase1]
  repeat' split
  all_goals simp [hs]
@[simp] theorem safe_raisePhase2 (p : Nat) : Safe (raisePhase2 s p) ↔ Safe s := by simp [raisePhase2]
@[simp] theorem safe_acceptLaunch (hs : Safe s) (p : Nat) : Safe (acceptLaunch s p) := by
  simp only [acceptLaunch]
  repeat' split
  all_goals simp [hs]
@[simp] theorem outSafe_execLaunchAccept (hs : Safe s) : OutSafe (execLaunchAccept s) := by
  simp only [execLaunchAccept]
  split <;> simp [hs]

/-! ## Phase 2 (R403, R477) -/

@[simp] theorem safe_putItem (hs : Safe s) (c : Nat) (m : Img) (bad : List Nat) (k : Nat) : Safe (putItem s c m bad k) := by
  refine safe_foldl (fun s j h => ?_) _ hs
  dsimp only
  split <;> simp [putWord_wf, h]
@[simp] theorem safe_putData (hs : Safe s) (c : Nat) (m : Img) (bad : List Nat) : Safe (putData s c m bad) := by
  unfold putData
  exact safe_foldl (fun s a h => by simp [h]) _ hs
@[simp] theorem safe_loadPhase2 (hs : Safe s) (p : Nat) : Safe (loadPhase2 s p) := by
  unfold loadPhase2
  extract_lets l r m fb s1 s2 s3
  split
  · exact safe_closeLaunch hs ..
  · have h1 : Safe s1 := (safe_foldl_iff (fun _ _ => safe_setWorldCore ..) ..).mpr hs
    have h2 : Safe s2 := by
      refine safe_foldl (fun s c h => ?_) _ h1
      exact safe_putData h ..
    exact (safe_setLaunch ..).mpr ((safe_foldl_iff (fun _ _ => safe_modCore ..) ..).mpr h2)
@[simp] theorem outSafe_execLoadPhase2 (hs : Safe s) : OutSafe (execLoadPhase2 s) := by
  simp only [execLoadPhase2]
  split <;> simp [hs]

/-! ## The switch of a core (R404 to R407) -/

@[simp] theorem safe_dropFrame (hs : Safe s) (fp : Nat) : Safe (dropFrame s fp) := by simp [dropFrame, hs]
@[simp] theorem safe_intervals (hs : Safe s) (c : Nat) : Safe (intervals s c) := by
  unfold intervals
  exact safe_foldl (fun s a h => by simp [h]) _ hs
@[simp] theorem safe_entryFrames (hs : Safe s) (c cls : Nat) (m : Img) : Safe (entryFrames s c cls m).1 := by
  refine safe_foldl_fst (fun a k h => ?_) _ hs
  dsimp only
  split
  · exact h
  · exact safe_checkReady (safe_allocFrame h ..) _
@[simp] theorem safe_seedCore (hs : Safe s) (c n : Nat) (m : Img) (fps : List (Option Nat)) : Safe (seedCore s c n m fps) := by
  refine safe_foldl (fun s k h => ?_) _ hs
  dsimp only
  split
  · split
    · exact (safe_send ..).mpr h
    · exact (safe_stray ..).mpr h
  · exact h
@[simp] theorem safe_settleLaunch (hs : Safe s) (p : Nat) : Safe (settleLaunch s p) := by simp [settleLaunch, hs]
@[simp] theorem safe_settleLaunches (hs : Safe s) : Safe (settleLaunches s) := by
  unfold settleLaunches
  exact safe_foldl (fun s a h => by simp [h]) _ hs
@[simp] theorem safe_switchCore (hs : Safe s) (c p : Nat) : Safe (switchCore s c p) := by
  unfold switchCore
  extract_lets l m ws old keep s1 s2 word mask s3 s4 engs s5 n
  have h1 : Safe s1 := safe_intervals hs c
  have h2 : Safe s2 := safe_foldl (fun _ fp h => safe_dropFrame h fp) _ h1
  have h3 : Safe s3 := (safe_modCore ..).mpr h2
  have h4 : Safe s4 := safe_moveRings ((safe_keepFrames _).mpr h3) ..
  have h5 : Safe s5 := (safe_modCore ..).mpr h4
  split
  case h_1 he =>
    have h6 := safe_of_eq_mk he (safe_entryFrames h5 ..)
    exact (safe_setLaunch ..).mpr (safe_seedCore h6 ..)
@[simp] theorem outSafe_execCoreSwitch (hs : Safe s) : OutSafe (execCoreSwitch s) := by
  simp only [execCoreSwitch]
  repeat' split
  all_goals simp [hs]

/-! ## Saving a core; restoring a core -/

@[simp] theorem safe_stopCore (hs : Safe s) (c : Nat) : Safe (stopCore s c) := by
  simp only [stopCore, safe_flushStops]
  refine safe_foldl (fun s d h => safe_domAnswer h ..) _ ?_
  refine safe_foldl (fun s k h => safe_streamLand h ..) _ ?_
  exact safe_foldl (fun s k h => safe_discardBack h ..) _ hs
@[simp] theorem safe_saveCore (hs : Safe s) (p c : Nat) : Safe (saveCore s p c) := by simp [saveCore, hs]
theorem safe_reloadCode (hs : Safe s) (c : Nat) (co : Core) {t : State} (ht : reloadCode s c co = some t) : Safe t := by
  simp only [reloadCode] at ht
  repeat' split at ht
  all_goals cases ht
  all_goals simp [hs]
@[simp] theorem safe_restoreCore (hs : Safe s) (p c : Nat) : Safe (restoreCore s p c).1 := by
  unfold restoreCore
  extract_lets here gone s1 co now blank s2 since
  have h1 : Safe s1 := memWithout_wf hs gone
  split
  · exact (safe_setCore ..).mpr h1
  · extract_lets toks s3 later img s4
    have h2 : Safe s2 := (safe_llcRange ..).mpr h1
    have h3 : Safe s3 := by
      refine safe_foldl (fun s e h => ?_) _ h2
      exact putWord_wf h ..
    have h4 : Safe s4 := h3
    split
    case h_1 he => exact (safe_setCore ..).mpr (safe_reloadCode h4 _ _ he)
    · exact (safe_setCore ..).mpr h4

/-! ## The end of a slice (R446) -/

@[simp] theorem safe_sliceDie (hs : Safe s) (d : Nat) : Safe (sliceDie s d) := by
  unfold sliceDie
  split
  · extract_lets cores s1 s2
    have h1 : Safe s1 := safe_foldl (fun s c h => safe_saveCore h ..) _ hs
    have h2 : Safe s2 := (safe_modDie ..).mpr h1
    generalize hx : List.foldl _ (s2, false) cores = x
    have h3 : Safe x.1 := by
      rw [← hx]
      refine safe_foldl_fst (x := (s2, false)) (fun a c h => ?_) _ h2
      exact safe_restoreCore h ..
    dsimp only
    split
    · exact safe_launchEnd h3 ..
    · exact h3
  · exact (safe_modDie ..).mpr hs
  · exact hs
@[simp] theorem safe_endSlice (hs : Safe s) : Safe (endSlice s) := by
  unfold endSlice
  extract_lets ds again s1 s2 s3 s4
  have h1 : Safe s1 := (safe_modPkg ..).mpr hs
  have h2 : Safe s2 := safe_foldl (fun s d h => safe_sliceDie h d) _ h1
  have h3 : Safe s3 := (safe_modPkg ..).mpr h2
  have h4 : Safe s4 := by
    refine safe_foldl (fun s q h => ?_) _ h3
    split
    · exact safe_dieEvent h ..
    · exact h
  exact safe_foldl (fun s q h => safe_againPhase1 h q) _ h4
@[simp] theorem outSafe_execSliceEnd (hs : Safe s) : OutSafe (execSliceEnd s) := by
  simp only [execSliceEnd]
  split <;> simp [hs]
@[simp] theorem safe_settleSlices (had : Bool) : Safe (settleSlices s had) ↔ Safe s := by simp [settleSlices]

end Sys2Proof.Safety
end

section
/-! PROOFS. Memory stays in canonical form: package events, and what comes over the links. -/

namespace Sys2Proof.Safety

open Sys2Proof.Machine

variable {s : State}

/-! ## Package registers (Table 21.4, R460 to R462) -/

@[simp] theorem safe_pkgReject : Safe (pkgReject s) ↔ Safe s := by simp [pkgReject]
@[simp] theorem safe_pkgRegClear (n : Nat) : Safe (pkgRegClear s n) ↔ Safe s := by simp [pkgRegClear]
@[simp] theorem safe_setPart (k : Nat) (f : PartReg → PartReg) : Safe (setPart s k f) ↔ Safe s := by simp [setPart]
@[simp] theorem safe_pkgRegStore (n : Nat) (v : BitVec 64) : Safe (pkgRegStore s n v) ↔ Safe s := by
  unfold pkgRegStore
  dsimp only
  simp only [safe_ite, safe_modPkg, safe_modPod, safe_setPart, safe_raise, safe_pkgReject, safe_setPort, ite_self]
  split_ifs
  any_goals rfl
  all_goals split <;> simp
@[simp] theorem safe_pkgStore (hs : Safe s) (n : Nat) (v : BitVec 64) : Safe (pkgStore s n v) := by simp [pkgStore, hs]

/-! ## PART_CTL_WRITE; control of cores -/

@[simp] theorem safe_partCtlStore (k : Nat) (v : BitVec 64) : Safe (partCtlStore s k v) ↔ Safe s := by simp [partCtlStore]
@[simp] theorem outSafe_execPartCtlWrite (hs : Safe s) : OutSafe (execPartCtlWrite s) := by
  simp only [execPartCtlWrite]
  split <;> simp [hs]
@[simp] theorem safe_mapOutCore (hs : Safe s) (c : Nat) : Safe (mapOutCore s c) := by simp [mapOutCore, hs]
@[simp] theorem safe_stopRun (c : Nat) : Safe (stopRun s c) ↔ Safe s := by simp [stopRun]
@[simp] theorem safe_restartCore (hs : Safe s) (c : Nat) : Safe (restartCore s c) := by
  simp only [restartCore]
  repeat' split
  all_goals simp [hs]
@[simp] theorem outSafe_execHctlRestart (hs : Safe s) : OutSafe (execHctlRestart s) := by
  simp only [execHctlRestart]
  split <;> simp [hs]
@[simp] theorem outSafe_execHctlStop (hs : Safe s) : OutSafe (execHctlStop s) := by
  simp only [execHctlStop]
  split <;> simp [hs]
@[simp] theorem safe_leaveCore (c : Nat) : Safe (leaveCore s c) ↔ Safe s := by simp [leaveCore]
@[simp] theorem outSafe_execHctlMapout (hs : Safe s) : OutSafe (execHctlMapout s) := by
  simp only [execHctlMapout]
  split <;> simp [hs]
@[simp] theorem safe_mapInCore (hs : Safe s) (c : Nat) : Safe (mapInCore s c) := by simp [mapInCore, hs]
@[simp] theorem outSafe_execHctlMapin (hs : Safe s) : OutSafe (execHctlMapin s) := by
  simp only [execHctlMapin]
  split <;> simp [hs]
@[simp] theorem safe_hctlStore (c : Nat) (v : BitVec 64) : Safe (hctlStore s c v) ↔ Safe s := by
  simp only [hctlStore]
  repeat' split
  all_goals simp

/-! ## REGISTER_WRITE (R13) -/

@[simp] theorem safe_coreStore (hs : Safe s) (c n : Nat) (v : BitVec 64) : Safe (coreStore s c n v) := by
  simp only [coreStore]
  repeat' split
  all_goals simp [hs]
@[simp] theorem safe_registerStore (hs : Safe s) (r : RegDst) (v : BitVec 64) : Safe (registerStore s r v) := by
  simp only [registerStore]
  split <;> simp [hs]
@[simp] theorem outSafe_execRegisterWrite (hs : Safe s) : OutSafe (execRegisterWrite s) := by
  simp only [execRegisterWrite]
  split <;> simp [hs]

/-! ## The link address space (R441, R442) -/

@[simp] theorem safe_hostLoad (la n : Nat) : Safe (hostLoad s la n).1 ↔ Safe s := by
  simp only [hostLoad]
  repeat' split
  all_goals simp
@[simp] theorem outSafe_execHostRead (hs : Safe s) : OutSafe (execHostRead s) := by
  simp only [execHostRead]
  split <;> simp [hs]
@[simp] theorem safe_hostStore (hs : Safe s) (la n : Nat) (v : BitVec 64) : Safe (hostStore s la n v) := by
  simp only [hostStore]
  repeat' split
  all_goals simp [hs]
@[simp] theorem safe_hostLineStore (hs : Safe s) (p w : Nat) (v : BitVec 64) : Safe (hostLineStore s p w v) := by simp [hostLineStore, hs]
@[simp] theorem safe_hostMemory (hs : Safe s) (a n : Nat) (v : BitVec 64) : Safe (hostMemory s a n v) := by simp [hostMemory, hs, memPut_wf]
@[simp] theorem outSafe_execHostWrite (hs : Safe s) : OutSafe (execHostWrite s) := by
  simp only [execHostWrite]
  split <;> simp [hs]

/-! ## Power; errors, service, fatal loss -/

@[simp] theorem safe_throttleOne (hs : Safe s) (d : Nat) (cause : ThrottleCause) (f : Die → Die) (clock : Bool) :
    Safe (throttleOne s d cause f clock) := by
  simp [throttleOne, hs]
@[simp] theorem safe_throttle (hs : Safe s) (d : Nat) (cause : ThrottleCause) (mhz mv limit : Nat) : Safe (throttle s d cause mhz mv limit) := by
  simp [throttle, hs]
@[simp] theorem outSafe_execThrottleChange (hs : Safe s) : OutSafe (execThrottleChange s) := by
  simp only [execThrottleChange]
  split <;> simp [hs]
@[simp] theorem safe_spoilWord (hs : Safe s) (key : Nat) : Safe (spoilWord s key) := by simp [spoilWord, hs, putWord_wf]
@[simp] theorem safe_abortShadow (hs : Safe s) (c : Nat) : Safe (abortShadow s c) := by
  simp only [abortShadow]
  split <;> simp [hs]
@[simp] theorem safe_loseCore (c : Nat) : Safe (loseCore s c) ↔ Safe s := by simp [loseCore]
@[simp] theorem safe_lasting (hs : Safe s) (p : Machine.Part) (spare : Bool) : Safe (lasting s p spare) := by
  simp only [lasting]
  split <;> simp [hs, setPoison_wf]
@[simp] theorem safe_errorRetry (hs : Safe s) (p : Machine.Part) (succeeds : Bool) : Safe (errorRetry s p succeeds) := by
  unfold errorRetry
  extract_lets s1
  have h1 : Safe s1 := by
    simp only [s1]
    split
    · exact safe_discardBack hs ..
    · exact hs
  split
  · exact h1
  · simp [h1]
@[simp] theorem outSafe_execErrorRetry (hs : Safe s) : OutSafe (execErrorRetry s) := by
  simp only [execErrorRetry]
  split <;> simp [hs]
@[simp] theorem safe_restart (hs : Safe s) : Safe (restart s) := by simp [restart, hs, filter_wf]
@[simp] theorem outSafe_execReset (hs : Safe s) : OutSafe (execReset s) := by
  simp only [execReset]
  split <;> simp [hs]
@[simp] theorem safe_fatalLoss (hs : Safe s) (x : DramLoss) : Safe (fatalLoss s x) := by
  simp only [fatalLoss, safe_modPkg, safe_modDie]
  exact safe_restart (safe_pkgEvent (safe_dieEvent ((safe_logRec ..).mpr hs) ..) ..)
@[simp] theorem outSafe_execFatalDramLoss (hs : Safe s) : OutSafe (execFatalDramLoss s) := by
  simp only [execFatalDramLoss]
  split <;> simp [hs]
@[simp] theorem safe_boundaryWork (hs : Safe s) (a b : Nat) (starts : Bool) : Safe (boundaryWork s a b starts) := by simp [boundaryWork, hs]
@[simp] theorem outSafe_execServiceAction (hs : Safe s) : OutSafe (execServiceAction s) := by
  simp only [execServiceAction]
  split <;> simp [hs]

/-! ## Firmware and attestation (R457, R458) -/

@[simp] theorem outSafe_execFirmwareUpdate (hs : Safe s) : OutSafe (execFirmwareUpdate s) := by
  simp only [execFirmwareUpdate]
  split <;> simp [hs]
@[simp] theorem safe_attest (hs : Safe s) : Safe (attest s) := by
  unfold attest
  extract_lets buf body sig bytes put s1 s2
  have h2 : Safe s2 := by
    simp only [s2]
    split
    · exact foldl_induct (p := fun a : List Host.Cell × Nat => Memory.wf a.1 = true) (fun a b h => memSet_wf h ..) _ hs
    · exact hs
  exact (safe_modPkg ..).mpr h2
@[simp] theorem outSafe_execAttestReport (hs : Safe s) : OutSafe (execAttestReport s) := by
  simp only [execAttestReport]
  split <;> simp [hs]

/-! ## GLOBAL memory at the home (R464, R468) -/

@[simp] theorem safe_podWalks (p : Option Nat) (write : Bool) (l : List Nat) : Safe (podWalks s p write l) ↔ Safe s := by
  induction l generalizing s with
  | nil => rfl
  | cons g l ih =>
    simp only [podWalks]
    split <;> simp [ih]
@[simp] theorem safe_dropXl (c : Nat) (key : PodKey) : Safe (dropXl s c key) ↔ Safe s := by simp [dropXl]
@[simp] theorem safe_podStore (hs : Safe s) (c : Nat) (loc : Loc) (n : Nat) (v : Val) : Safe (podStore s c loc n v).1 := by simp [podStore, hs]
@[simp] theorem safe_podLoad (hs : Safe s) (c part : Option Nat) (cnt : Bool) (loc : Loc) (n : Nat) : Safe (podLoad s c part cnt loc n).1 := by
  simp only [podLoad]
  repeat' split
  all_goals simp [hs]
@[simp] theorem safe_loadAll (hs : Safe s) (c part : Option Nat) (size : Nat) (ls : List Loc) : Safe (loadAll s c part size ls).1 := by
  refine foldl_induct (p := fun r : State × PodData × Option Nat => Safe r.1) (fun r l h => ?_) _ hs
  exact safe_podLoad h ..
@[simp] theorem safe_storeAll (hs : Safe s) (c size : Nat) (ls : List Loc) (d : PodData) : Safe (storeAll s c size ls d) := by
  refine foldl_wf _ (fun m k h => setPoison_wf h ..) _ ?_
  refine safe_foldl_fst (fun r e h => ?_) _ hs
  exact safe_podStore h ..

/-! ## The line of a slot (R372), and ORD (R471) -/

@[simp] theorem safe_podGate (hs : Safe s) (e : Event) (ls : List Loc) (write : Bool) : Safe (podGate s e ls write).1 := by
  simp only [podGate]
  split <;> simp [hs]
@[simp] theorem safe_homePut (hs : Safe s) (p : Option Nat) (e : Event) (va : Nat) (d : PodData) : Safe (homePut s p e va d).1 := by
  have hw := (safe_podWalks p true (granules va (8 * d.length))).mpr hs
  simp only [homePut]
  generalize podWalks s p true (granules va (8 * d.length)) = s1 at hw ⊢
  split
  · exact (safe_kvLeaveAll _).mpr hw
  · have hg (ls : List Loc) := safe_podGate hw e ls true
    split
    case h_1 he => exact safe_of_eq_mk he (hg _)
    case h_2 he => exact safe_storeAll (safe_of_eq_mk he (hg _)) ..
@[simp] theorem safe_homeGet (hs : Safe s) (p : Option Nat) (e : Event) (va n : Nat) : Safe (homeGet s p e va n).1 := by
  have hw := (safe_podWalks p false (granules va (8 * n))).mpr hs
  simp only [homeGet]
  generalize podWalks s p false (granules va (8 * n)) = s1 at hw ⊢
  split
  · exact (safe_kvLeaveAll _).mpr hw
  case h_2 ls _ =>
    have hg := safe_podGate hw e ls false
    split
    case h_1 he => exact safe_of_eq_mk he hg
    case h_2 he => exact safe_loadAll (safe_of_eq_mk he hg) none p 8 ls
@[simp] theorem safe_getStore (hs : Safe s) (c : Nat) (key : PodKey) (e : Event) (sp : Space) (dst : Nat) (full : Bool) (d : PodData) :
    Safe (getStore s c key e sp dst full d).1 := by
  unfold getStore
  split
  · exact (safe_kvLeaveAll _).mpr hs
  · have hg (ls : List Loc) := safe_podGate hs e ls true
    split
    case h_1 he => exact safe_of_eq_mk he (hg _)
    case h_2 he =>
      have ht := safe_of_eq_mk he (hg _)
      split
      · exact safe_foldl (fun s e h => safe_writeFull ((safe_awake _).mpr h) ..) _ ht
      · exact safe_storeAll ht ..

/-! ## Atomics at the home (R469, R470) -/

@[simp] theorem safe_homeAmo (hs : Safe s) (p : Option Nat) (r : PodAmoReq) : Safe (homeAmo s p r).1 := by
  have hw := (safe_podWalks p true [r.va]).mpr hs
  simp only [homeAmo]
  generalize podWalks s p true [r.va] = s1 at hw ⊢
  split
  · exact (safe_kvLeaveAll _).mpr hw
  · split
    · exact (safe_kvLeaveAll _).mpr hw
    · have hg (ls : List Loc) := safe_podGate hw (Event.podAmoAtHome r) ls true
      split
      case h_1 he => exact safe_of_eq_mk he (hg _)
      case h_2 he => exact safe_amoAt (safe_slotGo (safe_of_eq_mk he (hg _)) ..) ..
@[simp] theorem safe_expireReplay (e : Replay) : Safe (expireReplay s e) ↔ Safe s := by simp [expireReplay]
@[simp] theorem safe_serveAmo (hs : Safe s) (p : Option Nat) (r : PodAmoReq) : Safe (serveAmo s p r).1 := by
  have ha := safe_homeAmo hs p r
  unfold serveAmo
  split
  · exact hs
  · split_ifs
    · exact hs
    · split
      case h_1 he =>
        have ht := safe_of_eq_mk he ha
        dsimp only
        split
        · split <;> simp [ht]
        · simp [ht]
      · exact ha

/-! ## Outstanding commands -/

@[simp] theorem safe_podToken (o : PodOut) (v : Val) : Safe (podToken s o v) ↔ Safe s := by
  unfold podToken
  split <;> simp
@[simp] theorem safe_dropOut (tag : Nat) : Safe (dropOut s tag) ↔ Safe s := by simp [dropOut]
@[simp] theorem safe_freeTicket (o : PodOut) : Safe (freeTicket s o) ↔ Safe s := by
  unfold freeTicket
  split <;> simp
@[simp] theorem safe_putDone (tag reason : Nat) : Safe (putDone s tag reason) ↔ Safe s := by
  simp only [putDone]
  repeat' split
  all_goals simp
@[simp] theorem safe_getDone (hs : Safe s) (tag reason : Nat) (d : PodData) : Safe (getDone s tag reason d) := by
  simp only [getDone]
  repeat' split
  all_goals simp [hs]
@[simp] theorem safe_amoDone (tag reason : Nat) (v : Val) (sat : Bool) : Safe (amoDone s tag reason v sat) ↔ Safe s := by
  unfold amoDone
  split <;> simp
@[simp] theorem safe_amoAtHome (hs : Safe s) (r : PodAmoReq) : Safe (amoAtHome s r) := by
  have ha := safe_serveAmo hs (amoPart s r) r
  simp only [amoAtHome]
  split
  case h_1 he => exact safe_of_eq_mk he ha
  case h_2 he _ => exact (safe_podSend ..).mpr (safe_of_eq_mk he ha)
  case h_3 he _ => exact (safe_amoDone ..).mpr (safe_of_eq_mk he ha)
@[simp] theorem outSafe_execPodAmoAtHome (hs : Safe s) : OutSafe (execPodAmoAtHome s) := by
  simp only [execPodAmoAtHome]
  split <;> simp [hs]
@[simp] theorem outSafe_execReplayEntryExpiry (hs : Safe s) : OutSafe (execReplayEntryExpiry s) := by
  simp only [execReplayEntryExpiry]
  split <;> simp [hs]

/-! ## Timeouts (R467, R470, R479) -/

@[simp] theorem safe_newTicket (c : Nat) (r : PodAmoReq) : Safe (newTicket s c r).1 ↔ Safe s := by
  simp only [newTicket, safe_setCore]
  split
  case h_1 he => exact safe_choose he
  · rfl
@[simp] theorem safe_timeoutOut (hs : Safe s) (o : PodOut) : Safe (timeoutOut s o) := by
  simp only [timeoutOut]
  split <;> simp [hs]
@[simp] theorem outSafe_execPodTimeout (hs : Safe s) : OutSafe (execPodTimeout s) := by
  simp only [execPodTimeout]
  repeat' split
  all_goals simp [hs]

end Sys2Proof.Safety
end

section
/-! PROOFS. Memory stays in canonical form: pod commands, collectives, and events that fall due. -/

namespace Sys2Proof.Safety

open Sys2Proof.Machine

variable {s : State}

/-! ## Issuing commands (R464 to R471) -/

@[simp] theorem safe_podOut (r : Released) (home : Nat) (what : PodWait) (ticket : Option Nat) : Safe (podOut s r home what ticket).1 ↔ Safe s := by
  simp [podOut]
@[simp] theorem safe_servePut (hs : Safe s) (p : Option Nat) (src tag va : Nat) (ord : Option Nat) (d : PodData) :
    Safe (servePut s p src tag va ord d) := by
  have hp := safe_homePut hs p (.podPacketReceive (heldPort p) true (.put src tag va ord d)) va d
  unfold servePut
  split
  case h_1 he => exact safe_of_eq_mk he hp
  case h_2 he =>
    have ht := safe_of_eq_mk he hp
    split <;> simp [ht]
@[simp] theorem safe_serveGet (hs : Safe s) (p : Option Nat) (src tag va : Nat) (ord : Option Nat) (n : Nat) :
    Safe (serveGet s p src tag va ord n) := by
  have hg := safe_homeGet hs p (.podPacketReceive (heldPort p) true (.get src tag va ord n)) va n
  unfold serveGet
  split
  case h_1 he => exact safe_of_eq_mk he hg
  case h_2 he =>
    have ht := safe_of_eq_mk he hg
    split <;> simp [ht]
@[simp] theorem safe_issuePut (hs : Safe s) (r : Released) (ord : Bool) (sp : Space) : Safe (issuePut s r ord sp) := by
  simp only [issuePut]
  repeat' split
  all_goals simp [hs]
@[simp] theorem safe_issueGet (hs : Safe s) (r : Released) (ord full : Bool) (sp : Space) : Safe (issueGet s r ord full sp) := by simp [issueGet, hs]
@[simp] theorem safe_sendAmo (part : Option Nat) (home : Nat) (q : PodAmoReq) : Safe (sendAmo s part home q) ↔ Safe s := by simp [sendAmo]
@[simp] theorem safe_issueAmo (r : Released) (ord : Bool) (op : Nat) (w32 nat : Bool) : Safe (issueAmo s r ord op w32 nat) ↔ Safe s := by
  simp [issueAmo]
@[simp] theorem safe_issueRetry (r : Released) (ord : Bool) : Safe (issueRetry s r ord) ↔ Safe s := by
  simp only [issueRetry]
  split <;> simp

/-! ## Checks in the firing; gangs -/

@[simp] theorem outSafe_execPodPut (hs : Safe s) (x : XF) (ord : Bool) (sp : Space) : OutSafe (execPodPut x ord sp s) := by
  simp only [execPodPut]
  split <;> simp [hs]
@[simp] theorem outSafe_execPodGet (hs : Safe s) (x : XF) (ord full : Bool) (sp : Space) : OutSafe (execPodGet x ord full sp s) := by
  simp only [execPodGet]
  split <;> simp [hs]
@[simp] theorem outSafe_execPodAmo (hs : Safe s) (x : XF) (ord retry : Bool) (op : BitVec 4) (w32 nat : Bool) :
    OutSafe (execPodAmo x ord retry op w32 nat s) := by
  simp only [execPodAmo]
  split <;> simp [hs]
@[simp] theorem safe_gangFree (p count t : Nat) : Safe (gangFree s p count t) ↔ Safe s := by simp [gangFree]
@[simp] theorem safe_gangArrive (p src : Nat) : Safe (gangArrive s p src) ↔ Safe s := by simp [gangArrive]
@[simp] theorem safe_gangIssue (r : Released) : Safe (gangIssue s r) ↔ Safe s := by
  unfold gangIssue
  split <;> simp
@[simp] theorem outSafe_execGangSync (hs : Safe s) (pred : Pred) : OutSafe (execGangSync pred s) := by
  simp only [execGangSync]
  split <;> simp [hs]
@[simp] theorem safe_gangToken (fp slot t : Nat) : Safe (gangToken s fp slot t) ↔ Safe s := by simp [gangToken]
@[simp] theorem outSafe_execGangTokenDue (hs : Safe s) : OutSafe (execGangTokenDue s) := by
  simp only [execGangTokenDue]
  split <;> simp [hs]

/-! ## The time base (R462, R463) -/

@[simp] theorem safe_setOffset (o : ℤ) : Safe (setOffset s o) ↔ Safe s := by simp [setOffset]
@[simp] theorem safe_podAges (n : Nat) : Safe (podAges s n) ↔ Safe s := by simp [podAges]
@[simp] theorem safe_timeStep (count : Nat) : Safe (timeStep s count) ↔ Safe s := by simp [timeStep]
@[simp] theorem safe_announced (port prio no : Nat) : Safe (announced s port prio no) ↔ Safe s := by
  simp only [announced]
  repeat' split
  all_goals simp
@[simp] theorem safe_authDrop (n : Nat) : Safe (authDrop s n) ↔ Safe s := by simp [authDrop]
@[simp] theorem safe_timeMessage (port gm : Nat) (offset : ℤ) (count : Nat) : Safe (timeMessage s port gm offset count) ↔ Safe s := by
  simp [timeMessage]
@[simp] theorem outSafe_execPtpMessageReceive (hs : Safe s) : OutSafe (execPtpMessageReceive s) := by
  simp only [execPtpMessageReceive]
  split <;> simp [hs]
@[simp] theorem safe_portSend (n : Nat) (p : PodPkt) : Safe (portSend s n p) ↔ Safe s := by simp [portSend]
@[simp] theorem outSafe_execPtpSyncSend (hs : Safe s) : OutSafe (execPtpSyncSend s) := by
  simp only [execPtpSyncSend]
  split <;> simp [hs]
@[simp] theorem outSafe_execPtpAnnounceSend (hs : Safe s) : OutSafe (execPtpAnnounceSend s) := by
  simp only [execPtpAnnounceSend]
  split <;> simp [hs]
@[simp] theorem outSafe_execAnnounceReceiptTimeout (hs : Safe s) : OutSafe (execAnnounceReceiptTimeout s) := by
  simp only [execAnnounceReceiptTimeout]
  split <;> simp [hs]
@[simp] theorem outSafe_execPortStateChange (hs : Safe s) : OutSafe (execPortStateChange s) := by
  simp only [execPortStateChange]
  split <;> simp [hs]

/-! ## Collectives in progress (R473 to R475) -/

theorem kept_colRead (hs : Safe s) (c : Nat) (key : PodKey) (a es n : Nat) : Kept Prod.fst (colRead s c key a es n) := by
  unfold colRead
  split
  · trivial
  case h_2 ls _ => exact safe_loadAll hs (some c) (corePart s c) 1 ls
theorem kept_colWrite (hs : Safe s) (c : Nat) (key : PodKey) (a es : Nat) (els : PodData) : Kept id (colWrite s c key a es els) := by
  unfold colWrite
  split
  · trivial
  · exact safe_storeAll hs ..
@[simp] theorem safe_colMix (hs : Safe s) (k : Coll) (r : PodData × List Bool × Bool) : Safe (colMix s k r).1 := by
  have hr (n : Nat) := kept_colRead hs k.rel.core (.coll k.serial) (opNat k.rel 0) (colEs k.ty) n
  simp only [colMix]
  split
  · exact hs
  · split
    · exact hs
    case h_2 s1 data he =>
      have h1 : Safe s1 := safe_of_eq_ok he (hr _)
      exact (safe_congr rfl).mpr h1
@[simp] theorem safe_colEnd (k : Coll) (reason : Nat) (v : Val) : Safe (colEnd s k reason v) ↔ Safe s := by simp [colEnd]
@[simp] theorem safe_colGate (hs : Safe s) (k : Coll) (n : Nat) : Safe (colGate s k n).1 := by
  simp only [colGate]
  repeat' split
  all_goals simp [hs]
@[simp] theorem safe_colWriteAll (hs : Safe s) (k : Coll) : Safe (colWriteAll s k) := by
  have hw {t : State} (ht : Safe t) (els : PodData) := kept_colWrite ht k.rel.core (.coll k.serial) (opNat k.rel 1) (colEs k.ty) els
  simp only [colWriteAll]
  split
  · exact (safe_colEnd ..).mpr hs
  case h_2 s1 he =>
    have h1 : Safe s1 := by
      have h := hw hs (colResult k).1
      rw [he] at h
      exact h
    have h2 := safe_colMix h1 k (colResult k)
    generalize colMix s1 k (colResult k) = m at h2 ⊢
    have h3 : Kept id (if colOverlap k then colWrite m.1 k.rel.core (.coll k.serial) (opNat k.rel 1) (colEs k.ty) m.2.1 else .ok m.1) := by
      split
      · exact hw h2 _
      · exact h2
    split
    · exact (safe_colEnd ..).mpr h2
    case h_2 he =>
      rw [he] at h3
      have h4 : Safe _ := h3
      split <;> simpa using h4
@[simp] theorem safe_colTell (k : Coll) : Safe (colTell s k) ↔ Safe s := by simp [colTell]
@[simp] theorem safe_colStep (hs : Safe s) (serial : Nat) : Safe (colStep s serial) := by
  unfold colStep
  split
  · exact hs
  case h_2 k _ =>
    have hg (n : Nat) := safe_colGate hs k n
    split_ifs
    · exact hs
    · simpa using hs
    · exact hs
    · exact hs
    · split
      · exact (safe_startWalk ..).mpr hs
      · split
        case h_1 he => exact safe_of_eq_mk he (hg _)
        case h_2 he => exact (safe_kvLeaveAll _).mpr (safe_colWriteAll (safe_of_eq_mk he (hg _)) k)
@[simp] theorem safe_colAll (hs : Safe s) : Safe (colAll s) := by
  unfold colAll
  exact safe_foldl (fun s a h => by simp [h]) _ hs
@[simp] theorem safe_colFail (r : Released) (reason : Nat) : Safe (colFail s r reason) ↔ Safe s := by simp [colFail]
@[simp] theorem safe_colIssue (hs : Safe s) (r : Released) : Safe (colIssue s r) := by
  unfold colIssue
  split
  · exact hs
  · split
    · exact (safe_colFail ..).mpr hs
    · split
      · exact (safe_colFail ..).mpr hs
      · have hr (a es n : Nat) := kept_colRead hs r.core (.cmd r.num) a es n
        split
        · simpa using hs
        case h_2 he =>
          have ht := safe_of_eq_ok he (hr ..)
          refine safe_colStep ?_ _
          simpa using ht
@[simp] theorem safe_colReceive (hs : Safe s) (x : Contrib) : Safe (colReceive s x) := by
  simp only [colReceive]
  split <;> simp [hs]
@[simp] theorem outSafe_execCollectiveTimeout (hs : Safe s) : OutSafe (execCollectiveTimeout s) := by
  simp only [execCollectiveTimeout]
  repeat' split
  all_goals simp [hs]
@[simp] theorem safe_podWake (hs : Safe s) (key : PodKey) : Safe (podWake s key) := by
  simp only [podWake]
  repeat' split
  all_goals simp [hs]
@[simp] theorem safe_settlePods (hs : Safe s) : Safe (settlePods s) := by
  unfold settlePods
  exact safe_foldl (fun s a h => by simp [h]) _ hs

/-! ## The commands (R466, R472) -/

@[simp] theorem outSafe_execColAllred (hs : Safe s) (x : XF) (ty rop : BitVec 2) : OutSafe (execColAllred x ty rop s) := by
  simp only [execColAllred]
  split <;> simp [hs]
@[simp] theorem outSafe_execColRedscat (hs : Safe s) (x : XF) (ty rop : BitVec 2) : OutSafe (execColRedscat x ty rop s) := by
  simp only [execColRedscat]
  split <;> simp [hs]
@[simp] theorem outSafe_execColAllgath (hs : Safe s) (x : XF) (ty : BitVec 2) : OutSafe (execColAllgath x ty s) := by
  simp only [execColAllgath]
  split <;> simp [hs]
@[simp] theorem outSafe_execColBcast (hs : Safe s) (x : XF) (ty : BitVec 2) : OutSafe (execColBcast x ty s) := by
  simp only [execColBcast]
  split <;> simp [hs]
@[simp] theorem outSafe_execColStat (hs : Safe s) (x : XF) : OutSafe (execColStat x s) := by
  simp only [execColStat]
  split <;> simp [hs]

/-! ## Debug halt (R479) -/

@[simp] theorem safe_debugHalt (hs : Safe s) (on : Bool) : Safe (debugHalt s on) := by
  unfold debugHalt
  split
  · exact (safe_modPod ..).mpr ((safe_foldl_iff (fun _ _ => safe_stopRun _) ..).mpr hs)
  · refine safe_colAll ((safe_modPod ..).mpr ?_)
    exact safe_foldl (fun s c h => safe_restartCore ((safe_modCore ..).mpr h) c) _ hs
@[simp] theorem outSafe_execPodDebugHalt (hs : Safe s) : OutSafe (execPodDebugHalt s) := by
  simp only [execPodDebugHalt]
  split <;> simp [hs]
@[simp] theorem outSafe_execDebugHaltAdvertise (hs : Safe s) : OutSafe (execDebugHaltAdvertise s) := by
  simp only [execDebugHaltAdvertise]
  split <;> simp [hs]
@[simp] theorem outSafe_execDebugHaltSeen (hs : Safe s) : OutSafe (execDebugHaltSeen s) := by
  simp only [execDebugHaltSeen]
  split <;> simp [hs]
@[simp] theorem outSafe_execDebugHaltLapse (hs : Safe s) : OutSafe (execDebugHaltLapse s) := by
  simp only [execDebugHaltLapse]
  split <;> simp [hs]

/-! ## Receipt (R459) -/

@[simp] theorem safe_serve (hs : Safe s) (port p : Nat) (k : PodPkt) : Safe (serve s port p k) := by
  simp only [serve]
  split <;> simp [hs]
@[simp] theorem safe_accept (hs : Safe s) (port : Nat) (k : PodPkt) : Safe (accept s port k) := by
  simp only [accept]
  split <;> simp [hs]
@[simp] theorem safe_receive (hs : Safe s) (port : Nat) (auth : Bool) (k : PodPkt) : Safe (receive s port auth k) := by simp [receive, hs]
@[simp] theorem outSafe_execPodPacketReceive (hs : Safe s) : OutSafe (execPodPacketReceive s) := by
  simp only [execPodPacketReceive]
  split <;> simp [hs]
@[simp] theorem safe_countClass (hs : Safe s) (c n : Nat) : Safe (countClass s c n) := by simp [countClass, hs]
@[simp] theorem safe_dieCclk (hs : Safe s) (d : Nat) : Safe (dieCclk s d) := by
  simp only [dieCclk]
  split
  · exact hs
  · exact safe_foldl (fun s c h => safe_countClass h ..) _ ((safe_setDie ..).mpr hs)

/-! ## Events that fall due; stores and tag operations: checked now, performed at commit step 3 -/

@[simp] theorem safe_nextTick : Safe (nextTick s) ↔ Safe s := by simp [nextTick]
@[simp] theorem safe_advance (hs : Safe s) : Safe (advance s) := by
  unfold advance
  refine (safe_foldl_iff (fun _ _ => safe_raiseOnce _) ..).mpr (safe_foldl (fun s d h => safe_dieCclk h d) _ ?_)
  split
  · exact hs
  · exact safe_nextTick.mpr hs
@[simp] theorem outSafe_cpyExec (hs : Safe s) (i : Instr) (k : Nat) (wrA wrB : Bool) (plane : Option Nat) :
    OutSafe (cpyExec s i k wrA wrB plane) := by
  simp only [cpyExec]
  repeat' split
  all_goals simp [hs]
@[simp] theorem outSafe_execCpyStream (hs : Safe s) (x : XF) (sync full : Bool) (stream : BitVec 2) (sps spd : Space) (esz : BitVec 3) :
    OutSafe (execCpyStream x sync full stream sps spd esz s) := by
  simp [execCpyStream, hs]
@[simp] theorem outSafe_execCpyPlanes (hs : Safe s) (x : XF) (sync full : Bool) (stream : BitVec 2) (spm : Space) (dir mat : Bool)
    (ws wd low : BitVec 4) (code : BitVec 2) (g expadj : Bool) :
    OutSafe (execCpyPlanes x sync full stream spm dir mat ws wd low code g expadj s) := by
  simp [execCpyPlanes, hs]
@[simp] theorem outSafe_execCpyConv (hs : Safe s) (x : XF) (sync full : Bool) (stream : BitVec 2) (spm : Space) (dir : Bool)
    (fmt : BitVec 5) (wd : BitVec 4) (code : BitVec 2) (g sat : Bool) (lay : BitVec 2) :
    OutSafe (execCpyConv x sync full stream spm dir fmt wd code g sat lay s) := by
  simp [execCpyConv, hs]
@[simp] theorem outSafe_cpyCtl (hs : Safe s) (i : Instr) (chk : State → Nat → List Val → Option FRes) : OutSafe (cpyCtl s i chk) := by
  simp only [cpyCtl]
  repeat' split
  all_goals simp [hs]
@[simp] theorem outSafe_execCpyCancel (hs : Safe s) (x : XF) (all : Bool) (stream : BitVec 2) : OutSafe (execCpyCancel x all stream s) := by
  simp [execCpyCancel, hs]
@[simp] theorem outSafe_execCpySave (hs : Safe s) (x : XF) (clr : Bool) (stream : BitVec 2) : OutSafe (execCpySave x clr stream s) := by
  simp [execCpySave, hs]
@[simp] theorem outSafe_execCpyResume (hs : Safe s) (x : XF) (img : Bool) (stream : BitVec 2) : OutSafe (execCpyResume x img stream s) := by
  simp [execCpyResume, hs]
@[simp] theorem outSafe_execCpyStat (hs : Safe s) (x : XF) (stream : BitVec 2) : OutSafe (execCpyStat x stream s) := by simp [execCpyStat, hs]

/-! ## Engines resume, walks end -/

@[simp] theorem outSafe_execEngineSyncReadResume (hs : Safe s) : OutSafe (execEngineSyncReadResume s) := by
  simp only [execEngineSyncReadResume]
  repeat' split
  all_goals simp [hs]
@[simp] theorem safe_walkDone (c ser idx : Nat) : Safe (walkDone s c ser idx) ↔ Safe s := by
  unfold walkDone
  split <;> simp
@[simp] theorem safe_walkAnswer (hs : Safe s) (part : Option Nat) (res : Except Nat Tlb) (q : WalkReq) : Safe (walkAnswer s part res q) := by
  simp only [walkAnswer]
  repeat' split
  all_goals simp [hs]
theorem outSafe_execWalkComplete (hs : Safe s) : OutSafe (execWalkComplete s) := by
  unfold execWalkComplete
  split
  · dsimp only
    split
    · trivial
    · rw [outSafe_next]
      refine safe_foldl (fun s q h => safe_walkAnswer h ..) _ ?_
      simpa using hs
  · trivial

end Sys2Proof.Safety
end

section
/-! PROOFS. Memory stays in canonical form: block store, sequence and integrator commands. -/

namespace Sys2Proof.Safety

open Sys2Proof.Machine

variable {s : State}

/-! ## At the home; lists -/

/-- What a command of opcode 0x75 or 0x76 does at its home leaves memory in canonical form. -/
def EffKept (eff : State → Released → SDone) : Prop := ∀ s r, Safe s → Safe (eff s r).1
theorem outSafe_seqExec (hs : Safe s) (i : Instr) (chk : State → Nat → List Val → Option FRes) {eff : State → Released → SDone} (he : EffKept eff) :
    OutSafe (seqExec s i chk eff) := by
  unfold seqExec
  split
  case h_1 r _ => exact (safe_sendDone ..).mpr (he s r hs)
  · exact outSafe_fireWord hs _ _
theorem safe_kvFreeSlot {k : Kvb} {t : State × Nat} (ht : kvFreeSlot s k = some t) : Safe t.1 ↔ Safe s := safe_choose ht
@[simp] theorem safe_setKvb (d : Nat) (k : Kvb) : Safe (setKvb s d k) ↔ Safe s := by simp [setKvb]
@[simp] theorem safe_kvAppend (hs : Safe s) (d seq layer slot b : Nat) : Safe (kvAppend s d seq layer slot b) := by simp [kvAppend, hs]
theorem safe_kvAlloc (hs : Safe s) (key : Nat) (zero : Bool) : Safe (kvAlloc s key zero).1 := by
  simp only [kvAlloc]
  split
  · exact hs
  · split
    · exact hs
    case h_2 hb =>
      have h1 := (safe_kvFreeBlock hb).mpr hs
      split
      · exact h1
      case h_2 hc =>
        have h2 := (safe_kvFreeSlot hc).mpr h1
        refine safe_kvAppend ?_ ..
        split
        · exact (safe_setMem ..).mpr (memWithout_wf h2 _)
        · exact h2
theorem outSafe_execKvbAlloc (hs : Safe s) (x : XF) (zero : Bool) : OutSafe (execKvbAlloc x zero s) :=
  outSafe_seqExec hs _ _ fun _ _ h => safe_kvAlloc h ..
theorem outSafe_execKvbMap (hs : Safe s) (x : XF) : OutSafe (execKvbMap x s) := by
  refine outSafe_seqExec hs _ _ fun s r h => ?_
  dsimp only
  split <;> exact h
@[simp] theorem safe_shareDo (hs : Safe s) (d child : Nat) (l : List (Nat × Nat)) : Safe (shareDo s d child l) := by
  induction l generalizing s with
  | nil => exact hs
  | cons e l ih =>
    unfold shareDo
    split
    · exact hs
    case h_2 he => exact ih (safe_kvAppend ((safe_kvFreeSlot he).mpr hs) ..)
theorem outSafe_execKvbShare (hs : Safe s) (x : XF) (nl1 : BitVec 8) : OutSafe (execKvbShare x nl1 s) := by
  refine outSafe_seqExec hs _ _ fun s r h => ?_
  simp only [kvShare]
  split
  · exact h
  · exact safe_shareDo h ..
@[simp] theorem safe_kvDrop (hs : Safe s) (d slot : Nat) : Safe (kvDrop s d slot) := by
  simp only [kvDrop]
  split <;> simp [hs]
@[simp] theorem safe_kvTrunc (hs : Safe s) (d seq layer keep : Nat) : Safe (kvTrunc s d seq layer keep) := by
  unfold kvTrunc
  exact safe_foldl (fun s a h => by simp [h]) _ hs
@[simp] theorem safe_kvEmpty (hs : Safe s) (d seq : Nat) : Safe (kvEmpty s d seq).1 := by
  unfold kvEmpty
  exact safe_foldl (fun s a h => by simp [h]) _ hs
theorem outSafe_execKvbFree (hs : Safe s) (x : XF) (all : Bool) : OutSafe (execKvbFree x all s) := by
  refine outSafe_seqExec hs _ _ fun s r h => ?_
  simp only [kvFreeCmd]
  split
  · exact h
  · split
    · exact safe_kvEmpty h ..
    · exact safe_kvTrunc h ..
theorem outSafe_execKvbStat (hs : Safe s) (x : XF) (die : BitVec 5) (own : Bool) : OutSafe (execKvbStat x die own s) := by
  refine outSafe_seqExec hs _ _ fun s r h => ?_
  dsimp only
  split <;> exact h

/-! ## Applying a winner (R386, R387) -/

@[simp] theorem safe_putSeq (id : Nat) (q : Machine.Seq) : Safe (putSeq s id q) ↔ Safe s := by simp [putSeq]
@[simp] theorem safe_targetToken (r : Released) (t off v : Nat) : Safe (targetToken s r t off v) ↔ Safe s := by simp [targetToken]
section
variable {o : SeqOp}
theorem safe_seqFork (ho : Safe o.s) (w : Nat) : Safe (seqFork o w).s := by
  unfold seqFork
  extract_lets d k layers
  clear_value layers
  split
  · exact ho
  · dsimp only
    split
    · exact ho
    · exact safe_shareDo ((safe_putSeq ..).mpr ho) ..
theorem safe_applyPlain (ho : Safe o.s) (w y : Nat) : Safe (applyPlain o w y).s := by
  simp only [applyPlain]
  split
  · exact safe_seqFork ho w
  · split <;> exact ho
theorem safe_applyInject (ho : Safe o.s) (k y : Nat) : Safe (applyInject o k y).s := by
  simp only [applyInject]
  split
  · refine safe_applyPlain ?_ ..
    exact ho
  · exact ho
theorem safe_seqPos (ho : Safe o.s) (y : Nat) : Safe (seqPos o y).1.s := by
  simp only [seqPos]
  split
  · exact ho
  · dsimp only
    split
    · refine safe_applyInject ?_ ..
      exact ho
    · refine safe_applyPlain ?_ ..
      exact ho
theorem safe_confirmLoop (ho : Safe o.s) (n : Nat) : Safe (confirmLoop n o).1.s := by
  induction n generalizing o with
  | zero => exact ho
  | succ n ih =>
    unfold confirmLoop
    split
    · exact ho
    case h_2 y p l _ =>
      have hp := safe_seqPos (o := { o with q := { o.q with drafts := l }, conf := o.conf + 1 }) ho y
      dsimp only
      generalize seqPos { o with q := { o.q with drafts := l }, conf := o.conf + 1 } y = a at hp ⊢
      split
      · exact hp
      · exact ih hp
theorem safe_trapTokens (hs : Safe s) (r : Released) (b : Nat) (l : List (Nat × Nat)) :
    Safe (l.foldl (fun s e => targetToken s r b e.1 e.2) s) :=
  safe_foldl (fun _ _ h => (safe_targetToken ..).mpr h) l hs
theorem safe_logEvent (hs : Safe s) (d n m w k : Nat) (ws : List (BitVec 64)) :
    Safe (dieEvent (logRec s d n 0 3 0 ws).1 d 0 m w k) := safe_dieEvent ((safe_logRec ..).mpr hs) ..
theorem safe_seqEnd (ho : Safe o.s) (r : Released) : Safe (seqEnd o r).1 := by
  simp only [seqEnd, seqOk]
  generalize hs2 : (if o.nmask ≠ 0 ∧ bit o.q.nott 39 = true then _ else _ : State) = s2
  have h2 : Safe s2 := by
    rw [← hs2]
    split
    · exact (safe_targetToken ..).mpr ((safe_putSeq ..).mpr ho)
    · exact (safe_putSeq ..).mpr ho
  cases o.trap with
  | none => exact h2
  | some e =>
    dsimp only
    split
    · exact safe_trapTokens h2 ..
    · exact safe_logEvent h2 ..
theorem safe_seqOn {k : SDone} (hs : Safe s) (hk : Safe k.1) (id : Nat) (cs : List (Bool × Nat)) : Safe (seqOn s id cs k).1 := by
  unfold seqOn
  split
  · exact hs
  · exact hk
end
theorem safe_seqOk (hs : Safe s) (v : Nat) : Safe (seqOk s v).1 := hs
theorem safe_seqOnPut (hs : Safe s) (id n : Nat) (q : Machine.Seq) (cs : List (Bool × Nat)) (v : Nat) :
    Safe (seqOn s id cs (seqOk (putSeq s n q) v)).1 :=
  safe_seqOn hs (safe_seqOk ((safe_putSeq ..).mpr hs) v) ..

/-! ## Sequence commands (R389 to R392) -/

theorem outSafe_execSeqOpen (hs : Safe s) (x : XF) (die : BitVec 5) (own : Bool) : OutSafe (execSeqOpen x die own s) := by
  unfold execSeqOpen
  apply outSafe_seqExec hs
  intro s r h
  dsimp only
  split
  · exact h
  · exact safe_seqOk ((safe_putSeq ..).mpr h) _
theorem outSafe_execSeqEmit (hs : Safe s) (x : XF) : OutSafe (execSeqEmit x s) := by
  refine outSafe_seqExec hs _ _ fun s r h => safe_seqOn h (safe_seqEnd ?_ r) ..
  exact safe_seqPos h _
theorem outSafe_execSeqDraft (hs : Safe s) (x : XF) : OutSafe (execSeqDraft x s) :=
  outSafe_seqExec hs _ _ fun _ _ h => safe_seqOnPut h ..
theorem safe_confirmLast {a : SeqOp × Bool} (ha : Safe a.1.s) (p : Prop) [Decidable p] (y : Nat) :
    Safe (if p then (if a.2 then { a.1 with q := { a.1.q with drafts := [] } }
      else (seqPos { a.1 with q := { a.1.q with drafts := [] }, cdone := 1, conf := a.1.conf + 1 } y).1) else a.1).s := by
  split
  · split
    · exact ha
    · refine safe_seqPos ?_ _
      exact ha
  · exact ha
theorem outSafe_execSeqConfirm (hs : Safe s) (x : XF) (corr : Bool) : OutSafe (execSeqConfirm x corr s) := by
  unfold execSeqConfirm
  refine outSafe_seqExec hs _ _ fun s r h => safe_seqOn h (safe_seqEnd ?_ r) ..
  have hl := safe_confirmLoop (o := { s, id := opNat r 0, q := s.seqOf (opNat r 0) }) h (opn r.ops 1).nat
  exact safe_confirmLast hl _ _
theorem outSafe_execSeqReject (hs : Safe s) (x : XF) : OutSafe (execSeqReject x s) :=
  outSafe_seqExec hs _ _ fun _ _ h => safe_seqOnPut h ..
theorem outSafe_execSeqResume (hs : Safe s) (x : XF) : OutSafe (execSeqResume x s) := by
  refine outSafe_seqExec hs _ _ fun s r h => safe_seqOn h ?_ ..
  split
  · exact h
  · exact safe_seqOk ((safe_putSeq ..).mpr h) _
theorem outSafe_execSeqClose (hs : Safe s) (x : XF) : OutSafe (execSeqClose x s) :=
  outSafe_seqExec hs _ _ fun _ _ h => safe_seqOn h (safe_seqOk ((safe_putSeq ..).mpr (safe_kvEmpty h ..)) _) ..

/-! ## Watch commands (R393 to R395) -/

theorem outSafe_execWchSet (hs : Safe s) (x : XF) (pat len1 act : BitVec 3) (injlen : BitVec 4) : OutSafe (execWchSet x pat len1 act injlen s) :=
  outSafe_seqExec hs _ _ fun _ _ h => safe_seqOnPut h ..
theorem outSafe_execWchBudget (hs : Safe s) (x : XF) (bud : BitVec 2) (act : BitVec 3) : OutSafe (execWchBudget x bud act s) :=
  outSafe_seqExec hs _ _ fun _ _ h => safe_seqOnPut h ..
theorem outSafe_execWchClr (hs : Safe s) (x : XF) (pmask : BitVec 8) (bmask : BitVec 4) (notify : Bool) :
    OutSafe (execWchClr x pmask bmask notify s) :=
  outSafe_seqExec hs _ _ fun _ _ h => safe_seqOnPut h ..
theorem outSafe_execWchStat (hs : Safe s) (x : XF) : OutSafe (execWchStat x s) := by
  refine outSafe_seqExec hs _ _ fun s r h => ?_
  dsimp only
  split
  · exact h
  · exact safe_seqOnPut h ..

/-! ## A command in the array -/

/-- What an integrator command does in the array leaves memory in canonical form. -/
def ResKept : DRes → Prop
  | .wait _ => True
  | .done s _ _ => Safe s
  | .later s => Safe s
def DEffKept (eff : State → Nat → Released → DRes) : Prop := ∀ s c r, Safe s → ResKept (eff s c r)
theorem safe_ddaWork (hs : Safe s) (c : Nat) (r : Released) (q : List EngCmd) {eff : State → Nat → Released → DRes} (he : DEffKept eff) :
    Safe (ddaWork s c r q eff) := by
  have hst := (safe_secStart c r.sec).mpr hs
  have hd := he _ c r hst
  simp only [ddaWork]
  split
  · simpa using hs
  case h_2 hr =>
    rw [hr] at hd
    have ht : Safe _ := hd
    simpa using ht
  case h_3 hr =>
    rw [hr] at hd
    have ht : Safe _ := hd
    simpa using ht
theorem outSafe_ddaExec (hs : Safe s) (i : Instr) (chk : State → Nat → List Val → Option FRes) {eff : State → Nat → Released → DRes}
    (he : DEffKept eff) : OutSafe (ddaExec s i chk eff) := by
  unfold ddaExec
  split
  · split
    · split
      · exact safe_ddaWork hs _ _ _ he
      · trivial
    · trivial
  · exact outSafe_fireWord hs _ _

/-! ## DDA.PATCH (R299, R300, R311, R344) -/

theorem resKept_ddaWords {c : Nat} {r : Released} {n : Nat} {k : List TWord → DRes} (hk : ∀ ws, ResKept (k ws)) : ResKept (ddaWords s c r n k) := by
  simp only [ddaWords]
  split
  · trivial
  · exact hk _
theorem resKept_guarded {t : State} {p q : Prop} [Decidable p] [Decidable q] {a b v : Nat} {x : Bool} (hs : Safe s) (ht : Safe t) :
    ResKept (if p then .cond s a else if q then .cond s b else .done t v x) := by
  split
  · exact hs
  · split
    · exact hs
    · exact ht
theorem outSafe_execDdaPatch (hs : Safe s) (x : XF) (first count1 : BitVec 8) (links : Bool) : OutSafe (execDdaPatch x first count1 links s) := by
  refine outSafe_ddaExec hs _ _ fun s c r h => ?_
  unfold patchEff
  refine resKept_ddaWords fun ws => ?_
  exact resKept_guarded h ((safe_modDda ..).mpr h)

/-! ## Loads, dividers, runs (R312, R313) -/

theorem loadEff_kept (first count1 : BitVec 8) (res : Bool) : DEffKept (loadEff first count1 res) := by
  intro s c r h
  unfold loadEff
  refine resKept_ddaWords fun ws => ?_
  exact resKept_guarded h ((safe_modDda ..).mpr h)
theorem outSafe_execDdaLdy (hs : Safe s) (x : XF) (first count1 : BitVec 8) : OutSafe (execDdaLdy x first count1 s) :=
  outSafe_ddaExec hs _ _ (loadEff_kept first count1 false)
theorem outSafe_execDdaLdr (hs : Safe s) (x : XF) (first count1 : BitVec 8) : OutSafe (execDdaLdr x first count1 s) :=
  outSafe_ddaExec hs _ _ (loadEff_kept first count1 true)
theorem outSafe_execDdaClk (hs : Safe s) (x : XF) (dom : BitVec 3) : OutSafe (execDdaClk x dom s) := by
  refine outSafe_ddaExec hs _ _ fun s c r h => ?_
  split
  · exact h
  · exact (safe_modDda ..).mpr h
theorem outSafe_execDdaRun (hs : Safe s) (x : XF) (dmask : BitVec 8) : OutSafe (execDdaRun x dmask s) := by
  refine outSafe_ddaExec hs _ _ fun s c r h => ?_
  split
  · exact h
  · exact (safe_modDda ..).mpr h
theorem outSafe_execDdaStop (hs : Safe s) (x : XF) (dmask : BitVec 8) : OutSafe (execDdaStop x dmask s) := by
  refine outSafe_ddaExec hs _ _ fun s c r h => (safe_flushStops _).mpr (safe_foldl (fun s d h => ?_) _ h)
  dsimp only
  split
  · exact (safe_domStop ..).mpr (safe_domAnswer h ..)
  · exact safe_domAnswer h ..

/-! ## DDA.TAP, DDA.READ; images -/

theorem outSafe_execDdaTap (hs : Safe s) (x : XF) (tap : BitVec 4) (mode : BitVec 2) (rest : BitVec 26) :
    OutSafe (execDdaTap x tap mode rest s) := by
  refine outSafe_ddaExec hs _ _ fun s c r h => ?_
  dsimp only
  split
  · exact safe_tapEnd h ..
  · exact (safe_setTap ..).mpr (safe_tapEnd h ..)
theorem outSafe_execDdaRead (hs : Safe s) (x : XF) (first count1 : BitVec 8) : OutSafe (execDdaRead x first count1 s) :=
  outSafe_ddaExec hs _ _ fun _ _ _ h => safe_putWords h ..
theorem outSafe_execDdaSave (hs : Safe s) (x : XF) (dom : BitVec 3) : OutSafe (execDdaSave x dom s) := by
  refine outSafe_ddaExec hs _ _ fun s c r h => ?_
  dsimp only
  split
  · exact h
  · exact safe_putWords h ..
theorem outSafe_execDdaRestore (hs : Safe s) (x : XF) (dom : BitVec 3) : OutSafe (execDdaRestore x dom s) := by
  refine outSafe_ddaExec hs _ _ fun s c r h => resKept_ddaWords fun ws => ?_
  split
  · exact h
  · split
    · exact h
    · exact (safe_modDda ..).mpr h
theorem outSafe_execDdaStat (hs : Safe s) (x : XF) (dom : BitVec 3) : OutSafe (execDdaStat x dom s) :=
  outSafe_ddaExec hs _ _ fun _ _ _ h => (safe_modDda ..).mpr h

end Sys2Proof.Safety
end

section
/-! PROOFS. Memory stays in canonical form: exec, and what follows every act. -/

namespace Sys2Proof.Safety

open Sys2Proof.Machine

variable {s : State}

/-! ## Events -/

@[simp] theorem safe_ddaMore (c t : Nat) : Safe (ddaMore s c t) ↔ Safe s := by
  unfold ddaMore
  split <;> simp
theorem outSafe_ddaEvent (c kind : Nat) {k : Nat → State} (hk : ∀ t, Safe (k t)) : OutSafe (ddaEvent s c kind k) := by
  simp only [ddaEvent]
  split
  · split
    · exact (safe_ddaMore ..).mpr (hk _)
    · trivial
  · trivial
theorem outSafe_execDdaStep (hs : Safe s) : OutSafe (execDdaStep s) := by
  unfold execDdaStep
  split
  · exact outSafe_ddaEvent _ _ fun _ => safe_ddaCclk hs ..
  · trivial
theorem outSafe_execLinkDeposit (hs : Safe s) : OutSafe (execLinkDeposit s) := by
  unfold execLinkDeposit
  split
  · exact outSafe_ddaEvent _ _ fun _ => by simp [hs]
  · trivial
theorem outSafe_execLinkOverrunAnswer (hs : Safe s) : OutSafe (execLinkOverrunAnswer s) := by
  unfold execLinkOverrunAnswer
  split
  · exact outSafe_ddaEvent _ _ fun _ => safe_foldl (fun _ _ h => safe_domAnswer h ..) _ hs
  · trivial
@[simp] theorem outSafe_execTick (hs : Safe s) (g : GF) : OutSafe (execTick g s) := outSafe_fireWord hs _ _
@[simp] theorem outSafe_execWaittick (hs : Safe s) (pred : Pred) : OutSafe (execWaittick pred s) := outSafe_fireWord hs _ _
@[simp] theorem outSafe_execSysRd (hs : Safe s) (f : TF) (reg : BitVec 9) : OutSafe (execSysRd f reg s) := outSafe_fireWord hs _ _
@[simp] theorem outSafe_execSysWr (hs : Safe s) (pred : Pred) (reg : BitVec 9) : OutSafe (execSysWr pred reg s) := outSafe_fireWord hs _ _
@[simp] theorem outSafe_execPerfRd (hs : Safe s) (f : TF) (ctr : BitVec 9) : OutSafe (execPerfRd f ctr s) := outSafe_fireWord hs _ _
@[simp] theorem outSafe_execTlbInv (hs : Safe s) (pred : Pred) (scope : Scope) : OutSafe (execTlbInv pred scope s) := outSafe_fireWord hs _ _
theorem outSafe_exec (hs : Safe s) (i : Instr) : OutSafe (exec i s) := by
  cases i with
  | ffree => exact outSafe_execFfree hs ..
  | barArrive => exact outSafe_execBarArrive hs ..
  | barWait => exact outSafe_execBarWait hs ..
  | barCfg => exact outSafe_execBarCfg hs ..
  | gangSync => exact outSafe_execGangSync hs ..
  | vcvt => exact outSafe_execVcvt hs ..
  | vred => exact outSafe_execVred hs ..
  | vscan => exact outSafe_execVscan hs ..
  | vtopk => exact outSafe_execVtopk hs ..
  | vcompact => exact outSafe_execVcompact hs ..
  | vexpand => exact outSafe_execVexpand hs ..
  | vgather => exact outSafe_execVgather hs ..
  | vscatter => exact outSafe_execVscatter hs ..
  | vfill => exact outSafe_execVfill hs ..
  | vcopy => exact outSafe_execVcopy hs ..
  | vrand => exact outSafe_execVrand hs ..
  | vamaxh => exact outSafe_execVamaxh hs ..
  | unpackT5 => exact outSafe_execUnpackT5 hs ..
  | vplane => exact outSafe_execVplane hs ..
  | ppSet => exact outSafe_execPpSet hs ..
  | sclSet => exact outSafe_execSclSet hs ..
  | sclDerive => exact outSafe_execSclDerive hs ..
  | lbdCfg => exact outSafe_execLbdCfg hs ..
  | accArm => exact outSafe_execAccArm hs ..
  | mmp => exact outSafe_execMmp hs ..
  | mmpE => exact outSafe_execMmpE hs ..
  | accRel => exact outSafe_execAccRel hs ..
  | accClr => exact outSafe_execAccClr hs ..
  | accSave => exact outSafe_execAccSave hs ..
  | accLoad x acc => exact outSafe_execAccLoad hs x acc
  | accStat => exact outSafe_execAccStat hs ..
  | cpyStream => exact outSafe_execCpyStream hs ..
  | cpyPlanes => exact outSafe_execCpyPlanes hs ..
  | cpyConv => exact outSafe_execCpyConv hs ..
  | cpyCancel => exact outSafe_execCpyCancel hs ..
  | cpySave => exact outSafe_execCpySave hs ..
  | cpyResume => exact outSafe_execCpyResume hs ..
  | cpyStat => exact outSafe_execCpyStat hs ..
  | ddaPatch => exact outSafe_execDdaPatch hs ..
  | ddaLdy => exact outSafe_execDdaLdy hs ..
  | ddaLdr => exact outSafe_execDdaLdr hs ..
  | ddaClk => exact outSafe_execDdaClk hs ..
  | ddaRun => exact outSafe_execDdaRun hs ..
  | ddaStop => exact outSafe_execDdaStop hs ..
  | ddaTap => exact outSafe_execDdaTap hs ..
  | ddaRead => exact outSafe_execDdaRead hs ..
  | ddaSave => exact outSafe_execDdaSave hs ..
  | ddaRestore => exact outSafe_execDdaRestore hs ..
  | ddaStat => exact outSafe_execDdaStat hs ..
  | kvbAlloc => exact outSafe_execKvbAlloc hs ..
  | kvbMap => exact outSafe_execKvbMap hs ..
  | kvbShare => exact outSafe_execKvbShare hs ..
  | kvbFree => exact outSafe_execKvbFree hs ..
  | kvbStat => exact outSafe_execKvbStat hs ..
  | seqOpen x die own => exact outSafe_execSeqOpen hs x die own
  | seqEmit => exact outSafe_execSeqEmit hs ..
  | seqDraft => exact outSafe_execSeqDraft hs ..
  | seqConfirm => exact outSafe_execSeqConfirm hs ..
  | seqReject => exact outSafe_execSeqReject hs ..
  | seqResume => exact outSafe_execSeqResume hs ..
  | seqClose => exact outSafe_execSeqClose hs ..
  | wchSet => exact outSafe_execWchSet hs ..
  | wchBudget => exact outSafe_execWchBudget hs ..
  | wchClr => exact outSafe_execWchClr hs ..
  | wchStat => exact outSafe_execWchStat hs ..
  | podPut => exact outSafe_execPodPut hs ..
  | podGet => exact outSafe_execPodGet hs ..
  | podAmo => exact outSafe_execPodAmo hs ..
  | colAllred => exact outSafe_execColAllred hs ..
  | colRedscat => exact outSafe_execColRedscat hs ..
  | colAllgath => exact outSafe_execColAllgath hs ..
  | colBcast => exact outSafe_execColBcast hs ..
  | colStat => exact outSafe_execColStat hs ..
  | reset => exact outSafe_execReset hs
  | firingStart => exact outSafe_execFiringStart hs
  | firingCompletion => exact outSafe_execFiringCompletion hs
  | commit => exact outSafe_execCommit hs
  | takeAtHome => exact outSafe_execTakeAtHome hs
  | takeAnswer => exact outSafe_execTakeAnswer hs
  | fenceComplete => exact outSafe_execFenceComplete hs
  | tokenDelivery => exact outSafe_execTokenDelivery hs
  | sectionRestore => exact outSafe_execSectionRestore hs
  | sectionEnd => exact outSafe_execSectionEnd hs
  | recordAging => exact outSafe_execRecordAging hs
  | handlerActivation => exact outSafe_execHandlerActivation hs
  | frameCtlRerun => exact outSafe_execFrameCtlRerun hs
  | frameCtlResume => exact outSafe_execFrameCtlResume hs
  | frameCtlFree => exact outSafe_execFrameCtlFree hs
  | tqBaseWrite => exact outSafe_execTqBaseWrite hs
  | tqBaseApply => exact outSafe_execTqBaseApply hs
  | registerWrite => exact outSafe_execRegisterWrite hs
  | waittickTimerFire => exact outSafe_execWaittickTimerFire hs
  | frameAllocation => exact outSafe_execFrameAllocation hs
  | routerHoldExpiry => exact outSafe_execRouterHoldExpiry hs
  | combinedGroupAtHome => exact outSafe_execCombinedGroupAtHome hs
  | engineSyncReadResume => exact outSafe_execEngineSyncReadResume hs
  | ddaStep => exact outSafe_execDdaStep hs
  | linkDeposit => exact outSafe_execLinkDeposit hs
  | linkOverrunAnswer => exact outSafe_execLinkOverrunAnswer hs
  | kvbHeldRelease => exact outSafe_execKvbHeldRelease hs
  | podAmoAtHome => exact outSafe_execPodAmoAtHome hs
  | replayEntryExpiry => exact outSafe_execReplayEntryExpiry hs
  | podTimeout => exact outSafe_execPodTimeout hs
  | collectiveTimeout => exact outSafe_execCollectiveTimeout hs
  | podPacketReceive => exact outSafe_execPodPacketReceive hs
  | gangTokenDue => exact outSafe_execGangTokenDue hs
  | ptpMessageReceive => exact outSafe_execPtpMessageReceive hs
  | ptpSyncSend => exact outSafe_execPtpSyncSend hs
  | ptpAnnounceSend => exact outSafe_execPtpAnnounceSend hs
  | announceReceiptTimeout => exact outSafe_execAnnounceReceiptTimeout hs
  | portStateChange => exact outSafe_execPortStateChange hs
  | podDebugHalt => exact outSafe_execPodDebugHalt hs
  | debugHaltAdvertise => exact outSafe_execDebugHaltAdvertise hs
  | debugHaltSeen => exact outSafe_execDebugHaltSeen hs
  | debugHaltLapse => exact outSafe_execDebugHaltLapse hs
  | launchAccept => exact outSafe_execLaunchAccept hs
  | loadPhase2 => exact outSafe_execLoadPhase2 hs
  | coreSwitch => exact outSafe_execCoreSwitch hs
  | sliceEnd => exact outSafe_execSliceEnd hs
  | walkComplete => exact outSafe_execWalkComplete hs
  | walkRetry => exact outSafe_execWalkRetry hs
  | dramRefresh => exact outSafe_execDramRefresh hs
  | scrubVisit => exact outSafe_execScrubVisit hs
  | scrubPassEnd => exact outSafe_execScrubPassEnd hs
  | scrubCtlWrite => exact outSafe_execScrubCtlWrite hs
  | pewCtlWrite => exact outSafe_execPewCtlWrite hs
  | pewterExpiry => exact outSafe_execPewterExpiry hs
  | bankGateRequest => exact outSafe_execBankGateRequest hs
  | spgateRequest => exact outSafe_execSpgateRequest hs
  | bankGated => exact outSafe_execBankGated hs
  | bankWakeComplete => exact outSafe_execBankWakeComplete hs
  | kvbCtlWrite => exact outSafe_execKvbCtlWrite hs
  | partCtlWrite => exact outSafe_execPartCtlWrite hs
  | evselWrite => exact outSafe_execEvselWrite hs
  | traceCtlWrite => exact outSafe_execTraceCtlWrite hs
  | hctlRestart => exact outSafe_execHctlRestart hs
  | hctlStop => exact outSafe_execHctlStop hs
  | hctlMapout => exact outSafe_execHctlMapout hs
  | hctlMapin => exact outSafe_execHctlMapin hs
  | hostRead => exact outSafe_execHostRead hs
  | hostWrite => exact outSafe_execHostWrite hs
  | throttleChange => exact outSafe_execThrottleChange hs
  | errorRetry => exact outSafe_execErrorRetry hs
  | fatalDramLoss => exact outSafe_execFatalDramLoss hs
  | serviceAction => exact outSafe_execServiceAction hs
  | firmwareUpdate => exact outSafe_execFirmwareUpdate hs
  | attestReport => exact outSafe_execAttestReport hs
  | accessAtHome => exact outSafe_execAccessAtHome hs
  | loadValueReturn => exact outSafe_execLoadValueReturn hs
  | eventCounterWrap => exact outSafe_execEventCounterWrap hs
  | vadd | vsub | vmul | vfma | vmin | vmax | vabs | vneg | vand | vor | vxor
  | vshl | vshr | vcmp | vselect | vexp2 | vlog2 | vrcp | vrsq =>
    exact outSafe_vecExec hs _ _ (eachBlk_kept _ _ _) errFin_kept
  | _ => exact outSafe_fireWord hs _ _

/-! ## Doing an act -/

theorem safe_routeAtomic (a : Access) {t : State} (ht : routeAtomic s a = some t) : Safe t ↔ Safe s := by
  simp only [routeAtomic] at ht
  repeat' split at ht
  all_goals cases ht
  all_goals simp
@[simp] theorem safe_giveResult (c ser idx : Nat) (v : Val) (res : Option (Nat × Nat)) : Safe (giveResult s c ser idx v res) ↔ Safe s := by
  simp only [giveResult]
  repeat' split
  all_goals simp
theorem outSafe_runIn (hs : Safe s) (f : Focus) (i : Instr) : OutSafe (runIn s f i) :=
  outSafe_exec (s := { s with focus := f }) ((safe_congr rfl).mpr hs) i
theorem outSafe_runEvent (hs : Safe s) (e : Event) : OutSafe (runEvent s e) := outSafe_runIn hs _ _
theorem outSafe_deliverPacket (hs : Safe s) (p : Packet) : OutSafe (deliverPacket s p) := by
  cases p with
  | access a =>
    simp only [deliverPacket]
    split
    case h_1 ht => exact (safe_routeAtomic a ht).mpr hs
    · exact outSafe_runEvent hs _
  | release r => exact outSafe_runIn hs _ _
  | activate => exact safe_activate hs ..
  | fstat => exact (safe_send ..).mpr hs
  | result => exact (safe_giveResult ..).mpr hs
  | wake => exact safe_wakeFrame hs ..
  | _ => exact outSafe_runEvent hs _
theorem outSafe_doAct (hs : Safe s) (a : Act) : OutSafe (doAct s a) := by
  cases a with
  | run f i => exact outSafe_runIn hs _ _
  | net n =>
    simp only [doAct]
    split
    · split
      · exact (safe_startWalk ..).mpr hs
      · refine outSafe_deliverPacket ?_ _
        exact (safe_congr rfl).mpr hs
    · exact hs
  | inbox =>
    simp only [doAct]
    split
    · refine outSafe_runEvent ?_ _
      exact (safe_congr rfl).mpr hs
    · exact hs
  | clock => exact safe_advance hs
  | bad => trivial
theorem outSafe_stepAct (hs : Safe s) : OutSafe (stepAct s) := by
  unfold stepAct
  split
  · refine outSafe_runEvent ?_ _
    exact (safe_congr rfl).mpr hs
  · exact outSafe_doAct hs _
@[simp] theorem safe_forget : Safe (forget s) ↔ Safe s := by
  unfold forget
  split <;> simp
@[simp] theorem safe_noteIssue : Safe (noteIssue s) ↔ Safe s := by
  simp only [noteIssue]
  repeat' split
  all_goals simp
@[simp] theorem safe_trapDoubles (hs : Safe s) : Safe (trapDoubles s) :=
  safe_foldl (fun _ _ h => safe_foldl (fun _ _ h => safe_trapDouble h ..) _ h) _ hs
@[simp] theorem safe_settleSlots (hs : Safe s) : Safe (settleSlots s) := by
  refine safe_foldl (fun s d h => safe_foldl (fun s e h => ?_) _ h) _ hs
  split
  · exact (safe_kvLeave ..).mpr h
  · split
    · exact h
    · split
      · exact safe_colStep h _
      · exact safe_traceGo h _ _
      · exact h
@[simp] theorem safe_settleTime : Safe (settleTime s) ↔ Safe s := by simp [settleTime]
@[simp] theorem safe_settleErrors (hs : Safe s) : Safe (settleErrors s) :=
  safe_foldl (fun _ _ h => safe_foldl (fun _ _ h => safe_keepError h _) _ h) _ hs
theorem safe_afterAct (hs : Safe s) : Safe (afterAct s) :=
  safe_settleTime.mpr (safe_settlePorts.mpr (safe_settleSlots (safe_settlePods (safe_forget.mpr
    (safe_settleLaunches (safe_settle (safe_trapDoubles (safe_settleErrors (safe_noteIssue.mpr hs)))))))))
theorem outSafe_finish {o : Host.Outcome State Fault Refusal} (ho : OutSafe o) : OutSafe (finish o) := by
  cases o with
  | next t => exact safe_afterAct ho
  | _ => trivial

/-! ## Placing one instruction (withFetchWord) -/

theorem outSafe_step (hs : Safe s) : OutSafe (step s) := outSafe_finish (outSafe_stepAct hs)

/-! ## The obligation -/

/-- Settles O5: every way a step changes memory keeps the canonical form, function by function. -/
theorem stepKeepsMemoryCanonical : Obligations.StepKeepsMemoryCanonical := by
  intro s t hs h
  have ht := outSafe_step hs
  rwa [h] at ht

end Sys2Proof.Safety
end
